-- ==== Sys2Proof/Word.lean ====
section
/-!
DEFINITION. The word types of the Kolvia KZ4: bytes, 32-bit registers, 64-bit code words, 128-bit data.
-/
namespace Sys2Proof

/-- One byte of memory. -/
abbrev Byte := BitVec 8

/-- A general register (R61). -/
abbrev Reg32 := BitVec 32

/-- A code word, or a 64-bit register pair (R7, R62). -/
abbrev Word64 := BitVec 64

/-- A 10-bit operand specifier as it stands in a word (R21). -/
abbrev Spec := BitVec 10

end Sys2Proof
end

