-- ==== Sys2Proof/Config.lean ====
section
/-!
DEFINITION. What a unit fixes (its fuses) and the values the manual leaves open. None has a body, so nothing
can be proved of a value: a statement holds whatever it is (assumption log, entry 2).
-/
namespace Sys2Proof.Config

/-- The harvest fuses: bit p set when C die position p is dead (R1, R400, R406). -/
opaque deadPositions : BitVec 4

/-- The retired edge link, position · 2 + port, 7 for none (R401). -/
opaque retiredLink : BitVec 3

/-- The retirement fuses: core `c` of cluster `l` of live die `d` is retired (R417). -/
opaque coreRetired : Nat → Nat → Nat → Bool

/-- The retirement fuses: cluster `l` of live die `d` is retired (R417). -/
opaque clusterRetired : Nat → Nat → Bool

/-- Whether the unit is automotive grade, KZ4-A396 (R1, R437). -/
opaque automotive : Bool

/-- Ticks of 10 ns that pass before a turn (R6, R428): the manual fixes none. -/
opaque elapsed : Nat → Nat

/-- Whether the L1 serves a plain load from a copy it holds (R214, R375). -/
opaque l1Serves : Nat → Bool

/-- The value a stop handle takes (R275). -/
opaque stopHandle : Nat → Reg32

/-- The boot nonce of a RESET record (R428). -/
opaque bootNonce : Nat → BitVec 128

/-- The signature over a chain value (R429): its key and randomness are not stated. -/
opaque signature : BitVec 256 → BitVec 768

/-- Whether an undo record is itself uncorrectable (R427). -/
opaque undoLost : Nat → Bool

/-- The address of the signature table (R429). -/
opaque signatureBase : BitVec 48

/-- Which of the 384 aligned pieces of 256 MiB of the interleave window the cinder ring takes (R428). -/
opaque cinderPiece : Nat

/-- Where in its context's save area an item of a team stands: 0 its state, 1 + h the log of subscription h (R287, R330). -/
opaque savePlace : Nat → Nat → Nat

/-- The bytes of a saved item whose layout the manual does not state (R287, R330). -/
opaque savedByte : Nat → Nat → Byte

/-- Bytes that a line written under other keys decrypts to (R408). -/
opaque wrongKeyByte : Nat → Nat → Byte

/-- What the SPDM responder answers where the manual gives no value (R407). -/
opaque spdmBytes : Nat → List Byte

/-- The flits a station holds for a virtual channel, as T-die firmware sets them (R344). -/
opaque stationShare : Nat → Nat

/-- Whether the owner of a flit that was lost on a ring cannot be read from it (R345). -/
opaque ownerUnreadable : Nat → Bool

/-- What an error-log entry holds (R457). -/
opaque errorEntry : Nat → Word64

/-- What a register holds after a write of a value outside its range. -/
opaque registerValue : Nat → Word64

/-- SPDM signatures (R407). -/
opaque spdmSignature : Nat → BitVec 768

/-- SPDM digests (R407). -/
opaque spdmDigest : Nat → BitVec 384

/-- The SPDM measurement of an index, of the values it covers (R407). -/
opaque spdmMeasurement : Nat → List Nat → BitVec 384

/-- The rounding of a special function whose exact value the bracket of its series does not decide
(R142, assumption log entry 8); the first argument names the function. -/
opaque undecided : Nat → Reg32 → Bool

end Sys2Proof.Config
end

