-- ==== Sys2Proof/Syntax.lean ====
section
/-!
DEFINITION. The words of Coroilin 2 and the events of the part: one constructor of `Instr` per row of the
opcode table. An instruction carries its word's fields exactly as they stand, in the layout R27 gives its
opcode, so that a malformed field is still seen by the checks of R44. An event carries what names it.
-/
namespace Sys2Proof

/-- Bits [53:46], common to every F word (R19): guard enable, negate, predicate, flag select. -/
structure Head where
  g : BitVec 1
  n : BitVec 1
  pred : BitVec 4
  fs : BitVec 2
deriving DecidableEq, Repr

/-- The ALU layout (R19). -/
structure AluW where
  head : Head
  dst : Spec
  opa : Spec
  opb : Spec
  opc : Spec
  mod : BitVec 6
deriving DecidableEq, Repr

/-- The B-branch layout (R30). -/
structure BraW where
  head : Head
  tgt : BitVec 22
  join : BitVec 18
  sub : BitVec 6
deriving DecidableEq, Repr

/-- The B-indirect layout (R30); `r45`, `r25`, `r5` are its reserved fields. -/
structure BrxW where
  head : Head
  r45 : BitVec 10
  a : Spec
  r25 : BitVec 2
  join : BitVec 18
  r5 : BitVec 6
deriving DecidableEq, Repr

/-- The B-bare layout (R30). -/
structure BareW where
  head : Head
  rsv : BitVec 40
  sub : BitVec 6
deriving DecidableEq, Repr

/-- The M-access layout (R28). -/
structure MemW where
  head : Head
  d : Spec
  a : Spec
  off : BitVec 12
  sz : BitVec 3
  sx : BitVec 1
  sem : BitVec 2
  scope : BitVec 3
  f : BitVec 1
  q : BitVec 1
  sub : BitVec 3
deriving DecidableEq, Repr

/-- The M-atomic layout (R29). -/
structure AtomW where
  head : Head
  d : Spec
  a : Spec
  b : Spec
  aop : BitVec 4
  sz : BitVec 2
  sem : BitVec 2
  scope : BitVec 3
  q : BitVec 1
  rsv : BitVec 4
deriving DecidableEq, Repr

/-- The X-mul layout (R31). -/
structure MulW where
  head : Head
  mt : BitVec 6
  oba : BitVec 5
  bsrc : BitVec 10
  aoff : BitVec 5
  bfmt : BitVec 4
  st : BitVec 1
  bs : BitVec 1
  ac : BitVec 1
  sc : BitVec 1
  ng : BitVec 1
  gk : BitVec 6
  b : BitVec 1
  e : BitVec 1
  rsv : BitVec 3
deriving DecidableEq, Repr

/-- The X-tile layout (R32). -/
structure TileW where
  head : Head
  mt : BitVec 6
  ob : BitVec 5
  v : Spec
  w : Spec
  sg : BitVec 4
  slot : BitVec 3
  arr : BitVec 1
  sub : BitVec 7
deriving DecidableEq, Repr

/-- The E layout (R33). -/
structure EngW where
  head : Head
  d : Spec
  a : Spec
  sg : BitVec 4
  slot : BitVec 3
  arr : BitVec 1
  acq : BitVec 1
  rel : BitVec 1
  scope : BitVec 3
  ord : BitVec 1
  sub : BitVec 12
deriving DecidableEq, Repr

/-- The S layout (R34). -/
structure SysW where
  head : Head
  d : Spec
  a : Spec
  b : Spec
  sg : BitVec 4
  slot : BitVec 3
  ph : BitVec 1
  lvl : BitVec 3
  sub : BitVec 5
deriving DecidableEq, Repr

/-- One half of a P word (R36). -/
structure Half where
  op : BitVec 6
  i : BitVec 1
  d : BitVec 8
  s : BitVec 8
  g : BitVec 1
  n : BitVec 1
  pred : BitVec 4
  rsv : BitVec 2
deriving DecidableEq, Repr

/-- The four words that follow a parameter-block instruction, as they stand in the code (R40, R41). -/
structure CBlock where
  c0 : Word64
  c1 : Word64
  c2 : Word64
  c3 : Word64
deriving DecidableEq, Repr

/-- The eight words of the first half of a queue slot (R446, R447). -/
structure SlotLow where
  w0 : Word64
  w1 : Word64
  w2 : Word64
  w3 : Word64
  w4 : Word64
  w5 : Word64
  w6 : Word64
  w7 : Word64
deriving DecidableEq, Repr

/-- A 128-byte queue slot as sixteen 64-bit words (R444, R446). -/
structure QSlot where
  low : SlotLow
  high : SlotLow
deriving DecidableEq, Repr

/-- The writable and readable registers of BAR0 that have no action of their own (R443 and the register
tables of the package, ordered-execution, bellows and fabric chapters). `q` is a queue, `d` a live die. -/
inductive DevReg where
  | qcfg (q : Nat) | qcons (q : Nat) | qstat (q : Nat)
  | ctxbase | invlen | obbase | ibmap | parkth | drainth | classa
  | ckptiv | rbmax | mlog
  | undo (d : Nat) | mcres (d : Nat) | scrub (d : Nat)
  | guard | plim | defop | uncmin | tthr | replay
  | readOnly (n : Nat)
deriving DecidableEq, Repr

/-- A request of the host or a peer at BAR4 (R459): a read, a write, or an AtomicOp at a byte offset. -/
inductive Inbound where
  | read (offset size : Nat)
  | write (offset : Nat) (data : List Byte)
  | fetchAdd (offset : Nat) (wide : Bool) (operand : Word64)
  | swap (offset : Nat) (wide : Bool) (operand : Word64)
  | cas (offset : Nat) (wide : Bool) (compare operand : Word64)
deriving DecidableEq, Repr

/-- Algorithms an SPDM requester may offer (R407 names the three the part supports). -/
inductive SpdmAlgorithm where
  | ecdsaP384 | sha384 | aes256Gcm | other (code : Nat)
deriving DecidableEq, Repr

/-- Every row of the opcode table: the instructions a word can hold, then the part's events and commands. An
event without fields acts on the subject that the turn names (`State.subject`): the operation, request, task,
queue, context or die that its comment gives. -/
inductive Instr where
  | nop (w : AluW) -- R112
  | mov (w : AluW) -- R112
  | movi (w : AluW) -- R112
  | movh (w : AluW) -- R112
  | iadd (w : AluW) -- R113
  | isub (w : AluW) -- R113
  | iaddc (w : AluW) -- R113
  | imul (w : AluW) -- R113
  | imulh (w : AluW) -- R113
  | imulhu (w : AluW) -- R113
  | imad (w : AluW) -- R113
  | imadw (w : AluW) -- R113
  | idiv (w : AluW) -- R114
  | idivu (w : AluW) -- R114
  | irem (w : AluW) -- R114
  | iremu (w : AluW) -- R114
  | imin (w : AluW) -- R115
  | imax (w : AluW) -- R115
  | iminu (w : AluW) -- R115
  | imaxu (w : AluW) -- R115
  | iabs (w : AluW) -- R115
  | isad (w : AluW) -- R115
  | iadds (w : AluW) -- R113
  | isubs (w : AluW) -- R113
  | and (w : AluW) -- R116
  | or (w : AluW) -- R116
  | xor (w : AluW) -- R116
  | andn (w : AluW) -- R116
  | lop3 (w : AluW) -- R116
  | shl (w : AluW) -- R117
  | shr (w : AluW) -- R117
  | sar (w : AluW) -- R117
  | rot (w : AluW) -- R117
  | funl (w : AluW) -- R117
  | bfx (w : AluW) -- R118
  | bfxu (w : AluW) -- R118
  | bfi (w : AluW) -- R118
  | popc (w : AluW) -- R119
  | clz (w : AluW) -- R119
  | brev (w : AluW) -- R119
  | ffs (w : AluW) -- R119
  | iset (w : AluW) -- R120
  | isetu (w : AluW) -- R120
  | pset (w : AluW) -- R121
  | sel (w : AluW) -- R122
  | pmov (w : AluW) -- R123
  | xset (w : AluW) -- R124
  | xadd (w : AluW) -- R124
  | xget (w : AluW) -- R124
  | lea (w : AluW) -- R126
  | lea64 (w : AluW) -- R126
  | iadd64 (w : AluW) -- R127
  | isub64 (w : AluW) -- R127
  | iset64 (w : AluW) -- R127
  | sread (w : AluW) -- R128
  | swr (w : AluW) -- R129
  | kread (w : AluW) -- R131
  | fadd (w : AluW) -- R137
  | fsub (w : AluW) -- R137
  | fmul (w : AluW) -- R137
  | ffma (w : AluW) -- R137
  | fmin (w : AluW) -- R138
  | fmax (w : AluW) -- R138
  | fminn (w : AluW) -- R138
  | fmaxn (w : AluW) -- R138
  | fset (w : AluW) -- R139
  | fclass (w : AluW) -- R140
  | frnd (w : AluW) -- R141
  | frcp (w : AluW) -- R142
  | frsq (w : AluW) -- R142
  | fsqrt (w : AluW) -- R142
  | fdiv (w : AluW) -- R142
  | fex2 (w : AluW) -- R142
  | flg2 (w : AluW) -- R142
  | fsin (w : AluW) -- R142
  | fcos (w : AluW) -- R142
  | ftanh (w : AluW) -- R142
  | fsigm (w : AluW) -- R142
  | hadd2 (w : AluW) -- R143
  | hmul2 (w : AluW) -- R143
  | hfma2 (w : AluW) -- R143
  | badd2 (w : AluW) -- R143
  | bmul2 (w : AluW) -- R143
  | bfma2 (w : AluW) -- R143
  | hmax2 (w : AluW) -- R143
  | hmin2 (w : AluW) -- R143
  | idp4 (w : AluW) -- R144
  | fdp2h (w : AluW) -- R145
  | dadd (w : AluW) -- R146
  | dmul (w : AluW) -- R146
  | dfma (w : AluW) -- R146
  | dset (w : AluW) -- R146
  | cvt (w : AluW) -- R149
  | cvtp (w : AluW) -- R150
  | cvt64 (w : AluW) -- R151
  | qnt (w : AluW) -- R152
  | dqnt (w : AluW) -- R153
  | sclx (w : AluW) -- R154
  | prmt (w : AluW) -- R155
  | pack4 (w : AluW) -- R156
  | pWord (upper lower : Half) -- R37
  | bra (w : BraW) -- R159
  | brx (w : BrxW) -- R160
  | join (w : BareW) -- R163
  | call (w : BraW) -- R161
  | ret (w : BareW) -- R162
  | exit (w : BareW) -- R164
  | form (w : BareW) -- R166
  | brc (w : BraW) -- R165
  | yield (w : BareW) -- R166
  | vote (w : AluW) -- R173
  | shfl (w : AluW) -- R175
  | matchKey (w : AluW) -- R176
  | redux (w : AluW) -- R177
  | scan (w : AluW) -- R178
  | elect (w : AluW) -- R174
  | gsync (w : AluW) -- R179
  | ld (w : MemW) -- R188
  | st (w : MemW) -- R188
  | lds (w : MemW) -- R188
  | sts (w : MemW) -- R188
  | ldc (w : MemW) -- R188
  | ldx (w : MemW) -- R188
  | stx (w : MemW) -- R188
  | atom (w : AtomW) -- R189
  | atoms (w : AtomW) -- R189
  | red (w : AtomW) -- R190
  | fence (w : MemW) -- R192
  | ldt (w : MemW) -- R194
  | stt (w : MemW) -- R194
  | pref (w : MemW) -- R195
  | cmaint (w : MemW) -- R196
  | fifopush (w : MemW) -- R197
  | fifopop (w : MemW) -- R197
  | bankcfg (w : MemW) -- R198
  | gang (w : TileW) -- R232
  | obres (w : TileW) (c : CBlock) -- R236
  | obrel (w : TileW) -- R237
  | obld (w : TileW) -- R238
  | obldB (w : TileW) -- R239
  | mma (w : MulW) -- R243
  | mmas (w : MulW) -- R244
  | mmar (w : MulW) (c : CBlock) -- R257
  | tres (w : TileW) -- R246
  | trel (w : TileW) -- R246
  | tzero (w : TileW) -- R246
  | trd (w : TileW) -- R247
  | twr (w : TileW) -- R247
  | tst (w : TileW) -- R248
  | tepi (w : TileW) (c : CBlock) -- R266
  | tscl (w : TileW) -- R249
  | rmap (w : TileW) -- R263
  | tsave (w : TileW) -- R250
  | tload (w : TileW) -- R250
  | cpy (w : EngW) (c : CBlock) -- R310
  | tgms (w : EngW) (c : CBlock) -- R316
  | cebld (w : EngW) (c : CBlock) -- R362
  | cenbr (w : EngW) (c : CBlock) -- R364
  | cewalk (w : EngW) (c : CBlock) -- R367
  | cerel (w : EngW) -- R368
  | sbs (w : EngW) -- R323
  | sbsx (w : EngW) -- R324
  | pubf (w : EngW) -- R325
  | trap (w : SysW) -- R277
  | tret (w : SysW) -- R280
  | spawn (w : SysW) -- R300
  | twait (w : SysW) -- R302
  | arrv (w : SysW) -- R219
  | waitr (w : SysW) -- R219
  | barTeam (w : SysW) -- R221
  | barCluster (w : SysW) -- R294
  | barDie (w : SysW) -- R350
  | barGrid (w : SysW) -- R442
  | dln (w : SysW) -- R435
  | prog (w : SysW) -- R435
  | hrd (w : SysW) -- R278
  | hwr (w : SysW) -- R278
  | halt (w : SysW) -- R282
  | starvationGuard (core part : Nat) -- R206
  | fifoPushPerform (team grp : Nat) -- R197
  | fifoPopPerform (team grp : Nat) -- R197
  | teamSwitchBack (team core : Nat) -- R284
  | stokerBilletStart (cluster idx core : Nat) -- R303
  | pageWalkComplete (die ctx page : Nat) -- R347
  | ringFlitArrival (req : Nat) (parityError : Bool) -- R344
  | linkReplay (link : Nat) (failed : Bool) -- R412
  | uncorrRollback (ctx die : Nat) -- R427
  | packageBoot (digestOk signatureOk : Bool) -- R406
  | patrolScrub (die line : Nat) -- R412
  | bellowsPeriod (temps : List Nat) (power : Nat) -- R436
  | doorbell (q : Nat) (index : BitVec 64) -- R444
  | launch (q : Nat) (slot : QSlot) -- R447
  | step (q : Nat) (slot : QSlot) -- R432
  | seed (q : Nat) (slot : QSlot) -- R446
  | waith (q : Nat) (slot : QSlot) -- R446
  | signal (q : Nat) (slot : QSlot) -- R446
  | ckpt (q : Nat) (slot : QSlot) -- R425
  | handle (q : Nat) (slot : QSlot) -- R450
  | invtlb (q : Nat) (slot : QSlot) -- R453
  | invctlGo (base : BitVec 64) -- R453
  | registerWrite (reg : DevReg) (value : BitVec 64) -- R5
  | inboundRequest (req : Inbound) -- R459
  | spdmNegotiateAlgorithms (offered : List SpdmAlgorithm) -- R407
  | spdmChallenge (slot : Nat) (nonce : BitVec 256) -- R407
  | spdmGetMeasurements (index : Nat) (nonce : BitVec 256) -- R407
  | spdmKeyExchange (nonce : BitVec 256) -- R407
  | spdmFinish (verified : Bool) -- R407
  | unallocatedOpcode (w : Word64) -- R43
  | htDieFatalError (trustDie : Bool) -- R457
  | pcieLinkError (fatal : Bool) -- R457
  | memoryAccessComplete -- R185; subject: op
  | writeAcknowledge -- R192; subject: req
  | divisionComplete -- R114; subject: op
  | fpLongComplete -- R135; subject: op
  | bankSwitchComplete -- R198; subject: op
  | arrvInversion -- R219; subject: op
  | mmaComplete -- R245; subject: op
  | obldComplete -- R238; subject: op
  | tileRegComplete -- R247; subject: op
  | tstComplete -- R248; subject: op
  | tepiComplete -- R268; subject: op
  | rmapComplete -- R263; subject: op
  | tsaveTloadComplete -- R250; subject: op
  | cpyChunk -- R310; subject: op
  | cpyComplete -- R311; subject: op
  | tgmsComplete -- R318; subject: op
  | cebldSpaceGrant -- R357; subject: op
  | ceCommandComplete -- R360; subject: op
  | spawnComplete -- R300; subject: op
  | sbsSyncComplete -- R323; subject: op
  | sbsxComplete -- R324; subject: op
  | pubfComplete -- R325; subject: op
  | hrdHwrComplete -- R278; subject: op
  | subUpdateApply -- R328; subject: upd
  | subBatchWindowClose -- R328; subject: upd
  | stopDelivery -- R273; subject: cluster
  | teamResidency -- R201; subject: cluster
  | preemptSaveComplete -- R287; subject: team
  | stagingComplete -- R298; subject: task
  | overflowBilletReturn -- R303; subject: cluster
  | clusterSteal -- R305; subject: cluster
  | billetDonation -- R305; subject: cluster
  | launchStart -- R392; subject: launch
  | sliceAccess -- R338; subject: req
  | fillLand -- R339; subject: line
  | edgeFlitIngress -- R404; subject: req
  | routerPowerDown -- R346; subject: router
  | routerWakeComplete -- R346; subject: router
  | correctedError -- R413; subject: die
  | dieFatalError -- R405; subject: die
  | dieRejoin -- R405; subject: die
  | checkpointTimer -- R425; subject: ctx
  | intervalClose -- R425; subject: ctx
  | cinderSignature -- R429
  | thermalTrip -- R437; subject: die
  | operatingPointSettle -- R431; subject: domain
  | waithRelease -- R446; subject: q
  | signalWrite -- R446; subject: q
  | handleApply -- R450; subject: q
  | invtlbExecute -- R453; subject: q
  | qctlResume -- R448; subject: q
  | qctlResumeSkip -- R448; subject: q
  | qctlKill -- R454; subject: q
  | qctlPreempt -- R454; subject: q
  | ctxctlCreate -- R451; subject: ctx
  | ctxctlResume -- R454; subject: ctx
  | ctxctlTerminate -- R454; subject: ctx
  | cdieStaleClear -- R404; subject: die
  | cdieCeClear -- R413; subject: die
  | errlogRead -- R457
  | spdmGetVersion -- R407
  | spdmGetCapabilities -- R407
  | spdmGetDigests -- R407
  | spdmGetCertificate -- R407; subject: slot
  | spdmEndSession -- R407
deriving DecidableEq, Repr

end Sys2Proof
end

