-- ==== Sys2Proof/Decode.lean ====
section
/-!
DEFINITION. Decoding of code words and queue slots (R7, R19, R27-R36, R40, R42, R446), total on any bytes, and
the encoder beside it, both from the layouts and the opcode map.
-/
namespace Sys2Proof

/-- Bits `[lo + len - 1 : lo]` of a word (R4). -/
def bits (w : Word64) (lo len : Nat) : BitVec len := w.extractLsb' lo len

/-- Bits [53:46] of an F word (R19). -/
def decodeHead (w : Word64) : Head :=
  { g := bits w 53 1, n := bits w 52 1, pred := bits w 48 4, fs := bits w 46 2 }

/-- Bits [45:0] under the AluW layout. -/
def decodeAluW (w : Word64) : AluW :=
  { head := decodeHead w, dst := bits w 36 10, opa := bits w 26 10, opb := bits w 16 10, opc := bits w 6 10, mod := bits w 0 6 }

/-- Bits [45:0] under the BraW layout. -/
def decodeBraW (w : Word64) : BraW :=
  { head := decodeHead w, tgt := bits w 24 22, join := bits w 6 18, sub := bits w 0 6 }

/-- Bits [45:0] under the BrxW layout. -/
def decodeBrxW (w : Word64) : BrxW :=
  { head := decodeHead w, r45 := bits w 36 10, a := bits w 26 10, r25 := bits w 24 2, join := bits w 6 18, r5 := bits w 0 6 }

/-- Bits [45:0] under the BareW layout. -/
def decodeBareW (w : Word64) : BareW :=
  { head := decodeHead w, rsv := bits w 6 40, sub := bits w 0 6 }

/-- Bits [45:0] under the MemW layout. -/
def decodeMemW (w : Word64) : MemW :=
  { head := decodeHead w, d := bits w 36 10, a := bits w 26 10, off := bits w 14 12, sz := bits w 11 3, sx := bits w 10 1, sem := bits w 8 2, scope := bits w 5 3, f := bits w 4 1, q := bits w 3 1, sub := bits w 0 3 }

/-- Bits [45:0] under the AtomW layout. -/
def decodeAtomW (w : Word64) : AtomW :=
  { head := decodeHead w, d := bits w 36 10, a := bits w 26 10, b := bits w 16 10, aop := bits w 12 4, sz := bits w 10 2, sem := bits w 8 2, scope := bits w 5 3, q := bits w 4 1, rsv := bits w 0 4 }

/-- Bits [45:0] under the MulW layout. -/
def decodeMulW (w : Word64) : MulW :=
  { head := decodeHead w, mt := bits w 40 6, oba := bits w 35 5, bsrc := bits w 25 10, aoff := bits w 20 5, bfmt := bits w 16 4, st := bits w 15 1, bs := bits w 14 1, ac := bits w 13 1, sc := bits w 12 1, ng := bits w 11 1, gk := bits w 5 6, b := bits w 4 1, e := bits w 3 1, rsv := bits w 0 3 }

/-- Bits [45:0] under the TileW layout. -/
def decodeTileW (w : Word64) : TileW :=
  { head := decodeHead w, mt := bits w 40 6, ob := bits w 35 5, v := bits w 25 10, w := bits w 15 10, sg := bits w 11 4, slot := bits w 8 3, arr := bits w 7 1, sub := bits w 0 7 }

/-- Bits [45:0] under the EngW layout. -/
def decodeEngW (w : Word64) : EngW :=
  { head := decodeHead w, d := bits w 36 10, a := bits w 26 10, sg := bits w 22 4, slot := bits w 19 3, arr := bits w 18 1, acq := bits w 17 1, rel := bits w 16 1, scope := bits w 13 3, ord := bits w 12 1, sub := bits w 0 12 }

/-- Bits [45:0] under the SysW layout. -/
def decodeSysW (w : Word64) : SysW :=
  { head := decodeHead w, d := bits w 36 10, a := bits w 26 10, b := bits w 16 10, sg := bits w 12 4, slot := bits w 9 3, ph := bits w 8 1, lvl := bits w 5 3, sub := bits w 0 5 }

/-- One half of a P word, of its 31 bits (R36). -/
def decodeHalf (h : BitVec 31) : Half :=
  { op := h.extractLsb' 25 6, i := h.extractLsb' 24 1, d := h.extractLsb' 16 8, s := h.extractLsb' 8 8,
    g := h.extractLsb' 7 1, n := h.extractLsb' 6 1, pred := h.extractLsb' 2 4, rsv := h.extractLsb' 0 2 }

/-- Class I of the opcode map (R42): integer, logic, predicate and index forms. An unallocated opcode stays a word of its own (R43). -/
def decodeClassI (op : Nat) (w : Word64) : Instr :=
  match op with
  | 0x00 => .nop (decodeAluW w)
  | 0x01 => .mov (decodeAluW w)
  | 0x02 => .movi (decodeAluW w)
  | 0x03 => .movh (decodeAluW w)
  | 0x04 => .iadd (decodeAluW w)
  | 0x05 => .isub (decodeAluW w)
  | 0x06 => .iaddc (decodeAluW w)
  | 0x07 => .imul (decodeAluW w)
  | 0x08 => .imulh (decodeAluW w)
  | 0x09 => .imulhu (decodeAluW w)
  | 0x0A => .imad (decodeAluW w)
  | 0x0B => .imadw (decodeAluW w)
  | 0x0C => .idiv (decodeAluW w)
  | 0x0D => .idivu (decodeAluW w)
  | 0x0E => .irem (decodeAluW w)
  | 0x0F => .iremu (decodeAluW w)
  | 0x10 => .imin (decodeAluW w)
  | 0x11 => .imax (decodeAluW w)
  | 0x12 => .iminu (decodeAluW w)
  | 0x13 => .imaxu (decodeAluW w)
  | 0x14 => .iabs (decodeAluW w)
  | 0x15 => .isad (decodeAluW w)
  | 0x16 => .iadds (decodeAluW w)
  | 0x17 => .isubs (decodeAluW w)
  | 0x18 => .and (decodeAluW w)
  | 0x19 => .or (decodeAluW w)
  | 0x1A => .xor (decodeAluW w)
  | 0x1B => .andn (decodeAluW w)
  | 0x1C => .lop3 (decodeAluW w)
  | 0x1D => .shl (decodeAluW w)
  | 0x1E => .shr (decodeAluW w)
  | 0x1F => .sar (decodeAluW w)
  | 0x20 => .rot (decodeAluW w)
  | 0x21 => .funl (decodeAluW w)
  | 0x22 => .bfx (decodeAluW w)
  | 0x23 => .bfxu (decodeAluW w)
  | 0x24 => .bfi (decodeAluW w)
  | 0x25 => .popc (decodeAluW w)
  | 0x26 => .clz (decodeAluW w)
  | 0x27 => .brev (decodeAluW w)
  | 0x28 => .ffs (decodeAluW w)
  | 0x29 => .iset (decodeAluW w)
  | 0x2A => .isetu (decodeAluW w)
  | 0x2B => .pset (decodeAluW w)
  | 0x2C => .sel (decodeAluW w)
  | 0x2D => .pmov (decodeAluW w)
  | 0x2E => .xset (decodeAluW w)
  | 0x2F => .xadd (decodeAluW w)
  | 0x30 => .xget (decodeAluW w)
  | 0x31 => .lea (decodeAluW w)
  | 0x32 => .lea64 (decodeAluW w)
  | 0x33 => .iadd64 (decodeAluW w)
  | 0x34 => .isub64 (decodeAluW w)
  | 0x35 => .iset64 (decodeAluW w)
  | 0x36 => .sread (decodeAluW w)
  | 0x37 => .swr (decodeAluW w)
  | 0x38 => .kread (decodeAluW w)
  | _ => .unallocatedOpcode w

/-- Class F of the opcode map (R42): floating point. An unallocated opcode stays a word of its own (R43). -/
def decodeClassF (op : Nat) (w : Word64) : Instr :=
  match op with
  | 0x40 => .fadd (decodeAluW w)
  | 0x41 => .fsub (decodeAluW w)
  | 0x42 => .fmul (decodeAluW w)
  | 0x43 => .ffma (decodeAluW w)
  | 0x44 => .fmin (decodeAluW w)
  | 0x45 => .fmax (decodeAluW w)
  | 0x46 => .fminn (decodeAluW w)
  | 0x47 => .fmaxn (decodeAluW w)
  | 0x48 => .fset (decodeAluW w)
  | 0x49 => .fclass (decodeAluW w)
  | 0x4A => .frnd (decodeAluW w)
  | 0x4B => .frcp (decodeAluW w)
  | 0x4C => .frsq (decodeAluW w)
  | 0x4D => .fsqrt (decodeAluW w)
  | 0x4E => .fdiv (decodeAluW w)
  | 0x4F => .fex2 (decodeAluW w)
  | 0x50 => .flg2 (decodeAluW w)
  | 0x51 => .fsin (decodeAluW w)
  | 0x52 => .fcos (decodeAluW w)
  | 0x53 => .ftanh (decodeAluW w)
  | 0x54 => .fsigm (decodeAluW w)
  | 0x55 => .hadd2 (decodeAluW w)
  | 0x56 => .hmul2 (decodeAluW w)
  | 0x57 => .hfma2 (decodeAluW w)
  | 0x58 => .badd2 (decodeAluW w)
  | 0x59 => .bmul2 (decodeAluW w)
  | 0x5A => .bfma2 (decodeAluW w)
  | 0x5B => .hmax2 (decodeAluW w)
  | 0x5C => .hmin2 (decodeAluW w)
  | 0x5D => .idp4 (decodeAluW w)
  | 0x5E => .fdp2h (decodeAluW w)
  | 0x5F => .dadd (decodeAluW w)
  | 0x60 => .dmul (decodeAluW w)
  | 0x61 => .dfma (decodeAluW w)
  | 0x62 => .dset (decodeAluW w)
  | _ => .unallocatedOpcode w

/-- Class C of the opcode map (R42): conversion. An unallocated opcode stays a word of its own (R43). -/
def decodeClassC (op : Nat) (w : Word64) : Instr :=
  match op with
  | 0x70 => .cvt (decodeAluW w)
  | 0x71 => .cvtp (decodeAluW w)
  | 0x72 => .cvt64 (decodeAluW w)
  | 0x73 => .qnt (decodeAluW w)
  | 0x74 => .dqnt (decodeAluW w)
  | 0x75 => .sclx (decodeAluW w)
  | 0x76 => .prmt (decodeAluW w)
  | 0x77 => .pack4 (decodeAluW w)
  | _ => .unallocatedOpcode w

/-- Class B of the opcode map (R42): control and cross-lane. An unallocated opcode stays a word of its own (R43). -/
def decodeClassB (op : Nat) (w : Word64) : Instr :=
  match op with
  | 0x80 => .bra (decodeBraW w)
  | 0x81 => .brx (decodeBrxW w)
  | 0x82 => .join (decodeBareW w)
  | 0x83 => .call (decodeBraW w)
  | 0x84 => .ret (decodeBareW w)
  | 0x85 => .exit (decodeBareW w)
  | 0x86 => .form (decodeBareW w)
  | 0x87 => .brc (decodeBraW w)
  | 0x88 => .yield (decodeBareW w)
  | 0x89 => .vote (decodeAluW w)
  | 0x8A => .shfl (decodeAluW w)
  | 0x8B => .matchKey (decodeAluW w)
  | 0x8C => .redux (decodeAluW w)
  | 0x8D => .scan (decodeAluW w)
  | 0x8E => .elect (decodeAluW w)
  | 0x8F => .gsync (decodeAluW w)
  | _ => .unallocatedOpcode w

/-- Class M of the opcode map (R42): memory. An unallocated opcode stays a word of its own (R43). -/
def decodeClassM (op : Nat) (w : Word64) : Instr :=
  match op with
  | 0xA0 => .ld (decodeMemW w)
  | 0xA1 => .st (decodeMemW w)
  | 0xA2 => .lds (decodeMemW w)
  | 0xA3 => .sts (decodeMemW w)
  | 0xA4 => .ldc (decodeMemW w)
  | 0xA5 => .ldx (decodeMemW w)
  | 0xA6 => .stx (decodeMemW w)
  | 0xA7 => .atom (decodeAtomW w)
  | 0xA8 => .atoms (decodeAtomW w)
  | 0xA9 => .red (decodeAtomW w)
  | 0xAA => .fence (decodeMemW w)
  | 0xAB => .ldt (decodeMemW w)
  | 0xAC => .stt (decodeMemW w)
  | 0xAD => .pref (decodeMemW w)
  | 0xAE => .cmaint (decodeMemW w)
  | 0xAF => .fifopush (decodeMemW w)
  | 0xB0 => .fifopop (decodeMemW w)
  | 0xB1 => .bankcfg (decodeMemW w)
  | _ => .unallocatedOpcode w

/-- Class X of the opcode map (R42): matrix. An unallocated opcode stays a word of its own (R43). -/
def decodeClassX (op : Nat) (w : Word64) (c : CBlock) : Instr :=
  match op with
  | 0xC0 => .gang (decodeTileW w)
  | 0xC1 => .obres (decodeTileW w) c
  | 0xC2 => .obrel (decodeTileW w)
  | 0xC3 => if bits w 1 1 = 1 then .obldB (decodeTileW w) else .obld (decodeTileW w)
  | 0xC4 => .mma (decodeMulW w)
  | 0xC5 => .mmas (decodeMulW w)
  | 0xC6 => .mmar (decodeMulW w) c
  | 0xC7 => .tres (decodeTileW w)
  | 0xC8 => .trel (decodeTileW w)
  | 0xC9 => .tzero (decodeTileW w)
  | 0xCA => .trd (decodeTileW w)
  | 0xCB => .twr (decodeTileW w)
  | 0xCC => .tst (decodeTileW w)
  | 0xCD => .tepi (decodeTileW w) c
  | 0xCE => .tscl (decodeTileW w)
  | 0xCF => .rmap (decodeTileW w)
  | 0xD0 => .tsave (decodeTileW w)
  | 0xD1 => .tload (decodeTileW w)
  | _ => .unallocatedOpcode w

/-- Class E of the opcode map (R42): engines. An unallocated opcode stays a word of its own (R43). -/
def decodeClassE (op : Nat) (w : Word64) (c : CBlock) : Instr :=
  match op with
  | 0xE0 => .cpy (decodeEngW w) c
  | 0xE1 => .tgms (decodeEngW w) c
  | 0xE2 => .cebld (decodeEngW w) c
  | 0xE3 => .cenbr (decodeEngW w) c
  | 0xE4 => .cewalk (decodeEngW w) c
  | 0xE5 => .cerel (decodeEngW w)
  | 0xE6 => .sbs (decodeEngW w)
  | 0xE7 => .sbsx (decodeEngW w)
  | 0xE8 => .pubf (decodeEngW w)
  | _ => .unallocatedOpcode w

/-- Class S of the opcode map (R42): system. An unallocated opcode stays a word of its own (R43). -/
def decodeClassS (op : Nat) (w : Word64) : Instr :=
  match op with
  | 0xF0 => .trap (decodeSysW w)
  | 0xF1 => .tret (decodeSysW w)
  | 0xF2 => .spawn (decodeSysW w)
  | 0xF3 => .twait (decodeSysW w)
  | 0xF4 => .arrv (decodeSysW w)
  | 0xF5 => .waitr (decodeSysW w)
  | 0xF6 =>
    if bits w 5 3 = 1 then .barCluster (decodeSysW w)
    else if bits w 5 3 = 2 then .barDie (decodeSysW w)
    else if bits w 5 3 = 3 then .barGrid (decodeSysW w)
    else .barTeam (decodeSysW w)
  | 0xF7 => .dln (decodeSysW w)
  | 0xF8 => .prog (decodeSysW w)
  | 0xF9 => .hrd (decodeSysW w)
  | 0xFA => .hwr (decodeSysW w)
  | 0xFB => .halt (decodeSysW w)
  | _ => .unallocatedOpcode w

/-- An F word by its opcode [61:54] (R19, R42); `c` holds the four words that stand after it. -/
def decodeF (w : Word64) (c : CBlock) : Instr :=
  let op := (bits w 54 8).toNat
  if op < 0x40 then decodeClassI op w
  else if op < 0x70 then decodeClassF op w
  else if op < 0x80 then decodeClassC op w
  else if op < 0xA0 then decodeClassB op w
  else if op < 0xC0 then decodeClassM op w
  else if op < 0xE0 then decodeClassX op w c
  else if op < 0xF0 then decodeClassE op w c
  else decodeClassS op w

/-- A P word; one with an unallocated half opcode is not an instruction (R36, R43). -/
def decodeP (w : Word64) : Instr :=
  let u := decodeHalf (bits w 31 31)
  let l := decodeHalf (bits w 0 31)
  if u.op.toNat ≤ 0x11 ∧ l.op.toNat ≤ 0x11 then .pWord u l else .unallocatedOpcode w

/-- The word at an issue position, with the four words after it. An H or C word there is not an instruction
(R7, R43). -/
def decodeWord (w : Word64) (c : CBlock) : Instr :=
  match (bits w 62 2).toNat with
  | 0 => decodeF w c
  | 1 => decodeP w
  | _ => .unallocatedOpcode w

/-- Why a row of bytes holds no instruction or command. -/
inductive DecodeError where
  | truncated   -- fewer bytes than the word or slot needs
  | noCommand   -- a slot whose byte 0 is not a command code (R446)
deriving DecidableEq, Repr

/-- The 64-bit little-endian word of the first eight bytes of a list, missing bytes read as zero (R7). -/
def wordOfBytes : List Byte → Word64
  | b0 :: b1 :: b2 :: b3 :: b4 :: b5 :: b6 :: b7 :: _ => b7 ++ b6 ++ b5 ++ b4 ++ b3 ++ b2 ++ b1 ++ b0
  | _ => 0

/-- The eight bytes of a word, lowest address first (R7). -/
def bytesOfWord (w : Word64) : List Byte :=
  [bits w 0 8, bits w 8 8, bits w 16 8, bits w 24 8, bits w 32 8, bits w 40 8, bits w 48 8, bits w 56 8]

/-- The four words after a word, from the bytes that follow it. -/
def blockOfBytes (bs : List Byte) : CBlock :=
  { c0 := wordOfBytes bs, c1 := wordOfBytes (bs.drop 8),
    c2 := wordOfBytes (bs.drop 16), c3 := wordOfBytes (bs.drop 24) }

/-- Whether an instruction is followed by a parameter block (R41). -/
def hasBlock : Instr → Bool
  | .obres .. | .mmar .. | .tepi .. | .cpy .. | .tgms .. | .cebld .. | .cenbr .. | .cewalk .. => true
  | _ => false

/-- Decode the instruction at the head of a row of code bytes, answering it and the bytes after it and its
parameter block. Total: fewer bytes than the word, or than its block, are rejected by name. -/
def decode (bs : List Byte) : Except DecodeError (Instr × List Byte) :=
  if bs.length < 8 then .error .truncated
  else
    let i := decodeWord (wordOfBytes bs) (blockOfBytes (bs.drop 8))
    if hasBlock i then
      if bs.length < 40 then .error .truncated else .ok (i, bs.drop 40)
    else .ok (i, bs.drop 8)

/-- A queue slot by the command code in byte 0 (R446). -/
def decodeSlot (q : Nat) (s : QSlot) : Except DecodeError Instr :=
  match (bits s.low.w0 0 8).toNat with
  | 0x01 => .ok (.launch q s)
  | 0x02 => .ok (.step q s)
  | 0x03 => .ok (.seed q s)
  | 0x04 => .ok (.waith q s)
  | 0x05 => .ok (.signal q s)
  | 0x06 => .ok (.ckpt q s)
  | 0x07 => .ok (.handle q s)
  | 0x08 => .ok (.invtlb q s)
  | _ => .error .noCommand

/-- Bits [63:46] of an F word: type 00, opcode, guard and flag select (R19). -/
def encodeHead (op : BitVec 8) (h : Head) : BitVec 18 := (0 : BitVec 2) ++ op ++ h.g ++ h.n ++ h.pred ++ h.fs

/-- An F word of the AluW layout. -/
def encodeAluW (op : BitVec 8) (w : AluW) : Word64 :=
  encodeHead op w.head ++ w.dst ++ w.opa ++ w.opb ++ w.opc ++ w.mod

/-- An F word of the BraW layout. -/
def encodeBraW (op : BitVec 8) (w : BraW) : Word64 :=
  encodeHead op w.head ++ w.tgt ++ w.join ++ w.sub

/-- An F word of the BrxW layout. -/
def encodeBrxW (op : BitVec 8) (w : BrxW) : Word64 :=
  encodeHead op w.head ++ w.r45 ++ w.a ++ w.r25 ++ w.join ++ w.r5

/-- An F word of the BareW layout. -/
def encodeBareW (op : BitVec 8) (w : BareW) : Word64 :=
  encodeHead op w.head ++ w.rsv ++ w.sub

/-- An F word of the MemW layout. -/
def encodeMemW (op : BitVec 8) (w : MemW) : Word64 :=
  encodeHead op w.head ++ w.d ++ w.a ++ w.off ++ w.sz ++ w.sx ++ w.sem ++ w.scope ++ w.f ++ w.q ++ w.sub

/-- An F word of the AtomW layout. -/
def encodeAtomW (op : BitVec 8) (w : AtomW) : Word64 :=
  encodeHead op w.head ++ w.d ++ w.a ++ w.b ++ w.aop ++ w.sz ++ w.sem ++ w.scope ++ w.q ++ w.rsv

/-- An F word of the MulW layout. -/
def encodeMulW (op : BitVec 8) (w : MulW) : Word64 :=
  encodeHead op w.head ++ w.mt ++ w.oba ++ w.bsrc ++ w.aoff ++ w.bfmt ++ w.st ++ w.bs ++ w.ac ++ w.sc ++ w.ng ++ w.gk ++ w.b ++ w.e ++ w.rsv

/-- An F word of the TileW layout. -/
def encodeTileW (op : BitVec 8) (w : TileW) : Word64 :=
  encodeHead op w.head ++ w.mt ++ w.ob ++ w.v ++ w.w ++ w.sg ++ w.slot ++ w.arr ++ w.sub

/-- An F word of the EngW layout. -/
def encodeEngW (op : BitVec 8) (w : EngW) : Word64 :=
  encodeHead op w.head ++ w.d ++ w.a ++ w.sg ++ w.slot ++ w.arr ++ w.acq ++ w.rel ++ w.scope ++ w.ord ++ w.sub

/-- An F word of the SysW layout. -/
def encodeSysW (op : BitVec 8) (w : SysW) : Word64 :=
  encodeHead op w.head ++ w.d ++ w.a ++ w.b ++ w.sg ++ w.slot ++ w.ph ++ w.lvl ++ w.sub

/-- The 31 bits of a half (R36). -/
def encodeHalf (h : Half) : BitVec 31 := h.op ++ h.i ++ h.d ++ h.s ++ h.g ++ h.n ++ h.pred ++ h.rsv

/-- The sixteen words of a slot. -/
def slotWords (s : QSlot) : List Word64 :=
  [s.low.w0, s.low.w1, s.low.w2, s.low.w3, s.low.w4, s.low.w5, s.low.w6, s.low.w7,
   s.high.w0, s.high.w1, s.high.w2, s.high.w3, s.high.w4, s.high.w5, s.high.w6, s.high.w7]

/-- The words of an instruction as the code holds them, its parameter block included; the sixteen words of a
queue command; no words for the part's other events. -/
def encode : Instr → List Word64
  | .nop w => [encodeAluW 0x00 w]
  | .mov w => [encodeAluW 0x01 w]
  | .movi w => [encodeAluW 0x02 w]
  | .movh w => [encodeAluW 0x03 w]
  | .iadd w => [encodeAluW 0x04 w]
  | .isub w => [encodeAluW 0x05 w]
  | .iaddc w => [encodeAluW 0x06 w]
  | .imul w => [encodeAluW 0x07 w]
  | .imulh w => [encodeAluW 0x08 w]
  | .imulhu w => [encodeAluW 0x09 w]
  | .imad w => [encodeAluW 0x0A w]
  | .imadw w => [encodeAluW 0x0B w]
  | .idiv w => [encodeAluW 0x0C w]
  | .idivu w => [encodeAluW 0x0D w]
  | .irem w => [encodeAluW 0x0E w]
  | .iremu w => [encodeAluW 0x0F w]
  | .imin w => [encodeAluW 0x10 w]
  | .imax w => [encodeAluW 0x11 w]
  | .iminu w => [encodeAluW 0x12 w]
  | .imaxu w => [encodeAluW 0x13 w]
  | .iabs w => [encodeAluW 0x14 w]
  | .isad w => [encodeAluW 0x15 w]
  | .iadds w => [encodeAluW 0x16 w]
  | .isubs w => [encodeAluW 0x17 w]
  | .and w => [encodeAluW 0x18 w]
  | .or w => [encodeAluW 0x19 w]
  | .xor w => [encodeAluW 0x1A w]
  | .andn w => [encodeAluW 0x1B w]
  | .lop3 w => [encodeAluW 0x1C w]
  | .shl w => [encodeAluW 0x1D w]
  | .shr w => [encodeAluW 0x1E w]
  | .sar w => [encodeAluW 0x1F w]
  | .rot w => [encodeAluW 0x20 w]
  | .funl w => [encodeAluW 0x21 w]
  | .bfx w => [encodeAluW 0x22 w]
  | .bfxu w => [encodeAluW 0x23 w]
  | .bfi w => [encodeAluW 0x24 w]
  | .popc w => [encodeAluW 0x25 w]
  | .clz w => [encodeAluW 0x26 w]
  | .brev w => [encodeAluW 0x27 w]
  | .ffs w => [encodeAluW 0x28 w]
  | .iset w => [encodeAluW 0x29 w]
  | .isetu w => [encodeAluW 0x2A w]
  | .pset w => [encodeAluW 0x2B w]
  | .sel w => [encodeAluW 0x2C w]
  | .pmov w => [encodeAluW 0x2D w]
  | .xset w => [encodeAluW 0x2E w]
  | .xadd w => [encodeAluW 0x2F w]
  | .xget w => [encodeAluW 0x30 w]
  | .lea w => [encodeAluW 0x31 w]
  | .lea64 w => [encodeAluW 0x32 w]
  | .iadd64 w => [encodeAluW 0x33 w]
  | .isub64 w => [encodeAluW 0x34 w]
  | .iset64 w => [encodeAluW 0x35 w]
  | .sread w => [encodeAluW 0x36 w]
  | .swr w => [encodeAluW 0x37 w]
  | .kread w => [encodeAluW 0x38 w]
  | .fadd w => [encodeAluW 0x40 w]
  | .fsub w => [encodeAluW 0x41 w]
  | .fmul w => [encodeAluW 0x42 w]
  | .ffma w => [encodeAluW 0x43 w]
  | .fmin w => [encodeAluW 0x44 w]
  | .fmax w => [encodeAluW 0x45 w]
  | .fminn w => [encodeAluW 0x46 w]
  | .fmaxn w => [encodeAluW 0x47 w]
  | .fset w => [encodeAluW 0x48 w]
  | .fclass w => [encodeAluW 0x49 w]
  | .frnd w => [encodeAluW 0x4A w]
  | .frcp w => [encodeAluW 0x4B w]
  | .frsq w => [encodeAluW 0x4C w]
  | .fsqrt w => [encodeAluW 0x4D w]
  | .fdiv w => [encodeAluW 0x4E w]
  | .fex2 w => [encodeAluW 0x4F w]
  | .flg2 w => [encodeAluW 0x50 w]
  | .fsin w => [encodeAluW 0x51 w]
  | .fcos w => [encodeAluW 0x52 w]
  | .ftanh w => [encodeAluW 0x53 w]
  | .fsigm w => [encodeAluW 0x54 w]
  | .hadd2 w => [encodeAluW 0x55 w]
  | .hmul2 w => [encodeAluW 0x56 w]
  | .hfma2 w => [encodeAluW 0x57 w]
  | .badd2 w => [encodeAluW 0x58 w]
  | .bmul2 w => [encodeAluW 0x59 w]
  | .bfma2 w => [encodeAluW 0x5A w]
  | .hmax2 w => [encodeAluW 0x5B w]
  | .hmin2 w => [encodeAluW 0x5C w]
  | .idp4 w => [encodeAluW 0x5D w]
  | .fdp2h w => [encodeAluW 0x5E w]
  | .dadd w => [encodeAluW 0x5F w]
  | .dmul w => [encodeAluW 0x60 w]
  | .dfma w => [encodeAluW 0x61 w]
  | .dset w => [encodeAluW 0x62 w]
  | .cvt w => [encodeAluW 0x70 w]
  | .cvtp w => [encodeAluW 0x71 w]
  | .cvt64 w => [encodeAluW 0x72 w]
  | .qnt w => [encodeAluW 0x73 w]
  | .dqnt w => [encodeAluW 0x74 w]
  | .sclx w => [encodeAluW 0x75 w]
  | .prmt w => [encodeAluW 0x76 w]
  | .pack4 w => [encodeAluW 0x77 w]
  | .pWord u l => [(1 : BitVec 2) ++ encodeHalf u ++ encodeHalf l]
  | .bra w => [encodeBraW 0x80 w]
  | .brx w => [encodeBrxW 0x81 w]
  | .join w => [encodeBareW 0x82 w]
  | .call w => [encodeBraW 0x83 w]
  | .ret w => [encodeBareW 0x84 w]
  | .exit w => [encodeBareW 0x85 w]
  | .form w => [encodeBareW 0x86 w]
  | .brc w => [encodeBraW 0x87 w]
  | .yield w => [encodeBareW 0x88 w]
  | .vote w => [encodeAluW 0x89 w]
  | .shfl w => [encodeAluW 0x8A w]
  | .matchKey w => [encodeAluW 0x8B w]
  | .redux w => [encodeAluW 0x8C w]
  | .scan w => [encodeAluW 0x8D w]
  | .elect w => [encodeAluW 0x8E w]
  | .gsync w => [encodeAluW 0x8F w]
  | .ld w => [encodeMemW 0xA0 w]
  | .st w => [encodeMemW 0xA1 w]
  | .lds w => [encodeMemW 0xA2 w]
  | .sts w => [encodeMemW 0xA3 w]
  | .ldc w => [encodeMemW 0xA4 w]
  | .ldx w => [encodeMemW 0xA5 w]
  | .stx w => [encodeMemW 0xA6 w]
  | .atom w => [encodeAtomW 0xA7 w]
  | .atoms w => [encodeAtomW 0xA8 w]
  | .red w => [encodeAtomW 0xA9 w]
  | .fence w => [encodeMemW 0xAA w]
  | .ldt w => [encodeMemW 0xAB w]
  | .stt w => [encodeMemW 0xAC w]
  | .pref w => [encodeMemW 0xAD w]
  | .cmaint w => [encodeMemW 0xAE w]
  | .fifopush w => [encodeMemW 0xAF w]
  | .fifopop w => [encodeMemW 0xB0 w]
  | .bankcfg w => [encodeMemW 0xB1 w]
  | .gang w => [encodeTileW 0xC0 w]
  | .obres w c => [encodeTileW 0xC1 w, c.c0, c.c1, c.c2, c.c3]
  | .obrel w => [encodeTileW 0xC2 w]
  | .obld w => [encodeTileW 0xC3 w]
  | .obldB w => [encodeTileW 0xC3 w]
  | .mma w => [encodeMulW 0xC4 w]
  | .mmas w => [encodeMulW 0xC5 w]
  | .mmar w c => [encodeMulW 0xC6 w, c.c0, c.c1, c.c2, c.c3]
  | .tres w => [encodeTileW 0xC7 w]
  | .trel w => [encodeTileW 0xC8 w]
  | .tzero w => [encodeTileW 0xC9 w]
  | .trd w => [encodeTileW 0xCA w]
  | .twr w => [encodeTileW 0xCB w]
  | .tst w => [encodeTileW 0xCC w]
  | .tepi w c => [encodeTileW 0xCD w, c.c0, c.c1, c.c2, c.c3]
  | .tscl w => [encodeTileW 0xCE w]
  | .rmap w => [encodeTileW 0xCF w]
  | .tsave w => [encodeTileW 0xD0 w]
  | .tload w => [encodeTileW 0xD1 w]
  | .cpy w c => [encodeEngW 0xE0 w, c.c0, c.c1, c.c2, c.c3]
  | .tgms w c => [encodeEngW 0xE1 w, c.c0, c.c1, c.c2, c.c3]
  | .cebld w c => [encodeEngW 0xE2 w, c.c0, c.c1, c.c2, c.c3]
  | .cenbr w c => [encodeEngW 0xE3 w, c.c0, c.c1, c.c2, c.c3]
  | .cewalk w c => [encodeEngW 0xE4 w, c.c0, c.c1, c.c2, c.c3]
  | .cerel w => [encodeEngW 0xE5 w]
  | .sbs w => [encodeEngW 0xE6 w]
  | .sbsx w => [encodeEngW 0xE7 w]
  | .pubf w => [encodeEngW 0xE8 w]
  | .trap w => [encodeSysW 0xF0 w]
  | .tret w => [encodeSysW 0xF1 w]
  | .spawn w => [encodeSysW 0xF2 w]
  | .twait w => [encodeSysW 0xF3 w]
  | .arrv w => [encodeSysW 0xF4 w]
  | .waitr w => [encodeSysW 0xF5 w]
  | .barTeam w => [encodeSysW 0xF6 w]
  | .barCluster w => [encodeSysW 0xF6 w]
  | .barDie w => [encodeSysW 0xF6 w]
  | .barGrid w => [encodeSysW 0xF6 w]
  | .dln w => [encodeSysW 0xF7 w]
  | .prog w => [encodeSysW 0xF8 w]
  | .hrd w => [encodeSysW 0xF9 w]
  | .hwr w => [encodeSysW 0xFA w]
  | .halt w => [encodeSysW 0xFB w]
  | .starvationGuard _ _ => []
  | .memoryAccessComplete => []
  | .writeAcknowledge => []
  | .divisionComplete => []
  | .fpLongComplete => []
  | .fifoPushPerform _ _ => []
  | .fifoPopPerform _ _ => []
  | .bankSwitchComplete => []
  | .arrvInversion => []
  | .mmaComplete => []
  | .obldComplete => []
  | .tileRegComplete => []
  | .tstComplete => []
  | .tepiComplete => []
  | .rmapComplete => []
  | .tsaveTloadComplete => []
  | .cpyChunk => []
  | .cpyComplete => []
  | .tgmsComplete => []
  | .cebldSpaceGrant => []
  | .ceCommandComplete => []
  | .spawnComplete => []
  | .sbsSyncComplete => []
  | .sbsxComplete => []
  | .pubfComplete => []
  | .hrdHwrComplete => []
  | .subUpdateApply => []
  | .subBatchWindowClose => []
  | .stopDelivery => []
  | .teamResidency => []
  | .teamSwitchBack _ _ => []
  | .preemptSaveComplete => []
  | .stokerBilletStart _ _ _ => []
  | .stagingComplete => []
  | .overflowBilletReturn => []
  | .clusterSteal => []
  | .billetDonation => []
  | .launchStart => []
  | .sliceAccess => []
  | .fillLand => []
  | .pageWalkComplete _ _ _ => []
  | .ringFlitArrival _ _ => []
  | .edgeFlitIngress => []
  | .routerPowerDown => []
  | .routerWakeComplete => []
  | .linkReplay _ _ => []
  | .correctedError => []
  | .uncorrRollback _ _ => []
  | .dieFatalError => []
  | .dieRejoin => []
  | .packageBoot _ _ => []
  | .patrolScrub _ _ => []
  | .checkpointTimer => []
  | .intervalClose => []
  | .cinderSignature => []
  | .bellowsPeriod _ _ => []
  | .thermalTrip => []
  | .operatingPointSettle => []
  | .doorbell _ _ => []
  | .launch _ s => slotWords s
  | .step _ s => slotWords s
  | .seed _ s => slotWords s
  | .waith _ s => slotWords s
  | .waithRelease => []
  | .signal _ s => slotWords s
  | .signalWrite => []
  | .ckpt _ s => slotWords s
  | .handle _ s => slotWords s
  | .handleApply => []
  | .invtlb _ s => slotWords s
  | .invtlbExecute => []
  | .qctlResume => []
  | .qctlResumeSkip => []
  | .qctlKill => []
  | .qctlPreempt => []
  | .ctxctlCreate => []
  | .ctxctlResume => []
  | .ctxctlTerminate => []
  | .invctlGo _ => []
  | .cdieStaleClear => []
  | .cdieCeClear => []
  | .errlogRead => []
  | .registerWrite _ _ => []
  | .inboundRequest _ => []
  | .spdmGetVersion => []
  | .spdmGetCapabilities => []
  | .spdmNegotiateAlgorithms _ => []
  | .spdmGetDigests => []
  | .spdmGetCertificate => []
  | .spdmChallenge _ _ => []
  | .spdmGetMeasurements _ _ => []
  | .spdmKeyExchange _ => []
  | .spdmFinish _ => []
  | .spdmEndSession => []
  | .unallocatedOpcode w => [w]
  | .htDieFatalError _ => []
  | .pcieLinkError _ => []

/-- The bytes of an instruction as memory holds them (R7). -/
def encodeBytes (i : Instr) : List Byte := (encode i).flatMap bytesOfWord

/-- The instruction the decoder reads from an instruction whose bits are `w`, numbered as the opcode table
numbers them; every bit above `nbits` is zero. -/
def decodeTableWord (nbits w : Nat) : Option Instr :=
  let v := w % 2 ^ nbits
  let bs := (List.range 5).flatMap fun j => bytesOfWord (BitVec.ofNat 64 (v >>> (64 * j)))
  match decode bs with
  | .ok (i, _) => some i
  | .error _ => none

end Sys2Proof
end

