-- ==== Sys2Proof/Machine/State.lean ====
section
/-!
DEFINITION. The state of the part as plain data: threads, groups, teams, cores, clusters, dies, package and
command processor, the work in flight between them, and the state right after reset.
-/
namespace Sys2Proof.Machine

/-- A sparse table: rising keys, no entry equal to the value an unlisted key reads as. -/
abbrev Cells (α : Type) := List (Nat × α)

/-- The role of a group (R3, R205); `control` is the cluster control processor's single thread (R43). -/
inductive Role where
  | copy | matrix | vector | control
deriving DecidableEq, Repr

/-- A register that carries a hazard bit (R17). -/
inductive RegName where
  | v (n : Nat) | k (n : Nat) | p (n : Nat)
deriving DecidableEq, Repr

/-- Who issues the word that `exec` runs: a group of a team, or the handler of a cluster's control processor. -/
inductive Issuer where
  | none
  | group (team grp : Nat)
  | handler (cluster : Nat)
deriving DecidableEq, Repr

/-- The clause a group is issuing (R10, R15): index of its H word, its WAIT, FLAGA, FLAGB, L and Y fields, the
position of the next word and the lanes that issue it. -/
structure Clause where
  h : Nat
  wait : BitVec 12
  flagA : Nat
  flagB : Nat
  len : Nat
  yields : Bool
  pos : Nat
  lanes : BitVec 32
  gathered : Bool             -- the word at `pos` has been issued by every thread it waits for (R169)
deriving DecidableEq, Repr

/-- A thread held at a cross-lane word with the sources it read when it issued (R169). -/
structure Held where
  clause : Clause
  named : BitVec 32
  present : Bool
  a : Reg32
  b : Reg32
  stale : Bool                -- the group stopped meanwhile: the thread issues the word again (R170)
deriving DecidableEq, Repr

/-- The four index registers of a thread (R86, R124). -/
structure IndexRegs where
  x0 : BitVec 16
  x1 : BitVec 16
  x2 : BitVec 16
  x3 : BitVec 16
deriving DecidableEq, Repr

/-- A thread (R86). `v` lists the general registers that are not zero; `joins` names its join records,
innermost first. -/
structure Thread where
  pc : BitVec 32
  v : Cells Reg32
  x : IndexRegs
  p : BitVec 16
  status : BitVec 32
  exited : Bool
  joins : List Nat
  returned : Bool             -- stands arrived at the call record on top of its stack (R161, R162)
  held : Option Held
deriving DecidableEq, Repr

/-- A join record (R96) or a call record (R161). -/
structure JoinRec where
  id : Nat
  target : Nat
  members : BitVec 32
  call : Bool
deriving DecidableEq, Repr

/-- A hazard bit with the flag it is tagged with (R17). -/
structure Hazard where
  reg : RegName
  flag : Nat
deriving DecidableEq, Repr

/-- Why a group that is not stopped issues nothing (the waiting words under R42, R12, R209). -/
inductive Hold where
  | none
  | clauseWait            -- the clause's WAIT names a flag that is not zero (R12)
  | resumeWait            -- the wait snapshot of a resumed word names a flag that is not zero (R15)
  | flagFull              -- the selected flag would count to 32 (R16)
  | fence | waitr | twait | gangWait | obWait | regWait | engineFull | arrive
  | fifo (bank : Nat) (push : Bool) (since : Nat)   -- waits at a FIFO bank since a moment, by `nextId` (R197)
  | bar (level index : Nat)   -- arrived at a barrier: 0 team, 1 cluster, 2 die, 3 grid
  | latch                 -- held in the rendezvous latch (R233)
  | cross                 -- every issuing thread is held at a cross-lane word (R169)
deriving DecidableEq, Repr

/-- A group's place in its partition (R206, R209): none while its team is not resident, in the active set, or in the
pending set since a moment, by the counter `fresh`. -/
inductive Seat where
  | none | active
  | pending (since : Nat)
deriving DecidableEq, Repr

/-- Whether a group may issue (R89, R269, R286). -/
inductive RunState where
  | running | parked | ended
deriving DecidableEq, Repr

/-- A gang-collective word a member holds in the rendezvous latch, with the operands it read (R233). -/
structure Latch where
  instr : Instr
  vregs : List (List Reg32)
  gamma : Reg32
  values : List Word64
  flag : Option Nat
  map : Option Nat            -- the map that a TGMS named when it issued (R356, R368)
deriving DecidableEq, Repr

/-- A group (R87). `k` lists the group-uniform registers that are not zero; `cf` the twelve flag counts. -/
structure Group where
  role : Role
  alloc : Nat
  cohort : BitVec 32
  threads : List Thread
  k : Cells Reg32
  cf : List Nat
  hazards : List Hazard
  gang : BitVec 64
  mstat : BitVec 32
  ssw0 : BitVec 64
  ssw1 : BitVec 64
  faultAddr : BitVec 48
  records : List JoinRec
  clause : Option Clause
  run : RunState
  hold : Hold
  latch : Option Latch
  ownClause : Option Clause   -- the clause a stop or a save interrupted (R272)
  children : List Word64      -- children spawned and not yet covered by a TWAIT (R302)
  handlerExit : Bool          -- a handler set an exit bit on a stop with a cause (R301)
  resumeAt : Option (Nat × BitVec 12)   -- after a return from a stop: the H word, and the flags WSNAP names (R280)
  seen : List Nat             -- stores of other groups in the write path whose bytes it may have read (R381)
  seat : Seat                 -- its place in its partition's active or pending set (R206, R209)
  passed : Nat                -- times the M slot has passed it over in a row (R206)
  precedence : Bool           -- the starvation guard gives it the next M slot (R206)
deriving DecidableEq, Repr

/-- The mode of a local SRAM bank (R198, R212). -/
inductive BankMode where
  | cache | scratch | fifo
deriving DecidableEq, Repr

/-- A granted bank (R212): its mode, its bytes that are not zero, and its FIFO entries from the head (R197). -/
structure Bank where
  mode : BankMode
  bytes : Cells Byte
  fifo : List (List Reg32)
deriving DecidableEq, Repr

/-- A held operand-buffer range: its name and the four words of its reservation record (R235). -/
structure ObRange where
  name : Nat
  c : CBlock
deriving DecidableEq, Repr

/-- A tile: whether its name is reserved, and its elements that are not zero, element (row, col) at key
16·row + col (R223). -/
structure Tile where
  reserved : Bool
  elems : Cells Reg32
deriving DecidableEq, Repr

/-- A declared stage ring: slot count and phase bits (R216). -/
structure Ring where
  name : Nat
  slots : Nat
  phases : BitVec 8
deriving DecidableEq, Repr

/-- Riddle state of a gang (R253): its member groups, REP, RROB and the representative of each row. -/
structure Riddle where
  members : List Nat
  rep : Nat
  rrob : Nat
  rows : List Nat
deriving DecidableEq, Repr

/-- One update of a subscription: region offset and bytes (R320, R330). -/
structure SubWrite where
  offset : Nat
  data : List Byte
deriving DecidableEq, Repr

/-- The state of a subscription entry (R319). -/
inductive SubState where
  | active | dormant | ended
deriving DecidableEq, Repr

/-- A subscription: subscriber and publisher team with their regions, its state, how many bytes its sync has read
(R323), its dormant log with the overflow bit (R330) and its staging image (R331). -/
structure Subscription where
  handle : Nat
  subscriber : Nat
  publisher : Nat
  pubOffset : Nat
  subOffset : Nat
  len : Nat
  state : SubState
  synced : Nat
  log : List SubWrite
  overflow : Bool
  image : Cells (Option Byte)
deriving DecidableEq, Repr

/-- A record queued for a subscriber: an update, with the groups whose write it counts as (R325, R328, R332), or bytes that
its sync has read (R323). A late one comes from a write made after those groups had arrived at a barrier (R329, R331). -/
structure Update where
  id : Nat
  subscriber : Nat
  handle : Nat
  team : Nat
  grps : List Nat
  write : SubWrite
  windowOpen : Bool
  sync : Bool
  late : Bool
deriving DecidableEq, Repr

/-- Where a team stands (R203, R283-R288). -/
inductive Residency where
  | staging | resident | saving | switchedOut | ended
deriving DecidableEq, Repr

/-- The way a team is pre-empted (R285), or that it gives its turn on a shared core to another logical core (R418). -/
inductive PreemptMode where
  | none | drain | flush | save | turn
deriving DecidableEq, Repr

/-- A held contribution of an ordered launch: RED or TGMS, with its key (R190, R317). -/
structure Contribution where
  seq : Nat
  pa : Nat
  va : Nat
  aop : Nat
  wide : Bool
  operand : Word64
  adds : Nat                  -- what it adds to the write count when it is applied (R341)
deriving DecidableEq, Repr

/-- A byte of a write set with the count of spawns its task had made when it was written (R420, R423). -/
structure SetByte where
  value : Byte
  spawns : Nat
  va : Nat
deriving DecidableEq, Repr

/-- How a task ended (R301). -/
inductive TaskStatus where
  | done | faulted | stagefault | killed
deriving DecidableEq, Repr

/-- The resource record of a kernel (R58). -/
structure Kernel where
  entry : Nat
  threads : Nat
  regs : Nat
  ord : Bool
  idem : Bool
  cgrp : Nat
  creg : Nat
  mgrp : Nat
  mreg : Nat
  vgrp : Nat
  vreg : Nat
  scratch : Nat
  obuf : Nat
  tiles : Nat
  rings : BitVec 64
  paramSz : Nat
deriving DecidableEq, Repr

/-- A team of the grid, or a task as a team of its own (R298). -/
structure Team where
  launch : Nat
  kernel : Kernel
  tidx : Nat
  taskId : Word64
  parent : Option Nat
  spawnIndex : Nat            -- its parent's count of spawns when it was spawned (R423)
  life : Nat                  -- how often it has restarted (R288)
  parentLife : Nat            -- its parent's count of restarts when it was spawned (R302)
  cteam : Nat
  rank : Nat
  core : Nat                  -- physical core 48·die + 8·cluster + core
  begun : Bool                -- it has been resident once (R416)
  vcore : Nat                 -- the core that %die, %clu and %vcore name (R91)
  offset : Nat                -- partition offset (R202)
  residency : Residency
  preempt : PreemptMode
  groups : List Group
  scratch : Nat
  banks : List Bank
  obufUnits : Nat
  ob : Cells Byte
  ranges : List ObRange
  tiles : List Tile
  rings : List Ring
  riddles : List Riddle
  arg : List Byte             -- the parameter bytes of a task (R296)
  billet : List Byte          -- a task's billet, from which its tiles are staged (R298)
  issued : Nat                -- I of R285
  estimate : Option Nat       -- E reported by PROG (R435)
  ordinals : List Nat         -- spawn ordinals used (R300)
  spawns : Nat
  ended : Option TaskStatus
  covered : List Nat          -- children (by team) already covered by a TWAIT or the end merge
  base : Cells SetByte        -- a spawned task's view of its parent's set at the spawn (R419)
  writeSet : Cells SetByte
  shadows : Cells Nat         -- the write count of each shadow line since the last merge (R341, R420)
  held : List Contribution
  seq : Nat                   -- next per-task sequence number (R190)
  logged : List Nat           -- merge-log bytes reserved on each die for its set since its last merge (R421)
  loggedHeld : List Nat       -- and for the contributions it holds
  savedAt : Nat               -- the next request's number when it was saved (R381)
  conflict : Bool
deriving DecidableEq, Repr

/-- A register write that a pending operation makes when it completes; `lane` is none for a k register. -/
structure RegWrite where
  reg : RegName
  lane : Option Nat
  value : Reg32
deriving DecidableEq, Repr

/-- What a request asks of a home slice (R338, R340). -/
inductive ReqKind where
  | read | write | atomic | red | zero | clean | clinv | pref
deriving DecidableEq, Repr

/-- A stop on the ring of a quadrant, an edge port among them (R342), or the edge link into a die (R398). -/
inductive RingStop where
  | core (die n : Nat) | slice (die n : Nat) | channel (die n : Nat)
  | station (die n quadrant : Nat) | engine (die : Nat) | barrierUnit (die : Nat)
  | port (die port : Nat) | edge (die port : Nat) | hostLink (die : Nat)
deriving DecidableEq, Repr

/-- A request on its way to a home slice, or its response (R338): the rest of its route, the stop it stands at and the
order of its injection (R343, R344), its sender's incarnation (R403), its place in an operation, the page entry it was
issued under, and whether it has taken its place in slice order, waits for a fill, or was acknowledged (R339). -/
structure Req where
  id : Nat
  op : Option Nat
  lane : Nat
  team : Nat
  grp : Nat
  core : Nat
  ctx : Nat
  kind : ReqKind
  va : Nat
  pa : Nat
  leaf : Word64
  size : Nat
  data : List Byte
  compare : Word64
  aop : Nat
  ord : Bool
  hops : List RingStop
  place : RingStop
  order : Nat
  dated : Bool                     -- it has crossed station 3 and keeps to the second virtual channel (R343)
  sends : Nat
  incarnation : BitVec 4
  performed : Bool
  waitingFill : Bool
  acked : Bool
  plain : Bool                     -- a plain load, which may leave an L1 copy (R214)
  result : List Byte
  tag : BitVec 16
deriving DecidableEq, Repr

/-- A cached translation (R347): the leaf entry of a page. -/
structure TlbEntry where
  bank : Nat                  -- virtual address bits [17:16] of the access that missed
  ctx : Nat
  page : Nat
  size : Nat
  leaf : Word64
deriving DecidableEq, Repr

/-- The classes of pending work and the event that completes each. -/
inductive OpKind where
  | division | fpLong | mem | fifoPush | fifoPop | bankSwitch | cmaint | mma | obld | tileReg | tst | tepi
  | rmap | tileImage | cpy | tgms | ce | arrv | spawn | sbs | sbsx | pubf | debug
deriving DecidableEq, Repr

/-- A load's destination: first register, lane or none for the group, bytes and sign extension (R182). -/
structure LoadDest where
  reg : RegName
  lane : Option Nat
  size : Nat
  signed : Bool
  tagReg : Option RegName
deriving DecidableEq, Repr

/-- A billet in a stoker queue or an overflow area (R303): its task's launch, ID, parent and bytes. -/
structure Billet where
  launch : Nat
  taskId : Word64
  tidx : Nat
  parent : Option Nat
  spawnIndex : Nat
  parentLife : Nat
  bytes : List Byte
  inArray : Bool
  base : Cells SetByte
  place : Nat                 -- its place in its launch's overflow area, while it stands there (R303)
deriving DecidableEq, Repr

/-- A step of a pending operation that moves at most one 32-byte sector (R372), or one lane's scratchpad access (R188,
R189), or applies one contribution (R317). -/
inductive Move where
  | padRead (addr : Nat) (dest : LoadDest)
  | padWrite (addr : Nat) (data : List Byte)
  | padAtomic (addr aop : Nat) (wide : Bool) (operand compare : Nat) (dest : Option LoadDest)
  | padFill (va pad n : Nat)                     -- home to scratchpad
  | store (va : Nat) (data : List Byte)          -- to home
  | word (va : Nat) (reg : RegName) (lane : Nat) -- home to a register
  | bufFill (pad : Bool) (src dst n : Nat)       -- scratchpad or home to operand-buffer bytes
  | tileFill (tile va part : Nat)                -- home to eight elements of a tile, the image at `va`
  | copyRead (side src side' dst n : Nat)        -- sides: 0 global, 1 scratchpad, 2 operand buffer
  | copyWrite (side dst : Nat) (data : List Byte)
  | scatter (va seq aop : Nat) (values : List Reg32)   -- one 32-byte sector of a row's contributions (R316, R341)
  | fetch (va n : Nat)                           -- home to the command's own bytes
  | pause                                        -- a save may stop the command here (R318)
deriving DecidableEq, Repr

/-- What a coordinate-engine handle names (R356): a hash table by its slots, or a map. -/
inductive CeObject where
  | table (cap : Nat) (slots : Cells (Word64 × Nat))
  | map (dst noff : Nat) (counts : List Nat)
deriving DecidableEq, Repr

/-- What a pending operation still has to do when its completion event falls. -/
inductive Effect where
  | none
  | load (dests : List (Nat × LoadDest))           -- request lane index to destination
  | atomic (dests : List (Nat × LoadDest))
  | tileLoad (scratch ga len : Nat) (tries : Nat) (version : Option Nat)   -- LDT.AON: this try's first version (R194)
  | tileStore (ga : Nat) (data : List Byte) (step : Nat)   -- STT.AON (R194)
  | bank (index : Nat) (mode : BankMode)
  | flueRows (va : Nat) (rows : List (Nat × List Byte)) (step : Nat)   -- TEPI.AON: the version's address (R268)
  | obLoad (range dst len : Nat)                    -- into operand-buffer bytes
  | tileImage (tile : Nat)
  | copy (c : CBlock) (dir range : Nat) (chunk : Nat)
  | tile (c : CBlock) (members map : Nat) (held : List Move)   -- the contributions applied at its completion (R317)
  | build (handle cap : Nat) (list n : Nat)
  | neighbours (handle table : Nat) (km : Bool) (noff nout outl dst offl : Nat)
  | walk (coo out n parties : Nat)
  | listed (names : List Nat) (object : Option CeObject) (value : Nat)   -- lists being written: the handles named, what is made, kd
  | free (handle : Nat)
  | child (billet : Billet)
  | sync (handle : Nat)
  | unsubscribe (handle : Nat)
  | flush (updates loads : List Nat)   -- updates covered, and tile loads still to come (R325)
  | member (updates : List Nat)        -- updates of a map that become this member's own writes (R332)
  | debugWrite (space index lane : Nat) (value : Reg32)
deriving DecidableEq, Repr

/-- A variable-latency operation that has issued and not completed (R16, R135, R185, R311): its flag, the
register writes and sticky flags it delivers, the ring slot it arrives at, and its ordering marks. -/
structure Op where
  id : Nat
  issuer : Issuer
  kind : OpKind
  flag : Option Nat
  dests : List (RegName × Option Nat)
  writes : List RegWrite
  fstat : List (Nat × BitVec 5)
  mstat : BitVec 32
  arrive : Option (Nat × Nat)
  acquire : Option Nat
  release : Option Nat
  before : Option Nat         -- ACQ of an engine command: the scope its first read waits at (R387)
  todo : List Move            -- what is left of the transfer under way
  data : List Byte            -- what the reads of a coordinate-engine command have brought (R360)
  trans : List TlbEntry       -- translations of an engine command, as its issue checked them (R312)
  effect : Effect
deriving DecidableEq, Repr

/-- A sector copy in the L1 of a core (R214). -/
structure L1Sector where
  core : Nat
  sector : Nat
  data : List Byte
deriving DecidableEq, Repr

/-- The state of a slice tag that is not free (R334). -/
inductive TagState where
  | full | half | zero | shadow
deriving DecidableEq, Repr

/-- A resident line of a home slice (R334, R339, R341): write count, the bytes it holds, those that differ
from memory, whether a fill is pending and what it brings, and whether its page is of class A (R411). -/
structure Line where
  addr : Nat
  state : TagState
  count : BitVec 16
  valid : BitVec 128
  dirty : BitVec 128
  data : Cells Byte
  filling : Bool
  fillData : List Byte
  classA : Bool
  key : Nat                        -- 1 + 8·context + key index of the page it was last written under (R408)
deriving DecidableEq, Repr

/-- A coordinate-engine handle (R356): reserved by an operation, or held. -/
structure CeHandle where
  id : Nat
  ctx : Nat
  name : Nat
  isTable : Bool
  holder : Option Nat
  object : CeObject
deriving DecidableEq, Repr

/-- An undo record (R426), with the key under which the line stood (R408). -/
structure UndoRec where
  line : Nat
  ctx : Nat
  interval : Nat
  data : List Byte
  key : Nat
deriving DecidableEq, Repr

/-- Whether a die is in service (R405, R406). -/
inductive DieState where
  | off | live | inReset
deriving DecidableEq, Repr

/-- A live C die (R333-R370, R403-R405, R426). -/
structure Die where
  state : DieState
  inc : BitVec 4
  incTable : List (BitVec 4)
  stale : BitVec 32
  ce : BitVec 32
  mcres : BitVec 6
  scrub : BitVec 8
  undo : BitVec 16
  tlb : List TlbEntry
  handles : List CeHandle
  hashKept : List (Nat × Nat × Nat)   -- hash slots freed in an ordered interval: context, interval, slots (R370)
  barriers : List Nat         -- cooperative launches that hold one of the four die barriers (R349)
  undoLog : List UndoRec
  asleep : List Nat           -- ring stops whose router has powered down (R346)
  waking : List Nat
  linkFails : List (Nat × Nat)
deriving DecidableEq, Repr

/-- A stop in a cluster's stop queue (R273). -/
structure Stop where
  team : Nat
  grp : Nat
  cause : Nat
deriving DecidableEq, Repr

/-- A running handler (R275): the stop it serves, its stop handle, the processor's thread and the code section of
the handler object. -/
structure Handler where
  stop : Stop
  handle : Reg32
  cpu : Group
  code : List Word64
  codeVa : Nat
deriving DecidableEq, Repr

/-- A run of cluster-teams, or of array billets, not yet started on a cluster (R304). -/
structure Share where
  launch : Nat
  next : Nat
  stop : Nat
deriving DecidableEq, Repr

/-- A cluster (R293-R305). -/
structure Cluster where
  stops : List Stop
  handler : Option Handler
  billets : List Billet
  overflow : List Billet
  shares : List Share
deriving DecidableEq, Repr

/-- Where a launch stands (R391, R392, R454). -/
inductive LaunchState where
  | waiting | running | done | conflict | killed
deriving DecidableEq, Repr

/-- A parsed launch (R447-R449) with what the command processor captured: kernel, parameter bytes, constant
section, code words, seed and the earlier launches it depends on (R392). -/
structure Launch where
  ordinal : Nat               -- launches parsed before it; one parsed again keeps its own (R295, R427)
  num : BitVec 16
  queue : Nat
  ctx : Nat
  slot : QSlot
  classA : Bool
  kernel : Kernel
  kernels : List Kernel
  code : List Word64
  codeVa : Nat
  dataVa : Nat
  params : List Byte
  const : List Byte
  seed : Word64
  deps : List Nat
  reads : List Nat
  writes : List Nat
  extents : List (Nat × Nat × Nat)   -- handle, base and length as registered at the parse (R450)
  handlerCode : Option (List Word64 × Nat)   -- the handler object's code as the launch's start found it (R211)
  steps : List Nat
  fallback : Option (Nat × Nat)
  state : LaunchState
  interval : Nat
deriving DecidableEq, Repr

/-- What the head command of a queue waits for (R446, R450, R453): the end of a launch, of every launch that lists
a handle, or of every launch of the context parsed before it. -/
inductive QueueWait where
  | none
  | writer (launch : Nat)
  | register (h : Nat) (hv : Bool) (base len : Nat)
  | inval (base len before : Nat)
deriving DecidableEq, Repr

/-- A queue (R444-R446 and the CMDP register table). -/
structure Queue where
  held : Option QSlot         -- the command it read and waits with (R444)
  cfg : Word64
  cons : BitVec 48
  consumer : Nat
  producer : Nat
  halted : Bool
  status : BitVec 8
  refused : Nat
  seed : Word64
  wait : QueueWait
  signals : List (Bool × Word64 × Word64 × Nat)   -- pending SIGNALs: IRQ, address, value, launches before it
deriving DecidableEq, Repr

/-- A registered buffer handle (R450), the context that registered it, and whether its extent owes an INPUT record
(R428). -/
structure BufHandle where
  ctx : Nat
  base : Nat
  len : Nat
  hv : Bool
  writer : Option Nat
  readers : List Nat
  dirtyInput : Bool
deriving DecidableEq, Repr

/-- A command kept for re-parsing (R425): its queue, slot and seed, and the launch it parsed. -/
structure Kept where
  queue : Nat
  slot : QSlot
  seed : Word64
  launch : Option Nat
deriving DecidableEq, Repr

/-- A context (R451) with its checkpoint interval (R425-R427): when it opened, the commands kept, those to be parsed
again, and the coordinate-engine handles at its start (R370). -/
structure Context where
  created : Bool
  root : Nat
  htab : Nat
  hobj : Nat
  save : Nat
  saveSz : Nat
  stopped : Bool
  terminated : Bool
  interval : Nat
  closeDue : Bool
  unprotected : Bool
  attempts : Nat
  opened : Nat
  kept : List Kept
  replay : List Kept
  handles : List (Nat × CeHandle)
deriving DecidableEq, Repr

/-- A step with a deadline (R432); `first` counts the launches parsed when it opened. -/
structure StepRec where
  id : Nat
  first : Nat
  deadline : Nat
  queue : Option Nat
  atRisk : Bool
  switched : Bool
  overrun : Bool
deriving DecidableEq, Repr

/-- A power domain (R431, R437). -/
structure Domain where
  point : Nat
  target : Nat
  tcap : Nat
  pcap : Nat
  retired : Nat
  last : Nat                  -- its target at the last bellows period (R441)
deriving DecidableEq, Repr

/-- What a slot of a partition served last (R206): its V slot, or its M slot among the groups of one role. -/
structure SlotPlace where
  core : Nat
  part : Nat
  role : Option Role          -- none for the V slot
  last : Nat × Nat            -- team and group
deriving DecidableEq, Repr

/-- A raised MSI-X vector (R456). -/
structure Interrupt where
  vector : Nat
  ctx : Nat
  cause : Nat
  ssw0 : Word64
deriving DecidableEq, Repr

/-- What AER reports (R457). -/
inductive AerReport where
  | fatal | uncorrectable | correctable
deriving DecidableEq, Repr

/-- Where an SPDM connection stands, and whether AES-256-GCM, which a session takes, was negotiated (R407). -/
inductive SpdmPhase where
  | none | version | capabilities | negotiated (aead : Bool) | keyExchanged | session
deriving DecidableEq, Repr

/-- A reply of the SPDM responder, by the request it answers (R407); digests, certificates, signatures and
measurements are values the manual does not state. -/
inductive SpdmReply where
  | version | capabilities | algorithms | digests (d : BitVec 384) | certificate (bytes : List Byte)
  | challengeAuth (sig : BitVec 768) | measurements (index : Nat) (value : BitVec 384) (sig : BitVec 768)
  | keyExchange (sig : BitVec 768) | finish | ended | error
deriving DecidableEq, Repr

/-- An answer to an inbound request of BAR4 (R459). -/
inductive InboundReply where
  | data (bytes : List Byte) | written | unsupported
deriving DecidableEq, Repr

/-- The BAR0 registers that hold one value for the package (register tables of R430, R441, R459). -/
structure DevRegs where
  ctxbase : BitVec 48
  invlen : BitVec 48
  invdone : Bool
  invgo : Option Word64       -- the invalidation under way (R453)
  obbase : Word64
  ibmap : Word64
  parkth : BitVec 7
  drainth : BitVec 16
  classa : BitVec 18
  ckptiv : BitVec 10
  rbmax : BitVec 4
  mlog : BitVec 16
  stoplog : Word64
  stoplogHi : BitVec 16
  guard : BitVec 16
  plim : BitVec 9
  defop : BitVec 4
  uncmin : BitVec 4
  tthr : BitVec 8
  replay : Bool
  riskstep : BitVec 32
  sigbase : BitVec 48
  bar4 : Nat                  -- the size of BAR4, 2^bar4 GiB (R443)
deriving DecidableEq, Repr

/-- TDIE_HARVEST and TDIE_BOOTST (the package register table, R406). -/
structure TDie where
  dead : BitVec 2
  lret : BitVec 3
  done : Bool
  fail : BitVec 7
deriving DecidableEq, Repr

/-- One turn of the machine: a group or a handler issues, the command processor parses, or an event falls on a
subject. -/
inductive Turn where
  | group (team grp : Nat)
  | handler (cluster : Nat)
  | parse
  | event (i : Instr) (subject : Nat)
deriving DecidableEq, Repr

/-- The part. -/
structure State where
  sched : List Turn           -- the turns to come, inputs of the outside world among them
  round : List Turn           -- the waiting turns in the order in which they came to wait
  subject : Nat               -- the subject of the event that runs
  issuer : Issuer
  fresh : Nat                 -- counts the free values drawn
  nextId : Nat
  timer : Word64              -- the command processor's counter (R6, R428)
  tdie : TDie
  remap : List (BitVec 16)    -- the remap table (R417)
  dies : List Die
  clusters : List Cluster     -- eighteen clusters, cluster 6·die + number
  domains : List Domain
  bellowsAt : Nat             -- the timer at the last bellows period (R6, R431)
  regs : DevRegs
  queues : List Queue
  contexts : List Context
  handles : Cells BufHandle
  launches : List Launch
  launchCount : Nat           -- launches parsed, each counted once (R295)
  teams : List Team
  ops : List Op
  reqs : List Req
  updates : List Update
  subs : List Subscription
  slots : List SlotPlace      -- the round-robin positions of the partitions (R206)
  l1 : List L1Sector
  lines : List Line
  mem : List Host.Cell        -- device memory by physical address (R409, R410)
  hostMem : List Host.Cell    -- host and peer memory by bus address (R444, R458)
  steps : List StepRec
  overdue : List Nat          -- steps closed past their deadline that no GOV record has named yet (R438)
  replaying : List Nat        -- the launches, by ordinal, that the FALLBACK records of the stream replayed name (R430, R439)
  lastQueue : List Nat        -- the queue parsed last, by class and priority (R445)
  cinder : List (List Byte)   -- records, newest first (R428)
  cinderBase : Nat            -- where the ring stands in the interleave window, once the part has booted (R428)
  cinderSeq : Word64
  chain : BitVec 256          -- H of the newest record (R429)
  signDue : List (Nat × BitVec 256)   -- signature-table entries the T die has still to write (R429)
  signatures : Cells (BitVec 256 × BitVec 768)
  interrupts : List Interrupt
  errlog : List Word64
  aer : List AerReport
  needsReset : Bool           -- the H die or the T die reported a fatal error (R457)
  lineKeys : Cells Nat        -- 1 + 8·context + key index under which a line was last written (R408)
  spdm : SpdmPhase
  spdmReplies : List SpdmReply
  inbound : List InboundReply
deriving DecidableEq, Repr

/-- Why the machine stops with a fault. -/
inductive Fault where
  /-- A word was given to `exec` with no agent to issue it, or with an agent that does not exist; no step does
  so. Raised by every word's meaning. Safe. -/
  | noIssuer
deriving DecidableEq, Repr

/-- Why the machine refuses. -/
inductive Refusal where
  /-- The arm of `exec` for this row has no meaning yet. Safe. -/
  | notModelled (mnemonic : String)
deriving DecidableEq, Repr

/-- A queue that no register write has configured (assumption log, entry 3; seed 0: R446). -/
def Queue.reset : Queue :=
  { held := none, cfg := 0, cons := 0, consumer := 0, producer := 0, halted := false, status := 0, refused := 0, seed := 0,
    wait := .none, signals := [] }

/-- A context that no CTXCTL has created (R451; assumption log, entry 3). -/
def Context.reset : Context :=
  { created := false, root := 0, htab := 0, hobj := 0, save := 0, saveSz := 0, stopped := false,
    terminated := false, interval := 0, closeDue := false, unprotected := false, attempts := 0,
    opened := 0, kept := [], replay := [], handles := [] }

/-- A cluster with no work. -/
def Cluster.reset : Cluster := { stops := [], handler := none, billets := [], overflow := [], shares := [] }

/-- A die held in reset until the T die releases it (R406), its incarnations 0 (R403), its scrub period and undo
size at their defaults (R412, R426). -/
def Die.reset : Die :=
  { state := .off, inc := 0, incTable := [0, 0, 0], stale := 0, ce := 0, mcres := 0, scrub := 24, undo := 2048,
    tlb := [], handles := [], hashKept := [], barriers := [], undoLog := [], asleep := [], waking := [],
    linkFails := [] }

/-- A domain at the point of `BLW_DEFOP`, its caps open (assumption log, entry 3). -/
def Domain.reset : Domain := { point := 9, target := 9, tcap := 9, pcap := 9, retired := 0, last := 9 }

/-- The registers of BAR0 with the defaults their tables give; the rest at the values of assumption log entry 3. -/
def DevRegs.reset : DevRegs :=
  { ctxbase := 0, invlen := 0, invdone := false, invgo := none, obbase := 0, ibmap := 0, parkth := 50, drainth := 64, classa := 0,
    ckptiv := 1, rbmax := 3, mlog := 1024, stoplog := 0, stoplogHi := 0, guard := 200, plim := 400, defop := 9,
    uncmin := 3, tthr := if Config.automotive then 115 else 100, replay := false, riskstep := 0, sigbase := 0,
    bar4 := 7 }

/-- The part right after reset: only the T die has left reset (R406), every die is off, memory lists nothing, no
queue is enabled and no agent has a turn. -/
def State.reset : State :=
  { sched := [], round := [], subject := 0, issuer := .none, fresh := 0, nextId := 0, timer := 0,
    tdie := { dead := 0, lret := 7, done := false, fail := 0 }, remap := [],
    dies := List.replicate 3 Die.reset, clusters := List.replicate 18 Cluster.reset,
    domains := List.replicate 9 Domain.reset, bellowsAt := 0, regs := DevRegs.reset, queues := List.replicate 64 Queue.reset,
    contexts := List.replicate 64 Context.reset, handles := [], launches := [], launchCount := 0, teams := [],
    ops := [], reqs := [], updates := [], subs := [], slots := [], l1 := [], lines := [], mem := [], hostMem := [], steps := [], overdue := [],
    replaying := [], lastQueue := List.replicate 8 63, cinder := [], cinderBase := 0, cinderSeq := 0, chain := 0, signDue := [], signatures := [], interrupts := [], errlog := [],
    aer := [], needsReset := false, lineKeys := [], spdm := .none, spdmReplies := [], inbound := [] }

end Sys2Proof.Machine
end

