-- ==== Sys2Proof/Machine/Bits.lean ====
section
/-!
DEFINITION. Sparse tables in canonical form, byte order, bit fields and list helpers.
-/
namespace Sys2Proof.Machine

/-- What a sparse table holds at a key; `d` is what an unlisted key reads as. -/
def Cells.get {α : Type} (d : α) : Cells α → Nat → α
  | [], _ => d
  | (k, v) :: r, n => if n = k then v else Cells.get d r n

/-- A sparse table with a value listed at a key, before the first greater key. -/
def Cells.list {α : Type} : Cells α → Nat → α → Cells α
  | [], n, a => [(n, a)]
  | (k, v) :: r, n, a => if n < k then (n, a) :: (k, v) :: r else if n = k then (n, a) :: r else (k, v) :: Cells.list r n a

/-- A sparse table with one key written; writing `d` removes the entry. -/
def Cells.put {α : Type} [DecidableEq α] (d : α) (c : Cells α) (n : Nat) (a : α) : Cells α :=
  if a = d then c.filter fun e => e.1 ≠ n else Cells.list c n a

/-- The canonical form: keys strictly rising, no entry equal to `d`. -/
def Cells.wf {α : Type} [DecidableEq α] (d : α) : Cells α → Bool
  | [] => true
  | [(_, v)] => v ≠ d
  | (k, v) :: (k', v') :: r => v ≠ d && k < k' && Cells.wf d ((k', v') :: r)

/-- The keys a sparse table lists. -/
def Cells.keys {α : Type} (c : Cells α) : List Nat := c.map Prod.fst

/-- What a memory byte that nothing has written reads as: the manual gives no contents (entry 4). -/
def emptyByte : Byte := 0

/-- The canonical form of a memory: addresses strictly rising, no entry equal to what an unlisted address reads as. -/
def Memory.wf (m : List Host.Cell) : Bool := Cells.wf emptyByte m

/-- `n` bytes of a byte table from an address. -/
def bytesAt (c : Cells Byte) (a n : Nat) : List Byte := (List.range n).map fun i => Cells.get emptyByte c (a + i)

/-- A byte table with a row of bytes written from an address. -/
def putBytes (c : Cells Byte) (a : Nat) : List Byte → Cells Byte
  | [] => c
  | b :: bs => putBytes (Cells.put emptyByte c a b) (a + 1) bs

/-- The number a row of bytes stands for, little-endian (R4, R180). -/
def natOfBytes : List Byte → Nat
  | [] => 0
  | b :: bs => b.toNat + 256 * natOfBytes bs

/-- `n` bytes of a number, little-endian. -/
def bytesOfNat : Nat → Nat → List Byte
  | 0, _ => []
  | n + 1, x => BitVec.ofNat 8 x :: bytesOfNat n (x / 256)

/-- Bits `[lo + len - 1 : lo]` of a number. -/
def field (x lo len : Nat) : Nat := x / 2 ^ lo % 2 ^ len

/-- Bit `n` of a number. -/
def bitOf (x n : Nat) : Bool := x.testBit n

/-- A list with one place changed by a function; a place beyond its end changes nothing. -/
def modAt {α : Type} (l : List α) (n : Nat) (f : α → α) : List α := l.modify n f

/-- The lanes of a mask, rising. -/
def lanesOf (m : BitVec 32) : List Nat := (List.range 32).filter fun i => m.getLsbD i

/-- The mask of the lanes a test picks. -/
def maskOf (f : Nat → Bool) : BitVec 32 :=
  BitVec.ofNat 32 ((List.range 32).foldl (fun a i => if f i then a + 2 ^ i else a) 0)

/-- The 64-bit value of a register pair, low register first (R62). -/
def pair (lo hi : Reg32) : Word64 := hi ++ lo

/-- The low and high registers of a 64-bit value (R62). -/
def lowHalf (w : Word64) : Reg32 := w.extractLsb' 0 32
def highHalf (w : Word64) : Reg32 := w.extractLsb' 32 32

/-- The least number of a list, if it has one. -/
def leastOf : List Nat → Option Nat
  | [] => none
  | a :: r => match leastOf r with
    | none => some a
    | some b => some (if a ≤ b then a else b)

/-- A list in ascending order of a relation; elements that precede each other keep their order. -/
def insertBy {α : Type} (le : α → α → Bool) (x : α) : List α → List α
  | [] => [x]
  | y :: ys => if le x y then x :: y :: ys else y :: insertBy le x ys
def sortBy {α : Type} (le : α → α → Bool) : List α → List α
  | [] => []
  | x :: xs => insertBy le x (sortBy le xs)

/-- Bits of a bit vector replaced from a position. -/
def setField {n : Nat} (w : BitVec n) (lo len : Nat) (x : Nat) : BitVec n :=
  let m : BitVec n := BitVec.ofNat n ((2 ^ len - 1) * 2 ^ lo)
  (w &&& ~~~m) ||| (BitVec.ofNat n (x % 2 ^ len * 2 ^ lo))

/-- Bits `[lo + len - 1 : lo]` of a bit vector as a number. -/
def getField {n : Nat} (w : BitVec n) (lo len : Nat) : Nat := field w.toNat lo len

/-! ### The physical map (R409, R410, R458) -/

def dieBytes : Nat := 0x800000000
def windowBase : Nat := 0x4000000000
def hostBase : Nat := 0x5800000000

/-- Whether a physical address lies in device memory: a live die's range or the interleave window. -/
def inDevice (pa : Nat) : Bool := pa < 3 * dieBytes || (windowBase ≤ pa && pa < hostBase)

/-- A physical address with a window address replaced by its die-local address (R410). -/
def canonPa (pa : Nat) : Nat :=
  if windowBase ≤ pa && pa < hostBase then
    let g := (pa - windowBase) / 4096
    g % 3 * dieBytes + g / 3 * 4096 + pa % 4096
  else pa

end Sys2Proof.Machine
end

