-- ==== Sys2Proof/Machine/Operands.lean ====
section
/-!
DEFINITION. Operand specifiers (R21-R25, R62, R95), register reads and writes of a group, and the static
checks of an operand field.
-/
namespace Sys2Proof.Machine

/-- What a specifier names (R21). -/
inductive Opd where
  | v (n : Nat)
  | k (n : Nat)
  | p (n : Nat)
  | zero
  | imm
  | rel (x off : Nat)
  | rsv
deriving DecidableEq, Repr

/-- The meaning of a 10-bit specifier (R21). -/
def opdOf (s : Spec) : Opd :=
  let n := s.toNat
  if n < 0x100 then .v n
  else if n < 0x140 then .k (n - 0x100)
  else if n < 0x150 then .p (n - 0x140)
  else if n = 0x150 then .zero
  else if n < 0x1FF then .rsv
  else if n = 0x1FF then .imm
  else .rel (field n 7 2) (field n 0 7)

/-- Constant zero, and the marker of an immediate (R21). -/
def specZero : Spec := 0x150
def specImm : Spec := 0x1FF

/-- What a form lets stand in a source field. `wide` is a 64-bit pair (R62), `pred` p0-p15 or zero,
`mask` a cross-lane mask (R168), `vrel` a v or relative register, `kOnly` a k register or zero. -/
inductive SrcForm where
  | none | any | wide | pred | mask | vrel | kOnly | raw
deriving DecidableEq, Repr

/-- What a form lets stand in the destination field. `vOnly` bars k registers (R152, R172), `kOnly` is KREAD's
kind, `xreg` an index-register number (R124). -/
inductive DstForm where
  | none | reg | wide | pred | vOnly | kOnly | xreg | pred0
deriving DecidableEq, Repr

/-- How an immediate is taken (R25). -/
inductive ImmForm where
  | none | zero | sign | sign64 | high | bf32 | half2 | bf2 | bf64
deriving DecidableEq, Repr

/-- The ILLEGAL details of a source field (R21, R23, R25, R62, R108, R121, R168). -/
def srcDetails (f : SrcForm) (s : Spec) : List Nat :=
  match f with
  | .raw => []
  | .none => if s = specZero then [] else [0x04] ++ (match opdOf s with | .rsv => [0x03] | .imm => [0x03] | _ => [])
  | .any => match opdOf s with | .rsv | .imm => [0x03] | _ => []
  | .wide => match opdOf s with
    | .rsv | .imm | .p _ => [0x03]
    | .v n | .k n => if n % 2 = 1 then [0x03] else []
    | _ => []
  | .pred => match opdOf s with | .p _ | .zero => [] | _ => [0x03]
  | .mask => match opdOf s with | .k _ | .zero => [] | _ => [0x03]
  | .vrel => match opdOf s with | .v _ | .rel .. => [] | _ => [0x03]
  | .kOnly => match opdOf s with
    | .k _ | .zero => []
    | .v _ | .p _ | .rel .. => [0x0F]
    | _ => [0x03]

/-- The ILLEGAL details of a destination field (R23, R62, R124, R172). -/
def dstDetails (f : DstForm) (s : Spec) : List Nat :=
  match f with
  | .none => if s = specZero then [] else [0x04] ++ (match opdOf s with | .rsv => [0x03] | .imm => [0x03] | _ => [])
  | .reg => match opdOf s with | .rsv | .imm | .p _ => [0x03] | _ => []
  | .wide => match opdOf s with
    | .rsv | .imm | .p _ => [0x03]
    | .v n | .k n => if n % 2 = 1 then [0x03] else []
    | _ => []
  | .pred => match opdOf s with | .p _ | .zero => [] | _ => [0x03]
  | .pred0 => match opdOf s with | .p 0 => [] | _ => [0x03]
  | .vOnly => match opdOf s with
    | .v _ | .rel .. | .zero => []
    | .k _ => [0x0F]
    | _ => [0x03]
  | .kOnly => match opdOf s with
    | .k _ | .zero => []
    | _ => [0x03]
  | .xreg => if s.toNat < 4 then [] else [0x03]

/-- Whether a specifier names a v, p or relative register, which no group-uniform word may read (R24). -/
def perThread (s : Spec) : Bool :=
  match opdOf s with | .v _ | .p _ | .rel .. => true | _ => false

/-- Whether a destination makes a word group-uniform (R24). -/
def isKReg (s : Spec) : Bool :=
  match opdOf s with | .k _ => true | _ => false

/-- Whether a specifier is a v or relative register (R43). -/
def isVRel (s : Spec) : Bool :=
  match opdOf s with | .v _ | .rel .. => true | _ => false

/-- A BF16 pattern widened exactly to binary64 (R25, R65); a NaN widens to the canonical NaN (R66). -/
def bf16To64 (i : BitVec 16) : Word64 :=
  let sg := field i.toNat 15 1 * 2 ^ 63
  let e := field i.toNat 7 8
  let m := field i.toNat 0 7
  if e = 255 then (if m = 0 then BitVec.ofNat 64 (sg + 2047 * 2 ^ 52) else 0x7FF8000000000000)
  else if e = 0 then
    if m = 0 then BitVec.ofNat 64 sg
    else
      let k := Nat.log2 m
      BitVec.ofNat 64 (sg + (k + 890) * 2 ^ 52 + (m - 2 ^ k) * 2 ^ (52 - k))
  else BitVec.ofNat 64 (sg + (e + 896) * 2 ^ 52 + m * 2 ^ 45)

/-- A 16-bit immediate under its extension, as the 64-bit value the operand supplies (R25). -/
def immValue (f : ImmForm) (i : BitVec 16) : Word64 :=
  match f with
  | .none | .zero => i.zeroExtend 64
  | .sign => (i.signExtend 32).zeroExtend 64
  | .sign64 => i.signExtend 64
  | .high => (i.zeroExtend 64) <<< 16
  | .bf32 => (i.zeroExtend 64) <<< 16
  | .half2 | .bf2 => (i ++ i).zeroExtend 64
  | .bf64 => bf16To64 i

/-- A thread's index register (R86). -/
def readX (x : IndexRegs) : Nat → BitVec 16
  | 0 => x.x0 | 1 => x.x1 | 2 => x.x2 | _ => x.x3

/-- An index register written (R124). -/
def writeX (x : IndexRegs) (i : Nat) (a : BitVec 16) : IndexRegs :=
  match i with
  | 0 => { x with x0 := a } | 1 => { x with x1 := a } | 2 => { x with x2 := a } | _ => { x with x3 := a }

/-- The effective number of a relative register, formed exactly (R95). -/
def effective (t : Thread) (x off : Nat) : Int := (readX t.x x).toInt + off

/-- The v register a specifier names in a thread, out-of-range numbers included (R22). -/
def vNumber (t : Thread) (o : Opd) : Option Int :=
  match o with
  | .v n => some n
  | .rel x off => some (effective t x off)
  | _ => none

/-- Whether a v number lies outside the allocation, or, for a run of `n` registers, is not a multiple of the
run's alignment or reaches past it (R22, R62, R94, R182). A plain specifier's alignment is an ILLEGAL check. -/
def outside (alloc : Nat) (a n : Nat) (x : Int) : Bool :=
  x < 0 || alloc < (x + n) || x % a ≠ 0

/-- Whether a lane's register run raises REGBOUND: `n` registers aligned to `a` where the number is relative. -/
def boundFails (g : Group) (lane a n : Nat) (s : Spec) : Bool :=
  match g.threads[lane]? with
  | none => false
  | some t => match opdOf s with
    | .v m => g.alloc < m + n
    | .rel x off => outside g.alloc a n (effective t x off)
    | _ => false

/-- A v register of a thread. -/
def readV (t : Thread) (n : Nat) : Reg32 := Cells.get 0 t.v n

/-- A k register of a group. -/
def readK (g : Group) (n : Nat) : Reg32 := Cells.get 0 g.k n

/-- A predicate of a thread. -/
def readP (t : Thread) (n : Nat) : Bool := t.p.getLsbD n

/-- The thread of a lane; a lane beyond the group reads as a thread of zeros. -/
def Thread.zero : Thread :=
  { pc := 0, v := [], x := ⟨0, 0, 0, 0⟩, p := 0, status := 0, exited := false, joins := [], returned := false,
    held := none }
def threadAt (g : Group) (lane : Nat) : Thread := g.threads.getD lane Thread.zero

/-- The `j`-th register of the run a specifier names, in a lane (R108, R182). -/
def readOpd (g : Group) (lane : Nat) (s : Spec) (j : Nat) : Reg32 :=
  let t := threadAt g lane
  match opdOf s with
  | .v n => readV t (n + j)
  | .k n => readK g (n + j)
  | .p n => if readP t n then 1 else 0
  | .rel x off => readV t ((effective t x off).toNat + j)
  | _ => 0

/-- A source as 64 bits: one register zero-extended, or a pair (R62, R108). -/
def readSrc (g : Group) (lane : Nat) (wide : Bool) (s : Spec) : Word64 :=
  match opdOf s with
  | .zero => 0
  | _ => if wide then pair (readOpd g lane s 0) (readOpd g lane s 1) else (readOpd g lane s 0).zeroExtend 64

/-- The register names a specifier covers in a lane, for `n` registers (R17). -/
def regNames (g : Group) (lane : Nat) (s : Spec) (n : Nat) : List RegName :=
  let t := threadAt g lane
  match opdOf s with
  | .v m => (List.range n).map fun j => .v (m + j)
  | .k m => (List.range n).map fun j => .k (m + j)
  | .p m => [.p m]
  | .rel x off => ((List.range n).filter fun (j : Nat) => 0 ≤ effective t x off + (j : Int)).map fun (j : Nat) =>
      .v (effective t x off + (j : Int)).toNat
  | _ => []

/-- A thread with one general register written. -/
def writeV (t : Thread) (n : Nat) (a : Reg32) : Thread := { t with v := Cells.put 0 t.v n a }

/-- A thread with one predicate written. -/
def writeP (t : Thread) (n : Nat) (b : Bool) : Thread :=
  { t with p := if b then t.p ||| ((1 : BitVec 16) <<< n) else t.p &&& ~~~((1 : BitVec 16) <<< n) }

/-- A group with one k register written. -/
def writeK (g : Group) (n : Nat) (a : Reg32) : Group := { g with k := Cells.put 0 g.k n a }

/-- A group with the thread of a lane changed. -/
def modThread (g : Group) (lane : Nat) (f : Thread → Thread) : Group :=
  { g with threads := modAt g.threads lane f }

/-- One register write delivered (R185, R247): a v or p register in its lane, a k register for the group. -/
def applyWrite (g : Group) (w : RegWrite) : Group :=
  match w.reg, w.lane with
  | .v n, some l => modThread g l fun t => writeV t n w.value
  | .p n, some l => modThread g l fun t => writeP t n (w.value ≠ 0)
  | .k n, _ => writeK g n w.value
  | _, none => g

/-- The writes of a result to the registers a destination names in a lane; zero discards it (R21, R62). -/
def dstWrites (g : Group) (lane : Nat) (wide : Bool) (s : Spec) (a : Word64) : List RegWrite :=
  let lo := lowHalf a
  let hi := highHalf a
  let t := threadAt g lane
  match opdOf s with
  | .v n => if wide then [⟨.v n, some lane, lo⟩, ⟨.v (n + 1), some lane, hi⟩] else [⟨.v n, some lane, lo⟩]
  | .rel x off =>
    let n := (effective t x off).toNat
    if wide then [⟨.v n, some lane, lo⟩, ⟨.v (n + 1), some lane, hi⟩] else [⟨.v n, some lane, lo⟩]
  | .k n => if wide then [⟨.k n, none, lo⟩, ⟨.k (n + 1), none, hi⟩] else [⟨.k n, none, lo⟩]
  | .p n => [⟨.p n, some lane, if a = 0 then 0 else 1⟩]
  | _ => []

end Sys2Proof.Machine
end

