-- ==== Sys2Proof/Machine/Float.lean ====
section
/-!
DEFINITION. Floating-point values, formats, rounding and flags (R65-R72, R80), and the arithmetic, comparison,
conversion and special functions built on them (R137-R154). Everything is exact until one rounding.
-/
namespace Sys2Proof.Machine

/-- An exact value: NaN, an infinity, or (−1)^neg · m · 2^e (R80, EXACT). -/
inductive FVal where
  | nan
  | inf (neg : Bool)
  | fin (neg : Bool) (m : Nat) (e : Int)
deriving DecidableEq, Repr

/-- A layout of R65: exponent bits and mantissa bits; `finite` marks E4M3, which has no infinity. -/
structure Fmt where
  eb : Nat
  mb : Nat
  finite : Bool
deriving DecidableEq, Repr

def fp64 : Fmt := ⟨11, 52, false⟩
def fp32 : Fmt := ⟨8, 23, false⟩
def fp16 : Fmt := ⟨5, 10, false⟩
def bf16 : Fmt := ⟨8, 7, false⟩
def e5m2 : Fmt := ⟨5, 2, false⟩
def e4m3 : Fmt := ⟨4, 3, true⟩

/-- Rounding modes (R67). -/
inductive RM where
  | rne | rtz | rup | rdn | rna
deriving DecidableEq, Repr

/-- The RM code of class F (R26), and of the conversions (R148). -/
def rmOf (c : Nat) : RM := match c with | 0 => .rne | 1 => .rtz | 2 => .rup | 3 => .rdn | _ => .rna

/-- The sticky flags (R69). -/
def flNX : BitVec 5 := 1
def flUF : BitVec 5 := 2
def flOF : BitVec 5 := 4
def flDZ : BitVec 5 := 8
def flNV : BitVec 5 := 16

def Fmt.bias (f : Fmt) : Nat := 2 ^ (f.eb - 1) - 1
def Fmt.width (f : Fmt) : Nat := 1 + f.eb + f.mb

/-- The canonical NaN (R66). -/
def canonNan (f : Fmt) : Nat :=
  if f.finite then 0x7F
  else if f.eb = 5 ∧ f.mb = 2 then 0x7E
  else (2 ^ f.eb - 1) * 2 ^ f.mb + 2 ^ (f.mb - 1)

/-- The pattern of an infinity, of the largest finite value, and of zero, with a sign. -/
def signBit (f : Fmt) (neg : Bool) : Nat := if neg then 2 ^ (f.eb + f.mb) else 0
def infBits (f : Fmt) (neg : Bool) : Nat := signBit f neg + (2 ^ f.eb - 1) * 2 ^ f.mb
def maxBits (f : Fmt) (neg : Bool) : Nat :=
  signBit f neg + (if f.finite then 2 ^ (f.eb + f.mb) - 2 else (2 ^ f.eb - 1) * 2 ^ f.mb - 1)

/-- The exact value of a pattern (R65, R71); with `ftz` a subnormal reads as zero of its sign (R68). -/
def unpack (f : Fmt) (ftz : Bool) (x : Nat) : FVal :=
  let neg := bitOf x (f.eb + f.mb)
  let e := field x f.mb f.eb
  let m := field x 0 f.mb
  if f.finite then
    if e = 2 ^ f.eb - 1 ∧ m = 2 ^ f.mb - 1 then .nan
    else if e = 0 then .fin neg (if ftz then 0 else m) (1 - (f.bias : Int) - f.mb)
    else .fin neg (2 ^ f.mb + m) ((e : Int) - f.bias - f.mb)
  else if e = 2 ^ f.eb - 1 then (if m = 0 then .inf neg else .nan)
  else if e = 0 then .fin neg (if ftz then 0 else m) (1 - (f.bias : Int) - f.mb)
  else .fin neg (2 ^ f.mb + m) ((e : Int) - f.bias - f.mb)

/-- Number of bits of a natural number. -/
def bitLen (m : Nat) : Nat := if m = 0 then 0 else Nat.log2 m + 1

/-- `m · 2^e`, plus a little when `sticky`, as a multiple of `2^q` under a mode; and whether it is exact. -/
def roundTo (neg : Bool) (m : Nat) (e : Int) (sticky : Bool) (q : Int) (rm : RM) : Nat × Bool :=
  let sh := q - e
  let kept := if sh ≤ 0 then m * 2 ^ (-sh).toNat else m / 2 ^ sh.toNat
  let rem := if sh ≤ 0 then 0 else m % 2 ^ sh.toNat
  let half := if sh ≤ 0 then 1 else 2 ^ (sh.toNat - 1)
  let exact := rem = 0 && !sticky
  let above := rem > half || (rem = half && sticky)
  let tie := rem = half && !sticky
  let up := match rm with
    | .rne => above || (tie && kept % 2 = 1)
    | .rna => above || tie
    | .rtz => false
    | .rup => !neg && !exact
    | .rdn => neg && !exact
  (if up then kept + 1 else kept, exact)

/-- A rounded result with its flags. -/
structure Rounded where
  bits : Nat
  flags : BitVec 5
deriving DecidableEq, Repr

/-- What an overflow gives in each mode (R67). -/
def overflowBits (f : Fmt) (neg : Bool) (rm : RM) : Nat :=
  match rm with
  | .rne | .rna => infBits f neg
  | .rtz => maxBits f neg
  | .rup => if neg then maxBits f neg else infBits f neg
  | .rdn => if neg then infBits f neg else maxBits f neg

/-- How an FP8 destination treats an overflow (R72); other formats use `ieee` (R67). -/
inductive Overflow where
  | ieee | saturate | nan
deriving DecidableEq, Repr

/-- A nonzero magnitude rounded once to a format: subnormals, overflow, .FTZ and flags (R67-R69, R72).
A result is tiny when its rounding with an unbounded exponent range lies below the smallest normal. -/
def roundMag (f : Fmt) (rm : RM) (ftz : Bool) (ov : Overflow) (neg : Bool) (m : Nat) (e : Int)
    (sticky : Bool) : Rounded :=
  let lead : Int := e + bitLen m - 1
  let emin : Int := 1 - (f.bias : Int)
  let free := roundTo neg m e sticky (lead - f.mb) rm
  let tiny := lead < emin && !(lead = emin - 1 && free.1 = 2 ^ (f.mb + 1))
  let q := if lead < emin then emin - f.mb else lead - f.mb
  let r := roundTo neg m e sticky q rm
  let inexact := if r.2 then 0 else flNX
  if tiny && ftz then ⟨signBit f neg, flNX ||| flUF⟩
  else
    let carry := r.1 = 2 ^ (f.mb + 1)
    let mant := if carry then 2 ^ f.mb else r.1
    let qq := if carry then q + 1 else q
    let ex := if mant < 2 ^ f.mb then 0 else (qq + f.mb + f.bias).toNat
    let beyond := if f.finite then ex > 2 ^ f.eb - 1 || (ex = 2 ^ f.eb - 1 && mant = 2 ^ (f.mb + 1) - 1)
                else ex ≥ 2 ^ f.eb - 1
    if beyond then
      match ov with
      | .ieee => ⟨overflowBits f neg rm, flOF ||| flNX⟩
      | .saturate => ⟨maxBits f neg, flOF ||| flNX⟩
      | .nan => if f.finite then ⟨canonNan f, flOF ||| flNX⟩ else ⟨overflowBits f neg rm, flOF ||| flNX⟩
    else
      let frac := if mant < 2 ^ f.mb then mant else mant - 2 ^ f.mb
      ⟨signBit f neg + ex * 2 ^ f.mb + frac, if tiny && !r.2 then inexact ||| flUF else inexact⟩

/-- RND of R80: an exact value rounded to a format; a zero keeps its sign. -/
def rnd (f : Fmt) (rm : RM) (ftz : Bool) (x : FVal) : Rounded :=
  match x with
  | .nan => ⟨canonNan f, 0⟩
  | .inf neg => ⟨infBits f neg, 0⟩
  | .fin neg m e => if m = 0 then ⟨signBit f neg, 0⟩ else roundMag f rm ftz .ieee neg m e false

/-- A quotient `num / den · 2^e` of positive numbers rounded once, with enough bits below the last place. -/
def rndQuot (f : Fmt) (rm : RM) (ftz : Bool) (neg : Bool) (num den : Nat) (e : Int) : Rounded :=
  let k := bitLen den + f.mb + 4
  let q := num * 2 ^ k / den
  roundMag f rm ftz .ieee neg q (e - k) (num * 2 ^ k % den ≠ 0)

/-- The sign of an exact zero sum (R67). -/
def zeroSign (rm : RM) : Bool := rm = .rdn

/-- The exact sum of two values, a zero of opposite signs taking the mode's sign (R67); ∞ − ∞ is NaN. -/
def fadd (rm : RM) (x y : FVal) : FVal :=
  match x, y with
  | .nan, _ | _, .nan => .nan
  | .inf a, .inf b => if a = b then .inf a else .nan
  | .inf a, _ => .inf a
  | _, .inf b => .inf b
  | .fin a m e, .fin b n d =>
    let q := if e ≤ d then e else d
    let p : Int := (m * 2 ^ (e - q).toNat : Nat)
    let r : Int := (n * 2 ^ (d - q).toNat : Nat)
    let t := (if a then -p else p) + (if b then -r else r)
    if t = 0 then .fin (if a = b then a else zeroSign rm) 0 0 else .fin (t < 0) t.natAbs q

/-- Negation. -/
def fneg : FVal → FVal
  | .nan => .nan
  | .inf a => .inf !a
  | .fin a m e => .fin (!a) m e

/-- The exact product; 0 · ∞ is NaN. -/
def fmul (x y : FVal) : FVal :=
  match x, y with
  | .nan, _ | _, .nan => .nan
  | .inf a, .inf b => .inf (a != b)
  | .inf a, .fin b n _ => if n = 0 then .nan else .inf (a != b)
  | .fin a m _, .inf b => if m = 0 then .nan else .inf (a != b)
  | .fin a m e, .fin b n d => .fin (a != b) (m * n) (e + d)

def isNan : FVal → Bool | .nan => true | _ => false
def isInf : FVal → Bool | .inf _ => true | _ => false
def isZero : FVal → Bool | .fin _ m _ => m = 0 | _ => false
def isNeg : FVal → Bool | .nan => false | .inf a => a | .fin a _ _ => a

/-- A result from some inputs: a NaN of inputs that are not NaN raises NV (R69, R137). -/
def finish (f : Fmt) (rm : RM) (ftz : Bool) (ins : List FVal) (x : FVal) : Rounded :=
  let r := rnd f rm ftz x
  if isNan x && !ins.any isNan then ⟨r.bits, r.flags ||| flNV⟩ else r

/-- FADD, FSUB, FMUL and FFMA of R137 over patterns. -/
def opAdd (f : Fmt) (rm : RM) (ftz : Bool) (a b : Nat) : Rounded :=
  let x := unpack f ftz a
  let y := unpack f ftz b
  finish f rm ftz [x, y] (fadd rm x y)
def opSub (f : Fmt) (rm : RM) (ftz : Bool) (a b : Nat) : Rounded :=
  let x := unpack f ftz a
  let y := unpack f ftz b
  finish f rm ftz [x, y] (fadd rm x (fneg y))
def opMul (f : Fmt) (rm : RM) (ftz : Bool) (a b : Nat) : Rounded :=
  let x := unpack f ftz a
  let y := unpack f ftz b
  finish f rm ftz [x, y] (fmul x y)
def opFma (f : Fmt) (rm : RM) (ftz : Bool) (a b c : Nat) : Rounded :=
  let x := unpack f ftz a
  let y := unpack f ftz b
  let z := unpack f ftz c
  finish f rm ftz [x, y, z] (fadd rm (fmul x y) z)

/-- Whether `x < y`, for values that are not NaN; zeros compare equal. -/
def flt (x y : FVal) : Bool :=
  match x, y with
  | .nan, _ | _, .nan => false
  | .inf a, .inf b => a && !b
  | .inf a, .fin .. => a
  | .fin .., .inf b => !b
  | .fin a m e, .fin b n d =>
    let q := if e ≤ d then e else d
    let p : Int := (m * 2 ^ (e - q).toNat : Nat)
    let r : Int := (n * 2 ^ (d - q).toNat : Nat)
    (if a then -p else p) < (if b then -r else r)

/-- The lesser or greater pattern, −0 below +0; NaN rules of FMIN, FMAX and, with `num`, of FMINN, FMAXN
(R138). With .FTZ a subnormal input first becomes zero of its sign. -/
def opMinMax (f : Fmt) (ftz num max : Bool) (a b : Nat) : Nat :=
  let x := unpack f ftz a
  let y := unpack f ftz b
  let flush (v : FVal) (p : Nat) : Nat := if isZero v then signBit f (isNeg v) else p
  let less := flt x y || (isZero x && isZero y && isNeg x && !isNeg y)
  match isNan x, isNan y with
  | true, true => canonNan f
  | true, false => if num then flush y b else canonNan f
  | false, true => if num then flush x a else canonNan f
  | false, false => if less != max then flush x a else flush y b

/-- The comparisons of R139. -/
def compareOp (c : Nat) (x y : FVal) : Bool :=
  let un := isNan x || isNan y
  let lt := flt x y
  let gt := flt y x
  match c with
  | 0 => !un && !lt && !gt
  | 1 => un || lt || gt
  | 2 => lt
  | 3 => !un && !gt
  | 4 => gt
  | 5 => !un && !lt
  | 6 => !un
  | _ => un

/-- The class mask of a pattern (R140). -/
def classMask (f : Fmt) (ftz : Bool) (a : Nat) : Nat :=
  match unpack f ftz a with
  | .nan => 2 ^ 8
  | .inf neg => if neg then 1 else 2 ^ 7
  | .fin neg m _ =>
    if m = 0 then (if neg then 2 ^ 3 else 2 ^ 4)
    else if field a f.mb f.eb = 0 then (if neg then 2 ^ 2 else 2 ^ 5)
    else (if neg then 2 else 2 ^ 6)

/-- FRND (R141): the integral value, and whether it differs from the input. -/
def opRound (rm : RM) (ftz : Bool) (a : Nat) : Nat × Bool :=
  match unpack fp32 ftz a with
  | .nan => (canonNan fp32, false)
  | .inf neg => (infBits fp32 neg, false)
  | .fin neg m e =>
    if m = 0 then (signBit fp32 neg, false)
    else
      let r := roundTo neg m e false 0 rm
      if e ≥ 0 then (a, false)
      else if r.1 = 0 then (signBit fp32 neg, true)
      else ((rnd fp32 .rne false (.fin neg r.1 0)).bits, !r.2)

/-! ### Conversion to integers (R70, R80) -/

/-- A value converted to an `n`-bit integer: rounded, saturated; NaN gives 0 (SATI of R80, R70). -/
def toInt (rm : RM) (n : Nat) (sg : Bool) (x : FVal) : Int × BitVec 5 :=
  let lo : Int := if sg then -(2 ^ (n - 1)) else 0
  let hi : Int := if sg then 2 ^ (n - 1) - 1 else 2 ^ n - 1
  match x with
  | .nan => (0, flNV)
  | .inf neg => (if neg then lo else hi, flNV)
  | .fin neg m e =>
    let r := roundTo neg m e false 0 rm
    let v : Int := if neg then -(r.1 : Int) else r.1
    if v < lo then (lo, flNV) else if hi < v then (hi, flNV) else (v, if r.2 then 0 else flNX)

/-- An integer as an exact value; zero is +0. -/
def ofInt (x : Int) : FVal := .fin (x < 0) x.natAbs 0

/-- A value converted to a float format by a mode; FP8 saturates without .NSAT (R72, R149). -/
def toFloat (f : Fmt) (rm : RM) (ftz nsat : Bool) (x : FVal) : Rounded :=
  let fp8 := f = e4m3 || f = e5m2
  match x with
  | .nan => ⟨canonNan f, 0⟩
  | .inf neg =>
    if !fp8 then ⟨infBits f neg, 0⟩
    else if !nsat then ⟨maxBits f neg, flOF ||| flNX⟩
    else if f.finite then ⟨canonNan f, flNV⟩ else ⟨infBits f neg, 0⟩
  | .fin neg m e =>
    if m = 0 then ⟨signBit f neg, 0⟩
    else roundMag f rm ftz (if fp8 then (if nsat then .nan else .saturate) else .ieee) neg m e false

/-! ### Helpers of R80 -/

/-- A value rounded to a format in RNE; an exact zero rounds to +0. -/
def rne (f : Fmt) (x : FVal) : Nat := if isZero x then 0 else (rnd f .rne false x).bits
def rne32 (x : FVal) : Nat := rne fp32 x
def rne16 (x : FVal) : Nat := rne fp16 x
def rneBf (x : FVal) : Nat := rne bf16 x
def rne64 (x : FVal) : Nat := rne fp64 x
def add32 (a b : Nat) : Nat := (opAdd fp32 .rne false a b).bits
def val32 (a : Nat) : FVal := unpack fp32 false a

/-! ### Long-latency functions (R142) -/

/-- The integer square root by Newton steps from above; `n` bounds the steps. -/
def isqrtStep : Nat → Nat → Nat → Nat
  | 0, _, r => r
  | n + 1, x, r => let q := (r + x / r) / 2
    if q < r then isqrtStep n x q else r
def isqrt (x : Nat) : Nat := if x = 0 then 0 else isqrtStep (bitLen x + 8) x (2 ^ ((bitLen x + 1) / 2))

/-- FRCP and FDIV. -/
def opDiv (rm : RM) (ftz : Bool) (a b : Nat) : Rounded :=
  let x := unpack fp32 ftz a
  let y := unpack fp32 ftz b
  let neg := isNeg x != isNeg y
  match x, y with
  | .nan, _ | _, .nan => ⟨canonNan fp32, 0⟩
  | .inf _, .inf _ => ⟨canonNan fp32, flNV⟩
  | .inf _, _ => ⟨infBits fp32 neg, 0⟩
  | _, .inf _ => ⟨signBit fp32 neg, 0⟩
  | .fin _ m e, .fin _ n d =>
    if n = 0 then (if m = 0 then ⟨canonNan fp32, flNV⟩ else ⟨infBits fp32 neg, flDZ⟩)
    else if m = 0 then ⟨signBit fp32 neg, 0⟩
    else rndQuot fp32 rm ftz neg m n (e - d)

def opRcp (rm : RM) (ftz : Bool) (a : Nat) : Rounded := opDiv rm ftz 0x3F800000 a

/-- FSQRT: the root of `m · 2^e` with an even exponent and many bits. -/
def opSqrt (rm : RM) (ftz : Bool) (a : Nat) : Rounded :=
  match unpack fp32 ftz a with
  | .nan => ⟨canonNan fp32, 0⟩
  | .inf neg => if neg then ⟨canonNan fp32, flNV⟩ else ⟨infBits fp32 false, 0⟩
  | .fin neg m e =>
    if m = 0 then ⟨signBit fp32 neg, 0⟩
    else if neg then ⟨canonNan fp32, flNV⟩
    else
      let m1 := if e % 2 = 0 then m else 2 * m
      let e1 := if e % 2 = 0 then e else e - 1
      let x := m1 * 2 ^ 64
      let r := isqrt x
      roundMag fp32 rm ftz .ieee false r (e1 / 2 - 32) (r * r ≠ x)

/-- FRSQ: the root of the reciprocal. -/
def opRsq (rm : RM) (ftz : Bool) (a : Nat) : Rounded :=
  match unpack fp32 ftz a with
  | .nan => ⟨canonNan fp32, 0⟩
  | .inf neg => if neg then ⟨canonNan fp32, flNV⟩ else ⟨0, 0⟩
  | .fin neg m e =>
    if m = 0 then ⟨infBits fp32 neg, flDZ⟩
    else if neg then ⟨canonNan fp32, flNV⟩
    else
      let m1 := if e % 2 = 0 then m else 2 * m
      let e1 := if e % 2 = 0 then e else e - 1
      let r := isqrt (2 ^ 128 / m1)
      roundMag fp32 rm ftz .ieee false r (-(e1 / 2) - 64) (r * r * m1 ≠ 2 ^ 128)

/-- Fixed point: fraction bits, and the bound taken on the error of a series, in units of the last bit. -/
def fracBits : Nat := 640
def margin : Nat := 2 ^ 64
def wideMargin : Nat := 2 ^ 200

/-- π and ln 2 in fixed point, rounded down. -/
def piFix : Nat := 0x3243f6a8885a308d313198a2e03707344a4093822299f31d0082efa98ec4e6c89452821e638d01377be5466cf34e90c6cc0ac29b7c97c50dd3f84d5b5b54709179216d5d98979fb1bd1310ba698dfb5ac
def ln2Fix : Nat := 0xb17217f7d1cf79abc9e3b39803f2f6af40f343267298b62d8a0d175b8baafa2be7b876206debac98559552fb4afa1b10ed2eae35c138214427573b291169b8253e96ca16224ae8c51acbda11317c387e

/-- e^y for fixed-point y in [0, 1), by its series; each term is rounded down. -/
def expSeries : Nat → Nat → Nat → Nat → Nat
  | 0, _, _, acc => acc
  | n + 1, y, t, acc => let k := 160 - n
    let t' := t * y / 2 ^ fracBits / k
    expSeries n y t' (acc + t')
def expFix (y : Nat) : Nat := expSeries 160 y (2 ^ fracBits) (2 ^ fracBits)

/-- e^−y for fixed-point y ≥ 0: y = n·ln 2 + r. -/
def expNeg (y : Nat) : Nat :=
  let n := y / ln2Fix
  let r := y % ln2Fix
  2 ^ (2 * fracBits) / (expFix r * 2 ^ n)

/-- sin and cos of a fixed-point angle in [0, π/2), by their series. -/
def trigSeries : Nat → Nat → Nat → Int → Int → Int
  | 0, _, _, _, acc => acc
  | n + 1, k, y2, t, acc =>
    let t' := -(t * (y2 : Int) / 2 ^ fracBits / ((k + 1) * (k + 2) : Nat))
    trigSeries n (k + 2) y2 t' (acc + t')
def sinFix (y : Nat) : Nat := (trigSeries 100 1 (y * y / 2 ^ fracBits) y y).toNat
def cosFix (y : Nat) : Nat := (trigSeries 100 0 (y * y / 2 ^ fracBits) (2 ^ fracBits) (2 ^ fracBits)).toNat

/-- atanh z for fixed-point z in [0, 1/2), by its series. -/
def atanhSeries : Nat → Nat → Nat → Nat → Nat → Nat
  | 0, _, _, _, acc => acc
  | n + 1, k, z2, p, acc => let p' := p * z2 / 2 ^ fracBits
    atanhSeries n (k + 2) z2 p' (acc + p' / (k + 2))
def atanhFix (z : Nat) : Nat := atanhSeries 330 1 (z * z / 2 ^ fracBits) z z

/-- A value known to lie within `margin` of `x · 2^−fracBits`, rounded in RNE and inexact. Where the two ends
round apart, the choice is left open (assumption log, entry 8). -/
def bracketBy (margin fn a : Nat) (ftz neg : Bool) (x : Nat) (e : Int) : Rounded :=
  let lo := roundMag fp32 .rne ftz .ieee neg (x - margin) (e - fracBits) true
  let hi := roundMag fp32 .rne ftz .ieee neg (x + margin) (e - fracBits) true
  if x ≤ margin then hi
  else if lo = hi then lo
  else if Config.undecided fn (BitVec.ofNat 32 a) then lo else hi

def bracket (fn a : Nat) (ftz neg : Bool) (x : Nat) (e : Int) : Rounded := bracketBy margin fn a ftz neg x e

/-- A finite magnitude in fixed point, rounded down; used where the value is below 2^256. -/
def toFix (m : Nat) (e : Int) : Nat :=
  let sh := e + fracBits
  if sh ≥ 0 then m * 2 ^ sh.toNat else m / 2 ^ (-sh).toNat

/-- FEX2. -/
def opEx2 (ftz : Bool) (a : Nat) : Rounded :=
  match unpack fp32 ftz a with
  | .nan => ⟨canonNan fp32, 0⟩
  | .inf neg => if neg then ⟨0, 0⟩ else ⟨infBits fp32 false, 0⟩
  | .fin neg m e =>
    if m = 0 then ⟨0x3F800000, 0⟩
    else if 9 < e + bitLen m then
      (if neg then roundMag fp32 .rne ftz .ieee false 1 (-600) true
       else roundMag fp32 .rne ftz .ieee false 1 600 true)
    else
      let y := toFix m e
      let whole := y / 2 ^ fracBits
      let frac := y % 2 ^ fracBits
      if frac = 0 then roundMag fp32 .rne ftz .ieee false 1 (if neg then -(whole : Int) else whole) false
      else
        let n : Int := if neg then -(whole : Int) - 1 else whole
        let f := if neg then 2 ^ fracBits - frac else frac
        bracket 0 a ftz false (expFix (f * ln2Fix / 2 ^ fracBits)) n

/-- FLG2. -/
def opLg2 (ftz : Bool) (a : Nat) : Rounded :=
  match unpack fp32 ftz a with
  | .nan => ⟨canonNan fp32, 0⟩
  | .inf neg => if neg then ⟨canonNan fp32, flNV⟩ else ⟨infBits fp32 false, 0⟩
  | .fin neg m e =>
    if m = 0 then ⟨infBits fp32 true, flDZ⟩
    else if neg then ⟨canonNan fp32, flNV⟩
    else
      let k := bitLen m - 1
      let n : Int := e + k
      let r := m - 2 ^ k
      if r = 0 then rnd fp32 .rne ftz (ofInt n)
      else
        let z := r * 2 ^ fracBits / (m + 2 ^ k)
        let l := 2 * atanhFix z * 2 ^ fracBits / ln2Fix
        let t : Int := n * 2 ^ fracBits + l
        bracket 1 a ftz (t < 0) t.natAbs 0

/-- FSIN and FCOS: the angle reduced to a quadrant and a rest. -/
def opTrig (cosine ftz : Bool) (a : Nat) : Rounded :=
  match unpack fp32 ftz a with
  | .nan => ⟨canonNan fp32, 0⟩
  | .inf _ => ⟨canonNan fp32, flNV⟩
  | .fin neg m e =>
    if m = 0 then (if cosine then ⟨0x3F800000, 0⟩ else ⟨signBit fp32 neg, 0⟩)
    else
      let y := toFix m e
      let q := 2 * y / piFix
      let r := (2 * y - q * piFix) / 2
      let quad := (if cosine then q + 1 else q) % 4
      let v := if quad % 2 = 0 then sinFix r else cosFix r
      let sg := (quad ≥ 2) != (neg && !cosine)
      bracketBy (if e + bitLen m > 4 then wideMargin else margin) (if cosine then 3 else 2) a ftz sg v 0

/-- FTANH. -/
def opTanh (ftz : Bool) (a : Nat) : Rounded :=
  match unpack fp32 ftz a with
  | .nan => ⟨canonNan fp32, 0⟩
  | .inf neg => ⟨signBit fp32 neg + 0x3F800000, 0⟩
  | .fin neg m e =>
    if m = 0 then ⟨signBit fp32 neg, 0⟩
    else if 6 < e + bitLen m then ⟨signBit fp32 neg + 0x3F800000, flNX⟩
    else
      let t := expNeg (2 * toFix m e)
      bracket 4 a ftz neg ((2 ^ fracBits - t) * 2 ^ fracBits / (2 ^ fracBits + t)) 0

/-- FSIGM. -/
def opSigm (ftz : Bool) (a : Nat) : Rounded :=
  match unpack fp32 ftz a with
  | .nan => ⟨canonNan fp32, 0⟩
  | .inf neg => if neg then ⟨0, 0⟩ else ⟨0x3F800000, 0⟩
  | .fin neg m e =>
    if m = 0 then ⟨0x3F000000, 0⟩
    else if 8 < e + bitLen m then
      (if neg then roundMag fp32 .rne ftz .ieee false 1 (-300) true else ⟨0x3F800000, flNX⟩)
    else
      let t := expNeg (toFix m e)
      let num := if neg then t else 2 ^ fracBits
      bracket 5 a ftz false (num * 2 ^ fracBits / (2 ^ fracBits + t)) 0

/-- SCLX (R154): a scaled by 2^n. -/
def opScale (rm : RM) (ftz : Bool) (a : Nat) (n : Int) : Rounded :=
  match unpack fp32 ftz a with
  | .nan => ⟨canonNan fp32, 0⟩
  | .inf neg => ⟨infBits fp32 neg, 0⟩
  | .fin neg m e =>
    if m = 0 then ⟨signBit fp32 neg, 0⟩
    else
      -- beyond ±1000 the result overflows or underflows whatever n is
      let n' : Int := if n > 1000 then 1000 else if n < -1000 then -1000 else n
      roundMag fp32 rm ftz .ieee neg m (e + n') false

end Sys2Proof.Machine
end

