-- ==== Sys2Proof/Machine/Flags.lean ====
section
/-!
DEFINITION. The truth values and carries that integer instructions compute (R113, R120, R121): comparisons,
predicate combines, carry out, and saturation. Sticky floating-point flags are computed in Float.lean (R69).
-/
namespace Sys2Proof.Machine

/-- The comparison codes of ISET, ISETU and ISET64 over two exact integers (R120). -/
def compareInt (cmp : Nat) (a b : Int) : Bool :=
  match cmp with
  | 0 => a = b
  | 1 => a ≠ b
  | 2 => a < b
  | 3 => a ≤ b
  | 4 => b < a
  | _ => b ≤ a

/-- The combine codes of ISET, ISETU and ISET64 (R120). -/
def combineBop (bop : Nat) (t p : Bool) : Bool :=
  match bop with
  | 0 => t
  | 1 => t && p
  | 2 => t || p
  | _ => t != p

/-- The operations of PSET (R121). -/
def predicateOp (op : Nat) (x y : Bool) : Bool :=
  match op with
  | 0 => x && y
  | 1 => x || y
  | 2 => x != y
  | 3 => x && !y
  | 4 => x || !y
  | _ => x == y

/-- The 33-bit sum of IADDC: its carry and its low word (R113). -/
def sumCarry (a b : Reg32) (c : Bool) : Nat := a.toNat + b.toNat + (if c then 1 else 0)
def carryOut (a b : Reg32) (c : Bool) : Bool := 2 ^ 32 ≤ sumCarry a b c

/-- An exact integer saturated to 32 signed bits (R63). -/
def clamp32 (x : Int) : Int := if x < -(2 ^ 31) then -(2 ^ 31) else if 2 ^ 31 - 1 < x then 2 ^ 31 - 1 else x

/-- An exact integer reduced to a word (R63). -/
def w32 (x : Int) : Reg32 := BitVec.ofInt 32 x
def w64 (x : Int) : Word64 := BitVec.ofInt 64 x

/-- A truth value as the register value a predicate supplies (R21). -/
def boolWord (b : Bool) : Word64 := if b then 1 else 0

end Sys2Proof.Machine
end

