-- ==== Sys2Proof/Machine/Sha.lean ====
section
/-!
DEFINITION. SHA-256, which the cinder ring uses for its chain and its buffer hashes (R428, R429). Its constants
are computed from what defines them: the fractions of the roots of the first primes.
-/
namespace Sys2Proof.Machine

/-- The greatest number of at most 40 bits whose `e`-th power does not exceed `n`, found bit by bit. -/
def rootFloor (e n : Nat) : Nat :=
  (List.range 40).foldl (fun r i => let t := r + 2 ^ (39 - i); if t ^ e ≤ n then t else r) 0

/-- The first 64 primes: the numbers below 312 that no smaller number from 2 on divides. -/
def shaPrimes : List Nat :=
  (List.range 312).filter fun n => 2 ≤ n && (List.range 18).all fun d => d < 2 || n ≤ d || n % d ≠ 0

/-- The first 32 bits of the fraction of a prime's `e`-th root. -/
def rootBits (e p : Nat) : Reg32 := BitVec.ofNat 32 (rootFloor e (p * 2 ^ (32 * e)))

/-- Three rotations of a word combined. -/
def twist (x : Reg32) (i j k : Nat) : Reg32 := x.rotateRight i ^^^ x.rotateRight j ^^^ x.rotateRight k

/-- The word that follows a window of sixteen message words. -/
def nextWord (w : List Reg32) : Reg32 :=
  let x n := w.getD n 0
  x 0 + x 9 + (twist (x 1) 7 18 0 ^^^ x 1 ^^^ (x 1 >>> 3)) + (twist (x 14) 17 19 0 ^^^ x 14 ^^^ (x 14 >>> 10))

/-- One round: the eight working words move down one place, the fifth and the first taking the round's sums, and
the message window moves on. -/
def shaRound (st : List Reg32 × List Reg32) (k : Reg32) : List Reg32 × List Reg32 :=
  let x n := st.1.getD n 0
  let pick := (x 4 &&& x 5) ||| (~~~(x 4) &&& x 6)
  let most := (x 0 &&& x 1) ||| (x 2 &&& (x 0 ||| x 1))
  let sum := x 7 + twist (x 4) 6 11 25 + pick + k + st.2.headD 0
  ((sum + twist (x 0) 2 13 22 + most) :: modAt (st.1.take 7) 3 (· + sum), st.2.tail ++ [nextWord st.2])

/-- The big-endian 32-bit word at a word index of a row of bytes. -/
def bigWord (m : List Byte) (i : Nat) : Reg32 :=
  BitVec.ofNat 32 (((m.drop (4 * i)).take 4).foldl (fun a b => 256 * a + b.toNat) 0)

/-- The hash value after one 64-byte block. -/
def shaBlock (h : List Reg32) (block : List Byte) : List Reg32 :=
  List.zipWith (· + ·) h ((shaPrimes.map (rootBits 3)).foldl shaRound (h, (List.range 16).map (bigWord block))).1

/-- SHA-256 of a row of bytes: padded to whole blocks with a one bit, zeros and its length in bits. -/
def sha256 (m : List Byte) : BitVec 256 :=
  let padded := m ++ 0x80 :: List.replicate ((119 - m.length % 64) % 64) 0 ++ (bytesOfNat 8 (8 * m.length)).reverse
  let h := (List.range (padded.length / 64)).foldl (fun h i => shaBlock h ((padded.drop (64 * i)).take 64))
    ((shaPrimes.take 8).map (rootBits 2))
  BitVec.ofNat 256 (h.foldl (fun a x => a * 2 ^ 32 + x.toNat) 0)

/-- The 32 bytes of a digest, first byte first. -/
def digestBytes (d : BitVec 256) : List Byte := (bytesOfNat 32 d.toNat).reverse

end Sys2Proof.Machine
end

