-- ==== Sys2Proof/Machine/Ops.lean ====
section
/-!
DEFINITION. The named operations over the state that every meaning uses: the issuing agent, flags and hazard
bits, register writes and their cancellation, clause ends and reconvergence, records of the cinder ring, taking
a stop, resuming from one and terminating a context.
-/
namespace Sys2Proof.Machine

/-! ### Agents -/

/-- A team, and a group of a team. -/
def State.team? (s : State) (t : Nat) : Option Team := s.teams[t]?
def State.group? (s : State) (t g : Nat) : Option Group := (s.teams[t]?).bind fun tm => tm.groups[g]?

/-- A state with one team, or one group, changed. -/
def State.modTeam (s : State) (t : Nat) (f : Team → Team) : State := { s with teams := modAt s.teams t f }
def State.modGroup (s : State) (t g : Nat) (f : Group → Group) : State :=
  s.modTeam t fun tm => { tm with groups := modAt tm.groups g f }

/-- A state with one cluster, die, queue, context or launch changed. -/
def State.modCluster (s : State) (c : Nat) (f : Cluster → Cluster) : State :=
  { s with clusters := modAt s.clusters c f }
def State.modDie (s : State) (d : Nat) (f : Die → Die) : State := { s with dies := modAt s.dies d f }
def State.modQueue (s : State) (q : Nat) (f : Queue → Queue) : State := { s with queues := modAt s.queues q f }
def State.modContext (s : State) (c : Nat) (f : Context → Context) : State :=
  { s with contexts := modAt s.contexts c f }
def State.modLaunch (s : State) (l : Nat) (f : Launch → Launch) : State :=
  { s with launches := modAt s.launches l f }

/-- The group, or the handler's thread, that an agent names. -/
def State.unitOf (s : State) : Issuer → Option Group
  | .none => none
  | .group t g => s.group? t g
  | .handler c => ((s.clusters[c]?).bind Cluster.handler).map Handler.cpu

/-- The agent's group changed. -/
def State.modUnit (s : State) (i : Issuer) (f : Group → Group) : State :=
  match i with
  | .none => s
  | .group t g => s.modGroup t g f
  | .handler c => s.modCluster c fun cl =>
      { cl with handler := cl.handler.map fun h => { h with cpu := f h.cpu } }

/-- The launch a team belongs to, and the launch of the stop that a handler serves. -/
def State.launchOf (s : State) (t : Nat) : Option Launch := (s.teams[t]?).bind fun tm => s.launches[tm.launch]?

/-- The team whose context an agent runs in. -/
def State.teamOf (s : State) : Issuer → Nat
  | .none => 0
  | .group t _ => t
  | .handler c => (((s.clusters[c]?).bind Cluster.handler).map fun h => h.stop.team).getD 0

/-- The context an agent runs in. -/
def State.ctxOf (s : State) (i : Issuer) : Nat := ((s.launchOf (s.teamOf i)).map Launch.ctx).getD 0

/-- The physical core of an agent; a control processor uses the stop of its cluster's core 0 (R342). -/
def State.coreOf (s : State) (i : Issuer) : Nat :=
  match i with
  | .none => 0
  | .group t _ => ((s.teams[t]?).map Team.core).getD 0
  | .handler c => 8 * c

/-- Whether an agent's launch runs in ordered mode (R447). -/
def Launch.ordered (l : Launch) : Bool := bitOf l.slot.low.w0.toNat 9
def Launch.isTask (l : Launch) : Bool := bitOf l.slot.low.w0.toNat 8
def Launch.coop (l : Launch) : Bool := bitOf l.slot.low.w0.toNat 10
def State.orderedOf (s : State) (i : Issuer) : Bool := ((s.launchOf (s.teamOf i)).map Launch.ordered).getD false

/-- A fresh identifier. -/
def State.withId (s : State) : State := { s with nextId := s.nextId + 1 }

/-- A free value drawn: the counter that names it moves on. -/
def State.draw (s : State) : State := { s with fresh := s.fresh + 1 }

/-! ### Flags and hazard bits (R16, R17) -/

/-- A group's flag count. -/
def flagCount (g : Group) (n : Nat) : Nat := g.cf.getD n 0

/-- A flag counted up or down (R16). -/
def flagUp (g : Group) (n : Nat) : Group := { g with cf := modAt g.cf n (· + 1) }
def flagDown (g : Group) (n : Nat) : Group := { g with cf := modAt g.cf n (· - 1) }

/-- The flags a WAIT field names, all zero (R12). -/
def flagsZero (g : Group) (wait : BitVec 12) : Bool :=
  (List.range 12).all fun n => !wait.getLsbD n || flagCount g n = 0

/-- Whether a register's hazard bit is set (R17). -/
def hazardSet (g : Group) (r : RegName) : Bool := g.hazards.any fun h => h.reg = r

/-- Hazard bits set for registers, tagged with a flag; a register keeps one bit (R17). -/
def setHazards (g : Group) (rs : List RegName) (flag : Nat) : Group :=
  { g with hazards := rs.map (⟨·, flag⟩) ++ g.hazards.filter fun h => !rs.contains h.reg }

/-- Hazard bits cleared for registers that an instruction of fixed latency writes (R17). -/
def clearHazards (g : Group) (rs : List RegName) : Group :=
  { g with hazards := g.hazards.filter fun h => !rs.contains h.reg }

/-- Hazard bits cleared at the start of a clause whose WAIT names their flag (R17). -/
def clearWaited (g : Group) (wait : BitVec 12) : Group :=
  { g with hazards := g.hazards.filter fun h => !wait.getLsbD h.flag }

/-- The flag a flag select names in the clause (R16): none, FLAGA or FLAGB. -/
def selectedFlag (g : Group) (fs : BitVec 2) : Option Nat :=
  match g.clause with
  | none => none
  | some c => if fs = 1 then (if c.flagA < 12 then some c.flagA else none)
              else if fs = 2 then (if c.flagB < 12 then some c.flagB else none) else none

/-- Whether a selected flag would count to 32 (R16). -/
def flagBlocked (g : Group) (f : Option Nat) : Bool :=
  match f with | none => false | some n => 31 ≤ flagCount g n

/-! ### Register writes and their cancellation (R106) -/

/-- Outstanding writes of an agent to some registers cancelled in every lane (R106). -/
def State.cancelWrites (s : State) (i : Issuer) (rs : List RegName) : State :=
  { s with ops := s.ops.map fun o =>
      if o.issuer = i then
        { o with writes := o.writes.filter (fun w => !rs.contains w.reg),
                 dests := o.dests.filter fun d => !rs.contains d.1 }
      else o }

/-- Sticky flags raised in lanes (R69). -/
def raiseFlags (g : Group) (fl : List (Nat × BitVec 5)) : Group :=
  fl.foldl (fun g e => modThread g e.1 fun t => { t with status := t.status ||| e.2.zeroExtend 32 }) g

/-- The register writes of a fixed-latency instruction delivered: outstanding writes cancelled, hazard bits
cleared, values written (R17, R18, R106). `names` lists every destination, guards apart. -/
def State.writeNow (s : State) (i : Issuer) (names : List RegName) (ws : List RegWrite) : State :=
  (s.cancelWrites i names).modUnit i fun g => ws.foldl applyWrite (clearHazards g names)

/-! ### Reconvergence (R96-R99, R161-R163) -/

/-- The record on top of a thread's join stack. -/
def topRecord (g : Group) (t : Thread) : Option JoinRec :=
  match t.joins with
  | [] => none
  | j :: _ => g.records.find? fun r => r.id = j

/-- Whether a thread stands arrived at the record on top of its stack (R97); at a call record only by `RET`
or by a false guard at the `CALL` (R161). -/
def arrived (g : Group) (t : Thread) : Bool :=
  match topRecord g t with
  | none => false
  | some r => t.pc.toNat = r.target && (!r.call || t.returned)

/-- Whether every live member of a record has arrived at it (R98). -/
def recordComplete (g : Group) (r : JoinRec) : Bool :=
  (List.range 32).all fun l =>
    let t := threadAt g l
    !r.members.getLsbD l || t.exited || (t.joins.head? = some r.id && arrived g t)

/-- One completed record popped from its members' stacks, or discarded (R98). -/
def popRecord (g : Group) (r : JoinRec) : Group :=
  { g with
    threads := g.threads.mapIdx fun l t =>
      if r.members.getLsbD l && t.joins.head? = some r.id then { t with joins := t.joins.tail, returned := false }
      else t
    records := g.records.filter fun q => q.id ≠ r.id }

/-- Every completed record popped; a pop may bring a member to its next record (R98). Each pop removes a
record, so as many rounds as there are records suffice. -/
def settleJoins : Nat → Group → Group
  | 0, g => g
  | n + 1, g => match g.records.find? (recordComplete g) with
    | none => g
    | some r => settleJoins n (popRecord g r)

def settle (g : Group) : Group := settleJoins (g.records.length + 1) g

/-- A thread that leaves every record of its stack when it exits (R89). -/
def exitThread (g : Group) (lane : Nat) : Group :=
  let t := threadAt g lane
  { modThread g lane (fun t => { t with exited := true, joins := [], returned := false, held := none }) with
    records := g.records.map fun r =>
      if t.joins.contains r.id then { r with members := r.members &&& ~~~((1 : BitVec 32) <<< lane) } else r }

/-- Whether a thread may issue (R99): alive, not arrived, not held. -/
def mayIssue (g : Group) (lane : Nat) : Bool :=
  match g.threads[lane]? with
  | none => false
  | some t => g.cohort.getLsbD lane && !t.exited && !arrived g t && t.held.isNone

/-- The lanes that issue the next clause: those that may issue and stand at the lowest PC (R99). -/
def nextClause (g : Group) : Option (Nat × BitVec 32) :=
  match leastOf (((List.range 32).filter (mayIssue g)).map fun l => (threadAt g l).pc.toNat) with
  | none => none
  | some pc => some (pc, maskOf fun l => mayIssue g l && (threadAt g l).pc.toNat = pc)

/-- Whether every thread of the cohort has exited (R89). -/
def allExited (g : Group) : Bool := (lanesOf g.cohort).all fun l => (threadAt g l).exited

/-- The active cohort members (R93). -/
def activeMask (g : Group) : BitVec 32 := maskOf fun l => g.cohort.getLsbD l && !(threadAt g l).exited

/-- A clause that has ended: its issuing threads stand at the word after it, and join records are tested
(R97, R98). -/
def endClause (g : Group) (c : Clause) : Group :=
  let after := BitVec.ofNat 32 (c.h + 1 + c.len)
  let g := { g with
    clause := none
    threads := g.threads.mapIdx fun l t => if c.lanes.getLsbD l then { t with pc := after } else t }
  settle g

/-- The group moves past the word it issued (R9): to the next word, or past the clause. `words` counts the
word and its parameter block. -/
def advance (words : Nat) (g : Group) : Group :=
  match g.clause with
  | none => g
  | some c =>
    if c.pos + words ≤ c.len then { g with clause := some { c with pos := c.pos + words, gathered := false }, hold := .none }
    else { endClause { g with hold := .none } c with hold := .none }

/-- The lanes of the clause, and those of them whose guard is true (R20). The control processor's guard is its
one thread's. -/
def issuing (g : Group) : BitVec 32 := (g.clause.map Clause.lanes).getD 0

def guardTrue (g : Group) (h : Head) (lane : Nat) : Bool :=
  h.g = 0 || (readP (threadAt g lane) h.pred.toNat != (h.n = 1))

def guardMask (g : Group) (h : Head) : BitVec 32 := maskOf fun l => (issuing g).getLsbD l && guardTrue g h l

/-! ### The cinder ring (R428, R429) -/

/-- The key slots that stand for contexts that have ended and for the device key (R408); the contexts' own are 1 to 512. -/
def endedKey : Nat := 513
def deviceKey : Nat := 514

/-- Bytes that the part itself writes to device memory, under the device key (R408). -/
def State.deviceWrite (s : State) (pa : Nat) (bs : List Byte) : State :=
  { s with mem := putBytes s.mem (canonPa pa) bs, lineKeys := Cells.put 0 s.lineKeys (canonPa pa / 128) deviceKey }

/-- A record appended: type, queue, launch number, sequence, time, payload of 40 bytes; the chain moves on, and once the ring
has a place in memory the record stands in its slot. -/
def State.record (s : State) (type queue lnum : Nat) (payload : List Byte) : State :=
  let body := bytesOfNat 1 type ++ bytesOfNat 1 queue ++ bytesOfNat 2 lnum ++ bytesOfNat 4 0 ++
    bytesOfNat 8 s.cinderSeq.toNat ++ bytesOfNat 8 s.timer.toNat ++
    (payload ++ List.replicate (40 - payload.length) 0).take 40
  let h := sha256 (digestBytes s.chain ++ body)
  let n := s.cinderSeq.toNat
  let s1 := if s.cinderBase = 0 then s else s.deviceWrite (s.cinderBase + 64 * (n % 4194304)) body
  { s1 with cinder := (body :: s.cinder).take 4194304, cinderSeq := s.cinderSeq + 1, chain := h,
            signDue := if n % 4096 = 4095 then s.signDue ++ [(n / 4096, h)] else s.signDue }

/-- A FAULT record (R428): CAUSE, DETAIL, %vcore, task ID, SSW0, in that order. -/
def State.faultRecord (s : State) (cause detail : Nat) (team : Nat) (ssw0 : Word64) : State :=
  let tm := s.teams[team]?
  let lnum := ((s.launchOf team).map fun l => l.num.toNat).getD 0
  let q := ((s.launchOf team).map Launch.queue).getD 255
  s.record 0x08 q lnum
    (bytesOfNat 1 cause ++ bytesOfNat 1 detail ++ bytesOfNat 2 ((tm.map Team.vcore).getD 0) ++
      bytesOfNat 8 ((tm.map fun t => t.taskId.toNat).getD 0) ++ bytesOfNat 8 ssw0.toNat)

/-! ### Interrupts -/

/-- A context stop reported to the host: vector 2 and CMDP_STOPLOG (R456). -/
def State.reportStop (s : State) (ctx cause : Nat) (ssw0 : Word64) : State :=
  { s with
    interrupts := s.interrupts ++ [⟨2, ctx, cause, ssw0⟩]
    regs := { s.regs with stoplog := ssw0, stoplogHi := BitVec.ofNat 16 (ctx % 64 + 256 * (cause % 256)) } }

/-! ### Taking a stop (R269-R273, R283) -/

/-- SSW0 of a stop (R270): cause, position, wait snapshot, detail and the low half of the mask; INH is clear
until a handler holds the stop. -/
def sswOf (cause pos : Nat) (wait : BitVec 12) (detail : Nat) (mask : BitVec 32) : Word64 :=
  BitVec.ofNat 64 (cause % 256 + pos % 16 * 2 ^ 9 + wait.toNat * 2 ^ 13 + detail % 128 * 2 ^ 25 +
    field mask.toNat 0 16 * 2 ^ 32)

/-- A thread held at a cross-lane word, which issues it again after a stop (R170). -/
def stale (t : Thread) : Thread := { t with held := t.held.map fun h => { h with stale := true } }

/-- The group stopped: saved status word and mask written, parked, its threads' PCs at the H word of the
stopped clause (R269, R270, R272). Threads held at a cross-lane word stay unissued there (R170). -/
def stopGroup (g : Group) (cause pos detail : Nat) (wait : BitVec 12) (mask : BitVec 32) (addr : Nat) : Group :=
  { g with
    ssw0 := sswOf cause pos wait detail mask
    ssw1 := BitVec.ofNat 64 (field mask.toNat 16 16)
    faultAddr := BitVec.ofNat 48 addr
    run := .parked
    hold := .none
    latch := none
    resumeAt := none
    ownClause := g.clause.map fun c => { c with gathered := false }
    clause := none
    threads := g.threads.mapIdx fun l t => match g.clause with
      | some c => if c.lanes.getLsbD l then { t with pc := BitVec.ofNat 32 c.h, held := none } else stale t
      | none => stale t }

/-- The position of the word a running group issues next: that of the clause it is in, else that of a word its threads
are held at, else 0 (R286). -/
def nextPos (g : Group) : Nat :=
  match g.clause with
  | some c => c.pos
  | none => ((lanesOf (activeMask g)).findSome? fun l => (threadAt g l).held.map fun h => h.clause.pos).getD 0

/-- A group stopped by the part with no fault (R286, R290): SSW0 holds CAUSE 0x00, the position of its next word and no
wait flags; words held at issue, the rendezvous latch among them, are issued again, and an arrival at a barrier is kept
(R294). A parked group keeps its stop's status. -/
def saveGroup (g : Group) : Group :=
  if g.run ≠ .running then g
  else
    let keep (h : Held) : Bool := match g.clause with
      | some c => c.gathered && h.clause.h = c.h && h.clause.pos = c.pos
      | none => false
    { g with
      ssw0 := sswOf 0 (nextPos g) 0 0 0
      ssw1 := 0
      latch := none
      hold := match g.hold with | .bar l i => .bar l i | .resumeWait => .resumeWait | _ => .none
      threads := g.threads.map fun (t : Thread) => { t with held := t.held.map fun h => { h with stale := h.stale || !keep h } } }

/-- The teams that are switched out with a team: those of its cluster-team (R283, R294). -/
def State.clusterTeam (s : State) (t : Nat) : List Nat :=
  match s.teams[t]? with
  | none => []
  | some tm => (List.range s.teams.length).filter fun u =>
      match s.teams[u]? with
      | some o => o.launch = tm.launch && o.cteam = tm.cteam && o.parent = tm.parent &&
          (tm.parent = none || u = t)
      | none => false

/-- The bytes SAVE would write for a team (R287). -/
def saveBytes (tm : Team) : Nat :=
  (tm.groups.map fun g => 128 * g.alloc + 4096 + 32 * (g.records.length - 16)).sum +
  (tm.banks.map fun b => if b.mode = .cache then 0 else 32768).sum + 64 + tm.obufUnits * 256 +
  32 * tm.ranges.length + 1024 * (tm.tiles.filter Tile.reserved).length + 8 +
  (tm.riddles.map fun r => 128 + 16 * r.members.length).sum

/-- The bytes of a team's subscriptions in the save area: a log each, or in an ordered launch a staging image (R330, R331). -/
def State.subBytes (s : State) (t : Nat) (ordered : Bool) : Nat :=
  ((s.subs.filter fun b => b.subscriber = t).map fun b => if ordered then b.len + b.len / 8 + 64 else 65600).sum

/-- The engine commands of a team whose progress a save keeps (R287). -/
def State.enginesOut (s : State) (t : Nat) : Nat :=
  (s.ops.filter fun o => (match o.issuer with | .group u _ => u = t | _ => false) &&
    (match o.kind with | .cpy | .tgms | .ce => true | _ => false)).length

/-- Whether every team of a cluster-team can be saved within the context's save area (R283, R285, R451). -/
def State.canSave (s : State) (t : Nat) : Bool :=
  match s.launchOf t with
  | none => false
  | some l => match s.contexts[l.ctx]? with
    | none => false
    | some c => (s.clusterTeam t).all fun u => match s.teams[u]? with
      | none => true
      | some tm => saveBytes tm + 64 * s.enginesOut u + s.subBytes u l.ordered ≤ c.saveSz * 2 ^ 20

/-- Whether a team's groups stand on its core: it is resident, or still being saved. -/
def onCore (t : Team) : Bool := t.residency = .resident || t.residency = .saving

/-- Whether the parked share of a core exceeds CMDP_PARKTH: p > PCT over exact fractions (R283). -/
def State.parkExceeded (s : State) (core : Nat) : Bool :=
  let gs := (s.teams.filter fun t => t.core = core && onCore t).flatMap Team.groups
  let live := gs.filter fun g => g.run ≠ .ended
  s.regs.parkth.toNat * live.length < 100 * (live.filter fun g => g.run = .parked).length

/-- Every team of a core that can be saved starts its switch-out (R283); the rest stays resident. -/
def State.switchOutCore (s : State) (core : Nat) : State :=
  let out := ((List.range s.teams.length).filter fun u =>
    match s.teams[u]? with
    | some tm => tm.core = core && tm.residency = .resident && s.canSave u
    | none => false).flatMap s.clusterTeam
  { s with teams := s.teams.mapIdx fun u tm =>
      if out.contains u && tm.residency = .resident then { tm with residency := .saving, preempt := .save }
      else tm }

/-- A draining team one of whose groups stops changes mode: flushed when every team of its cluster-team is
idempotent, saved otherwise, and left draining when it cannot be saved (R285, R451). -/
def State.undrain (s : State) (t : Nat) : State :=
  match s.teams[t]? with
  | none => s
  | some tm =>
    if tm.preempt ≠ .drain then s
    else
      let mode : PreemptMode :=
        if !s.canSave t then .drain
        else if (s.clusterTeam t).all (fun u => ((s.teams[u]?).map fun x => x.kernel.idem).getD false) then .flush
        else .save
      let members := s.clusterTeam t
      { s with teams := s.teams.mapIdx fun u o =>
          if members.contains u && o.residency = .resident then
            { o with preempt := mode, residency := if mode = .drain then o.residency else .saving }
          else o }

/-- Taking a stop: the one entry of every cause of R271 that stops a group. The group is parked, its stop
joins its cluster's queue, and the parked share of the core, this stop and the teams still being saved included, is
judged; a draining team changes mode first (R269, R272, R273, R283, R285). -/
def State.takeStop (s : State) (t g cause pos detail : Nat) (wait : BitVec 12) (mask : BitVec 32)
    (addr : Nat) : State :=
  let core := ((s.teams[t]?).map Team.core).getD 0
  let s := s.modGroup t g fun gr => stopGroup gr cause pos detail wait mask addr
  let s := s.modCluster (core / 8) fun c => { c with stops := c.stops ++ [⟨t, g, cause⟩] }
  let u := s.undrain t
  if s.parkExceeded core then u.switchOutCore core else u

/-! ### Ending a context (R281) -/

/-- What a team that is removed, or that ended in work that is dropped, leaves: nothing of its sets, its contributions and
its banks, which return to the pool (R203, R427). -/
def dropHoldings (t : Team) : Team :=
  { t with banks := [], writeSet := [], shadows := [], base := [], held := [], logged := [0, 0, 0], loggedHeld := [0, 0, 0] }

/-- Teams ended at once, their tasks killed; performed writes stay, requests not yet performed are dropped, and
nothing is merged (R281, R301, R454). -/
def State.killTeams (s : State) (which : Team → Bool) : State :=
  let dead := (List.range s.teams.length).filter fun u => match s.teams[u]? with
    | some tm => which tm && tm.ended.isNone
    | none => false
  let gone (i : Issuer) : Bool := match i with
    | .group t _ => dead.contains t
    | .handler c => match (s.clusters[c]?).bind Cluster.handler with
      | some h => dead.contains h.stop.team
      | none => false
    | .none => false
  { s with
    teams := s.teams.mapIdx fun u (tm : Team) =>
      if dead.contains u then
        { dropHoldings tm with
          residency := .ended, ended := some .killed, preempt := .none
          groups := tm.groups.map fun g => { g with run := .ended, hold := .none, latch := none } }
      else if which tm then dropHoldings tm else tm
    ops := s.ops.filter fun o => !gone o.issuer
    reqs := s.reqs.filter fun r => !dead.contains r.team
    subs := s.subs.filter fun b => !dead.contains b.subscriber && !dead.contains b.publisher
    updates := s.updates.filter fun x => !dead.contains x.team && !dead.contains x.subscriber
    clusters := s.clusters.map fun c => { c with
      stops := c.stops.filter fun st => !dead.contains st.team
      handler := match c.handler with
        | some h => if dead.contains h.stop.team then none else some h
        | none => none } }

/-- Launches, and their work not yet placed, dropped (R281, R454). -/
def State.killLaunches (s : State) (which : Launch → Bool) : State :=
  let dead := (List.range s.launches.length).filter fun l => match s.launches[l]? with
    | some la => which la && (la.state = .waiting || la.state = .running)
    | none => false
  let s := s.killTeams fun tm => dead.contains tm.launch
  { s with
    launches := s.launches.mapIdx fun l la => if dead.contains l then { la with state := .killed } else la
    dies := s.dies.map fun d => { d with barriers := d.barriers.filter fun b => !dead.contains b }
    clusters := s.clusters.map fun c => { c with
      billets := c.billets.filter fun b => !dead.contains b.launch
      overflow := c.overflow.filter fun b => !dead.contains b.launch
      shares := c.shares.filter fun h => !dead.contains h.launch } }

/-- A context terminated (R281): teams ended on every core, a FAULT record with cause 0x12, HSTATUS to the
host, its keys cleared so that its lines no longer decrypt (R408), its handles gone (R356). -/
def State.terminate (s : State) (ctx : Nat) (team : Nat) (ssw0 : Word64) : State :=
  let s := s.faultRecord 0x12 0 team ssw0
  let s := s.killLaunches fun la => la.ctx = ctx
  let s := s.modContext ctx fun c => { c with terminated := true, created := false, stopped := false }
  let s : State := { s with
    dies := s.dies.map fun d => { d with
      handles := d.handles.filter fun h => h.ctx ≠ ctx
      hashKept := d.hashKept.filter fun k => k.1 ≠ ctx
      undoLog := (d.undoLog.filter fun r => r.ctx ≠ ctx).map fun r =>
        if (r.key - 1) / 8 = ctx && r.key ≠ 0 then { r with key := endedKey } else r
      tlb := d.tlb.filter fun e => e.ctx ≠ ctx }
    lines := s.lines.map fun l => if (l.key - 1) / 8 = ctx && l.key ≠ 0 then { l with key := endedKey } else l
    lineKeys := s.lineKeys.map fun e => if (e.2 - 1) / 8 = ctx && e.2 ≠ 0 then (e.1, endedKey) else e }
  s.reportStop ctx 0x12 ssw0

/-- The stop a running handler serves, its group's SSW0. -/
def State.stopSsw0 (s : State) (st : Stop) : Word64 := ((s.group? st.team st.grp).map Group.ssw0).getD 0

/-- A fault of an agent: a stop of its group, or, for a handler, termination of the context (R281). -/
def State.fault (s : State) (i : Issuer) (cause detail : Nat) (mask : BitVec 32) (addr : Nat) : State :=
  match i with
  | .none => s
  | .group t g =>
    let c := (s.group? t g).bind Group.clause
    s.takeStop t g cause ((c.map Clause.pos).getD 0) detail ((c.map Clause.wait).getD 0) mask addr
  | .handler cl =>
    match (s.clusters[cl]?).bind Cluster.handler with
    | none => s
    | some h => s.terminate (s.ctxOf i) h.stop.team (s.stopSsw0 h.stop)

/-! ### Code words (R7, R8, R211) -/

/-- The code section an agent runs, as captured, and its virtual address. -/
def State.codeOf (s : State) (i : Issuer) : List Word64 × Nat :=
  match i with
  | .none => ([], 0)
  | .group t _ => ((s.launchOf t).map fun l => (l.code, l.codeVa)).getD ([], 0)
  | .handler c => (((s.clusters[c]?).bind Cluster.handler).map fun h => (h.code, h.codeVa)).getD ([], 0)

/-- Whether a word is an H word (R7), and the clause its fields describe (R10), at its first position. -/
def isHeader (w : Word64) : Bool := getField w 62 2 = 2
def clauseOf (w : Word64) (h : Nat) (lanes : BitVec 32) : Clause :=
  { h := h, wait := BitVec.ofNat 12 (getField w 50 12), flagA := getField w 46 4, flagB := getField w 42 4,
    len := getField w 38 4, yields := w.getLsbD 37, pos := 1, lanes := lanes, gathered := false }

/-! ### Returning from a stop (R280, R107) -/

/-- The join state rebuilt from PCs and exit bits (R107): exited members expected no more; a member has arrived
exactly when its PC is the J of the record on top of its stack; records completed. -/
def rebuildJoins (g : Group) : Group :=
  let g1 : Group := { g with
    threads := g.threads.map fun (t : Thread) =>
      if t.exited then { t with joins := [], returned := false, held := none } else t }
  let g2 : Group := { g1 with
    records := g1.records.map fun r => { r with
      members := maskOf fun l => r.members.getLsbD l && !(threadAt g1 l).exited && (threadAt g1 l).joins.contains r.id } }
  settle { g2 with
    threads := g2.threads.map fun (t : Thread) => match topRecord g2 t with
      | some r => { t with returned := r.call && t.pc.toNat = r.target }
      | none => t }

/-- The clause at a word of a code section, with the lanes that stand there. -/
def clauseAt (code : List Word64) (pc : Nat) (lanes : BitVec 32) : Option Clause :=
  match code[pc]? with
  | some w => if isHeader w then some (clauseOf w pc lanes) else none
  | none => none

/-- The clause that POS of a stopped group counts in: the one it stopped in, else the one at the lowest PC of its
threads (R270). -/
def stoppedClause (code : List Word64) (g : Group) : Option Clause :=
  match g.ownClause with
  | some c => some c
  | none => (nextClause g).bind fun x => clauseAt code x.1 x.2

/-- The threads that issued the stopped clause, those that have exited apart; for a stop between clauses, those that
would issue next. -/
def stoppedLanes (g : Group) : BitVec 32 :=
  (match g.ownClause with | some c => c.lanes | none => ((nextClause g).map Prod.snd).getD 0) &&& activeMask g

/-- Whether POS lies beyond the clause at the PC of a stopped thread (R281). A PC that is no H word names no clause; the
fetch there is a stop of its own (R280). -/
def posBeyond (code : List Word64) (g : Group) : Bool :=
  (lanesOf (stoppedLanes g)).any fun l =>
    (clauseAt code (threadAt g l).pc.toNat 0).any fun c => c.len < getField g.ssw0 9 4

/-- The group made ready at its saved position (R15, R280): INH cleared, threads at the stopped clause's H word
resume at POS behind the flags of WSNAP, the rest start the clause at their PCs. -/
def resumeGroup (code : List Word64) (g : Group) : Group :=
  let pos := getField g.ssw0 9 4
  let wait : BitVec 12 := BitVec.ofNat 12 (getField g.ssw0 13 12)
  let g := rebuildJoins { g with ssw0 := setField g.ssw0 8 1 0, hold := .none }
  let g := { g with run := if allExited g then .ended else .running, resumeAt := none }
  match stoppedClause code g with
  | none => { g with ownClause := none }
  | some c =>
    let lanes := maskOf fun l => mayIssue g l && (threadAt g l).pc.toNat = c.h
    if lanes = 0 then { g with ownClause := none }
    else if pos = 0 then { g with ownClause := none, resumeAt := some (c.h, wait) }
    else { g with ownClause := none, hold := .resumeWait, resumeAt := some (c.h, wait),
                  clause := some { c with pos := pos, lanes := lanes, gathered := false } }

/-- Whether SSW0 or SSW1 holds a nonzero reserved bit (R270, R281). -/
def sswReserved (g : Group) : Bool := getField g.ssw0 48 16 ≠ 0 || getField g.ssw1 16 48 ≠ 0

/-- The return from a stop: the checks of R281, then the group resumes (R280). A reserved bit, or a position
beyond the clause, terminates the context. -/
def State.returnFromStop (s : State) (t g : Nat) : State :=
  match s.group? t g with
  | none => s
  | some gr =>
    let ctx := ((s.launchOf t).map Launch.ctx).getD 0
    let code := (s.codeOf (.group t g)).1
    if sswReserved gr || posBeyond code gr then s.terminate ctx t gr.ssw0
    else s.modGroup t g (resumeGroup code)

/-- The outcome of a step that ends in a state. -/
abbrev Out := Host.Outcome State Fault Refusal

end Sys2Proof.Machine
end

