-- ==== Sys2Proof/Machine/Issue.lean ====
section
/-!
DEFINITION. How a word issues: the order of checks of R44, the forms of the ALU layout, words of fixed and of
variable latency, and the words that a group gathers for (R169).
-/
namespace Sys2Proof.Machine

/-- Cause codes of R271. -/
def cIllegal : Nat := 0x01
def cPairbank : Nat := 0x02
def cRegbound : Nat := 0x03
def cMisalign : Nat := 0x04
def cXnp : Nat := 0x05
def cXperm : Nat := 0x06
def cObrange : Nat := 0x07
def cTileown : Nat := 0x08
def cGang : Nat := 0x09
def cConflict : Nat := 0x0A
def cSwtrap : Nat := 0x0B
def cBreak : Nat := 0x0C
def cRingerr : Nat := 0x0D
def cFifoerr : Nat := 0x0E
def cBankmode : Nat := 0x0F
def cEngine : Nat := 0x10
def cMergeovf : Nat := 0x13

/-! ### The order of checks (R44) -/

/-- What steps 2 to 4 of R44 judge of a word: its ILLEGAL details, the bank rule, and the lanes that break a
register bound. -/
structure WordCheck where
  details : List Nat
  bank : Bool
  bound : Nat → Bool

/-- The details common to every F word: role, unused guard bits, flag select, a needed flag, and the place of a
control transfer (R13, R16, R20, R43, R204). -/
def headDetails (g : Group) (h : Head) (roles : List Role) (varLat last : Bool) : List Nat :=
  (if roles.contains g.role then [] else [0x10]) ++
  (if h.g = 0 && (h.n ≠ 0 || h.pred ≠ 0) then [0x04] else []) ++
  (if h.fs = 3 || (h.fs ≠ 0 && (selectedFlag g h.fs).isNone) then [0x02] else []) ++
  (if varLat && h.fs = 0 then [0x0C] else []) ++
  (match g.clause with
   | some c => if last && c.pos ≠ c.len then [0x0E] else []
   | none => [])

/-- The detail of the hazard rule over the registers a word reads (R17). -/
def hazardDetails (g : Group) (reads : List RegName) : List Nat :=
  if reads.any (hazardSet g) then [0x0D] else []

/-- The guard predicate as a register read (R17, R20). -/
def guardReads (h : Head) : List RegName := if h.g = 1 then [.p h.pred.toNat] else []

/-- A group-uniform word takes no guard (R24). -/
def noGuard (h : Head) : List Nat := if h.g = 1 then [0x0F] else []

/-- The first fault of steps 2 to 4 of R44: cause, detail and mask. A fault of the whole word names every
issuing lane. -/
def firstFault (g : Group) (h : Head) (k : WordCheck) : Option (Nat × Nat × BitVec 32) :=
  match leastOf k.details with
  | some d => some (cIllegal, d, issuing g)
  | none =>
    if k.bank then some (cPairbank, 0, issuing g)
    else
      let bad := maskOf fun l => (guardMask g h).getLsbD l && k.bound l
      if bad = 0 then none else some (cRegbound, 0, bad)

/-- Whether the unit stands at a word that every thread it waits for has issued (R169). -/
def gatheredNow (g : Group) : Bool := (g.clause.map Clause.gathered).getD false

/-- A word judged under R44 and then carried out by `go`. A gathered word was judged when its threads issued it,
and no thread issues it again (R169). -/
def State.issueWord (s : State) (h : Head) (check : Group → WordCheck) (go : Group → Out) : Out :=
  match s.unitOf s.issuer with
  | none => .fault .noIssuer
  | some g =>
    if gatheredNow g then go g
    else match firstFault g h (check g) with
      | some (cause, detail, mask) => .next (s.fault s.issuer cause detail mask 0)
      | none => go g

/-- A word held at issue: nothing of it has happened (R16, R42). -/
def State.holdAt (s : State) (h : Hold) : State := s.modUnit s.issuer fun g => { g with hold := h }

/-- The power domain of a core (R431). -/
def domainOf (core : Nat) : Nat := 3 * (core / 48) + (if core / 8 % 6 < 3 then 0 else 1)

def State.countDomain (s : State) : State :=
  { s with domains := modAt s.domains (domainOf (s.coreOf s.issuer)) fun x => { x with retired := x.retired + 1 } }

/-- A word that has issued counts for its team and its domain (R285, R436). -/
def State.issued (s : State) : State :=
  match s.issuer with
  | .group t _ =>
    let s2 := s.modTeam t fun tm => { tm with issued := tm.issued + 1 }
    s2.countDomain
  | .handler _ => s.countDomain
  | .none => s

/-- A word that has issued: the group moves past it. `words` counts it and its parameter block. -/
def State.retire (s : State) (words : Nat) : State := (s.modUnit s.issuer (advance words)).issued

/-- A word of fixed latency that has issued: a flag it selects falls back to the old count (R16). It waits while
the increment would reach 32. -/
def State.fixed (s : State) (g : Group) (h : Head) (k : State) : Out :=
  if flagBlocked g (selectedFlag g h.fs) then .next (s.holdAt .flagFull) else .next k

/-! ### Variable-latency words (R16, R17, R106, R135) -/

/-- The destinations of a pending operation in its lanes. -/
def destsOf (ws : List RegWrite) : List (RegName × Option Nat) := ws.map fun w => (w.reg, w.lane)

/-- A pending operation with nothing in it yet. -/
def Op.blank (id : Nat) (i : Issuer) (k : OpKind) (flag : Option Nat) : Op :=
  { id := id, issuer := i, kind := k, flag := flag, dests := [], writes := [], fstat := [], mstat := 0,
    arrive := none, acquire := none, release := none, before := none, todo := [], data := [], trans := [], effect := .none }

/-- A variable-latency word issues: writes of older operations to its destinations are cancelled, its hazard bits
are set, its flag counts up, and the operation is pending (R16, R17, R106). -/
def State.launchOp (s : State) (names : List RegName) (o : Op) : State :=
  let s := (s.cancelWrites s.issuer names).modUnit s.issuer fun g =>
    let g := match o.flag with | some f => setHazards g names f | none => g
    match o.flag with | some f => flagUp g f | none => g
  { s with ops := s.ops ++ [o], nextId := s.nextId + 1 }

/-- A variable-latency word with no lane to act in: it completes at once, its hazard bits set (R16, R17). -/
def State.emptyOp (s : State) (names : List RegName) (flag : Option Nat) : State :=
  (s.cancelWrites s.issuer names).modUnit s.issuer fun g =>
    match flag with | some f => setHazards g names f | none => g

/-- A pending operation delivered: registers, sticky flags and status written, its flag counts down (R185,
R135). -/
def State.finishOp (s : State) (o : Op) : State :=
  let s := s.modUnit o.issuer fun g =>
    let g := o.writes.foldl applyWrite g
    let g := raiseFlags g o.fstat
    let g := { g with mstat := g.mstat ||| o.mstat }
    match o.flag with | some f => flagDown g f | none => g
  { s with ops := s.ops.filter fun p => p.id ≠ o.id }

/-- The pending operation of a subject, of some kinds. -/
def State.opOf (s : State) (kinds : List OpKind) : Option Op :=
  s.ops.find? fun o => o.id = s.subject && kinds.contains o.kind

/-! ### The ALU layout (R19, R25, R108) -/

/-- When a form reads its destination's old value. -/
inductive OldForm where
  | never | immediate | always
deriving DecidableEq, Repr

/-- How an opcode of the ALU layout uses its fields: the issuing roles, the kinds of its fields, its immediate,
its legal MOD values and, where it is variable-latency, the kind of its operation. -/
structure AluForm where
  roles : List Role
  dst : DstForm
  a : SrcForm
  b : SrcForm
  c : SrcForm
  imm : ImmForm
  needImm : Bool
  old : OldForm
  mods : Nat → Bool
  extra : List Nat
  varLat : Option OpKind

/-- What a lane's computation sees: its sources, the old destination, the immediate and MOD. -/
structure LaneIn where
  a : Word64
  b : Word64
  c : Word64
  old : Word64
  imm : BitVec 16
  mod : Nat
deriving DecidableEq, Repr

/-- What it yields: the value and the sticky flags. -/
structure LaneOut where
  value : Word64
  flags : BitVec 5
deriving DecidableEq, Repr

/-- A 32-bit result, and a result that raises no flag. -/
def out32 (x : Reg32) : LaneOut := ⟨x.zeroExtend 64, 0⟩
def out64 (x : Word64) : LaneOut := ⟨x, 0⟩
def outBool (b : Bool) : LaneOut := ⟨boolWord b, 0⟩

def srcWide : SrcForm → Bool | .wide => true | _ => false
def dstWide : DstForm → Bool | .wide => true | _ => false
def isImm (w : AluW) : Bool := w.opb = specImm

/-- Registers a source or destination covers: two for a pair. -/
def width (wide : Bool) : Nat := if wide then 2 else 1

/-- Whether a form reads its old destination. -/
def readsOld (f : AluForm) (w : AluW) : Bool :=
  match f.old with | .never => false | .immediate => isImm w | .always => true

/-- The specifiers a word reads, with their widths. -/
def aluSources (f : AluForm) (w : AluW) : List (Spec × Nat) :=
  (match f.a with | .none | .raw => [] | k => [(w.opa, width (srcWide k))]) ++
  (if isImm w then [] else match f.b with | .none | .raw => [] | k => [(w.opb, width (srcWide k))]) ++
  (if isImm w then [] else match f.c with | .none | .raw => [] | k => [(w.opc, width (srcWide k))]) ++
  (if readsOld f w then [(w.dst, width (dstWide f.dst))] else [])

/-- The ILLEGAL details of the fields of an ALU word, the rules of the group apart (R21-R26, R62). -/
def aluFieldDetails (f : AluForm) (w : AluW) : List Nat :=
  dstDetails f.dst w.dst ++ srcDetails f.a w.opa ++ f.extra ++
  (if isImm w then (if f.imm = .none then [0x12] else [])
   else srcDetails f.b w.opb ++ srcDetails f.c w.opc ++ (if f.mods w.mod.toNat then [] else [0x12]) ++
     (if f.needImm then [0x12] else []))

/-- Whether an ALU word is group-uniform (R24, R132). -/
def aluUniform (f : AluForm) (w : AluW) : Bool :=
  (match f.dst with | .reg | .wide => true | _ => false) && isKReg w.dst

/-- The ILLEGAL details of uniform execution (R24), and of the control processor's subset (R43, R133). -/
def aluUniformDetails (g : Group) (f : AluForm) (w : AluW) : List Nat :=
  let all := aluSources f w
  if g.role = .control then
    (if all.any (fun s => isVRel s.1) || (match f.dst with | .xreg => false | _ => isVRel w.dst) then [0x10] else [])
  else if aluUniform f w then
    (if all.any fun s => perThread s.1 then [0x0F] else []) ++ noGuard w.head
  else []

/-- The registers an ALU word reads in the issuing lanes. -/
def aluReads (g : Group) (f : AluForm) (w : AluW) : List RegName :=
  guardReads w.head ++
  (lanesOf (issuing g)).flatMap fun l => (aluSources f w).flatMap fun s => regNames g l s.1 s.2

/-- The registers an ALU word writes in the issuing lanes. -/
def aluWrites (g : Group) (f : AluForm) (w : AluW) : List RegName :=
  match f.dst with
  | .none | .xreg => []
  | d => (lanesOf (issuing g)).flatMap fun l => regNames g l w.dst (width (dstWide d))

/-- Whether a lane of an ALU word breaks a register bound (R22, R62). -/
def aluBound (g : Group) (f : AluForm) (w : AluW) (l : Nat) : Bool :=
  (aluSources f w).any (fun s => boundFails g l s.2 s.2 s.1) ||
  (match f.dst with
   | .none | .xreg => false
   | d => boundFails g l (width (dstWide d)) (width (dstWide d)) w.dst)

/-- All that R44 judges of an ALU word. -/
def aluCheck (f : AluForm) (w : AluW) (g : Group) : WordCheck :=
  { details := headDetails g w.head f.roles f.varLat.isSome false ++ aluFieldDetails f w ++
      aluUniformDetails g f w ++ hazardDetails g (aluReads g f w)
    bank := false
    bound := aluBound g f w }

/-- The sources of a lane (R105, R108: all read before any write). -/
def laneIn (g : Group) (f : AluForm) (w : AluW) (l : Nat) : LaneIn :=
  let imm : BitVec 16 := w.opc ++ w.mod
  let old := if readsOld f w then readSrc g l (dstWide f.dst) w.dst else 0
  { a := match f.a with | .none | .raw => 0 | k => readSrc g l (srcWide k) w.opa
    b := if isImm w then immValue f.imm imm else match f.b with | .none | .raw => 0 | k => readSrc g l (srcWide k) w.opb
    c := if isImm w then old else match f.c with | .none | .raw => 0 | k => readSrc g l (srcWide k) w.opc
    old := old
    imm := imm
    mod := if isImm w then 0 else w.mod.toNat }

/-- The results of an ALU word: register writes, and the sticky flags of each lane. A group-uniform word runs
once and raises its flags in every issuing thread (R24, R69). -/
def aluResults (g : Group) (f : AluForm) (w : AluW) (sem : LaneIn → LaneOut) :
    List RegWrite × List (Nat × BitVec 5) :=
  if aluUniform f w then
    match lanesOf (guardMask g w.head) with
    | [] => ([], [])
    | l :: _ =>
      let r := sem (laneIn g f w l)
      (dstWrites g l (dstWide f.dst) w.dst r.value, (lanesOf (issuing g)).map fun m => (m, r.flags))
  else
    let rs := (lanesOf (guardMask g w.head)).map fun l => (l, sem (laneIn g f w l))
    (rs.flatMap fun r => dstWrites g r.1 (dstWide f.dst) w.dst r.2.value, rs.map fun r => (r.1, r.2.flags))

/-- An ALU word carried out: at once at fixed latency, or as a pending operation. -/
def aluGo (f : AluForm) (w : AluW) (sem : LaneIn → LaneOut) (s : State) (g : Group) : Out :=
  let names := aluWrites g f w
  let r := aluResults g f w sem
  if flagBlocked g (selectedFlag g w.head.fs) then .next (s.holdAt .flagFull)
  else match f.varLat with
    | none =>
      .next (((s.writeNow s.issuer names r.1).modUnit s.issuer fun g => raiseFlags g r.2).retire 1)
    | some k =>
      let flag := selectedFlag g w.head.fs
      if guardMask g w.head = 0 then .next ((s.emptyOp names flag).retire 1)
      else
        let o := { Op.blank s.nextId s.issuer k flag with dests := destsOf r.1, writes := r.1, fstat := r.2 }
        .next ((s.launchOp names o).retire 1)

/-- An ALU word. -/
def runAlu (f : AluForm) (w : AluW) (sem : LaneIn → LaneOut) (s : State) : Out :=
  s.issueWord w.head (aluCheck f w) (aluGo f w sem s)

/-! ### Words a group gathers for (R169) -/

/-- The active cohort members that a mask names (R168). -/
def namedLanes (g : Group) (mask : BitVec 32) : BitVec 32 := mask &&& activeMask g

/-- Whether a thread is held at a word. -/
def heldAt (g : Group) (c : Clause) (l : Nat) : Bool :=
  match (threadAt g l).held with
  | some h => h.clause.h = c.h && h.clause.pos = c.pos && !h.stale
  | none => false

/-- The threads held at a word. -/
def heldLanes (g : Group) (c : Clause) : BitVec 32 := maskOf fun l => (lanesOf (activeMask g)).contains l && heldAt g c l

/-- Whether every named thread stands held at a word. -/
def gatheredAll (g : Group) (c : Clause) (mask : BitVec 32) : Bool :=
  (lanesOf (namedLanes g mask)).all (heldAt g c)

/-- The issuing threads that a word names held at it with the sources they read (R169). -/
def holdThreads (g : Group) (c : Clause) (mask : BitVec 32) (present : BitVec 32) (src : Nat → Reg32 × Reg32) : Group :=
  { g with threads := g.threads.mapIdx fun l t =>
      if c.lanes.getLsbD l && (namedLanes g mask).getLsbD l then
        { t with held := some ⟨c, mask, present.getLsbD l, (src l).1, (src l).2, false⟩ }
      else t }

/-- The held threads of a word released into its clause. -/
def releaseThreads (g : Group) (c : Clause) : Group :=
  { g with threads := g.threads.mapIdx fun _ t =>
      match t.held with
      | some h => if h.clause.h = c.h && h.clause.pos = c.pos then { t with held := none } else t
      | none => t }

/-- A word that executes once every thread it names has issued it (R169). `perform` sees the group with the
clause marked gathered and its lanes the held threads and any unnamed ones beside them. DESIGN CHOICE (assumption log,
entry 51): where the mask register differs between two issues of the word, the latest issue's mask counts, and after an
exit the mask that the lowest held lane captured. -/
def State.gather (s : State) (g : Group) (mask present : BitVec 32) (src : Nat → Reg32 × Reg32)
    (perform : State → Group → Clause → Out) : Out :=
  match g.clause with
  | none => .fault .noIssuer
  | some c =>
    if c.gathered then perform s g c
    else
      let g1 := holdThreads g c mask present src
      if namedLanes g mask &&& c.lanes = 0 then .next (s.retire 1)
      else if gatheredAll g1 c mask then
        let c2 := { c with gathered := true, lanes := c.lanes ||| heldLanes g1 c }
        let g2 := { g1 with clause := some c2 }
        perform (s.modUnit s.issuer fun _ => g2) g2 c2
      else
        let rest := c.lanes &&& ~~~ namedLanes g mask
        if rest = 0 then
          .next ((s.modUnit s.issuer fun _ => { g1 with clause := none, hold := .cross }))
        else
          .next ((s.modUnit s.issuer fun _ => { g1 with clause := some { c with lanes := rest } }).retire 1)

/-- A gathered word that has executed: its threads are released and go on with the next word. -/
def State.release (s : State) (c : Clause) : State :=
  (s.modUnit s.issuer fun g => releaseThreads g c).retire 1

end Sys2Proof.Machine
end

