-- ==== Sys2Proof/Machine/Memory.lean ====
section
/-!
DEFINITION. Physical memory, home slices and their tags (R333-R341), translation (R347, R452), permission checks
(R187), undo records (R426), and the views and write sets of ordered launches (R419-R421).
-/
namespace Sys2Proof.Machine

/-- Whether two extents share a byte. -/
def overlap (a n b m : Nat) : Bool := a < b + m && b < a + n

/-! ### Homes (R333, R405, R408) -/

/-- Home die, home slice and set of a line (R333). -/
def homeDie (pa : Nat) : Nat := canonPa pa / dieBytes

/-- Whether a physical address is homed on a die that is held in reset, whose slices serve nothing (R405). -/
def State.homeDown (s : State) (pa : Nat) : Bool :=
  pa < hostBase && (s.dies[homeDie pa]?).any fun d => d.state = .inReset
def homeSlice (pa : Nat) : Nat :=
  let a := canonPa pa
  (List.range 8).foldl (fun h i => Nat.xor h (field a (7 + 5 * i) 5)) (field a 47 1)
def setOf (pa : Nat) : Nat := field (canonPa pa) 7 11
def lineOf (pa : Nat) : Nat := canonPa pa / 128

/-- The key slot of a page of a context (R408): its context and its key index. -/
def keySlot (ctx : Nat) (leaf : Word64) : Nat := 1 + 8 * ctx + getField leaf 10 3

/-- A byte of memory as the controller decrypts it under a key (R408): memory written under another key yields a
byte the manual does not state. Key 0 stands for the device's own accesses. -/
def State.memByte (s : State) (key a : Nat) : Byte :=
  let k := Cells.get 0 s.lineKeys (a / 128)
  if key = 0 || k = 0 || k = key then Cells.get emptyByte s.mem a else Config.wrongKeyByte (1024 * key + k) a

/-! ### Home slices (R334-R341) -/

def State.line? (s : State) (l : Nat) : Option Line := s.lines.find? fun x => x.addr = l

/-- The byte of a line at its place in slice order: written or filled, else what its pending fill brings, else memory
(R339); a line of an ended context no longer yields its old values (R408). -/
def State.lineByte (s : State) (key : Nat) (l : Line) (i : Nat) : Byte :=
  if l.key = endedKey && key ≠ 0 && key ≠ endedKey then Config.wrongKeyByte (1024 * key + endedKey) (128 * l.addr + i)
  else if l.valid.getLsbD i then Cells.get 0 l.data i
  else if l.filling then l.fillData.getD i 0
  else s.memByte key (128 * l.addr + i)

/-- The byte a home slice holds or would fill (R339). `a` is a canonical physical address. -/
def State.homeByte (s : State) (key a : Nat) : Byte :=
  match s.line? (a / 128) with
  | some l => s.lineByte key l (a % 128)
  | none => s.memByte key a
def State.homeBytes (s : State) (key pa n : Nat) : List Byte :=
  (List.range n).map fun i => s.homeByte key (canonPa (pa + i))

/-- Whether a read of some bytes needs a byte that only a fill can supply (R339). -/
def State.needsFill (s : State) (pa n : Nat) : Bool :=
  (List.range n).any fun i =>
    let a := canonPa (pa + i)
    match s.line? (a / 128) with
    | some l => !l.valid.getLsbD (a % 128)
    | none => true

/-- Whether the base-delta form of a full line takes at most 64 bytes (R335). -/
def compressible (bs : List Byte) : Bool :=
  let es := (List.range 16).map fun i => natOfBytes ((bs.drop (8 * i)).take 8)
  let nz := es.filter (· ≠ 0)
  let base := nz.headD 0
  let deltas := nz.map fun e => (BitVec.ofNat 64 e - BitVec.ofNat 64 base).toInt
  let fits (d : Nat) : Bool := deltas.all fun x => -(2 ^ (8 * d - 1)) ≤ x && x < 2 ^ (8 * d - 1)
  let width : Nat := if fits 1 then 1 else if fits 2 then 2 else if fits 4 then 4 else 100
  10 + width * nz.length ≤ 64

/-- The tag state a line takes from the bytes it holds (R334-R336). -/
def tagOf (l : Line) : TagState :=
  if l.valid = BitVec.allOnes 128 then
    if l.data = [] then .zero else if compressible (bytesAt l.data 0 128) then .half else .full
  else .full

/-- A line with no byte yet. -/
def Line.fresh (a key : Nat) (classA : Bool) : Line :=
  { addr := a, state := .full, count := 0, valid := 0, dirty := 0, data := [], filling := false, fillData := [],
    classA := classA, key := key }

/-- A line written back whole, where it differs from memory: the bytes not written are filled first (R337, R339, R408). -/
def State.writeBack (s : State) (l : Line) : State :=
  if l.dirty = 0 then s
  else
    { s with mem := putBytes s.mem (128 * l.addr) ((List.range 128).map (s.lineByte l.key l))
             lineKeys := Cells.put 0 s.lineKeys l.addr l.key }

/-- Whether two lines share a slice, and a set of it (R333, R334). -/
def sameSlice (a b : Nat) : Bool :=
  homeDie (128 * a) = homeDie (128 * b) && homeSlice (128 * a) = homeSlice (128 * b)
def sameSet (a b : Nat) : Bool := sameSlice a b && setOf (128 * a) = setOf (128 * b)

/-- The lines of a slice's set, oldest first. -/
def State.setLines (s : State) (a : Nat) : List Line := s.lines.filter fun l => sameSet l.addr a

/-- A line evicted, written back first (R337). -/
def State.evict (s : State) (l : Line) : State :=
  { s.writeBack l with lines := s.lines.filter fun x => x.addr ≠ l.addr }

/-- The line that goes, the oldest one without a fill pending if there is one. -/
def victim (ls : List Line) : Option Line :=
  match ls.find? fun l => !l.filling with
  | some l => some l
  | none => ls.head?

/-- A way freed for a line that is not resident: a set has 16, of which lines of class B pages take at most 12 (R334,
R411). -/
def State.makeRoom (s : State) (a : Nat) (classA : Bool) : State :=
  let set := s.setLines a
  let classB := set.filter fun l => !l.classA
  let among := if !classA && 12 ≤ classB.length then classB else if 16 ≤ set.length then set else []
  if (s.line? a).isSome then s
  else match victim among with
    | none => s
    | some l => s.evict l

/-- The halves of data entries that a tag takes, and those of a slice (R334). -/
def entryHalves : TagState → Nat | .full => 2 | .half => 1 | .zero | .shadow => 0
def State.halvesUsed (s : State) (a : Nat) : Nat :=
  ((s.lines.filter fun l => sameSlice l.addr a).map fun l => entryHalves l.state).sum

/-- A slice kept within its 16,384 data entries: while a line needs more, the oldest other line that holds one goes; `n`
bounds how many (R334). -/
def State.fitEntries (s : State) (a : Nat) : Nat → State
  | 0 => s
  | n + 1 =>
    if s.halvesUsed a ≤ 32768 then s
    else match victim (s.lines.filter fun l => sameSlice l.addr a && l.addr ≠ a && entryHalves l.state ≠ 0) with
      | none => s
      | some l => (s.evict l).fitEntries a n

/-- The tags of a set that shadow lines take: spare ones only, and the rest stand in the merge log (R334, R420). -/
def State.shadowTags (s : State) (a : Nat) : Nat :=
  min (16 - (s.setLines a).length)
    (s.teams.map fun t => (t.shadows.filter fun e => sameSet e.1 a).length).sum

/-- The state of a line's tags in its slice (R334). -/
def State.tagStates (s : State) (a : Nat) : List TagState :=
  ((s.setLines a).map Line.state) ++ List.replicate (s.shadowTags a) .shadow

/-- A line of a slice changed, allocated first where it is not resident (R341: its count starts at 0). -/
def State.modLine (s : State) (a key : Nat) (classA : Bool) (f : Line → Line) : State :=
  let s0 : State := match s.line? a with
    | some l => if l.key = endedKey && key ≠ endedKey then s.evict l else s
    | none => s
  let s1 : State := match s0.line? a with
    | some _ => s0
    | none => let s := s0.makeRoom a classA
              { s with lines := s.lines ++ [Line.fresh a key classA] }
  State.fitEntries { s1 with lines := s1.lines.map fun x => if x.addr = a then f x else x } a 2

/-- A fill started for a line, unless one is pending (R339). -/
def State.fillLine (s : State) (ctx pa : Nat) (leaf : Word64) : State :=
  if (s.line? (lineOf pa)).any Line.filling then s
  else
    let key := keySlot ctx leaf
    let bytes := (List.range 128).map fun i => s.memByte key (128 * lineOf pa + i)
    s.modLine (lineOf pa) key (leaf.getLsbD 6) fun l => { l with filling := true, fillData := bytes }

/-- One write request performed on a line: its bytes, the written mask, and the write count (R339, R341). -/
def lineWrite (off : Nat) (bs : List Byte) (key adds : Nat) (l : Line) : Line :=
  let mask := (List.range bs.length).foldl (fun (m : BitVec 128) i => m ||| ((1 : BitVec 128) <<< (off + i))) 0
  let d := (List.range bs.length).foldl (fun c i => Cells.put 0 c (off + i) (bs.getD i 0)) l.data
  let l := { l with data := d, valid := l.valid ||| mask, dirty := l.dirty ||| mask, key := key,
                    count := l.count + BitVec.ofNat 16 adds }
  { l with state := tagOf l }

/-- Whether some die's undo region is at least three quarters full: the close of every open interval is then due (R425). -/
def State.undoFilled (s : State) : Bool :=
  s.dies.any fun d => d.undoLog ≠ [] && 3 * (d.undo.toNat * 2 ^ 20) ≤ 4 * (144 * d.undoLog.length)
def State.dueByUndo (s : State) : State :=
  if s.undoFilled then { s with contexts := s.contexts.map fun c => if c.created then { c with closeDue := true } else c } else s

/-- The undo record that a context's first write to a line in its interval leaves (R426); a full region makes the
interval unprotected. -/
def State.takeUndo (s : State) (ctx line : Nat) : State :=
  let d := 128 * line / dieBytes
  match s.dies[d]?, s.contexts[ctx]? with
  | some die, some c =>
    if die.undoLog.any fun r => r.line = line && r.ctx = ctx && r.interval = c.interval then s
    else if die.undo.toNat * 2 ^ 20 < 144 * (die.undoLog.length + 1) then
      (s.modContext ctx fun c => { c with unprotected := true }).dueByUndo
    else
      let key := ((s.line? line).map Line.key).getD (Cells.get 0 s.lineKeys line)
      let r : UndoRec := ⟨line, ctx, c.interval, s.homeBytes 0 (128 * line) 128, key⟩
      (s.modDie d fun x => { x with undoLog := x.undoLog ++ [r] }).dueByUndo
  | _, _ => s

/-- Bytes written at their home slice as one request within one line; `adds` is what R341 counts. -/
def State.sliceWrite (s : State) (ctx key pa : Nat) (classA undo : Bool) (adds : Nat) (bs : List Byte) : State :=
  if bs = [] then s
  else
    let a := canonPa pa
    let s := if undo then s.takeUndo ctx (a / 128) else s
    s.modLine (a / 128) key classA (lineWrite (a % 128) bs key adds)

/-- Bytes written beyond the endpoint (R458), and read there. -/
def State.busOf (s : State) (pa : Nat) : Nat := pa - hostBase + s.regs.obbase.toNat
def State.hostWrite (s : State) (pa : Nat) (bs : List Byte) : State :=
  { s with hostMem := putBytes s.hostMem (s.busOf pa) bs }
def State.hostRead (s : State) (pa n : Nat) : List Byte := bytesAt s.hostMem (s.busOf pa) n

/-! ### Translation (R347, R452) -/

/-- What a walk finds. -/
inductive Trans where
  | ok (pa : Nat) (leaf : Word64) (page size : Nat)
  | absent (level : Nat)
  | malformed
deriving DecidableEq, Repr

/-- Index width and low bit of a level, and the size a leaf there maps (R452). -/
def levelLo (l : Nat) : Nat := match l with | 1 => 39 | 2 => 30 | 3 => 21 | _ => 16
def levelLen (l : Nat) : Nat := if l = 4 then 5 else 9

/-- Whether a leaf entry of a level is malformed (R410, R452). -/
def leafBad (e : Word64) (level : Nat) : Bool :=
  let addr := getField e 16 32 * 2 ^ 16
  getField e 13 3 ≠ 0 || getField e 48 16 ≠ 0 || getField e 8 2 = 3 || addr % 2 ^ levelLo level ≠ 0 ||
  (e.getLsbD 5 && !inDevice addr) || (hostBase ≤ addr && getField e 7 3 ≠ 0)

/-- Whether a non-leaf entry of a level is malformed. -/
def nextBad (e : Word64) (level : Nat) : Bool :=
  getField e 1 3 ≠ 0 || getField e 5 3 ≠ 0 || getField e 48 16 ≠ 0 || (level < 3 && getField e 8 4 ≠ 0)

/-- The walk from a table of a level (R347); `n` bounds the levels left. -/
def State.walk (s : State) : Nat → Nat → Nat → Nat → Trans
  | 0, _, _, _ => .malformed
  | n + 1, level, table, va =>
    if !inDevice table then .malformed
    else
      let e : Word64 := BitVec.ofNat 64 (natOfBytes (s.homeBytes 0 (table + 8 * field va (levelLo level) (levelLen level)) 8))
      if !e.getLsbD 0 then .absent level
      else if e.getLsbD 4 then
        if level = 1 || leafBad e level then .malformed
        else
          let size := 2 ^ levelLo level
          .ok (getField e 16 32 * 2 ^ 16 + va % size) e (va / size * size) size
      else if level = 4 || nextBad e level then .malformed
      else s.walk n (level + 1) (getField e 8 40 * 256) va

/-- A translation of a context on a die: a cached entry, or a walk (R347, R453). -/
def State.translate (s : State) (die ctx va : Nat) : Trans :=
  match (s.dies[die]?).bind fun d => d.tlb.find? fun e =>
      e.bank = field va 16 2 && e.ctx = ctx && e.page ≤ va && va < e.page + e.size with
  | some e => .ok (getField e.leaf 16 32 * 2 ^ 16 + va % e.size) e.leaf e.page e.size
  | none => s.walk 4 1 ((s.contexts[ctx]?).map Context.root |>.getD 0) va

/-- A translation entered in a bank of a die's TLB, which keeps 4096 entries in each of its four banks (R342, R347). -/
def State.cacheEntry (s : State) (die bank ctx page size : Nat) (leaf : Word64) : State :=
  s.modDie die fun d =>
    if d.tlb.any fun e => e.bank = bank && e.ctx = ctx && e.page = page then d
    else
      let mine := (d.tlb.filter fun e => e.bank = bank).take 4095
      { d with tlb := ⟨bank, ctx, page, size, leaf⟩ :: mine ++ d.tlb.filter fun e => e.bank ≠ bank }

/-- Attributes of a leaf. -/
def leafOrd (e : Word64) : Bool := e.getLsbD 5
def leafClassA (e : Word64) : Bool := e.getLsbD 6

/-- What an access needs of a page (R187): read, write, execute, and an atomic operation if any. -/
structure Need where
  r : Bool
  w : Bool
  x : Bool
  aop : Option Nat
deriving DecidableEq, Repr

def needR : Need := ⟨true, false, false, none⟩
def needW : Need := ⟨false, true, false, none⟩
def needRW : Need := ⟨true, true, false, none⟩
def needX : Need := ⟨false, false, true, none⟩

/-- Whether a page obeys its home attribute (R409, R410). -/
def homeOk (pa : Nat) (leaf : Word64) : Bool :=
  if hostBase ≤ pa then true
  else if leaf.getLsbD 7 then windowBase ≤ pa
  else getField leaf 8 2 * dieBytes ≤ pa && pa < (getField leaf 8 2 + 1) * dieBytes

/-- AtomicOps that host and peer space carries (R458). -/
def hostAtomic (aop : Nat) : Bool := aop = 0 || aop = 8 || aop = 9

/-- Steps 3 and 4 of R187 for one address: the step, cause and detail of its failure, or its translation. -/
def State.access (s : State) (die ctx : Nat) (need : Need) (va : Nat) : Except (Nat × Nat × Nat) (Nat × Word64) :=
  match s.translate die ctx va with
  | .absent l => .error (3, cXnp, l)
  | .malformed => .error (4, cXperm, 0x09)
  | .ok pa leaf _ _ =>
    if !homeOk pa leaf then .error (4, cXperm, 0x08)
    else if need.r && !leaf.getLsbD 1 then .error (4, cXperm, 0x01)
    else if need.w && !leaf.getLsbD 2 then .error (4, cXperm, 0x02)
    else if need.x && !leaf.getLsbD 3 then .error (4, cXperm, 0x07)
    else match need.aop with
      | some a => if hostBase ≤ pa && !hostAtomic a then .error (4, cXperm, 0x0A) else .ok (pa, leaf)
      | none => .ok (pa, leaf)

/-- One address of an extent per 64 KiB page it touches. -/
def pagesOf (va n : Nat) : List Nat :=
  if n = 0 then []
  else
    let first := va / 65536
    let last := (va + n - 1) / 65536
    (List.range (last - first + 1)).map fun i => if i = 0 then va else (first + i) * 65536

/-- Stands for the team of a request that belongs to none. -/
def noTeam : Nat := 2 ^ 64

/-- The place of a failure among those of one step: the permission details of XPERM in the order of R187, every other
detail by its number (R230, R460). -/
def detailRank (cause detail : Nat) : Nat :=
  if cause = cXperm then (match detail with | 0x09 => 0 | 0x08 => 1 | 0x0A => 10 | d => 2 + d)
  else detail

/-- The failure recorded of some verdicts: the least step, and at one step the detail that R187 and R460 put first. -/
def worstVerdict (vs : List (Option (Nat × Nat × Nat))) : Option (Nat × Nat × Nat) :=
  vs.foldl (fun best v => match best, v with
    | none, v => v
    | some b, some c =>
      if c.1 < b.1 || (c.1 = b.1 && detailRank c.2.1 c.2.2 < detailRank b.2.1 b.2.2) then some c else some b
    | some b, none => some b) none

/-- Steps 3 and 4 of R187 over an extent. -/
def State.extentVerdict (s : State) (die ctx : Nat) (need : Need) (va n : Nat) : Option (Nat × Nat × Nat) :=
  worstVerdict ((pagesOf va n).map fun a => match s.access die ctx need a with
    | .error e => some e
    | .ok _ => none)

/-- Translations of an access that passed its checks, entered in the die's TLB. -/
def State.cacheTrans (s : State) (die ctx : Nat) (vas : List Nat) : State :=
  vas.foldl (fun s va => match s.translate die ctx va with
    | .ok _ leaf page size => s.cacheEntry die (field va 16 2) ctx page size leaf
    | _ => s) s

/-- The lanes that fail at the first failing step, with the cause and detail of the lowest (R44, R187). -/
def judge (lanes : List Nat) (verdict : Nat → Option (Nat × Nat × Nat)) : Option (Nat × Nat × BitVec 32 × Nat) :=
  match leastOf (lanes.filterMap fun l => (verdict l).map Prod.fst) with
  | none => none
  | some step =>
    let bad := lanes.filter fun l => match verdict l with | some v => v.1 = step | none => false
    match bad with
    | [] => none
    | l :: _ => match verdict l with
      | some v => some (v.2.1, v.2.2, maskOf bad.contains, l)
      | none => none

/-! ### Views of ordered launches (R419, R420) -/

/-- A byte of a task's view of an ORD page: its write set, then its base, then memory (R419). -/
def State.viewByte (s : State) (team key a : Nat) : Byte :=
  match s.teams[team]? with
  | none => s.homeByte key a
  | some t => match t.writeSet.find? fun e => e.1 = a with
    | some e => e.2.value
    | none => match t.base.find? fun e => e.1 = a with
      | some e => e.2.value
      | none => s.homeByte key a

/-- Whether a task's own set or its base supplies a byte of its view (R419). -/
def State.inView (s : State) (team a : Nat) : Bool :=
  (s.teams[team]?).any fun t => (t.writeSet.any fun e => e.1 = a) || t.base.any fun e => e.1 = a

/-- A byte entered in a write set; the table stays sorted, each byte listed once. -/
def setPut (c : Cells SetByte) (a : Nat) (b : SetByte) : Cells SetByte :=
  match c with
  | [] => [(a, b)]
  | (k, v) :: r => if a < k then (a, b) :: (k, v) :: r else if a = k then (a, b) :: r else (k, v) :: setPut r a b

/-- Bytes of one request entered in a task's write set, its shadow line's count moved on (R341, R420). -/
def State.setWrite (s : State) (team va pa adds : Nat) (bs : List Byte) : State :=
  let line := lineOf pa
  s.modTeam team fun t =>
    { t with shadows := Cells.put 0 t.shadows line (Cells.get 0 t.shadows line + adds)
             writeSet := (List.range bs.length).foldl (fun c i =>
        setPut c (canonPa (pa + i)) ⟨bs.getD i 0, t.spawns, va + i⟩) t.writeSet }

/-- Whether a merge log has room for some more bytes (R421). -/
def State.logUsed (s : State) (die : Nat) : Nat := (s.teams.map fun t => t.logged.getD die 0 + t.loggedHeld.getD die 0).sum
def State.logRoom (s : State) (pa n : Nat) : Bool := s.logUsed (homeDie pa) + n ≤ s.regs.mlog.toNat * 2 ^ 20

/-- Log space reserved at issue for a task's set, or for contributions that it holds (R421). -/
def State.reserveLog (s : State) (held : Bool) (team pa n : Nat) : State :=
  s.modTeam team fun t =>
    if held then { t with loggedHeld := modAt t.loggedHeld (homeDie pa) (· + n) }
    else { t with logged := modAt t.logged (homeDie pa) (· + n) }

/-- Whether an access goes to a task's view: an ordered launch and an ORD page. -/
def State.toView (s : State) (team : Nat) (leaf : Word64) : Bool :=
  leafOrd leaf && ((s.launchOf team).map Launch.ordered).getD false

/-! ### Reads and writes of an agent at the home slices -/

/-- Up to one page of bytes read at home for a team (R375: never from an L1). -/
def State.readHome (s : State) (team ctx pa : Nat) (leaf : Word64) (n : Nat) : List Byte :=
  if hostBase ≤ pa then s.hostRead pa n
  else if s.toView team leaf then (List.range n).map fun i => s.viewByte team (keySlot ctx leaf) (canonPa (pa + i))
  else s.homeBytes (keySlot ctx leaf) pa n

/-- Bytes of one request written at home for a team; `adds` counts for the sequence tag (R341). -/
def State.writeHome (s : State) (team ctx va pa : Nat) (leaf : Word64) (adds : Nat) (bs : List Byte) : State :=
  if hostBase ≤ pa then s.hostWrite pa bs
  else if s.toView team leaf then s.setWrite team va pa adds bs
  else s.sliceWrite ctx (keySlot ctx leaf) pa (leafClassA leaf) true adds bs

/-- The 32-byte sectors of an extent: address and bytes (R372). -/
def sectors (va n : Nat) : List (Nat × Nat) :=
  (List.range ((n + 31) / 32 + 1)).filterMap fun i =>
    let lo := if i = 0 then va else (va / 32 + i) * 32
    let hi := min ((va / 32 + i + 1) * 32) (va + n)
    if lo < hi then some (lo, hi - lo) else none

/-- Transfers as moves of one sector each (R372). -/
def fillMoves (va pad n : Nat) : List Move := (sectors va n).map fun p => .padFill p.1 (pad + (p.1 - va)) p.2
def storeMoves (rows : List (Nat × List Byte)) : List Move :=
  rows.flatMap fun r => (sectors r.1 r.2.length).map fun p => .store p.1 ((r.2.drop (p.1 - r.1)).take p.2)
def padMoves (rows : List (Nat × List Byte)) : List Move :=
  rows.flatMap fun r => (sectors r.1 r.2.length).map fun p => .padWrite p.1 ((r.2.drop (p.1 - r.1)).take p.2)
def bufMoves (pad : Bool) (src dst n : Nat) : List Move :=
  (sectors src n).map fun p => .bufFill pad p.1 (dst + (p.1 - src)) p.2
def imageMoves (tile va : Nat) : List Move := (List.range 32).map fun i => .tileFill tile va i

/-- Virtual bytes read at home sector by sector under some translations (R372); an unmapped piece reads as zeros, which
no checked access meets. -/
def State.readBy (s : State) (tr : Nat → Trans) (team ctx va n : Nat) : List Byte :=
  (sectors va n).flatMap fun p => match tr p.1 with
    | .ok pa leaf _ _ => s.readHome team ctx pa leaf p.2
    | _ => List.replicate p.2 0
def State.readVa (s : State) (team die ctx va n : Nat) : List Byte := s.readBy (s.translate die ctx) team ctx va n

/-- Virtual bytes written at home in 32-byte sector requests under some translations (R372). -/
def State.writeBy (s : State) (tr : Nat → Trans) (team ctx va : Nat) (bs : List Byte) : State :=
  (sectors va bs.length).foldl (fun s p => match tr p.1 with
    | .ok pa leaf _ _ => s.writeHome team ctx p.1 pa leaf 1 ((bs.drop (p.1 - va)).take p.2)
    | _ => s) s
def State.writeVa (s : State) (team die ctx va : Nat) (bs : List Byte) : State :=
  s.writeBy (s.translate die ctx) team ctx va bs

/-- The translations of some addresses as they stand, and a translation among some kept ones (R312). -/
def State.transFor (s : State) (die ctx : Nat) (vas : List Nat) : List TlbEntry :=
  vas.foldl (fun es va =>
    if es.any fun e => e.page ≤ va && va < e.page + e.size then es
    else match s.translate die ctx va with
      | .ok _ leaf page size => es ++ [⟨0, ctx, page, size, leaf⟩]
      | _ => es) []
def State.transBy (s : State) (es : List TlbEntry) (die ctx va : Nat) : Trans :=
  match es.find? fun e => e.page ≤ va && va < e.page + e.size with
  | some e => .ok (getField e.leaf 16 32 * 2 ^ 16 + va % e.size) e.leaf e.page e.size
  | none => s.translate die ctx va

/-! ### The L1 (R214, R375) -/

/-- The ways of a core's L1: the banks that are in CACHE mode. -/
def State.l1Ways (s : State) (core : Nat) : Nat :=
  16 - ((s.teams.filter fun t => t.core = core && t.residency ≠ .switchedOut).map fun t =>
    (t.banks.filter fun b => b.mode ≠ .cache).length).sum

def State.l1Drop (s : State) (which : L1Sector → Bool) : State := { s with l1 := s.l1.filter fun x => !which x }
def State.l1DropCore (s : State) (core : Nat) : State := s.l1Drop fun x => x.core = core
def State.l1DropSectors (s : State) (core pa n : Nat) : State :=
  s.l1Drop fun x => x.core = core && canonPa pa / 32 ≤ x.sector && x.sector ≤ (canonPa pa + n - 1) / 32

/-- A sector of home bytes copied into a core's L1 (R214). -/
def State.l1Fill (s : State) (core key pa : Nat) : State :=
  let sec := canonPa pa / 32
  if s.l1Ways core = 0 then s
  else
    let s1 := s.l1Drop fun x => x.core = core && x.sector = sec
    { s1 with l1 := s1.l1 ++ [⟨core, sec, (List.range 32).map fun i => s.homeByte key (32 * sec + i)⟩] }

/-- The sectors that an L1 keeps, newest first among some: lines of as many ways as its core has in each of 256 sets
(R214). -/
def l1Keep (ways : Nat → Nat) : List L1Sector → List L1Sector → List L1Sector
  | [], kept => kept
  | x :: r, kept =>
    let line (y : L1Sector) : Nat := y.sector / 4
    let set := kept.filter fun y => y.core = x.core && line y % 256 = line x % 256
    if (set.any fun y => line y = line x) || (set.map line).eraseDups.length < ways x.core then l1Keep ways r (x :: kept)
    else l1Keep ways r kept
def State.l1Fit (s : State) : State := { s with l1 := l1Keep s.l1Ways s.l1.reverse [] }

/-- A store that is performed, written to the sectors of its core's L1 that it hits (R214). -/
def State.l1Store (s : State) (core pa : Nat) (bs : List Byte) : State :=
  let a := canonPa pa
  { s with l1 := s.l1.map fun x =>
      if x.core = core then
        { x with data := x.data.mapIdx fun i b =>
            let p := 32 * x.sector + i
            if a ≤ p && p < a + bs.length then bs.getD (p - a) b else b }
      else x }

def State.l1Byte (s : State) (core a : Nat) : Option Byte :=
  (s.l1.find? fun x => x.core = core && x.sector = a / 32).bind fun x => x.data[a % 32]?

/-! ### Atomic operations (R189) -/

/-- The new value of an atomic over `n` bits: old, operand, and the compare value of CAS. -/
def atomicNew (aop : Nat) (wide : Bool) (old b cmp : Nat) : Nat :=
  let n := if wide then 64 else 32
  let so : Int := (BitVec.ofNat n old).toInt
  let sb : Int := (BitVec.ofNat n b).toInt
  let f := if wide then fp64 else fp32
  match aop with
  | 0 => (old + b) % 2 ^ n
  | 1 => if so ≤ sb then old else b
  | 2 => if sb ≤ so then old else b
  | 3 => if old ≤ b then old else b
  | 4 => if b ≤ old then old else b
  | 5 => Nat.land old b
  | 6 => Nat.lor old b
  | 7 => Nat.xor old b
  | 8 => b
  | 9 => if old = cmp then b else old
  | 10 => rne f (fadd .rne (unpack f false old) (unpack f false b))
  | 11 => opMinMax f false false false old b
  | _ => opMinMax f false false true old b

/-- An atomic of `size` bytes performed at home for a team (R189, R338): the state after it and the old value; `adds`
counts for the sequence tag (R341). -/
def State.homeAtomic (s : State) (team ctx va pa : Nat) (leaf : Word64) (size aop operand cmp adds : Nat) : State × Nat :=
  let old := natOfBytes (s.readHome team ctx pa leaf size)
  let new := atomicNew aop (size = 8) old operand cmp
  (s.writeHome team ctx va pa leaf adds (bytesOfNat size new), old)

/-- A contribution of `RED` or `TGMS` (R190, R317): applied at once, or held by its task on an ORD page of an ordered
launch. -/
def State.contribute (s : State) (team ctx va pa : Nat) (leaf : Word64) (seq size aop operand adds : Nat) : State :=
  if s.toView team leaf then
    s.modTeam team fun t => { t with held := t.held ++ [⟨seq, canonPa pa, va, aop, size = 8, BitVec.ofNat 64 operand, adds⟩] }
  else (s.homeAtomic team ctx va pa leaf size aop operand 0 adds).1

/-! ### Local SRAM (R213) -/

/-- The bytes of a team's scratchpad, by grant index and offset. -/
def scratchByte (t : Team) (a : Nat) : Byte :=
  match t.banks[a / 32768]? with | some b => Cells.get 0 b.bytes (a % 32768) | none => 0
def scratchRead (t : Team) (a n : Nat) : List Byte := (List.range n).map fun i => scratchByte t (a + i)
def scratchPut (t : Team) (a : Nat) (b : Byte) : Team :=
  { t with banks := modAt t.banks (a / 32768) fun k => { k with bytes := Cells.put 0 k.bytes (a % 32768) b } }
def scratchWrite (t : Team) (a : Nat) : List Byte → Team
  | [] => t
  | b :: bs => scratchWrite (scratchPut t a b) (a + 1) bs

/-- Bytes of a team's operand buffer. -/
def obBytes (t : Team) (a n : Nat) : List Byte := bytesAt t.ob a n
def obWrite (t : Team) (a : Nat) (bs : List Byte) : Team := { t with ob := putBytes t.ob a bs }

/-- Whether an extent touches a bank that is not in SCRATCH mode (R213). -/
def scratchModeBad (t : Team) (a n : Nat) : Bool :=
  (List.range ((a + n - 1) / 32768 - a / 32768 + 1)).any fun i =>
    match t.banks[a / 32768 + i]? with | some b => b.mode ≠ .scratch | none => true

/-- The scratchpad steps of R187 for an extent: bound, then bank mode. -/
def scratchVerdict (t : Team) (a : Int) (n : Nat) : Option (Nat × Nat × Nat) :=
  if a < 0 || (t.scratch : Int) < a + n then some (2, cXperm, 0x04)
  else if n ≠ 0 && scratchModeBad t a.toNat n then some (6, cBankmode, 0x01)
  else none

/-! ### Publication (R320, R328) -/

/-- The pieces of a write that fall in a region, by its 32-byte sectors: region offset and bytes. -/
def regionPieces (base len a : Nat) (bs : List Byte) : List SubWrite :=
  let lo := max a base
  let hi := min (a + bs.length) (base + len)
  if hi ≤ lo then []
  else (List.range ((hi - 1 - base) / 32 - (lo - base) / 32 + 1)).map fun i =>
    let sec := (lo - base) / 32 + i
    let p := max (lo - base) (32 * sec)
    let q := min (hi - base) (32 * (sec + 1))
    ⟨p, (bs.drop (base + p - a)).take (q - p)⟩

/-- Whether a write that counts as some groups' comes after their arrival at a barrier of more than their team (R331). -/
def State.afterArrival (s : State) (t : Nat) (gs : List Nat) : Bool :=
  gs.any fun g => (s.group? t g).any fun x => match x.hold with | .bar l _ => l ≠ 0 | _ => false

/-- One update queued for a subscription, folded into its newest update while that update's window is open and
covers the same bytes (R328). -/
def State.queueUpdate (s : State) (b : Subscription) (t : Nat) (gs : List Nat) (w : SubWrite) : State :=
  let late := s.afterArrival t gs
  let mine := s.updates.filter fun u => u.subscriber = b.subscriber && u.handle = b.handle
  match mine.getLast?.filter fun u => u.windowOpen && u.grps = gs && u.late = late &&
      u.write.offset = w.offset && u.write.data.length = w.data.length with
  | some u => { s with updates := s.updates.map fun x => if x.id = u.id then { x with write := w } else x }
  | none =>
    { s with updates := s.updates ++ [⟨s.nextId, b.subscriber, b.handle, t, gs, w, true, false, late⟩], nextId := s.nextId + 1 }

/-- The updates that a write to a team's scratchpad produces (R320). -/
def State.publish (s : State) (t : Nat) (gs : List Nat) (a : Nat) (bs : List Byte) : State :=
  (s.subs.filter fun b => b.publisher = t && b.state ≠ .ended).foldl (fun s b =>
    (regionPieces b.pubOffset b.len a bs).foldl (fun s w => s.queueUpdate b t gs w) s) s

/-- A write to a team's scratchpad that counts as some groups': performed, and published (R213, R320, R332). -/
def State.padStore (s : State) (t : Nat) (gs : List Nat) (a : Nat) (bs : List Byte) : State :=
  (s.modTeam t fun tm => scratchWrite tm a bs).publish t gs a bs

/-- Whether updates of a group's writes are still on their way (R325, R329). -/
def State.updatesOut (s : State) (t g : Nat) : Bool := s.updates.any fun u => u.team = t && u.grps.contains g

end Sys2Proof.Machine
end

