-- ==== Sys2Proof/Machine/Route.lean ====
section
/-!
DEFINITION. The routes of requests and responses: ring stops and stations within a die (R342, R343), and edge and host links
under the routing of R398-R402.
-/
namespace Sys2Proof.Machine

/-! ### Dies and their links (R351, R398-R401) -/

/-- The position of a live die (R351, R400): the live positions in ascending order. -/
def positionOf (dead d : Nat) : Nat := if d < dead then d else d + 1

/-- The live ordinal that a die's edge port leads to, past a pass-through (R398, R400): E0 of a position joins the
next one in ascending order, E1 the one before. -/
def neighbour (d port : Nat) : Nat := if port = 0 then (d + 1) % 3 else (d + 2) % 3

/-- Whether the link at a die's port is retired (R401): the fuses name it from either end, and 7 names none. -/
def linkRetired (dead lret d port : Nat) : Bool :=
  let far := neighbour d port
  lret ≠ 7 && (lret = 2 * positionOf dead d + port || lret = 2 * positionOf dead far + (1 - port))

/-- The port through which a die sends to another (R401): the direct link, or through the middle die where that
link is retired. -/
def exitPort (dead lret a b : Nat) : Nat :=
  let direct := if neighbour a 0 = b then 0 else 1
  if linkRetired dead lret a direct then 1 - direct else direct

/-- The root die: position 0 when live, otherwise position 3 (R399). -/
def rootDie (dead : Nat) : Nat := if dead = 0 then 2 else 0

/-- The die over whose H-die link a die's host traffic goes: its own where it has one, else the root (R398, R399). -/
def hostDie (dead d : Nat) : Nat := if positionOf dead d = 0 || positionOf dead d = 3 then d else rootDie dead

/-! ### Rings (R342, R343) -/

/-- The quadrant of an edge port (R398). -/
def portQuadrant (p : Nat) : Nat := if p = 0 then 0 else 2

/-- The stops of a quadrant's ring. DESIGN CHOICE (assumption log, entry 55): they follow one another in the order of R342's
table, and the H-die link stands on quadrant 0. -/
def ringOf (d q : Nat) : List RingStop :=
  (List.range 12).map (fun i => .core d (12 * q + i)) ++ (List.range 8).map (fun i => .slice d (8 * q + i)) ++
  (List.range 4).map (fun i => .channel d (4 * q + i)) ++ [.station d q q, .station d ((q + 3) % 4) q] ++
  (if q = 0 then [.engine d, .barrierUnit d, .port d 0, .hostLink d] else if q = 2 then [.port d 1] else [])

/-- The quadrant on whose ring a stop stands. -/
def quadOf : RingStop → Nat
  | .core _ n => n / 12
  | .slice _ n => n / 8
  | .channel _ n => n / 4
  | .station _ _ q => q
  | .engine _ | .barrierUnit _ | .hostLink _ => 0
  | .port _ p | .edge _ p => portQuadrant p

/-- The stops passed on one ring, the shorter way, clockwise on a tie. -/
def ringWay (d q : Nat) (a b : RingStop) : List RingStop :=
  let ring := ringOf d q
  let n := ring.length
  let i := ring.idxOf a
  let cw := (ring.idxOf b + n - i) % n
  if cw ≤ n - cw then (List.range cw).map fun k => ring.getD ((i + k + 1) % n) b
  else (List.range (n - cw)).map fun k => ring.getD ((i + n - (k + 1)) % n) b

/-- The stops passed within a die: through the station that joins two adjacent quadrants, or the two stations to the opposite
quadrant in ascending order. -/
def dieWay (d : Nat) (a b : RingStop) : List RingStop :=
  let qa := quadOf a
  let qb := quadOf b
  let mid := (qa + 1) % 4
  let st (i q : Nat) : RingStop := .station d i q
  match (qb + 4 - qa) % 4 with
  | 0 => ringWay d qa a b
  | 1 => ringWay d qa a (st qa qa) ++ ringWay d qb (st qa qb) b
  | 2 => ringWay d qa a (st qa qa) ++ ringWay d mid (st qa mid) (st mid mid) ++ ringWay d qb (st mid qb) b
  | _ => ringWay d qa a (st qb qa) ++ ringWay d qb (st qb qb) b

/-- The stops passed from a stop of a die to a stop of a die; `n` bounds the dies crossed. -/
def wayFrom (dead lret : Nat) : Nat → Nat → RingStop → Nat → RingStop → List RingStop
  | 0, _, _, _, _ => []
  | n + 1, d, a, home, b =>
    if d = home then dieWay d a b
    else
      let p := exitPort dead lret d home
      let far := neighbour d p
      dieWay d a (.port d p) ++ [.edge far (1 - p)] ++ wayFrom dead lret n far (.port far (1 - p)) home b

/-! ### Requests and responses -/

/-- The stop of a core, and the die and stop that serve a physical address: its home slice, or the H-die link. -/
def coreStop (core : Nat) : RingStop := .core (core / 48) (core % 48)
def State.homeStop (s : State) (core pa : Nat) : Nat × RingStop :=
  if hostBase ≤ pa then
    let d := hostDie s.tdie.dead.toNat (core / 48)
    (d, .hostLink d)
  else (homeDie pa, .slice (homeDie pa) (homeSlice pa))

/-- The route of a request of a core to what serves a physical address, and of the response back (R343, R399, R402). -/
def State.route (s : State) (core pa : Nat) : List RingStop :=
  let h := s.homeStop core pa
  wayFrom s.tdie.dead.toNat s.tdie.lret.toNat 3 (core / 48) (coreStop core) h.1 h.2
def State.routeBack (s : State) (core pa : Nat) : List RingStop :=
  let h := s.homeStop core pa
  wayFrom s.tdie.dead.toNat s.tdie.lret.toNat 3 h.1 h.2 (core / 48) (coreStop core)

/-! ### Routers (R346) -/

/-- The number of a ring router, as power gating names it: its stop within the part. -/
def routerOf : RingStop → Nat
  | .core d n => 256 * d + n
  | .slice d n => 256 * d + 64 + n
  | .channel d n => 256 * d + 96 + n
  | .station d n _ => 256 * d + 128 + n
  | .port d p | .edge d p => 256 * d + 136 + p
  | .hostLink d => 256 * d + 140
  | .engine d => 256 * d + 141
  | .barrierUnit d => 256 * d + 142
def dieOfStop : RingStop → Nat
  | .core d _ | .slice d _ | .channel d _ | .station d _ _ | .port d _ | .edge d _ | .hostLink d | .engine d | .barrierUnit d => d
def isEdge : RingStop → Bool
  | .edge .. => true
  | _ => false

end Sys2Proof.Machine
end

