-- ==== Sys2Proof/Machine/Rollback.lean ====
section
/-!
DEFINITION. Checkpoint intervals, rollback and die resets (R403-R405, R412, R413, R425-R429).
-/
namespace Sys2Proof.Machine

/-! ### Device errors (R456, R457) -/

/-- An entry of `CMDP_ERRLOG` and vector 0; the manual does not state what an entry holds. -/
def State.deviceError (s : State) : State :=
  { s.draw with
    errlog := s.errlog ++ [Config.errorEntry s.fresh]
    interrupts := s.interrupts ++ [⟨0, 0, 0, 0⟩] }

/-- The position of a live die (R351). -/
def State.positionOf (s : State) (d : Nat) : Nat := Sys2Proof.Machine.positionOf s.tdie.dead.toNat d

/-! ### Rollback (R427) -/

/-- The undo records of a context's open interval on every die. -/
def State.openUndo (s : State) (ctx : Nat) : List UndoRec :=
  let iv := ((s.contexts[ctx]?).map Context.interval).getD 0
  s.dies.flatMap fun d => d.undoLog.filter fun r => r.ctx = ctx && r.interval = iv

/-- The contexts that wrote, in their open intervals, a line that one of some contexts wrote; `n` bounds the rounds. -/
def State.rollbackSet (s : State) : Nat → List Nat → List Nat
  | 0, cs => cs
  | n + 1, cs =>
    let lines := cs.flatMap fun c => (s.openUndo c).map UndoRec.line
    let more := (List.range s.contexts.length).filter fun c =>
      !cs.contains c && (s.openUndo c).any fun r => lines.contains r.line
    if more = [] then cs else s.rollbackSet n (cs ++ more)

/-- A context that cannot be rolled back: its interval is unprotected, or was rolled back as often as allowed. -/
def State.pastRollback (s : State) (ctx : Nat) : Bool :=
  match s.contexts[ctx]? with
  | none => true
  | some c => c.unprotected || s.regs.rbmax.toNat ≤ c.attempts

/-- Memory restored from undo records, newest first, and each line's key with it (R408). -/
def restoreUndo (m : List Host.Cell) (rs : List UndoRec) : List Host.Cell :=
  rs.reverse.foldl (fun m r => putBytes m (128 * r.line) r.data) m
def restoreKeys (k : Cells Nat) (rs : List UndoRec) : Cells Nat := rs.reverse.foldl (fun k r => Cells.put 0 k r.line r.key) k

/-- Slices, L1s and memory of some contexts back at the start of their open intervals. -/
def State.restoreLines (s : State) (cs : List Nat) : State :=
  let iv (c : Nat) : Nat := ((s.contexts[c]?).map Context.interval).getD 0
  let mine (r : UndoRec) : Bool := cs.contains r.ctx && r.interval = iv r.ctx
  let lines := s.dies.flatMap fun d => (d.undoLog.filter mine).map UndoRec.line
  { s with
    lines := s.lines.filter fun l => !lines.contains l.addr
    l1 := []
    mem := s.dies.foldl (fun m d => restoreUndo m (d.undoLog.filter mine)) s.mem
    lineKeys := s.dies.foldl (fun k d => restoreKeys k (d.undoLog.filter mine)) s.lineKeys
    dies := s.dies.map fun d => { d with undoLog := d.undoLog.filter fun r => !mine r } }

/-- A context's coordinate-engine handles back as they were at the start of its interval (R370). -/
def State.restoreHandles (s : State) (ctx : Nat) : State :=
  let kept := ((s.contexts[ctx]?).map Context.handles).getD []
  { s with dies := s.dies.mapIdx fun d die => { die with
      hashKept := die.hashKept.filter fun k => k.1 ≠ ctx
      handles := die.handles.filter (fun h => h.ctx ≠ ctx) ++ (kept.filter fun h => h.1 = d).map Prod.snd } }

/-- One context of a rollback re-opened: its record, and its kept commands to be parsed again (R425, R427). -/
def State.reopen (s : State) (ctx die : Nat) : State :=
  match s.contexts[ctx]? with
  | none => s
  | some c =>
    let s1 := s.record 0x07 255 0 (bytesOfNat 8 c.interval ++ bytesOfNat 4 (c.attempts + 1) ++ bytesOfNat 1 (s.positionOf die))
    let s2 := s1.modContext ctx fun c => { c with attempts := c.attempts + 1, replay := c.kept ++ c.replay, kept := [] }
    let first := (c.kept.findSome? Kept.launch).getD s.launches.length
    { s2.restoreHandles ctx with
      queues := s2.queues.map fun q => if getField q.cfg 55 6 = ctx then
          { q with wait := .none, held := none, signals := q.signals.filter fun x => x.2.2.2 ≤ first }
        else q }

/-- UNCORR in some contexts (R427): with every context that wrote the same lines they fall back to the start of their
intervals, or they are terminated. -/
def State.rollback (s : State) (ctxs : List Nat) (die : Nat) : State :=
  let cs := s.rollbackSet 64 ctxs
  let lost := cs.filter fun c => s.pastRollback c || Config.undoLost (s.fresh + c)
  let back := cs.filter fun c => !lost.contains c
  let s1 : State := { s with fresh := s.fresh + s.contexts.length }
  let s2 := lost.foldl (fun s c => s.terminate c s.teams.length 0) s1
  let s3 := s2.killLaunches fun l => back.contains l.ctx
  (back.foldl (fun s c => s.reopen c die) (s3.restoreLines back)).deviceError

/-- UNCORR_ROLLBACK. -/
def execUncorrRollback (ctx die : Nat) (s : State) : Out :=
  match s.contexts[ctx]? with
  | some c => if c.created then .next (s.rollback [ctx] die) else .next s
  | none => .next s

/-! ### Die resets (R403-R405) -/

/-- Whether a page of a page table is homed on a die; `n` bounds the levels left. -/
def State.homesOn (s : State) (die : Nat) : Nat → Nat → Nat → Bool
  | 0, _, _ => false
  | n + 1, level, table =>
    inDevice table && (List.range (2 ^ levelLen level)).any fun i =>
      let e : Word64 := BitVec.ofNat 64 (natOfBytes (s.homeBytes 0 (table + 8 * i) 8))
      let pa := getField e 16 32 * 2 ^ 16
      e.getLsbD 0 &&
      (if e.getLsbD 4 then pa < hostBase && (e.getLsbD 7 || homeDie pa = die)
       else level < 4 && s.homesOn die n (level + 1) (getField e 8 40 * 256))

/-- The contexts with a team on a die: staging, resident or being saved. -/
def State.ctxsOn (s : State) (die : Nat) : List Nat :=
  (List.range s.contexts.length).filter fun c => s.teams.any fun t => t.core / 48 = die &&
    (t.residency = .staging || t.residency = .resident || t.residency = .saving) &&
    ((s.launches[t.launch]?).map Launch.ctx) = some c

/-- The contexts a die reset marks for rollback. -/
def State.touchedBy (s : State) (die : Nat) : List Nat :=
  (List.range s.contexts.length).filter fun c => match s.contexts[c]? with
    | some x => x.created && (s.homesOn die 4 1 x.root || (s.ctxsOn die).contains c)
    | none => false

/-- A flit of a die that its reset leaves on its way: on an edge link or within another die, with an ingress still to come,
where its incarnation is found to be old (R404). It belongs to no team any more. -/
def Req.strays (r : Req) (die : Nat) : Bool :=
  (r.hops.any isEdge) && (dieOfStop r.place ≠ die || match r.place with | .port .. => true | _ => false)

/-- A die reset (R405): its slice contents are lost, contexts roll back, its incarnation moves on in every table. -/
def State.resetDie (s : State) (die : Nat) : State :=
  match s.dies[die]? with
  | none => s
  | some d =>
    let marked := s.touchedBy die
    let strays := (s.reqs.filter fun r => r.core / 48 = die && r.strays die).map fun r => { r with op := none, team := noTeam }
    let inc := d.inc + 1
    let s1 : State := { s with
      lines := s.lines.filter fun l => homeDie (128 * l.addr) ≠ die
      l1 := s.l1.filter fun x => x.core / 48 ≠ die
      reqs := s.reqs.filter (fun r => r.core / 48 ≠ die) ++ strays
      dies := s.dies.mapIdx fun i x =>
        let x : Die := { x with incTable := modAt x.incTable die fun _ => inc }
        if i = die then { x with state := .inReset, inc := inc, tlb := [], asleep := [], waking := [], linkFails := [] } else x }
    let s2 := s1.record 0x0B 255 0 (bytesOfNat 1 (s1.positionOf die) ++ bytesOfNat 1 inc.toNat ++
      bytesOfNat 16 (Config.bootNonce s1.fresh).toNat)
    (if marked = [] then s2.draw else s2.draw.rollback marked die).deviceError

/-- DIE_FATAL_ERROR: the subject die reports a fatal error. -/
def execDieFatalError (s : State) : Out :=
  match s.dies[s.subject]? with
  | some d => if d.state = .live then .next (s.resetDie s.subject) else .next s
  | none => .next s

/-- DIE_REJOIN: the die is released once no flit of it is left (R405). -/
def execDieRejoin (s : State) : Out :=
  match s.dies[s.subject]? with
  | some d =>
    if d.state = .inReset && !(s.reqs.any fun r => r.core / 48 = s.subject) then
      .next (s.modDie s.subject fun d => { d with state := .live })
    else .next s
  | none => .next s

/-- The die of a link: 2·die + port names an edge link, 6 and 7 the H-die links of positions 0 and 3 (R398). -/
def linkDie (dead link : Nat) : Nat :=
  if link < 6 then link / 2
  else if link = 6 then (if dead = 0 then 3 else 0)
  else if link = 7 then (if dead = 3 then 3 else 2)
  else 3

/-- LINK_REPLAY (R412, R413): a link of a live die replays a flit; the sixteenth failure in a row resets its die. -/
def execLinkReplay (link : Nat) (failed : Bool) (s : State) : Out :=
  let die := linkDie s.tdie.dead.toNat link
  match s.dies[die]? with
  | none => .next s
  | some d =>
    let n := Cells.get 0 d.linkFails link
    if d.state ≠ .live then .next s
    else if !failed then .next (s.modDie die fun d => { d with linkFails := Cells.put 0 d.linkFails link 0 })
    else if 15 ≤ n then .next (s.resetDie die)
    else .next (s.modDie die fun d => { d with linkFails := Cells.put 0 d.linkFails link (n + 1) })

/-- CORRECTED_ERROR (R413): counted, and nothing else. -/
def execCorrectedError (s : State) : Out :=
  .next (s.modDie s.subject fun d => { d with ce := if d.ce = BitVec.allOnes 32 then d.ce else d.ce + 1 })

/-- PATROL_SCRUB (R412): a line is checked; what it holds does not change. -/
def execPatrolScrub (_die _line : Nat) (s : State) : Out := .next s

/-! ### Checkpoint intervals (R425) -/

/-- CHECKPOINT_TIMER: the interval has been open for `CMDP_CKPTIV` milliseconds. -/
def execCheckpointTimer (s : State) : Out :=
  match s.contexts[s.subject]? with
  | some c =>
    if c.created && c.opened + 100000 * s.regs.ckptiv.toNat ≤ s.timer.toNat then
      .next (s.modContext s.subject fun c => { c with closeDue := true })
    else .next s
  | none => .next s

/-- Whether a context has a launch running. -/
def State.runningIn (s : State) (ctx : Nat) : Bool := s.launches.any fun l => l.ctx = ctx && l.state = .running

/-- The open interval closed and the next one opened: a CKPT record, undo records dropped, launch records kept only for
launches that have not started. -/
def State.closeInterval (s : State) (ctx : Nat) : State :=
  match s.contexts[ctx]? with
  | none => s
  | some c =>
    let used := 144 * (s.openUndo ctx).length
    let s1 := s.record 0x06 255 0 (bytesOfNat 8 c.interval ++ bytesOfNat 8 used ++ bytesOfNat 1 (if c.unprotected then 1 else 0))
    let waiting (k : Kept) : Bool := match k.launch.bind fun l => s.launches[l]? with
      | some l => l.state = .waiting
      | none => false
    let hs := (List.range s.dies.length).flatMap fun d => match s.dies[d]? with
      | some die => (die.handles.filter fun h => h.ctx = ctx).map fun h => (d, h)
      | none => []
    let s2 := s1.modContext ctx fun c =>
      { c with interval := c.interval + 1, closeDue := false, unprotected := false, attempts := 0, opened := s.timer.toNat,
               kept := (c.kept.dropWhile fun k => !waiting k).filter (fun k => k.launch.isNone || waiting k), handles := hs }
    State.dueByUndo { s2 with dies := s2.dies.map fun d =>
        { d with undoLog := d.undoLog.filter fun r => r.ctx ≠ ctx, hashKept := d.hashKept.filter fun k => k.1 ≠ ctx } }

/-- INTERVAL_CLOSE: a close that is due happens once no launch of the context runs or waits to be parsed again. -/
def execIntervalClose (s : State) : Out :=
  match s.contexts[s.subject]? with
  | some c =>
    if c.created && c.closeDue && c.replay = [] && !s.runningIn s.subject then .next (s.closeInterval s.subject) else .next s
  | none => .next s

/-! ### Signatures of the cinder ring (R429) -/

/-- CINDER_SIGNATURE: the T die writes the oldest entry due, in the table and in memory at `CND_SIGBASE`. -/
def execCinderSignature (s : State) : Out :=
  match s.signDue with
  | [] => .next s
  | d :: r =>
    let sig := Config.signature d.2
    let s1 := if s.regs.sigbase = 0 then s
      else s.deviceWrite (s.regs.sigbase.toNat + 128 * (d.1 % 1024)) (digestBytes d.2 ++ bytesOfNat 96 sig.toNat)
    .next { s1 with signDue := r, signatures := Cells.put (0, 0) s1.signatures (d.1 % 1024) (d.2, sig) }

end Sys2Proof.Machine
end

