-- ==== Sys2Proof/Machine/Objects.lean ====
section
/-!
DEFINITION. KZO code objects in a context's memory (R57, R58, R60): the header, its checks, the resource records
and the sections.
-/
namespace Sys2Proof.Machine

/-- The die number under which agents beyond the dies translate: none, so that they always walk. -/
def noDie : Nat := 3

/-- A context's bytes read by the command processor or a control processor, when every page is readable. -/
def State.ctxRead (s : State) (ctx va n : Nat) : Option (List Byte) :=
  if (s.extentVerdict noDie ctx needR va n).isNone && va + n ≤ 2 ^ 48 then
    some (s.readVa s.teams.length noDie ctx va n)
  else none

/-- 64-bit words of a row of bytes, low byte first. -/
def wordsOf : List Byte → List Word64
  | b0 :: b1 :: b2 :: b3 :: b4 :: b5 :: b6 :: b7 :: r => wordOfBytes [b0, b1, b2, b3, b4, b5, b6, b7] :: wordsOf r
  | _ => []

/-- A code object as a launch or a handler uses it. -/
structure CodeObject where
  kernels : List Kernel
  code : List Word64
  codeVa : Nat
  const : List Byte
  dataVa : Nat
deriving DecidableEq, Repr

/-- A resource record (R58) of its 64 bytes as a number. -/
def kernelOf (r : Nat) : Kernel :=
  { entry := field r 128 32, threads := field r 160 16, regs := 8 * field r 176 8, ord := bitOf r 184,
    idem := bitOf r 185, cgrp := field r 192 8, creg := 8 * field r 200 8, mgrp := field r 208 8,
    mreg := 8 * field r 216 8, vgrp := field r 224 8, vreg := 8 * field r 232 8, scratch := field r 256 32,
    obuf := field r 288 16, tiles := field r 304 8, rings := BitVec.ofNat 64 (field r 320 64),
    paramSz := field r 384 32 }

/-- Whether a header is one that a loader accepts (R57, R60). DESIGN CHOICE (assumption log, entry 50): NKERN, CODEOFF,
CODESZ and RESOFF outside the Values column are refused like the fields R57 names. -/
def headerOk (h : Nat) : Bool :=
  field h 0 32 = 0x304F5A4B && field h 32 16 = 2 && field h 50 14 = 0 && field h 384 128 = 0 &&
  1 ≤ field h 64 32 && field h 64 32 ≤ 4096 && field h 96 32 % 8 = 0 && field h 128 32 % 8 = 0 &&
  field h 224 32 % 128 = 0 && field h 288 32 % 64 = 0

/-- Records of a run of bytes, 64 bytes each. -/
def kernelsOf : Nat → List Byte → List Kernel
  | 0, _ => []
  | n + 1, bs => kernelOf (natOfBytes (bs.take 64)) :: kernelsOf n (bs.drop 64)

/-- The object at a virtual address of a context, when it can be read and its header is accepted. -/
def State.objectAt (s : State) (ctx va : Nat) : Option CodeObject :=
  match s.ctxRead ctx va 64 with
  | none => none
  | some hb =>
    let h := natOfBytes hb
    let n := field h 64 32
    if !headerOk h then none
    else match s.ctxRead ctx (va + field h 96 32) (field h 128 32), s.ctxRead ctx (va + field h 160 32) (field h 192 32),
        s.ctxRead ctx (va + field h 288 32) (64 * n) with
      | some code, some const, some res =>
        some { kernels := kernelsOf n res, code := wordsOf code, codeVa := va + field h 96 32, const := const,
               dataVa := va + field h 224 32 }
      | _, _, _ => none

end Sys2Proof.Machine
end

