-- ==== Sys2Proof/Machine/Block.lean ====
section
/-!
DEFINITION. Block formats and their values (R73-R78), the quantiser (R79), and the block sums of matrix products
(R81-R83).
-/
namespace Sys2Proof.Machine

/-! ### Element codes (R71, R73) -/

/-- The value of an E2M1 code in halves, without sign. -/
def e2m1Halves (c : Nat) : Nat :=
  match c % 8 with | 0 => 0 | 1 => 1 | 2 => 2 | 3 => 3 | 4 => 4 | 5 => 6 | 6 => 8 | _ => 12
def e2m1Val (c : Nat) : FVal := .fin (8 ≤ c % 16) (e2m1Halves c) (-1)

/-- A finite value rounded to a multiple of the E2M1 step of its binade, in halves, before saturation. -/
def e2m1Round (m : Nat) (e : Int) : Nat :=
  if m = 0 then 0
  else
    let lead : Int := e + bitLen m - 1
    if 3 ≤ lead then 16
    else if lead < 1 then (roundTo false m e false (-1) .rne).1
    else if lead = 1 then 2 * (roundTo false m e false 0 .rne).1
    else 4 * (roundTo false m e false 1 .rne).1

/-- E2M1 of R80: the code of a finite value, saturated at 6; zero has the one code 0. -/
def e2m1Code (neg : Bool) (m : Nat) (e : Int) : Nat :=
  let c := match e2m1Round m e with
    | 0 => 0 | 1 => 1 | 2 => 2 | 3 => 3 | 4 => 4 | 6 => 5 | 8 => 6 | _ => 7
  if c = 0 then 0 else if neg then c + 8 else c

/-- A value scaled by a power of two. -/
def scaleBy (x : FVal) (k : Int) : FVal := match x with | .fin neg m e => .fin neg m (e + k) | y => y

/-! ### The quantiser (R79) -/

/-- A quantised block: scale code, codes, side-list entries in ascending position, and the sticky flags R152
gives each element. -/
structure QBlock where
  scale : Nat
  codes : List Nat
  entries : List (Nat × Nat)
  flags : List (BitVec 5)
deriving DecidableEq, Repr

/-- The index of the greatest nonzero error not yet chosen; ties go to the lower index. -/
def worst (err : List Nat) (chosen : List Nat) : Option Nat :=
  (List.range err.length).foldl (fun best j =>
    if chosen.contains j || err.getD j 0 = 0 then best
    else match best with
      | none => some j
      | some b => if err.getD b 0 < err.getD j 0 then some j else some b) none

/-- ESC of R80 after the elements that are always escaped. -/
def escapes (err : List Nat) : Nat → List Nat → List Nat
  | 0, chosen => chosen
  | n + 1, chosen => match worst err chosen with
    | none => chosen
    | some j => escapes err n (chosen ++ [j])

/-- One candidate exponent: codes, escaped set and error sum. -/
structure Candidate where
  s : Int
  codes : List Nat
  escaped : List Nat
  sum : Nat

/-- A candidate exponent tried on 32 FP32 patterns. -/
def tryScale (xs : List Nat) (special : List Nat) (limit : Nat) (s : Int) : Candidate :=
  let code (x : Nat) : Nat := match scaleBy (val32 x) (-s) with | .fin neg m e => e2m1Code neg m e | _ => 0
  let codes := xs.map code
  let err := (List.range 32).map fun j =>
    if special.contains j then 0x7F800000
    else
      let d := val32 (rne32 (fadd .rne (val32 (xs.getD j 0)) (fneg (scaleBy (e2m1Val (codes.getD j 0)) s))))
      rne32 (fmul d d)
  let escaped := escapes err (limit - special.length) special
  let sum := (List.range 32).foldl (fun t j => if escaped.contains j then t else add32 t (err.getD j 0)) 0
  ⟨s, codes, escaped, sum⟩

/-- The better of two candidates: the lesser sum, and among equal sums the larger exponent. -/
def better (a b : Candidate) : Candidate := if b.sum < a.sum || (b.sum = a.sum && a.s < b.s) then b else a

def clampScale (s : Int) : Int := if s < -127 then -127 else if 127 < s then 127 else s

/-- The flags of an element of a block that is not the NaN block (R152). -/
def elementFlags (x : Nat) (s : Int) (code : Nat) (escaped : Bool) : BitVec 5 :=
  match val32 x with
  | .fin _ m e =>
    if escaped then (if (rnd bf16 .rne false (val32 x)).flags &&& flNX = 0 then 0 else flNX)
    else
      let sat := 12 < e2m1Round m (e - s)
      let same := !flt (val32 x) (scaleBy (e2m1Val code) s) && !flt (scaleBy (e2m1Val code) s) (val32 x)
      (if same then 0 else flNX) ||| (if sat then flOF else 0)
  | _ => 0

/-- The quantiser of R79 on 32 FP32 patterns with an escape limit. -/
def quantise (xs : List Nat) (limit : Nat) : QBlock :=
  let special := (List.range 32).filter fun j => field (xs.getD j 0) 23 8 = 255
  let entry (j : Nat) : Nat × Nat := (j, (rnd bf16 .rne false (val32 (xs.getD j 0))).bits)
  if limit < special.length then
    ⟨0xFF, List.replicate 32 0, [], (List.range 32).map fun j =>
      if special.contains j then flNV else if field (xs.getD j 0) 0 31 = 0 then 0 else flNX⟩
  else
    let m := (List.range 32).foldl (fun a j =>
      let v := field (xs.getD j 0) 0 31
      if special.contains j || v ≤ a then a else v) 0
    if m = 0 then
      ⟨0, (List.range 32).map (fun j => if special.contains j then 8 else 0), special.map entry, List.replicate 32 0⟩
    else
      let e : Int := match val32 m with | .fin _ k x => x + bitLen k - 3 | _ => 0
      let c0 := tryScale xs special limit (clampScale (e - 1))
      let c1 := tryScale xs special limit (clampScale e)
      let c2 := tryScale xs special limit (clampScale (e + 1))
      let best := better (better c0 c1) c2
      let out := (List.range 32).filter best.escaped.contains
      ⟨(best.s + 127).toNat, (List.range 32).map (fun j => if out.contains j then 8 else best.codes.getD j 0),
       out.map entry,
       (List.range 32).map fun j => elementFlags (xs.getD j 0) best.s (best.codes.getD j 0) (out.contains j)⟩

/-- The sixteen code bytes of 32 E2M1 codes (R74). -/
def codeBytes (codes : List Nat) : List Byte :=
  (List.range 16).map fun j => BitVec.ofNat 8 (codes.getD (2 * j) 0 + 16 * codes.getD (2 * j + 1) 0)

/-- A block header (R74), and a side-list entry (R76). -/
def headerOf (scale count : Nat) : Nat := scale + 256 * count
def entryOf (e : Nat × Nat) : Nat := e.1 + 2 ^ 16 * e.2

/-! ### Reading blocks (R73-R78) -/

/-- The 32 element values of a BX4 block in an A operand or for `DQNT`: codes, header, and the entries from
P(b) on (R77): in a block with more escapes than its count every escape reads as NaN. -/
def readBx4 (codes : List Nat) (header : Nat) (entries : List Nat) : List FVal :=
  let scale := header % 256
  let count := field header 8 3
  if scale = 255 || 5 ≤ count || field header 11 5 ≠ 0 then List.replicate 32 .nan
  else
    let many : Bool := count < ((codes.take 32).filter (· = 8)).length
    ((codes.take 32).foldl (fun (acc : List FVal × Nat) c =>
      if c = 8 then
        let en := entries.getD acc.2 0
        let v := if many || en % 32 ≠ acc.1.length || field en 5 11 ≠ 0 then FVal.nan
                 else unpack bf16 false (field en 16 16)
        (acc.1 ++ [v], acc.2 + 1)
      else (acc.1 ++ [scaleBy (e2m1Val c) ((scale : Int) - 127)], acc.2)) ([], 0)).1

/-- The same in a B operand: escapes read as +0, and whether any was read (R78). -/
def readBx4B (codes : List Nat) (header : Nat) : List FVal × Bool :=
  let scale := header % 256
  if scale = 255 then (List.replicate 32 .nan, false)
  else
    ((codes.take 32).map fun c =>
      if c = 8 then FVal.fin false 0 0 else scaleBy (e2m1Val c) ((scale : Int) - 127),
     (codes.take 32).contains 8)

/-- The values of a BX8 block (R75); `f` is E4M3 or E5M2. -/
def readBx8 (f : Fmt) (codes : List Nat) (header : Nat) : List FVal :=
  let scale := header % 256
  if scale = 255 then List.replicate 32 .nan
  else (codes.take 32).map fun c => scaleBy (unpack f false c) ((scale : Int) - 127)

/-! ### Block sums (R81-R83) -/

/-- The exact sum of products of one block (R82). -/
def blockSum (as bs : List FVal) : FVal :=
  (List.zip as bs).foldl (fun t ab => fadd .rne t (fmul ab.1 ab.2)) (.fin false 0 0)

/-- An FP32 pattern negated exactly; the NaN stays canonical. -/
def neg32 (t : Nat) : Nat := if isNan (val32 t) then canonNan fp32 else if t < 2 ^ 31 then t + 2 ^ 31 else t - 2 ^ 31

/-- A matrix result with its status bits MNV and MOF (R227). -/
structure MatElem where
  bits : Nat
  mnv : Bool
  mof : Bool
deriving DecidableEq, Repr

/-- One output element of a floating-point format (R82): `acc` when AC is set, already scaled. -/
def matFloat (acc : Option Nat) (neg : Bool) (blocks : List (List FVal × List FVal)) (mnv mof : Bool) : MatElem :=
  let r := blocks.foldl (fun (st : Option Nat × Bool × Bool) ab =>
    let s := blockSum ab.1 ab.2
    let inNan := ab.1.any isNan || ab.2.any isNan
    let inInf := ab.1.any isInf || ab.2.any isInf
    let t0 := rne32 s
    let t := if neg then neg32 t0 else t0
    let nv1 := isNan (val32 t) && !inNan
    let of1 := isInf (val32 t) && !inInf
    match st.1 with
    | none => (some t, st.2.1 || nv1, st.2.2 || of1)
    | some a =>
      let u := add32 a t
      let nv2 := isNan (val32 u) && !isNan (val32 a) && !isNan (val32 t)
      let of2 := isInf (val32 u) && !isInf (val32 a) && !isInf (val32 t)
      (some u, st.2.1 || nv1 || nv2, st.2.2 || of1 || of2)) (acc, mnv, mof)
  ⟨r.1.getD 0, r.2.1, r.2.2⟩

/-- γ · acc rounded (R82), with its status. -/
def scaleAcc (gamma acc : Nat) : MatElem :=
  let p := fmul (val32 gamma) (val32 acc)
  let r := rne32 p
  ⟨r, isNan p && !isNan (val32 gamma) && !isNan (val32 acc),
   isInf (val32 r) && !isInf (val32 gamma) && !isInf (val32 acc)⟩

/-- One output element of an integer format (R83): the value and whether it saturated. -/
def matInt (acc : Int) (sat neg : Bool) (sums : List Int) : Int × Bool :=
  sums.foldl (fun st x =>
    let y := if neg then st.1 - x else st.1 + x
    if sat then
      if y < -(2 ^ 31) then (-(2 ^ 31), true) else if 2 ^ 31 - 1 < y then (2 ^ 31 - 1, true) else (y, st.2)
    else ((BitVec.ofInt 32 y).toInt, st.2)) (acc, false)

end Sys2Proof.Machine
end

