-- ==== Sys2Proof/Machine/Integer.lean ====
section
/-!
DEFINITION. Class I (R108-R133): moves, integer arithmetic, logic, shifts, bit fields, comparisons, predicates,
index registers and special registers.
-/
namespace Sys2Proof.Machine

/-- The roles that class I and class B control words run on (R43, R204), and the groups alone. -/
def anyRole : List Role := [.copy, .matrix, .vector, .control]
def groupRoles : List Role := [.copy, .matrix, .vector]

/-- MOD must be zero. -/
def modZero : Nat → Bool := fun m => m = 0

/-! ### Forms (R109) -/

def formNone : AluForm := ⟨anyRole, .none, .none, .none, .none, .none, false, .never, modZero, [], none⟩
def formA : AluForm := ⟨anyRole, .reg, .any, .none, .none, .none, false, .never, modZero, [], none⟩
def formAB (imm : ImmForm) : AluForm := ⟨anyRole, .reg, .any, .any, .none, imm, false, .never, modZero, [], none⟩
def formABC (imm : ImmForm) (mods : Nat → Bool) : AluForm :=
  ⟨anyRole, .reg, .any, .any, .any, imm, false, .never, mods, [], none⟩
def formDiv (imm : ImmForm) : AluForm := { formAB imm with varLat := some .division }
def formSet (imm : ImmForm) (src : SrcForm) (w : AluW) (topBit : Bool) : AluForm :=
  let bop := field w.mod.toNat 3 2
  ⟨anyRole, .pred, src, src, if bop = 0 then .none else .pred, imm, false, .never,
   fun m => m % 8 < 6 && (topBit || m < 32), [], none⟩
def form64 (imm : ImmForm) : AluForm := ⟨anyRole, .wide, .wide, .wide, .none, imm, false, .never, modZero, [], none⟩

/-- Operands as integers. -/
def sA (x : LaneIn) : Int := (lowHalf x.a).toInt
def sB (x : LaneIn) : Int := (lowHalf x.b).toInt
def sC (x : LaneIn) : Int := (lowHalf x.c).toInt
def uA (x : LaneIn) : Nat := (lowHalf x.a).toNat
def uB (x : LaneIn) : Nat := (lowHalf x.b).toNat
def uC (x : LaneIn) : Nat := (lowHalf x.c).toNat
def rA (x : LaneIn) : Reg32 := lowHalf x.a
def rB (x : LaneIn) : Reg32 := lowHalf x.b
def rC (x : LaneIn) : Reg32 := lowHalf x.c
def outNat (n : Nat) : LaneOut := out32 (BitVec.ofNat 32 n)
def outInt (n : Int) : LaneOut := out32 (w32 n)

/-! ### Moves (R112) -/

def execNop (w : AluW) (s : State) : Out := runAlu formNone w (fun _ => ⟨0, 0⟩) s
def execMov (w : AluW) (s : State) : Out := runAlu formA w (fun x => out32 (rA x)) s
def execMovi (w : AluW) (s : State) : Out :=
  runAlu { formNone with dst := .reg, b := .any, imm := .sign, needImm := true } w (fun x => out32 (rB x)) s
def execMovh (w : AluW) (s : State) : Out :=
  runAlu { formAB .high with needImm := true } w (fun x => out32 (rB x ||| (rA x &&& 0x0000FFFF))) s

/-! ### Addition, subtraction, multiplication (R113) -/

def execIadd (w : AluW) (s : State) : Out := runAlu (formAB .sign) w (fun x => out32 (rA x + rB x)) s
def execIsub (w : AluW) (s : State) : Out := runAlu (formAB .sign) w (fun x => out32 (rA x - rB x)) s
def execIaddc (w : AluW) (s : State) : Out :=
  runAlu (formABC .none fun m => m < 2) w (fun x =>
    let c := (rC x).getLsbD 0
    if x.mod = 1 then outBool (carryOut (rA x) (rB x) c) else outNat (sumCarry (rA x) (rB x) c)) s
def execImul (w : AluW) (s : State) : Out := runAlu (formAB .sign) w (fun x => out32 (rA x * rB x)) s
def execImulh (w : AluW) (s : State) : Out := runAlu (formAB .sign) w (fun x => outInt ((sA x * sB x) / 2 ^ 32)) s
def execImulhu (w : AluW) (s : State) : Out := runAlu (formAB .zero) w (fun x => outNat (uA x * uB x / 2 ^ 32)) s
def execImad (w : AluW) (s : State) : Out :=
  runAlu (formABC .none modZero) w (fun x => outInt (sA x * sB x + sC x)) s
def execImadw (w : AluW) (s : State) : Out :=
  runAlu { formABC .none (fun m => m < 2) with dst := .wide, c := .wide } w (fun x =>
    if x.mod = 1 then out64 (w64 (uA x * uB x + x.c.toNat)) else out64 (w64 (sA x * sB x + x.c.toInt))) s
def execIadds (w : AluW) (s : State) : Out := runAlu (formAB .sign) w (fun x => outInt (clamp32 (sA x + sB x))) s
def execIsubs (w : AluW) (s : State) : Out := runAlu (formAB .sign) w (fun x => outInt (clamp32 (sA x - sB x))) s

/-! ### Division (R114) -/

def execIdiv (w : AluW) (s : State) : Out :=
  runAlu (formDiv .sign) w (fun x => if uB x = 0 then out32 0xFFFFFFFF else outInt (Int.tdiv (sA x) (sB x))) s
def execIdivu (w : AluW) (s : State) : Out :=
  runAlu (formDiv .zero) w (fun x => if uB x = 0 then out32 0xFFFFFFFF else outNat (uA x / uB x)) s
def execIrem (w : AluW) (s : State) : Out :=
  runAlu (formDiv .sign) w (fun x => if uB x = 0 then out32 (rA x) else outInt (Int.tmod (sA x) (sB x))) s
def execIremu (w : AluW) (s : State) : Out :=
  runAlu (formDiv .zero) w (fun x => if uB x = 0 then out32 (rA x) else outNat (uA x % uB x)) s

/-! ### Minimum, maximum, absolute value, distance (R115) -/

def execImin (w : AluW) (s : State) : Out := runAlu (formAB .sign) w (fun x => if sA x ≤ sB x then out32 (rA x) else out32 (rB x)) s
def execImax (w : AluW) (s : State) : Out := runAlu (formAB .sign) w (fun x => if sB x ≤ sA x then out32 (rA x) else out32 (rB x)) s
def execIminu (w : AluW) (s : State) : Out := runAlu (formAB .zero) w (fun x => if uA x ≤ uB x then out32 (rA x) else out32 (rB x)) s
def execImaxu (w : AluW) (s : State) : Out := runAlu (formAB .zero) w (fun x => if uB x ≤ uA x then out32 (rA x) else out32 (rB x)) s
def execIabs (w : AluW) (s : State) : Out := runAlu formA w (fun x => outNat (sA x).natAbs) s
def execIsad (w : AluW) (s : State) : Out :=
  runAlu (formABC .none fun m => m < 2) w (fun x =>
    let d : Int := if x.mod = 1 then (uA x : Int) - uB x else sA x - sB x
    outNat (d.natAbs + uC x)) s

/-! ### Logic and shifts (R116, R117) -/

def execAnd (w : AluW) (s : State) : Out := runAlu (formAB .zero) w (fun x => out32 (rA x &&& rB x)) s
def execOr (w : AluW) (s : State) : Out := runAlu (formAB .zero) w (fun x => out32 (rA x ||| rB x)) s
def execXor (w : AluW) (s : State) : Out := runAlu (formAB .zero) w (fun x => out32 (rA x ^^^ rB x)) s
def execAndn (w : AluW) (s : State) : Out := runAlu (formAB .zero) w (fun x => out32 (rA x &&& ~~~ rB x)) s

/-- The bitwise function of a truth table (R116). -/
def lut3 (lut : Nat) (a b c : Reg32) : Reg32 :=
  BitVec.ofNat 32 ((List.range 32).foldl (fun acc i =>
    let k := (if a.getLsbD i then 4 else 0) + (if b.getLsbD i then 2 else 0) + (if c.getLsbD i then 1 else 0)
    if bitOf lut k then acc + 2 ^ i else acc) 0)
def execLop3 (w : AluW) (s : State) : Out :=
  runAlu { formAB .none with c := .raw, old := .always, extra := if isImm w || w.opc.toNat < 256 then [] else [0x04] } w
    (fun x => out32 (lut3 w.opc.toNat (rA x) (rB x) (lowHalf x.old))) s

def shiftL (a : Reg32) (n : Nat) : Reg32 := if n < 32 then a <<< n else 0
def shiftR (a : Reg32) (n : Nat) : Reg32 := if n < 32 then a >>> n else 0
def shiftA (a : Reg32) (n : Nat) : Reg32 := a.sshiftRight (if n < 32 then n else 31)
def execShl (w : AluW) (s : State) : Out := runAlu (formAB .zero) w (fun x => out32 (shiftL (rA x) (uB x))) s
def execShr (w : AluW) (s : State) : Out := runAlu (formAB .zero) w (fun x => out32 (shiftR (rA x) (uB x))) s
def execSar (w : AluW) (s : State) : Out := runAlu (formAB .zero) w (fun x => out32 (shiftA (rA x) (uB x))) s
def execRot (w : AluW) (s : State) : Out := runAlu (formAB .zero) w (fun x => out32 ((rA x).rotateLeft (uB x % 32))) s
def execFunl (w : AluW) (s : State) : Out :=
  runAlu (formABC .none fun m => m < 2) w (fun x =>
    let t : Word64 := rA x ++ rB x
    let n := uC x % 64
    if x.mod = 1 then out32 (lowHalf (t >>> n)) else out32 (highHalf (t <<< n))) s

/-! ### Bit fields and counting (R118, R119) -/

/-- The bits of a field that begins at `pos` and ends at bit 31 at the latest, as a number; its length. -/
def fieldLen (b : Reg32) : Nat :=
  let pos := field b.toNat 0 8
  let len := field b.toNat 8 8
  if pos < 32 then min (pos + len) 32 - pos else 0
def fieldBits (a b : Reg32) : Nat := field a.toNat (field b.toNat 0 8) (fieldLen b)
def execBfx (w : AluW) (s : State) : Out :=
  runAlu (formAB .zero) w (fun x =>
    let n := fieldLen (rB x)
    let f := fieldBits (rA x) (rB x)
    if n = 0 then out32 0 else outInt (if bitOf f (n - 1) then (f : Int) - 2 ^ n else f)) s
def execBfxu (w : AluW) (s : State) : Out := runAlu (formAB .zero) w (fun x => outNat (fieldBits (rA x) (rB x))) s
def execBfi (w : AluW) (s : State) : Out :=
  runAlu { formABC .zero modZero with old := .immediate } w (fun x =>
    let n := fieldLen (rB x)
    let pos := field (uB x) 0 8
    if n = 0 then out32 (rC x) else out32 (setField (rC x) pos n (uA x))) s

def popCount (a : Reg32) : Nat := (List.range 32).foldl (fun n i => if a.getLsbD i then n + 1 else n) 0
def reverseBits (a : Reg32) : Reg32 :=
  BitVec.ofNat 32 ((List.range 32).foldl (fun n i => if a.getLsbD (31 - i) then n + 2 ^ i else n) 0)
def lowestOne (a : Reg32) : Option Nat := (List.range 32).find? fun i => a.getLsbD i
def execPopc (w : AluW) (s : State) : Out := runAlu formA w (fun x => outNat (popCount (rA x))) s
def execClz (w : AluW) (s : State) : Out :=
  runAlu formA w (fun x => outNat (if uA x = 0 then 32 else 31 - Nat.log2 (uA x))) s
def execBrev (w : AluW) (s : State) : Out := runAlu formA w (fun x => out32 (reverseBits (rA x))) s
def execFfs (w : AluW) (s : State) : Out :=
  runAlu formA w (fun x => match lowestOne (rA x) with | none => out32 0xFFFFFFFF | some n => outNat n) s

/-! ### Comparisons and predicates (R120-R123) -/

/-- The predicate a comparison writes: CMP in MOD[2:0], BOP in MOD[4:3] (R120). -/
def setResult (x : LaneIn) (a b : Int) : LaneOut :=
  outBool (combineBop (field x.mod 3 2) (compareInt (x.mod % 8) a b) (x.c ≠ 0))
def execIset (w : AluW) (s : State) : Out :=
  runAlu (formSet .sign .any w false) w (fun x => setResult x (sA x) (sB x)) s
def execIsetu (w : AluW) (s : State) : Out :=
  runAlu (formSet .zero .any w false) w (fun x => setResult x (uA x) (uB x)) s
def execIset64 (w : AluW) (s : State) : Out :=
  runAlu (formSet .sign64 .wide w true) w (fun x =>
    if bitOf x.mod 5 then setResult x x.a.toNat x.b.toNat else setResult x x.a.toInt x.b.toInt) s
def execPset (w : AluW) (s : State) : Out :=
  runAlu ⟨anyRole, .pred, .pred, .pred, .pred, .none, false, .never,
      fun m => m % 8 < 6 && field m 3 3 < 6, if isImm w then [0x03] else [], none⟩ w (fun x =>
    outBool (predicateOp (field x.mod 3 3) (predicateOp (x.mod % 8) (x.a ≠ 0) (x.b ≠ 0)) (x.c ≠ 0))) s
def execSel (w : AluW) (s : State) : Out :=
  runAlu { formAB .none with c := .pred } w (fun x => if x.c ≠ 0 then out32 (rA x) else out32 (rB x)) s

/-- The form of PMOV its MOD selects, form 00 where OPB is 0x1FF (R25, R123). DESIGN CHOICE (assumption log, entry
49): the reserved form 11 uses OPB no more than form 00 does, so an OPB other than zero records 0x04. -/
def formPmov (w : AluW) : AluForm :=
  let form := if isImm w then 0 else field w.mod.toNat 0 2
  ⟨anyRole, if form = 2 then .pred0 else .pred, .any, if form = 1 then .any else .none, .none, .none, false, .never,
   fun m => m < 3, if isImm w then [0x04] else [], none⟩

/-- All sixteen predicates of the guard-true lanes unpacked from a (R123). -/
def pmovUnpack (w : AluW) (s : State) (g : Group) : Out :=
  let lanes := lanesOf (guardMask g w.head)
  let ws := lanes.flatMap fun l =>
    let a := (readSrc g l false w.opa).toNat
    (List.range 16).map fun n => (⟨.p n, some l, if bitOf a n then 1 else 0⟩ : RegWrite)
  s.fixed g w.head ((s.writeNow s.issuer ((List.range 16).map RegName.p) ws).retire 1)

def execPmov (w : AluW) (s : State) : Out :=
  if field w.mod.toNat 0 2 = 2 && !isImm w then s.issueWord w.head (aluCheck (formPmov w) w) (pmovUnpack w s)
  else runAlu (formPmov w) w (fun x =>
    if x.mod = 1 then outBool ((rA x).getLsbD (uB x % 32)) else outBool (rA x ≠ 0)) s

/-! ### Index registers (R124, R125) -/

/-- The checks of XSET and XADD. -/
def formX : AluForm := ⟨groupRoles, .xreg, .none, .any, .none, .sign, false, .never, modZero, [], none⟩

/-- XSET and XADD in each guard-true lane. -/
def xWrite (w : AluW) (add : Bool) (s : State) (g : Group) : Out :=
  let i := w.dst.toNat
  let g2 := (lanesOf (guardMask g w.head)).foldl (fun g1 l =>
    let b : BitVec 16 := (laneIn g formX w l).b.truncate 16
    modThread g1 l fun t => { t with x := writeX t.x i (if add then readX t.x i + b else b) }) g
  s.fixed g w.head ((s.modUnit s.issuer fun _ => g2).retire 1)
def execXset (w : AluW) (s : State) : Out := s.issueWord w.head (aluCheck formX w) (xWrite w false s)
def execXadd (w : AluW) (s : State) : Out := s.issueWord w.head (aluCheck formX w) (xWrite w true s)

/-- XGET: the index register's number stands in OPA. -/
def formXget (w : AluW) : AluForm :=
  ⟨groupRoles, .vOnly, .raw, .none, .none, .none, false, .never, modZero,
   if w.opa.toNat < 4 then [] else [0x03], none⟩
def xgetGo (w : AluW) (s : State) (g : Group) : Out :=
  let f := formXget w
  let ws := (lanesOf (guardMask g w.head)).flatMap fun l =>
    dstWrites g l false w.dst ((readX (threadAt g l).x w.opa.toNat).signExtend 32 |>.zeroExtend 64)
  s.fixed g w.head ((s.writeNow s.issuer (aluWrites g f w) ws).retire 1)
def execXget (w : AluW) (s : State) : Out := s.issueWord w.head (aluCheck (formXget w) w) (xgetGo w s)

/-! ### Addresses and 64-bit arithmetic (R126, R127) -/

def execLea (w : AluW) (s : State) : Out :=
  runAlu { formAB .sign with mods := fun m => m < 8 } w (fun x => outNat (uA x + uB x * 2 ^ (x.mod % 8))) s
def execLea64 (w : AluW) (s : State) : Out :=
  runAlu ⟨anyRole, .wide, .wide, .any, .none, .sign, false, .never, fun m => m < 16, [], none⟩ w (fun x =>
    let e : Int := if bitOf x.mod 3 then uB x else sB x
    out64 (w64 (x.a.toNat + e * 2 ^ (x.mod % 8)))) s
def execIadd64 (w : AluW) (s : State) : Out := runAlu (form64 .sign64) w (fun x => out64 (x.a + x.b)) s
def execIsub64 (w : AluW) (s : State) : Out := runAlu (form64 .sign64) w (fun x => out64 (x.a - x.b)) s

/-! ### Special registers (R90, R91, R128-R133) -/

/-- The bits of %mstat that SWR changes (R227, R260), and those of %fstat (R69). -/
def mstatWritable : BitVec 32 := 0xFF
def fstatWritable : BitVec 32 := 0x1F

/-- Whether a team runs as a task (R91). -/
def taskTeam (s : State) (tm : Team) : Bool :=
  tm.parent.isSome || ((s.launches[tm.launch]?).map Launch.isTask).getD false

/-- A special register of a group's thread, by its number (R90, R91). -/
def groupSpecial (s : State) (t gi : Nat) (g : Group) (lane n : Nat) : Word64 :=
  match s.teams[t]? with
  | none => 0
  | some tm =>
    let la := s.launches[tm.launch]?
    let w0 := (la.map fun l => l.slot.low.w3.toNat).getD 0
    let nx := field w0 0 24
    let ny := field w0 24 12
    let nz := field w0 36 12
    let task := taskTeam s tm
    let v : Nat := match n with
      | 0x000 => lane
      | 0x001 => 32 * gi + lane
      | 0x002 => gi
      | 0x003 => tm.groups.length
      | 0x004 => if task then tm.tidx else tm.tidx % nx
      | 0x005 => if task then 0 else tm.tidx / nx % ny
      | 0x006 => if task then 0 else tm.tidx / nx / ny
      | 0x007 => if task then 1 else nx
      | 0x008 => if task then 1 else ny
      | 0x009 => if task then 1 else nz
      | 0x00A => tm.vcore / 8 % 6
      | 0x00B => tm.vcore / 48
      | 0x00C => tm.vcore
      | 0x00D => match g.role with | .copy => 0 | .matrix => 1 | _ => 2
      | 0x00E => field tm.taskId.toNat 0 32
      | 0x00F => field tm.taskId.toNat 32 32
      | 0x010 => (la.map fun l => l.seed.toNat).getD 0
      | 0x011 => getField g.gang 0 8
      | 0x012 => g.mstat.toNat
      | 0x013 => (threadAt g lane).status.toNat
      | 0x014 => (la.map Launch.dataVa).getD 0
      | _ => 0
    BitVec.ofNat 64 v

/-- A special register as an agent reads it; a control processor reads its own cluster and die (R133). -/
def specialReg (s : State) (g : Group) (lane n : Nat) : Word64 :=
  match s.issuer with
  | .none => 0
  | .group t gi => groupSpecial s t gi g lane n
  | .handler c => if n = 0x00A then BitVec.ofNat 64 (c % 6) else BitVec.ofNat 64 (c / 6)

/-- Special registers of 64 bits, and those that are not uniform (R90). -/
def special64 (n : Nat) : Bool := n = 0x010 || n = 0x014
def specialPerLane (n : Nat) : Bool := n = 0x000 || n = 0x001 || n = 0x013

/-- The form of SREAD, by the register it names (R128). -/
def formSread (w : AluW) : AluForm :=
  let n := w.opa.toNat
  ⟨anyRole, if special64 n then .wide else .reg, .raw, .none, .none, .none, false, .never, modZero,
   (if n ≤ 0x14 then [] else [0x03]) ++ (if specialPerLane n && isKReg w.dst then [0x0F] else []), none⟩

def sreadCheck (w : AluW) (g : Group) : WordCheck :=
  let k := aluCheck (formSread w) w g
  let n := w.opa.toNat
  { k with details := k.details ++ (if g.role = .control && n ≠ 0x00A && n ≠ 0x00B then [0x10] else []) }

/-- Whether an operation of some kinds is outstanding for an agent (R130). -/
def State.outstanding (s : State) (i : Issuer) (k : OpKind → Bool) : Bool := s.ops.any fun o => o.issuer = i && k o.kind

/-- The kinds of class X (R130, R232). -/
def classX : OpKind → Bool
  | .mma | .obld | .tileReg | .tst | .tepi | .rmap | .tileImage => true
  | _ => false

/-- What SREAD and SWR of %fstat and %mstat wait for (R130). -/
def State.statusBusy (s : State) (n : Nat) : Bool :=
  if n = 0x013 then s.outstanding s.issuer (· = .fpLong)
  else if n = 0x012 then s.outstanding s.issuer classX
  else false

def sreadGo (w : AluW) (s : State) (g : Group) : Out :=
  let f := formSread w
  let n := w.opa.toNat
  if s.statusBusy n then .next (s.holdAt .regWait)
  else
    let lanes := if isKReg w.dst then (lanesOf (guardMask g w.head)).take 1 else lanesOf (guardMask g w.head)
    let ws := lanes.flatMap fun l => dstWrites g l (special64 n) w.dst (specialReg s g l n)
    s.fixed g w.head ((s.writeNow s.issuer (aluWrites g f w) ws).retire 1)
def execSread (w : AluW) (s : State) : Out := s.issueWord w.head (sreadCheck w) (sreadGo w s)

/-- The form of SWR (R129): %mstat is written once for the group. -/
def formSwr (w : AluW) : AluForm :=
  let n := w.opa.toNat
  ⟨groupRoles, .none, .raw, .any, .none, .sign, false, .never, fun m => m < 3,
   (if n = 0x012 || n = 0x013 then [] else [0x03]) ++
   (if n = 0x012 && (w.head.g = 1 || (!isImm w && perThread w.opb)) then [0x0F] else []), none⟩

/-- The operations of SWR under the register's writable bits (R129). -/
def swrOp (wop : Nat) (mask old b : BitVec 32) : BitVec 32 :=
  let new := match wop with | 0 => b | 1 => old &&& ~~~b | _ => old ||| b
  (old &&& ~~~mask) ||| (new &&& mask)

def swrGo (w : AluW) (s : State) (g : Group) : Out :=
  let n := w.opa.toNat
  let wop := if isImm w then 0 else w.mod.toNat
  if s.statusBusy n then .next (s.holdAt .regWait)
  else
    let b (l : Nat) : BitVec 32 := lowHalf (laneIn g (formSwr w) w l).b
    let lanes := lanesOf (guardMask g w.head)
    let g2 := if n = 0x012 then { g with mstat := swrOp wop mstatWritable g.mstat (b (lanes.headD 0)) }
      else lanes.foldl (fun g1 l => modThread g1 l fun t => { t with status := swrOp wop fstatWritable t.status (b l) }) g
    s.fixed g w.head ((s.modUnit s.issuer fun _ => g2).retire 1)
def execSwr (w : AluW) (s : State) : Out := s.issueWord w.head (aluCheck (formSwr w) w) (swrGo w s)

/-- The form of KREAD (R131). -/
def formKread (w : AluW) : AluForm :=
  ⟨groupRoles, .kOnly, .vrel, .kOnly, .none, .sign, false, .never, modZero, noGuard w.head, none⟩
def kreadGo (w : AluW) (s : State) (g : Group) : Out :=
  let f := formKread w
  let n := (lowHalf (laneIn g f w 0).b).toNat
  let v : Word64 := if n < 32 && (issuing g).getLsbD n then readSrc g n false w.opa else 0
  s.fixed g w.head ((s.writeNow s.issuer (aluWrites g f w) (dstWrites g 0 false w.dst v)).retire 1)
def execKread (w : AluW) (s : State) : Out := s.issueWord w.head (aluCheck (formKread w) w) (kreadGo w s)

end Sys2Proof.Machine
end

