-- ==== Sys2Proof/Machine/MemOps.lean ====
section
/-!
DEFINITION. Class M (R180-R198): the checks of its fields, addresses and faults, and the issue of loads, stores,
atomics, fences, tile copies, cache maintenance, FIFO moves and bank switches.
-/
namespace Sys2Proof.Machine

/-! ### Fields (R181, R182) -/

/-- What R181 permits an opcode: sizes, SEM codes, scopes, and whether SX, F and Q may be set. -/
structure MemRule where
  sz : Nat → Bool
  sem : Nat → Bool
  scope : Nat → Bool
  sx : Bool
  f : Bool
  q : Bool

def anyScope : Nat → Bool := fun _ => true
def narrowScope : Nat → Bool := fun n => n < 3
def plainOnly : Nat → Bool := fun n => n = 0

/-- The details of SZ, SX, SEM, SCOPE, F and Q. -/
def memRuleDetails (r : MemRule) (sz sx sem scope f q : Nat) : List Nat :=
  (if 4 < sz then [0x0B] else if r.sz sz then [] else [0x12]) ++
  (if 5 < scope then [0x0B] else if r.scope scope then [] else [0x12]) ++
  (if r.sem sem then [] else [0x12]) ++
  (if sem = 0 && scope ≠ 0 then [0x12] else []) ++
  (if sx = 1 then (if r.sx then (if sz < 2 then [] else [0x12]) else [0x04]) else []) ++
  (if f = 1 && !r.f then [0x04] else []) ++
  (if q = 1 then (if r.q then (if sz < 4 then [] else [0x12]) else [0x04]) else [])

def memDetails (r : MemRule) (w : MemW) : List Nat :=
  memRuleDetails r w.sz.toNat w.sx.toNat w.sem.toNat w.scope.toNat w.f.toNat w.q.toNat

/-- An address register (R180): v, k, relative or zero; `wide` names a pair. -/
def addrDetails (wide : Bool) (a : Spec) : List Nat :=
  match opdOf a with
  | .p _ | .imm | .rsv => [0x03]
  | .v n | .k n => if wide && n % 2 = 1 then [0x03] else []
  | _ => []

/-- A data run of `n` registers, aligned to `n` (R182). -/
def dataDetails (n : Nat) (d : Spec) : List Nat :=
  match opdOf d with
  | .p _ | .imm | .rsv => [0x03]
  | .v m | .k m => if m % n ≠ 0 then [0x03] else []
  | _ => []

/-- Registers of the data run by SZ. -/
def runLen (sz : Nat) : Nat := match sz with | 3 => 2 | 4 => 4 | _ => 1

/-- A k data register needs an address that is not per thread (R182). -/
def kDataDetails (d a : Spec) : List Nat := if isKReg d && isVRel a then [0x0F] else []

/-- The roles other than vector take only k or zero operands in `LD`, `LDC` and `ST` (R184); the control
processor likewise in `LD` and `ST` (R43). -/
def scalarDetails (g : Group) (d a : Spec) : List Nat :=
  if g.role = .vector then []
  else
    let ok (x : Spec) : Bool := isKReg x || x = specZero
    if ok d && ok a then [] else [0x10]

/-- A tag register beyond k63 (R191). -/
def tagDetails (q sz : Nat) (d : Spec) : List Nat :=
  match opdOf d with
  | .k m => if q = 1 && 63 < m + runLen sz then [0x03] else []
  | _ => []

/-- Registers the words of a lane-wise access read and write. -/
def accessReads (g : Group) (h : Head) (ops : List (Spec × Nat)) : List RegName :=
  guardReads h ++ (lanesOf (issuing g)).flatMap fun l => ops.flatMap fun o => regNames g l o.1 o.2
def runWrites (g : Group) (d : Spec) (n : Nat) : List RegName :=
  (lanesOf (issuing g)).flatMap fun l => regNames g l d n

/-- Whether a run, its alignment and a following tag register break a bound in a lane. -/
def runBound (g : Group) (l : Nat) (d : Spec) (n tags : Nat) : Bool :=
  boundFails g l n n d || (tags ≠ 0 && boundFails g l 1 (n + tags) d)

/-! ### Addresses (R180, R183, R187) -/

/-- The space an access goes to. -/
inductive Space where
  | global | scratch | const | priv
deriving DecidableEq, Repr

/-- The exact address of a lane: base plus scaled offset. -/
def laneAddr (g : Group) (l : Nat) (wide : Bool) (a : Spec) (off : BitVec 12) (size : Nat) : Int :=
  (readSrc g l wide a).toNat + off.toInt * size

/-- A thread's private window: its base and its bytes (R449). A spawned task has none. -/
def State.privWindow (s : State) (t grp lane : Nat) : Nat × Nat :=
  match s.teams[t]?, s.launchOf t with
  | some tm, some la =>
    let sz := if tm.parent.isSome then 0 else field la.slot.low.w6.toNat 0 32
    let th := if la.isTask then 32 else la.kernel.threads
    (field la.slot.low.w5.toNat 0 48 + sz * (th * tm.tidx + 32 * grp + lane), sz)
  | _, _ => (0, 0)

/-- A byte of a launch's constant space (R180): the parameters, then the constant section at 4096. DESIGN CHOICE
(assumption log, entry 52): the bytes between PARAMSZ and 4096, which the manual gives no value, read 0. -/
def State.constByte (s : State) (t a : Nat) : Byte :=
  match s.teams[t]?, s.launchOf t with
  | some tm, some la =>
    if a < 4096 then (if taskTeam s tm then tm.arg.getD a 0 else la.params.getD a 0) else la.const.getD (a - 4096) 0
  | _, _ => 0
def State.constSize (s : State) (t : Nat) : Nat := 4096 + ((s.launchOf t).map fun l => l.const.length).getD 0

/-- The team whose view and write set an agent uses; a control processor has none. -/
def State.viewTeam (_s : State) (i : Issuer) : Nat := match i with | .group t _ => t | _ => noTeam
def issuerGroup (i : Issuer) : Nat := match i with | .group _ g => g | _ => 0

/-- A lane's address in global space for the two translated spaces, and its failure of steps 1 to 4 of R187. -/
structure LaneAddr where
  lane : Nat
  addr : Int
  va : Nat
  bad : Option (Nat × Nat × Nat)
deriving DecidableEq, Repr

/-- Steps 1 to 4 of R187 for a lane. -/
def State.laneAddrOf (s : State) (sp : Space) (need : Need) (size lane : Nat) (addr : Int) : LaneAddr :=
  let die := s.coreOf s.issuer / 48
  let ctx := s.ctxOf s.issuer
  let out (va : Nat) (v : Option (Nat × Nat × Nat)) : LaneAddr := ⟨lane, addr, va, v⟩
  let win := s.privWindow (s.viewTeam s.issuer) (issuerGroup s.issuer) lane
  let virt : Nat := match sp with | .priv => (win.1 + addr).toNat | _ => addr.toNat
  if addr % size ≠ 0 then out virt (some (1, cMisalign, 0x01))
  else match sp with
    | .global =>
      if addr < 0 || 2 ^ 48 < addr + size then out addr.toNat (some (2, cXperm, 0x03))
      else out addr.toNat (match s.access die ctx need addr.toNat with | .error e => some e | .ok _ => none)
    | .priv =>
      if addr < 0 || (win.2 : Int) < addr + size then out virt (some (2, cXperm, 0x06))
      else out virt (match s.access die ctx need virt with | .error e => some e | .ok _ => none)
    | .const =>
      if addr < 0 || (s.constSize (s.viewTeam s.issuer) : Int) < addr + size then
        out addr.toNat (some (2, cXperm, 0x05))
      else out addr.toNat none
    | .scratch =>
      match s.teams[s.viewTeam s.issuer]? with
      | none => out addr.toNat (some (2, cXperm, 0x04))
      | some t => out addr.toNat (scratchVerdict t addr size)

/-- Step 5: room in the merge log for what the lanes up to this one write (R421). -/
def State.logVerdict (s : State) (detail size : Nat) (as : List LaneAddr) (x : LaneAddr) : Option (Nat × Nat × Nat) :=
  let die := s.coreOf s.issuer / 48
  let ctx := s.ctxOf s.issuer
  let team := s.viewTeam s.issuer
  let home (y : LaneAddr) : Option Nat := match s.translate die ctx y.va with
    | .ok pa leaf _ _ => if s.toView team leaf then some (homeDie pa) else none
    | _ => none
  match home x with
  | none => none
  | some d =>
    let n := (as.filter fun y => y.lane ≤ x.lane && home y = some d).length
    if s.logRoom (d * dieBytes) (n * size) then none else some (5, cMergeovf, detail)

/-- The verdict of the lanes of an access: steps 1 to 4, then step 5 for a write. -/
def State.judgeLanes (s : State) (as : List LaneAddr) (logDetail size : Nat) :
    Option (Nat × Nat × BitVec 32 × Nat) :=
  judge (as.map LaneAddr.lane) fun l => match as.find? fun a => a.lane = l with
    | none => none
    | some a => match a.bad with
      | some b => some b
      | none => if logDetail = 0 then none else s.logVerdict logDetail size as a

/-- A class fault taken: its mask, and the address of the lowest failing lane (R187). -/
def State.memFault (s : State) (as : List LaneAddr) (f : Nat × Nat × BitVec 32 × Nat) : State :=
  s.fault s.issuer f.1 f.2.1 f.2.2.1 (((as.find? fun a => a.lane = f.2.2.2).map LaneAddr.va).getD 0)

/-! ### Waiting before an access (R378, R379) -/

/-- Whether a request enters bytes or a contribution in the set of an ordered task (R190, R420). -/
def changesSet : ReqKind → Bool | .write | .zero | .atomic | .red => true | _ => false

/-- Whether a request changes what a home slice holds or does. -/
def isWrite : ReqKind → Bool | .read | .pref => false | _ => true

/-- The writes of some groups of a team, and those that they have read or acquired, not yet acknowledged (R381). -/
def State.writesSeen (s : State) (t : Nat) (gs : List Nat) : List Req :=
  let seen := gs.flatMap fun g => ((s.group? t g).map Group.seen).getD []
  s.reqs.filter fun r => isWrite r.kind && !r.acked && ((r.team = t && gs.contains r.grp) || seen.contains r.id)
def State.groupsOf (s : State) (t : Nat) : List Nat := List.range (((s.teams[t]?).map fun x => x.groups.length).getD 0)

/-- Whether a write of an agent's visible set, older than some request, is not yet acknowledged at its home slice (R381). -/
def State.visibleOut (s : State) (i : Issuer) (n : Nat) : Bool :=
  match i with
  | .group t g => (s.writesSeen t [g]).any fun r => r.id < n
  | _ => s.reqs.any fun r => isWrite r.kind && !r.acked && r.id < n &&
      r.op.any fun o => s.ops.any fun p => p.id = o && p.issuer = i

/-- Whether a class M operation has still to return a value, or to write bytes that no request carries. -/
def readsPending (o : Op) : Bool :=
  o.kind = .mem &&
  ((match o.effect with | .load _ | .atomic _ | .tileLoad .. => true | _ => false) ||
   o.todo.any fun m => match m with | .padRead .. | .padAtomic .. | .padFill .. => true | _ => false)
def writesPending (o : Op) : Bool :=
  o.kind = .mem &&
  ((match o.effect with | .tileStore .. => true | _ => false) ||
   o.todo.any fun m => match m with | .padWrite .. | .padAtomic .. | .store .. => true | _ => false)
def State.readsOut (s : State) (i : Issuer) : Bool := s.ops.any fun o => o.issuer = i && readsPending o
def State.writesOut (s : State) (i : Issuer) : Bool := s.ops.any fun o => o.issuer = i && writesPending o

/-- Whether a bank switch is to clear bytes of a publication region of its team (R198, R320). -/
def State.clearsPublished (s : State) (o : Op) : Bool :=
  match o.issuer, o.effect with
  | .group t _, .bank b _ => s.subs.any fun x => x.publisher = t && x.state ≠ .ended && overlap x.pubOffset x.len (32768 * b) 32768
  | _, _ => false

/-- Whether updates produced by an agent's writes are on their way, or still to come of a bank it clears (R320, R329). -/
def State.publishing (s : State) (i : Issuer) : Bool :=
  match i with
  | .group t g => s.updatesOut t g || s.ops.any fun o => o.issuer = i && s.clearsPublished o
  | _ => false

/-- Whether a release at a scope may take effect (R378, R192): the agent's earlier loads have returned and its scratchpad
writes and tile stores are made, and at cluster scope or wider its visible set is acknowledged and its updates are
applied (R329). -/
def State.released (s : State) (i : Issuer) (scope : Nat) : Bool :=
  !s.readsOut i && !s.writesOut i && (scope < 2 || (!s.visibleOut i s.nextId && !s.publishing i))

/-- Whether an acquire of the agent is still outstanding: later accesses wait for it (R379). -/
def State.acquiring (s : State) (i : Issuer) : Bool := s.ops.any fun o => o.issuer = i && o.acquire.isSome

/-- Whether SEM has an acquire, or a release, component (R35). -/
def semAcq (sem : Nat) : Bool := sem = 1 || sem = 3
def semRel (sem : Nat) : Bool := sem = 2 || sem = 3

/-- Why a memory word is held at issue, if it is: its flag is full, an acquire is outstanding, or its own release
has not taken effect. -/
def State.memHold (s : State) (g : Group) (h : Head) (sem scope : Nat) : Option Hold :=
  if flagBlocked g (selectedFlag g h.fs) then some .flagFull
  else if s.acquiring s.issuer then some .fence
  else if semRel sem && !s.released s.issuer scope then some .fence
  else none

/-! ### Requests -/

/-- A request of a lane (R338), at the start of its route. -/
def State.mkReq (s : State) (op : Option Nat) (lane va pa : Nat) (leaf : Word64) (kind : ReqKind) (size : Nat) (data : List Byte)
    (compare : Word64) (aop : Nat) (plain : Bool) : Req :=
  let core := s.coreOf s.issuer
  { id := s.nextId, op := op, lane := lane, team := s.viewTeam s.issuer, grp := issuerGroup s.issuer,
    core := core, ctx := s.ctxOf s.issuer, kind := kind, va := va, pa := pa, leaf := leaf, size := size,
    data := data,
    compare := compare, aop := aop, ord := s.toView (s.viewTeam s.issuer) leaf, hops := s.route core pa,
    place := coreStop core, order := s.nextId, dated := false, sends := 0,
    incarnation := ((s.dies[core / 48]?).map Die.inc).getD 0, performed := false, waitingFill := false,
    acked := false, plain := plain, result := [], tag := 0 }

/-- One request appended. -/
def State.addReq (s : State) (r : Req) : State := { s with reqs := s.reqs ++ [r], nextId := s.nextId + 1 }

/-- The translation of an address that passed its checks. -/
def State.paOf (s : State) (va : Nat) : Nat × Word64 :=
  match s.translate (s.coreOf s.issuer / 48) (s.ctxOf s.issuer) va with
  | .ok pa leaf _ _ => (pa, leaf)
  | _ => (0, 0)

/-- The requests of the lanes of an access, in ascending lane order; writes to views reserve log space. -/
def State.sendLanes (s : State) (op : Nat) (as : List LaneAddr) (kind : ReqKind) (size aop : Nat) (plain : Bool)
    (data : Nat → List Byte) (compare : Nat → Word64) : State :=
  as.foldl (fun s a =>
    let p := s.paOf a.va
    let r := s.mkReq (some op) a.lane a.va p.1 p.2 kind size (data a.lane) (compare a.lane) aop plain
    let s := if r.ord && changesSet kind then s.reserveLog (kind = .red) (s.viewTeam s.issuer) p.1 size else s
    s.addReq r) s

/-- The bytes of a lane's data run, low register first; zero supplies zeros (R182). -/
def dataBytes (g : Group) (l : Nat) (d : Spec) (size : Nat) : List Byte :=
  (List.range (runLen 4)).flatMap (fun j => bytesOfNat 4 (readOpd g l d j).toNat) |>.take size

/-- The destinations of a lane's run, and the first of them. -/
def runDests (g : Group) (l : Nat) (d : Spec) (n : Nat) : List (RegName × Option Nat) :=
  (regNames g l d n).map fun r => match r with | .k _ => (r, none) | _ => (r, some l)
def nthName (g : Group) (l : Nat) (d : Spec) (j : Nat) : Option RegName := (regNames g l d (j + 1)).getLast?

/-- The load destinations of the lanes of an access. -/
def loadDests (g : Group) (as : List LaneAddr) (d : Spec) (size tag : Nat) (signed q : Bool) :
    List (Nat × LoadDest) :=
  as.filterMap fun a => match regNames g a.lane d 1 with
    | [] => none
    | r :: _ =>
      let lane := match r with | .k _ => none | _ => some a.lane
      some (a.lane, ⟨r, lane, size, signed, if q then nthName g a.lane d tag else none⟩)

/-- The lanes a word acts in: one for a group-uniform word. -/
def actLanes (g : Group) (h : Head) (d : Spec) : List Nat :=
  if isKReg d then (lanesOf (guardMask g h)).take 1 else lanesOf (guardMask g h)

/-- The lanes that are judged: every guard-true lane. -/
def judgedAddrs (s : State) (g : Group) (h : Head) (sp : Space) (need : Need) (wide : Bool) (a : Spec)
    (off : BitVec 12) (size : Nat) : List LaneAddr :=
  (lanesOf (guardMask g h)).map fun l => s.laneAddrOf sp need size l (laneAddr g l wide a off size)

/-! ### Loads (R188) -/

def sizeOf (sz : Nat) : Nat := 2 ^ sz
def allRoles : List Role := anyRole

/-- The checks of a load or store: fields, operands, hazard reads, bounds. -/
def memCheck (r : MemRule) (roles : List Role) (wide store : Bool) (w : MemW) (g : Group) : WordCheck :=
  let n := runLen w.sz.toNat
  let ops := (w.a, if wide then 2 else 1) :: (if store then [(w.d, n)] else [])
  { details := headDetails g w.head roles true false ++ memDetails r w ++ addrDetails wide w.a ++
      dataDetails n w.d ++ kDataDetails w.d w.a ++ tagDetails w.q.toNat w.sz.toNat w.d ++ scalarDetails g w.d w.a ++
      (if w.sub = 0 then [] else [0x12]) ++
      (if (!store || w.q = 1) && isKReg w.d && g.role ≠ .control then noGuard w.head else []) ++
      hazardDetails g (accessReads g w.head ops)
    bank := false
    bound := fun l => boundFails g l (if wide then 2 else 1) (if wide then 2 else 1) w.a ||
      runBound g l w.d n (if w.q = 1 then 1 else 0) }

/-- Constant data, which does not change: read at issue. -/
def State.constBytes (s : State) (addr n : Nat) : List Byte :=
  (List.range n).map fun i => s.constByte (s.viewTeam s.issuer) (addr + i)

/-- The register value of loaded bytes: zero- or sign-extended below 32 bits (R182). -/
def extendBytes (bs : List Byte) (signed : Bool) : Nat :=
  let v := natOfBytes bs
  if signed && bs.length < 4 && bitOf v (8 * bs.length - 1) then v + 2 ^ 32 - 2 ^ (8 * bs.length) else v

/-- The register writes of one loaded value. -/
def loadWrites (bs : List Byte) (d : LoadDest) (tag : Nat) : List RegWrite :=
  let v := extendBytes bs d.signed
  let next (r : RegName) (j : Nat) : RegName := match r with | .v n => .v (n + j) | .k n => .k (n + j) | p => p
  ((List.range ((d.size + 3) / 4)).map fun j => ⟨next d.reg j, d.lane, BitVec.ofNat 32 (v / 2 ^ (32 * j))⟩) ++
  (match d.tagReg with | some r => [⟨r, d.lane, BitVec.ofNat 32 tag⟩] | none => [])

/-- Whether an access waits for a bank switch of its team (R198). -/
def State.bankBusy (s : State) (t : Nat) (banks : List Nat) : Bool :=
  s.ops.any fun o => o.kind = .bankSwitch && (match o.issuer with | .group u _ => u = t | _ => false) &&
    (match o.effect with | .bank b _ => banks.contains b | _ => false)
def banksOf (as : List LaneAddr) (size : Nat) : List Nat :=
  as.flatMap fun a => [a.addr.toNat / 32768, (a.addr.toNat + size - 1) / 32768]

/-- A load issued (R188). -/
def loadGo (sp : Space) (w : MemW) (s : State) (g : Group) : Out :=
  let size := sizeOf w.sz.toNat
  let wide := sp = .global
  let as := judgedAddrs s g w.head sp needR wide w.a w.off size
  let banks := if sp = .scratch then banksOf as size else []
  if s.bankBusy (s.viewTeam s.issuer) banks then .next (s.holdAt .regWait)
  else match s.judgeLanes as 0 size with
  | some f => .next (s.memFault as f)
  | none => match s.memHold g w.head w.sem.toNat w.scope.toNat with
    | some h => .next (s.holdAt h)
    | none =>
      let names := runWrites g w.d (runLen w.sz.toNat)
      let flag := selectedFlag g w.head.fs
      let act := as.filter fun a => (actLanes g w.head w.d).contains a.lane
      if act = [] then .next ((s.emptyOp names flag).retire 1)
      else
        let dests := loadDests g act w.d size 0 (w.sx = 1) false
        let op := { Op.blank s.nextId s.issuer .mem flag with
          dests := act.flatMap fun a => runDests g a.lane w.d (runLen w.sz.toNat)
          acquire := if semAcq w.sem.toNat then some w.scope.toNat else none
          effect := .load dests }
        match sp with
        | .global | .priv =>
          let s1 := s.cacheTrans (s.coreOf s.issuer / 48) (s.ctxOf s.issuer) (act.map LaneAddr.va)
          let s2 := s1.launchOp names op
          let plain := !(semAcq w.sem.toNat && 2 ≤ w.scope.toNat) && g.role ≠ .control
          .next ((s2.sendLanes op.id act .read size 0 plain (fun _ => []) fun _ => 0).retire 1)
        | .scratch =>
          let ms := act.filterMap fun a => (dests.find? fun d => d.1 = a.lane).map fun d => Move.padRead a.addr.toNat d.2
          .next ((s.launchOp names { op with todo := ms, effect := .none }).retire 1)
        | .const =>
          let ws := act.flatMap fun a => match dests.find? fun d => d.1 = a.lane with
            | some d => loadWrites (s.constBytes a.addr.toNat size) d.2 0
            | none => []
          .next ((s.launchOp names { op with writes := ws, effect := .none }).retire 1)

def ruleLd : MemRule := ⟨fun _ => true, fun n => n < 2, anyScope, true, true, false⟩
def ruleLds : MemRule := { ruleLd with scope := narrowScope }
def ruleLdc : MemRule := { ruleLd with sem := plainOnly, scope := plainOnly }
def execLd (w : MemW) (s : State) : Out := s.issueWord w.head (memCheck ruleLd allRoles true false w) (loadGo .global w s)
def execLds (w : MemW) (s : State) : Out := s.issueWord w.head (memCheck ruleLds [.vector] false false w) (loadGo .scratch w s)
def execLdc (w : MemW) (s : State) : Out := s.issueWord w.head (memCheck ruleLdc groupRoles false false w) (loadGo .const w s)
def execLdx (w : MemW) (s : State) : Out := s.issueWord w.head (memCheck ruleLdc [.vector] false false w) (loadGo .priv w s)

/-! ### Stores (R188, R191) -/

/-- A store issued (R188); a k data register of `ST.SQ` makes the word group-uniform, since its tag register is a k
destination (R24, R191). -/
def storeGo (sp : Space) (w : MemW) (s : State) (g : Group) : Out :=
  let size := sizeOf w.sz.toNat
  let wide := sp = .global
  let as := judgedAddrs s g w.head sp needW wide w.a w.off size
  let banks := if sp = .scratch then banksOf as size else []
  if s.bankBusy (s.viewTeam s.issuer) banks then .next (s.holdAt .regWait)
  else match s.judgeLanes as (if sp = .scratch then 0 else 1) size with
  | some f => .next (s.memFault as f)
  | none => match s.memHold g w.head w.sem.toNat w.scope.toNat with
    | some h => .next (s.holdAt h)
    | none =>
      let flag := selectedFlag g w.head.fs
      let n := runLen w.sz.toNat
      let q := w.q = 1 && w.d ≠ specZero
      let tagNames := if q then (lanesOf (issuing g)).filterMap fun l => nthName g l w.d n else []
      let as := if q then as.filter fun a => (actLanes g w.head w.d).contains a.lane else as
      if as = [] then .next ((s.emptyOp tagNames flag).retire 1)
      else
        let dests := if q then loadDests g as w.d size n false true else []
        let op := { Op.blank s.nextId s.issuer .mem flag with
          dests := if q then as.filterMap fun a => (nthName g a.lane w.d n).map fun r =>
            match r with | .k _ => (r, none) | _ => (r, some a.lane) else []
          release := if semRel w.sem.toNat then some w.scope.toNat else none
          effect := if q then .atomic (dests.map fun d => (d.1, { d.2 with size := 0 })) else .none }
        match sp with
        | .scratch =>
          let ms := as.map fun a => Move.padWrite a.addr.toNat (dataBytes g a.lane w.d size)
          .next ((s.launchOp [] { op with todo := ms }).retire 1)
        | _ =>
          let s1 := s.cacheTrans (s.coreOf s.issuer / 48) (s.ctxOf s.issuer) (as.map LaneAddr.va)
          let s2 := s1.launchOp tagNames op
          .next ((s2.sendLanes op.id as .write size 0 false (fun l => dataBytes g l w.d size) fun _ => 0).retire 1)

def ruleSt : MemRule := ⟨fun _ => true, fun n => n = 0 || n = 2, anyScope, false, false, true⟩
def ruleSts : MemRule := { ruleSt with scope := narrowScope, q := false }
def ruleStx : MemRule := { ruleSt with sem := plainOnly, scope := plainOnly, q := false }
def execSt (w : MemW) (s : State) : Out := s.issueWord w.head (memCheck ruleSt allRoles true true w) (storeGo .global w s)
def execSts (w : MemW) (s : State) : Out := s.issueWord w.head (memCheck ruleSts [.vector] false true w) (storeGo .scratch w s)
def execStx (w : MemW) (s : State) : Out := s.issueWord w.head (memCheck ruleStx [.vector] false true w) (storeGo .priv w s)

/-! ### Atomics and reductions (R189-R191) -/

/-- The rule of an atomic opcode: SEM codes, scopes, Q. -/
structure AtomRule where
  sem : Nat → Bool
  scope : Nat → Bool
  q : Bool
  wide : Bool
  red : Bool

def atomDetails (r : AtomRule) (w : AtomW) : List Nat :=
  (if 1 < w.sz.toNat then [0x0B] else []) ++
  (if 12 < w.aop.toNat then [0x0B] else []) ++
  (if 5 < w.scope.toNat then [0x0B] else if r.scope w.scope.toNat then [] else [0x12]) ++
  (if r.sem w.sem.toNat then [] else [0x12]) ++
  (if w.sem = 0 && w.scope ≠ 0 then [0x12] else []) ++
  (if w.q = 1 && !r.q then [0x04] else []) ++
  (if w.rsv = 0 then [] else [0x04]) ++
  (if r.red then dstDetails .none w.d ++ (if w.aop = 8 || w.aop = 9 then [0x12] else []) else [])

/-- A k destination needs a k or zero address and operand (R189). -/
def atomUniform (w : AtomW) : List Nat :=
  if isKReg w.d then
    (if perThread w.a || perThread w.b then [0x0F] else []) ++ noGuard w.head
  else []

def atomRun (w : AtomW) : Nat := if w.sz = 1 then 2 else 1
def atomCheck (r : AtomRule) (w : AtomW) (g : Group) : WordCheck :=
  let n := atomRun w
  let ops := [(w.a, if r.wide then 2 else 1), (w.b, n)] ++ (if w.aop = 9 && !r.red then [(w.d, n)] else [])
  { details := headDetails g w.head [.vector] true false ++ atomDetails r w ++ addrDetails r.wide w.a ++
      srcDetails (if n = 2 then .wide else .any) w.b ++ (if r.red then [] else dataDetails n w.d) ++ atomUniform w ++
      (match opdOf w.d with | .k m => if w.q = 1 && 63 < m + n then [0x03] else [] | _ => []) ++
      hazardDetails g (accessReads g w.head ops)
    bank := false
    bound := fun l => boundFails g l (if r.wide then 2 else 1) (if r.wide then 2 else 1) w.a || boundFails g l n n w.b ||
      runBound g l w.d n (if w.q = 1 then 1 else 0) }

/-- An operand of `n` registers as a number. -/
def runValue (g : Group) (l : Nat) (d : Spec) (n : Nat) : Nat := (readSrc g l (n = 2) d).toNat

/-- The lanes of an atomic on scratchpad, ascending (R189). -/
def atomMoves (w : AtomW) (g : Group) (as : List LaneAddr) (dests : List (Nat × LoadDest)) : List Move :=
  let n := atomRun w
  as.map fun a => .padAtomic a.addr.toNat w.aop.toNat (n = 2) (runValue g a.lane w.b n) (runValue g a.lane w.d n)
    ((dests.find? fun d => d.1 = a.lane).map Prod.snd)

def atomGo (r : AtomRule) (w : AtomW) (s : State) (g : Group) : Out :=
  let n := atomRun w
  let size := 4 * n
  let sp : Space := if r.wide then .global else .scratch
  let need := { needRW with aop := some w.aop.toNat }
  let as := judgedAddrs s g w.head sp need r.wide w.a 0 size
  let banks := if sp = .scratch then banksOf as size else []
  if s.bankBusy (s.viewTeam s.issuer) banks then .next (s.holdAt .regWait)
  else match s.judgeLanes as (if r.wide then (if r.red then 2 else 1) else 0) size with
  | some f => .next (s.memFault as f)
  | none => match s.memHold g w.head w.sem.toNat w.scope.toNat with
    | some h => .next (s.holdAt h)
    | none =>
      let flag := selectedFlag g w.head.fs
      let q := w.q = 1 && w.d ≠ specZero
      let names := if r.red then [] else runWrites g w.d (if q then n + 1 else n)
      let act := as.filter fun a => (actLanes g w.head w.d).contains a.lane
      if act = [] then .next ((s.emptyOp names flag).retire 1)
      else
        let dests := if r.red then [] else loadDests g act w.d size n false q
        let op := { Op.blank s.nextId s.issuer .mem flag with
          dests := if r.red then [] else act.flatMap fun a => runDests g a.lane w.d (if q then n + 1 else n)
          acquire := if semAcq w.sem.toNat then some w.scope.toNat else none
          release := if semRel w.sem.toNat then some w.scope.toNat else none
          effect := .atomic dests }
        if r.wide then
          let s1 := s.cacheTrans (s.coreOf s.issuer / 48) (s.ctxOf s.issuer) (act.map LaneAddr.va)
          let seq0 := ((s.teams[s.viewTeam s.issuer]?).map Team.seq).getD 0
          let s2 := s1.launchOp names op
          let cmp (l : Nat) : Word64 :=
            if r.red then BitVec.ofNat 64 (seq0 + (act.filter fun a => a.lane < l).length)
            else BitVec.ofNat 64 (runValue g l w.d n)
          let s3 := s2.sendLanes op.id act (if r.red then .red else .atomic) size w.aop.toNat false
            (fun l => bytesOfNat size (runValue g l w.b n)) cmp
          let s4 := if r.red then s3.modTeam (s.viewTeam s.issuer) fun t => { t with seq := t.seq + act.length } else s3
          .next (s4.retire 1)
        else .next ((s.launchOp names { op with todo := atomMoves w g act dests, effect := .none }).retire 1)

def ruleAtom : AtomRule := ⟨fun _ => true, anyScope, true, true, false⟩
def ruleAtoms : AtomRule := ⟨fun _ => true, narrowScope, false, false, false⟩
def ruleRed : AtomRule := ⟨fun n => n = 0 || n = 2, anyScope, false, true, true⟩
def execAtom (w : AtomW) (s : State) : Out := s.issueWord w.head (atomCheck ruleAtom w) (atomGo ruleAtom w s)
def execAtoms (w : AtomW) (s : State) : Out := s.issueWord w.head (atomCheck ruleAtoms w) (atomGo ruleAtoms w s)
def execRed (w : AtomW) (s : State) : Out := s.issueWord w.head (atomCheck ruleRed w) (atomGo ruleRed w s)

/-! ### FENCE (R192, R378, R379) -/

def ruleFence : MemRule := ⟨plainOnly, fun n => n ≠ 0, anyScope, false, false, false⟩
def fenceCheck (w : MemW) (g : Group) : WordCheck :=
  { details := headDetails g w.head groupRoles false false ++ memDetails ruleFence w ++ srcDetails .none w.d ++
      srcDetails .none w.a ++ (if w.off = 0 then [] else [0x04]) ++ (if w.sub = 0 then [] else [0x12]) ++
      hazardDetails g (guardReads w.head)
    bank := false
    bound := fun _ => false }

/-- The acquire of an agent at a scope (R192, R381): its visible set takes in that of every release of its team (a release at
cluster scope or wider leaves nothing to wait for), and at cluster scope or wider its core's L1 is invalidated. DESIGN CHOICE
(assumption log, entry 57): the acquire takes in what every group of its team has written and read, whether or not it read
their release. -/
def State.acquireAt (s : State) (scope : Nat) : State :=
  let s1 := match s.issuer with
    | .group t g => match (s.writesSeen t (s.groupsOf t)).map Req.id with
      | [] => s
      | ids => s.modGroup t g fun x => { x with seen := ids }
    | _ => s
  if 2 ≤ scope then s1.l1DropCore (s.coreOf s.issuer) else s1

/-- Class X writes that a release waits for: not those of `TST` and `TEPI`, which are engine commands (R192, R226, R371), but
those of `TSAVE` (R250). -/
def State.matrixOut (s : State) (i : Issuer) : Bool :=
  s.outstanding i fun k => classX k && k ≠ .tst && k ≠ .tepi && k ≠ .rmap

/-- Whether a fence holds the group (R192, R226, R378, R379). -/
def State.fenceHolds (s : State) (sem scope : Nat) : Bool :=
  (semRel sem && (!s.released s.issuer scope || s.matrixOut s.issuer)) || (semAcq sem && (s.readsOut s.issuer || s.acquiring s.issuer))

def fenceGo (w : MemW) (s : State) (g : Group) : Out :=
  if s.fenceHolds w.sem.toNat w.scope.toNat then .next (s.holdAt .fence)
  else s.fixed g w.head ((if semAcq w.sem.toNat then s.acquireAt w.scope.toNat else s).retire 1)
def execFence (w : MemW) (s : State) : Out := s.issueWord w.head (fenceCheck w) (fenceGo w s)

/-! ### Tile copies (R193, R194) -/

def tilePred (w : MemW) : Nat := field w.off.toNat 8 4
def tileBytes (w : MemW) : Nat := 32 * (field w.off.toNat 1 7 + 1)
def tileRule (store : Bool) : MemRule :=
  ⟨plainOnly, fun n => n = 0 || n = (if store then 2 else 1), anyScope, false, false, false⟩

/-- A k register, or an ILLEGAL detail (R193). -/
def kOnlyDetails (even : Bool) (a : Spec) : List Nat :=
  match opdOf a with
  | .k n => if even && n % 2 = 1 then [0x03] else []
  | .v _ | .p _ | .rel .. => [0x0F]
  | _ => [0x03]

def tileCheck (store : Bool) (w : MemW) (g : Group) : WordCheck :=
  { details := headDetails g w.head [.vector] true false ++ memDetails (tileRule store) w ++ noGuard w.head ++
      kOnlyDetails false w.d ++ kOnlyDetails true w.a ++
      (if w.off.getLsbD 0 || field w.sub.toNat 1 2 ≠ 0 then [0x04] else []) ++
      (if tilePred w ≠ 0 && (store || w.sub.toNat % 2 = 0) then [0x12] else []) ++
      hazardDetails g (accessReads g w.head [(w.d, 1), (w.a, 2)])
    bank := false
    bound := fun _ => false }

/-- The verdict of a tile copy: alignment, bounds, translation, bank mode. -/
def State.tileVerdict (s : State) (store : Bool) (scr : Nat) (ga len : Nat) (aon : Bool) : Option (Nat × Nat × Nat) :=
  let die := s.coreOf s.issuer / 48
  let ctx := s.ctxOf s.issuer
  let sv := match s.teams[s.viewTeam s.issuer]? with
    | some t => scratchVerdict t scr len
    | none => some (2, cXperm, 0x04)
  worstVerdict
    [if scr % 32 ≠ 0 || ga % 32 ≠ 0 then some (1, cMisalign, 0x02) else none,
     if 2 ^ 48 < ga + 32 + len then some (2, cXperm, 0x03) else none,
     if 2 ^ 48 < ga + 32 + len then none
     else if aon then s.extentVerdict die ctx (if store then needRW else needR) ga 8 else none,
     if 2 ^ 48 < ga + 32 + len then none
     else s.extentVerdict die ctx (if store then needW else needR) (ga + 32) len,
     sv]

/-- The pieces of an extent by 4 KiB granule, the unit of interleaving (R410). -/
def granules (va n : Nat) : List (Nat × Nat) :=
  if n = 0 then []
  else (List.range ((va + n - 1) / 4096 - va / 4096 + 1)).map fun i =>
    let a := if i = 0 then va else (va / 4096 + i) * 4096
    (a, min ((a / 4096 + 1) * 4096) (va + n) - a)

/-- The bytes of some written extents that go to the issuer's write set, by die. -/
def State.setPieces (s : State) (rows : List (Nat × Nat)) : List (Nat × Nat) :=
  (rows.flatMap fun r => granules r.1 r.2).filterMap fun g =>
    let p := s.paOf g.1
    if s.toView (s.viewTeam s.issuer) p.2 then some (homeDie p.1, g.2) else none

/-- Merge-log room for some written extents, and its reservation (R421). -/
def State.rowsLog (s : State) (detail : Nat) (rows : List (Nat × Nat)) : Option (Nat × Nat × Nat) :=
  let ps := s.setPieces rows
  if (List.range 3).any fun d => !s.logRoom (d * dieBytes) ((ps.filter fun p => p.1 = d).map Prod.snd).sum then
    some (5, cMergeovf, detail)
  else none
def State.reserveRows (s : State) (held : Bool) (rows : List (Nat × Nat)) : State :=
  (s.setPieces rows).foldl (fun s p => s.reserveLog held (s.viewTeam s.issuer) (p.1 * dieBytes) p.2) s

/-- The extents that `STT` writes: its rows, and with `.AON` the version word (R194). -/
def tileRows (ga len : Nat) (aon : Bool) : List (Nat × Nat) := (ga + 32, len) :: if aon then [(ga, 8)] else []

/-- Whether a class M operation has still to write scratchpad, and whether one of an agent has: what its `STT` and its `SPAWN`
read (R188, R300). -/
def padPending (o : Op) : Bool :=
  o.kind = .mem &&
  ((match o.effect with | .tileLoad .. => true | _ => false) ||
   o.todo.any fun m => match m with | .padWrite .. | .padAtomic .. | .padFill .. => true | _ => false)
def State.padWrites (s : State) (i : Issuer) : Bool := s.ops.any fun o => o.issuer = i && padPending o

def tileGo (store : Bool) (w : MemW) (s : State) (g : Group) : Out :=
  let scr := (readSrc g 0 false w.d).toNat
  let ga := (readSrc g 0 true w.a).toNat
  let len := tileBytes w
  let aon := w.sub.toNat % 2 = 1
  let lanes := issuing g
  if s.bankBusy (s.viewTeam s.issuer) ((List.range 2).map fun i => (scr + i * (len - 1)) / 32768) ||
      (store && s.padWrites s.issuer) then
    .next (s.holdAt .regWait)
  else match worstVerdict [s.tileVerdict store scr ga len aon, if store then s.rowsLog 1 (tileRows ga len aon) else none] with
  | some v => .next (s.fault s.issuer v.2.1 v.2.2 lanes ga)
  | none => match s.memHold g w.head w.sem.toNat w.scope.toNat with
    | some h => .next (s.holdAt h)
    | none =>
      let flag := selectedFlag g w.head.fs
      let s1 := s.cacheTrans (s.coreOf s.issuer / 48) (s.ctxOf s.issuer) (pagesOf ga (32 + len))
      let es := s.transFor (s.coreOf s.issuer / 48) (s.ctxOf s.issuer) (pagesOf ga (32 + len))
      if store then
        let data := match s.teams[s.viewTeam s.issuer]? with | some t => scratchRead t scr len | none => []
        let s2 := s1.reserveRows false (tileRows ga len aon)
        let op := { Op.blank s.nextId s.issuer .mem flag with
          release := if semRel w.sem.toNat then some w.scope.toNat else none
          trans := es
          todo := if aon then [] else storeMoves [(ga + 32, data)]
          effect := if aon then .tileStore ga data 0 else .none }
        .next ((s2.launchOp [] op).retire 1)
      else
        let names := if aon then [RegName.p (tilePred w)] else []
        let op := { Op.blank s.nextId s.issuer .mem flag with
          dests := if aon then (lanesOf lanes).map fun l => (RegName.p (tilePred w), some l) else []
          acquire := if semAcq w.sem.toNat then some w.scope.toNat else none
          writes := if aon then (lanesOf lanes).map fun l => ⟨.p (tilePred w), some l, 0⟩ else []
          trans := es
          todo := if aon then [] else fillMoves (ga + 32) scr len
          effect := if aon then .tileLoad scr ga len 0 none else .none }
        .next ((s1.launchOp names op).retire 1)
def execLdt (w : MemW) (s : State) : Out := s.issueWord w.head (tileCheck false w) (tileGo false w s)
def execStt (w : MemW) (s : State) : Out := s.issueWord w.head (tileCheck true w) (tileGo true w s)

/-! ### Prefetch and cache maintenance (R195, R196) -/

def ruleBare : MemRule := ⟨plainOnly, plainOnly, plainOnly, false, false, false⟩
def lineCheck (varLat : Bool) (w : MemW) (sub : Nat → Bool) (extra : List Nat) (g : Group) : WordCheck :=
  { details := headDetails g w.head [.vector] varLat false ++ memDetails ruleBare w ++ addrDetails true w.a ++
      srcDetails .none w.d ++ (if sub w.sub.toNat then [] else [0x12]) ++ extra ++
      hazardDetails g (accessReads g w.head [(w.a, 2)])
    bank := false
    bound := fun l => boundFails g l 2 2 w.a }

/-- PREF: the lines that can be read are requested into their home slices and, without SL, into the L1; every other lane is
dropped (R195). -/
def prefGo (w : MemW) (s : State) (g : Group) : Out :=
  let s2 := (lanesOf (guardMask g w.head)).foldl (fun s l =>
    let addr := laneAddr g l true w.a w.off 1
    if addr < 0 || 2 ^ 48 ≤ addr || addr % 128 ≠ 0 then s
    else match s.access (s.coreOf s.issuer / 48) (s.ctxOf s.issuer) needR addr.toNat with
      | .error _ => s
      | .ok (pa, leaf) =>
        if hostBase ≤ pa then s
        else s.addReq (s.mkReq none l addr.toNat pa leaf .pref 128 [] 0 0 (w.sub ≠ 1))) s
  s.fixed g w.head (s2.retire 1)
def execPref (w : MemW) (s : State) : Out := s.issueWord w.head (lineCheck false w (fun n => n < 2) []) (prefGo w s)

/-- CMAINT's lanes judged: 128-byte alignment, bound, translation, write permission for ZERO (R183, R187). -/
def State.cmaintAddr (s : State) (zero : Bool) (l : Nat) (addr : Int) : LaneAddr :=
  if addr % 128 ≠ 0 then ⟨l, addr, addr.toNat, some (1, cMisalign, 0x03)⟩
  else if addr < 0 || 2 ^ 48 ≤ addr then ⟨l, addr, addr.toNat, some (2, cXperm, 0x03)⟩
  else ⟨l, addr, addr.toNat,
    match s.access (s.coreOf s.issuer / 48) (s.ctxOf s.issuer) ⟨false, zero, false, none⟩ addr.toNat with
    | .error e => some e
    | .ok _ => none⟩

def cmaintGo (w : MemW) (s : State) (g : Group) : Out :=
  let lanes := lanesOf (guardMask g w.head)
  let flag := selectedFlag g w.head.fs
  let core := s.coreOf s.issuer
  if w.sub = 1 then
    match s.memHold g w.head 0 0 with
    | some h => .next (s.holdAt h)
    | none =>
      if lanes = [] then .next ((s.emptyOp [] flag).retire 1)
      else .next (((s.l1DropCore core).launchOp [] (Op.blank s.nextId s.issuer .cmaint flag)).retire 1)
  else
    let as := lanes.map fun l => s.cmaintAddr (w.sub = 4) l (laneAddr g l true w.a w.off 1)
    match s.judgeLanes as (if w.sub = 4 then 1 else 0) 128 with
    | some f => .next (s.memFault as f)
    | none => match s.memHold g w.head 0 0 with
      | some h => .next (s.holdAt h)
      | none =>
        if as = [] then .next ((s.emptyOp [] flag).retire 1)
        else
          let s1 := s.cacheTrans (core / 48) (s.ctxOf s.issuer) (as.map LaneAddr.va)
          let op := Op.blank s.nextId s.issuer .cmaint flag
          let s2 := s1.launchOp [] op
          let s3 := if w.sub = 0 || w.sub = 3 then
            as.foldl (fun s a => s.l1DropSectors core (s.paOf a.va).1 128) s2 else s2
          if w.sub = 0 then .next (s3.retire 1)
          else
            let kind : ReqKind := if w.sub = 2 then .clean else if w.sub = 3 then .clinv else .zero
            .next ((s3.sendLanes op.id as kind 128 0 false (fun _ => if kind = .zero then List.replicate 128 0 else [])
              fun _ => 0).retire 1)
def execCmaint (w : MemW) (s : State) : Out :=
  s.issueWord w.head (lineCheck true w (fun n => n < 5)
    (if w.sub = 1 && (w.a ≠ specZero || w.off ≠ 0) then [0x04] else [])) (cmaintGo w s)

/-! ### FIFO banks and bank switching (R197, R198) -/

def bankIndex (w : MemW) : Nat := field w.off.toNat 0 4

/-- A run of eight v registers (R197). -/
def fifoData (push : Bool) (d : Spec) : List Nat :=
  match opdOf d with | .v _ | .rel .. => [] | .zero => if push then [0x03] else [] | _ => [0x03]
def fifoCheck (push : Bool) (w : MemW) (g : Group) : WordCheck :=
  { details := headDetails g w.head [.vector] true false ++ memDetails ruleBare w ++ srcDetails .none w.a ++
      fifoData push w.d ++ (if field w.off.toNat 4 8 = 0 then [] else [0x04]) ++ (if w.sub = 0 then [] else [0x12]) ++
      hazardDetails g (accessReads g w.head (if push then [(w.d, 8)] else []))
    bank := false
    bound := fun l => boundFails g l 1 8 w.d }

/-- The faults of a FIFO word: grant, then mode (R187, R197). -/
def fifoFault (t : Team) (bank : Nat) : Option (Nat × Nat) :=
  match t.banks[bank]? with
  | none => some (cFifoerr, 0x01)
  | some b => if b.mode = .fifo then none
    else some (cBankmode, 0x01)

/-- Since when a group has waited at a FIFO bank; a group that does not wait arrives now. -/
def fifoSince (n : Nat) (g : Group) (bank : Nat) (push : Bool) : Nat :=
  match g.hold with | .fifo b p since => if b = bank && p = push then since else n | _ => n

/-- Whether another group of the team that reached the bank earlier still waits there in the same direction (R197). -/
def fifoBehind (t : Team) (bank : Nat) (push : Bool) (since : Nat) : Bool :=
  t.groups.any fun x => match x.hold with
    | .fifo b p n => b = bank && p = push && n < since
    | _ => false
def fifoWaits (g : Group) (bank : Nat) : Bool := match g.hold with | .fifo b _ _ => b = bank | _ => false
def State.holdFifo (s : State) (bank : Nat) (push : Bool) (since : Nat) : State :=
  { s.holdAt (.fifo bank push since) with nextId := s.nextId + 1 }

def fifoPushGo (w : MemW) (s : State) (g : Group) : Out :=
  let lanes := lanesOf (guardMask g w.head)
  let flag := selectedFlag g w.head.fs
  let tn := s.viewTeam s.issuer
  let bank := bankIndex w
  match s.teams[tn]? with
  | none => .fault .noIssuer
  | some t =>
    if s.bankBusy tn [bank] then .next (if fifoWaits g bank then s else s.holdAt .regWait)
    else match (if lanes = [] then none else fifoFault t bank) with
    | some f => .next (s.fault s.issuer f.1 f.2 (guardMask g w.head) 0)
    | none => match s.memHold g w.head 0 0 with
      | some h => .next (s.holdAt h)
      | none =>
        if lanes = [] then .next ((s.emptyOp [] flag).retire 1)
        else
          let used := ((t.banks[bank]?).map fun b => b.fifo.length).getD 0
          let since := fifoSince s.nextId g bank true
          if 1024 < used + lanes.length || fifoBehind t bank true since then .next (s.holdFifo bank true since)
          else
            let es := lanes.map fun l => (List.range 8).map fun j => readOpd g l w.d j
            let s1 := s.modTeam tn fun t => { t with banks := modAt t.banks bank fun b => { b with fifo := b.fifo ++ es } }
            .next ((s1.launchOp [] (Op.blank s.nextId s.issuer .fifoPush flag)).retire 1)

def fifoPopGo (w : MemW) (s : State) (g : Group) : Out :=
  let lanes := lanesOf (guardMask g w.head)
  let flag := selectedFlag g w.head.fs
  let tn := s.viewTeam s.issuer
  let bank := bankIndex w
  let names := runWrites g w.d 8
  match s.teams[tn]? with
  | none => .fault .noIssuer
  | some t =>
    if s.bankBusy tn [bank] then .next (if fifoWaits g bank then s else s.holdAt .regWait)
    else match (if lanes = [] then none else fifoFault t bank) with
    | some f => .next (s.fault s.issuer f.1 f.2 (guardMask g w.head) 0)
    | none => match s.memHold g w.head 0 0 with
      | some h => .next (s.holdAt h)
      | none =>
        if lanes = [] then .next ((s.emptyOp names flag).retire 1)
        else
          let q := ((t.banks[bank]?).map Bank.fifo).getD []
          let since := fifoSince s.nextId g bank false
          if q.length < lanes.length || fifoBehind t bank false since then .next (s.holdFifo bank false since)
          else
            let ws := (lanes.mapIdx fun i l => (List.range 8).filterMap fun j =>
              (nthName g l w.d j).map fun r => (⟨r, some l, (q.getD i []).getD j 0⟩ : RegWrite)).flatten
            let s1 := s.modTeam tn fun t =>
              { t with banks := modAt t.banks bank fun b => { b with fifo := b.fifo.drop lanes.length } }
            .next ((s1.launchOp names
              { Op.blank s.nextId s.issuer .fifoPop flag with dests := destsOf ws, writes := ws }).retire 1)

def execFifopush (w : MemW) (s : State) : Out := s.issueWord w.head (fifoCheck true w) (fifoPushGo w s)
def execFifopop (w : MemW) (s : State) : Out := s.issueWord w.head (fifoCheck false w) (fifoPopGo w s)

def bankModeOf (n : Nat) : BankMode := match n with | 0 => .cache | 1 => .scratch | _ => .fifo
def bankCheck (w : MemW) (g : Group) : WordCheck :=
  { details := headDetails g w.head [.vector] true false ++ memDetails ruleBare w ++ noGuard w.head ++
      srcDetails .none w.a ++ srcDetails .none w.d ++ (if field w.off.toNat 4 8 = 0 then [] else [0x04]) ++
      (if w.sub.toNat < 3 then [] else [0x12])
    bank := false
    bound := fun _ => false }
def bankGo (w : MemW) (s : State) (g : Group) : Out :=
  match s.teams[s.viewTeam s.issuer]? with
  | none => .fault .noIssuer
  | some t =>
    if t.banks.length ≤ bankIndex w then .next (s.fault s.issuer cBankmode 0x02 (issuing g) 0)
    else match s.memHold g w.head 0 0 with
      | some h => .next (s.holdAt h)
      | none =>
        let op := { Op.blank s.nextId s.issuer .bankSwitch (selectedFlag g w.head.fs) with
          effect := .bank (bankIndex w) (bankModeOf w.sub.toNat) }
        .next ((s.launchOp [] op).retire 1)
def execBankcfg (w : MemW) (s : State) : Out := s.issueWord w.head (bankCheck w) (bankGo w s)

end Sys2Proof.Machine
end

