-- ==== Sys2Proof/Machine/Params.lean ====
section
/-!
DEFINITION. What the instructions of classes X and E share: parameter blocks (R40, R41), stage rings (R216), and
acting as another group of a gang.
-/
namespace Sys2Proof.Machine

/-! ### Parameter-block words (R40, R41) -/

def blockWords (c : CBlock) : List Word64 := [c.c0, c.c1, c.c2, c.c3]

/-- The words of a block that are its own: the C words that follow its instruction in one clause, up to the first word that
is none (R41). -/
def ownWords (room : Nat) (c : CBlock) : List Word64 := ((blockWords c).take room).takeWhile fun w => getField w 62 2 = 3

/-- The ILLEGAL details of one C word. -/
def wordDetails (w : Word64) : List Nat :=
  if w.getLsbD 61 then
    (match opdOf (w.extractLsb' 51 10) with | .k _ | .zero => [] | _ => [0x09]) ++
    (if getField w 0 51 = 0 then [] else [0x04])
  else []

/-- The registers a C word substitutes. -/
def wordReads (w : Word64) : List RegName :=
  if w.getLsbD 61 then
    match opdOf (w.extractLsb' 51 10) with
    | .k n => if n % 2 = 0 then [.k n, .k (n + 1)] else [.k n]
    | _ => []
  else []

/-- The value of a C word for a group. -/
def wordValue (g : Group) (w : Word64) : Word64 :=
  if w.getLsbD 61 then
    match opdOf (w.extractLsb' 51 10) with
    | .k n => if n % 2 = 0 then BitVec.ofNat 64 (getField (pair (readK g n) (readK g (n + 1))) 0 61)
              else (readK g n).zeroExtend 64
    | _ => 0
  else BitVec.ofNat 64 (getField w 0 61)
def blockValue (g : Group) (c : CBlock) : CBlock :=
  { c0 := wordValue g c.c0, c1 := wordValue g c.c1, c2 := wordValue g c.c2, c3 := wordValue g c.c3 }

/-- The ILLEGAL details of a block: its words, its place in the clause and the hazard rule over its registers. -/
def blockDetails (g : Group) (c : CBlock) : List Nat :=
  let own := ownWords ((g.clause.map fun cl => cl.len - cl.pos).getD 4) c
  own.flatMap wordDetails ++ (if own.length < 4 then [0x08] else []) ++ hazardDetails g (own.flatMap wordReads)

/-! ### Stage rings (R216, R217) -/

/-- The failure of a ring operand of a team: step 8 of its class, RINGERR and its detail. -/
def ringVerdict (t : Team) (sg slot : Nat) : Option (Nat × Nat × Nat) :=
  match t.rings.find? fun r => r.name = sg with
  | none => some (8, cRingerr, 0x01)
  | some r => if r.slots ≤ slot then some (8, cRingerr, 0x02) else none
def State.ringVerdict (s : State) (arr : Bool) (sg slot : Nat) : Option (Nat × Nat × Nat) :=
  if !arr then none
  else match s.teams[s.viewTeam s.issuer]? with
    | some t => Sys2Proof.Machine.ringVerdict t sg slot
    | none => some (8, cRingerr, 0x01)

/-- An arrival inverts a slot's phase bit (R216). -/
def State.arriveAt (s : State) (t sg slot : Nat) : State :=
  s.modTeam t fun tm => { tm with rings := tm.rings.map fun r =>
    if r.name = sg then { r with phases := r.phases ^^^ ((1 : BitVec 8) <<< slot) } else r }

/-- The arrival a completed operation makes, and then its delivery (R311). -/
def issuerTeam (i : Issuer) : Nat := match i with | .group t _ => t | _ => 0
def State.completeOp (s : State) (o : Op) : State :=
  (match o.arrive with | some a => s.arriveAt (issuerTeam o.issuer) a.1 a.2 | none => s).finishOp o

/-! ### Acting for another agent -/

/-- A change made as if another agent had issued it. -/
def State.asIssuer (s : State) (i : Issuer) (f : State → State) : State :=
  { f { s with issuer := i } with issuer := s.issuer }

/-- The die and context an agent works in. -/
def State.dieCtx (s : State) : Nat × Nat := (s.coreOf s.issuer / 48, s.ctxOf s.issuer)

/-- A translated extent's failure: bound, then translation and permission, page by page (R187). -/
def State.spanVerdict (s : State) (need : Need) (va n : Nat) : Option (Nat × Nat × Nat) :=
  if 2 ^ 48 < va + n then some (2, cXperm, 0x03)
  else s.extentVerdict s.dieCtx.1 s.dieCtx.2 need va n

/-- Whether an extent waits for a bank switch (R198). -/
def State.padBusy (s : State) (a n : Nat) : Bool :=
  s.bankBusy (s.viewTeam s.issuer) ((List.range ((a + n - 1) / 32768 - a / 32768 + 1)).map (a / 32768 + ·))

/-- A scratchpad extent's failure (R180, R213); the mode of a bank that waits for a switch is judged after it (R198). -/
def State.padVerdict (s : State) (a n : Nat) : Option (Nat × Nat × Nat) :=
  match s.teams[s.viewTeam s.issuer]? with
  | some t => (scratchVerdict t a n).filter fun v => v.2.1 ≠ cBankmode || !s.padBusy a n
  | none => some (2, cXperm, 0x04)
def State.padRead (s : State) (a n : Nat) : List Byte :=
  match s.teams[s.viewTeam s.issuer]? with | some t => scratchRead t a n | none => List.replicate n 0

/-- A 32-byte alignment rule (MISALIGN 0x02), and the rules of other sizes (0x01). -/
def alignVerdict (detail : Nat) (ok : Bool) : Option (Nat × Nat × Nat) := if ok then none else some (1, cMisalign, detail)

/-! ### Writes of engines -/

/-- The pieces of an extent page by page. -/
def pagePieces (va n : Nat) : List (Nat × Nat) :=
  (pagesOf va n).map fun a => (a, min ((a / 65536 + 1) * 65536) (va + n) - a)

/-- Writes of an agent's operation at their home slices under some translations; its core's L1 takes what a store writes
(R214), and loses the sectors that an engine command writes (R311, R375). -/
def State.storeBy (s : State) (tr : Nat → Trans) (i : Issuer) (through : Bool) (rows : List (Nat × List Byte)) : State :=
  let core := s.coreOf i
  rows.foldl (fun s r =>
    let s := s.writeBy tr (issuerTeam i) (s.ctxOf i) r.1 r.2
    (pagePieces r.1 r.2.length).foldl (fun s p => match tr p.1 with
      | .ok pa leaf _ _ =>
        if through && !s.toView (issuerTeam i) leaf then s.l1Store core pa ((r.2.drop (p.1 - r.1)).take p.2)
        else s.l1DropSectors core pa p.2
      | _ => s) s) s

/-! ### The context save area (R287, R330, R408) -/

/-- Bytes of an item of a team put into its context's save area, from an offset on, under the device key. -/
def State.saveWrite (s : State) (t item off : Nat) (bs : List Byte) : State :=
  let ctx := s.ctxOf (.group t 0)
  let va := ((s.contexts[ctx]?).map Context.save).getD 0 + Config.savePlace t item + off
  let rows := (List.range (bs.length / 128 + 2)).filterMap fun i =>
    let lo := max va ((va / 128 + i) * 128)
    let hi := min (va + bs.length) ((va / 128 + i + 1) * 128)
    if lo < hi then some (lo, (bs.drop (lo - va)).take (hi - lo)) else none
  let u := rows.foldl (fun s r => match s.translate (s.coreOf (.group t 0) / 48) ctx r.1 with
    | .ok pa _ _ _ => (match s.line? (lineOf pa) with | some l => s.evict l | none => s).deviceWrite pa r.2
    | _ => s) s
  { s with mem := u.mem, lines := u.lines, lineKeys := u.lineKeys }

/-- Bytes of a saved item that have no stated layout. -/
def State.savedBytes (s : State) (n : Nat) : List Byte := (List.range n).map (Config.savedByte s.fresh)

/-! ### Engine commands (R371) -/

/-- Whether an operation is an engine command, and whether a context has one outstanding (R312, R453). -/
def engineKind (k : OpKind) : Bool :=
  match k with | .cpy | .tgms | .ce | .obld | .tst | .tepi | .tileImage => true | _ => false
def State.enginesBusy (s : State) (ctx : Nat) : Bool := s.ops.any fun o => s.ctxOf o.issuer = ctx && engineKind o.kind

/-! ### Ordering of engine commands (R378, R387, R388) -/

/-- Whether every write that an agent's visible set held before an operation is performed: at the banks, and, where asked,
at the home slices. -/
def State.writesDone (s : State) (o : Op) (home : Bool) : Bool :=
  (!home || !s.visibleOut o.issuer o.id) &&
  !(s.ops.any fun p => p.id < o.id && p.issuer = o.issuer && writesPending p)

/-- Whether an engine command's ACQ and REL conditions hold: its reads find every write of the visible set, and its release
carries them to the point of its scope (R387, R388). -/
def State.mayRead (s : State) (o : Op) : Bool := o.before.isNone || s.writesDone o true
def State.mayEnd (s : State) (o : Op) : Bool := match o.release with | some sc => s.writesDone o (2 ≤ sc) | none => true

/-- A result register of a k destination, and a value for every destination that has not been cancelled (R106). -/
def kDest (d : Spec) : List RegName := match opdOf d with | .k n => [.k n] | _ => []
def giveAll (o : Op) (v : Nat) : Op := { o with writes := o.dests.map fun d => ⟨d.1, d.2, BitVec.ofNat 32 v⟩ }

end Sys2Proof.Machine
end

