-- ==== Sys2Proof/Machine/Transfer.lean ====
section
/-!
DEFINITION. What pending operations move piece by piece (R372): sectors between memory, scratchpad and operand buffer, the
lanes of scratchpad accesses, the elements of tile images, and contributions.
-/
namespace Sys2Proof.Machine

/-! ### Copy blocks (R309, R310) -/

structure Copy where
  src : Nat
  dst : Nat
  xb : Nat
  ys : Nat
  zs : Nat
  ssy : Nat
  ssz : Nat
  dsy : Nat
  dsz : Nat

def copyOf (c : CBlock) : Copy :=
  { src := getField c.c0 0 48, dst := getField c.c1 0 48, xb := getField c.c2 0 16, ys := getField c.c2 16 12 + 1,
    zs := getField c.c2 28 8 + 1, ssy := getField c.c3 0 15, ssz := getField c.c3 15 15, dsy := getField c.c3 30 15,
    dsz := getField c.c3 45 15 }
def Copy.rows (k : Copy) : Nat := k.ys * k.zs
def Copy.total (k : Copy) : Nat := k.xb * k.rows

/-- Source and destination of a row (R310). -/
def Copy.srcRow (k : Copy) (r : Nat) : Nat := k.src + 32 * (r / k.ys * k.ssz + r % k.ys * k.ssy)
def Copy.dstRow (k : Copy) (r : Nat) : Nat := k.dst + 32 * (r / k.ys * k.dsz + r % k.ys * k.dsy)

/-- The sides of a direction: 0 global, 1 scratchpad, 2 operand buffer. -/
def srcSide (dir : Nat) : Nat := match dir with | 0 => 0 | 1 => 1 | 2 => 1 | _ => 2
def dstSide (dir : Nat) : Nat := match dir with | 0 => 1 | 1 => 0 | 2 => 2 | _ => 1

/-! ### Tiles (R223) -/

/-- Elements of a tile. -/
def tileElem (t : Team) (m row col : Nat) : Reg32 :=
  match t.tiles[m]? with | some x => Cells.get 0 x.elems (16 * row + col) | none => 0
def tilePut (t : Team) (m row col : Nat) (v : Reg32) : Team :=
  { t with tiles := modAt t.tiles m fun x => { x with elems := Cells.put 0 x.elems (16 * row + col) v } }

/-! ### What a move touches -/

/-- The scratchpad bytes that a move reads or writes. -/
def Move.pads : Move → List (Nat × Nat)
  | .padRead a d => [(a, d.size)]
  | .padWrite a data => [(a, data.length)]
  | .padAtomic a _ wide _ _ _ => [(a, if wide then 8 else 4)]
  | .padFill _ pad n => [(pad, n)]
  | .bufFill true src _ n => [(src, n)]
  | .copyRead side src side' dst n => (if side = 1 then [(src, n)] else []) ++ (if side' = 1 then [(dst, n)] else [])
  | .copyWrite 1 dst data => [(dst, data.length)]
  | _ => []

/-- The global bytes that a move reads, those that it writes, and both. -/
def Move.homeReads : Move → List (Nat × Nat)
  | .padFill va _ n | .bufFill false va _ n | .copyRead 0 va _ _ n | .fetch va n => [(va, n)]
  | .word va _ _ => [(va, 4)]
  | .tileFill _ va part => [(va + 32 * part, 32)]
  | .scatter va _ _ vs => [(va, 4 * vs.length)]
  | _ => []
def Move.homeWrites : Move → List (Nat × Nat)
  | .store va data | .copyWrite 0 va data => [(va, data.length)]
  | .scatter va _ _ vs => [(va, 4 * vs.length)]
  | _ => []
def Move.homes (m : Move) : List (Nat × Nat) := m.homeReads ++ m.homeWrites

/-- The scratchpad and the global bytes that a pending operation still reads or writes. -/
def Op.pads (o : Op) : List (Nat × Nat) :=
  o.todo.flatMap Move.pads ++ (match o.effect with
    | .tileLoad scr _ len _ _ => [(scr, len)]
    | .copy c dir _ _ =>
      let k := copyOf c
      (List.range k.rows).flatMap fun r =>
        (if srcSide dir = 1 then [(k.srcRow r, k.xb)] else []) ++ (if dstSide dir = 1 then [(k.dstRow r, k.xb)] else [])
    | _ => [])
def Op.homes (o : Op) : List (Nat × Nat) :=
  o.todo.flatMap Move.homes ++ (match o.effect with
    | .tileLoad _ ga len _ _ => [(ga, 32 + len)]
    | .tileStore ga data _ => [(ga, 32 + data.length)]
    | _ => [])

/-- Whether two lists of extents share a byte. -/
def extentsMeet (a b : List (Nat × Nat)) : Bool := a.any fun x => b.any fun y => overlap x.1 x.2 y.1 y.2

/-- Whether a move of a class M operation waits: an earlier access of its own agent meets its bytes, in scratchpad or in
memory, and has not been performed (R188). -/
def State.moveWaits (s : State) (o : Op) (m : Move) : Bool :=
  o.kind = .mem &&
  ((s.ops.any fun p => p.id < o.id && p.issuer = o.issuer && p.kind = .mem &&
     (extentsMeet p.pads m.pads || extentsMeet p.homes m.homes)) ||
   (s.reqs.any fun r => r.id < o.id && !r.performed && .group r.team r.grp = o.issuer &&
     extentsMeet [(r.va, r.size)] m.homes))

/-- Whether an engine command may go on: its team is on its core, and is not being saved (R313, R318). -/
def State.engineRuns (s : State) (o : Op) : Bool :=
  match s.teams[issuerTeam o.issuer]? with
  | some t => t.residency = .resident || (t.residency = .saving && t.preempt ≠ .save && t.preempt ≠ .turn)
  | none => false

/-! ### Moves performed -/

/-- The translation that an operation's issue checked (R312). -/
def State.opTrans (s : State) (o : Op) : Nat → Trans := s.transBy o.trans (s.coreOf o.issuer / 48) (s.ctxOf o.issuer)
def State.opRead (s : State) (o : Op) (va n : Nat) : List Byte :=
  s.readBy (s.opTrans o) (issuerTeam o.issuer) (s.ctxOf o.issuer) va n
def State.opStore (s : State) (o : Op) (rows : List (Nat × List Byte)) : State :=
  s.storeBy (s.opTrans o) o.issuer (o.kind = .mem) rows

/-- A pending operation changed. -/
def State.modOp (s : State) (o : Op) (f : Op → Op) : State :=
  { s with ops := s.ops.map fun p => if p.id = o.id then f p else p }

/-- Bytes read and written on a side of a copy. -/
def State.sideRead (s : State) (o : Op) (side a n : Nat) : List Byte :=
  match side, s.teams[issuerTeam o.issuer]? with
  | 0, _ => s.opRead o a n
  | _, none => List.replicate n 0
  | 1, some t => scratchRead t a n
  | _, some t => obBytes t a n
def State.sideWrite (s : State) (o : Op) (side a : Nat) (bs : List Byte) : State :=
  match side with
  | 0 => s.opStore o [(a, bs)]
  | 1 => s.padStore (issuerTeam o.issuer) [issuerGroup o.issuer] a bs
  | _ => s.modTeam (issuerTeam o.issuer) fun t => obWrite t a bs

/-- The register writes of loaded bytes, those of a cancelled destination apart (R106). -/
def Op.gives (o : Op) (d : LoadDest) (bs : List Byte) : Op :=
  { o with writes := o.writes ++ (loadWrites bs d 0).filter fun w => o.dests.contains (w.reg, w.lane) }

/-- The version word at a metadata address stepped once (R194). -/
def State.bumpVersion (s : State) (o : Op) (va : Nat) : State :=
  s.opStore o [(va, bytesOfNat 8 (natOfBytes (s.opRead o va 8) + 1))]

/-- Whether loads that an agent issued before an operation have still to return (R378). -/
def State.readsBefore (s : State) (o : Op) : Bool := s.ops.any fun p => p.id < o.id && p.issuer = o.issuer && readsPending p

/-- An atomic on one lane's scratchpad bytes: its old value, and the state after it (R189). -/
def State.padAtomic (s : State) (o : Op) (a aop : Nat) (wide : Bool) (b cmp : Nat) : Nat × State :=
  let n := if wide then 8 else 4
  let old := natOfBytes (s.sideRead o 1 a n)
  (old, s.sideWrite o 1 a (bytesOfNat n (atomicNew aop wide old b cmp)))

/-- One move performed: its bytes are read and written at that moment. -/
def State.perform (s : State) (o : Op) (m : Move) : State :=
  let t := issuerTeam o.issuer
  let core := s.coreOf o.issuer
  match m with
  | .padRead a d => s.modOp o fun p => p.gives d (s.sideRead o 1 a d.size)
  | .padWrite a data => s.sideWrite o 1 a data
  | .padAtomic a aop wide b cmp dest =>
    let r := s.padAtomic o a aop wide b cmp
    match dest with
    | some d => r.2.modOp o fun p => p.gives d (bytesOfNat (if wide then 8 else 4) r.1)
    | none => r.2
  | .padFill va pad n => s.sideWrite o 1 pad (s.opRead o va n)
  | .store va data => s.opStore o [(va, data)]
  | .word va reg lane => s.modOp o fun p => p.gives ⟨reg, some lane, 4, false, none⟩ (s.opRead o va 4)
  | .bufFill pad src dst n => s.sideWrite o 2 dst (s.sideRead o (if pad then 1 else 0) src n)
  | .tileFill m va part =>
    let bs := s.opRead o (va + 32 * part) 32
    s.modTeam t fun tm => (List.range 8).foldl (fun tm j =>
      tilePut tm m (part / 2) (8 * (part % 2) + j) (BitVec.ofNat 32 (natOfBytes ((bs.drop (4 * j)).take 4)))) tm
  | .copyRead side src side' dst n => s.modOp o fun p => { p with todo := p.todo ++ [.copyWrite side' dst (s.sideRead o side src n)] }
  | .copyWrite side dst data => s.sideWrite o side dst data
  | .fetch va n => s.modOp o fun p => { p with data := p.data ++ s.opRead o va n }
  | .pause => s
  | .scatter va seq aop values => match s.opTrans o va with
    | .ok pa leaf _ _ =>
      ((List.range values.length).foldl (fun s i => s.contribute t (s.ctxOf o.issuer) (va + 4 * i) (pa + 4 * i) leaf seq 4 aop
        (values.getD i 0).toNat (if i = 0 then 1 else 0)) s).l1DropSectors core pa (4 * values.length)
    | _ => s

/-- Whether a sector of some extents is homed on a die that is held in reset (R405). -/
def State.anyDown (s : State) (tr : Nat → Trans) (es : List (Nat × Nat)) : Bool :=
  es.any fun e => (sectors e.1 e.2).any fun p => match tr p.1 with
    | .ok pa _ _ _ => s.homeDown pa
    | _ => false

/-- The sectors of some extents that a team reads at home and that lack a byte of a fill, by physical address and leaf (R339);
its view supplies its own bytes. -/
def State.lackFills (s : State) (tr : Nat → Trans) (t : Nat) (es : List (Nat × Nat)) : List (Nat × Word64) :=
  es.flatMap fun e => (sectors e.1 e.2).filterMap fun p => match tr p.1 with
    | .ok pa leaf _ _ =>
      let lacks (i : Nat) : Bool := !(s.toView t leaf && s.inView t (canonPa (pa + i))) && s.needsFill (pa + i) 1
      if hostBase ≤ pa || !(List.range p.2).any lacks then none else some (pa, leaf)
    | _ => none
def State.startFills (s : State) (ctx : Nat) (fs : List (Nat × Word64)) : State :=
  fs.foldl (fun s f => s.fillLine ctx f.1 f.2) s

/-- Whether a move cannot be made now: it waits for an earlier access or for its command's team, or its home die is held in
reset (R188, R318, R405). -/
def State.moveHeld (s : State) (o : Op) (m : Move) : Bool :=
  s.moveWaits o m || (m = .pause && !s.engineRuns o) || s.anyDown (s.opTrans o) m.homes

/-- The sectors whose fill a move waits for; a contribution that is held reads none. -/
def State.moveFills (s : State) (o : Op) (m : Move) : List (Nat × Word64) :=
  let t := issuerTeam o.issuer
  let adds : Bool := match m with | .scatter .. => true | _ => false
  (s.lackFills (s.opTrans o) t m.homeReads).filter fun f => !(adds && s.toView t f.2)

/-- A move carried out, unless it cannot be made now; one that needs a fill starts it, and waits until it lands (R339). -/
def State.await (s : State) (o : Op) (m : Move) (go : Out) : Out :=
  if s.moveHeld o m then .next s
  else match s.moveFills o m with
    | [] => go
    | fs => .next (s.startFills (s.ctxOf o.issuer) fs)

/-- The first of what is left to move, performed, unless it waits; then what follows once nothing is left. DESIGN CHOICE
(assumption log, entry 56): an operation moves its sectors and lanes in ascending order, one at a time. -/
def State.progress (s : State) (o : Op) (done : Op → Out) : Out :=
  match o.todo with
  | [] => done o
  | m :: rest => s.await o m (.next ((s.modOp o fun p => { p with todo := rest }).perform o m))

end Sys2Proof.Machine
end

