-- ==== Sys2Proof/Machine/Matrix.lean ====
section
/-!
DEFINITION. The matrix engine (R222-R250): operand-buffer ranges, tiles, gangs, the multiplies and the tile moves.
-/
namespace Sys2Proof.Machine

/-! ### Reservation records (R235) -/

/-- A reservation record. -/
structure ObRec where
  base : Nat
  len : Nat
  fmt : Nat
  sp : Nat
  rows : Nat
  kch : Nat
  hoff : Nat
  soff : Nat
  moff : Nat
  scap : Nat
  rstr : Nat
deriving DecidableEq, Repr

def recordOf (c : CBlock) : ObRec :=
  { base := 256 * getField c.c0 0 9, len := 256 * (getField c.c0 9 9 + 1), fmt := getField c.c0 18 4,
    sp := getField c.c0 22 2, rows := getField c.c0 24 8 + 1, kch := getField c.c0 32 5 + 1,
    hoff := getField c.c1 0 17, soff := getField c.c1 17 17, moff := getField c.c1 34 17,
    scap := getField c.c2 0 16, rstr := getField c.c3 0 17 }

/-- Elements of a chunk, blocks of a chunk, and bits of a code, by format (R35, R81). -/
def chunkElems (fmt : Nat) : Nat := match fmt with | 0 | 8 => 192 | 5 | 6 => 48 | _ => 96
def blocksPer (fmt : Nat) : Nat := if fmt = 0 then 6 else 3
def blockLen (fmt : Nat) : Nat := chunkElems fmt / blocksPer fmt
def isIntFmt (fmt : Nat) : Bool := fmt = 7 || fmt = 8
def hasHeaders (fmt : Nat) : Bool := fmt < 3

/-- Chunk bytes, row stride, metadata bytes of a chunk, and kept elements of a half (R235, R244). -/
def ObRec.chunk (r : ObRec) : Nat := match r.sp with | 0 => 96 | 1 => 48 | _ => 24
def ObRec.stride (r : ObRec) : Nat := if r.rstr = 0 then r.kch * r.chunk else r.rstr
def ObRec.keep (r : ObRec) : Nat := match r.sp with | 0 => 4 | 1 => 2 | _ => 1
def ObRec.metaLen (r : ObRec) : Nat := chunkElems r.fmt * r.keep / 4 / 4

/-- Whether a record holds a reserved value (R235, R236). -/
def recordBad (c : CBlock) : Bool :=
  let r := recordOf c
  8 < r.fmt || r.sp = 3 || getField c.c0 37 24 ≠ 0 || getField c.c1 51 10 ≠ 0 || getField c.c2 16 45 ≠ 0 ||
  getField c.c3 17 44 ≠ 0 || r.rstr % 8 ≠ 0 || (!hasHeaders r.fmt && r.hoff ≠ 0) || (r.fmt ≠ 0 && r.soff ≠ 0) ||
  (r.sp = 0 && r.moff ≠ 0) || (r.soff = 0 && r.scap ≠ 0)

/-- Whether a record's range or arrays do not fit (R236). -/
def recordOutside (r : ObRec) (units : Nat) : Bool :=
  256 * units < r.base + r.len || (r.rstr ≠ 0 && r.rstr < r.kch * r.chunk) ||
  r.len < (r.rows - 1) * r.stride + r.kch * r.chunk ||
  (hasHeaders r.fmt && r.len < r.hoff + 2 * r.rows * r.kch * blocksPer r.fmt) ||
  (r.soff ≠ 0 && r.len < r.soff + 4 * r.scap) ||
  (r.sp ≠ 0 && r.len < r.moff + r.rows * r.kch * r.metaLen)

/-- A team's range by name. -/
def rangeOf (t : Team) (name : Nat) : Option ObRec := (t.ranges.find? fun r => r.name = name).map fun r => recordOf r.c

/-! ### Reading A and B (R77, R78, R235, R239, R244) -/

/-- The codes of a run of bytes (R61, R74). -/
def codesOf (fmt : Nat) (bs : List Byte) : List Nat :=
  match fmt with
  | 0 | 8 => bs.flatMap fun b => [b.toNat % 16, b.toNat / 16]
  | 5 | 6 => (List.range (bs.length / 2)).map fun i => (bs.getD (2 * i) 0).toNat + 256 * (bs.getD (2 * i + 1) 0).toNat
  | _ => bs.map BitVec.toNat

/-- The 2-bit positions a row's metadata holds for a chunk. -/
def positionsOf (t : Team) (r : ObRec) (row ch : Nat) : List Nat :=
  (obBytes t (r.base + r.moff + (row * r.kch + ch) * r.metaLen) r.metaLen).flatMap fun b =>
    (List.range 4).map fun i => field b.toNat (2 * i) 2

/-- Whether positions ascend within every half (R244). -/
def ascending : List Nat → Bool
  | a :: b :: r => a < b && ascending (b :: r)
  | _ => true
def positionsOk (r : ObRec) (ps : List Nat) : Bool :=
  (List.range (ps.length / r.keep)).all fun h => ascending ((ps.drop (h * r.keep)).take r.keep)

/-- A chunk of a row as codes by K position; a pruned position holds none. -/
def chunkCodes (t : Team) (r : ObRec) (row ch : Nat) : List (Option Nat) :=
  let codes := codesOf r.fmt (obBytes t (r.base + row * r.stride + ch * r.chunk) r.chunk)
  if r.sp = 0 then codes.map some
  else
    let ps := positionsOf t r row ch
    (List.range (chunkElems r.fmt)).map fun i =>
      ((List.range r.keep).find? fun j => ps.getD (i / 4 * r.keep + j) 4 = i % 4).map fun j =>
        codes.getD (i / 4 * r.keep + j) 0

/-- A header of a range by block number, the escape counts before a block (R76), and a side-list entry. -/
def headerAt (t : Team) (r : ObRec) (i : Nat) : Nat := natOfBytes (obBytes t (r.base + r.hoff + 2 * i) 2)
def countBefore (t : Team) (r : ObRec) (b : Nat) : Nat := ((List.range b).map fun i => field (headerAt t r i) 8 3).sum
def sideEntry (t : Team) (r : ObRec) (i : Nat) : Nat := natOfBytes (obBytes t (r.base + r.soff + 4 * i) 4)
def blockIndex (r : ObRec) (row ch q : Nat) : Nat := (row * r.kch + ch) * blocksPer r.fmt + q

/-- Whether a block's header count names a side-list index beyond the capacity (R242). -/
def sideBeyond (t : Team) (r : ObRec) (row ch : Nat) : Bool :=
  r.fmt = 0 && (List.range 6).any fun q =>
    let b := blockIndex r row ch q
    let n := field (headerAt t r b) 8 3
    n ≠ 0 && r.scap < countBefore t r b + n

/-- An element code of a format without a scale. -/
def plainVal (fmt code : Nat) : FVal :=
  match fmt with
  | 4 => unpack e5m2 false code
  | 5 => unpack bf16 false code
  | 6 => unpack fp16 false code
  | _ => unpack e4m3 false code
def intVal (fmt code : Nat) : Int :=
  if fmt = 8 then (BitVec.ofNat 4 code).toInt else (BitVec.ofNat 8 code).toInt

/-- A run of an A row by blocks: its values, and its integers for the integer formats. -/
structure ARow where
  floats : List (List (Option FVal))
  ints : List (List (Option Int))

def aRow (t : Team) (r : ObRec) (row ch : Nat) : ARow :=
  let codes := chunkCodes t r row ch
  let blk (q : Nat) : List (Option Nat) := (codes.drop (q * blockLen r.fmt)).take (blockLen r.fmt)
  if isIntFmt r.fmt then
    ⟨[], (List.range (blocksPer r.fmt)).map fun q => (blk q).map fun c => c.map (intVal r.fmt)⟩
  else
    ⟨(List.range (blocksPer r.fmt)).map fun q =>
      let b := blockIndex r row ch q
      let cs := (blk q).map fun c => c.getD 0
      let vals : List FVal := match r.fmt with
        | 0 => let p := countBefore t r b
               readBx4 cs (headerAt t r b) ((List.range 7).map fun i => sideEntry t r (p + i))
        | 1 => readBx8 e4m3 cs (headerAt t r b)
        | 2 => readBx8 e5m2 cs (headerAt t r b)
        | f => cs.map (plainVal f)
      (blk q).mapIdx fun i c => c.map fun _ => vals.getD i .nan, []⟩

/-- A B column by blocks, and whether an escape code was read in it (R78). -/
structure BCol where
  floats : List (List FVal)
  ints : List (List Int)
  esc : Bool

def bCol (fmt : Nat) (codes : List Nat) (header : Nat → Nat) : BCol :=
  let blk (q : Nat) : List Nat := (codes.drop (q * blockLen fmt)).take (blockLen fmt)
  let qs := List.range (blocksPer fmt)
  if isIntFmt fmt then ⟨[], qs.map fun q => (blk q).map (intVal fmt), false⟩
  else if fmt = 0 then
    ⟨qs.map fun q => (readBx4B (blk q) (header q)).1, [], qs.any fun q => (readBx4B (blk q) (header q)).2⟩
  else
    ⟨qs.map fun q => match fmt with
      | 1 => readBx8 e4m3 (blk q) (header q)
      | 2 => readBx8 e5m2 (blk q) (header q)
      | f => (blk q).map (plainVal f), [], false⟩

/-- A column of a register slice: the 13 registers of its lane and of the lane 16 above (R239). -/
def bColRegs (fmt : Nat) (lo hi : List Reg32) : BCol :=
  let bytes := (lo.take 12 ++ hi.take 12).flatMap fun r => bytesOfNat 4 r.toNat
  let scale (q : Nat) : Nat :=
    if q < 3 then getField (lo.getD 12 0) (8 * q) 8 else getField (hi.getD 12 0) (8 * (q - 3)) 8
  bCol fmt (codesOf fmt bytes) scale

/-- A column of a B range: one of its rows. -/
def bColRange (t : Team) (r : ObRec) (row ch : Nat) : BCol :=
  bCol r.fmt (codesOf r.fmt (obBytes t (r.base + row * r.stride + ch * r.chunk) r.chunk))
    fun q => headerAt t r (blockIndex r row ch q)

/-! ### One output element (R82, R83, R227, R243) -/

def msPN : BitVec 32 := 1
def msESCB : BitVec 32 := 2
def msISAT : BitVec 32 := 4
def msMNV : BitVec 32 := 8
def msMOF : BitVec 32 := 16
def msRSING : BitVec 32 := 32
def msRSPLIT : BitVec 32 := 64
def msFSAT : BitVec 32 := 128
def bitIf (b : Bool) (m : BitVec 32) : BitVec 32 := if b then m else 0

/-- The kept pairs of a block. -/
def keptPairs {α β : Type} (as : List (Option α)) (bs : List β) : List α × List β :=
  ((List.zip as bs).filterMap fun ab => ab.1.map fun a => (a, ab.2)).unzip

/-- Whether a pruned position meets a partner that is not finite (R244). -/
def prunedSpecial (as : List (Option FVal)) (bs : List FVal) : Bool :=
  (List.zip as bs).any fun ab => ab.1.isNone && (isNan ab.2 || isInf ab.2)

/-- One element of a multiply: the new tile element and the status bits it raises. -/
def mulElem (w : MulW) (int : Bool) (old : Reg32) (gamma : Reg32) (a : ARow) (b : BCol) : Reg32 × BitVec 32 :=
  let ac := w.ac = 1
  let sc := w.sc = 1 && ac
  if int then
    let st := w.st = 1
    let scaled : Int × Bool :=
      if sc then
        let p := old.toInt * gamma.toInt
        if st then (clamp32 p, clamp32 p ≠ p) else ((BitVec.ofInt 32 p).toInt, false)
      else (if ac then old.toInt else 0, false)
    let sums := (List.zip a.ints b.ints).map fun ab =>
      let k := keptPairs ab.1 ab.2
      ((List.zip k.1 k.2).map fun xy => xy.1 * xy.2).sum
    let r := matInt scaled.1 st (w.ng = 1) sums
    (BitVec.ofInt 32 r.1, bitIf (scaled.2 || r.2) msISAT)
  else
    let acc : MatElem := if sc then scaleAcc gamma.toNat old.toNat else ⟨old.toNat, false, false⟩
    let blocks := (List.zip a.floats b.floats).map fun ab => keptPairs ab.1 ab.2
    let r := matFloat (if ac then some acc.bits else none) (w.ng = 1) blocks acc.mnv acc.mof
    let pn := (List.zip a.floats b.floats).any fun ab => prunedSpecial ab.1 ab.2
    (BitVec.ofNat 32 r.bits, bitIf r.mnv msMNV ||| bitIf r.mof msMOF ||| bitIf pn msPN)

/-! ### Tiles (R223) -/

/-- The 256 elements of a tile set from a function of row and column. -/
def tileFill (t : Team) (m : Nat) (f : Nat → Nat → Reg32) : Team :=
  (List.range 256).foldl (fun t i => tilePut t m (i / 16) (i % 16) (f (i / 16) (i % 16))) t

/-- TILEOWN 0x01: a tile of a span that is not reserved (R223). -/
def notReserved (t : Team) (ms : List Nat) : Bool :=
  ms.any fun m => match t.tiles[m]? with | some x => !x.reserved | none => true

/-! ### Waiting for earlier operations (R225) -/

/-- The operand-buffer bytes a pending operation reads or writes, and the range names it holds. -/
def opNames (o : Op) : List Nat :=
  match o.effect with
  | .obLoad r .. => [r]
  | .copy _ dir r _ => if 2 ≤ dir then [r] else []
  | .tile c .. => [getField c.c0 16 5, getField c.c0 21 5]
  | _ => []
def opSpans (t : Team) (o : Op) : List (Nat × Nat) :=
  match o.effect with
  | .obLoad _ dst len => [(dst, len)]
  | _ => (opNames o).filterMap fun n => (rangeOf t n).map fun r => (r.base, r.len)

/-- Operations of a team. -/
def State.opsOfTeam (s : State) (t : Nat) : List Op :=
  s.ops.filter fun o => match o.issuer with | .group u _ => u = t | _ => false

def State.obBusy (s : State) (t lo len : Nat) : Bool :=
  match s.teams[t]? with
  | none => false
  | some tm => (s.opsOfTeam t).any fun o => (opSpans tm o).any fun x => x.1 < lo + len && lo < x.1 + x.2
def State.nameBusy (s : State) (t name : Nat) : Bool := (s.opsOfTeam t).any fun o => (opNames o).contains name

/-- Whether a pending operation will still write, or reads, a tile of a span. -/
def State.tileBusy (s : State) (t : Nat) (ms : List Nat) : Bool :=
  (s.opsOfTeam t).any fun o => match o.effect with
    | .tileImage m => ms.contains m
    | .tile c n _ _ =>
      ms.any fun m => getField c.c0 26 6 ≤ m && m < getField c.c0 26 6 + n * min n 4
    | _ => false

/-! ### Checks of the X-tile forms (R228, R229) -/

/-- The fields an X-tile form uses, and the values of SUB it defines. -/
structure TileForm where
  mt : Bool
  ob : Bool
  v : Spec → List Nat
  w : Spec → List Nat
  arr : Bool
  sub : Nat → Bool
  span : Nat
  varLat : Bool
  lanes : Bool

def unusedSpec (a : Spec) : List Nat := srcDetails .none a
def vRun (dest : Bool) (a : Spec) : List Nat :=
  match opdOf a with | .v _ | .rel .. => [] | .zero => if dest then [] else [0x03] | _ => [0x03]
def kOrZero (a : Spec) : List Nat := if a = specZero then [] else kOnlyDetails false a

def tileFormDetails (f : TileForm) (w : TileW) (g : Group) (reads : List (Spec × Nat)) : List Nat :=
  headDetails g w.head [.matrix] f.varLat false ++ (if f.lanes then [] else noGuard w.head) ++
  (if f.mt || w.mt = 0 then [] else [0x04]) ++ (if f.ob || w.ob = 0 then [] else [0x04]) ++ f.v w.v ++ f.w w.w ++
  (if w.arr = 1 && !f.arr then [0x04] else []) ++
  (if w.arr = 0 && (w.sg ≠ 0 || w.slot ≠ 0) then [0x04] else []) ++
  (if f.sub w.sub.toNat then [] else [0x12]) ++ (if 64 < w.mt.toNat + f.span then [0x13] else []) ++
  hazardDetails g (accessReads g w.head reads)
def tileFormCheck (f : TileForm) (w : TileW) (reads : List (Spec × Nat)) (bound : Group → Nat → Bool) (g : Group) :
    WordCheck :=
  { details := tileFormDetails f w g reads, bank := false, bound := bound g }
def noBound : Group → Nat → Bool := fun _ _ => false
def subZero : Nat → Bool := fun n => n = 0

/-- The issuing team, and a class X failure: its mask holds every issuing lane (R230). -/
def State.ownTeam (s : State) : Option Team := s.teams[s.viewTeam s.issuer]?
def State.stopAll (s : State) (g : Group) (cause detail addr : Nat) : Out :=
  .next (s.fault s.issuer cause detail (issuing g) addr)

/-- A class X word of fixed latency over its team: a failure, a wait, or the change it makes. -/
def tileFixed (w : TileW) (words : Nat) (fail : Team → Option (Nat × Nat)) (wait : State → Bool)
    (effect : Team → Team) (s : State) (g : Group) : Out :=
  match s.ownTeam with
  | none => .fault .noIssuer
  | some t => match fail t with
    | some v => s.stopAll g v.1 v.2 0
    | none =>
      if wait s then .next (s.holdAt .obWait)
      else s.fixed g w.head ((s.modTeam (s.viewTeam s.issuer) effect).retire words)

/-! ### GANG (R231, R232) -/

def gangN (g : Group) : Nat := getField g.gang 0 4
def gangList (g : Group) : List Nat := (List.range (gangN g)).map fun q => getField g.gang (8 + 5 * q) 5

/-- The details of a gang list (R230), and of a list written while a riddle sequence is active (R261). -/
def gangDetails (t : Team) (gi n : Nat) (ka : Nat) : List Nat :=
  if n = 0 then []
  else
    let es := (List.range n).map fun q => field ka (5 * q) 5
    (if n = 1 || n = 7 || ka / 2 ^ (5 * n) ≠ 0 then [0x01] else []) ++
    (if es.contains gi then [] else [0x02]) ++
    (if (es.map (· % 8)).eraseDups.length = n then [] else [0x03]) ++
    (if es.all fun e => match t.groups[e]? with | some x => x.role = .matrix | none => false then [] else [0x04]) ++
    (if es.all fun e => match t.groups[e]? with | some x => x.cohort = BitVec.allOnes 32 | none => true then []
     else [0x05])

def formGang (w : TileW) : TileForm :=
  { mt := false, ob := false, v := if field w.sub.toNat 0 3 = 0 then unusedSpec else kOnlyDetails false,
    w := unusedSpec, arr := false, sub := fun n => n < 8, span := 0, varLat := false, lanes := false }

/-- The gang register of a successful GANG. -/
def gangWord (gi n ka : Nat) : BitVec 64 :=
  if n = 0 then 0
  else
    let pos := ((List.range n).find? fun q => field ka (5 * q) 5 = gi).getD 0
    BitVec.ofNat 64 (n + 16 * pos + 256 * (ka % 2 ^ (5 * n)))

def gangGo (w : TileW) (s : State) (g : Group) : Out :=
  match s.ownTeam with
  | none => .fault .noIssuer
  | some t =>
    let gi := issuerGroup s.issuer
    let n := field w.sub.toNat 0 3
    let ka := (readOpd g 0 w.v 0).toNat
    if s.outstanding s.issuer classX then .next (s.holdAt .gangWait)
    else
      let ds := gangDetails t gi n (if n = 0 then 0 else ka) ++
        (if t.riddles.any fun r => r.members.contains gi then [0x0B] else [])
      match leastOf ds with
      | some d => s.stopAll g cGang d 0
      | none => s.fixed g w.head
          ((s.modUnit s.issuer fun g => { g with gang := gangWord gi n ka }).retire 1)
def execGang (w : TileW) (s : State) : Out :=
  s.issueWord w.head (tileFormCheck (formGang w) w [(w.v, 1)] noBound) (gangGo w s)

/-! ### OBRES and OBREL (R222, R236, R237) -/

def formRange (words : Nat) : TileForm :=
  { mt := false, ob := true, v := unusedSpec, w := unusedSpec, arr := false, sub := subZero, span := 0,
    varLat := words = 0, lanes := false }

def obresCheck (w : TileW) (c : CBlock) (g : Group) : WordCheck :=
  let k := tileFormCheck (formRange 1) w [] noBound g
  { k with details := k.details ++ blockDetails g c }

/-- Reservation records that the teams on a core hold, one being saved among them (R222). -/
def State.coreRecords (s : State) (core : Nat) : Nat :=
  ((s.teams.filter fun t => t.core = core && onCore t).map fun t => t.ranges.length).sum

def obresGo (w : TileW) (c : CBlock) (s : State) (g : Group) : Out :=
  match s.ownTeam with
  | none => .fault .noIssuer
  | some t =>
    let name := w.ob.toNat
    let v := blockValue g c
    let held := t.ranges.any fun r => r.name = name
    if s.nameBusy (s.viewTeam s.issuer) name || (!held && 32 ≤ s.coreRecords t.core) then .next (s.holdAt .obWait)
    else if recordBad v then s.stopAll g cObrange 0x02 0
    else if recordOutside (recordOf v) t.obufUnits then s.stopAll g cObrange 0x01 0
    else s.fixed g w.head ((s.modTeam (s.viewTeam s.issuer) fun t =>
      { t with ranges := ⟨name, v⟩ :: t.ranges.filter fun r => r.name ≠ name }).retire 5)
def execObres (w : TileW) (c : CBlock) (s : State) : Out := s.issueWord w.head (obresCheck w c) (obresGo w c s)

def obrelGo (w : TileW) (s : State) (g : Group) : Out :=
  let name := w.ob.toNat
  tileFixed w 1 (fun t => if t.ranges.any fun r => r.name = name then none else some (cObrange, 0x03))
    (fun s => s.nameBusy (s.viewTeam s.issuer) name)
    (fun t => { t with ranges := t.ranges.filter fun r => r.name ≠ name }) s g
def execObrel (w : TileW) (s : State) : Out :=
  s.issueWord w.head (tileFormCheck (formRange 1) w [] noBound) (obrelGo w s)

/-! ### OBLD and OBLD.B (R238, R239) -/

def isPad (w : TileW) : Bool := w.sub.toNat % 2 = 1
def addrForm (w : TileW) : Spec → List Nat := kOnlyDetails (!isPad w)
def formObld (w : TileW) : TileForm :=
  { mt := false, ob := true, v := addrForm w, w := kOnlyDetails false, arr := true, sub := fun n => n < 2, span := 0,
    varLat := true, lanes := false }
def formObldB (w : TileW) : TileForm :=
  { mt := false, ob := false, v := addrForm w, w := vRun true, arr := true, sub := fun n => n = 2 || n = 3, span := 0,
    varLat := true, lanes := true }

/-- The source address of a load into the operand buffer or the tiles. -/
def srcAddr (g : Group) (w : TileW) : Nat := (readSrc g 0 (!isPad w) w.v).toNat

/-- The failure of a source extent (R230, steps 4 to 8) and of the ring operand. -/
def State.srcVerdict (s : State) (pad : Bool) (a n : Nat) (w : TileW) : Option (Nat × Nat × Nat) :=
  worstVerdict [alignVerdict 0x02 (a % 32 = 0), if pad then s.padVerdict a n else s.spanVerdict needR a n,
    s.ringVerdict (w.arr = 1) w.sg.toNat w.slot.toNat]
def arriveOf (w : TileW) : Option (Nat × Nat) := if w.arr = 1 then some (w.sg.toNat, w.slot.toNat) else none

def obldGo (w : TileW) (s : State) (g : Group) : Out :=
  match s.ownTeam with
  | none => .fault .noIssuer
  | some t =>
    let kb := (readOpd g 0 w.w 0).toNat
    let off := 32 * field kb 0 12
    let len := 32 * field kb 12 13
    let a := srcAddr g w
    let pad := isPad w
    match rangeOf t w.ob.toNat with
    | none => s.stopAll g cObrange 0x03 0
    | some r =>
      if len = 0 || 131072 < len || r.len < off + len then s.stopAll g cObrange 0x04 0
      else match s.srcVerdict pad a len w with
        | some v => s.stopAll g v.2.1 v.2.2 a
        | none =>
          if flagBlocked g (selectedFlag g w.head.fs) then .next (s.holdAt .flagFull)
          else if s.obBusy (s.viewTeam s.issuer) (r.base + off) len || (pad && s.padBusy a len) then
            .next (s.holdAt .obWait)
          else if s.acquiring s.issuer then .next (s.holdAt .fence)
          else
            let s1 := if pad then s else s.cacheTrans s.dieCtx.1 s.dieCtx.2 (pagesOf a len)
            let o := { Op.blank s.nextId s.issuer .obld (selectedFlag g w.head.fs) with
              arrive := arriveOf w
              todo := bufMoves pad a (r.base + off) len
              trans := if pad then [] else s.transFor s.dieCtx.1 s.dieCtx.2 (pagesOf a len)
              effect := .obLoad w.ob.toNat (r.base + off) len }
            .next ((s1.launchOp [] o).retire 1)
def execObld (w : TileW) (s : State) : Out :=
  s.issueWord w.head (tileFormCheck (formObld w) w [(w.v, if isPad w then 1 else 2), (w.w, 1)] noBound) (obldGo w s)

/-- `OBLD.B`: with every guard false it reads nothing and completes at once, its ring operand checked and its arrival
made all the same (R16, R20, R216, R239). -/
def obldBGo (w : TileW) (s : State) (g : Group) : Out :=
  let a := srcAddr g w
  let pad := isPad w
  let lanes := lanesOf (guardMask g w.head)
  let names := runWrites g w.w 13
  let flag := selectedFlag g w.head.fs
  match (if lanes = [] then s.ringVerdict (w.arr = 1) w.sg.toNat w.slot.toNat else s.srcVerdict pad a 1664 w) with
  | some v => s.stopAll g v.2.1 v.2.2 a
  | none =>
    if flagBlocked g flag then .next (s.holdAt .flagFull)
    else if lanes = [] then
      let s1 := match arriveOf w with
        | some r => s.arriveAt (issuerTeam s.issuer) r.1 r.2
        | none => s
      .next ((s1.emptyOp names flag).retire 1)
    else if pad && s.padBusy a 1664 then .next (s.holdAt .obWait)
    else if s.acquiring s.issuer then .next (s.holdAt .fence)
    else
      let s1 := if pad then s else s.cacheTrans s.dieCtx.1 s.dieCtx.2 (pagesOf a 1664)
      let ds := lanes.flatMap fun l => (List.range 13).filterMap fun j =>
        (nthName g l w.w j).map fun r => (a + 128 * j + 4 * l, r, l)
      let o := { Op.blank s.nextId s.issuer .obld flag with
        arrive := arriveOf w
        dests := ds.map fun d => (d.2.1, some d.2.2)
        trans := if pad then [] else s.transFor s.dieCtx.1 s.dieCtx.2 (pagesOf a 1664)
        todo := ds.map fun d =>
          if pad then .padRead d.1 ⟨d.2.1, some d.2.2, 4, false, none⟩ else .word d.1 d.2.1 d.2.2 }
      .next ((s1.launchOp names o).retire 1)
def execObldB (w : TileW) (s : State) : Out :=
  s.issueWord w.head (tileFormCheck (formObldB w) w [(w.v, if isPad w then 1 else 2)]
    (fun g l => boundFails g l 1 13 w.w)) (obldBGo w s)

/-- The completion event of an operation of some kinds that moves piece by piece: its next move, or, once nothing is left,
its arrival and its delivery. -/
def execTransfer (kinds : List OpKind) (s : State) : Out :=
  match s.opOf kinds with
  | none => .next s
  | some o => s.progress o fun o => .next (s.completeOp o)

/-- OBLD_COMPLETE (R238, R239): the last byte is written, then an arrival may follow. -/
def execObldComplete (s : State) : Out := execTransfer [.obld] s

/-! ### Gang-collectives (R233) -/

/-- The gang register with POS left out (R233). -/
def gangLists (g : Group) : BitVec 64 := setField g.gang 4 4 0

/-- The held threads of a gathered word released, and its words passed. -/
def State.releaseBy (s : State) (words : Nat) : State :=
  (s.modUnit s.issuer fun g => match g.clause with
    | some c => { releaseThreads g c with latch := none }
    | none => { g with latch := none }).retire words

/-- A stop of groups of a team that hold a gang-collective word; each names its own issuing lanes. The stops enter the
queue in ascending group index (R273). -/
def State.stopMembers (s : State) (t : Nat) (members : List Nat) (cause detail addr : Nat) : State :=
  ((List.range 32).filter members.contains).foldl (fun s gi =>
    let mask := ((s.group? t gi).map issuing).getD 0
    s.fault (.group t gi) cause detail mask addr) s

/-- The latches of some groups. -/
def State.latches (s : State) (t : Nat) (members : List Nat) : List Latch :=
  members.filterMap fun gi => (s.group? t gi).bind Group.latch

/-- The groups of the issuer's rendezvous: those of the first latched list that names the issuer and is complete. -/
def State.meeting (s : State) (t gi : Nat) : Option (List Nat) :=
  match s.teams[t]? with
  | none => none
  | some tm => tm.groups.findSome? fun x =>
      let ms := gangList x
      if x.latch.isSome && ms.contains gi && (s.latches t ms).length = ms.length then some ms else none

/-- A gang-collective word (R233): latched by each member, compared and carried out by the last. `perform` sees the
member list and their latches in order of position. -/
def gangCollective (latch : Group → Latch) (perform : Nat → List Nat → List Latch → State → Out) (s : State) (g : Group) :
    Out :=
  s.gather g g.cohort g.cohort (fun _ => (0, 0)) fun s g _ =>
    match s.issuer with
    | .group t gi =>
      if gangN g = 0 then s.stopAll g cGang 0x06 0
      else
        let s1 := if g.latch.isSome then s else
          s.modUnit s.issuer fun g => { g with latch := some (latch g), hold := .latch }
        if (gangList g).any fun m => match s1.group? t m with | some x => decide (x.run = .ended) | none => false then
          .next (s1.stopMembers t [gi] cGang 0x09 0)
        else match s1.meeting t gi with
          | none => .next s1
          | some ms =>
            let ls := s1.latches t ms
            let words := ls.all fun l => some l.instr = (ls.head?.map Latch.instr)
            let lists := ms.all fun m =>
              ((s1.group? t m).map gangLists) = (ms.head?.bind fun h => (s1.group? t h).map gangLists)
            if !words then .next (s1.stopMembers t ms cGang 0x07 0)
            else if !lists then .next (s1.stopMembers t ms cGang 0x08 0)
            else perform t ms ls s1
    | _ => .fault .noIssuer

/-- Whether some member's flag is full (R16). -/
def State.gangBlocked (s : State) (t : Nat) (ms : List Nat) (h : Head) : Bool :=
  ms.any fun m => match s.group? t m with | some g => flagBlocked g (selectedFlag g h.fs) | none => false

/-- Every member issues at once: its pending operation, and the words passed. -/
def State.issueGang (s : State) (t : Nat) (ms : List Nat) (h : Head) (words : Nat) (kind : OpKind)
    (names : Nat → List RegName) (shape : Nat → Op → Op) : State :=
  ms.foldl (fun s m => s.asIssuer (.group t m) fun s =>
    match s.group? t m with
    | some g =>
      (s.launchOp (names m) (shape m (Op.blank s.nextId s.issuer kind (selectedFlag g h.fs)))).releaseBy words
    | none => s) s

/-! ### MMA and MMAS (R240-R245) -/

/-- What R240 judges of an X-mul word; `riddle` is MMAR's. -/
def mulCheck (riddle : Bool) (w : MulW) (g : Group) : WordCheck :=
  let n := gangN g
  { details := headDetails g w.head [.matrix] true false ++ noGuard w.head ++
      (if w.rsv = 0 && (riddle || (w.b = 0 && w.e = 0)) then [] else [0x04]) ++
      (if w.sc = 0 && w.gk ≠ 0 then [0x04] else []) ++
      (if w.bs = 0 then (if 8 < w.bfmt.toNat then [0x0B] else []) ++ vRun false w.bsrc
       else if w.bfmt = 0 then [] else [0x04]) ++
      (if 64 < w.mt.toNat + n * min n 4 then [0x13] else []) ++
      hazardDetails g (accessReads g w.head (if w.bs = 0 then [(w.bsrc, 13)] else []) ++
        (if w.sc = 1 then [.k w.gk.toNat] else []))
    bank := false
    bound := fun l => w.bs = 0 && boundFails g l 1 13 w.bsrc }

/-- The operands a member reads at its issue (R233). -/
def mulLatch (i : Instr) (w : MulW) (vals : Group → List Word64) (g : Group) : Latch :=
  { instr := i
    vregs := if w.bs = 0 then (List.range 32).map fun l => (List.range 13).map fun j => readOpd g l w.bsrc j else []
    gamma := if w.sc = 1 then readK g w.gk.toNat else 0
    values := vals g
    flag := selectedFlag g w.head.fs
    map := none }

/-- Whether an A and a B format pair (R242). -/
def fmtPair (a b : Nat) : Bool :=
  (a = 0 && b = 0) || (a = 8 && b = 8) || (1 ≤ a && a ≤ 4 && 1 ≤ b && b ≤ 4) || (a = 7 && b = 7) ||
  (a = 5 && b = 5) || (a = 6 && b = 6)

def bName (w : MulW) : Nat := field w.bsrc.toNat 5 5
def bChunk (w : MulW) : Nat := field w.bsrc.toNat 0 5

/-- The OBRANGE details of a multiply that its records alone decide (R241, R242). -/
def mulRangeDetails (w : MulW) (sparse : Bool) (n : Nat) (t : Team) : List Nat :=
  let c := min n 4
  let a := rangeOf t w.oba.toNat
  let b := if w.bs = 1 then rangeOf t (bName w) else none
  (if a.isNone || (w.bs = 1 && b.isNone) then [0x03] else []) ++
  (match a with
   | none => []
   | some r =>
     (if r.rows < 16 * n || r.kch ≤ w.aoff.toNat then [0x04] else []) ++
     (if (r.sp ≠ 0) = sparse then [] else [0x05]) ++
     (if w.bs = 0 then (if fmtPair r.fmt w.bfmt.toNat then [] else [0x05])
      else match b with
        | none => []
        | some q =>
          (if q.rows < 16 * c || q.kch ≤ bChunk w then [0x04] else []) ++
          (if fmtPair r.fmt q.fmt && q.sp = 0 && q.soff = 0 && q.scap = 0 then [] else [0x05])))

/-- The details that the rows read decide: side-list indices and sparsity metadata (R242, R244). -/
def mulDataDetails (t : Team) (r : ObRec) (rows : List Nat) (ch : Nat) : List Nat :=
  (if rows.any fun x => sideBeyond t r x ch then [0x06] else []) ++
  (if r.sp ≠ 0 && rows.any fun x => !positionsOk r (positionsOf t r x ch) then [0x07] else [])

/-- The B columns of a slice. -/
def sliceCols (w : MulW) (t : Team) (ls : List Latch) (sl : Nat) : List BCol :=
  (List.range 16).map fun col =>
    if w.bs = 0 then
      let v := (ls[sl]?.map Latch.vregs).getD []
      bColRegs w.bfmt.toNat (v.getD col []) (v.getD (col + 16) [])
    else match rangeOf t (bName w) with
      | some r => bColRange t r (16 * sl + col) (bChunk w)
      | none => ⟨[], [], false⟩

/-- One member's tiles and status of a multiply whose output row x takes A row `row x` of a range. -/
def mulMember (w : MulW) (src : ObRec) (row : Nat → Nat) (n p : Nat) (gamma : Reg32) (cols : List (List BCol)) (t : Team) :
    Team × BitVec 32 :=
  let c := min n 4
  let rows := (List.range 16).map fun r => aRow t src (row (16 * p + r)) w.aoff.toNat
  (List.range (c * 256)).foldl (fun acc i =>
    let sl := i / 256
    let r := i % 256 / 16
    let col := i % 16
    let m := w.mt.toNat + p * c + sl
    let e := mulElem w (isIntFmt src.fmt) (tileElem t m r col) gamma (rows.getD r ⟨[], []⟩)
      ((cols.getD sl []).getD col ⟨[], [], false⟩)
    (tilePut acc.1 m r col e.1, acc.2 ||| e.2)) (t, 0)

/-- A whole multiply: the team after it, and each member's status by position. -/
def mulAll (w : MulW) (src : ObRec) (row : Nat → Nat) (n : Nat) (ls : List Latch) (t : Team) : Team × List (BitVec 32) :=
  let cols := (List.range (min n 4)).map (sliceCols w t ls)
  let esc := bitIf (cols.any fun c => c.any BCol.esc) msESCB
  (List.range n).foldl (fun acc p =>
    let gamma := (ls[p]?.map Latch.gamma).getD 0
    let r := mulMember w src row n p gamma cols acc.1
    (r.1, acc.2 ++ [r.2 ||| esc])) (t, [])

/-- The tiles a multiply writes. -/
def mulTiles (w : MulW) (n : Nat) : List Nat := (List.range (n * min n 4)).map (w.mt.toNat + ·)

/-- Whether the ranges and tiles a multiply touches still have an earlier operation pending (R225). -/
def State.mulBusy (s : State) (t : Nat) (names : List Nat) (tiles : List Nat) : Bool :=
  s.tileBusy t tiles || (match s.teams[t]? with
    | some tm => names.any fun n => match rangeOf tm n with | some r => s.obBusy t r.base r.len | none => false
    | none => false)
def mulNames (w : MulW) : List Nat := w.oba.toNat :: (if w.bs = 1 then [bName w] else [])

def mmaPerform (w : MulW) (sparse : Bool) (t : Nat) (ms : List Nat) (ls : List Latch) (s : State) : Out :=
  match s.teams[t]? with
  | none => .fault .noIssuer
  | some tm =>
    let n := ms.length
    if notReserved tm (mulTiles w n) then .next (s.stopMembers t ms cTileown 0x01 0)
    else match leastOf (mulRangeDetails w sparse n tm), rangeOf tm w.oba.toNat with
      | some d, _ => .next (s.stopMembers t ms cObrange d 0)
      | none, none => .fault .noIssuer
      | none, some r =>
        if s.mulBusy t (mulNames w) (mulTiles w n) || s.gangBlocked t ms w.head then .next s
        else match leastOf (mulDataDetails tm r (List.range (16 * n)) w.aoff.toNat) with
          | some d => .next (s.stopMembers t ms cObrange d 0)
          | none =>
            let x := mulAll w r id n ls tm
            .next ((s.modTeam t fun _ => x.1).issueGang t ms w.head 1 .mma (fun _ => []) fun m o =>
              { o with mstat := x.2.getD ((ms.idxOf? m).getD 0) 0 })

def execMma (w : MulW) (s : State) : Out :=
  s.issueWord w.head (mulCheck false w) (gangCollective (mulLatch (.mma w) w fun _ => []) (mmaPerform w false) s)
def execMmas (w : MulW) (s : State) : Out :=
  s.issueWord w.head (mulCheck false w) (gangCollective (mulLatch (.mmas w) w fun _ => []) (mmaPerform w true) s)

/-- MMA_COMPLETE (R245): a member's last tile is written and its flag counts down; from then on the map that an `MMAR` wrote
is its write too (R332). -/
def execMmaComplete (s : State) : Out :=
  match s.opOf [.mma] with
  | none => .next s
  | some o => match o.effect with
    | .member ids =>
      .next (({ s with updates := s.updates.map fun u =>
        if ids.contains u.id then { u with grps := issuerGroup o.issuer :: u.grps } else u } : State).completeOp o)
    | _ => .next (s.completeOp o)

/-! ### TRES, TREL, TZERO (R246) -/

def spanOf (w : TileW) : List Nat := (List.range (w.sub.toNat % 64 + 1)).map (w.mt.toNat + ·)
def formSpan (w : TileW) : TileForm :=
  { mt := true, ob := false, v := unusedSpec, w := unusedSpec, arr := false, sub := fun n => n < 64,
    span := w.sub.toNat % 64 + 1, varLat := false, lanes := false }
def formTile (varLat lanes arr : Bool) (v w : Spec → List Nat) (sub : Nat → Bool) : TileForm :=
  { mt := true, ob := false, v := v, w := w, arr := arr, sub := sub, span := 1, varLat := varLat, lanes := lanes }

def execTres (w : TileW) (s : State) : Out :=
  s.issueWord w.head (tileFormCheck (formSpan w) w [] noBound)
    (tileFixed w 1
      (fun t =>
        if (spanOf w).any fun m => t.tiles.length ≤ m then some (cTileown, 0x01)
        else if (spanOf w).any fun m => ((t.tiles[m]?).map Tile.reserved).getD false then some (cTileown, 0x02) else none)
      (fun _ => false)
      (fun t => (spanOf w).foldl (fun t m => { t with tiles := modAt t.tiles m fun _ => ⟨true, []⟩ }) t) s)
def execTrel (w : TileW) (s : State) : Out :=
  s.issueWord w.head (tileFormCheck (formSpan w) w [] noBound)
    (tileFixed w 1 (fun t => if notReserved t (spanOf w) then some (cTileown, 0x01) else none)
      (fun s => s.tileBusy (s.viewTeam s.issuer) (spanOf w))
      (fun t => (spanOf w).foldl (fun t m => { t with tiles := modAt t.tiles m fun _ => ⟨false, []⟩ }) t) s)
def execTzero (w : TileW) (s : State) : Out :=
  s.issueWord w.head (tileFormCheck (formTile false false false unusedSpec unusedSpec subZero) w [] noBound)
    (tileFixed w 1 (fun t => if notReserved t [w.mt.toNat] then some (cTileown, 0x01) else none)
      (fun s => s.tileBusy (s.viewTeam s.issuer) [w.mt.toNat])
      (fun t => { t with tiles := modAt t.tiles w.mt.toNat fun x => { x with elems := [] } }) s)

/-! ### TRD, TWR, TST, TSCL, TSAVE, TLOAD (R247-R250) -/

/-- A variable-latency word on one tile: its failures, its waits, and the operation it starts. -/
def tileOpGo (w : TileW) (kind : OpKind) (names : List RegName) (fail : Option (Nat × Nat × Nat)) (addr : Nat)
    (wait : Bool) (idle : Bool) (effect : State → State) (shape : Op → Op) (s : State) (g : Group) : Out :=
  match s.ownTeam with
  | none => .fault .noIssuer
  | some t =>
    let m := w.mt.toNat
    if notReserved t [m] then s.stopAll g cTileown 0x01 0
    else match fail with
      | some v => s.stopAll g v.2.1 v.2.2 addr
      | none =>
        let flag := selectedFlag g w.head.fs
        if flagBlocked g flag then .next (s.holdAt .flagFull)
        else if wait || s.tileBusy (s.viewTeam s.issuer) [m] then .next (s.holdAt .obWait)
        else if idle then .next ((s.emptyOp names flag).retire 1)
        else .next (((effect s).launchOp names
          (shape (Op.blank s.nextId s.issuer kind flag))).retire 1)

def execTrd (w : TileW) (s : State) : Out :=
  s.issueWord w.head (tileFormCheck (formTile true true false (vRun true) unusedSpec subZero) w []
    (fun g l => boundFails g l 1 8 w.v)) (fun g =>
      let ws := match s.ownTeam with
        | some t => (lanesOf (guardMask g w.head)).flatMap fun l => (List.range 8).filterMap fun j =>
            (nthName g l w.v j).map fun r => (⟨r, some l, tileElem t w.mt.toNat (l / 2) (8 * (l % 2) + j)⟩ : RegWrite)
        | none => []
      tileOpGo w .tileReg (runWrites g w.v 8) none 0 false (guardMask g w.head = 0) id
        (fun o => { o with writes := ws, dests := destsOf ws }) s g)

def execTwr (w : TileW) (s : State) : Out :=
  s.issueWord w.head (tileFormCheck (formTile true true false (vRun false) unusedSpec subZero) w [(w.v, 8)]
    (fun g l => boundFails g l 1 8 w.v)) (fun g =>
      tileOpGo w .tileReg [] none 0 false (guardMask g w.head = 0)
        (fun s => s.modTeam (s.viewTeam s.issuer) fun t => (lanesOf (guardMask g w.head)).foldl (fun t l =>
          (List.range 8).foldl (fun t j => tilePut t w.mt.toNat (l / 2) (8 * (l % 2) + j) (readOpd g l w.v j)) t) t) id s g)

/-- A tile element in the stored form of TST (R248). -/
def storedElem (cv : Nat) (x : Reg32) : List Byte :=
  match cv with
  | 0 => bytesOfNat 4 x.toNat
  | 1 => bytesOfNat 2 (rneBf (val32 x.toNat))
  | _ => bytesOfNat 2 (rne16 (val32 x.toNat))

def tstGo (w : TileW) (s : State) (g : Group) : Out :=
  let cv := w.sub.toNat
  let rowLen := if cv = 0 then 64 else 32
  let a := (readOpd g 0 w.v 0).toNat
  let st := if w.w = specZero then rowLen else (readOpd g 0 w.w 0).toNat
  let n := 15 * st + rowLen
  let fail := worstVerdict [alignVerdict 0x02 (a % 32 = 0 && st % 32 = 0 && rowLen ≤ st),
    worstVerdict ((List.range 16).map fun r => s.padVerdict (a + r * st) rowLen),
    s.ringVerdict (w.arr = 1) w.sg.toNat w.slot.toNat]
  let rows (t : Team) : List (Nat × List Byte) := (List.range 16).map fun r =>
    (a + r * st, (List.range 16).flatMap fun c => storedElem cv (tileElem t w.mt.toNat r c))
  tileOpGo w .tst [] fail a (s.padBusy a n || s.acquiring s.issuer) false id (fun o => { o with
    arrive := arriveOf w
    todo := padMoves ((s.ownTeam.map rows).getD []) }) s g
def execTst (w : TileW) (s : State) : Out :=
  s.issueWord w.head (tileFormCheck (formTile true false true (kOnlyDetails false) kOrZero fun n => n < 3) w
    [(w.v, 1), (w.w, 1)] noBound) (tstGo w s)

/-- One element of TSCL (R249). -/
def tsclElem (int sat : Bool) (gamma x : Reg32) : Reg32 × BitVec 32 :=
  if int then
    let p := x.toInt * gamma.toInt
    if sat then (BitVec.ofInt 32 (clamp32 p), bitIf (clamp32 p ≠ p) msISAT) else (BitVec.ofInt 32 p, 0)
  else
    let r := scaleAcc gamma.toNat x.toNat
    (BitVec.ofNat 32 r.bits, bitIf r.mnv msMNV ||| bitIf r.mof msMOF)

def tsclGo (w : TileW) (s : State) (g : Group) : Out :=
  let f := tsclElem (bitOf w.sub.toNat 0) (bitOf w.sub.toNat 1) (readOpd g 0 w.v 0)
  let m := w.mt.toNat
  let st := match s.ownTeam with
    | some t => (List.range 256).foldl (fun b i => b ||| (f (tileElem t m (i / 16) (i % 16))).2) (0 : BitVec 32)
    | none => 0
  tileOpGo w .tileReg [] none 0 false false
    (fun s => s.modTeam (s.viewTeam s.issuer) fun t => tileFill t m fun r c => (f (tileElem t m r c)).1)
    (fun o => { o with mstat := st }) s g
def execTscl (w : TileW) (s : State) : Out :=
  s.issueWord w.head (tileFormCheck (formTile true false false (kOnlyDetails false) unusedSpec
    fun n => n < 4 && n ≠ 2) w [(w.v, 1)] noBound) (tsclGo w s)

/-- TSAVE and TLOAD: the extent is 1 KiB of memory (R250). -/
def imageGo (save : Bool) (w : TileW) (s : State) (g : Group) : Out :=
  let a := (readSrc g 0 true w.v).toNat
  let m := w.mt.toNat
  let fail := worstVerdict [alignVerdict 0x02 (a % 32 = 0), s.spanVerdict (if save then needW else needR) a 1024,
    if save && a + 1024 ≤ 2 ^ 48 then s.rowsLog 1 [(a, 1024)] else none,
    s.ringVerdict (w.arr = 1) w.sg.toNat w.slot.toNat]
  let image (t : Team) : List Byte :=
    (List.range 256).flatMap fun i => bytesOfNat 4 (tileElem t m (i / 16) (i % 16)).toNat
  let issue (s : State) : State :=
    let s1 := s.cacheTrans s.dieCtx.1 s.dieCtx.2 (pagesOf a 1024)
    if save then s1.reserveRows false [(a, 1024)] else s1
  tileOpGo w .tileImage [] fail a (s.acquiring s.issuer) false issue (fun o => { o with
    arrive := arriveOf w
    trans := s.transFor s.dieCtx.1 s.dieCtx.2 (pagesOf a 1024)
    todo := if save then storeMoves [(a, (s.ownTeam.map image).getD [])] else imageMoves m a
    effect := if save then .none else .tileImage m }) s g
def formImage : TileForm := formTile true false true (kOnlyDetails true) unusedSpec subZero
def execTsave (w : TileW) (s : State) : Out :=
  s.issueWord w.head (tileFormCheck formImage w [(w.v, 2)] noBound) (imageGo true w s)
def execTload (w : TileW) (s : State) : Out :=
  s.issueWord w.head (tileFormCheck formImage w [(w.v, 2)] noBound) (imageGo false w s)

/-- TILE_REG_COMPLETE (R247, R249). -/
def execTileRegComplete (s : State) : Out :=
  match s.opOf [.tileReg] with
  | none => .next s
  | some o => .next (s.completeOp o)

/-- TST_COMPLETE (R248, R389): every byte is written, then an arrival may follow; it is a release at team scope. -/
def execTstComplete (s : State) : Out :=
  match s.opOf [.tst] with
  | none => .next s
  | some o => s.progress o fun o => if o.arrive.isSome && !s.writesDone o false then .next s else .next (s.completeOp o)

/-- TSAVE_TLOAD_COMPLETE (R250): the image is written to its home slices, or read into the tile. -/
def execTsaveTloadComplete (s : State) : Out := execTransfer [.tileImage] s

end Sys2Proof.Machine
end

