-- ==== Sys2Proof/Machine/Riddle.lean ====
section
/-!
DEFINITION. The riddle stage and the flue (R251-R268): `MMAR`, `RMAP` and `TEPI`.
-/
namespace Sys2Proof.Machine

/-! ### The riddle block (R252) -/

structure RiddleBlock where
  w : Nat
  rep : Nat
  cap : Nat
  salt : Nat
  map : Nat
  rrob : Nat

def riddleOf (vs : List Word64) : RiddleBlock :=
  let c (i : Nat) : Word64 := vs.getD i 0
  { w := getField (c 0) 0 4, rep := getField (c 0) 4 2, cap := getField (c 0) 6 4 + 1, salt := getField (c 1) 0 32,
    map := getField (c 2) 0 19, rrob := getField (c 3) 0 5 }

/-- Whether a block holds a value or a combination that its table forbids; `fmt` is A's format. -/
def riddleBad (vs : List Word64) (fmt : Nat) : Bool :=
  let b := riddleOf vs
  let c (i : Nat) : Word64 := vs.getD i 0
  getField (c 0) 10 51 ≠ 0 || getField (c 1) 32 29 ≠ 0 || getField (c 2) 19 42 ≠ 0 || getField (c 3) 5 56 ≠ 0 ||
  b.rep = 3 || (b.rep = 2 && (b.w ≠ 0 || b.cap ≠ 1 || b.salt ≠ 0)) || (b.rep ≠ 2 && (b.w = 0 || 8 < b.w)) ||
  (b.rep ≠ 1 && b.rrob ≠ 0) || (b.rep = 1 && fmt ≠ 5 && fmt ≠ 6)

/-! ### Signatures and buckets (R254, R255) -/

/-- The mixing function of R254. -/
def mix64 (z : Word64) : Word64 :=
  let z := z ^^^ (z >>> 32)
  let z := z * 0xB7E151628AED2A6B
  let z := z ^^^ (z >>> 29)
  let z := z * 0x243F6A8885A308D3
  z ^^^ (z >>> 32)

/-- Whether the generator gives −1 at signature bit `j` and element `k`. -/
def rvNeg (seed : Word64) (j k : Nat) : Bool :=
  (mix64 (seed + BitVec.ofNat 64 (j * 2 ^ 24 + k / 64 + 1) * 0x9E3779B97F4A7C15)).getLsbD (k % 64)

/-- Every element of a row across its chunks, in K order; an integer is its exact value. -/
def rowElems (t : Team) (r : ObRec) (row : Nat) : List FVal :=
  (List.range r.kch).flatMap fun ch =>
    let a := aRow t r row ch
    if isIntFmt r.fmt then a.ints.flatten.map fun x => ofInt (x.getD 0) else a.floats.flatten.map fun x => x.getD .nan

def notFinite (x : FVal) : Bool := isNan x || isInf x

/-- One signature (R254): 0 for a row that is not finite. -/
def signatureOf (seed : Word64) (w : Nat) (xs : List FVal) : Nat :=
  if xs.any notFinite then 0
  else (List.range w).foldl (fun sig j =>
    let t := (xs.mapIdx fun k x => if rvNeg seed j k then fneg x else x).foldl (fadd .rne) (.fin false 0 0)
    match t with
    | .fin false m _ => if m = 0 then sig else sig + 2 ^ j
    | _ => sig) 0

/-- A part while buckets are formed: signature, first row, members, and whether it holds a row that is not finite. -/
structure Part where
  sig : Nat
  first : Nat
  count : Nat
  nf : Bool

/-- The representatives of rows from their signatures, with RSING and RSPLIT (R255). `parts` holds the most
recent part first. -/
def buckets (cap : Nat) : List (Nat × Bool) → Nat → List Part → List Nat × BitVec 32
  | [], _, _ => ([], 0)
  | (sig, nf) :: rest, r, parts =>
    let last := parts.find? fun p => p.sig = sig
    if nf then
      let x := buckets cap rest (r + 1) (⟨sig, r, 1, true⟩ :: parts)
      (r :: x.1, x.2 ||| msRSING)
    else match last with
      | some p =>
        if !p.nf && p.count < cap then
          let x := buckets cap rest (r + 1) (⟨sig, p.first, p.count + 1, false⟩ :: parts)
          (p.first :: x.1, x.2)
        else
          let x := buckets cap rest (r + 1) (⟨sig, r, 1, false⟩ :: parts)
          (r :: x.1, if p.nf then x.2 else x.2 ||| msRSPLIT)
      | none =>
        let x := buckets cap rest (r + 1) (⟨sig, r, 1, false⟩ :: parts)
        (r :: x.1, x.2)

/-- Whether a membership map over some rows is well formed (R255). -/
def mapOk (m : List Nat) : Bool := m.all fun q => q < m.length && m.getD q 0 = q

/-! ### MEAN rows (R256) -/

/-- One representative row of MEAN: each element's mean over the members, as two bytes. -/
def meanRow (t : Team) (r : ObRec) (members : List Nat) : List Byte :=
  let rows := members.map fun x => rowElems t r x
  let count := rne32 (ofInt members.length)
  (List.range (48 * r.kch)).flatMap fun k =>
    let s := rows.foldl (fun s row => rne32 (fadd .rne (val32 s) (row.getD k .nan))) 0
    let m := val32 (opDiv .rne false s count).bits
    bytesOfNat 2 (if r.fmt = 5 then rneBf m else rne16 m)

/-- The team with every representative's row written to RROB; the sums read A as it stood (R256). -/
def meanRows (t : Team) (a q : ObRec) (reps : List Nat) : Team :=
  reps.eraseDups.foldl (fun u p =>
    obWrite u (q.base + p * q.stride) (meanRow t a ((List.range reps.length).filter fun r => reps.getD r 0 = p))) t

/-! ### MMAR (R251-R258) -/

/-- The OBRANGE details of RROB (R256, R260). -/
def rrobDetails (t : Team) (w : MulW) (n rrob : Nat) : List Nat :=
  match rangeOf t rrob, rangeOf t w.oba.toNat with
  | none, _ => [0x03]
  | some q, some a => if q.fmt = a.fmt && q.sp = 0 && q.kch = a.kch && 16 * n ≤ q.rows then [] else [0x05]
  | some _, none => []

/-- The rows of A that an `MMAR` reads, with their chunks. -/
def readRows (w : MulW) (a : ObRec) (n : Nat) (all : Bool) (reps : List Nat) : List (Nat × Nat) :=
  if all then (List.range (16 * n)).flatMap fun r => (List.range a.kch).map fun ch => (r, ch)
  else reps.eraseDups.map fun r => (r, w.aoff.toNat)

/-- The map of a `.BEGIN` written to a team's scratchpad, and the updates that it produces: they count as no group's write
until a member's flag counts down (R332). -/
def State.mapStore (s : State) (t a : Nat) (bs : List Byte) : State × List Nat :=
  let s1 := s.padStore t [] a bs
  let new (u : Update) : Bool := s.nextId ≤ u.id
  ({ s1 with updates := s1.updates.map fun u => if new u then { u with windowOpen := false } else u },
    (s1.updates.filter new).map Update.id)

/-- What a multiply of a sequence does once its checks have passed. -/
def mmarGo (w : MulW) (t : Nat) (ms : List Nat) (ls : List Latch) (a : ObRec) (z : Riddle) (bits : BitVec 32) (tm : Team)
    (map : Option (Nat × List Byte)) (s : State) : Out :=
  let n := ms.length
  let src := if z.rep = 1 then (rangeOf tm z.rrob).getD a else a
  let x := mulAll w src (fun r => z.rows.getD r 0) n ls tm
  let keep := x.1.riddles.filter fun r => r.members ≠ ms
  let s1 := s.modTeam t fun _ => { x.1 with riddles := if w.e = 1 then keep else z :: keep }
  let s2 := match map with | some m => s1.mapStore t m.1 m.2 | none => (s1, [])
  .next (s2.1.issueGang t ms w.head 5 .mma (fun _ => []) fun m o =>
    { o with mstat := x.2.getD ((ms.idxOf? m).getD 0) 0 ||| bits, effect := .member s2.2 })

/-- The faults of `.BEGIN` after step 3: the map's alignment, bound and mode, and GIVEN's map (R230, R255, R258). -/
def State.beginFault (s : State) (b : RiddleBlock) (n : Nat) : Option (Nat × Nat × Nat) :=
  match worstVerdict [alignVerdict 0x02 (b.map % 32 = 0), s.padVerdict b.map (16 * n)] with
  | some v => some v
  | none =>
    if b.rep = 2 && !mapOk ((s.padRead b.map (16 * n)).map BitVec.toNat) then some (8, cObrange, 0x09) else none

/-- `.BEGIN` carried out: the state of the sequence, the team with the MEAN rows written, and the status
bits. -/
def beginRiddle (tm : Team) (a : ObRec) (b : RiddleBlock) (seed : Word64) (ms : List Nat) : Riddle × Team × BitVec 32 :=
  let n := ms.length
  let x : List Nat × BitVec 32 :=
    if b.rep = 2 then ((scratchRead tm b.map (16 * n)).map BitVec.toNat, 0)
    else buckets b.cap ((List.range (16 * n)).map fun r =>
      let xs := rowElems tm a r
      (signatureOf (seed ^^^ BitVec.ofNat 64 b.salt) b.w xs, xs.any notFinite)) 0 []
  let tm1 := if b.rep = 1 then match rangeOf tm b.rrob with | some q => meanRows tm a q x.1 | none => tm else tm
  (⟨ms, b.rep, b.rrob, x.1⟩, tm1, x.2)

def mmarPerform (w : MulW) (t : Nat) (ms : List Nat) (ls : List Latch) (s : State) : Out :=
  match s.teams[t]? with
  | none => .fault .noIssuer
  | some tm =>
    let n := ms.length
    let active := tm.riddles.find? fun r => r.members = ms
    let opens : Bool := decide (w.b = 1)
    let vs := ((ls.head?).map Latch.values).getD []
    let b := riddleOf vs
    let mean : Bool := match active with | some z => decide (z.rep = 1) | none => opens && b.rep = 1
    let rrob := match active with | some z => z.rrob | none => b.rrob
    if opens = active.isSome then .next (s.stopMembers t ms cGang 0x0A 0)
    else if notReserved tm (mulTiles w n) then .next (s.stopMembers t ms cTileown 0x01 0)
    else match leastOf (mulRangeDetails w false n tm ++ (if mean then rrobDetails tm w n rrob else [])),
        rangeOf tm w.oba.toNat with
      | some d, _ => .next (s.stopMembers t ms cObrange d 0)
      | none, none => .fault .noIssuer
      | none, some a =>
        let names := mulNames w ++ (if mean then [rrob] else [])
        if s.mulBusy t names (mulTiles w n) || s.gangBlocked t ms w.head || (opens && s.padBusy b.map (16 * n)) ||
            ms.any fun m => s.acquiring (.group t m) then
          .next s
        else
          let given := (s.padRead b.map (16 * n)).map BitVec.toNat
          let reps := match active with
            | some z => if z.rep = 1 then [] else z.rows
            | none => if b.rep = 2 && mapOk given then given else []
          let rows := readRows w a n (opens && b.rep ≠ 2) reps
          match leastOf ((if rows.any fun x => sideBeyond tm a x.1 x.2 then [0x06] else []) ++
              (if opens && riddleBad vs a.fmt then [0x08] else [])) with
          | some d => .next (s.stopMembers t ms cObrange d 0)
          | none => match active with
            | some z => mmarGo w t ms ls a z 0 tm none s
            | none => match s.beginFault b n with
              | some v => .next (s.stopMembers t ms v.2.1 v.2.2 b.map)
              | none =>
                let x := beginRiddle tm a b (((s.launchOf t).map Launch.seed).getD 0) ms
                mmarGo w t ms ls a x.1 x.2.2 x.2.1 (if b.rep = 2 then none else some (b.map, x.1.rows.map (BitVec.ofNat 8))) s

def mmarCheck (w : MulW) (c : CBlock) (g : Group) : WordCheck :=
  let k := mulCheck true w g
  { k with details := k.details ++ blockDetails g c }
def execMmar (w : MulW) (c : CBlock) (s : State) : Out :=
  s.issueWord w.head (mmarCheck w c)
    (gangCollective (mulLatch (.mmar w c) w fun g => blockWords (blockValue g c)) (mmarPerform w) s)

/-! ### RMAP (R262, R263) -/

def rmapRows (w : TileW) : Nat := 16 * (field w.sub.toNat 0 3 + 1)
def rmapTile (w : TileW) (x : Nat) : Nat := w.mt.toNat + (field w.sub.toNat 3 2 + 1) * (x / 16)
def rmapTiles (w : TileW) : List Nat := (List.range (field w.sub.toNat 0 3 + 1)).map fun i => rmapTile w (16 * i)
def formRmap (w : TileW) : TileForm :=
  { mt := true, ob := false, v := kOnlyDetails false, w := unusedSpec, arr := false
    sub := fun n => field n 0 3 < 6 && field n 5 2 ≠ 2
    span := (field w.sub.toNat 3 2 + 1) * min (field w.sub.toNat 0 3) 5 + 1
    varLat := true, lanes := false }

/-- The rows `RMAP.S` sums, element by element, from the lowest member up. -/
def sumRows (int : Bool) (rows : List (List Reg32)) : List (Reg32 × BitVec 32) :=
  (List.range 16).map fun c =>
    match rows with
    | [] => (0, 0)
    | r0 :: rest => rest.foldl (fun (acc : Reg32 × BitVec 32) r =>
        let y := r.getD c 0
        if int then (acc.1 + y, acc.2)
        else
          let z := add32 acc.1.toNat y.toNat
          let x1 := val32 acc.1.toNat
          let y1 := val32 y.toNat
          (BitVec.ofNat 32 z, acc.2 ||| bitIf (isNan (val32 z) && !isNan x1 && !isNan y1) msMNV |||
            bitIf (isInf (val32 z) && !isInf x1 && !isInf y1) msMOF)) (r0.getD c 0, 0)

/-- The remap of a team's tiles by a well-formed map, and the status it raises. -/
def rmapApply (w : TileW) (m : List Nat) (t : Team) : Team × BitVec 32 :=
  let row (x : Nat) : List Reg32 := (List.range 16).map fun c => tileElem t (rmapTile w x) (x % 16) c
  let put (u : Team) (x : Nat) (vs : List Reg32) : Team :=
    (List.range 16).foldl (fun u c => tilePut u (rmapTile w x) (x % 16) c (vs.getD c 0)) u
  (List.range m.length).foldl (fun acc x =>
    let q := m.getD x 0
    if bitOf w.sub.toNat 5 then
      if q ≠ x then acc
      else
        let vs := sumRows (bitOf w.sub.toNat 6) (((List.range m.length).filter fun y => m.getD y 0 = x).map row)
        (put acc.1 x (vs.map Prod.fst), vs.foldl (fun b v => b ||| v.2) acc.2)
    else if q = x then acc else (put acc.1 x (row q), acc.2)) (t, 0)

def rmapGo (w : TileW) (s : State) (g : Group) : Out :=
  match s.ownTeam with
  | none => .fault .noIssuer
  | some t =>
    let a := (readOpd g 0 w.v 0).toNat
    let n := rmapRows w
    let flag := selectedFlag g w.head.fs
    if notReserved t (rmapTiles w) then s.stopAll g cTileown 0x01 0
    else match worstVerdict [alignVerdict 0x02 (a % 32 = 0), s.padVerdict a n] with
      | some v => s.stopAll g v.2.1 v.2.2 a
      | none =>
        if flagBlocked g flag then .next (s.holdAt .flagFull)
        else if s.acquiring s.issuer then .next (s.holdAt .fence)
        else if s.outstanding s.issuer classX || s.padBusy a n || s.tileBusy (s.viewTeam s.issuer) (rmapTiles w) then
          .next (s.holdAt .obWait)
        else
          let m := (s.padRead a n).map BitVec.toNat
          if !mapOk m then s.stopAll g cObrange 0x09 a
          else
            let x := rmapApply w m t
            .next (((s.modTeam (s.viewTeam s.issuer) fun _ => x.1).launchOp []
              { Op.blank s.nextId s.issuer .rmap flag with mstat := x.2 }).retire 1)
def execRmap (w : TileW) (s : State) : Out :=
  s.issueWord w.head (tileFormCheck (formRmap w) w [(w.v, 1)] noBound) (rmapGo w s)

/-- RMAP_COMPLETE (R263): its status is delivered and its flag counts down. -/
def execRmapComplete (s : State) : Out :=
  match s.opOf [.rmap] with
  | none => .next s
  | some o => .next (s.completeOp o)

/-! ### TEPI (R264-R268) -/

/-- The flue block (R265). -/
structure Flue where
  smode : Nat
  bmode : Nat
  act : Nat
  ls : Nat
  res : Bool
  ofmt : Nat
  escl : Nat
  nsat : Bool
  aon : Bool
  scope : Nat
  int : Bool
  scale : Nat
  bias : Nat
  clamp : Nat
  resid : Nat
  hdr : Nat

def flueOf (c : CBlock) : Flue :=
  { smode := getField c.c0 0 2, bmode := getField c.c0 2 2, act := getField c.c0 4 2, ls := getField c.c0 6 5,
    res := c.c0.getLsbD 11, ofmt := getField c.c0 12 4, escl := getField c.c0 16 3, nsat := c.c0.getLsbD 19,
    aon := c.c0.getLsbD 20, scope := getField c.c0 21 3, int := c.c0.getLsbD 24, scale := getField c.c1 0 32,
    bias := getField c.c2 0 19, clamp := getField c.c2 19 19, resid := getField c.c2 38 19, hdr := getField c.c3 0 48 }

/-- Whether a flue block holds a forbidden value (R265). -/
def flueBad (c : CBlock) : Bool :=
  let f := flueOf c
  getField c.c0 25 36 ≠ 0 || getField c.c1 32 29 ≠ 0 || getField c.c2 57 4 ≠ 0 || getField c.c3 48 13 ≠ 0 ||
  f.smode = 3 || f.bmode = 3 || (f.act ≠ 2 && f.ls ≠ 0) || 5 < f.ofmt || 4 < f.escl || (f.ofmt ≠ 5 && f.escl ≠ 0) ||
  (f.nsat && f.ofmt ≠ 3 && f.ofmt ≠ 4) || 5 < f.scope || (f.smode = 0 && f.scale ≠ 0) ||
  (f.smode = 2 && 2 ^ 19 ≤ f.scale) || (f.bmode = 0 && f.bias ≠ 0) || (f.act ≠ 3 && f.clamp ≠ 0) ||
  (!f.res && f.resid ≠ 0) || (f.ofmt ≠ 5 && f.hdr ≠ 0)

/-- The row bytes of an output format, and the scratchpad extents a block reads. -/
def flueRow (f : Flue) : Nat := match f.ofmt with | 0 => 64 | 1 | 2 => 32 | _ => 16
def flueReads (f : Flue) : List (Nat × Nat) :=
  (if f.smode = 2 then [(f.scale, 64)] else []) ++
  (if f.bmode = 1 then [(f.bias, 64)] else if f.bmode = 2 then [(f.bias, 32)] else []) ++
  (if f.act = 3 then [(f.clamp, 8)] else []) ++ (if f.res then [(f.resid, 1024)] else [])

/-- The scratchpad operands of a block, as patterns. -/
structure FlueIn where
  scale : Nat → Nat
  bias : Nat → Nat
  lo : Nat
  hi : Nat
  resid : Nat → Nat → Nat

def flueIn (f : Flue) (t : Team) : FlueIn :=
  let w32 (a : Nat) : Nat := natOfBytes (scratchRead t a 4)
  { scale := fun c => if f.smode = 2 then w32 (f.scale + 4 * c) else f.scale
    bias := fun c => if f.bmode = 2 then 2 ^ 16 * natOfBytes (scratchRead t (f.bias + 2 * c) 2) else w32 (f.bias + 4 * c)
    lo := w32 f.clamp, hi := w32 (f.clamp + 4)
    resid := fun r c => w32 (f.resid + 64 * r + 4 * c) }

/-- The status a rounded result of the flue raises. -/
def flueStatus (r : Rounded) : BitVec 32 := bitIf (r.flags &&& flNV ≠ 0) msMNV ||| bitIf (r.flags &&& flOF ≠ 0) msMOF

/-- A rounded result with an exact zero as +0 (R80). -/
def plusZero (v : FVal) (r : Rounded) : Rounded := if isZero v then { r with bits := 0 } else r

/-- The steps of R266 before the output conversion: the FP32 pattern and the status. -/
def flueElem (f : Flue) (i : FlueIn) (row col : Nat) (e : Reg32) : Nat × BitVec 32 :=
  let x0 := if f.int then rne32 (ofInt e.toInt)
            else if isNan (val32 e.toNat) then canonNan fp32 else e.toNat
  let s1 : Nat × BitVec 32 := if f.smode = 0 then (x0, 0)
    else
      let r := plusZero (fmul (val32 x0) (val32 (i.scale col))) (opMul fp32 .rne false x0 (i.scale col))
      (r.bits, flueStatus r)
  let s2 : Nat × BitVec 32 := if f.bmode = 0 then s1
    else
      let r := plusZero (fadd .rne (val32 s1.1) (val32 (i.bias col))) (opAdd fp32 .rne false s1.1 (i.bias col))
      (r.bits, s1.2 ||| flueStatus r)
  let s3 : Nat × BitVec 32 := match f.act with
    | 1 => (if isNan (val32 s2.1) || flt (.fin false 0 0) (val32 s2.1) then s2 else (0, s2.2))
    | 2 => if flt (val32 s2.1) (.fin false 0 0) then
        let r := opScale .rne false s2.1 (-(f.ls : Int)); (r.bits, s2.2 ||| flueStatus r)
      else s2
    | 3 => (opMinMax fp32 false false false (opMinMax fp32 false false true s2.1 i.lo) i.hi, s2.2)
    | _ => s2
  if f.res then
    let r := plusZero (fadd .rne (val32 s3.1) (val32 (i.resid row col))) (opAdd fp32 .rne false s3.1 (i.resid row col))
    (r.bits, s3.2 ||| flueStatus r)
  else s3

/-- The output conversion of one element (R266): its bytes and the status. -/
def flueOut (f : Flue) (x : Nat) : List Byte × BitVec 32 :=
  let v := val32 x
  match f.ofmt with
  | 0 => (bytesOfNat 4 x, 0)
  | 1 => let r := plusZero v (rnd bf16 .rne false v); (bytesOfNat 2 r.bits, flueStatus r)
  | 2 => let r := plusZero v (rnd fp16 .rne false v); (bytesOfNat 2 r.bits, flueStatus r)
  | 3 => let r := toFloat e4m3 .rne false f.nsat v
         (bytesOfNat 1 r.bits, bitIf (r.flags &&& flNV ≠ 0 || (f.nsat && r.flags &&& flOF ≠ 0)) msMNV |||
           bitIf (r.flags &&& flOF ≠ 0) msFSAT)
  | _ => let r := toFloat e5m2 .rne false f.nsat v
         (bytesOfNat 1 r.bits, bitIf (r.flags &&& flNV ≠ 0) msMNV |||
           bitIf (r.flags &&& flOF ≠ 0) (if f.nsat then msMOF else msFSAT))

/-- The overflows of a quantised block's escaped elements: finite values whose side-list value is an infinity (R79, R266). -/
def sideStatus (xs : List Nat) (entries : List (Nat × Nat)) : BitVec 32 :=
  bitIf (entries.any fun e => !isInf (val32 (xs.getD e.1 0)) && isInf (unpack bf16 false e.2)) msMOF

/-- The rows a `TEPI` writes, as destination address and bytes, and its status (R266, R267). -/
def flueRows (f : Flue) (i : FlueIn) (t : Team) (m d stride : Nat) : List (Nat × List Byte) × BitVec 32 :=
  let xs := (List.range 256).map fun k => flueElem f i (k / 16) (k % 16) (tileElem t m (k / 16) (k % 16))
  let st := xs.foldl (fun b x => b ||| x.2) 0
  if f.ofmt = 5 then
    let blocks := (List.range 8).map fun q => ((xs.drop (32 * q)).take 32).map Prod.fst
    let qs := blocks.map fun b => quantise b f.escl
    let heads := qs.flatMap fun q => bytesOfNat 2 (headerOf q.scale q.entries.length)
    let side := qs.flatMap fun q => q.entries.flatMap fun e => bytesOfNat 4 (entryOf e)
    (qs.mapIdx (fun q b => (d + q * stride, codeBytes b.codes)) ++ [(f.hdr, heads ++ side)],
     (List.zip blocks qs).foldl (fun b q => b ||| sideStatus q.1 q.2.entries) (st ||| bitIf (qs.any fun q => q.scale = 255) msFSAT))
  else
    let ys := xs.map fun x => flueOut f x.1
    ((List.range 16).map fun r => (d + r * stride, ((ys.drop (16 * r)).take 16).flatMap Prod.fst),
     ys.foldl (fun b y => b ||| y.2) st)

def formTepi : TileForm :=
  { mt := true, ob := false, v := kOnlyDetails true, w := kOrZero, arr := true, sub := subZero, span := 1, varLat := true,
    lanes := false }
def tepiCheck (w : TileW) (c : CBlock) (g : Group) : WordCheck :=
  let k := tileFormCheck formTepi w [(w.v, 2), (w.w, 1)] noBound g
  { k with details := k.details ++ blockDetails g c }

/-- The extents that a `TEPI` writes: its rows, and with AON the version word (R194, R268). -/
def flueWrites (f : Flue) (a : Nat) (rows : List (Nat × List Byte)) : List (Nat × Nat) :=
  (if f.aon then [(a, 8)] else []) ++ rows.map fun r => (r.1, r.2.length)

/-- Steps 4 to 9 of a `TEPI`, and its room in the merge log (R265, R267, R268). -/
def State.tepiFault (s : State) (w : TileW) (f : Flue) (a d stride : Nat) (rows : List (Nat × List Byte)) :
    Option (Nat × Nat × Nat) :=
  let rb := flueRow f
  let pads := flueReads f
  worstVerdict (
    [alignVerdict 0x01 (d % rb = 0 && stride % rb = 0 && pads.all fun p => p.1 % 4 = 0),
     alignVerdict 0x02 (f.ofmt ≠ 5 || f.hdr % 32 = 0)] ++
    pads.map (fun p => s.padVerdict p.1 p.2) ++
    (if f.aon then [s.spanVerdict needRW a 32] else []) ++
    rows.map (fun r => s.spanVerdict needW r.1 r.2.length) ++
    [if (flueWrites f a rows).all fun r => r.1 + r.2 ≤ 2 ^ 48 then s.rowsLog 1 (flueWrites f a rows) else none] ++
    [s.ringVerdict (w.arr = 1) w.sg.toNat w.slot.toNat])

def tepiGo (w : TileW) (c : CBlock) (s : State) (g : Group) : Out :=
  match s.ownTeam with
  | none => .fault .noIssuer
  | some t =>
    let v := blockValue g c
    let f := flueOf v
    let a := (readSrc g 0 true w.v).toNat
    let d := if f.aon then a + 32 else a
    let stride := if w.w = specZero then flueRow f else (readOpd g 0 w.w 0).toNat
    let m := w.mt.toNat
    let flag := selectedFlag g w.head.fs
    if notReserved t [m] then s.stopAll g cTileown 0x01 0
    else if flueBad v then s.stopAll g cObrange 0x08 0
    else if s.tileBusy (s.viewTeam s.issuer) [m] then .next (s.holdAt .obWait)
    else
      let out := flueRows f (flueIn f t) t m d stride
      match s.tepiFault w f a d stride out.1 with
      | some x => s.stopAll g x.2.1 x.2.2 a
      | none =>
        if flagBlocked g flag then .next (s.holdAt .flagFull)
        else if (flueReads f).any fun p => s.padBusy p.1 p.2 then .next (s.holdAt .obWait)
        else if s.acquiring s.issuer then .next (s.holdAt .fence)
        else
          let s0 := (flueWrites f a out.1).foldl (fun s r => s.cacheTrans s.dieCtx.1 s.dieCtx.2 (pagesOf r.1 r.2)) s
          let s1 := s0.reserveRows false (flueWrites f a out.1)
          .next ((s1.launchOp [] { Op.blank s.nextId s.issuer .tepi flag with
            arrive := arriveOf w
            release := some f.scope
            mstat := out.2
            trans := s.transFor s.dieCtx.1 s.dieCtx.2
              ((if f.aon then [a] else []) ++ out.1.flatMap fun r => pagesOf r.1 r.2.length)
            todo := if f.aon then [] else storeMoves out.1
            effect := if f.aon then .flueRows a out.1 0 else .none }).retire 5)
def execTepi (w : TileW) (c : CBlock) (s : State) : Out := s.issueWord w.head (tepiCheck w c) (tepiGo w c s)

/-- TEPI_COMPLETE (R268): the rows are written, between two version steps under AON, and once the release has taken effect
the arrival and the flag follow. Under AON each step is released at device scope before the next. -/
def execTepiComplete (s : State) : Out :=
  match s.opOf [.tepi] with
  | none => .next s
  | some o => s.progress o fun o =>
    let ready (scope : Nat) : Bool := s.writesDone o (2 ≤ scope) && !s.readsBefore o
    match o.effect with
    | .flueRows va rows 0 =>
      if ready 4 then s.await o (.bufFill false va 0 8)
        (.next ((s.bumpVersion o va).modOp o fun p => { p with effect := .flueRows va rows 1, todo := storeMoves rows }))
      else .next s
    | .flueRows va _ 1 => s.await o (.bufFill false va 0 8)
        (.next ((s.bumpVersion o va).modOp o fun p => { p with effect := .none }))
    | _ => if ready (o.release.getD 0) then .next (s.completeOp o) else .next s

end Sys2Proof.Machine
end

