-- ==== Sys2Proof/Machine/Engines.lean ====
section
/-!
DEFINITION. The copy engine and the tile engine (R308-R318): `CPY` and `TGMS`, the chunks of a copy and the completion
of both.
-/
namespace Sys2Proof.Machine

/-! ### The E layout (R33) -/

/-- An unused operand of an engine or task word: a v, p or relative specifier is 0x0F, any other that R23 lets stand
there but 0x150 is 0x04 (R299, R321, R358, R434). -/
def idleSpec (a : Spec) : List Nat :=
  match opdOf a with | .zero => [] | .v _ | .p _ | .rel .. => [0x0F] | .rsv | .imm => [0x03] | _ => [0x04]

/-- SCOPE of an engine word, and ring fields without an arrival. -/
def scopeDetails (w : EngW) : List Nat :=
  (if 5 < w.scope.toNat then [0x0B] else []) ++
  (if w.acq = 0 && w.rel = 0 && w.scope ≠ 0 then [0x12] else []) ++
  (if w.arr = 0 && (w.sg ≠ 0 || w.slot ≠ 0) then [0x04] else [])

def engArrive (w : EngW) : Option (Nat × Nat) := if w.arr = 1 then some (w.sg.toNat, w.slot.toNat) else none
def engRing (s : State) (w : EngW) : Option (Nat × Nat × Nat) :=
  s.ringVerdict (w.arr = 1) w.sg.toNat w.slot.toNat
def engBefore (w : EngW) : Option Nat := if w.acq = 1 then some w.scope.toNat else none
def engRelease (w : EngW) : Option Nat := if w.rel = 1 then some w.scope.toNat else none

/-! ### CPY (R308-R313) -/

/-- Whether a copy block holds a reserved value (R309). -/
def copyBad (c : CBlock) : Bool :=
  let k := copyOf c
  getField c.c0 48 13 ≠ 0 || getField c.c1 48 13 ≠ 0 || getField c.c2 36 25 ≠ 0 || getField c.c3 60 1 ≠ 0 ||
  k.xb < 32 || 65504 < k.xb || k.xb % 32 ≠ 0
/-- The pieces of a chunk of 4096 bytes: source, destination, bytes (R310). -/
def Copy.pieces (k : Copy) (chunk : Nat) : List (Nat × Nat × Nat) :=
  if k.xb = 0 then []
  else
    let lo := 4096 * chunk
    let hi := min (lo + 4096) k.total
    if hi ≤ lo then []
    else (List.range ((hi - 1) / k.xb - lo / k.xb + 1)).map fun i =>
      let r := lo / k.xb + i
      let a := max lo (r * k.xb) - r * k.xb
      let b := min hi ((r + 1) * k.xb) - r * k.xb
      (k.srcRow r + a, k.dstRow r + a, b - a)

/-- The failure of one row of a side (R312). -/
def State.sideVerdict (s : State) (side range : Nat) (need : Need) (a n : Nat) : Option (Nat × Nat × Nat) :=
  match side with
  | 0 => s.spanVerdict need a n
  | 1 => s.padVerdict a n
  | _ => match (s.ownTeam).bind fun t => rangeOf t range with
    | none => some (2, cObrange, 0x03)
    | some r => if r.len < a + n then some (2, cObrange, 0x04) else none

/-- Commands outstanding at a cluster's copy engine (R311). -/
def State.copiesAt (s : State) (cluster : Nat) : Nat :=
  (s.ops.filter fun o => o.kind = .cpy && s.coreOf o.issuer / 8 = cluster).length

def cpyCheck (w : EngW) (c : CBlock) (g : Group) : WordCheck :=
  { details := headDetails g w.head [.copy, .vector] true false ++ noGuard w.head ++ unusedSpec w.d ++ unusedSpec w.a ++
      scopeDetails w ++ (if w.ord = 0 then [] else [0x04]) ++
      (if field w.sub.toNat 7 5 ≠ 0 || (field w.sub.toNat 0 2 < 2 && field w.sub.toNat 2 5 ≠ 0) then [0x04] else []) ++
      blockDetails g c
    bank := false
    bound := fun _ => false }

/-- Every failure of a `CPY` at issue (R312). -/
def State.copyVerdict (s : State) (w : EngW) (v : CBlock) : Option (Nat × Nat × Nat) :=
  let k := copyOf v
  let dir := field w.sub.toNat 0 2
  let range := field w.sub.toNat 2 5
  let srcs := (List.range k.rows).map fun r => s.sideVerdict (srcSide dir) range needR (k.srcRow r) k.xb
  let dsts := (List.range k.rows).map fun r => s.sideVerdict (dstSide dir) range needW (k.dstRow r) k.xb
  let rows := (List.range k.rows).map fun r => (k.dstRow r, k.xb)
  let inside := rows.all fun r => r.1 + r.2 ≤ 2 ^ 48
  worstVerdict [alignVerdict 0x02 (k.src % 32 = 0 && k.dst % 32 = 0), worstVerdict srcs, worstVerdict dsts,
    if dstSide dir = 0 && inside then s.rowsLog 1 rows else none, engRing s w,
    if copyBad v then some (9, cEngine, 0x07) else if 2 ^ 26 < k.total then some (9, cEngine, 0x08) else none]

/-- Whether a bank that a copy reads or writes waits for a switch (R198). -/
def State.padSwitching (s : State) (c : CBlock) (dir : Nat) : Bool :=
  let k := copyOf c
  (List.range k.rows).any fun r =>
    (srcSide dir = 1 && s.padBusy (k.srcRow r) k.xb) || (dstSide dir = 1 && s.padBusy (k.dstRow r) k.xb)

def cpyGo (w : EngW) (c : CBlock) (s : State) (g : Group) : Out :=
  let v := blockValue g c
  let k := copyOf v
  let dir := field w.sub.toNat 0 2
  let range := field w.sub.toNat 2 5
  let flag := selectedFlag g w.head.fs
  match s.copyVerdict w v with
  | some x => s.stopAll g x.2.1 x.2.2 k.src
  | none =>
    if flagBlocked g flag then .next (s.holdAt .flagFull)
    else if 64 ≤ s.copiesAt (s.coreOf s.issuer / 8) then .next (s.holdAt .engineFull)
    else if s.acquiring s.issuer then .next (s.holdAt .fence)
    else if s.padSwitching v dir then .next (s.holdAt .regWait)
    else
      let s1 := (List.range k.rows).foldl (fun s r =>
        let s := if srcSide dir = 0 then s.cacheTrans s.dieCtx.1 s.dieCtx.2 (pagesOf (k.srcRow r) k.xb) else s
        if dstSide dir = 0 then s.cacheTrans s.dieCtx.1 s.dieCtx.2 (pagesOf (k.dstRow r) k.xb) else s) s
      let s2 := if dstSide dir = 0 then s1.reserveRows false ((List.range k.rows).map fun r => (k.dstRow r, k.xb)) else s1
      .next ((s2.launchOp [] { Op.blank s.nextId s.issuer .cpy flag with
        arrive := engArrive w
        before := engBefore w
        release := engRelease w
        trans := s.transFor s.dieCtx.1 s.dieCtx.2 ((List.range k.rows).flatMap fun r =>
          (if srcSide dir = 0 then pagesOf (k.srcRow r) k.xb else []) ++
          (if dstSide dir = 0 then pagesOf (k.dstRow r) k.xb else []))
        effect := .copy v dir range 0 }).retire 5)
def execCpy (w : EngW) (c : CBlock) (s : State) : Out := s.issueWord w.head (cpyCheck w c) (cpyGo w c s)

/-- The bytes of a side's range that its addresses count from. -/
def State.sideBase (s : State) (o : Op) (side range : Nat) : Nat :=
  if side = 2 then (((s.teams[issuerTeam o.issuer]?).bind fun t => rangeOf t range).map ObRec.base).getD 0 else 0

/-- The reads of a chunk, sector by sector; each leaves its write behind them (R310). -/
def State.chunkMoves (s : State) (o : Op) (k : Copy) (dir range chunk : Nat) : List Move :=
  let a := s.sideBase o (srcSide dir) range
  let b := s.sideBase o (dstSide dir) range
  (k.pieces chunk).flatMap fun p => (sectors p.1 p.2.2).map fun x =>
    .copyRead (srcSide dir) (a + x.1) (dstSide dir) (b + p.2.1 + (x.1 - p.1)) x.2

/-- CPY_CHUNK (R310, R313): the next move of a chunk, or the next chunk of a command that is not being saved; the first waits
for ACQ. -/
def execCpyChunk (s : State) : Out :=
  match s.opOf [.cpy] with
  | none => .next s
  | some o => s.progress o fun o => match o.effect with
    | .copy c dir range chunk =>
      let k := copyOf c
      if (chunk = 0 && !s.mayRead o) || k.total ≤ 4096 * chunk || !s.engineRuns o then .next s
      else .next (s.modOp o fun p => { p with todo := s.chunkMoves o k dir range chunk, effect := .copy c dir range (chunk + 1) })
    | _ => .next s

/-- CPY_COMPLETE (R311): after the last chunk, the release and every earlier copy of the group: arrival, flag. -/
def execCpyComplete (s : State) : Out :=
  match s.opOf [.cpy] with
  | none => .next s
  | some o => match o.effect with
    | .copy c _ _ chunk =>
      if o.todo ≠ [] || 4096 * chunk < (copyOf c).total || !s.mayEnd o || !s.engineRuns o ||
          (s.ops.any fun p => p.kind = .cpy && p.issuer = o.issuer && p.id < o.id) then .next s
      else .next (s.completeOp o)
    | _ => .next s

/-! ### TGMS (R314-R318) -/

structure TileCmd where
  handle : Nat
  kfirst : Nat
  kcnt : Nat
  obg : Nat
  obw : Nat
  mt : Nat
  src : Nat
  wb : Nat
  out : Nat
  istr : Nat
  ostr : Nat

def tileCmdOf (vs : List Word64) : TileCmd :=
  let v (i : Nat) : Word64 := vs.getD i 0
  { handle := getField (v 1) 0 4, kfirst := getField (v 1) 4 6, kcnt := getField (v 1) 10 6 + 1,
    obg := getField (v 1) 16 5, obw := getField (v 1) 21 5, mt := getField (v 1) 26 6, src := getField (v 2) 0 48,
    wb := getField (v 3) 0 48, out := getField (v 4) 0 48, istr := getField (v 0) 0 16, ostr := getField (v 0) 16 16 }
def tileCmdReserved (vs : List Word64) : Bool :=
  getField (vs.getD 1 0) 32 29 ≠ 0 || (List.range 3).any fun i => getField (vs.getD (2 + i) 0) 48 13 ≠ 0

/-- The map a handle of a die and context names: its destination, offsets and counts (R356, R364). -/
def mapOf (h : CeHandle) : Option (Nat × Nat × List Nat) :=
  match h.object with | .map dst noff counts => some (dst, noff, counts) | .table .. => none
def State.ceHandle (s : State) (die ctx name : Nat) : Option CeHandle :=
  (s.dies[die]?).bind fun d => d.handles.find? fun h => h.ctx = ctx && h.name = name

def State.mapById (s : State) (id : Nat) : Option CeHandle := s.dies.findSome? fun d => d.handles.find? fun h => h.id = id

/-- The members of a `TGMS` that waits for a reserved map keep it: they go on as if it had been held when they issued, whatever
becomes of its name (R356, R368). -/
def State.latchMap (s : State) (t : Nat) (ms : List Nat) (id : Nat) : State :=
  ms.foldl (fun s m => s.modGroup t m fun g => { g with latch := g.latch.map fun l => { l with map := some id } }) s

/-- The header bytes of a map (R364), and where list `k` lies: address and pairs. -/
def mapHead (noff : Nat) : Nat := 64 * ((4 * noff + 63) / 64)
def listOf (m : Nat × Nat × List Nat) (k : Nat) : Nat × Nat :=
  (m.1 + mapHead m.2.1 + 8 * (m.2.2.take k).sum, m.2.2.getD k 0)

/-- The lists of a command's offsets as (input, output) pairs, read at home (R365). -/
def State.mapPairs (s : State) (m : Nat × Nat × List Nat) (k : Nat) : List (Nat × Nat) :=
  let l := listOf m k
  let bs := s.readVa (s.viewTeam s.issuer) s.dieCtx.1 s.dieCtx.2 l.1 (8 * l.2)
  (List.range l.2).map fun j => (natOfBytes ((bs.drop (8 * j)).take 4), natOfBytes ((bs.drop (8 * j + 4)).take 4))

/-- Whether a format is one the tile engine takes (R315). -/
def tileFmt (f : Nat) : Bool := f = 5 || f = 6 || f = 3 || f = 4 || f = 7

def tgmsCheck (w : EngW) (c : CBlock) (g : Group) : WordCheck :=
  { details := headDetails g w.head [.matrix] true false ++ noGuard w.head ++ kOrZero w.d ++ kOnlyDetails false w.a ++
      scopeDetails w ++ (if w.acq = 0 && w.sub = 0 then [] else [0x04]) ++
      hazardDetails g (accessReads g w.head [(w.a, 1)]) ++ blockDetails g c
    bank := false
    bound := fun _ => false }

def tgmsLatch (w : EngW) (c : CBlock) (g : Group) : Latch :=
  { instr := .tgms w c, vregs := [], gamma := 0
    values := (readOpd g 0 w.a 0).zeroExtend 64 :: blockWords (blockValue g c)
    flag := selectedFlag g w.head.fs
    map := none }

/-- The offsets of a command that a map has, and all pairs by offset. -/
def tileOffsets (k : TileCmd) (noff : Nat) : List Nat := ((List.range k.kcnt).map (k.kfirst + ·)).filter fun x => x < noff

/-- Steps 4 to 9 of R230 and the ENGINE details (R318). `m` is the map, when the handle holds one. -/
def State.tgmsVerdict (s : State) (w : EngW) (k : TileCmd) (vs : List Word64) (g b : ObRec) (cols : Nat)
    (m : Option (Nat × Nat × List Nat)) : Option (Nat × Nat × Nat) :=
  let ks := match m with | some x => tileOffsets k x.2.1 | none => []
  let lists := match m with | some x => ks.map fun i => let l := listOf x i; s.spanVerdict needR l.1 (8 * l.2) | none => []
  let readable := lists.all Option.isNone
  let pairs := match m with | some x => if readable then ks.flatMap fun i => s.mapPairs x i else [] | none => []
  let rowLen := g.kch * 96
  let need := { needRW with aop := some (if isIntFmt g.fmt then 0 else 10) }
  let outs := pairs.map fun p => (k.out + 32 * p.2 * k.ostr, 64 * cols)
  worstVerdict (
    [alignVerdict 0x02 (k.src % 32 = 0 && k.wb % 32 = 0 && k.out % 32 = 0)] ++ lists ++
    (List.range k.kcnt).map (fun i =>
      s.spanVerdict needR (k.wb + (k.kfirst + i) * (16 * cols * rowLen)) (16 * cols * rowLen)) ++
    pairs.map (fun p => s.spanVerdict needR (k.src + 32 * p.1 * k.istr) rowLen) ++
    outs.map (fun o => s.spanVerdict need o.1 o.2) ++
    [if outs.all fun o => o.1 + o.2 ≤ 2 ^ 48 then s.rowsLog 2 outs else none, engRing s w,
     if m.isNone then some (9, cEngine, 0x0A) else none,
     match m with | some x => if x.2.1 < k.kfirst + k.kcnt then some (9, cEngine, 0x0B) else none | none => none,
     if tileCmdReserved vs || k.istr = 0 || k.ostr = 0 || !tileFmt g.fmt || !tileFmt b.fmt || !fmtPair g.fmt b.fmt ||
        g.sp ≠ 0 || b.sp ≠ 0 || b.soff ≠ 0 || g.kch ≠ b.kch then some (9, cEngine, 0x0C) else none])

/-- The `MMA.OB` word that the engine's pseudocode issues (R316). -/
def engineMul (k : TileCmd) (ch : Nat) : MulW :=
  { head := ⟨0, 0, 0, 0⟩, mt := BitVec.ofNat 6 k.mt, oba := BitVec.ofNat 5 k.obg,
    bsrc := BitVec.ofNat 10 (32 * k.obw + ch), aoff := BitVec.ofNat 5 ch, bfmt := 0, st := 0, bs := 1,
    ac := if ch = 0 then 0 else 1, sc := 0, ng := 0, gk := 0, b := 0, e := 0, rsv := 0 }

/-- What one command accumulates: the team, each member's status, and its contributions, a pause after each batch. -/
structure TileAcc where
  team : Team
  stat : List (BitVec 32)
  moves : List Move
  count : Nat

/-- One batch of rows of an offset (R316); each 32-byte sector of a row is one request (R341). `rowData` gives an input row's
bytes. -/
def tileBatch (k : TileCmd) (g : ObRec) (n seq0 : Nat) (batch : List (Nat × Nat)) (rowData : Nat → List Byte) (x : TileAcc) :
    TileAcc :=
  let rowLen := g.kch * 96
  let t1 := (List.range (16 * n)).foldl (fun t r =>
    obWrite t (g.base + r * g.stride) (match batch[r]? with | some p => rowData p.1 | none => List.replicate rowLen 0)) x.team
  let y := (List.range g.kch).foldl (fun (acc : Team × List (BitVec 32)) ch =>
    let r := mulAll (engineMul k ch) g id n [] acc.1
    (r.1, (List.range n).map fun p => acc.2.getD p 0 ||| r.2.getD p 0)) (t1, x.stat)
  let cols := min n 4
  let es := (List.range batch.length).flatMap fun r =>
    let o := (batch.getD r (0, 0)).2
    (List.range (2 * cols)).map fun q =>
      Move.scatter (k.out + 32 * o * k.ostr + 32 * q) (seq0 + x.count + r) (if isIntFmt g.fmt then 0 else 10)
        ((List.range 8).map fun j => tileElem y.1 (k.mt + r / 16 * cols + q / 2) (r % 16) (8 * (q % 2) + j))
  ⟨y.1, y.2, x.moves ++ es ++ [.pause], x.count + batch.length⟩

/-- All batches of an offset. -/
def tileOffset (k : TileCmd) (g b : ObRec) (n seq0 : Nat) (pairs : List (Nat × Nat)) (weights : List Byte)
    (rowData : Nat → List Byte) (x : TileAcc) : TileAcc :=
  let rowLen := g.kch * 96
  let t1 := (List.range (16 * min n 4)).foldl (fun t r =>
    obWrite t (b.base + r * b.stride) ((weights.drop (r * rowLen)).take rowLen)) x.team
  (List.range ((pairs.length + 16 * n - 1) / (16 * n))).foldl (fun x i =>
    tileBatch k g n seq0 ((pairs.drop (16 * n * i)).take (16 * n)) rowData x) { x with team := t1 }

/-- The whole command on the issuer's team (R316). -/
def State.tileRun (s : State) (k : TileCmd) (g b : ObRec) (n : Nat) (m : Nat × Nat × List Nat) (t : Team) : TileAcc :=
  let cols := min n 4
  let rowLen := g.kch * 96
  let read (a len : Nat) : List Byte := s.readVa (s.viewTeam s.issuer) s.dieCtx.1 s.dieCtx.2 a len
  (tileOffsets k m.2.1).foldl (fun x i =>
    tileOffset k g b n t.seq (s.mapPairs m i) (read (k.wb + i * (16 * cols * rowLen)) (16 * cols * rowLen))
      (fun r => read (k.src + 32 * r * k.istr) rowLen) x) ⟨t, List.replicate n 0, [], 0⟩

def tgmsPerform (w : EngW) (t : Nat) (ms : List Nat) (ls : List Latch) (s : State) : Out :=
  match s.teams[t]? with
  | none => .fault .noIssuer
  | some tm =>
    let n := ms.length
    let cols := min n 4
    let vs := ((ls.head?).map Latch.values).getD []
    let k := tileCmdOf vs
    let tiles := (List.range (n * cols)).map (k.mt + ·)
    if notReserved tm tiles then .next (s.stopMembers t ms cTileown 0x01 0)
    else match rangeOf tm k.obg, rangeOf tm k.obw with
      | some g, some b =>
        let h := match ls.findSome? Latch.map with
          | some id => s.mapById id
          | none => s.ceHandle s.dieCtx.1 s.dieCtx.2 k.handle
        let id := (h.map CeHandle.id).getD 0
        if g.rows < 16 * n || b.rows < 16 * cols then .next (s.stopMembers t ms cObrange 0x04 0)
        else if (match h with | some x => !x.isTable && x.holder.isSome | none => false) then .next (s.latchMap t ms id)
        else
          let m := match h with | some x => if x.isTable then none else mapOf x | none => none
          match s.tgmsVerdict w k vs g b cols m, m with
          | some v, _ => .next (s.stopMembers t ms v.2.1 v.2.2 k.src)
          | none, none => .fault .noIssuer
          | none, some m =>
            if s.mulBusy t [k.obg, k.obw] tiles || s.gangBlocked t ms w.head || ms.any fun m => s.acquiring (.group t m) then .next s
            else
              let x := s.tileRun k g b n m tm
              let outs := (tileOffsets k m.2.1).flatMap fun i =>
                (s.mapPairs m i).map fun p => (k.out + 32 * p.2 * k.ostr, 64 * cols)
              let s1 := (s.reserveRows true outs).modTeam t fun u =>
                { x.team with logged := u.logged, loggedHeld := u.loggedHeld, seq := u.seq + x.count }
              let c : CBlock := ⟨vs.getD 1 0, vs.getD 2 0, vs.getD 3 0, vs.getD 4 0⟩
              let names := kDest w.d
              let pages := outs.flatMap fun r => pagesOf r.1 r.2
              let held := w.ord = 1 || ((s.launchOf t).map Launch.ordered).getD false
              .next (s1.issueGang t ms w.head 5 .tgms (fun _ => names) fun mi o =>
                let p := (ms.idxOf? mi).getD 0
                { o with
                  mstat := x.stat.getD p 0
                  dests := names.map fun r => (r, none)
                  writes := names.map fun r => ⟨r, none, BitVec.ofNat 32 x.count⟩
                  arrive := if p = 0 then engArrive w else none
                  release := engRelease w
                  trans := if p = 0 then s.transFor s.dieCtx.1 s.dieCtx.2 pages else []
                  todo := if p = 0 && !held then x.moves else []
                  effect := if p = 0 then .tile c n id (if held then x.moves.filter (· ≠ .pause) else []) else .none })
      | _, _ => .next (s.stopMembers t ms cObrange 0x03 0)

def execTgms (w : EngW) (c : CBlock) (s : State) : Out :=
  s.issueWord w.head (tgmsCheck w c) (gangCollective (tgmsLatch w c) (tgmsPerform w) s)

/-- Whether a member of a gang's command has an earlier one that has not completed: they complete in issue order (R311, R318). -/
def State.tileBefore (s : State) (o : Op) (n : Nat) : Bool :=
  let mine := (s.ops.filter fun p => o.id ≤ p.id && p.id < o.id + n).map Op.issuer
  s.ops.any fun p => p.kind = .tgms && p.id < o.id && mine.contains p.issuer

/-- TGMS_COMPLETE (R317, R318): in free mode without .ORD the contributions are applied sector by sector as they arrive, and a
save may stop the command after a batch; held ones are applied at its completion in (k, j) order, or entered with their task,
and other agents' operations may fall between them. Then release, arrival, kd and flag of every member. -/
def execTgmsComplete (s : State) : Out :=
  match s.opOf [.tgms] with
  | none => .next s
  | some o => s.progress o fun o => match o.effect with
    | .tile c n map held =>
      if s.tileBefore o n then .next s
      else if held ≠ [] then .next (s.modOp o fun p => { p with todo := held, effect := .tile c n map [] })
      else if !s.mayEnd o then .next s
      else
        .next ((List.range n).foldl (fun s i => match s.ops.find? fun p => p.id = o.id + i with
          | some p => s.completeOp p
          | none => s) s)
    | _ => .next s

end Sys2Proof.Machine
end

