-- ==== Sys2Proof/Machine/Coord.lean ====
section
/-!
DEFINITION. The coordinate engine (R353-R370): keys and hash tables, handles, `CEBLD`, `CENBR`, `CEWALK`, `CEREL` and
the completion of their commands.
-/
namespace Sys2Proof.Machine

/-! ### Keys and the hash (R353, R355) -/

/-- The key of a coordinate. -/
def keyOf (w : Nat) : Nat := field w 0 56

/-- The home slot of a key in a table of `2^c` slots. -/
def homeSlot (key c : Nat) : Nat :=
  let g := Nat.xor (Nat.xor (field key 0 16) (field key 16 16 * 32 % 2 ^ 32))
    (Nat.xor (field key 32 16 * 1024 % 2 ^ 32) (field key 48 8 * 32768 % 2 ^ 32))
  (List.range ((32 + c - 1) / c)).foldl (fun h j => Nat.xor h (field g (j * c) (min c (32 - j * c)))) 0

/-- A slot: the key with its V bit, and the value (R354). -/
abbrev Slots := Cells (Word64 × Nat)
def slotAt (t : Slots) (s : Nat) : Word64 × Nat := Cells.get (0, 0) t s
def occupied (t : Slots) (s : Nat) : Bool := (slotAt t s).1.getLsbD 63

/-- The slot a key stands in, or the first empty one of its walk; `n` bounds the walk. -/
def probe (t : Slots) (cap key : Nat) : Nat → Nat → Nat
  | 0, s => s
  | n + 1, s => if occupied t s && getField (slotAt t s).1 0 56 ≠ key then probe t cap key n ((s + 1) % cap) else s

/-- One insertion (R362): the slots, whether a duplicate was met, and how many keys stand. -/
def insertKey (c : Nat) (acc : Slots × Bool × Nat) (i key : Nat) : Slots × Bool × Nat :=
  let s := probe acc.1 (2 ^ c) key (2 ^ c) (homeSlot key c)
  if occupied acc.1 s then (acc.1, true, acc.2.2)
  else (Cells.put (0, 0) acc.1 s (BitVec.ofNat 64 (key + 2 ^ 63), i), acc.2.1, acc.2.2 + 1)

/-- The table of a list of coordinates. -/
def buildTable (c : Nat) (keys : List Nat) : Slots × Bool × Nat :=
  (List.zip (List.range keys.length) keys).foldl (fun acc e => insertKey c acc e.1 (keyOf e.2)) ([], false, 0)

/-- The input index a table yields for a key (R364). -/
def lookup (t : Slots) (cap key : Nat) : Option Nat :=
  let s := probe t cap key cap (homeSlot key (Nat.log2 cap))
  if occupied t s then some (slotAt t s).2 else none

/-- Words of 8 bytes from a row of bytes. -/
def nats8 (bs : List Byte) : List Nat := (List.range (bs.length / 8)).map fun i => natOfBytes ((bs.drop (8 * i)).take 8)

/-- A coordinate's signed parts. -/
def coordOf (w : Nat) : Int × Int × Int :=
  ((BitVec.ofNat 16 (field w 32 16)).toInt, (BitVec.ofNat 16 (field w 16 16)).toInt, (BitVec.ofNat 16 (field w 0 16)).toInt)

/-- The key at an offset of an output coordinate, unless a sum leaves the range (R364). -/
def shifted (w : Nat) (d : Int × Int × Int) : Option Nat :=
  let p := coordOf w
  let x := p.1 + d.1
  let y := p.2.1 + d.2.1
  let z := p.2.2 + d.2.2
  let ok (v : Int) : Bool := -32768 ≤ v && v ≤ 32767
  let u (v : Int) : Nat := (BitVec.ofInt 16 v).toNat
  if ok x && ok y && ok z then some (u z + 2 ^ 16 * u y + 2 ^ 32 * u x + 2 ^ 48 * field w 48 8) else none

/-- The offsets of the 3×3×3 cube (R363). -/
def cubeOffsets : List (Int × Int × Int) :=
  (List.range 27).map fun k => ((k / 9 : Nat) - 1, (k / 3 % 3 : Nat) - 1, (k % 3 : Nat) - 1)

/-- The lists of a map: for each offset its (input, output) pairs (R364). -/
def mapLists (t : Slots) (cap : Nat) (outs : List Nat) (offs : List (Int × Int × Int)) : List (List (Nat × Nat)) :=
  offs.map fun d => (List.zip (List.range outs.length) outs).filterMap fun o =>
    (shifted o.2 d).bind fun key => (lookup t cap key).map fun i => (i, o.1)

/-- The bytes of a map (R364). -/
def mapBytes (ls : List (List (Nat × Nat))) : List Byte :=
  let counts := ls.flatMap fun l => bytesOfNat 4 l.length
  counts ++ List.replicate (mapHead ls.length - counts.length) 0 ++
    ls.flatMap fun l => l.flatMap fun p => bytesOfNat 4 p.1 ++ bytesOfNat 4 p.2

/-! ### Handles and hash SRAM (R356, R357) -/

/-- Slots of hash SRAM that tables of a die hold, those among them that are kept until an interval closes (R370). -/
def tableCap (h : CeHandle) : Nat := match h.object with | .table cap _ => cap | .map .. => 0
def Die.hashUsed (d : Die) : Nat := (d.handles.map tableCap).sum + (d.hashKept.map fun k => k.2.2).sum
def hashSlots : Nat := 524288

/-- A build that waits for hash SRAM: its handle is reserved and holds no slots (R357). -/
def State.ungranted (s : State) (die : Nat) (o : Op) : Bool :=
  match o.effect with
  | .build .. => (s.dies[die]?).any fun d => d.handles.any fun h => h.holder = some o.id && h.isTable && tableCap h = 0
  | _ => false
def State.ceOps (s : State) (die : Nat) : List Op := s.ops.filter fun o => o.kind = .ce && s.coreOf o.issuer / 48 = die

/-- A handle of a die changed, and one added. -/
def State.modHandle (s : State) (die : Nat) (which : CeHandle → Bool) (f : CeHandle → CeHandle) : State :=
  s.modDie die fun d => { d with handles := d.handles.map fun h => if which h then f h else h }
def State.addHandle (s : State) (die : Nat) (h : CeHandle) : State :=
  s.modDie die fun d => { d with handles := d.handles ++ [h] }

/-- The oldest waiting build takes its slots when they fit. -/
def State.grantNext (s : State) (die : Nat) : State :=
  match (s.ceOps die).find? (s.ungranted die), s.dies[die]? with
  | some o, some d => match o.effect with
    | .build _ cap _ _ =>
      if d.hashUsed + cap ≤ hashSlots then s.modHandle die (fun h => h.holder = some o.id) fun h => { h with object := .table cap [] }
      else s
    | _ => s
  | _, _ => s

/-! ### Issue (R358-R360) -/

def ceDetails (rel : Bool) (w : EngW) (g : Group) : List Nat :=
  headDetails g w.head [.copy, .vector] true false ++ noGuard w.head ++ kOrZero w.d ++
  (if rel then kOnlyDetails false w.a else idleSpec w.a) ++ scopeDetails w ++
  (if w.ord = 0 && w.sub = 0 then [] else [0x04]) ++
  (if rel && (w.sg ≠ 0 || w.slot ≠ 0 || w.arr ≠ 0 || w.acq ≠ 0 || w.rel ≠ 0) then [0x04] else [])
def ceCheck (w : EngW) (c : CBlock) (g : Group) : WordCheck :=
  { details := ceDetails false w g ++ blockDetails g c, bank := false, bound := fun _ => false }

/-- The pending operation of a coordinate-engine word. -/
def ceOp (w : EngW) (extents : List (Nat × Nat)) (s : State) (g : Group) (e : Effect) : Op :=
  { Op.blank s.nextId s.issuer .ce (selectedFlag g w.head.fs) with
    dests := (kDest w.d).map fun r => (r, none)
    arrive := engArrive w
    before := engBefore w
    trans := s.transFor s.dieCtx.1 s.dieCtx.2 (extents.flatMap fun x => pagesOf x.1 x.2)
    release := engRelease w
    effect := e }

/-- A coordinate-engine word once every active member has issued it: a failure, a wait, or its command. -/
def ceGo (w : EngW) (words addr : Nat) (fail : Option (Nat × Nat × Nat)) (extents : List (Nat × Nat)) (e : Effect)
    (reserve : Nat → State → State) (s : State) (g : Group) : Out :=
  match fail with
  | some v => s.stopAll g v.2.1 v.2.2 addr
  | none =>
    if flagBlocked g (selectedFlag g w.head.fs) then .next (s.holdAt .flagFull)
    else if s.acquiring s.issuer then .next (s.holdAt .fence)
    else
      let id := s.nextId
      let s1 := extents.foldl (fun s x => s.cacheTrans s.dieCtx.1 s.dieCtx.2 (pagesOf x.1 x.2)) s
      .next (((reserve id s1).launchOp (kDest w.d) (ceOp w extents s g e)).releaseBy words)

/-- The lowest of some ENGINE details, at step 9. -/
def engineVerdict (ds : List Nat) : Option (Nat × Nat × Nat) := (leastOf ds).map fun d => (9, cEngine, d)

/-- An ordered launch's destination on an ORD page (R370). -/
def State.ordDest (s : State) (va n : Nat) : Bool :=
  (pagesOf va n).any fun a => s.toView (s.viewTeam s.issuer) (s.paOf a).2

/-! ### CEBLD (R361, R362) -/

def cebldGo (w : EngW) (c : CBlock) (s : State) (g : Group) : Out :=
  let v := blockValue g c
  let h := getField v.c0 0 4
  let cc := getField v.c0 4 5
  let list := getField v.c1 0 48
  let n := getField v.c2 0 24
  let die := s.dieCtx.1
  let ctx := s.dieCtx.2
  let ds := (if (s.ceHandle die ctx h).isSome then [0x21] else []) ++
    (if getField v.c0 9 52 ≠ 0 || getField v.c1 48 13 ≠ 0 || getField v.c2 24 37 ≠ 0 || getField v.c3 0 61 ≠ 0 ||
      cc < 4 || 19 < cc then [0x23] else []) ++
    (if n = 0 || 2 ^ cc ≤ n then [0x24] else [])
  let fail := worstVerdict [alignVerdict 0x02 (list % 32 = 0), s.spanVerdict needR list (8 * n), engRing s w, engineVerdict ds]
  let fits := !((s.ceOps die).any (s.ungranted die)) &&
    (match s.dies[die]? with | some d => d.hashUsed + 2 ^ cc ≤ hashSlots | none => false)
  ceGo w 5 list fail [(list, 8 * n)] (.build h (2 ^ cc) list n)
    (fun id s => s.addHandle die ⟨id, ctx, h, true, some id, if fits then .table (2 ^ cc) [] else .map 0 0 []⟩) s g
def execCebld (w : EngW) (c : CBlock) (s : State) : Out :=
  s.issueWord w.head (ceCheck w c) fun g =>
    s.gather g g.cohort g.cohort (fun _ => (0, 0)) fun s g _ => cebldGo w c s g

/-! ### CENBR (R363, R364) -/

def cenbrGo (w : EngW) (c : CBlock) (s : State) (g : Group) : Out :=
  let v := blockValue g c
  let h := getField v.c0 0 4
  let tb := getField v.c0 4 4
  let km := v.c0.getLsbD 8
  let noff := getField v.c0 9 6 + 1
  let nout := getField v.c0 16 24
  let outl := getField v.c1 0 48
  let dst := getField v.c2 0 48
  let offl := getField v.c3 0 48
  let die := s.dieCtx.1
  let ctx := s.dieCtx.2
  let extent := mapHead noff + 8 * noff * nout
  let ds := (if (s.ceHandle die ctx h).isSome then [0x21] else []) ++
    (if (s.ceHandle die ctx tb).any CeHandle.isTable then [] else [0x22]) ++
    (if v.c0.getLsbD 15 || getField v.c0 40 21 ≠ 0 || getField v.c1 48 13 ≠ 0 || getField v.c2 48 13 ≠ 0 ||
      getField v.c3 48 13 ≠ 0 || nout = 0 || (!km && offl ≠ 0) then [0x23] else []) ++
    (if !km && noff ≠ 27 then [0x25] else []) ++
    (if dst + extent ≤ 2 ^ 48 && s.ordDest dst extent then [0x27] else [])
  let fail := worstVerdict [alignVerdict 0x02 (outl % 32 = 0 && dst % 32 = 0 && offl % 32 = 0),
    s.spanVerdict needW dst extent, s.spanVerdict needR outl (8 * nout),
    if km then s.spanVerdict needR offl (8 * noff) else none, engRing s w, engineVerdict ds]
  ceGo w 5 dst fail ([(dst, extent), (outl, 8 * nout)] ++ if km then [(offl, 8 * noff)] else [])
    (.neighbours h tb km noff nout outl dst offl) (fun id s => s.addHandle die ⟨id, ctx, h, false, some id, .map 0 0 []⟩) s g
def execCenbr (w : EngW) (c : CBlock) (s : State) : Out :=
  s.issueWord w.head (ceCheck w c) fun g =>
    s.gather g g.cohort g.cohort (fun _ => (0, 0)) fun s g _ => cenbrGo w c s g

/-! ### CEWALK (R366, R367) -/

/-- The header and list sizes of a walk. -/
def walkHead (p : Nat) : Nat := 64 * ((4 * (p + 1) + 63) / 64)
def walkRow (n : Nat) : Nat := 64 * ((4 * n + 63) / 64)

def cewalkGo (w : EngW) (c : CBlock) (s : State) (g : Group) : Out :=
  let v := blockValue g c
  let coo := getField v.c0 0 48
  let out := getField v.c1 0 48
  let n := getField v.c2 0 24
  let p := getField v.c2 24 8 + 1
  let extent := walkHead p + 2 * walkRow n
  let ds := (if getField v.c0 48 13 ≠ 0 || getField v.c1 48 13 ≠ 0 || getField v.c2 32 29 ≠ 0 || getField v.c3 0 61 ≠ 0 then
      [0x23] else []) ++ (if n = 0 then [0x26] else []) ++
    (if out + extent ≤ 2 ^ 48 && s.ordDest out extent then [0x27] else [])
  let fail := worstVerdict [alignVerdict 0x02 (coo % 32 = 0 && out % 32 = 0), s.spanVerdict needR coo (8 * n),
    s.spanVerdict needW out extent, engRing s w, engineVerdict ds]
  ceGo w 5 coo fail [(coo, 8 * n), (out, extent)] (.walk coo out n p) (fun _ s => s) s g
def execCewalk (w : EngW) (c : CBlock) (s : State) : Out :=
  s.issueWord w.head (ceCheck w c) fun g =>
    s.gather g g.cohort g.cohort (fun _ => (0, 0)) fun s g _ => cewalkGo w c s g

/-! ### CEREL (R368) -/

/-- A released handle keeps its record under a name beyond 15 until the release completes. -/
def cerelGo (w : EngW) (s : State) (g : Group) : Out :=
  let h := getField (readOpd g 0 w.a 0) 0 4
  let die := s.dieCtx.1
  let ctx := s.dieCtx.2
  ceGo w 1 0 (if (s.ceHandle die ctx h).isSome then none else some (9, cEngine, 0x22)) [] (.free h)
    (fun id s => s.modHandle die (fun x => x.ctx = ctx && x.name = h) fun x => { x with name := 16 + id }) s g
def cerelCheck (w : EngW) (g : Group) : WordCheck :=
  { details := ceDetails true w g ++ hazardDetails g (accessReads g w.head [(w.a, 1)]), bank := false, bound := fun _ => false }
def execCerel (w : EngW) (s : State) : Out :=
  s.issueWord w.head (cerelCheck w) fun g =>
    s.gather g g.cohort g.cohort (fun _ => (0, 0)) fun s g _ => cerelGo w s g

/-! ### Completion (R360) -/

/-- Whether a command names a handle. -/
def namesHandle (o : Op) (h : Nat) : Bool :=
  match o.effect with
  | .build x .. => x = h
  | .neighbours x t .. => x = h || t = h
  | .listed names .. => names.contains h
  | _ => false

/-- The record that a `CEREL` releases. -/
def State.released? (s : State) (die : Nat) (o : Op) : Option CeHandle :=
  (s.dies[die]?).bind fun d => d.handles.find? fun h => h.name = 16 + o.id

/-- Earlier commands of a die and context that name a handle and are still outstanding, and `TGMS` commands that use its map
or wait for it (R368). -/
def State.handleUsers (s : State) (die ctx : Nat) (o : Op) (h : Nat) : Bool :=
  let id := (s.released? die o).map CeHandle.id
  (s.ops.any fun p =>
    (p.id < o.id && namesHandle p h && s.coreOf p.issuer / 48 = die && s.ctxOf p.issuer = ctx) ||
    (match p.effect with | .tile _ _ map _ => some map = id | _ => false)) ||
  (s.teams.any fun t => t.groups.any fun g => g.latch.any fun l => l.map.isSome && l.map = id)

/-- Whether a command reads or frees a handle whose build still waits for hash SRAM. -/
def State.behindBuild (s : State) (die : Nat) (p : Op) : Bool :=
  (s.ceOps die).any fun q => s.ungranted die q && q.id < p.id && s.ctxOf q.issuer = s.ctxOf p.issuer &&
    (match q.effect, p.effect with
     | .build x .., .neighbours _ t .. => x = t
     | .build x .., .free h => x = h
     | _, _ => false)

/-- The table a map is built from: the record reserved or held under its name, or one released since. -/
def State.tableFor (s : State) (die ctx name id : Nat) : Option (Nat × Slots) :=
  (s.dies[die]?).bind fun d =>
    let mine := d.handles.filter fun h => h.ctx = ctx && h.isTable && h.holder.isNone &&
      (h.name = name || (16 + id < h.name && s.ops.any fun p => p.id + 16 = h.name && p.effect = .free name))
    mine.head?.bind fun h => match h.object with | .table cap slots => some (cap, slots) | .map .. => none

/-- Whether a command may execute: every earlier command of its engine has, but for builds that wait for hash SRAM (R360). -/
def State.ceReady (s : State) (die : Nat) (o : Op) : Bool :=
  !s.ungranted die o && s.mayRead o &&
  !((s.ceOps die).any fun p => p.id < o.id && !s.ungranted die p) &&
  !s.behindBuild die o

/-- The hash slots that a `CEREL` frees: kept until its context's interval closes (R370). -/
def State.keptSlots (s : State) (die ctx : Nat) (o : Op) : List (Nat × Nat × Nat) :=
  match s.released? die o, s.contexts[ctx]? with
  | some h, some c => if h.isTable then [(ctx, c.interval, tableCap h)] else []
  | _, _ => []

/-- The extents that a command reads, in the order of its bytes. -/
def Op.ceReads (o : Op) : List (Nat × Nat) :=
  match o.effect with
  | .build _ _ list n => [(list, 8 * n)]
  | .neighbours _ _ km noff nout outl _ offl => (outl, 8 * nout) :: if km then [(offl, 8 * noff)] else []
  | .walk coo _ n _ => [(coo, 8 * n)]
  | _ => []
def fetchMoves (es : List (Nat × Nat)) : List Move := es.flatMap fun e => (sectors e.1 e.2).map fun p => .fetch p.1 p.2

/-- The lists that a command writes once its bytes have been read, and what is then left of it; none where it writes no list, or
while a table it reads is not held (R363-R367). -/
def State.ceLists (s : State) (die ctx : Nat) (o : Op) : Option (List (Nat × List Byte) × Effect) :=
  match o.effect with
  | .neighbours h tb km _ nout _ dst _ => (s.tableFor die ctx tb o.id).map fun tab =>
      let offs := if km then (nats8 (o.data.drop (8 * nout))).map coordOf else cubeOffsets
      let ls := mapLists tab.2 tab.1 (nats8 (o.data.take (8 * nout))) offs
      let counts := ls.map List.length
      ([(dst, mapBytes ls)], .listed [h, tb] (some (.map dst counts.length counts)) counts.sum)
  | .walk _ out n p =>
    let es := (nats8 o.data).map fun w => field w 0 32 * 2 ^ 32 + field w 32 32
    let sorted := (sortBy (fun a b => decide (a ≤ b)) es).eraseDups
    let m := sorted.length
    let bounds := (List.range (p + 1)).flatMap fun i => bytesOfNat 4 (i * m / p)
    some ([(out, bounds ++ List.replicate (walkHead p - bounds.length) 0),
      (out + walkHead p, sorted.flatMap fun e => bytesOfNat 4 (e / 2 ^ 32)),
      (out + walkHead p + walkRow n, sorted.flatMap fun e => bytesOfNat 4 (e % 2 ^ 32))], .listed [] none m)
  | _ => none

/-- What a command leaves once nothing is left to read or write: the state, and the value for kd. -/
def State.ceRun (s : State) (die ctx : Nat) (o : Op) : Option (State × Nat) :=
  match o.effect with
  | .build _ cap _ _ =>
    let r := buildTable (Nat.log2 cap) (nats8 o.data)
    some (s.modHandle die (fun h => h.holder = some o.id) fun h => { h with holder := none, object := .table cap r.1 },
      (if r.2.1 then 2 ^ 31 else 0) + r.2.2)
  | .listed _ object value =>
    some (match object with
      | some x => s.modHandle die (fun h => h.holder = some o.id) fun h => { h with holder := none, object := x }
      | none => s, value)
  | .free h =>
    if s.handleUsers die ctx o h || (s.dies[die]?).any fun d => d.handles.any fun x => x.name = 16 + o.id && x.holder.isSome then
      none
    else some (s.modDie die fun d =>
      { d with handles := d.handles.filter fun x => x.name ≠ 16 + o.id, hashKept := d.hashKept ++ s.keptSlots die ctx o }, 0)
  | _ => none

/-- CE_COMMAND_COMPLETE (R360): a command whose turn it is reads its bytes and writes its lists sector by sector (R372); after
its last write come its release, arrival, kd and flag. -/
def execCeCommandComplete (s : State) : Out :=
  match s.opOf [.ce] with
  | none => .next s
  | some o =>
    let die := s.coreOf o.issuer / 48
    let ctx := s.ctxOf o.issuer
    s.progress o fun o =>
      if o.data = [] && o.ceReads ≠ [] then
        if s.ceReady die o then .next (s.modOp o fun p => { p with todo := fetchMoves o.ceReads }) else .next s
      else match s.ceLists die ctx o with
        | some r => .next (s.modOp o fun p => { p with todo := storeMoves r.1, effect := r.2 })
        | none =>
          if !s.ceReady die o || !s.mayEnd o then .next s
          else match s.ceRun die ctx o with
            | none => .next s
            | some r => .next (r.1.completeOp (giveAll o r.2))

/-- CEBLD_SPACE_GRANT (R357): the oldest waiting build of the subject's die takes its slots, when they fit. -/
def execCebldSpaceGrant (s : State) : Out :=
  match s.opOf [.ce] with
  | none => .next s
  | some o => .next (s.grantNext (s.coreOf o.issuer / 48))

end Sys2Proof.Machine
end

