-- ==== Sys2Proof/Machine/Subs.lean ====
section
/-!
DEFINITION. Scratchpad subscriptions (R319-R331): `SBS`, `SBSX`, `PUBF`, the sync, and updates as they reach a subscriber.
-/
namespace Sys2Proof.Machine

/-! ### Regions and names -/

/-- The index of a launch's team of a grid index (R295), and how many teams it has (R447). -/
def State.teamAt (s : State) (launch tidx : Nat) : Option Nat :=
  (List.range s.teams.length).find? fun u => match s.teams[u]? with
    | some x => x.launch = launch && x.tidx = tidx && x.parent.isNone
    | none => false
def Launch.teamCount (l : Launch) : Nat :=
  let w := l.slot.low.w3.toNat
  if l.isTask then field w 0 24 else field w 0 24 * field w 24 12 * field w 36 12

def State.subsOf (s : State) (t : Nat) : List Subscription := s.subs.filter fun b => b.subscriber = t
def State.modSub (s : State) (t h : Nat) (f : Subscription → Subscription) : State :=
  { s with subs := s.subs.map fun b => if b.subscriber = t && b.handle = h then f b else b }
def State.sub? (s : State) (t h : Nat) : Option Subscription := s.subs.find? fun b => b.subscriber = t && b.handle = h

/-- Whether a team has publication entries on its core: it stands there, or has ended and keeps them (R319, R326). -/
def publishesHere (t : Team) : Bool := onCore t || (t.residency = .ended && t.banks ≠ [])

/-- The publication entries of a core, publisher, offset and length, and its subscription entries: those of the teams
resident on it (R319). -/
def State.publications (s : State) (core : Nat) : List (Nat × Nat × Nat) :=
  ((s.subs.filter fun b => b.state ≠ .ended && (s.teams[b.publisher]?).any fun t => t.core = core && publishesHere t).map fun b =>
    (b.publisher, b.pubOffset, b.len)).eraseDups
def State.subsOnCore (s : State) (core : Nat) : Nat :=
  (s.subs.filter fun b => (s.teams[b.subscriber]?).any fun t => t.core = core && onCore t).length

/-- Whether a core has room for the entries of a switched-out team. -/
def State.subRoom (s : State) (t core : Nat) : Bool :=
  let pubs := ((s.subs.filter fun b => b.state ≠ .ended && b.publisher = t).map fun b => (b.pubOffset, b.len)).eraseDups
  (s.subsOf t).length + s.subsOnCore core ≤ 16 && pubs.length + (s.publications core).length ≤ 8

/-! ### Writing a subscriber's region (R323, R328, R330, R331) -/

/-- Bytes that reach a subscriber's scratchpad; a byte of a bank that is not in SCRATCH mode is discarded (R328). -/
def putUpdate (t : Team) (a : Nat) (bs : List Byte) : Team :=
  (List.range bs.length).foldl (fun t i =>
    match t.banks[(a + i) / 32768]? with
    | some b => if b.mode = .scratch then scratchPut t (a + i) (bs.getD i 0) else t
    | none => t) t

/-- One write applied to an active subscription: to its region, or to its staging image in an ordered launch. -/
def State.subPut (s : State) (b : Subscription) (w : SubWrite) : State :=
  if ((s.launchOf b.subscriber).map Launch.ordered).getD false then
    s.modSub b.subscriber b.handle fun b =>
      { b with image := (List.range w.data.length).foldl (fun c i =>
          Cells.put none c (w.offset + i) (some (w.data.getD i 0))) b.image }
  else s.modTeam b.subscriber fun t => putUpdate t (b.subOffset + w.offset) w.data

/-- A log record (R330): sector, mask, the sector's bytes. -/
def SubWrite.record (w : SubWrite) : List Byte :=
  let a := w.offset % 32
  let mask := (2 ^ w.data.length - 1) * 2 ^ a
  bytesOfNat 8 (w.offset / 32 + 2 ^ 16 * mask) ++ (List.replicate a 0 ++ w.data ++ List.replicate 32 0).take 32 ++ List.replicate 24 0

/-- A record at its subscriber (R323, R328, R330): logged while it is dormant, applied otherwise. In an ordered launch it
always enters the image. -/
def State.subApply (s : State) (t h : Nat) (w : SubWrite) : State :=
  match s.sub? t h with
  | none => s
  | some b =>
    let ordered := ((s.launchOf t).map Launch.ordered).getD false
    if b.state = .ended then s
    else if b.state = .dormant && !ordered then
      let full := b.overflow || 1024 ≤ b.log.length
      let s1 := s.modSub t h fun b => if full then { b with overflow := true } else { b with log := b.log ++ [w] }
      let s2 := if full then s1 else s1.saveWrite t (1 + h) (64 + 64 * b.log.length) w.record
      (s2.saveWrite t (1 + h) 0 (s.savedBytes 64)).draw
    else s.subPut b w

/-- Whether the sync of a subscription has still to read some of the region (R323). -/
def Subscription.syncing (b : Subscription) : Bool := b.synced < b.len

/-- The bytes of a publisher's region, from its core or its saved context (R330, R418). -/
def State.regionBytes (s : State) (b : Subscription) (off n : Nat) : List Byte :=
  match s.teams[b.publisher]? with | some p => scratchRead p (b.pubOffset + off) n | none => []

/-- The next 4 KiB chunk of a sync, read and queued behind the updates that came before it (R323). -/
def State.syncChunk (s : State) (b : Subscription) : State :=
  let n := min 4096 (b.len - b.synced)
  let u : Update := ⟨s.nextId, b.subscriber, b.handle, b.publisher, [], ⟨b.synced, s.regionBytes b b.synced n⟩, false, true, false⟩
  let s1 := s.modSub b.subscriber b.handle fun b => { b with synced := b.synced + n }
  { s1 with updates := s1.updates ++ [u], nextId := s1.nextId + 1 }

/-- All that is left of a sync, read; `n` bounds the chunks. -/
def State.syncRest : Nat → State → Nat → Nat → State
  | 0, s, _, _ => s
  | n + 1, s, t, h => match s.sub? t h with
    | some b => if b.syncing then (s.syncChunk b).syncRest n t h else s
    | none => s

/-- The staged bytes of a team's subscriptions written to its regions at a barrier (R331). -/
def State.applyImages (s : State) (t : Nat) : State :=
  (s.subsOf t).foldl (fun s b =>
    let s1 := s.modTeam t fun tm => b.image.foldl (fun tm e => match e.2 with
      | some x => putUpdate tm (b.subOffset + e.1) [x]
      | none => tm) tm
    s1.modSub t b.handle fun b => { b with image := [] }) s

/-- One pending update applied and gone. -/
def State.applyUpdate (s : State) (u : Update) : State :=
  ({ s with updates := s.updates.filter fun x => x.id ≠ u.id }).subApply u.subscriber u.handle u.write

/-- Every record that a team's writes, or a sync of its regions, produced, applied in order (R327). -/
def State.flushUpdates (s : State) (t : Nat) : State := (s.updates.filter fun u => u.team = t).foldl State.applyUpdate s

/-- What a publisher that ends leaves to its subscribers (R327): the syncs of its regions are read to their end, every record is
applied or logged, and a log that has overflowed becomes the region's last bytes (assumption log, entry 54). -/
def State.settlePubs (s : State) (t : Nat) : State :=
  let s1 := (s.subs.filter fun b => b.publisher = t).foldl (fun s b => s.syncRest 17 b.subscriber b.handle) s
  let s2 := s1.flushUpdates t
  { s2 with subs := s2.subs.map fun b =>
      if b.publisher = t && b.overflow then { b with overflow := false, log := [⟨0, s2.regionBytes b 0 b.len⟩] } else b }

/-! ### SBS (R321-R323) -/

/-- The fields that R321 gives as 0. -/
def subZeros (ring : Bool) (w : EngW) : List Nat :=
  (if w.acq ≠ 0 || w.rel ≠ 0 || w.scope ≠ 0 || w.ord ≠ 0 || w.sub ≠ 0 then [0x04] else []) ++
  (if (!ring || w.arr = 0) && (w.sg ≠ 0 || w.slot ≠ 0) then [0x04] else []) ++ (if !ring && w.arr = 1 then [0x04] else [])
def quadReg (a : Spec) : List Nat :=
  match opdOf a with | .k n => if n % 4 = 0 then [] else [0x03] | .v _ | .p _ | .rel .. => [0x0F] | _ => [0x03]

/-- The status of an `SBS` (R322): the first condition that holds. -/
def State.sbsStatus (s : State) (t : Nat) (tm : Team) (l : Launch) (pub po so len : Nat) : Nat :=
  let p := s.teamAt tm.launch pub
  let ptm := p.bind fun u => s.teams[u]?
  let mate := match ptm with | some x => x.cteam = tm.cteam && tm.parent.isNone | none => false
  let live := mate || (match ptm with
    | some x => x.core / 48 = tm.core / 48 && (onCore x || (x.residency = .switchedOut && x.preempt = .turn))
    | none => false)
  let u := p.getD 0
  let pscr := (ptm.map Team.scratch).getD 0
  let shared := s.subs.filter fun b => b.state ≠ .ended && b.publisher = u && b.pubOffset = po && b.len = len
  let pcore := (ptm.map Team.core).getD 0
  if l.teamCount ≤ pub || p = some t then 0x01
  else if !live then 0x02
  else if po % 32 ≠ 0 || so % 32 ≠ 0 || len % 32 ≠ 0 || len = 0 || 65536 < len || pscr < po + len || tm.scratch < so + len then
    0x03
  else if (s.subs.any fun b => b.subscriber = t && overlap b.subOffset b.len so len) ||
      (s.subs.any fun b => b.state ≠ .ended && b.publisher = t && overlap b.pubOffset b.len so len) ||
      (s.subs.any fun b => b.subscriber = u && overlap b.subOffset b.len po len) then 0x04
  else if 16 ≤ (s.subsOf t).length || 16 ≤ s.subsOnCore tm.core then 0x05
  else if (shared = [] && 8 ≤ (s.publications pcore).length) || 4 ≤ shared.length then 0x06
  else if l.ordered && !mate then 0x08
  else 0

/-- The lowest handle free in a team. -/
def State.freeHandle (s : State) (t : Nat) : Nat :=
  ((List.range 16).find? fun h => !((s.subsOf t).any fun b => b.handle = h)).getD 0

/-- A pending operation of `SBS`, `SBSX` or `PUBF`. -/
def subOp (w : EngW) (kind : OpKind) (s : State) (g : Group) (v : Nat) (e : Effect) : Op :=
  giveAll { Op.blank s.nextId s.issuer kind (selectedFlag g w.head.fs) with
    dests := (kDest w.d).map fun r => (r, none)
    arrive := engArrive w
    effect := e } v

def sbsGo (w : EngW) (s : State) (g : Group) : Out :=
  let t := s.viewTeam s.issuer
  match s.teams[t]?, s.launchOf t with
  | some tm, some l =>
    let r (j : Nat) : Nat := (readOpd g 0 w.a j).toNat
    if flagBlocked g (selectedFlag g w.head.fs) then .next (s.holdAt .flagFull)
    else if s.acquiring s.issuer then .next (s.holdAt .fence)
    else
      let st := s.sbsStatus t tm l (r 0) (r 1) (r 2) (r 3)
      if st ≠ 0 then .next ((s.launchOp (kDest w.d) (subOp w .sbs s g (256 * st) .none)).releaseBy 1)
      else
        let h := s.freeHandle t
        let b : Subscription :=
          { handle := h, subscriber := t, publisher := (s.teamAt tm.launch (r 0)).getD 0,
            pubOffset := r 1, subOffset := r 2, len := r 3, state := .active, synced := 0, log := [], overflow := false,
            image := [] }
        .next ((({ s with subs := s.subs ++ [b] }).launchOp (kDest w.d) (subOp w .sbs s g h (.sync h))).releaseBy 1)
  | _, _ => .fault .noIssuer

def subCheck (quad : Bool) (w : EngW) (g : Group) : WordCheck :=
  { details := headDetails g w.head [.copy, .vector] true false ++ noGuard w.head ++ kOrZero w.d ++
      (if quad then quadReg w.a else kOnlyDetails false w.a) ++ subZeros false w ++
      hazardDetails g (accessReads g w.head [(w.a, if quad then 4 else 1)])
    bank := false
    bound := fun _ => false }
def execSbs (w : EngW) (s : State) : Out :=
  s.issueWord w.head (subCheck true w) fun g =>
    s.gather g g.cohort g.cohort (fun _ => (0, 0)) fun s g _ => sbsGo w s g

/-- SBS_SYNC_COMPLETE (R323): the next chunk of the sync is read; when all of it has been read and applied, `SBS` completes,
and the subscription of a publisher that has ended is ENDED (R326). -/
def execSbsSyncComplete (s : State) : Out :=
  match s.opOf [.sbs] with
  | none => .next s
  | some o => match o.effect with
    | .sync h =>
      let t := issuerTeam o.issuer
      (match s.sub? t h with
       | none => .next (s.completeOp o)
       | some b =>
         if b.syncing then .next (s.syncChunk b)
         else if s.updates.any fun u => u.subscriber = t && u.handle = h && u.sync then .next s
         else
           let gone := (s.teams[b.publisher]?).any fun p => p.residency = .ended
           .next ((s.modSub t h fun b => { b with state := if gone then .ended else b.state }).completeOp o))
    | _ => .next (s.completeOp o)

/-! ### SBSX (R324) -/

def sbsxGo (w : EngW) (s : State) (g : Group) : Out :=
  if flagBlocked g (selectedFlag g w.head.fs) then .next (s.holdAt .flagFull)
  else if s.acquiring s.issuer then .next (s.holdAt .fence)
  else .next ((s.launchOp (kDest w.d)
    (subOp w .sbsx s g 0 (.unsubscribe (getField (readOpd g 0 w.a 0) 0 4)))).releaseBy 1)
def execSbsx (w : EngW) (s : State) : Out :=
  s.issueWord w.head (subCheck false w) fun g =>
    s.gather g g.cohort g.cohort (fun _ => (0, 0)) fun s g _ => sbsxGo w s g

/-- A subscription gone with the updates on their way to it. -/
def State.dropSub (s : State) (t h : Nat) : State :=
  { s with subs := s.subs.filter fun b => !(b.subscriber = t && b.handle = h)
           updates := s.updates.filter fun u => !(u.subscriber = t && u.handle = h) }

/-- SBSX_COMPLETE (R324). -/
def execSbsxComplete (s : State) : Out :=
  match s.opOf [.sbsx] with
  | none => .next s
  | some o => match o.effect with
    | .unsubscribe h =>
      let t := issuerTeam o.issuer
      let st := match s.sub? t h with | none => 0x09 | some b => if b.state = .ended then 0x0A else 0
      .next ((s.dropSub t h).completeOp (giveAll o (256 * st)))
    | _ => .next (s.completeOp o)

/-! ### PUBF (R325) -/

def pubfGo (w : EngW) (s : State) (g : Group) : Out :=
  let t := s.viewTeam s.issuer
  let gi := issuerGroup s.issuer
  match engRing s w with
  | some v => s.stopAll g v.2.1 v.2.2 0
  | none =>
    if flagBlocked g (selectedFlag g w.head.fs) then .next (s.holdAt .flagFull)
    else if s.acquiring s.issuer then .next (s.holdAt .fence)
    else
      let mine (u : Update) : Bool := u.team = t && u.grps.contains gi
      let ids := (s.updates.filter mine).map Update.id
      let loads := (s.ops.filter fun o => o.issuer = s.issuer && (padPending o || s.clearsPublished o)).map Op.id
      let s1 : State := { s with updates := s.updates.map fun u => if mine u then { u with windowOpen := false } else u }
      .next ((s1.launchOp [] (subOp w .pubf s g 0 (.flush ids loads))).releaseBy 1)
def pubfCheck (w : EngW) (g : Group) : WordCheck :=
  { details := headDetails g w.head [.copy, .vector] true false ++ noGuard w.head ++ idleSpec w.d ++ idleSpec w.a ++
      subZeros true w
    bank := false
    bound := fun _ => false }
def execPubf (w : EngW) (s : State) : Out :=
  s.issueWord w.head (pubfCheck w) fun g =>
    s.gather g g.cohort g.cohort (fun _ => (0, 0)) fun s g _ => pubfGo w s g

/-- PUBF_COMPLETE (R325): every covered update has been applied. The updates of the group's writes that were outstanding are
covered once these have been made. -/
def execPubfComplete (s : State) : Out :=
  match s.opOf [.pubf] with
  | none => .next s
  | some o => match o.effect with
    | .flush ids loads =>
      if s.ops.any fun p => loads.contains p.id then .next s
      else if loads ≠ [] then
        let now := (s.updates.filter fun u => u.team = issuerTeam o.issuer && u.grps.contains (issuerGroup o.issuer)).map Update.id
        .next { s with ops := s.ops.map fun p => if p.id = o.id then { p with effect := .flush (ids ++ now) [] } else p }
      else if s.updates.any fun u => ids.contains u.id then .next s
      else .next (s.completeOp o)
    | _ => .next (s.completeOp o)

/-! ### Updates on their way (R328) -/

/-- SUB_UPDATE_APPLY: the subject record reaches its subscriber, after the earlier ones of the subscription and once the sync
has been read (R323). In an ordered launch one of a write made after an arrival waits for the barrier (R331). -/
def execSubUpdateApply (s : State) : Out :=
  match s.updates.find? fun u => u.id = s.subject with
  | none => .next s
  | some u =>
    if (s.updates.any fun x => x.id < u.id && x.subscriber = u.subscriber && x.handle = u.handle) ||
        (s.sub? u.subscriber u.handle).any Subscription.syncing ||
        (u.late && ((s.launchOf u.subscriber).map Launch.ordered).getD false) then .next s
    else .next (s.applyUpdate u)

/-- SUB_BATCH_WINDOW_CLOSE: no later write joins the subject update. -/
def execSubBatchWindowClose (s : State) : Out :=
  .next { s with updates := s.updates.map fun u => if u.id = s.subject then { u with windowOpen := false } else u }

end Sys2Proof.Machine
end

