-- ==== Sys2Proof/Machine/Ordered.lean ====
section
/-!
DEFINITION. Merge points of ordered launches (R420-R424): write sets merged into a parent's set or into memory, held
contributions applied, and the conflicts found.
-/
namespace Sys2Proof.Machine

/-! ### Writes not yet in their set (R424) -/

/-- Whether a pending engine operation may still write an ORD page. -/
def engineWrites (o : Op) : Bool :=
  (match o.effect with | .tileStore .. | .flueRows .. | .copy .. | .tile .. => true | _ => false) ||
  o.todo.any fun m => match m with | .store .. => true | _ => false

/-- Whether every write a team has issued is entered in its write set. -/
def State.setSettled (s : State) (t : Nat) : Bool :=
  !(s.reqs.any fun r => r.team = t && r.ord && isWrite r.kind && !r.performed) &&
  !(s.opsOfTeam t).any engineWrites

/-! ### Sets and their conflicts (R422, R423) -/

/-- The virtual addresses of bytes that two sets hold with different values, among the entries of the first that a
test picks. -/
def clashes (a b : Cells SetByte) (which : SetByte → Bool) : List Nat :=
  a.filterMap fun e => if which e.2 then
      (b.find? fun x => x.1 = e.1 && x.2.value ≠ e.2.value).map fun _ => e.2.va
    else none

/-- The bytes that differ between any two of some sets. -/
def pairClashes : List (Cells SetByte) → List Nat
  | [] => []
  | a :: r => (r.flatMap fun b => clashes a b fun _ => true) ++ pairClashes r

/-- A set applied over another; its bytes count as written after `stamp` spawns. -/
def applySet (stamp : Nat) (into src : Cells SetByte) : Cells SetByte :=
  src.foldl (fun c e => setPut c e.1 { e.2 with spawns := stamp }) into

/-- The lowest conflicting byte of a merge and its CONFLICT detail (R423). -/
def conflictOf (between past : List Nat) : Option (Nat × Nat) :=
  (leastOf (between ++ past)).map fun va => (va, if between.contains va then 0x01 else 0x02)

/-! ### Merging children into their parent (R422) -/

/-- The sets of those of some children that are DONE, in ascending task ID, merged into their parent's; those of the others are
discarded (R302). What the children hold of contributions stays until the merge into memory. -/
def State.mergeChildren (s : State) (parent : Nat) (kids : List Nat) : State × Option (Nat × Nat) :=
  match s.teams[parent]? with
  | none => (s, none)
  | some p =>
    let sorted := sortBy (fun a b => decide (a.2.taskId.toNat ≤ b.2.taskId.toNat))
      (kids.filterMap fun k => (s.teams[k]?).bind fun t => if t.ended = some .done then some (k, t) else none)
    let between := pairClashes (sorted.map fun k => k.2.writeSet)
    let past := sorted.flatMap fun k => clashes p.writeSet k.2.writeSet fun b => decide (k.2.spawnIndex < b.spawns)
    let merged := sorted.foldl (fun c k => applySet p.spawns c k.2.writeSet) p.writeSet
    let s1 := s.modTeam parent fun t => { t with writeSet := merged }
    (kids.foldl (fun s k => s.modTeam k fun t => { t with writeSet := [], shadows := [], logged := [0, 0, 0] }) s1,
      conflictOf between past)

/-! ### Merging into memory (R422) -/

/-- The teams of a launch that are no spawned tasks, in ascending task ID. -/
def State.topTeams (s : State) (l : Nat) : List Nat :=
  let ts := (List.range s.teams.length).filterMap fun u => (s.teams[u]?).bind fun t =>
    if t.launch = l && t.parent.isNone then some (u, t.taskId.toNat) else none
  (sortBy (fun a b => decide (a.2 ≤ b.2)) ts).map Prod.fst

/-- The old bytes of memory kept in the views of spawned tasks that run or are queued, which stay as they stood (R419). -/
def State.keepBase (s : State) (l a : Nat) (old : Byte) : State :=
  let keep (base : Cells SetByte) : Cells SetByte := if base.any fun e => e.1 = a then base else setPut base a ⟨old, 0, 0⟩
  let keepIn (b : Billet) : Billet := if b.launch = l && b.parent.isSome then { b with base := keep b.base } else b
  { s with
    teams := s.teams.map fun (t : Team) => if t.launch = l && t.parent.isSome && t.ended.isNone then { t with base := keep t.base } else t
    clusters := s.clusters.map fun c => { c with billets := c.billets.map keepIn, overflow := c.overflow.map keepIn } }

/-- One merged byte written to memory; the first of a sector counts as its write request (R341). -/
def State.mergeByte (s : State) (l ctx : Nat) (sector : Nat) (e : Nat × SetByte) : State :=
  match s.translate noDie ctx e.2.va with
  | .ok _ leaf _ _ =>
    let key := keySlot ctx leaf
    (s.keepBase l e.1 (s.homeByte key e.1)).sliceWrite ctx key e.1 (leafClassA leaf) true
      (if e.1 / 32 = sector then 0 else 1) [e.2.value]
  | _ => s

/-- A merged set written to memory. -/
def State.mergeBytes (s : State) (l ctx : Nat) : Nat → Cells SetByte → State
  | _, [] => s
  | sector, e :: r => (s.mergeByte l ctx sector e).mergeBytes l ctx (e.1 / 32) r

/-- Whether every ancestor of a team still lives the life in which it was spawned; `n` bounds the depth (R288, R420). -/
def State.ofThisLife (s : State) : Nat → Team → Bool
  | 0, _ => false
  | n + 1, t => match t.parent with
    | none => true
    | some p => (s.teams[p]?).any fun x => x.life = t.parentLife && s.ofThisLife n x

/-- A held contribution applied to memory (R190, R422). -/
def State.applyHeld (s : State) (l ctx : Nat) (c : Contribution) : State :=
  match s.translate noDie ctx c.va with
  | .ok _ leaf _ _ =>
    let n := if c.wide then 8 else 4
    let key := keySlot ctx leaf
    let old := natOfBytes (s.homeBytes key c.pa n)
    let s1 := (List.range n).foldl (fun s i => s.keepBase l (canonPa (c.pa + i)) (s.homeByte key (canonPa (c.pa + i)))) s
    s1.sliceWrite ctx key c.pa (leafClassA leaf) true c.adds (bytesOfNat n (atomicNew c.aop c.wide old c.operand.toNat 0))
  | _ => s

/-- What a merge into memory found: the lowest conflicting byte, and the team of highest task ID that holds it. -/
structure MergeConflict where
  va : Nat
  team : Nat
deriving DecidableEq, Repr

/-- The sets of every team of a launch merged into memory, then its held contributions in ascending (task ID,
sequence) order; every set is then empty (R422). -/
def State.mergeToMemory (s : State) (l : Nat) : State × Option MergeConflict :=
  let ctx := ((s.launches[l]?).map Launch.ctx).getD 0
  let tops := (s.topTeams l).filterMap fun u => (s.teams[u]?).map fun t => (u, t)
  let lowest := leastOf (pairClashes (tops.map fun t => t.2.writeSet))
  let conflict := lowest.bind fun va =>
    ((tops.filter fun t => t.2.writeSet.any fun e => e.2.va = va).getLast?).map fun t => (⟨va, t.1⟩ : MergeConflict)
  let merged := tops.foldl (fun c t => applySet 0 c t.2.writeSet) []
  let held := (s.teams.filter fun t => t.launch = l && s.ofThisLife 4 t).flatMap fun t => t.held.map fun c => (t.taskId.toNat, c)
  let order := sortBy (fun a b => decide (a.1 < b.1 ∨ (a.1 = b.1 ∧ a.2.seq ≤ b.2.seq))) held
  let s1 := s.mergeBytes l ctx (2 ^ 48) merged
  let s2 := order.foldl (fun s c => s.applyHeld l ctx c.2) s1
  ({ s2 with teams := s2.teams.map fun (t : Team) =>
      if t.launch ≠ l then t
      else if t.parent.isNone then { t with writeSet := [], shadows := [], held := [], logged := [0, 0, 0], loggedHeld := [0, 0, 0] }
      else { t with held := [], loggedHeld := [0, 0, 0] } }, conflict)

/-! ### Reporting a conflict (R423) -/

/-- A conflict reported as at launch end: a FAULT record, and conflict status for the launch. -/
def State.launchConflict (s : State) (t : Nat) (detail : Nat) : State :=
  let s1 := s.faultRecord cConflict detail t 0
  s1.modTeam t fun tm => { tm with conflict := true }

/-- The stop of a group that stands past its merge point (R423): the mask names its active lanes. -/
def State.conflictStop (s : State) (t g detail va : Nat) : State :=
  match s.group? t g with
  | none => s
  | some gr =>
    let c := gr.clause
    s.takeStop t g cConflict ((c.map Clause.pos).getD 0) detail ((c.map Clause.wait).getD 0) (activeMask gr) va

/-- A conflict of a merge at `BAR.grid` (R423). -/
def State.gridConflict (s : State) (c : MergeConflict) : State :=
  match s.teams[c.team]? with
  | none => s
  | some tm => match (List.range tm.groups.length).find? fun g => (tm.groups[g]?).any fun x => x.run ≠ .ended with
    | some g => s.conflictStop c.team g 0x01 c.va
    | none => s.launchConflict c.team 0x01

end Sys2Proof.Machine
end

