-- ==== Sys2Proof/Machine/Slots.lean ====
section
/-!
DEFINITION. The issue slots of a partition (R206) and its active and pending sets (R209): which word a group issues next,
which groups are ready, what a slot served last, and how groups take, leave and exchange their places.
-/
namespace Sys2Proof.Machine

/-! ### The next word of a group -/

/-- The word at the place a unit's clause has reached. -/
def State.currentWord (s : State) (i : Issuer) : Option Instr :=
  (s.unitOf i).bind fun g => g.clause.map fun c =>
    let code := (s.codeOf i).1
    let at_ (k : Nat) : Word64 := code.getD (c.h + c.pos + k) 0
    decodeWord (at_ 0) ⟨at_ 1, at_ 2, at_ 3, at_ 4⟩

/-- The WAIT field of the H word at a PC. -/
def waitAt (code : List Word64) (pc : Nat) : BitVec 12 :=
  match code[pc]? with | some w => if isHeader w then BitVec.ofNat 12 (getField w 50 12) else 0 | none => 0

/-- The flags of WSNAP that threads at an H word still wait for after a return from a stop (R280). -/
def snapAt (g : Group) (pc : Nat) : BitVec 12 :=
  match g.resumeAt with | some r => if r.1 = pc then r.2 else 0 | none => 0

/-- The flags that must be zero before a group's next word issues (R12, R15). -/
def flagsAwaited (code : List Word64) (g : Group) : BitVec 12 :=
  match g.clause with
  | some c => if g.hold = .resumeWait then snapAt g c.h else 0
  | none => match nextClause g with
    | some n => waitAt code n.1 ||| snapAt g n.1
    | none => 0

/-- The bits of the word a group issues next. -/
def nextBits (code : List Word64) (g : Group) : Option Word64 :=
  match g.clause with
  | some c => code[c.h + c.pos]?
  | none => (nextClause g).bind fun n => code[n.1 + 1]?

/-- Whether a word issues in the M slot alone: an F word of class B, M, X, E or S, or a variable-latency word of class F
(R42, R206). -/
def inMSlot (w : Word64) : Bool :=
  let op := getField w 54 8
  getField w 62 2 = 0 && (0x80 ≤ op || (0x4B ≤ op && op ≤ 0x54))

/-! ### Conditions a group waits for by itself (R207, R209) -/

/-- The slot of a ring that an `ARRV` or `WAITR` acts on. -/
def ringSlot (t : Team) (w : SysW) (g : Group) : Nat :=
  let n := ((t.rings.find? fun r => r.name = w.sg.toNat).map Ring.slots).getD 1
  (w.slot.toNat + (readOpd g 0 w.a 0).toNat) % n

/-- The phase of that slot, and the phase a `WAITR` awaits (R219). -/
def ringPhase (t : Team) (w : SysW) (g : Group) : Bool :=
  ((t.rings.find? fun r => r.name = w.sg.toNat).map fun r => r.phases.getLsbD (ringSlot t w g)).getD false
def phaseWanted (w : SysW) (g : Group) : Bool := (w.ph = 1) != (readOpd g 0 w.b 0).getLsbD 0

/-- The child tasks of a team's present life that have ended, by team, among those whose IDs are given (R302). -/
def State.endedChildren (s : State) (parent : Nat) (ids : List Word64) : List Nat :=
  let life := ((s.teams[parent]?).map Team.life).getD 0
  (List.range s.teams.length).filter fun u => match s.teams[u]? with
    | some t => t.parent = some parent && t.parentLife = life && t.ended.isSome && ids.contains t.taskId
    | none => false

/-- Whether a group held at `WAITR`, `BAR` or `TWAIT` still waits there. -/
def State.stillHeld (s : State) (t : Nat) (tm : Team) (grp : Nat) (g : Group) : Bool :=
  match g.hold with
  | .waitr => match s.currentWord (.group t grp) with
    | some (.waitr w) => ringPhase tm w g ≠ phaseWanted w g
    | _ => false
  | .twait => (s.endedChildren t g.children).length < g.children.length
  | .bar _ _ => true
  | _ => false

/-- Whether a pending operation is long (R208): an access to memory, not one to the scratchpad alone. -/
def State.longOp (s : State) (o : Op) : Bool :=
  match o.kind with
  | .mem => (match o.effect with | .tileLoad .. | .tileStore .. => true | _ => s.reqs.any fun r => r.op = some o.id) ||
      o.todo.any fun m => match m with | .padFill .. | .store .. => true | _ => false
  | .cmaint | .fifoPush | .fifoPop | .bankSwitch | .obld | .tepi | .tileImage | .cpy | .tgms | .ce | .sbs | .sbsx | .pubf
  | .spawn => true
  | .division | .fpLong | .mma | .tileReg | .tst | .rmap | .arrv | .debug => false

/-- Whether a flag of a group is long-held (R208). -/
def State.longHeld (s : State) (t grp f : Nat) : Bool :=
  s.ops.any fun o => o.flag = some f && o.issuer = .group t grp && s.longOp o

/-- Whether an active group is to move to the pending set, which is also when a pending group is not ready (R209). -/
def State.mustWait (s : State) (t : Nat) (tm : Team) (grp : Nat) (g : Group) : Bool :=
  s.stillHeld t tm grp g ||
  (let code := (s.codeOf (.group t grp)).1
   let wait := flagsAwaited code g
   g.clause.isNone && !flagsZero g wait &&
     (List.range 12).any fun f => wait.getLsbD f && flagCount g f ≠ 0 && s.longHeld t grp f)

/-! ### The groups of a partition -/

/-- The partition of a group of a team (R202). -/
def partOf (t : Team) (grp : Nat) : Nat := (t.offset + grp) % 8

/-- The groups on a partition that have not ended, by team and group, with their teams. -/
def State.partGroups (s : State) (core part : Nat) : List (Nat × Nat × Team × Group) :=
  (List.range s.teams.length).flatMap fun u => match s.teams[u]? with
    | none => []
    | some t =>
      if t.core = core && onCore t then
        (List.range t.groups.length).filterMap fun k => (t.groups[k]?).bind fun g =>
          if partOf t k = part && g.run ≠ .ended then some (u, k, t, g) else none
      else []

/-- Whether a group is ready (R206): active, running, its next word able to start and not held at issue. -/
def State.slotReady (s : State) (t : Nat) (tm : Team) (grp : Nat) (g : Group) : Bool :=
  tm.residency = .resident && g.seat = .active && g.run = .running &&
  (match g.hold with | .none | .clauseWait | .resumeWait => true | _ => false) &&
  flagsZero g (flagsAwaited (s.codeOf (.group t grp)).1 g) && (nextBits (s.codeOf (.group t grp)).1 g).isSome

/-- Whether a ready group's next word is an M-slot word. -/
def State.mReady (s : State) (t : Nat) (tm : Team) (grp : Nat) (g : Group) : Bool :=
  s.slotReady t tm grp g && (nextBits (s.codeOf (.group t grp)).1 g).any inMSlot

/-- The ready groups of a partition whose next word is an M-slot word. -/
def State.mReadyOf (s : State) (core part : Nat) : List (Nat × Nat × Team × Group) :=
  (s.partGroups core part).filter fun x => s.mReady x.1 x.2.2.1 x.2.1 x.2.2.2

/-! ### Round-robin (R206) -/

/-- What a slot served last. -/
def State.slotLast (s : State) (core part : Nat) (role : Option Role) : Option (Nat × Nat) :=
  (s.slots.find? fun p => p.core = core && p.part = part && p.role = role).map SlotPlace.last

/-- A slot that serves a group, or whose round-robin the group gives up its place in: it comes last from now on. -/
def State.slotTake (s : State) (core part : Nat) (role : Option Role) (t grp : Nat) : State :=
  { s with slots := ⟨core, part, role, (t, grp)⟩ :: s.slots.filter fun p => !(p.core = core && p.part = part && p.role = role) }

/-- Groups in the order a slot takes them: counted from the one after that it served last. -/
def fromLast (last : Option (Nat × Nat)) (l : List (Nat × Nat × Team × Group)) : List (Nat × Nat × Team × Group) :=
  match last with
  | none => l
  | some p =>
    let after (x : Nat × Nat × Team × Group) : Bool := p.1 < x.1 || (p.1 = x.1 && p.2 < x.2.1)
    l.filter after ++ l.filter fun x => !after x

/-- The first of some groups in the M slot's order: copy, matrix, vector, round-robin within a role. -/
def State.firstByRole (s : State) (core part : Nat) (l : List (Nat × Nat × Team × Group)) : Option (Nat × Nat) :=
  ([Role.copy, Role.matrix, Role.vector].findSome? fun r =>
    (fromLast (s.slotLast core part (some r)) (l.filter fun x => x.2.2.2.role = r)).head?).map fun x => (x.1, x.2.1)

/-- Whether a group's next word is a P word, which fills both slots of its partition (R9, R206). -/
def State.pairNext (s : State) (t grp : Nat) : Bool :=
  (s.group? t grp).any fun g => (nextBits (s.codeOf (.group t grp)).1 g).any fun w => getField w 62 2 = 1

/-- Whether a group takes precedence in the M slot: three clocks in a row have passed it over (R206). -/
def goesFirst (g : Group) : Bool := g.precedence || 3 ≤ g.passed

/-- The groups the two slots of a partition choose: where the V slot picks a P word, it has the M slot too. -/
def State.slotChoices (s : State) (core part : Nat) : List (Nat × Nat) :=
  let ready := (s.partGroups core part).filter fun x => s.slotReady x.1 x.2.2.1 x.2.1 x.2.2.2
  let m := ready.filter fun x => s.mReady x.1 x.2.2.1 x.2.1 x.2.2.2
  let v := ready.filter fun x => !s.mReady x.1 x.2.2.1 x.2.1 x.2.2.2
  let first := match m.filter fun x => goesFirst x.2.2.2 with | [] => m | p => p
  match (fromLast (s.slotLast core part none) v).head? with
  | none => (s.firstByRole core part first).toList
  | some x => (x.1, x.2.1) :: if s.pairNext x.1 x.2.1 then [] else (s.firstByRole core part first).toList

/-- A slot has served a group whose word issued, `b` being the part before it did: its place in the round-robin moves on; a
word that has the M slot passes over the other ready groups of the partition that wait for that slot. -/
def State.serve (s b : State) (t grp : Nat) : State :=
  match b.teams[t]?, b.group? t grp with
  | some tm, some g =>
    let part := partOf tm grp
    let m := (nextBits (b.codeOf (.group t grp)).1 g).any inMSlot
    let s1 := s.slotTake tm.core part (if m then some g.role else none) t grp
    if m || b.pairNext t grp then
      let waits := (b.mReadyOf tm.core part).map fun x => (x.1, x.2.1)
      let here := (b.partGroups tm.core part).map fun x => (x.1, x.2.1)
      let count (p : Nat × Nat) (y : Group) : Group :=
        if p = (t, grp) then { y with passed := 0, precedence := false }
        else if waits.contains p then { y with passed := y.passed + 1 }
        else if here.contains p then { y with passed := 0 } else y
      { s1 with teams := s1.teams.mapIdx fun u (x : Team) => { x with groups := x.groups.mapIdx fun k y => count (u, k) y } }
    else s1
  | _, _ => s

/-- Whether a group that takes precedence in the M slot of its partition keeps another group's M-slot word waiting (R206). -/
def State.outranked (s : State) (t grp : Nat) : Bool :=
  match s.teams[t]?, s.group? t grp with
  | some tm, some g =>
    !goesFirst g && (nextBits (s.codeOf (.group t grp)).1 g).any inMSlot &&
      (s.partGroups tm.core (partOf tm grp)).any fun x => goesFirst x.2.2.2 && s.mReady x.1 x.2.2.1 x.2.1 x.2.2.2
  | _, _ => false

/-! ### Active and pending sets (R209) -/

/-- A group's seat set. -/
def State.setSeat (s : State) (p : Nat × Nat) (x : Seat) : State := s.modGroup p.1 p.2 fun g => { g with seat := x }

def pendingSince (g : Group) : Option Nat := match g.seat with | .pending n => some n | _ => none

/-- The pending groups of a partition, oldest first, and those of them that are ready. -/
def State.pendingOf (s : State) (core part : Nat) : List (Nat × Nat × Team × Group) :=
  let l := s.partGroups core part
  let ages := sortBy (fun a b => decide (a ≤ b)) (l.filterMap fun x => pendingSince x.2.2.2).eraseDups
  ages.flatMap fun a => l.filter fun x => pendingSince x.2.2.2 = some a
def State.pendingReady (s : State) (core part : Nat) : List (Nat × Nat × Team × Group) :=
  (s.pendingOf core part).filter fun x => x.2.2.2.run = .running && !s.mustWait x.1 x.2.2.1 x.2.1 x.2.2.2
def State.activeCount (s : State) (core part : Nat) : Nat :=
  ((s.partGroups core part).filter fun x => x.2.2.2.seat = .active).length

/-- Two groups exchanged: one active, one pending. -/
def State.exchange (s : State) (out in_ : Nat × Nat) : State := (s.setSeat out (.pending s.fresh)).setSeat in_ .active

/-- A newly resident group seated: in the active set if it has room, else in the pending set. -/
def State.seatNew (s : State) (core part : Nat) : State :=
  (s.partGroups core part).foldl (fun s x => match x.2.2.2.seat with
    | .none => s.setSeat (x.1, x.2.1) (if s.activeCount core part < 8 then .active else .pending s.fresh)
    | _ => s) s

/-- The active groups that are to wait moved to the pending set, each for the oldest ready pending group, or to a free place
there, which the oldest pending group then leaves. -/
def State.seatMoves (s : State) (core part : Nat) : State :=
  if s.pendingOf core part = [] then s
  else (s.partGroups core part).foldl (fun s x =>
    if x.2.2.2.seat = .active && x.2.2.2.run = .running && s.mustWait x.1 x.2.2.1 x.2.1 x.2.2.2 then
      match s.pendingReady core part, s.pendingOf core part with
      | r :: _, _ => s.exchange (x.1, x.2.1) (r.1, r.2.1)
      | [], p :: ps => if ps.length < 7 then s.exchange (x.1, x.2.1) (p.1, p.2.1) else s
      | [], [] => s
    else s) s

/-- Active places that have fallen free, taken by the oldest ready pending groups, then by the oldest. -/
def State.seatFree : Nat → State → Nat → Nat → State
  | 0, s, _, _ => s
  | n + 1, s, core, part =>
    if 8 ≤ s.activeCount core part then s
    else match s.pendingReady core part, s.pendingOf core part with
      | r :: _, _ => (s.setSeat (r.1, r.2.1) .active).seatFree n core part
      | [], p :: _ => (s.setSeat (p.1, p.2.1) .active).seatFree n core part
      | [], [] => s

/-- The seats of a partition settled. -/
def State.seatPart (s : State) (core part : Nat) : State := ((s.seatNew core part).seatMoves core part).seatFree 8 core part

/-- The partitions on which some group has no active place: where every group has one, nothing moves. -/
def State.unsettled (s : State) : List (Nat × Nat) :=
  ((s.teams.filter onCore).flatMap fun t => (List.range t.groups.length).filterMap fun k => (t.groups[k]?).bind fun g =>
    if g.run ≠ .ended && g.seat ≠ .active then some (t.core, partOf t k) else none).eraseDups

/-- The seats of every core that holds a team settled. -/
def State.seatAll (s : State) : State := s.unsettled.foldl (fun s p => s.seatPart p.1 p.2) s

/-- A group's seat taken away when its team leaves the core. -/
def unseat (g : Group) : Group := { g with seat := .none, passed := 0, precedence := false }

/-! ### Giving a place up (R14, R166) -/

/-- A group that gives up its place in the V slot's round-robin (R14). -/
def State.giveUpV (s : State) (t grp : Nat) : State :=
  match s.teams[t]? with | some tm => s.slotTake tm.core (partOf tm grp) none t grp | none => s

/-- `YIELD` (R166): the group's places in both slots are given up, and it is exchanged with the oldest ready pending group. -/
def State.yieldPlace (s : State) (i : Issuer) : State :=
  match i with
  | .group t grp => match s.teams[t]?, s.group? t grp with
    | some tm, some g =>
      let part := partOf tm grp
      let s1 := (s.giveUpV t grp).slotTake tm.core part (some g.role) t grp
      (match s1.pendingReady tm.core part with
       | r :: _ => s1.exchange (t, grp) (r.1, r.2.1)
       | [] => s1)
    | _, _ => s
  | _ => s

/-- Of the groups of a partition that the M slot has passed over three times in a row, the first in the slot's order takes
precedence (R206). -/
def State.guardPart (s : State) (core part : Nat) : State :=
  match s.firstByRole core part ((s.mReadyOf core part).filter fun x => 3 ≤ x.2.2.2.passed) with
  | some p => s.modGroup p.1 p.2 fun g => { g with precedence := true }
  | none => s

/-- STARVATION_GUARD (R206): the guard acts on a partition; after a word that had the M slot it acts at once. -/
def execStarvationGuard (core part : Nat) (s : State) : Out := .next (s.guardPart core part)

/-- Whether the word a group stood at has issued: it is past it and has not stopped. -/
def State.wordIssued (s b : State) (t grp : Nat) : Bool :=
  match b.group? t grp, s.group? t grp with
  | some x, some y => y.run = .ended || (y.run = .running && (y.clause.map fun c => (c.h, c.pos)) ≠ x.clause.map fun c => (c.h, c.pos))
  | _, _ => false

/-- The slots after a turn of a unit, `b` being the part before its word: a word that issued has been served, and the guard
looks at the clocks it passed others over; a word held at issue, or one that stops its group, takes no slot (R206). -/
def State.served (s b : State) (i : Issuer) : State :=
  match i with
  | .group t g =>
    if s.wordIssued b t g then
      (match b.teams[t]? with
       | some tm => (s.serve b t g).guardPart tm.core (partOf tm g)
       | none => s)
    else s
  | _ => s

end Sys2Proof.Machine
end

