-- ==== Sys2Proof/Machine/Trap.lean ====
section
/-!
DEFINITION. Delivery of stops to the cluster control processor, the debug window and the five handler instructions
(R269-R282).
-/
namespace Sys2Proof.Machine

/-! ### The debug window (R278, R279) -/

/-- Whether a selector names an item (R278). -/
def selectorOk (sel : Reg32) : Bool :=
  let n := sel.toNat
  let idx := field n 0 8
  field n 13 3 = 0 && field n 20 12 = 0 &&
  (match field n 16 4 with
   | 0 => true
   | 1 => idx < 64
   | 3 => idx < 4
   | 7 => idx < 12
   | 8 => idx < 4
   | 9 => idx < 2
   | 11 => idx < 2
   | 2 | 4 | 5 | 6 | 10 | 12 => idx = 0
   | _ => false)

/-- An item of a stopped group (R278). -/
def readItem (g : Group) (sel : Reg32) : Reg32 :=
  let idx := getField sel 0 8
  let lane := getField sel 8 5
  let t := threadAt g lane
  let inCohort := g.cohort.getLsbD lane
  let own (x : Reg32) : Reg32 := if inCohort then x else 0
  match getField sel 16 4 with
  | 0 => own (if idx < g.alloc then readV t idx else 0)
  | 1 => readK g idx
  | 2 => own (t.p.zeroExtend 32)
  | 3 => own ((readX t.x idx).signExtend 32)
  | 4 => own t.pc
  | 5 => maskOf fun l => g.cohort.getLsbD l && (threadAt g l).exited
  | 6 => own t.status
  | 7 => BitVec.ofNat 32 (flagCount g idx)
  | 8 => match idx with | 0 => lowHalf g.ssw0 | 1 => highHalf g.ssw0 | 2 => lowHalf g.ssw1 | _ => highHalf g.ssw1
  | 9 => if idx = 0 then BitVec.ofNat 32 (getField g.faultAddr 0 32) else BitVec.ofNat 32 (getField g.faultAddr 32 16)
  | 10 => g.mstat
  | 11 => if idx = 0 then lowHalf g.gang else highHalf g.gang
  | _ => g.cohort

/-- The exit bits of a group written (R107, R278): a thread whose bit clears belongs to no record. -/
def writeExits (g : Group) (v : Reg32) : Group :=
  let newly := maskOf fun l => g.cohort.getLsbD l && v.getLsbD l && !(threadAt g l).exited
  { g with
    handlerExit := g.handlerExit || newly ≠ 0
    threads := g.threads.mapIdx fun l (t : Thread) =>
      if g.cohort.getLsbD l then
        (if v.getLsbD l then { t with exited := true }
         else if t.exited then { t with exited := false, joins := [], returned := false } else t)
      else t }

/-- The registers a window write touches (R200): none where it has no effect, at a v register beyond the allocation or
in a lane outside the cohort (R278). -/
def itemNames (g : Group) (sel : Reg32) : List RegName :=
  let idx := getField sel 0 8
  let own (rs : List RegName) : List RegName := if g.cohort.getLsbD (getField sel 8 5) then rs else []
  match getField sel 16 4 with
  | 0 => if idx < g.alloc then own [.v idx] else []
  | 1 => [.k idx]
  | 2 => own ((List.range 16).map RegName.p)
  | _ => []

/-- An item of a stopped group written (R278). -/
def writeItem (g : Group) (sel v : Reg32) : Group :=
  let idx := getField sel 0 8
  let lane := getField sel 8 5
  let own (f : Thread → Thread) : Group := if g.cohort.getLsbD lane then modThread g lane f else g
  match getField sel 16 4 with
  | 0 => if idx < g.alloc then own fun t => writeV t idx v else g
  | 1 => writeK g idx v
  | 2 => own fun t => { t with p := v.truncate 16 }
  | 3 => own fun t => { t with x := writeX t.x idx (v.truncate 16) }
  | 4 => own fun t => { t with pc := v }
  | 5 => writeExits g v
  | 6 => own fun t => { t with status := (t.status &&& ~~~fstatWritable) ||| (v &&& fstatWritable) }
  | 8 => match idx with
    | 0 => { g with ssw0 := setField (setField g.ssw0 0 32 v.toNat) 8 1 (getField g.ssw0 8 1) }
    | 1 => { g with ssw0 := setField g.ssw0 32 32 v.toNat }
    | 2 => { g with ssw1 := setField g.ssw1 0 32 v.toNat }
    | _ => { g with ssw1 := setField g.ssw1 32 32 v.toNat }
  | 10 => { g with mstat := (g.mstat &&& ~~~mstatWritable) ||| (v &&& mstatWritable) }
  | _ => g

/-- A window write applied to a group wherever its state lies (R279): a pending write to the register is cancelled
in every lane and its hazard bit cleared (R200). -/
def State.windowWrite (s : State) (t g : Nat) (sel v : Reg32) : State :=
  match s.group? t g with
  | none => s
  | some gr =>
    let names := itemNames gr sel
    (s.cancelWrites (.group t g) names).modGroup t g fun gr => writeItem (clearHazards gr names) sel v

/-! ### The end of a handler (R275, R281, R282) -/

/-- The context of a handler's agent ended under R281. -/
def State.endContext (s : State) (i : Issuer) : State :=
  match i with
  | .handler c => match (s.clusters[c]?).bind Cluster.handler with
    | some h => s.terminate (s.ctxOf i) h.stop.team (s.stopSsw0 h.stop)
    | none => s
  | _ => s

/-- An item of a stopped group named by space, index and lane, as a selector (R278). -/
def selectorOf (space index lane : Nat) : Reg32 := BitVec.ofNat 32 (index + 256 * lane + 65536 * space)

/-- INH of a stopped group (R270). -/
def setInh (b : Bool) (g : Group) : Group := { g with ssw0 := setField g.ssw0 8 1 (if b then 1 else 0) }

/-- A handler ended: its pending window writes are made (R200), and its other results are dropped. -/
def State.endHandler (s : State) (cluster : Nat) : State :=
  match (s.clusters[cluster]?).bind Cluster.handler with
  | none => s
  | some h =>
    let s1 := s.ops.foldl (fun s o => match o.effect with
      | .debugWrite space index lane v =>
        if o.issuer = .handler cluster then s.windowWrite h.stop.team h.stop.grp (selectorOf space index lane) v else s
      | _ => s) s
    { s1.modCluster cluster fun c => { c with handler := none } with
      ops := s1.ops.filter fun o => o.issuer ≠ .handler cluster }

/-- A context's teams stopped: members held in the rendezvous latch leave it as R290 says. -/
def State.emptyLatches (s : State) (ctx : Nat) : State :=
  { s with teams := s.teams.map fun (t : Team) =>
      if ((s.launches[t.launch]?).map Launch.ctx) = some ctx then
        { t with groups := t.groups.map fun g => if g.latch.isSome then saveGroup g else g }
      else t }

/-- A stop handed to the host (R282): its group stays parked with INH set, its place in the queue is kept, the
context is stopped, and the host is told. `cause` and `detail` are what the record and the log name. -/
def State.haltStop (s : State) (cluster : Nat) (st : Stop) (cause detail : Nat) : State :=
  let ctx := ((s.launchOf st.team).map Launch.ctx).getD 0
  let s1 := (s.emptyLatches ctx).modGroup st.team st.grp (setInh true)
  let s2 := s1.modCluster cluster fun c => { c with stops := st :: c.stops.filter (· ≠ st) }
  let s3 := s2.modContext ctx fun c => { c with stopped := true }
  let ssw0 := s3.stopSsw0 st
  (s3.faultRecord cause detail st.team ssw0).reportStop ctx cause ssw0

/-- A handler ended as HALT ends it; a TRAP of the control processor names its own cause and code (R277). -/
def State.endByHalt (s : State) (cluster : Nat) (named : Option (Nat × Nat)) : State :=
  match (s.clusters[cluster]?).bind Cluster.handler with
  | none => s
  | some h =>
    let s1 := s.endHandler cluster
    let ssw0 := s1.stopSsw0 h.stop
    match named with
    | some n => s1.haltStop cluster h.stop n.1 n.2
    | none => s1.haltStop cluster h.stop (getField ssw0 0 8) (getField ssw0 25 7)

/-! ### Delivery (R273-R275) -/

/-- A thread at its start (R88). -/
def Thread.start (pc : Nat) : Thread := { Thread.zero with pc := BitVec.ofNat 32 pc }

/-- A group at its start (R88): role, allocation, cohort, and the entry of every thread. -/
def Group.start (role : Role) (alloc entry threads : Nat) : Group :=
  { role := role, alloc := alloc, cohort := BitVec.ofNat 32 (2 ^ threads - 1),
    threads := List.replicate threads (Thread.start entry), k := [], cf := List.replicate 12 0, hazards := [],
    gang := 0, mstat := 0, ssw0 := 0, ssw1 := 0, faultAddr := 0, records := [], clause := none, run := .running,
    hold := .none, latch := none, ownClause := none, children := [], handlerExit := false, seen := [],
    resumeAt := none, seat := .none, passed := 0, precedence := false }

/-- The faulting-thread mask of a stopped group. -/
def stopMask (g : Group) : Nat := getField g.ssw0 32 16 + getField g.ssw1 0 16 * 65536

/-- The control processor's thread at a handler's entry (R275). -/
def handlerStart (entry : Nat) (handle : Reg32) (g : Group) : Group :=
  let c := Group.start .control 0 entry 1
  let ssw0 := setField g.ssw0 8 1 1
  writeK (writeK (writeK (writeK c 0 handle) 1 (lowHalf ssw0)) 2 (highHalf ssw0)) 3 (BitVec.ofNat 32 (stopMask g))

/-- The handler-table entry of a cause (R274), when it can be read. -/
def State.handlerEntry (s : State) (ctx cause : Nat) : Option Nat :=
  let va := ((s.contexts[ctx]?).map Context.htab).getD 0 + 8 * cause
  (s.ctxRead ctx va 8).map natOfBytes

/-- The next stop a cluster may serve: not held by a handler, its context not stopped (R273). -/
def State.nextStop (s : State) (cluster : Nat) : Option Stop :=
  match s.clusters[cluster]? with
  | none => none
  | some c => if c.handler.isSome then none else c.stops.find? fun st =>
      let ctx := ((s.launchOf st.team).map Launch.ctx).getD 0
      !((s.contexts[ctx]?).map Context.stopped).getD true && getField (s.stopSsw0 st) 8 1 = 0

/-- The code section of the handler object that serves a team, and its address: as the team's launch found it when it
started (R60, R211), or, where it could not be read then, as it is read now and kept. -/
def State.handlerObject (s : State) (team ctx : Nat) : Option (List Word64 × Nat) :=
  match (s.launchOf team).bind Launch.handlerCode with
  | some o => some o
  | none => (s.objectAt ctx (((s.contexts[ctx]?).map Context.hobj).getD 0)).map fun o => (o.code, o.codeVa)

/-- STOP_DELIVERY (R273-R275): the control processor takes the next stop of its queue and starts its handler, hands
the stop to the host, or, where the table or the handler object cannot be read, ends the context. -/
def execStopDelivery (s : State) : Out :=
  let cluster := s.subject
  match s.nextStop cluster with
  | none => .next s
  | some st => match s.group? st.team st.grp with
    | none => .next s
    | some g =>
      let ctx := ((s.launchOf st.team).map Launch.ctx).getD 0
      match s.handlerEntry ctx st.cause with
      | none => .next (s.terminate ctx st.team g.ssw0)
      | some e =>
        if !bitOf e 32 || bitOf e 33 then .next (s.haltStop cluster st st.cause (getField g.ssw0 25 7))
        else match s.handlerObject st.team ctx with
          | none => .next (s.terminate ctx st.team g.ssw0)
          | some o =>
            let handle := Config.stopHandle s.fresh
            let h : Handler := { stop := st, handle := handle, cpu := handlerStart (field e 0 32) handle g,
                                 code := o.1, codeVa := o.2 }
            let li := ((s.teams[st.team]?).map Team.launch).getD 0
            let s1 := (s.draw.modLaunch li fun l => { l with handlerCode := some o }).modGroup st.team st.grp (setInh true)
            .next (s1.modCluster cluster fun c => { c with handler := some h, stops := c.stops.filter (· ≠ st) })

/-! ### HRD and HWR (R276, R278) -/

/-- A k operand of a handler instruction. -/
def kOperand (a : Spec) : List Nat := match opdOf a with | .k _ => [] | _ => [0x03]

/-- The fields of an S word that only TRAP uses (R276). -/
def sysZero (w : SysW) : List Nat := if w.sg = 0 && w.slot = 0 && w.ph = 0 && w.lvl = 0 && w.sub = 0 then [] else [0x04]

/-- A k destination of HRD; the result may be discarded (R23). -/
def kDestDetails (a : Spec) : List Nat := match opdOf a with | .k _ | .zero => [] | _ => [0x03]

def windowCheck (read : Bool) (w : SysW) (g : Group) : WordCheck :=
  { details := headDetails g w.head [.control] true false ++ sysZero w ++
      (if read then kDestDetails w.d else kOperand w.d) ++ kOperand w.a ++ kOperand w.b ++
      hazardDetails g (accessReads g w.head ([(w.a, 1), (w.b, 1)] ++ (if read then [] else [(w.d, 1)])))
    bank := false
    bound := fun _ => false }

/-- HRD and HWR: a handle that is not the running handler's, or a selector that names no item, ends the context. -/
def windowGo (read : Bool) (w : SysW) (s : State) (g : Group) : Out :=
  match s.issuer with
  | .handler c => match (s.clusters[c]?).bind Cluster.handler with
    | none => .fault .noIssuer
    | some h =>
      let flag := selectedFlag g w.head.fs
      let names := if read then regNames g 0 w.d 1 else []
      if flagBlocked g flag then .next (s.holdAt .flagFull)
      else if guardMask g w.head = 0 then .next ((s.emptyOp names flag).retire 1)
      else
        let sel := readOpd g 0 w.b 0
        if readOpd g 0 w.a 0 ≠ h.handle || !selectorOk sel then .next (s.endContext s.issuer)
        else match s.group? h.stop.team h.stop.grp with
          | none => .fault .noIssuer
          | some gr =>
            let ws : List RegWrite := if read then names.map fun r => ⟨r, none, readItem gr sel⟩ else []
            let o := { Op.blank s.nextId s.issuer .debug flag with
              dests := destsOf ws
              writes := ws
              effect := if read then .none
                else .debugWrite (getField sel 16 4) (getField sel 0 8) (getField sel 8 5) (readOpd g 0 w.d 0) }
            .next ((s.launchOp names o).retire 1)
  | _ => .fault .noIssuer
def execHrd (w : SysW) (s : State) : Out := s.issueWord w.head (windowCheck true w) (windowGo true w s)
def execHwr (w : SysW) (s : State) : Out := s.issueWord w.head (windowCheck false w) (windowGo false w s)

/-- HRD_HWR_COMPLETE (R278): the item is written, or kd, and the flag counts down. -/
def execHrdHwrComplete (s : State) : Out :=
  match s.opOf [.debug] with
  | none => .next s
  | some o => match o.issuer with
    | .handler c => match (s.clusters[c]?).bind Cluster.handler with
      | none => .next s
      | some h => match o.effect with
        | .debugWrite space index lane v =>
          .next ((s.windowWrite h.stop.team h.stop.grp (selectorOf space index lane) v).finishOp o)
        | _ => .next (s.finishOp o)
    | _ => .next s

/-! ### TRAP, TRET and HALT (R276, R277, R280, R282) -/

def trapCheck (w : SysW) (g : Group) : WordCheck :=
  { details := headDetails g w.head anyRole false true ++ srcDetails .none w.d ++ srcDetails .none w.a ++
      srcDetails .none w.b ++ (if w.lvl = 0 && w.sub = 0 then [] else [0x04]) ++ hazardDetails g (guardReads w.head)
    bank := false
    bound := fun _ => false }

/-- CODE and the cause of TRAP (R276). -/
def trapCode (w : SysW) : Nat := w.sg.toNat * 8 + w.slot.toNat
def trapCause (w : SysW) : Nat := if w.ph = 1 then cBreak else cSwtrap

def trapGo (w : SysW) (s : State) (g : Group) : Out :=
  let mask := guardMask g w.head
  let s1 := s.retire 1
  s.fixed g w.head (match s.issuer with
    | .group t gi => if mask = 0 then s1 else s1.takeStop t gi (trapCause w) 0 (trapCode w) 0 mask 0
    | .handler c => if mask = 0 then s1 else s1.endByHalt c (some (trapCause w, trapCode w))
    | .none => s1)
def execTrap (w : SysW) (s : State) : Out := s.issueWord w.head (trapCheck w) (trapGo w s)

/-- TRET on a group has a detail of its own (R45, R204). -/
def tretCheck (w : SysW) (g : Group) : WordCheck :=
  { details := headDetails g w.head anyRole false true ++ (if g.role = .control then [] else [0x11]) ++
      srcDetails .none w.d ++ kOperand w.a ++ srcDetails .none w.b ++ sysZero w ++
      hazardDetails g (accessReads g w.head [(w.a, 1)])
    bank := false
    bound := fun _ => false }

/-- TRET (R280): held until the handler's window accesses are done; then the handler ends and the group resumes. -/
def tretGo (w : SysW) (s : State) (g : Group) : Out :=
  match s.issuer with
  | .handler c => match (s.clusters[c]?).bind Cluster.handler with
    | none => .fault .noIssuer
    | some h =>
      if guardMask g w.head = 0 then s.fixed g w.head (s.retire 1)
      else if s.outstanding s.issuer (· = .debug) then .next (s.holdAt .regWait)
      else if readOpd g 0 w.a 0 ≠ h.handle then .next (s.endContext s.issuer)
      else s.fixed g w.head
        ((s.endHandler c).returnFromStop h.stop.team h.stop.grp)
  | _ => .fault .noIssuer
def execTret (w : SysW) (s : State) : Out := s.issueWord w.head (tretCheck w) (tretGo w s)

def haltCheck (w : SysW) (g : Group) : WordCheck :=
  { details := headDetails g w.head [.control] false true ++ srcDetails .none w.d ++ srcDetails .none w.a ++
      srcDetails .none w.b ++ sysZero w ++ hazardDetails g (guardReads w.head)
    bank := false
    bound := fun _ => false }

def haltGo (w : SysW) (s : State) (g : Group) : Out :=
  match s.issuer with
  | .handler c =>
    s.fixed g w.head (if guardMask g w.head = 0 then s.retire 1 else s.endByHalt c none)
  | _ => .fault .noIssuer
def execHalt (w : SysW) (s : State) : Out := s.issueWord w.head (haltCheck w) (haltGo w s)

end Sys2Proof.Machine
end

