-- ==== Sys2Proof/Machine/System.lean ====
section
/-!
DEFINITION. Class S beyond traps: tasks (R295-R302: `SPAWN`, `TWAIT`), stage rings (R216-R219: `ARRV`, `WAITR`), the four
barriers (R220, R221, R294, R350, R442) and the two step instructions (R434, R435).
-/
namespace Sys2Proof.Machine

/-! ### Fields of the S layout -/

/-- The unused fields of an S word, and a field that holds 0x150. -/
def ringZero (w : SysW) : List Nat := if w.sg = 0 && w.slot = 0 then [] else [0x04]
def zeroOnly (a : Spec) : List Nat := srcDetails .none a

/-! ### Task IDs and billets (R295-R298) -/

/-- A task's depth: the number of spawn levels filled. -/
def depthOf (id : Word64) : Nat :=
  if getField id 16 8 = 0 then 0 else if getField id 8 8 = 0 then 1 else if getField id 0 8 = 0 then 2 else 3

/-- The child's ID: the level below the parent's depth set to the ordinal. -/
def childId (id : Word64) (ord : Nat) : Word64 := setField id (16 - 8 * depthOf id) 8 ord

/-- A tile descriptor (R297). -/
structure TileDesc where
  addr : Nat
  rows : Nat
  rbytes : Nat
  stride : Nat
  sdst : Nat
deriving DecidableEq, Repr

def billetKidx (b : Nat) : Nat := field b 0 16
def billetOrd (b : Nat) : Nat := field b 16 8
def billetTiles (b : Nat) : List TileDesc :=
  (List.range (field b 24 2)).map fun i =>
    let d := field b (128 * (i + 1)) 128
    { addr := field d 0 48, rows := field d 48 12 + 1, rbytes := field d 64 16, stride := field d 80 24,
      sdst := field d 104 19 }

/-- The task kernel a billet names (R298). -/
def taskKernel (kernels : List Kernel) (ord : Bool) (b : Nat) : Option Kernel :=
  match kernels[billetKidx b]? with
  | none => none
  | some k =>
    if 1 ≤ k.threads && k.threads ≤ 32 && k.cgrp = 0 && k.mgrp = 0 && k.vgrp ≤ 1 && k.paramSz ≤ 12 && k.ord = ord then some k
    else none

/-- The ENGINE details of a billet that concern no parent (R300, R449). -/
def billetDetails (kernels : List Kernel) (ord : Bool) (b : Nat) : List Nat :=
  let tiles := billetTiles b
  let reserved := field b 26 6 ≠ 0 ||
    (List.range 3).any fun i =>
      let d := field b (128 * (i + 1)) 128
      if i < field b 24 2 then field d 60 4 ≠ 0 || field d 123 5 ≠ 0 else d ≠ 0
  let bad := tiles.any fun d => d.addr % 32 ≠ 0 || d.rbytes % 32 ≠ 0 || d.rbytes < 32 || 32768 < d.rbytes ||
    d.stride % 32 ≠ 0 || d.stride < d.rbytes || d.sdst % 32 ≠ 0
  let scratch := ((taskKernel kernels ord b).map Kernel.scratch)
  let spans := tiles.map fun d => (d.sdst, d.rows * d.rbytes)
  let beyond := match scratch with | some n => spans.any fun x => n < x.1 + x.2 | none => false
  let meet := (List.range spans.length).any fun i => (List.range i).any fun j =>
    match spans[i]?, spans[j]? with | some a, some b => overlap a.1 a.2 b.1 b.2 | _, _ => false
  (if reserved || bad then [0x01] else []) ++ (if scratch.isNone then [0x04] else []) ++
  (if beyond || meet then [0x05] else [])

/-! ### SPAWN (R299, R300) -/

def spawnCheck (w : SysW) (g : Group) : WordCheck :=
  { details := headDetails g w.head [.vector] true false ++ noGuard w.head ++ kOrZero w.d ++ kOrZero w.a ++ idleSpec w.b ++
      sysZero w ++ hazardDetails g (accessReads g w.head [(w.a, 1)])
    bank := false
    bound := fun _ => false }

/-- Billets in a launch's overflow area, over every cluster (R303), and the size of the area (R447). -/
def State.overflowed (s : State) (l : Nat) : List Billet :=
  s.clusters.flatMap fun c => c.overflow.filter fun b => b.launch = l
def Launch.overflowSize (l : Launch) : Nat := field l.slot.high.w1.toNat 0 32

/-- The billets of spawns that have issued and not completed, those of a cluster and those of a launch among them. -/
def spawning (o : Op) : Option Billet := match o.effect with | .child b => some b | _ => none
def State.spawnsOf (s : State) (cluster : Nat) : Nat :=
  (s.ops.filter fun o => (spawning o).isSome && s.coreOf o.issuer / 8 = cluster).length
def State.spawnsIn (s : State) (l : Nat) : Nat := (s.ops.filter fun o => (spawning o).any fun b => b.launch = l).length

/-- Whether a cluster's queue of 256 has room for a billet beside its spawns that have still to arrive (R303). -/
def State.queueRoom (s : State) (cluster : Nat) : Bool :=
  (s.clusters[cluster]?).any fun c => c.billets.length + s.spawnsOf cluster < 256

/-- The ENGINE details of a `SPAWN`, the parent's among them. DESIGN CHOICE (assumption log, entry 41): a spawn that has issued
holds a place from then on, in the queue or, once that is full, in the area, so that it never waits for one. -/
def State.spawnDetails (s : State) (tm : Team) (l : Launch) (b : Nat) : List Nat :=
  billetDetails l.kernels l.ordered b ++
  (if depthOf tm.taskId = 3 then [0x02] else []) ++
  (if billetOrd b = 0 || tm.ordinals.contains (billetOrd b) then [0x03] else []) ++
  (if !s.queueRoom (tm.core / 8) && l.overflowSize ≤ (s.overflowed tm.launch).length + s.spawnsIn tm.launch then [0x06] else [])

/-- The set of a task laid over its base: its whole view of ORD pages apart from memory (R419). -/
def viewSet (t : Team) : Cells SetByte := t.writeSet.foldl (fun c e => setPut c e.1 e.2) t.base

def spawnGo (w : SysW) (s : State) (g : Group) : Out :=
  let t := s.viewTeam s.issuer
  let off := (readOpd g 0 w.a 0).toNat
  match s.teams[t]?, s.launchOf t with
  | some tm, some l =>
    if s.padBusy off 64 || s.padWrites s.issuer then .next (s.holdAt .regWait)
    else
      let bytes := s.padRead off 64
      let b := natOfBytes bytes
      match worstVerdict [alignVerdict 0x02 (off % 64 = 0), s.padVerdict off 64, engineVerdict (s.spawnDetails tm l b)] with
      | some v => s.stopAll g v.2.1 v.2.2 off
      | none =>
        if flagBlocked g (selectedFlag g w.head.fs) then .next (s.holdAt .flagFull)
        else if s.acquiring s.issuer || (l.ordered && !s.setSettled t) then .next (s.holdAt .fence)
        else
          let id := childId tm.taskId (billetOrd b)
          let billet : Billet :=
            { launch := tm.launch, taskId := id, tidx := tm.tidx, parent := some t, spawnIndex := tm.spawns, parentLife := tm.life, bytes := bytes,
              inArray := false, base := if l.ordered then viewSet tm else [], place := 0 }
          let o := giveAll { Op.blank s.nextId s.issuer .spawn (selectedFlag g w.head.fs) with
            dests := (kDest w.d).map fun r => (r, none)
            release := some 4
            effect := .child billet } (getField id 0 32)
          let s1 := (s.launchOp (kDest w.d) o).modTeam t fun tm =>
            { tm with ordinals := billetOrd b :: tm.ordinals, spawns := tm.spawns + 1 }
          .next ((s1.modUnit s.issuer fun g => { g with children := g.children ++ [id] }).releaseBy 1)
  | _, _ => .fault .noIssuer
def execSpawn (w : SysW) (s : State) : Out :=
  s.issueWord w.head (spawnCheck w) fun g =>
    s.gather g g.cohort g.cohort (fun _ => (0, 0)) fun s g _ => spawnGo w s g

/-- A billet that finds its cluster's queue full, in its launch's overflow area: at the lowest place free there, its bytes in
memory (R303). DESIGN CHOICE (assumption log, entry 53): the place. -/
def State.overflow (s : State) (cluster : Nat) (o : Op) (b : Billet) : State :=
  let used := (s.overflowed b.launch).map Billet.place
  let n := ((List.range (used.length + 1)).find? fun i => !used.contains i).getD 0
  let va := ((s.launches[b.launch]?).map fun l => field l.slot.high.w0.toNat 0 48).getD 0 + 64 * n
  (s.opStore o [(va, b.bytes)]).modCluster cluster fun c => { c with overflow := c.overflow ++ [{ b with place := n }] }

/-- SPAWN_COMPLETE (R300, R303, R378): once the group's earlier loads have returned and its visible set is performed at device
scope the billet enters the stoker's queue, or its launch's overflow area when that is full; kd is written and the flag
counts down. -/
def execSpawnComplete (s : State) : Out :=
  match s.opOf [.spawn] with
  | none => .next s
  | some o => match o.effect with
    | .child b =>
      let cluster := s.coreOf o.issuer / 8
      if !s.mayEnd o || s.readsBefore o || s.publishing o.issuer then .next s
      else
        .next ((if (s.clusters[cluster]?).any fun c => c.billets.length < 256 then
            s.modCluster cluster fun c => { c with billets := c.billets ++ [b] }
          else s.overflow cluster o b).completeOp o)
    | _ => .next (s.completeOp o)

/-! ### TWAIT (R299, R302) -/

def twaitPred (w : SysW) : Nat := field w.sub.toNat 0 4
def twaitCheck (w : SysW) (g : Group) : WordCheck :=
  { details := headDetails g w.head [.vector] false false ++ noGuard w.head ++ kOrZero w.d ++ idleSpec w.a ++ idleSpec w.b ++
      ringZero w ++ (if w.ph = 0 && w.lvl = 0 && (w.sub.getLsbD 4 || twaitPred w = 0) then [] else [0x04])
    bank := false
    bound := fun _ => false }

def twaitGo (w : SysW) (s : State) (g : Group) : Out :=
  let t := s.viewTeam s.issuer
  match s.teams[t]? with
  | none => .fault .noIssuer
  | some _ =>
    let kids := s.endedChildren t g.children
    let ordered := s.orderedOf s.issuer
    if flagBlocked g (selectedFlag g w.head.fs) then .next (s.holdAt .flagFull)
    else if kids.length < g.children.length then .next (s.holdAt .twait)
    else if s.acquiring s.issuer || (ordered && !s.setSettled t) then .next (s.holdAt .twait)
    else
      let done (u : Nat) : Bool := match s.teams[u]? with | some x => decide (x.ended = some .done) | none => false
      let count := min 255 (kids.filter fun u => !done u).length
      let lanes := lanesOf (activeMask g)
      let pred := if w.sub.getLsbD 4 then [RegName.p (twaitPred w)] else []
      let ws : List RegWrite := ((kDest w.d).map fun r => ⟨r, none, BitVec.ofNat 32 count⟩) ++
        pred.flatMap fun p => lanes.map fun l => ⟨p, some l, if count = 0 then 0 else 1⟩
      let s1 := s.writeNow s.issuer (kDest w.d ++ pred) ws
      let m := if ordered then s1.mergeChildren t kids else (s1, none)
      let s2 := (m.1.modUnit s.issuer fun g => { g with children := [] }).acquireAt 4
      let s3 := (s2.modTeam t fun tm => { tm with covered := tm.covered ++ kids }).releaseBy 1
      .next (match m.2 with
        | some c => s3.conflictStop t (issuerGroup s.issuer) c.2 c.1
        | none => s3)
def execTwait (w : SysW) (s : State) : Out :=
  s.issueWord w.head (twaitCheck w) fun g =>
    s.gather g g.cohort g.cohort (fun _ => (0, 0)) fun s g _ => twaitGo w s g

/-! ### ARRV and WAITR (R218, R219) -/

def ringStepCheck (arrv : Bool) (w : SysW) (g : Group) : WordCheck :=
  { details := headDetails g w.head groupRoles false false ++ noGuard w.head ++ zeroOnly w.d ++ kOrZero w.a ++
      (if arrv then zeroOnly w.b else kOrZero w.b) ++ (if arrv && w.ph ≠ 0 then [0x04] else []) ++
      (if w.lvl = 0 && w.sub = 0 then [] else [0x04]) ++
      hazardDetails g (accessReads g w.head ((w.a, 1) :: if arrv then [] else [(w.b, 1)]))
    bank := false
    bound := fun _ => false }

/-- `ARRV`: the group goes on; the inversion is pending behind its earlier writes. -/
def arrvGo (w : SysW) (s : State) (g : Group) : Out :=
  match s.ownTeam with
  | none => .fault .noIssuer
  | some tm => match ringVerdict tm w.sg.toNat w.slot.toNat with
    | some v => s.stopAll g v.2.1 v.2.2 0
    | none =>
      if flagBlocked g (selectedFlag g w.head.fs) then .next (s.holdAt .flagFull)
      else
        let o := { Op.blank s.nextId s.issuer .arrv none with arrive := some (w.sg.toNat, ringSlot tm w g) }
        .next ((s.launchOp [] o).releaseBy 1)
def execArrv (w : SysW) (s : State) : Out :=
  s.issueWord w.head (ringStepCheck true w) fun g =>
    s.gather g g.cohort g.cohort (fun _ => (0, 0)) fun s g _ => arrvGo w s g

/-- Whether a pending operation stands before a team-scope release: reads not returned, writes not made, cache
maintenance, and class X work (R219, R226, R378). -/
def beforeArrival (o : Op) : Bool :=
  o.kind = .arrv || o.kind = .cmaint || classX o.kind || readsPending o || writesPending o

/-- ARRV_INVERSION (R219): the phase inverts once everything the group issued before is acknowledged at team scope. -/
def execArrvInversion (s : State) : Out :=
  match s.opOf [.arrv] with
  | none => .next s
  | some o =>
    if s.ops.any fun p => p.id < o.id && p.issuer = o.issuer && beforeArrival p then .next s
    else .next (s.completeOp o)

/-- `WAITR`: the group is held until the slot's phase is the one awaited. -/
def waitrGo (w : SysW) (s : State) (g : Group) : Out :=
  match s.ownTeam with
  | none => .fault .noIssuer
  | some tm => match ringVerdict tm w.sg.toNat w.slot.toNat with
    | some v => s.stopAll g v.2.1 v.2.2 0
    | none =>
      if flagBlocked g (selectedFlag g w.head.fs) then .next (s.holdAt .flagFull)
      else if ringPhase tm w g ≠ phaseWanted w g then .next (s.holdAt .waitr)
      else .next ((s.acquireAt 1).releaseBy 1)
def execWaitr (w : SysW) (s : State) : Out :=
  s.issueWord w.head (ringStepCheck false w) fun g =>
    s.gather g g.cohort g.cohort (fun _ => (0, 0)) fun s g _ => waitrGo w s g

/-! ### Barriers (R220, R221, R294, R350, R442) -/

/-- The teams a barrier's participants belong to: level 0 team, 1 cluster-team, 2 the launch's teams of one %die, 3 the
launch. -/
def State.barTeams (s : State) (level t : Nat) : List Nat :=
  match s.teams[t]? with
  | none => []
  | some tm =>
    match level with
    | 0 => [t]
    | 1 => s.clusterTeam t
    | _ => (List.range s.teams.length).filter fun u => match s.teams[u]? with
      | some x => x.launch = tm.launch && (level = 3 || x.vcore / 48 = tm.vcore / 48)
      | none => false

/-- The teams of a launch that wait to start on a die (R350): in an ordered launch those of its logical cores, else those that
its clusters' shares hold. -/
def dieTeams (n d : Nat) : Nat := n / 144 * 48 + min 48 (n % 144 - 48 * d)
def State.dieUnstarted (s : State) (li : Nat) (l : Launch) (d : Nat) : Bool :=
  if l.ordered then
    ((s.topTeams li).filter fun u => (s.teams[u]?).any fun t => t.vcore / 48 = d).length < dieTeams l.teamCount d
  else (List.range 6).any fun c => (s.clusters[6 * d + c]?).any fun k => k.shares.any fun x => x.launch = li

/-- Whether a task of a launch that has been spawned waits to become resident, in a queue, an area or on its way there. -/
def State.billetsOut (s : State) (li : Nat) : Bool :=
  s.spawnsIn li ≠ 0 || s.clusters.any fun c => (c.billets ++ c.overflow).any fun b => b.launch = li

/-- Whether every team that counts has become resident once: a team that has not counts as a participant (R350, R442). -/
def State.barAssembled (s : State) (level t : Nat) : Bool :=
  match s.teams[t]?, s.launchOf t with
  | some tm, some l =>
    match level with
    | 0 => true
    | 1 =>
      let cts := field l.slot.low.w3.toNat 48 4
      tm.parent.isSome || min cts (l.teamCount - tm.cteam * cts) ≤ (s.clusterTeam t).length
    | 2 => !s.dieUnstarted tm.launch l (tm.vcore / 48)
    | _ => l.teamCount ≤ (s.topTeams tm.launch).length && !s.billetsOut tm.launch
  | _, _ => false

/-- Whether a role belongs to a team barrier's set (R220). -/
def inSet (index : Nat) (r : Role) : Bool :=
  match index with | 0 => true | 1 => r = .copy | 2 => r = .matrix | _ => r = .vector

/-- The participants of a barrier: the groups with a thread whose exit bit is clear (R221, R294, R350). -/
def State.barGroups (s : State) (level index t : Nat) : List (Nat × Nat) :=
  (s.barTeams level t).flatMap fun u => match s.teams[u]? with
    | none => []
    | some tm => (List.range tm.groups.length).filterMap fun g => (tm.groups[g]?).bind fun x =>
        if x.run ≠ .ended && !allExited x && (level ≠ 0 || inSet index x.role) then some (u, g) else none

/-- Whether a barrier completes: every participant has arrived, updates of their writes before it are applied (R329), and, for
an ordered launch's grid barrier, every write is in its set (R424). -/
def State.barReady (s : State) (level index t : Nat) : Bool :=
  let gs := s.barGroups level index t
  let ts := s.barTeams level t
  s.barAssembled level t && gs ≠ [] &&
  (gs.all fun p => ((s.group? p.1 p.2).map Group.hold) = some (.bar level index)) &&
  (level = 0 || !s.updates.any fun u => ts.contains u.team && !u.late) &&
  (level ≠ 3 || !((s.launchOf t).map Launch.ordered).getD false || ts.all s.setSettled)

/-- The scope of an arrival's release and of a completion's acquire (R385). -/
def barScope (level : Nat) : Nat := level + 1

/-- Updates held back until their teams' barrier completed, free to be applied (R331). -/
def State.endLate (s : State) (ts : List Nat) : State :=
  { s with updates := s.updates.map fun u => if ts.contains u.team then { u with late := false } else u }

/-- A barrier completed: sets merged at the grid level (R422), staging images written (R331), the acquire of every
participant, and every arrived group past its word. -/
def State.barComplete (s : State) (level index t : Nat) : State :=
  let gs := s.barGroups level index t
  let ts := s.barTeams level t
  let ordered := ((s.launchOf t).map Launch.ordered).getD false
  let l := ((s.teams[t]?).map Team.launch).getD 0
  let m := if level = 3 && ordered then s.mergeToMemory l else (s, none)
  let s1 := if level = 0 then m.1 else (ts.foldl State.applyImages m.1).endLate ts
  let s2 := gs.foldl (fun s p => s.asIssuer (.group p.1 p.2) fun s => s.acquireAt (barScope level)) s1
  let s3 := gs.foldl (fun s p => s.asIssuer (.group p.1 p.2) fun s => s.releaseBy 1) s2
  match m.2 with | some c => s3.gridConflict c | none => s3

/-- The completion of a barrier tested (R221: at each arrival and each time a group ends). -/
def State.barTest (s : State) (level index t : Nat) : State :=
  if s.barReady level index t then s.barComplete level index t else s

def barIndex (w : SysW) : Nat := match w.lvl.toNat with | 0 => field w.sub.toNat 0 2 | 1 => field w.sub.toNat 0 4 | _ => 0
def barSubOk (w : SysW) : Bool :=
  match w.lvl.toNat with | 0 => w.sub.toNat < 4 | 1 => w.sub.toNat < 16 | _ => w.sub = 0
def barCheck (w : SysW) (g : Group) : WordCheck :=
  { details := headDetails g w.head groupRoles false false ++ noGuard w.head ++ zeroOnly w.d ++ zeroOnly w.a ++ zeroOnly w.b ++
      ringZero w ++ (if w.ph = 0 then [] else [0x04]) ++ (if 3 < w.lvl.toNat then [0x0B] else []) ++ (if barSubOk w then [] else [0x04]) ++
      (if w.lvl = 0 && !inSet (barIndex w) g.role then [0x10] else [])
    bank := false
    bound := fun _ => false }

/-- The fault of a barrier that its launch does not provide (R294, R349). -/
def State.barFault (s : State) (w : SysW) : Option Nat :=
  match s.teams[s.viewTeam s.issuer]?, s.launchOf (s.viewTeam s.issuer) with
  | some tm, some l =>
    let cbar := if l.isTask || tm.parent.isSome then 0 else field l.slot.low.w3.toNat 52 5
    if w.lvl = 1 && cbar ≤ barIndex w then some 0x09 else if w.lvl = 2 && !l.coop then some 0x20 else none
  | _, _ => none

def barGo (w : SysW) (s : State) (g : Group) : Out :=
  let level := w.lvl.toNat
  let index := barIndex w
  let t := s.viewTeam s.issuer
  match s.barFault w with
  | some d => s.stopAll g cEngine d 0
  | none =>
    if flagBlocked g (selectedFlag g w.head.fs) then .next (s.holdAt .flagFull)
    else if g.hold = .bar level index then .next (s.barTest level index t)
    else if s.fenceHolds 3 (barScope level) then .next (s.holdAt .fence)
    else .next ((s.holdAt (.bar level index)).barTest level index t)
def barWord (w : SysW) (s : State) : Out :=
  s.issueWord w.head (barCheck w) fun g =>
    s.gather g g.cohort g.cohort (fun _ => (0, 0)) fun s g _ => barGo w s g
def execBarTeam (w : SysW) (s : State) : Out := barWord w s
def execBarCluster (w : SysW) (s : State) : Out := barWord w s
def execBarDie (w : SysW) (s : State) : Out := barWord w s
def execBarGrid (w : SysW) (s : State) : Out := barWord w s

/-! ### Steps (R432, R434, R435) -/

/-- A STEP record (R428): step id and deadline. -/
def State.stepRecord (s : State) (queue lnum id deadline : Nat) : State :=
  s.record 0x05 queue lnum (bytesOfNat 4 id ++ bytesOfNat 8 deadline)

/-- Whether a step is open, and whether a declaration of it would open one too many (R432). -/
def State.stepOpen (s : State) (id : Nat) : Bool := s.steps.any fun x => x.id = id
def State.stepsFull (s : State) (id : Nat) : Bool := !s.stepOpen id && 16 ≤ s.steps.length

/-- A declaration of a step: opened, or its deadline brought forward, and recorded (R432). -/
def State.declareStep (s : State) (queue lnum id budget : Nat) (declarer : Option Nat) : State :=
  let due := s.timer.toNat + 100 * budget
  let old := (s.steps.find? fun x => x.id = id).map StepRec.deadline
  let deadline := match old with | some d => min d due | none => due
  let s1 : State :=
    if s.stepsFull id then s
    else if s.stepOpen id then
      { s with steps := s.steps.map fun x =>
          if x.id = id then { x with deadline := deadline, queue := if x.queue.isSome then x.queue else declarer } else x }
    else { s with steps := s.steps ++ [⟨id, s.launches.length, deadline, declarer, false, false, false⟩] }
  s1.stepRecord queue lnum id deadline

def stepCheck (dln : Bool) (w : SysW) (g : Group) : WordCheck :=
  { details := headDetails g w.head groupRoles false false ++ noGuard w.head ++ zeroOnly w.d ++ kOnlyDetails false w.a ++
      (if dln then kOnlyDetails false w.b else idleSpec w.b) ++ sysZero w ++
      hazardDetails g (accessReads g w.head ((w.a, 1) :: if dln then [(w.b, 1)] else []))
    bank := false
    bound := fun _ => false }

def dlnGo (w : SysW) (s : State) (g : Group) : Out :=
  let t := s.viewTeam s.issuer
  match s.teams[t]?, s.launchOf t with
  | some tm, some l =>
    let id := (readOpd g 0 w.a 0).toNat
    let budget := max 1 (min 1000000 (readOpd g 0 w.b 0).toNat)
    if flagBlocked g (selectedFlag g w.head.fs) then .next (s.holdAt .flagFull)
    else if id = 0 then .next (s.releaseBy 1)
    else
      let full := s.stepsFull id
      let s1 := s.declareStep l.queue l.num.toNat id budget none
      let s2 := if full then s1 else s1.modLaunch tm.launch fun l =>
        { l with steps := if l.steps.contains id then l.steps else l.steps ++ [id] }
      .next (s2.releaseBy 1)
  | _, _ => .fault .noIssuer
def execDln (w : SysW) (s : State) : Out :=
  s.issueWord w.head (stepCheck true w) fun g =>
    s.gather g g.cohort g.cohort (fun _ => (0, 0)) fun s g _ => dlnGo w s g

def progGo (w : SysW) (s : State) (g : Group) : Out :=
  let t := s.viewTeam s.issuer
  if flagBlocked g (selectedFlag g w.head.fs) then .next (s.holdAt .flagFull)
  else .next ((s.modTeam t fun tm =>
    { tm with estimate := some (tm.issued + 1024 * (readOpd g 0 w.a 0).toNat) }).releaseBy 1)
def execProg (w : SysW) (s : State) : Out :=
  s.issueWord w.head (stepCheck false w) fun g =>
    s.gather g g.cohort g.cohort (fun _ => (0, 0)) fun s g _ => progGo w s g

end Sys2Proof.Machine
end

