-- ==== Sys2Proof/Machine/MemEvents.lean ====
section
/-!
DEFINITION. What happens to requests and class M operations after issue: the ring and the edge links (R344-R346, R404),
the home slice (R338-R341), fills, acknowledgements, completions (R185, R192), FIFO and bank events (R197, R198).
-/
namespace Sys2Proof.Machine

/-! ### Requests by number -/

def State.req? (s : State) (n : Nat) : Option Req := s.reqs.find? fun r => r.id = n
def State.modReq (s : State) (n : Nat) (f : Req → Req) : State :=
  { s with reqs := s.reqs.map fun r => if r.id = n then f r else r }

/-- Requests that nothing waits for any more, dropped. -/
def State.pruneReqs (s : State) : State :=
  { s with reqs := s.reqs.filter fun r =>
      !r.performed || r.waitingFill || r.hops ≠ [] || (isWrite r.kind && !r.acked) || s.ops.any fun o => r.op = some o.id }

/-! ### Flows and stations (R343, R344, R402) -/

/-- Whether a request is of a class A launch, whose flits have virtual channels of their own (R411). -/
def State.reqClassA (s : State) (r : Req) : Bool := (s.launchOf r.team).any Launch.classA

/-- Whether two flits, requests both or responses both, follow one path: one virtual channel, one source and one destination
stop. -/
def State.sameFlow (s : State) (q r : Req) : Bool :=
  q.performed = r.performed && q.core = r.core && s.homeStop q.core q.pa = s.homeStop r.core r.pa &&
  s.reqClassA q = s.reqClassA r

/-- Whether a request still stands at its core, not yet injected: those of a core enter its ring in any order (R377). -/
def Req.atCore (r : Req) : Bool := !r.performed && r.place = coreStop r.core && r.hops ≠ []

/-- Whether a flit waits for one of its flow that was injected before it and has not gone further (R344). -/
def State.flowWaits (s : State) (r : Req) : Bool :=
  !r.atCore && s.reqs.any fun q =>
    q.order < r.order && s.sameFlow q r && !q.atCore && !q.waitingFill && q.hops ≠ [] && r.hops.length ≤ q.hops.length

/-- Whether a flit at a stop crosses there to the ring of another quadrant: the stop is a station, and the station holds it. -/
def crosses (place : RingStop) (hops : List RingStop) : Bool :=
  match place, hops with
  | .station _ _ q, h :: _ => quadOf h ≠ q
  | _, _ => false

/-- The second virtual channel is that of flits that have crossed station 3 (R343). -/
def Req.reach (r : Req) (h : RingStop) (rest : List RingStop) : Req :=
  let third := match h with | .station _ n _ => n = 3 && crosses h rest | _ => false
  { r with hops := rest, place := h, dated := r.dated || third, sends := 0 }

/-- A flit at the next stop of its route; one that leaves its core takes its place in the order of injection (R344). -/
def State.hopTo (s : State) (r : Req) (h : RingStop) (rest : List RingStop) : State :=
  if r.atCore then
    { s.modReq r.id (fun q => { q.reach h rest with order := s.nextId }) with nextId := s.nextId + 1 }
  else s.modReq r.id fun q => q.reach h rest

/-- A station's 64 flits in a direction and a ring class divided among the virtual channels: 4 for each, and of the rest
what the firmware asks for, as far as it goes (R344). -/
def stationShares : List Nat → Nat → List Nat
  | [], _ => []
  | e :: r, left => (4 + min e left) :: stationShares r (left - min e left)

/-- The flits that a station holds for a virtual channel: of class B, class A and the cinder ring, before and after the
dateline (R343, R344). -/
def channelShare (channel : Nat) : Nat := (stationShares ((List.range 6).map Config.stationShare) 40).getD channel 4

/-- Whether a station has no room for a flit in the share of its virtual channel (R344). -/
def State.stationFull (s : State) (r : Req) (h : RingStop) (rest : List RingStop) : Bool :=
  let q := r.reach h rest
  let mine := s.reqs.filter fun x => x.place = h && x.performed = r.performed && crosses x.place x.hops && x.dated = q.dated &&
    s.reqClassA x = s.reqClassA r
  crosses h rest && channelShare ((if s.reqClassA r then 2 else 0) + (if q.dated then 1 else 0)) ≤ mine.length

/-! ### The home slice (R338-R341) -/

/-- The bytes of a request's extent. -/
def reqAddrs (r : Req) : List Nat := (List.range r.size).map fun i => canonPa r.pa + i

/-- Whether two requests share a byte. -/
def Req.meets (q r : Req) : Bool := overlap (canonPa q.pa) q.size (canonPa r.pa) r.size

/-- Whether a request is a store that has not yet left its core's write path: until it is performed at its home (R375).
DESIGN CHOICE (assumption log, entry 57): from then on, and before its acknowledgement, reads find it at its home. -/
def Req.inPath (q : Req) : Bool := (q.kind = .write || q.kind = .zero) && !q.performed

/-- Whether a plain read takes bytes of an earlier store of its own core from the write path; for a view, of its own task
(R375, R419). -/
def pathServes (r q : Req) : Bool :=
  r.kind = .read && r.plain && r.pa < hostBase && q.inPath && q.core = r.core && q.id < r.id && q.ord = r.ord &&
  (!r.ord || q.team = r.team)

/-- The newest store in the write path that serves a read a byte (R375). -/
def State.pathByte (s : State) (r : Req) (a : Nat) : Option Byte :=
  let hits := s.reqs.filter fun q => pathServes r q && canonPa q.pa ≤ a && a < canonPa q.pa + q.data.length
  hits.getLast?.bind fun q => q.data[a - canonPa q.pa]?

/-- Whether an earlier access of a request's own agent to its bytes has not been performed and does not serve it (R188,
R374). -/
def State.ownBefore (s : State) (r : Req) : Bool :=
  (s.reqs.any fun q => q.id < r.id && !q.performed && q.team = r.team && q.grp = r.grp && q.meets r && !pathServes r q) ||
  (s.ops.any fun o => o.id < r.id && o.issuer = .group r.team r.grp && o.kind = .mem && extentsMeet o.homes [(r.va, r.size)])

/-- Whether a request waits at its core: for an earlier access of its own agent to its bytes; for older stores of its core to
them, unless it is a plain load, so that no thread reads bytes backwards (R374); and, if it is an acquire load, until such
stores are acknowledged (R375). -/
def State.coreGate (s : State) (r : Req) : Bool :=
  s.ownBefore r ||
  s.reqs.any fun q => q.id < r.id && q.core = r.core && q.meets r && !(r.kind = .read && r.plain) &&
    (q.inPath || (r.kind = .read && isWrite q.kind && !q.acked))

/-- Whether a request must wait at its slice, which performs accesses in the order of their arrival: for a flit of its flow that
stands before it (R338, R344). -/
def State.sliceGate (s : State) (r : Req) : Bool :=
  s.reqs.any fun q => q.order < r.order && !q.performed && !q.atCore && s.sameFlow q r

/-- A byte as a read finds it when it is performed: from the write path, the L1, the task's view, or the slice (R375). -/
def State.readByte (s : State) (r : Req) (l1 : Bool) (a : Nat) : Byte :=
  match s.pathByte r a with
  | some b => b
  | none => match (if l1 then s.l1Byte r.core a else none) with
    | some b => b
    | none =>
      if r.ord then s.viewByte r.team (keySlot r.ctx r.leaf) a else s.homeByte (keySlot r.ctx r.leaf) a

/-- Whether the core supplies a byte of a read, from its write path or its L1, and whether a read finds a byte without its
line's fill. -/
def State.coreByte (s : State) (r : Req) (l1 : Bool) (a : Nat) : Bool :=
  (s.pathByte r a).isSome || (l1 && (s.l1Byte r.core a).isSome)
def State.byteAt (s : State) (r : Req) (l1 : Bool) (a : Nat) : Bool :=
  s.coreByte r l1 a ||
  (r.ord && s.inView r.team a) || !s.needsFill a 1

/-- A request that has taken its place in slice order: its result and tag. Its response starts at once, or when the fill it
waits for lands (R339). -/
def State.respond (s : State) (r : Req) : State :=
  { s.modReq r.id (fun q => { q with
      waitingFill := false, hops := s.routeBack r.core r.pa, place := (s.homeStop r.core r.pa).2, order := s.nextId,
      dated := false, sends := 0 }) with nextId := s.nextId + 1 }
def State.performed (s : State) (r : Req) (result : List Byte) (tag : BitVec 16) (fill : Bool) : State :=
  let s1 := s.modReq r.id fun q => { q with performed := true, waitingFill := fill, result := result, tag := tag }
  if fill then s1 else s1.respond r

/-- The sequence tag of the write that has just been performed: its line's count, or its shadow line's (R341). -/
def State.countOf (s : State) (r : Req) : BitVec 16 :=
  if r.ord then BitVec.ofNat 16 (((s.teams[r.team]?).map fun t => Cells.get 0 t.shadows (lineOf r.pa)).getD 0)
  else ((s.line? (lineOf r.pa)).map Line.count).getD 0

/-- What a read leaves in its core's L1: the sector of a plain load; an acquire load drops it (R214, R375). -/
def State.readCopies (s : State) (r : Req) : State :=
  if r.ord || hostBase ≤ r.pa then s
  else if r.plain then s.l1Fill r.core (keySlot r.ctx r.leaf) r.pa
  else s.l1DropSectors r.core r.pa r.size

/-- A fill started for the line of a request that needs one (R339). -/
def State.startFill (s : State) (r : Req) (needed : Bool) : State := if needed then s.fillLine r.ctx r.pa r.leaf else s

/-- The stores of other groups of the core that a plain read may take bytes of become part of what its group has seen
(R381). -/
def State.noteSeen (s : State) (r : Req) : State :=
  let met := s.reqs.filter fun q => pathServes r q && (q.team ≠ r.team || q.grp ≠ r.grp) && q.meets r
  if met = [] then s
  else s.modGroup r.team r.grp fun g => { g with seen := (g.seen.filter fun n => s.reqs.any fun q => q.id = n) ++ met.map Req.id }

/-- A read at its slice: its bytes are those of this moment, and it answers once the fill it needs has landed (R339, R375). -/
def State.sliceRead (s : State) (r : Req) : State :=
  if hostBase ≤ r.pa then s.performed r (s.hostRead r.pa r.size) 0 false
  else
    let l1 := r.plain && !r.ord && Config.l1Serves s.fresh
    let s1 := if r.plain && !r.ord then s.draw else s
    let bs := (reqAddrs r).map (s1.readByte r l1)
    let fill := !(reqAddrs r).all (s1.byteAt r l1)
    let s2 := (s1.startFill r fill).noteSeen r
    (if l1 && (reqAddrs r).all fun a => (s1.l1Byte r.core a).isSome then s2 else s2.readCopies r).performed r bs 0 fill

/-- Whether a plain load at its core may be answered there: the write path and the L1 supply every byte (R338, R375). -/
def State.coreAnswers (s : State) (r : Req) : Bool :=
  r.atCore && r.kind = .read && r.plain && r.pa < hostBase && !s.ownBefore r && (reqAddrs r).all (s.coreByte r (!r.ord))

/-- A plain load answered by its core. -/
def State.coreAnswer (s : State) (r : Req) : State :=
  let bs := (reqAddrs r).map (s.readByte r (!r.ord))
  (s.noteSeen r).modReq r.id fun q => { q with performed := true, hops := [], result := bs }

/-- A prefetch at its slice (R195): its line is requested, and unless SL asks for the slice alone it goes to the L1. In an
ordered launch it reads no shadow line. -/
def State.slicePref (s : State) (r : Req) : State :=
  let s1 := s.startFill r (s.needsFill r.pa 128)
  let s2 := if r.plain && !r.ord then
      (List.range 4).foldl (fun s i => s.l1Fill r.core (keySlot r.ctx r.leaf) (r.pa + 32 * i)) s1
    else s1
  s2.modReq r.id fun q => { q with performed := true, hops := [] }

/-- A write at its slice, or into the issuing task's write set (R338, R420); its core's L1 takes it (R214). -/
def State.sliceStore (s : State) (r : Req) : State :=
  let s1 := s.writeHome r.team r.ctx r.va r.pa r.leaf 1 r.data
  let s2 := if r.ord || hostBase ≤ r.pa then s1 else s1.l1Store r.core r.pa r.data
  s2.performed r [] (s1.countOf r) false

/-- An atomic or a reduction at its slice (R189, R190, R339, R340): an atomic takes its place now, and answers once the fill
of the bytes it reads has landed. -/
def State.sliceAtomic (s : State) (r : Req) : State :=
  if r.kind = .red && r.ord then
    (s.contribute r.team r.ctx r.va r.pa r.leaf r.compare.toNat r.size r.aop (natOfBytes r.data) 1).performed r [] 0 false
  else
    let fill := r.pa < hostBase && !(reqAddrs r).all (s.byteAt { r with plain := false } false)
    let p := (s.startFill r fill).homeAtomic r.team r.ctx r.va r.pa r.leaf r.size r.aop (natOfBytes r.data) r.compare.toNat 1
    let s1 := p.1.l1DropSectors r.core r.pa r.size
    s1.performed r (bytesOfNat r.size p.2) (s1.countOf r) fill

/-- CLEAN and CLINV at the slice (R196, R341): a line that CLINV invalidates loses its write count; one whose fill is pending
stays for it. -/
def State.sliceClean (s : State) (r : Req) : State :=
  let a := lineOf r.pa
  let s1 : State := match s.line? a with
    | some l =>
      let s1 : State := s.writeBack l
      if r.kind = ReqKind.clinv && !l.filling then { s1 with lines := s1.lines.filter fun (x : Line) => x.addr ≠ a }
      else { s1 with lines := s1.lines.map fun (x : Line) =>
        if x.addr = a then { x with dirty := 0, count := if r.kind = ReqKind.clinv then 0 else x.count } else x }
    | none => s
  let s2 := if r.kind = .clinv then s1.l1DropSectors r.core r.pa 128 else s1
  s2.performed r [] 0 false

/-- Whether the home die of a request is in service: one in reset serves nothing (R405). -/
def State.homeLive (s : State) (r : Req) : Bool :=
  hostBase ≤ r.pa || (s.dies[homeDie r.pa]?).any fun d => d.state = .live

/-- SLICE_ACCESS (R338): the subject request takes its place in slice order; or it is a plain load that its core answers. -/
def execSliceAccess (s : State) : Out :=
  match s.req? s.subject with
  | none => .next s
  | some r =>
    if s.coreAnswers r then .next (s.coreAnswer r)
    else if r.performed || r.hops ≠ [] || !s.homeLive r || s.sliceGate r then .next s
    else match r.kind with
      | .read => .next (s.sliceRead r)
      | .pref => .next (s.slicePref r).pruneReqs
      | .write | .zero => .next (s.sliceStore r)
      | .atomic | .red => .next (s.sliceAtomic r)
      | .clean | .clinv => .next (s.sliceClean r)

/-! ### Fills (R339) -/

/-- A line with the fill's bytes in place of those no write has supplied. -/
def filled (l : Line) : Line :=
  let d := (List.range 128).foldl (fun c i =>
    if l.valid.getLsbD i then c else Cells.put 0 c i (l.fillData.getD i 0)) l.data
  let l := { l with data := d, valid := BitVec.allOnes 128, filling := false, fillData := [] }
  { l with state := tagOf l }

/-- FILL_LAND: the fill of the subject line lands, and the requests that waited for it answer. -/
def execFillLand (s : State) : Out :=
  let s1 : State := match s.line? s.subject with
    | some l =>
      let landed : State := { s with lines := s.lines.map fun (x : Line) => if x.addr = l.addr then filled x else x }
      if l.filling then landed.fitEntries l.addr 2 else s
    | none => s
  .next ((s.reqs.filter fun r => r.waitingFill && lineOf r.pa = s.subject).foldl (fun s r => s.respond r) s1)

/-! ### Rings and links (R344-R346, R404) -/

/-- Whether the router of a stop is powered down, or still waking. -/
def State.routerAsleep (s : State) (h : RingStop) : Bool :=
  (s.dies[dieOfStop h]?).any fun d => d.asleep.contains (routerOf h)
def State.routerWaking (s : State) (h : RingStop) : Bool :=
  (s.dies[dieOfStop h]?).any fun d => d.waking.contains (routerOf h)

/-- The wake signal to a router (R346). -/
def State.wake (s : State) (h : RingStop) : State :=
  if s.routerAsleep h then
    s.modDie (dieOfStop h) fun d => { d with asleep := d.asleep.filter (· ≠ routerOf h), waking := d.waking ++ [routerOf h] }
  else s

/-- RING_FLIT_ARRIVAL (R344-R346): the flit of a request or of its response reaches the next stop of its route, in the order
of its flow, where the station has room. A parity error has it sent again; the fourth failed send is reported as an
uncorrectable ring error, and its owner or, where the flit no longer tells it, every context on the die rolls back. -/
def execRingFlitArrival (req : Nat) (parityError : Bool) (s : State) : Out :=
  match s.req? req with
  | none => .next s
  | some r => match r.hops with
    | [] => .next s
    | .edge _ _ :: _ => .next s
    | h :: rest =>
      if s.routerAsleep h then .next (s.wake h)
      else if s.routerWaking h || s.flowWaits r || s.stationFull r h rest || (r.atCore && s.coreGate r) then .next s
      else if parityError then
        if 3 ≤ r.sends then
          let ctxs := if Config.ownerUnreadable s.fresh then s.ctxsOn (dieOfStop h) else [r.ctx]
          let s1 := s.draw.deviceError
          .next (if ctxs = [] then s1 else s1.rollback ctxs (dieOfStop h))
        else .next (s.modReq req fun q => { q with sends := q.sends + 1 })
      else .next ((rest.take 2).foldl State.wake (s.hopTo r h rest)).pruneReqs

/-- EDGE_FLIT_INGRESS (R403, R404): a flit enters a die from an edge link. One of an older incarnation is dropped and
counted. -/
def execEdgeFlitIngress (s : State) : Out :=
  match s.req? s.subject with
  | none => .next s
  | some r => match r.hops with
    | .edge d p :: rest => match s.dies[d]? with
      | none => .next s
      | some die =>
        if s.routerAsleep (.edge d p) then .next (s.wake (.edge d p))
        else if s.routerWaking (.edge d p) || s.flowWaits r then .next s
        else
        let current := if r.performed then (if d = r.core / 48 then die.inc else r.incarnation)
          else die.incTable.getD (r.core / 48) 0
        if r.incarnation ≠ current then
          .next ({ s with reqs := s.reqs.filter fun q => q.id ≠ r.id }.modDie d fun x =>
            { x with stale := if x.stale = BitVec.allOnes 32 then x.stale else x.stale + 1 })
        else if die.state ≠ .live then .next s
        else .next ((rest.take 2).foldl State.wake (s.hopTo r (.edge d p) rest)).pruneReqs
    | _ => .next s

/-- The routers of a request's next two hops. -/
def nextRouters (r : Req) : List (Nat × Nat) := (r.hops.take 2).map fun h => (dieOfStop h, routerOf h)

/-- ROUTER_POWER_DOWN (R346): the subject router powers down unless a flit is on its way to it. -/
def execRouterPowerDown (s : State) : Out :=
  let d := s.subject / 256
  if s.reqs.any fun r => (nextRouters r).contains (d, s.subject) then .next s
  else .next (s.modDie d fun x =>
    if x.asleep.contains s.subject || x.waking.contains s.subject then x else { x with asleep := x.asleep ++ [s.subject] })

/-- ROUTER_WAKE_COMPLETE (R346). -/
def execRouterWakeComplete (s : State) : Out :=
  .next (s.modDie (s.subject / 256) fun x => { x with waking := x.waking.filter (· ≠ s.subject) })

/-- PAGE_WALK_COMPLETE (R347): a walk that finds a leaf enters it in the die's TLB. -/
def execPageWalkComplete (die ctx page : Nat) (s : State) : Out :=
  match s.dies[die]? with
  | some d => if d.state = .live then .next (s.cacheTrans die ctx [page]) else .next s
  | none => .next s

/-! ### Acknowledgement and completion (R185, R192) -/

/-- WRITE_ACKNOWLEDGE: the acknowledgement of the subject request reaches its core. -/
def execWriteAcknowledge (s : State) : Out :=
  match s.req? s.subject with
  | none => .next s
  | some r =>
    if r.performed && !r.waitingFill && r.hops = [] && isWrite r.kind then
      .next (s.modReq r.id fun q => { q with acked := true }).pruneReqs
    else .next s

/-- The requests of an operation, and whether every one has been performed and answered. -/
def State.reqsOf (s : State) (o : Op) : List Req := s.reqs.filter fun r => r.op = some o.id
def State.answered (s : State) (o : Op) : Bool := (s.reqsOf o).all fun r => r.performed && !r.waitingFill && r.hops = []

/-- The register writes of a load or atomic, from its requests' results; a destination cancelled since is left out
(R106). -/
def State.resultWrites (s : State) (o : Op) (dests : List (Nat × LoadDest)) : List RegWrite :=
  let ws := dests.flatMap fun d => match (s.reqsOf o).find? fun r => r.lane = d.1 with
    | some r => loadWrites (r.result.take d.2.size) d.2 r.tag.toNat
    | none => []
  ws.filter fun w => o.dests.contains (w.reg, w.lane)

/-- An operation delivered with the acquire it names (R379). -/
def State.completeMem (s : State) (o : Op) : State :=
  let s1 := s.finishOp o
  (match o.acquire with | some sc => s1.asIssuer o.issuer fun s => s.acquireAt sc | none => s1).pruneReqs

/-- A step of `LDT.AON` (R194): the first version of a try is read and the copy starts; then the second version ends the try,
and the sixteenth failure ends the instruction. -/
def State.loadTile (s : State) (o : Op) (scr ga len tries : Nat) (version : Option Nat) : State :=
  let v := natOfBytes (s.opRead o ga 8)
  match version with
  | none => s.modOp o fun p => { p with todo := fillMoves (ga + 32) scr len, effect := .tileLoad scr ga len tries (some v) }
  | some v1 =>
    let good := v1 = v && v % 2 = 0
    if good || 15 ≤ tries then s.completeMem { o with writes := o.writes.map fun w => { w with value := if good then 0 else 1 } }
    else s.modOp o fun p => { p with effect := .tileLoad scr ga len (tries + 1) none }

/-- A step of `STT.AON` (R194): the version made odd and the data begun, or the version made even. -/
def State.storeTile (s : State) (o : Op) (ga : Nat) (data : List Byte) (step : Nat) : State :=
  let s1 := s.bumpVersion o ga
  if step = 0 then s1.modOp o fun p => { p with todo := storeMoves [(ga + 32, data)], effect := .tileStore ga data 1 }
  else s1.completeMem o

/-- MEMORY_ACCESS_COMPLETE (R185): the subject class M operation makes its next move, and completes when what the table of R185
names has happened. -/
def execMemoryAccessComplete (s : State) : Out :=
  match s.opOf [.mem, .cmaint, .fifoPush, .fifoPop] with
  | none => .next s
  | some o => s.progress o fun o => match o.effect with
    | .load dests | .atomic dests =>
      if s.answered o then .next (s.completeMem { o with writes := s.resultWrites o dests }) else .next s
    | .tileLoad scr ga len tries v => s.await o (.padFill ga scr 8) (.next (s.loadTile o scr ga len tries v))
    | .tileStore ga data step => s.await o (.bufFill false ga 0 8) (.next (s.storeTile o ga data step))
    | _ =>
      let ready := if o.kind = .cmaint then s.answered o
        else match o.release with | some sc => sc < 2 || (s.reqsOf o).all Req.acked | none => true
      if ready then .next (s.completeMem o) else .next s

/-- DIVISION_COMPLETE (R114) and FP_LONG_COMPLETE (R135): the results are written and the flag counts down. -/
def execDivisionComplete (s : State) : Out :=
  match s.opOf [.division] with | none => .next s | some o => .next (s.finishOp o)
def execFpLongComplete (s : State) : Out :=
  match s.opOf [.fpLong] with | none => .next s | some o => .next (s.finishOp o)

/-! ### FIFO and bank events (R197, R198) -/

/-- A group held at a FIFO wait issues its word again. -/
def State.retryFifo (s : State) (t g : Nat) (push : Bool) : Out :=
  let i : Issuer := .group t g
  match s.group? t g with
  | none => .next s
  | some gr =>
    match gr.hold, gr.run, s.currentWord i, push with
    | .fifo .., .running, some (.fifopush w), true => execFifopush w { s with issuer := i }
    | .fifo .., .running, some (.fifopop w), false => execFifopop w { s with issuer := i }
    | _, _, _, _ => .next s

/-- FIFO_PUSH_PERFORM and FIFO_POP_PERFORM: a waiting group finds room, or entries. -/
def execFifoPushPerform (team grp : Nat) (s : State) : Out := s.retryFifo team grp true
def execFifoPopPerform (team grp : Nat) (s : State) : Out := s.retryFifo team grp false

/-- The lanes whose guard is true for the FIFO word a group waits at. -/
def State.waitMask (s : State) (t gi : Nat) (g : Group) : BitVec 32 :=
  match s.currentWord (.group t gi) with
  | some (.fifopush w) | some (.fifopop w) => guardMask g w.head
  | _ => issuing g

/-- Whether an access to a bank of a team that came before a switch is in flight (R198). -/
def State.bankInFlight (s : State) (o : Op) (bank : Nat) : Bool :=
  s.ops.any fun p => p.id < o.id && issuerTeam p.issuer = issuerTeam o.issuer && (match p.issuer with | .group .. => true | _ => false) &&
    (extentsMeet p.pads [(32768 * bank, 32768)] || (match p.effect with | .bank b _ => b = bank | _ => false))

/-- The groups that still wait to push to or pop from a bank that leaves FIFO mode: each raises FIFOERR 0x02 (R198). -/
def State.fifoStops (s : State) (t bank : Nat) : State :=
  let waits := ((s.teams[t]?).map Team.groups).getD []
  (List.range waits.length).foldl (fun s gi => match waits[gi]? with
    | some g => if fifoWaits g bank then s.fault (.group t gi) cFifoerr 0x02 (s.waitMask t gi g) 0 else s
    | none => s) s

/-- A bank set to zero in its new mode; subscribers of its bytes see zeros (R198, R320). -/
def State.switchBank (s : State) (o : Op) (bank : Nat) (mode : BankMode) : State :=
  let t := issuerTeam o.issuer
  let s0 := if mode = .fifo then s else s.fifoStops t bank
  let s1 := s0.modTeam t fun tm => { tm with banks := modAt tm.banks bank fun _ => ⟨mode, [], []⟩ }
  let s2 := if s.subs.any fun b => b.publisher = t then s1.publish t [issuerGroup o.issuer] (32768 * bank) (List.replicate 32768 0) else s1
  let core := s.coreOf o.issuer
  if s2.l1Ways core = 0 then s2.l1DropCore core else s2

/-- BANK_SWITCH_COMPLETE (R198): once no access to the bank is in flight it is cleared and changes mode. -/
def execBankSwitchComplete (s : State) : Out :=
  match s.opOf [.bankSwitch] with
  | none => .next s
  | some o => match o.effect with
    | .bank b m => if s.bankInFlight o b then .next s else .next ((s.switchBank o b m).finishOp o)
    | _ => .next (s.finishOp o)

end Sys2Proof.Machine
end

