-- ==== Sys2Proof/Machine/Residency.lean ====
section
/-!
DEFINITION. Where teams run: resources of a core (R201-R203), placement and distribution (R293, R298, R303-R306,
R416-R418), pre-emption and return (R283-R289, R330, R455).
-/
namespace Sys2Proof.Machine

/-! ### Kernels and new teams (R88, R202, R203, R205) -/

/-- The groups of a kernel: role, allocation and threads (R55, R205). DESIGN CHOICE (assumption log, entry 50): role
counts short of the kernel's groups leave vector groups with REGS, and counts beyond them are dropped; a THREADS of 0
or above 1024 gives the groups its number of threads fills. -/
def groupPlan (k : Kernel) : List (Role × Nat × Nat) :=
  let roles := List.replicate k.cgrp (Role.copy, k.creg) ++ List.replicate k.mgrp (Role.matrix, k.mreg) ++
    List.replicate k.vgrp (Role.vector, k.vreg)
  (List.range ((k.threads + 31) / 32)).map fun i =>
    let r := roles.getD i (Role.vector, k.regs)
    (r.1, r.2, min 32 (k.threads - 32 * i))

/-- The groups at their start. -/
def startGroups (k : Kernel) : List Group := (groupPlan k).map fun p => Group.start p.1 p.2.1 k.entry p.2.2

def ringSlots (k : Kernel) (n : Nat) : Nat := getField k.rings (4 * n) 4
def startRings (k : Kernel) : List Ring :=
  (List.range 16).filterMap fun n => if ringSlots k n = 0 then none else some ⟨n, ringSlots k n, 0⟩
def banksNeeded (k : Kernel) : Nat := (k.scratch + 32767) / 32768
def startBanks (k : Kernel) : List Bank := List.replicate (banksNeeded k) ⟨.scratch, [], []⟩
def startTiles (k : Kernel) : List Tile := List.replicate k.tiles ⟨false, []⟩

/-- The resources of a team in their start state (R203), its groups under R88. -/
def resetTeam (t : Team) : Team :=
  let k := t.kernel
  { t with groups := startGroups k, scratch := k.scratch, banks := startBanks k, obufUnits := k.obuf, ob := [], ranges := [],
           tiles := startTiles k, rings := startRings k, riddles := [], issued := 0, estimate := none, ordinals := [], spawns := 0,
           covered := [], writeSet := [], shadows := [], held := [], seq := 0, logged := [0, 0, 0],
           loggedHeld := [0, 0, 0] }

/-- The fields of a launch's grid (R447). -/
def Launch.cts (l : Launch) : Nat := max 1 (field l.slot.low.w3.toNat 48 4)
def Launch.cbar (l : Launch) : Nat := if l.isTask then 0 else field l.slot.low.w3.toNat 52 5

/-- The task ID of a team or array billet of a launch (R295). -/
def topId (l : Launch) (tidx : Nat) : Word64 := BitVec.ofNat 64 (l.num.toNat * 2 ^ 48 + tidx * 2 ^ 24)

/-- A team that becomes resident. -/
def newTeam (li : Nat) (l : Launch) (k : Kernel) (tidx : Nat) (id : Word64) (parent : Option Nat) (core offset : Nat) : Team :=
  resetTeam
    { launch := li, kernel := k, tidx := tidx, taskId := id, parent := parent, spawnIndex := 0, cteam := tidx / l.cts,
      rank := tidx % l.cts, core := core, begun := true, vcore := if l.ordered then tidx % 144 else core, offset := offset,
      residency := .resident, preempt := .none, groups := [], scratch := 0, banks := [], obufUnits := 0, ob := [],
      ranges := [], tiles := [], rings := [], riddles := [], arg := [], billet := [], issued := 0, estimate := none, ordinals := [],
      spawns := 0, ended := none, covered := [], base := [], writeSet := [], shadows := [], held := [], seq := 0, logged := [0, 0, 0],
      loggedHeld := [0, 0, 0], life := 0, parentLife := 0, savedAt := 0, conflict := false }

/-! ### Room on a core (R201) -/

/-- Whether a team holds places on its core. -/
def holdsCore (t : Team) : Bool :=
  match t.residency with | .staging | .resident | .saving => true | .switchedOut | .ended => false
def State.coreTeams (s : State) (core : Nat) : List Team := s.teams.filter fun t => t.core = core && holdsCore t

/-- Groups and registers that a team's plan takes on a partition. -/
def planLoad (plan : List Nat) (offset p : Nat) : Nat × Nat :=
  (List.range plan.length).foldl (fun a i => if (offset + i) % 8 = p then (a.1 + 1, a.2 + 32 * plan.getD i 0) else a) (0, 0)

/-- The allocations of a kernel's groups. -/
def planOf (k : Kernel) : List Nat := (groupPlan k).map fun p => p.2.1

/-- Whether a kernel's team fits beside the teams of a core at a partition offset. -/
def State.fitsAt (s : State) (core : Nat) (k : Kernel) (offset : Nat) : Bool :=
  let ts := s.coreTeams core
  let banks := (s.teams.filter fun t => t.core = core && (holdsCore t || t.residency = .ended)).map fun t => t.banks.length
  let mine := planOf k
  ts.length < 8 &&
  ((List.range 8).all fun p =>
    let old := ts.map fun t => planLoad (t.groups.map Group.alloc) t.offset p
    let new := planLoad mine offset p
    (old.map Prod.fst).sum + new.1 ≤ 16 && (old.map Prod.snd).sum + new.2 ≤ 32768) &&
  banks.sum + banksNeeded k ≤ 16 && (ts.map Team.obufUnits).sum + k.obuf ≤ 512 &&
  (ts.map fun t => t.tiles.length).sum + k.tiles ≤ 128 && (ts.map fun t => t.rings.length).sum + (startRings k).length ≤ 16

/-- What a plan takes on every partition at an offset. -/
def planLoads (plan : List Nat) (offset : Nat) : List (Nat × Nat) := (List.range 8).map (planLoad plan offset)
def addLoads (a b : List (Nat × Nat)) : List (Nat × Nat) := (List.zip a b).map fun x => (x.1.1 + x.2.1, x.1.2 + x.2.2)

/-- Whether `n` more teams of a plan fit on partitions that carry some loads, at offsets from one on (R201, R202). -/
def packs (plan : List Nat) : Nat → Nat → List (Nat × Nat) → Bool
  | 0, _, _ => true
  | n + 1, lo, used => (List.range 8).any fun o =>
      let u := addLoads used (planLoads plan o)
      lo ≤ o && (u.all fun x => x.1 ≤ 16 && x.2 ≤ 32768) && packs plan n o u

/-- The teams of a kernel that a core's resources other than its partitions hold (R201). -/
def coreLimit (k : Kernel) : Nat :=
  let room (total need : Nat) : Nat := if need = 0 then 8 else total / need
  min (min 8 (room 16 (banksNeeded k))) (min (room 512 k.obuf) (min (room 128 k.tiles) (room 16 (startRings k).length)))

/-- The offset at which a kernel's team starts on a core. DESIGN CHOICE (assumption log, entry 58): of those at which it fits,
the lowest that leaves room for most further teams of the kernel. -/
def State.offsetFor (s : State) (core : Nat) (k : Kernel) : Option Nat :=
  let fits := (List.range 8).filter (s.fitsAt core k)
  let used := (s.coreTeams core).foldl (fun u t => addLoads u (planLoads (t.groups.map Group.alloc) t.offset)) (List.replicate 8 (0, 0))
  (List.range (max 1 (coreLimit k))).reverse.findSome? fun n =>
    fits.find? fun o => packs (planOf k) n 0 (addLoads used (planLoads (planOf k) o))

/-- Whether a kernel's team fits on an empty core. -/
def fitsEmpty (k : Kernel) : Bool := (List.range 8).any fun o => ({ State.reset with teams := [] }).fitsAt 0 k o

/-- Whether a core may run a launch: its die lives, neither it nor its cluster is retired, its cluster serves the class
(R304, R411). -/
def State.clusterServes (s : State) (cluster : Nat) (classA : Bool) : Bool :=
  ((s.dies[cluster / 6]?).any fun d => d.state = .live) && !Config.clusterRetired (cluster / 6) (cluster % 6) &&
  s.regs.classa.getLsbD cluster = classA
def State.coreServes (s : State) (core : Nat) (classA : Bool) : Bool :=
  s.clusterServes (core / 8) classA && !Config.coreRetired (core / 48) (core / 8 % 6) (core % 8)

/-- The cores of a cluster on which a kernel's team of a launch fits. -/
def State.coresFor (s : State) (cluster : Nat) (l : Launch) (k : Kernel) : List Nat :=
  ((List.range 8).map (8 * cluster + ·)).filter fun c => s.coreServes c l.classA && (s.offsetFor c k).isSome

/-- Cluster barriers in use beside those of one cluster-team: those of every other cluster-team with a team on a core of the
cluster (R293); a cluster-team that is switched out takes its barriers, with their arrivals, away with it (R294). -/
def State.barriersUsed (s : State) (cluster launch cteam : Nat) : Nat :=
  ((((s.teams.filter fun t => t.core / 8 = cluster && holdsCore t && t.parent.isNone).map fun t =>
    (t.launch, t.cteam)).eraseDups.filter fun p => p ≠ (launch, cteam)).map fun p =>
      ((s.launches[p.1]?).map Launch.cbar).getD 0).sum

/-- Whether a cluster has the barriers that a cluster-team of a launch needs (R293). -/
def State.clusterBarriersFree (s : State) (cluster launch cteam : Nat) (l : Launch) : Bool :=
  s.barriersUsed cluster launch cteam + l.cbar ≤ 16

/-- A team added. -/
def State.addTeam (s : State) (t : Team) : State := { s with teams := s.teams ++ [t] }

/-- The teams of a cluster-team started on some cores, one rank on each (R293). -/
def State.startRanks (s : State) (li : Nat) (l : Launch) (first : Nat) : List Nat → State
  | [] => s
  | c :: cs =>
    let o := (s.offsetFor c l.kernel).getD 0
    (s.addTeam (newTeam li l l.kernel first (topId l first) none c o)).startRanks li l (first + 1) cs

/-! ### Tasks (R298, R301, R449) -/

/-- A task that ends before any group of it starts. -/
def stageFault (li : Nat) (l : Launch) (b : Billet) : Team :=
  { newTeam li l l.kernel b.tidx b.taskId b.parent 0 0 with
    groups := [], banks := [], tiles := [], rings := [], obufUnits := 0, residency := .ended, ended := some .stagefault,
    spawnIndex := b.spawnIndex, parentLife := b.parentLife }

/-- A task whose billet leaves the queue: checked, and its tiles staged before its group starts. -/
def State.startTask (s : State) (b : Billet) (core : Nat) : State :=
  match s.launches[b.launch]? with
  | none => s
  | some l => match taskKernel l.kernels l.ordered (natOfBytes b.bytes) with
    | none => s.addTeam (stageFault b.launch l b)
    | some k =>
      let o := (s.offsetFor core k).getD 0
      s.addTeam { newTeam b.launch l k b.tidx b.taskId b.parent core o with
        residency := .staging, begun := false, spawnIndex := b.spawnIndex, parentLife := b.parentLife, arg := (b.bytes.drop 4).take 12, billet := b.bytes, base := b.base }

/-- The kernel of a queued billet. -/
def State.billetKernel (s : State) (b : Billet) : Option (Launch × Kernel) :=
  (s.launches[b.launch]?).bind fun l => (taskKernel l.kernels l.ordered (natOfBytes b.bytes)).map fun k => (l, k)

/-- The physical core of a logical core (R417). -/
def State.remapCore (s : State) (l : Nat) : Nat :=
  let e := ((s.remap[l]?).map BitVec.toNat).getD 0
  48 * field e 0 2 + 8 * field e 2 3 + field e 5 3

/-- Whether it is the turn of an index of an ordered launch on its physical core: each lower index of the logical cores that the
core serves has been resident (R416, R417). The 144 indices below it hold the last one of every logical core. -/
def State.turnOf (s : State) (li tidx : Nat) : Bool :=
  (List.range 144).all fun k =>
    let u := tidx - 1 - k
    tidx ≤ k || s.remapCore (u % 144) ≠ s.remapCore (tidx % 144) ||
      (s.teamAt li u).any fun i => (s.teams[i]?).any fun t => t.begun || t.residency = .ended

/-- Whether a billet may start on a core: room, class, and, for an array billet of an ordered launch, the core of its
logical core at its turn (R306, R416). -/
def State.billetFits (s : State) (b : Billet) (core : Nat) : Bool :=
  let placed (l : Launch) : Bool :=
    !l.ordered || !b.inArray || (s.remapCore (b.tidx % 144) = core && s.turnOf b.launch b.tidx)
  match s.billetKernel b with
  | none => ((s.launches[b.launch]?).map placed).getD true
  | some lk => s.coreServes core lk.1.classA && (s.offsetFor core lk.2).isSome && placed lk.1

/-- STOKER_BILLET_START (R303): the billet at a place of a cluster's queue starts on a core of the cluster; one that stands
before it and could start anywhere goes first. -/
def execStokerBilletStart (cluster idx core : Nat) (s : State) : Out :=
  match s.clusters[cluster]? with
  | none => .next s
  | some c => match c.billets[idx]? with
    | none => .next s
    | some b =>
      let cores := (List.range 8).map (8 * cluster + ·)
      let earlier := (c.billets.take idx).any fun x => cores.any (s.billetFits x)
      if core / 8 = cluster && !earlier && s.billetFits b core then
        .next ((s.startTask b core).modCluster cluster fun c => { c with billets := c.billets.eraseIdx idx })
      else .next s

/-- Tiles staged row by row; none when a row cannot be read (R298). -/
def State.stageTiles (s : State) (t : Nat) (die ctx : Nat) : List (Nat × Nat × Nat) → Option State
  | [] => some s
  | r :: rs =>
    if 2 ^ 48 < r.1 + r.2.2 || (s.extentVerdict die ctx needR r.1 r.2.2).isSome then none
    else (s.modTeam t fun tm => scratchWrite tm r.2.1 (s.readVa t die ctx r.1 r.2.2)).stageTiles t die ctx rs

/-- The rows of a billet's tiles: global address, scratchpad offset, bytes. -/
def stageRows (bytes : List Byte) : List (Nat × Nat × Nat) :=
  (billetTiles (natOfBytes bytes)).flatMap fun d =>
    (List.range d.rows).map fun r => (d.addr + r * d.stride, d.sdst + r * d.rbytes, d.rbytes)

/-- STAGING_COMPLETE (R298): the subject task's tiles stand in its scratchpad and its group starts, or it ends with
STAGEFAULT. Its rows wait for the fills they need, and for dies held in reset (R339, R405). -/
def execStagingComplete (s : State) : Out :=
  match s.teams[s.subject]? with
  | none => .next s
  | some t =>
    if t.residency ≠ .staging || !(s.dies[t.core / 48]?).any fun d => d.state = .live then .next s
    else
      let ctx := s.ctxOf (.group s.subject 0)
      let rows := (stageRows t.billet).map fun r => (r.1, r.2.2)
      let tr := s.translate (t.core / 48) ctx
      match s.stageTiles s.subject (t.core / 48) ctx (stageRows t.billet) with
      | none => .next (s.modTeam s.subject fun t =>
          { t with residency := .ended, ended := some .stagefault, groups := [], banks := [], tiles := [], rings := [], obufUnits := 0 })
      | some s1 =>
        if s.anyDown tr rows then .next s
        else match s.lackFills tr s.subject rows with
          | [] => .next ((s1.l1DropCore t.core).modTeam s.subject fun t => { t with residency := .resident, begun := true })
          | fs => .next (s.startFills ctx fs)

/-- OVERFLOW_BILLET_RETURN (R303): the oldest overflowed billet of the subject cluster re-enters its queue. -/
def execOverflowBilletReturn (s : State) : Out :=
  match s.clusters[s.subject]? with
  | some c => match c.overflow with
    | b :: r =>
      if s.queueRoom s.subject then
        .next (s.modCluster s.subject fun c => { c with billets := c.billets ++ [b], overflow := r })
      else .next s
    | [] => .next s
  | none => .next s

/-! ### Starting shares (R303, R304, R449) -/

/-- The billet at an index of a launch's array; none when it cannot be read. -/
def State.arrayBillet (s : State) (l : Launch) (i : Nat) : Option (List Byte) :=
  s.ctxRead l.ctx (field l.slot.low.w7.toNat 0 48 + 64 * i) 64

/-- An array billet taken by a cluster's stoker: queued when its checks pass, else its task ends (R449). -/
def State.takeArray (s : State) (cluster li : Nat) (l : Launch) (i : Nat) : State :=
  let bytes := s.arrayBillet l i
  let b : Billet := { launch := li, taskId := topId l i, tidx := i, parent := none, spawnIndex := 0, parentLife := 0, bytes := bytes.getD [],
                      inArray := true, base := [], place := 0 }
  if bytes.isSome && billetDetails l.kernels l.ordered (natOfBytes b.bytes) = [] then
    s.modCluster cluster fun c => { c with billets := c.billets ++ [b] }
  else s.addTeam (stageFault li l b)

/-- A share with its first index gone. -/
def nextShare (shares : List Share) (sh : Share) : List Share :=
  shares.filterMap fun x => if x = sh then (if x.next + 1 < x.stop then some { x with next := x.next + 1 } else none) else some x

/-- The shares that a stoker may start next: of each launch the one with the lowest index (R304). -/
def headShares (ss : List Share) : List Share :=
  ss.filter fun x => !ss.any fun y => y.launch = x.launch && y.next < x.next

/-- The next cluster-team, or array billet, of a share started, when there is room. -/
def State.startShare (s : State) (cluster : Nat) (sh : Share) : Option State :=
  match s.launches[sh.launch]? with
  | some l =>
    let gone (s : State) : State := s.modCluster cluster fun c => { c with shares := nextShare c.shares sh }
    if l.state ≠ .running then none
    else if l.isTask then
      if s.queueRoom cluster then some (gone (s.takeArray cluster sh.launch l sh.next)) else none
    else
      let n := min l.cts (l.teamCount - sh.next * l.cts)
      let cores := s.coresFor cluster l l.kernel
      if n ≤ cores.length && s.clusterBarriersFree cluster sh.launch sh.next l then
        some (gone (s.startRanks sh.launch l (sh.next * l.cts) (cores.take n)))
      else none
  | none => none

/-! ### The virtual grid (R416-R418) -/

/-- Whether a top-level team or billet of a launch has started, or stands in a queue. -/
def State.taken (s : State) (li tidx : Nat) : Bool :=
  (s.teamAt li tidx).isSome || s.clusters.any fun c => c.billets.any fun b => b.launch = li && b.inArray && b.tidx = tidx

/-- The next index of a logical core of an ordered launch. -/
def State.nextTidx (s : State) (li : Nat) (l : Launch) (lc : Nat) : Option Nat :=
  ((List.range ((l.teamCount + 143 - lc) / 144)).map fun j => 144 * j + lc).find? fun t => !s.taken li t

/-- Whether every rank of a cluster-team has a physical core of its own. -/
def State.ranksApart (s : State) (l : Launch) (first n : Nat) : Bool :=
  let cores := (List.range n).map fun r => s.remapCore ((first + r) % 144)
  cores.eraseDups.length = cores.length && l.ordered

/-- Whether a switched-out team may return: none of its groups still waits for `TRET` (R284). -/
def mayReturn (t : Team) : Bool := t.residency = .switchedOut && t.groups.all fun g => g.run ≠ .parked || allExited g

/-- Whether a team of an ordered launch may give its core to another logical core (R418). -/
def yieldsCore (t : Team) : Bool :=
  t.groups.all fun g => g.run ≠ .running || (match g.hold with | .bar n _ => n ≠ 0 | .twait => true | _ => false)

/-- Room made on a shared core for a team of another logical core: one team that may yield is switched out (R418). -/
def State.yieldCore (s : State) (li core vcore : Nat) : Option State :=
  let cands := (List.range s.teams.length).filter fun u => match s.teams[u]? with
    | some t => t.launch = li && t.core = core && t.residency = .resident && t.vcore ≠ vcore && yieldsCore t && s.canSave u
    | none => false
  cands.head?.map fun u => s.modTeam u fun t => { t with residency := .saving, preempt := .turn }

/-- A cluster-team whose ranks share a core started: each rank that has room is resident, and the others wait, switched out in
their start state, for their turn (R418). -/
def State.startShared (s : State) (li : Nat) (l : Launch) (first : Nat) : Nat → State
  | 0 => s
  | n + 1 =>
    let s := s.startShared li l first n
    let t := first + n
    let core := s.remapCore (t % 144)
    let tm := newTeam li l l.kernel t (topId l t) none core ((s.offsetFor core l.kernel).getD 0)
    s.addTeam (if (s.offsetFor core l.kernel).isSome && s.turnOf li t then tm
      else { tm with residency := .switchedOut, begun := false })

/-- Room made for a switched-out team of an ordered launch that could go on, on the shared core it returns to (R418). -/
def State.yieldBack (s : State) (cluster : Nat) : Option State :=
  (List.range s.teams.length).findSome? fun u => match s.teams[u]?, s.launchOf u with
    | some t, some l =>
      let core := s.remapCore (t.tidx % 144)
      if l.ordered && l.state = .running && core / 8 = cluster && mayReturn t && (!t.begun || !yieldsCore t) &&
          (t.begun || s.turnOf t.launch t.tidx) && (s.offsetFor core t.kernel).isNone then
        s.yieldCore t.launch core t.vcore
      else none
    | _, _ => none

/-- The next index that each logical core of a cluster's physical cores has still to start, lowest first. -/
def State.orderedNext (s : State) (cluster li : Nat) (l : Launch) : List Nat :=
  sortBy (fun a b => decide (a ≤ b)) (((List.range 144).filter fun lc => s.remapCore lc / 8 = cluster).filterMap (s.nextTidx li l))

/-- The next team, cluster-team or billet of an ordered launch on a cluster, in ascending index, when there is room and, on the
cores of its ranks, its turn has come; where a rank has no room and `yield` allows it, room is made (R418). -/
def State.startOrdered (s : State) (yield : Bool) (cluster li : Nat) : Option State :=
  match s.launches[li]? with
  | none => none
  | some l =>
    if l.state ≠ .running || !l.ordered || !s.clusterServes cluster l.classA then none
    else
      (s.orderedNext cluster li l).findSome? fun t =>
        if l.isTask then (if s.queueRoom cluster then some (s.takeArray cluster li l t) else none)
        else
          let first := t / l.cts * l.cts
          let n := min l.cts (l.teamCount - first)
          let apart := s.ranksApart l first n
          let ranks := (List.range (if apart then n else 1)).map (first + ·)
          let coreOf (u : Nat) : Nat := s.remapCore (u % 144)
          if t ≠ first || !s.clusterBarriersFree cluster li (t / l.cts) l || !ranks.all (s.turnOf li) then none
          else match ranks.find? fun u => (s.offsetFor (coreOf u) l.kernel).isNone with
            | some u => if yield then s.yieldCore li (coreOf u) (u % 144) else none
            | none => some (if apart then s.startRanks li l first (ranks.map coreOf) else s.startShared li l first n)

/-! ### Pre-emption (R285, R455) -/

/-- A team's remaining work is below the drain threshold (R285); a spawned task has no share of the launch's estimate
(assumption log, entry 41). -/
def State.nearEnd (s : State) (u : Nat) : Bool :=
  match s.teams[u]?, s.launchOf u with
  | some t, some l =>
    let share := if t.parent.isSome then 0 else field l.slot.low.w6.toNat 32 32 * 1024 / max 1 l.teamCount
    (t.estimate.getD share) < t.issued + s.regs.drainth.toNat * 1024
  | _, _ => false

/-- A cluster-team pre-empted in the one mode R285 gives it. -/
def State.preemptTeam (s : State) (t : Nat) : State :=
  let ms := s.clusterTeam t
  let idem := ms.all fun u => ((s.teams[u]?).map fun x => x.kernel.idem).getD false
  let mode : PreemptMode :=
    if s.canSave t && ms.all s.nearEnd then .drain else if idem then .flush else if s.canSave t then .save else .drain
  { s with teams := s.teams.mapIdx fun u x =>
      if ms.contains u && x.residency = .resident && x.preempt = .none then
        { x with preempt := mode, residency := if mode = .drain then .resident else .saving }
      else x }

/-- The traffic class and priority number of a launch's queue (R445). -/
def State.priorityOf (s : State) (l : Launch) : Nat := ((s.queues[l.queue]?).map fun q => getField q.cfg 53 2).getD 0

/-- The team a launch pre-empts next on a cluster: of its class, highest priority number, youngest launch, highest index. -/
def State.victim (s : State) (cluster : Nat) (l : Launch) : Option Nat :=
  let cands := (List.range s.teams.length).filterMap fun u => match s.teams[u]?, s.launchOf u with
    | some t, some o =>
      if t.core / 8 = cluster && t.residency = .resident && t.preempt = .none && o.classA = l.classA &&
          s.priorityOf l < s.priorityOf o then
        some (u, s.priorityOf o, t.launch, t.tidx)
      else none
    | _, _ => none
  (sortBy (fun a b => decide (b.2.1 < a.2.1 ∨ (b.2.1 = a.2.1 ∧ (b.2.2.1 < a.2.2.1 ∨
    (b.2.2.1 = a.2.2.1 ∧ b.2.2.2 ≤ a.2.2.2))))) cands).head?.map Prod.fst

/-- Work that waits on a cluster for room: the shares that come next, the queued billets, the ordered launches with teams to
start. -/
inductive Waiting where
  | share (sh : Share) | billet (b : Billet) | ordered (launch : Nat)
deriving DecidableEq, Repr

def Waiting.launch : Waiting → Nat | .share sh => sh.launch | .billet b => b.launch | .ordered li => li
def State.waitingOn (s : State) (cluster : Nat) : List Waiting :=
  match s.clusters[cluster]? with
  | none => []
  | some c => (headShares c.shares).map .share ++ c.billets.map .billet ++
      ((List.range s.launches.length).filter fun li => (s.launches[li]?).any fun l =>
        l.state = .running && l.ordered && !l.isTask && s.orderedNext cluster li l ≠ []).map .ordered

/-- Whether waiting work has room on a cluster. -/
def State.hasRoom (s : State) (cluster : Nat) (w : Waiting) : Bool :=
  match w with
  | .share sh => (s.startShare cluster sh).isSome
  | .billet b => (List.range 8).any fun i => s.billetFits b (8 * cluster + i)
  | .ordered li => (s.startOrdered false cluster li).isSome

/-- The state once some teams have left their cores. -/
def State.withoutTeams (s : State) (gone : Team → Bool) : State :=
  { s with teams := s.teams.map fun (t : Team) => if gone t then { t with residency := .switchedOut, begun := true } else t }

/-- Whether a team may be pre-empted for a launch: one of its class with a higher priority number. -/
def State.ranksBelow (s : State) (l : Launch) (t : Team) : Bool :=
  (s.launches[t.launch]?).any fun o => o.classA = l.classA && s.priorityOf l < s.priorityOf o

/-- A launch whose next cluster-team cannot be placed takes one more victim, where those leaving do not suffice and victims can
make the room (R455). -/
def State.preemptFor (s : State) (cluster : Nat) (w : Waiting) : Option State :=
  match s.launches[w.launch]? with
  | some l =>
    let here (t : Team) : Bool := t.core / 8 = cluster && holdsCore t
    let leaving (t : Team) : Bool := here t && t.preempt ≠ .none
    if l.state ≠ .running || (s.withoutTeams leaving).hasRoom cluster w ||
        !(s.withoutTeams fun t => leaving t || (here t && s.ranksBelow l t)).hasRoom cluster w then none
    else (s.victim cluster l).map s.preemptTeam
  | none => none

/-- The work that waits on a cluster, by the priority number of its launch's queue, the lowest first (R455). -/
def State.byPriority (s : State) (cluster : Nat) : List Waiting :=
  let prio (w : Waiting) : Nat := ((s.launches[w.launch]?).map s.priorityOf).getD 0
  sortBy (fun a b => decide (prio a ≤ prio b)) (s.waitingOn cluster)

/-- TEAM_RESIDENCY (R201, R293, R304): the subject cluster's stoker starts the next cluster-team it has room for, or takes
the next array billet; failing that, it pre-empts for the work that waits, the highest priority first. -/
def execTeamResidency (s : State) : Out :=
  let c := s.subject
  match s.clusters[c]? with
  | none => .next s
  | some cl => match (headShares cl.shares).findSome? (s.startShare c) with
    | some s1 => .next s1
    | none => match (List.range s.launches.length).findSome? (s.startOrdered true c) with
      | some s1 => .next s1
      | none => match s.yieldBack c with
        | some s1 => .next s1
        | none => .next (((s.byPriority c).findSome? (s.preemptFor c)).getD s)

/-! ### Stealing and donation (R305) -/

/-- Whether a cluster has a core with room for another team, of any kernel (R305). -/
def State.roomOn (s : State) (c : Nat) : Bool :=
  (List.range 8).any fun i => s.coreServes (8 * c + i) (s.regs.classa.getLsbD c) && (s.coreTeams (8 * c + i)).length < 8

/-- Whether a launch's work may move to a cluster: a launch in free mode that the cluster may serve, a core of which has room
for its team; and whether a queued billet may. -/
def State.mayMove (s : State) (cluster launch : Nat) : Bool :=
  match s.launches[launch]? with
  | some l => !l.ordered && s.clusterServes cluster l.classA && (if l.isTask then s.roomOn cluster else s.coresFor cluster l l.kernel ≠ [])
  | none => false
def State.mayShip (s : State) (cluster : Nat) (b : Billet) : Bool :=
  s.mayMove cluster b.launch && (s.billetKernel b).all fun k => s.coresFor cluster k.1 k.2 ≠ []
def sharesLeft (ss : List Share) : Nat := (ss.map fun x => x.stop - x.next).sum

/-- The upper `n` indices of some shares: what stays, and what moves. -/
def splitShares : Nat → List Share → List Share × List Share
  | _, [] => ([], [])
  | n, x :: r =>
    let rest := splitShares n r
    let left := n - sharesLeft rest.2
    let take := min left (x.stop - x.next)
    ((if take = x.stop - x.next then [] else [{ x with stop := x.stop - take }]) ++ rest.1,
     (if take = 0 then [] else [{ x with next := x.stop - take }]) ++ rest.2)

/-- The unstarted work of a cluster, and of a die, that may move to a cluster. -/
def State.movableOf (s : State) (me c : Nat) : Nat :=
  ((s.clusters[c]?).map fun x => sharesLeft (x.shares.filter fun y => s.mayMove me y.launch)).getD 0
def dieClusters (d : Nat) : List Nat := (List.range 6).map (6 * d + ·)
def State.movableOn (s : State) (me d : Nat) : Nat := ((dieClusters d).map (s.movableOf me)).sum

/-- The place with the most unstarted work among some, ties to the lower; one team is not stolen, since its half is none. -/
def richest (load : Nat → Nat) (xs : List Nat) : Option Nat :=
  xs.foldl (fun best c => match best with
    | none => if 2 ≤ load c then some c else none
    | some b => if load b < load c then some c else some b) none

/-- The upper `n` of a cluster's movable work moved to another (R305). -/
def State.moveShares (s : State) (src dst n : Nat) : State :=
  match s.clusters[src]? with
  | none => s
  | some c =>
    let movable := c.shares.filter fun y => s.mayMove dst y.launch
    let p := splitShares n movable
    let s1 := s.modCluster src fun c => { c with shares := c.shares.filter (fun y => !s.mayMove dst y.launch) ++ p.1 }
    let before (a b : Share) : Bool := a.launch < b.launch || (a.launch = b.launch && a.next ≤ b.next)
    s1.modCluster dst fun c => { c with shares := sortBy before (c.shares ++ p.2) }

/-- Whether an ordered launch still has teams or billets to start on a cluster. -/
def State.orderedLeft (s : State) (c : Nat) : Bool :=
  (List.range s.launches.length).any fun li => (s.launches[li]?).any fun l =>
    l.state = .running && l.ordered && s.orderedNext c li l ≠ []

/-- Whether a cluster has nothing left to start and room for a team (R305). -/
def State.idleCluster (s : State) (c : Nat) : Bool :=
  match s.clusters[c]? with
  | some x => x.shares = [] && x.billets = [] && x.overflow = [] && !s.orderedLeft c && s.roomOn c
  | none => false

/-- The upper half of a die's movable work moved to a cluster of another, from its highest clusters on. -/
def State.moveDie (s : State) (d dst : Nat) : State :=
  ((dieClusters d).reverse.foldl (fun (acc : State × Nat) c =>
    let n := min acc.2 (s.movableOf dst c)
    (acc.1.moveShares c dst n, acc.2 - n)) (s, s.movableOn dst d / 2)).1

/-- CLUSTER_STEAL: the subject cluster takes the upper half of its largest sibling's unstarted work, or, when its die has none,
of the die that has most. -/
def execClusterSteal (s : State) : Out :=
  let c := s.subject
  if !s.idleCluster c then .next s
  else
    let die := c / 6
    match richest (s.movableOf c) (dieClusters die) with
    | some v => .next (s.moveShares v c (s.movableOf c v / 2))
    | none => match richest (s.movableOn c) ((List.range 3).filter (· ≠ die)) with
      | some d => .next (s.moveDie d c)
      | none => .next s

/-- BILLET_DONATION: the next cluster of the die that holds queued billets ships half of those that may move, youngest
first. -/
def execBilletDonation (s : State) : Out :=
  let c := s.subject
  let die := c / 6
  if !s.idleCluster c || (richest (s.movableOf c) (dieClusters die)).isSome then .next s
  else
    let others := (List.range 5).map fun i => 6 * die + (c % 6 + 1 + i) % 6
    match others.find? fun x => (s.clusters[x]?).any fun k => k.billets.any (s.mayShip c) with
    | none => .next s
    | some v => match s.clusters[v]? with
      | none => .next s
      | some k =>
        let mov := k.billets.filter (s.mayShip c)
        let give := mov.drop (mov.length - mov.length / 2)
        let s1 := s.modCluster v fun k => { k with billets := k.billets.filter fun b => !give.contains b }
        .next (s1.modCluster c fun k => { k with billets := k.billets ++ give.reverse })

/-! ### Saving, flushing and returning (R284, R286-R288, R330) -/

/-- A team at its pre-emption point: its state is kept and written to the save area, its groups give up their seats, and its
subscriptions go dormant (R286, R287, R330). DESIGN CHOICE (assumption log, entry 53): it is given back from its team. -/
def State.saveTeam (s : State) (t : Nat) : State :=
  let n := ((s.teams[t]?).map saveBytes).getD 0 + 64 * s.enginesOut t
  let s0 := (s.saveWrite t 0 0 (s.savedBytes n)).draw
  let s1 := s0.modTeam t fun tm =>
    { tm with residency := .switchedOut, savedAt := s.nextId, groups := tm.groups.map fun g => unseat (saveGroup g) }
  { s1 with subs := s1.subs.map fun b => if b.subscriber = t && b.state = .active then { b with state := .dormant } else b }

/-- Whether a flushed team's engine commands and its writes to ORD pages are still under way: they complete before its state
is discarded (R288, R420). -/
def State.flushBlocked (s : State) (t : Nat) : Bool :=
  ((s.opsOfTeam t).any fun o => engineWrites o || o.kind = .ce || o.kind = .tgms) ||
  s.reqs.any fun r => r.team = t && r.ord && isWrite r.kind && !r.performed

/-- FLUSH-AND-RESTART (R288, R327, R420): the team's state is discarded, the operations of its groups and of the handler that
served one of them among it; it restarts from its entry. -/
def State.flushTeam (s : State) (t : Nat) : State :=
  let s1 := s.settlePubs t
  let s2 := s1.modTeam t fun tm => { resetTeam tm with residency := .switchedOut, life := tm.life + 1 }
  let serves (c : Nat) : Bool := ((s2.clusters[c]?).bind Cluster.handler).any fun h => h.stop.team = t
  let mine (i : Issuer) : Bool := match i with | .group u _ => u = t | .handler c => serves c | .none => false
  { s2 with
    ops := s2.ops.filter fun o => !mine o.issuer
    reqs := s2.reqs.filter fun r => !(r.team = t && r.kind = .read && !r.performed)
    subs := (s2.subs.filter fun b => b.subscriber ≠ t).map fun b => if b.publisher = t then { b with state := .ended } else b
    updates := s2.updates.filter fun u => u.subscriber ≠ t
    clusters := s2.clusters.map fun c => { c with
      stops := c.stops.filter fun x => x.team ≠ t
      handler := match c.handler with | some h => if h.stop.team = t then none else some h | none => none } }

/-- Operations of a team that a save waits for: all but copies at a chunk boundary, and free `TGMS` commands without .ORD
after a batch (R286, R313, R318). The members of such a command wait with it. -/
def State.saveBlocked (s : State) (t : Nat) : Bool :=
  let stopped (o : Op) : Bool := match o.effect with
    | .copy .. => o.todo = []
    | .tile .. => o.todo.head? = some .pause
    | _ => false
  let member (o : Op) : Bool := o.kind = .tgms && (s.opsOfTeam t).any fun p => p.id < o.id && stopped p &&
    (match p.effect with | .tile _ n _ _ => o.id < p.id + n | _ => false)
  (s.opsOfTeam t).any fun o => !stopped o && !member o

/-- PREEMPT_SAVE_COMPLETE: the subject team leaves its core once its issued words have completed or, when it is flushed, once
its engine commands and ORD writes have. -/
def execPreemptSaveComplete (s : State) : Out :=
  match s.teams[s.subject]? with
  | none => .next s
  | some t =>
    if t.residency ≠ .saving then .next s
    else if t.preempt = .flush then .next (if s.flushBlocked s.subject then s else s.flushTeam s.subject)
    else .next (if s.saveBlocked s.subject then s else s.saveTeam s.subject)

/-- A subscription of a team that returns (R330): one that was dormant is active again. Its log is replayed; after an overflow
the records on their way are applied and the region is synchronised, from the publisher's core or its saved context. -/
def State.wakeSub (s : State) (t h : Nat) : State :=
  match s.sub? t h with
  | none => s
  | some b =>
    let s1 := s.modSub t h fun b =>
      { b with state := if b.state = .dormant then .active else b.state, log := [], overflow := false }
    if b.overflow then
      let s2 := (s1.updates.filter fun u => u.subscriber = t && u.handle = h).foldl State.applyUpdate s1
      match s2.sub? t h with
      | some x => s2.subPut x ⟨0, s2.regionBytes x 0 x.len⟩
      | none => s2
    else b.log.foldl (fun s w => match s.sub? t h with | some x => s.subPut x w | none => s) s1

/-- A team back on a core: nothing that the core's L1 holds from before is read by it (R292, R380). -/
def State.returnTo (s : State) (t core : Nat) : State :=
  match s.teams[t]?, s.launchOf t with
  | some tm, some l =>
    let o := (s.offsetFor core tm.kernel).getD 0
    let restage := tm.preempt = .flush && tm.billet ≠ []
    let s1 := s.modTeam t fun tm =>
      { tm with residency := if restage then .staging else .resident, preempt := .none, core := core, offset := o, begun := true,
                vcore := if l.ordered || tm.preempt ≠ .flush then tm.vcore else core }
    (s1.subsOf t).foldl (fun s b => s.wakeSub t b.handle) (s1.l1DropCore core)
  | _, _ => s

/-- Whether a core has room for a switched-out team: its resources (R201), its reservation records (R291) and its
subscription entries (R319), with every write it made or saw at its old core acknowledged (R292, R381). -/
def State.returnFits (s : State) (t core : Nat) : Bool :=
  match s.teams[t]?, s.launchOf t with
  | some tm, some l =>
    (tm.begun || s.turnOf tm.launch tm.tidx) && s.coreServes core l.classA && (s.offsetFor core tm.kernel).isSome && s.coreRecords core + tm.ranges.length ≤ 32 &&
    s.subRoom t core &&
    !s.reqs.any fun r => isWrite r.kind && !r.acked && (r.team = t || (r.core = tm.core && r.id < tm.savedAt))
  | _, _ => false

/-- The core each team of a cluster-team returns to when one returns to a core: in an ordered launch the core of its logical
core (R284), else that core and others of its cluster. -/
def State.returnPlan (s : State) (team core : Nat) (l : Launch) (back : List Nat) : List (Nat × Nat) :=
  if l.ordered then back.map fun u => (u, s.remapCore ((((s.teams[u]?).map Team.tidx).getD 0) % 144))
  else
    let cores := ((List.range 8).map (8 * (core / 8) + ·)).filter fun c => c ≠ core && back.all fun u => s.returnFits u c
    (team, core) :: List.zip (back.filter (· ≠ team)) cores

/-- Whether a team is out because of turns on a shared core: it gave its core to another logical core, or waits for its first
turn (R418). -/
def outByTurn (t : Team) : Bool := t.preempt = .turn || !t.begun

/-- The teams that return together (R285, R294): a whole cluster-team; but a team that is out because of turns returns alone, and
the others without it (R418). -/
def State.returnSet (s : State) (team : Nat) : List Nat :=
  if (s.teams[team]?).any outByTurn then [team]
  else (s.clusterTeam team).filter fun u => !(s.teams[u]?).any outByTurn

/-- TEAM_SWITCH_BACK (R284): a switched-out team returns to a core that has room for it, with its cluster-team, once every
group of theirs may go on and their cluster's barriers suffice (R293). DESIGN CHOICE (assumption log, entry 61): to a core of the
same die, but for a team that restarts, whose die's handles and number it could otherwise no longer read as before (R292). -/
def execTeamSwitchBack (team core : Nat) (s : State) : Out :=
  match s.teams[team]?, s.launchOf team with
  | some tm, some l =>
    let ms := s.returnSet team
    let back := ms.filter fun u => ((s.teams[u]?).map Team.residency) = some .switchedOut
    let ready := ms.all fun u => match s.teams[u]? with | some x => mayReturn x || x.residency = .ended | none => false
    let plan := s.returnPlan team core l back
    let sameDie := (!l.coop && tm.preempt = .flush) || core / 48 = tm.core / 48
    let barriers := tm.parent.isSome || s.clusterBarriersFree (core / 8) tm.launch tm.cteam l
    if l.state = .running && mayReturn tm && ready && sameDie && barriers && plan.contains (team, core) &&
        plan.length = back.length && plan.all fun p => s.returnFits p.1 p.2 then
      .next (plan.foldl (fun s p => s.returnTo p.1 p.2) s)
    else .next s
  | _, _ => .next s

end Sys2Proof.Machine
end

