-- ==== Sys2Proof/Machine/Boot.lean ====
section
/-!
DEFINITION. Boot and the remap table (R406, R417), the bellows (R431-R441), and the fatal errors of the H and T dies
(R457).
-/
namespace Sys2Proof.Machine

/-! ### Boot (R406) -/

/-- The next place above a start, wrapping, that a test accepts. -/
def nextLive (n start : Nat) (ok : Nat → Bool) : Nat :=
  (((List.range n).map fun i => (start + i) % n).find? ok).getD start

/-- The physical core of a logical core under the retirement fuses (R417). -/
def remapOf (l : Nat) : Nat :=
  let d := l / 48
  let clu := nextLive 6 (l % 48 / 8) fun c => !Config.clusterRetired d c
  let core := nextLive 8 (l % 8) fun k => !Config.coreRetired d clu k
  48 * d + 8 * clu + core

/-- The remap table. -/
def remapTable : List (BitVec 16) :=
  (List.range 144).map fun l =>
    let p := remapOf l
    let shared := (List.range 144).any fun m => m ≠ l && remapOf m = p
    BitVec.ofNat 16 (p / 48 + 4 * (p % 48 / 8) + 32 * (p % 8) + if shared then 256 else 0)

/-- The dead position, when exactly one is named. -/
def deadPosition : Option Nat :=
  match (List.range 4).filter fun i => Config.deadPositions.getLsbD i with | [p] => some p | _ => none

/-- PACKAGE_BOOT: the steps of R406 after the T die's own reset; `digestOk` and `signatureOk` are what step 3 finds. -/
def execPackageBoot (digestOk signatureOk : Bool) (s : State) : Out :=
  if s.tdie.done || s.tdie.fail ≠ 0 then .next s
  else match deadPosition with
    | none => .next { s with tdie := { s.tdie with fail := 1 } }
    | some p =>
      if !digestOk then .next { s with tdie := { s.tdie with fail := 2 } }
      else if !signatureOk then .next { s with tdie := { s.tdie with fail := 3 } }
      else
        let s1 : State := { s with
          tdie := { s.tdie with dead := BitVec.ofNat 2 p, lret := Config.retiredLink, done := true }
          remap := remapTable
          dies := s.dies.map fun d => { d with state := .live, inc := 0, incTable := [0, 0, 0] }
          cinderBase := windowBase + Config.cinderPiece % 384 * 2 ^ 28
          regs := { s.regs with sigbase := Config.signatureBase } }
        .next (s1.record 0x0B 255 0 (bytesOfNat 1 0xFF ++ bytesOfNat 1 0 ++
          bytesOfNat 16 (Config.bootNonce s1.fresh).toNat)).draw

/-- H_T_DIE_FATAL_ERROR (R457): AER uncorrectable fatal; the device needs a reset. -/
def execHtDieFatalError (_trustDie : Bool) (s : State) : Out :=
  .next { s with aer := s.aer ++ [.fatal], needsReset := true }

/-- PCIE_LINK_ERROR (R457). -/
def execPcieLinkError (fatal : Bool) (s : State) : Out :=
  .next { s with aer := s.aer ++ [if fatal then .fatal else .correctable] }

/-! ### Work and need (R433, R436) -/

/-- The C domains. -/
def cDomains : List Nat := [0, 1, 3, 4, 6, 7]
def domainOfCluster (c : Nat) : Nat := domainOf (8 * c)

/-- A team's share of its launch's work estimate (R433). -/
def Launch.share (l : Launch) : Nat := field l.slot.low.w6.toNat 32 32 * 1024 / max 1 l.teamCount

/-- The indices of a launch that an ordered one has still to start on a domain: those of the logical cores that its physical cores
serve (R416, R431). -/
def State.unstartedOn (s : State) (li : Nat) (l : Launch) (dom : Nat) : Nat :=
  ((List.range 144).map fun lc =>
    let mine (launch tidx : Nat) : Bool := launch = li && tidx % 144 = lc
    let begun := (s.teams.filter fun t => t.parent.isNone && mine t.launch t.tidx).length +
      (s.clusters.map fun c => (c.billets.filter fun b => b.inArray && mine b.launch b.tidx).length).sum
    if domainOf (s.remapCore lc) = dom then (l.teamCount + 143 - lc) / 144 - begun else 0).sum

/-- Remaining work of a step on a domain: its teams there, and its teams and billets queued there (R433). -/
def State.workOn (s : State) (step dom : Nat) : Nat :=
  let live (i : Nat) : Option Launch := (s.launches[i]?).bind fun l =>
    if l.steps.contains step && (l.state = .running || l.state = .waiting) then some l else none
  let placed := s.teams.map fun t => match live t.launch with
    | some l =>
      if t.residency ≠ .ended && domainOf t.core = dom then
        t.estimate.getD (if t.parent.isSome then 0 else l.share) - t.issued
      else 0
    | none => 0
  let queued := (List.range s.clusters.length).map fun c =>
    if domainOfCluster c ≠ dom then 0
    else match s.clusters[c]? with
      | none => 0
      | some cl =>
        (cl.shares.map fun x => match live x.launch with
          | some l => (min (x.stop * l.cts) l.teamCount - x.next * l.cts) * l.share
          | none => 0).sum +
        (cl.billets.map fun b => match live b.launch with | some l => if b.inArray then l.share else 0 | none => 0).sum
  let grid := (List.range s.launches.length).map fun li => match live li with
    | some l => if l.ordered && l.state = .running then s.unstartedOn li l dom * l.share else 0
    | none => 0
  placed.sum + queued.sum + grid.sum

/-- Whether work is done by a deadline at a code: `words · clocks ≤ retired · MHz · time`, times in ticks of 10 ns. -/
def meets (d : Domain) (work time : Nat) (p : Nat) : Bool :=
  if d.retired = 0 then work * 100 ≤ 256 * (300 + 100 * p) * time
  else work * (50 * (300 + 100 * d.point)) * 100 ≤ d.retired * (300 + 100 * p) * time

/-- The code a step needs on a domain, and whether it is at risk there. -/
def needOf (d : Domain) (work time : Nat) : Nat × Bool :=
  if time = 0 then (9, true)
  else match (List.range 10).find? (meets d work time) with | some p => (p, false) | none => (9, true)

/-- Time left to a step under the guard band, in ticks. -/
def State.timeLeft (s : State) (st : StepRec) : Nat := st.deadline - s.timer.toNat - 100 * s.regs.guard.toNat

/-- What the bellows finds for a C domain: its need, and the steps at risk there before and after capping. -/
def State.domainNeed (s : State) (x : Nat) : Nat × List Nat :=
  match s.domains[x]? with
  | none => (0, [])
  | some d =>
    let open_ := (s.steps.map fun st => (st.id, s.workOn st.id x, s.timeLeft st)).filter fun e => 0 < e.2.1
    let needs := open_.map fun e => (e.1, needOf d e.2.1 e.2.2)
    let cap := min 9 (min d.tcap d.pcap)
    let risk := (needs.filter fun e => e.2.2).map Prod.fst ++
      (open_.filter fun e => e.2.2 = 0 || !meets d e.2.1 e.2.2 cap).map Prod.fst
    (if open_ = [] then s.regs.defop.toNat else (needs.map fun e => e.2.1).foldl max 0, risk.eraseDups)

/-! ### Caps (R437) -/

/-- The package's maximum junction temperature. -/
def maxJunction : Nat := if Config.automotive then 125 else 105

def thermalCap (thr temp cap : Nat) : Nat :=
  if maxJunction ≤ temp then 0 else if thr ≤ temp then cap - 1 else if temp + 5 ≤ thr then min 9 (cap + 1) else cap

/-- The C domain with the highest point, ties to the lower number. -/
def highestDomain (ds : List Domain) : Nat :=
  cDomains.foldl (fun b x => if ((ds[b]?).map Domain.point).getD 0 < ((ds[x]?).map Domain.point).getD 0 then x else b) 0

def State.recap (s : State) (temps : List Nat) (power : Nat) : List Domain :=
  let lim := s.regs.plim.toNat
  let top := highestDomain s.domains
  s.domains.mapIdx fun x d =>
    let d : Domain := { d with tcap := thermalCap s.regs.tthr.toNat (temps.getD (x / 3) 0) d.tcap }
    if x % 3 = 2 then d
    else if lim < power then (if x = top then { d with pcap := d.pcap - 1 } else d)
    else if 100 * power ≤ 95 * lim then { d with pcap := min 9 (d.pcap + 1) } else d

/-! ### Fallback (R438, R439) -/

/-- The teams of a launch that wait for their first turn, and its tasks in staging, with the kernels of another object; a task whose
billet names no kernel there ends (R298). -/
def State.refreshTeams (s : State) (li : Nat) (k : Kernel) (kernels : List Kernel) : State :=
  let ord := ((s.launches[li]?).map Launch.ordered).getD false
  { s with teams := s.teams.map fun t =>
      if t.launch ≠ li || t.begun || t.residency = .ended then t
      else if t.billet = [] then resetTeam { t with kernel := k }
      else match taskKernel kernels ord (natOfBytes t.billet) with
        | some k => resetTeam { t with kernel := k }
        | none => { t with residency := .ended, ended := some .stagefault, groups := [], banks := [], tiles := [], rings := [], obufUnits := 0 } }

/-- A launch made to run its fallback object. -/
def State.useFallback (s : State) (li : Nat) : State :=
  match s.launches[li]? with
  | none => s
  | some l => match l.fallback with
    | none => s
    | some f => match s.objectAt l.ctx f.1 with
      | none => s
      | some o => match o.kernels[f.2]? with
        | none => s
        | some k => (s.modLaunch li fun l =>
            { l with kernel := k, kernels := o.kernels, code := o.code, codeVa := o.codeVa, const := o.const, dataVa := o.dataVa })
          |>.refreshTeams li k o.kernels

/-- Whether a launch has no started team or task: none of which a group has started (R298). -/
def State.unstarted (s : State) (li : Nat) : Bool :=
  !s.teams.any fun t => t.launch = li && t.begun && t.ended ≠ some .stagefault

/-- A FALLBACK record and the switch of one launch. -/
def State.switchLaunch (s : State) (step li : Nat) : State :=
  match s.launches[li]? with
  | none => s
  | some l => (s.record 0x09 l.queue l.num.toNat (bytesOfNat 4 step ++ bytesOfNat 2 l.num.toNat)).useFallback li

/-- A step switched once, where a launch record of it declares a fallback (R438): its parsed launches that have not started, in
parse order; later ones at their parse. -/
def State.switchStep (s : State) (id : Nat) : State :=
  let ls := (List.range s.launches.length).filter fun li => match s.launches[li]? with
    | some l => l.steps.contains id && l.fallback.isSome && (l.state = .waiting || l.state = .running) && s.unstarted li
    | none => false
  let declares (x : StepRec) : Bool := (List.range s.launches.length).any fun li => (s.launches[li]?).any fun l =>
    l.steps.contains id && l.fallback.isSome && (x.first ≤ li || l.state = .waiting || l.state = .running)
  let s1 := ls.foldl (fun s li => s.switchLaunch id li) s
  { s1 with steps := s1.steps.map fun x => if x.id = id && declares x then { x with switched := true } else x }

/-! ### The period (R436-R438, R441) -/

/-- A GOV record (R441). -/
def State.govRecord (s : State) (risk therm pwr overrun : Bool) (step : Nat) : State :=
  let points := (List.range s.domains.length).map fun x => ((s.domains[x]?).map Domain.target).getD 0 * 2 ^ (4 * x)
  let b (f : Bool) (n : Nat) : Nat := if f then 2 ^ n else 0
  s.record 0x0A 255 0 (bytesOfNat 8 (points.sum + b risk 36 + b therm 37 + b pwr 38 + b overrun 39) ++
    bytesOfNat 4 step ++ bytesOfNat 4 0)

/-- The new points under the caps; U follows the higher of its C domains, never below `BLW_UNCMIN` (R431). -/
def State.newPoints (s : State) (ds : List Domain) (needs : List (Nat × Nat)) : List Domain :=
  let point (x : Nat) : Nat :=
    let d := ds[x]?
    min (((needs.find? fun n => n.1 = x).map Prod.snd).getD 0) (min ((d.map Domain.tcap).getD 9) ((d.map Domain.pcap).getD 9))
  ds.mapIdx fun x d =>
    let target := if x % 3 = 2 then max (max (point (x - 2)) (point (x - 1))) s.regs.uncmin.toNat else point x
    { d with retired := 0, target := target, last := target }

/-- A step newly at risk (R438). -/
def State.stepAtRisk (s : State) (id : Nat) : State :=
  let s1 : State := { s with
    steps := s.steps.map fun x => if x.id = id then { x with atRisk := true } else x
    regs := { s.regs with riskstep := BitVec.ofNat 32 id }
    interrupts := s.interrupts ++ [⟨1, 0, 0, 0⟩] }
  if s.regs.replay then s1 else s1.switchStep id

/-- BELLOWS_PERIOD: caps, needs, points, risk and overrun of one period; `temps` are the dies' hottest sensors, `power` the
package's measured power. -/
def execBellowsPeriod (temps : List Nat) (power : Nat) (s : State) : Out :=
  if s.timer.toNat < s.bellowsAt + 5000 then .next s
  else
  let ds := s.recap temps power
  let s1 : State := { s with domains := ds, bellowsAt := s.timer.toNat }
  let found := cDomains.map fun x => (x, s1.domainNeed x)
  let needs := found.map fun f => (f.1, f.2.1)
  let ds2 := s1.newPoints ds needs
  let bound (cap : Domain → Nat) : Bool := needs.any fun n => match ds[n.1]? with | some d => cap d < n.2 | none => false
  let risky := (found.flatMap fun f => f.2.2).eraseDups
  let fresh := (s.steps.filter fun x => risky.contains x.id && !x.atRisk).map StepRec.id
  let passed := s.overdue ++ (s.steps.filter fun x => x.deadline < s.timer.toNat && !x.overrun).map StepRec.id
  let late := if fresh = [] then passed.take 1 else []
  let s2 : State := { s1 with
    domains := ds2
    overdue := if late = [] then s1.overdue else s1.overdue.tail
    steps := s1.steps.map fun x => if s1.overdue = [] && late.contains x.id then { x with overrun := true } else x }
  let changed := (List.zip s.domains ds2).any fun p => p.1.last ≠ p.2.target
  let therm := bound Domain.tcap
  let pwr := bound Domain.pcap
  let named := match fresh.getLast? with | some i => i | none => late.getLast?.getD 0
  let s3 := if changed || fresh ≠ [] || late ≠ [] || therm || pwr then
    s2.govRecord (fresh ≠ []) therm pwr (late ≠ []) named else s2
  .next (fresh.foldl State.stepAtRisk s3)

/-- THERMAL_TRIP (R437): at the maximum junction temperature the subject die's thermal cap drops to 0 at once. -/
def execThermalTrip (s : State) : Out :=
  .next { s with domains := s.domains.mapIdx fun x d =>
    if x / 3 = s.subject then
      { d with tcap := 0, target := if x % 3 = 2 then max 0 s.regs.uncmin.toNat else 0 } else d }

/-- OPERATING_POINT_SETTLE (R431): the subject domain runs at its new point. -/
def execOperatingPointSettle (s : State) : Out :=
  .next { s with domains := modAt s.domains s.subject fun d => { d with point := d.target } }

end Sys2Proof.Machine
end

