-- ==== Sys2Proof/Machine/Control.lean ====
section
/-!
DEFINITION. Control transfers of class B (R157-R167): target checks, branches, calls, joins, exits and the counted
branch.
-/
namespace Sys2Proof.Machine

/-! ### Targets (R158) -/

/-- Why the word at an index cannot be a target: cause, detail and address; nothing when it is an H word that may be
fetched. -/
def State.targetVerdict (s : State) (n : Int) : Option (Nat × Nat × Nat) :=
  let code := s.codeOf s.issuer
  if n < 0 then some (cIllegal, 0x06, 0)
  else match code.1[n.toNat]? with
    | none => some (cIllegal, 0x06, 0)
    | some w =>
      let va := code.2 + 8 * n.toNat
      match s.access (s.coreOf s.issuer / 48) (s.ctxOf s.issuer) needX va with
      | .error e => some (e.2.1, e.2.2, va)
      | .ok _ => if isHeader w then none else some (cIllegal, 0x06, 0)

/-- The ILLEGAL detail of targets that the whole word names. -/
def State.targetDetails (s : State) (ns : List Int) : List Nat :=
  if ns.any fun n => match s.targetVerdict n with | some v => v.1 = cIllegal | none => false then [0x06] else []

/-- The first fetch fault of targets that the whole word names. DESIGN CHOICE (assumption log, entry 49): of two that
fail, the branch target's is reported before the join word's, and the mask holds every issuing lane. -/
def State.targetFault (s : State) (ns : List Int) : Option (Nat × Nat × Nat) :=
  (ns.filterMap s.targetVerdict).find? fun v => v.1 ≠ cIllegal

/-- The index of the word a group issues, and of the word after its clause. -/
def wordIndex (g : Group) : Nat := match g.clause with | some c => c.h + c.pos | none => 0
def afterClause (g : Group) : Nat := match g.clause with | some c => c.h + 1 + c.len | none => 0

/-! ### Leaving a clause (R96-R99) -/

/-- An identifier for a new record of a group. -/
def freshRecord (g : Group) : Nat := 1 + (g.records.map JoinRec.id).foldl max 0

/-- The issuing threads leave their clause for the PCs given, below a new record if there is one; then the join
records are tested. -/
def leaveClause (pcOf : Nat → Nat) (push : Option JoinRec) (g : Group) : Group :=
  let lanes := issuing g
  let g1 : Group := { g with
    clause := none
    hold := .none
    threads := g.threads.mapIdx fun l (t : Thread) =>
      if lanes.getLsbD l then
        { t with pc := BitVec.ofNat 32 (pcOf l)
                 joins := match push with | some r => r.id :: t.joins | none => t.joins }
      else t
    records := match push with | some r => r :: g.records | none => g.records }
  settle g1

/-- A control transfer that has issued. -/
def State.transfer (s : State) (f : Group → Group) : State := (s.modUnit s.issuer f).issued

/-- The record a divergent branch pushes (R96): none where every issuing thread leaves for one PC, and none on the
control processor (R167). -/
def divergence (g : Group) (join : Nat) (pcOf : Nat → Nat) : Option JoinRec :=
  let pcs := (lanesOf (issuing g)).map pcOf
  if g.role = .control || pcs.all (fun p => p = pcs.headD 0) then none
  else some { id := freshRecord g, target := join, members := issuing g, call := false }

/-! ### BRA (R159) -/

def braTarget (w : BraW) (g : Group) : Int := (wordIndex g : Int) + w.tgt.toInt
def joinTarget (j : BitVec 18) (g : Group) : Int := (wordIndex g : Int) + j.toInt
def braTargets (w : BraW) (g : Group) : List Int :=
  if w.head.g = 1 then [braTarget w g, joinTarget w.join g] else [braTarget w g]

def braCheck (s : State) (w : BraW) (g : Group) : WordCheck :=
  { details := headDetails g w.head anyRole false true ++ (if w.sub = 0 then [] else [0x04]) ++
      (if w.head.g = 0 && w.join ≠ 0 then [0x04] else []) ++ s.targetDetails (braTargets w g) ++
      hazardDetails g (guardReads w.head)
    bank := false
    bound := fun _ => false }

def braGo (w : BraW) (s : State) (g : Group) : Out :=
  match s.targetFault (braTargets w g) with
  | some v => .next (s.fault s.issuer v.1 v.2.1 (issuing g) v.2.2)
  | none =>
    let taken := guardMask g w.head
    let pcOf (l : Nat) : Nat := if taken.getLsbD l then (braTarget w g).toNat else afterClause g
    s.fixed g w.head (s.transfer (leaveClause pcOf (divergence g (joinTarget w.join g).toNat pcOf)))
def execBra (w : BraW) (s : State) : Out := s.issueWord w.head (braCheck s w) (braGo w s)

/-! ### BRX (R160) -/

def brxSource (w : BrxW) : List Nat :=
  match opdOf w.a with | .v _ | .k _ | .rel .. => [] | _ => [0x03]

def brxCheck (s : State) (w : BrxW) (g : Group) : WordCheck :=
  { details := headDetails g w.head anyRole false true ++
      (if w.r45 = 0 && w.r25 = 0 && w.r5 = 0 then [] else [0x04]) ++ brxSource w ++
      (if g.role = .control && isVRel w.a then [0x10] else []) ++
      (if w.join = 0 then (if isKReg w.a then [] else [0x06]) else s.targetDetails [joinTarget w.join g]) ++
      hazardDetails g (accessReads g w.head [(w.a, 1)])
    bank := false
    bound := fun l => boundFails g l 1 1 w.a }

def brxTarget (w : BrxW) (g : Group) (l : Nat) : Nat := (readOpd g l w.a 0).toNat

/-- The verdict of a lane: of its own target where its guard is true, then of the join word. -/
def State.brxVerdict (s : State) (w : BrxW) (g : Group) (l : Nat) : Option (Nat × Nat × Nat) :=
  let own := if (guardMask g w.head).getLsbD l then s.targetVerdict (brxTarget w g l) else none
  match own with
  | some v => some (5, v.1, v.2.1)
  | none => if w.join = 0 then none else (s.targetFault [joinTarget w.join g]).map fun v => (5, v.1, v.2.1)

/-- The address recorded with a lane's failure. -/
def State.brxAddr (s : State) (w : BrxW) (g : Group) (l : Nat) : Nat :=
  match (if (guardMask g w.head).getLsbD l then s.targetVerdict (brxTarget w g l) else none) with
  | some v => v.2.2
  | none => ((s.targetFault [joinTarget w.join g]).map fun v => v.2.2).getD 0

def brxGo (w : BrxW) (s : State) (g : Group) : Out :=
  match judge (lanesOf (issuing g)) (s.brxVerdict w g) with
  | some f => .next (s.fault s.issuer f.1 f.2.1 f.2.2.1 (s.brxAddr w g f.2.2.2))
  | none =>
    let taken := guardMask g w.head
    let pcOf (l : Nat) : Nat := if taken.getLsbD l then brxTarget w g l else afterClause g
    let rec' := if w.join = 0 then none else divergence g (joinTarget w.join g).toNat pcOf
    s.fixed g w.head (s.transfer (leaveClause pcOf rec'))
def execBrx (w : BrxW) (s : State) : Out := s.issueWord w.head (brxCheck s w) (brxGo w s)

/-! ### CALL and RET (R161, R162, R167) -/

def callCheck (s : State) (w : BraW) (g : Group) : WordCheck :=
  { details := headDetails g w.head anyRole false true ++ (if w.sub = 0 then [] else [0x04]) ++
      (if w.join = 0 then [] else [0x04]) ++ s.targetDetails [braTarget w g] ++ hazardDetails g (guardReads w.head)
    bank := false
    bound := fun _ => false }

/-- Calls a thread stands in. -/
def callDepth (g : Group) (t : Thread) : Nat :=
  (t.joins.filter fun j => g.records.any fun r => r.id = j && r.call).length

/-- The lanes whose guard is false at a CALL have arrived at its record at once. -/
def arriveLanes (lanes : BitVec 32) (g : Group) : Group :=
  { g with threads := g.threads.mapIdx fun l (t : Thread) => if lanes.getLsbD l then { t with returned := true } else t }

def callGo (w : BraW) (s : State) (g : Group) : Out :=
  match s.targetFault [braTarget w g] with
  | some v => .next (s.fault s.issuer v.1 v.2.1 (issuing g) v.2.2)
  | none =>
    let taken := guardMask g w.head
    let pcOf (l : Nat) : Nat := if taken.getLsbD l then (braTarget w g).toNat else afterClause g
    if taken = 0 then s.fixed g w.head (s.transfer (leaveClause pcOf none))
    else if g.role = .control && 1024 ≤ callDepth g (threadAt g 0) then .next (s.endContext s.issuer)
    else
      let r : JoinRec := { id := freshRecord g, target := afterClause g, members := issuing g, call := true }
      s.fixed g w.head (s.transfer fun g1 => leaveClause pcOf (some r) (arriveLanes (issuing g1 &&& ~~~taken) g1))
def execCall (w : BraW) (s : State) : Out := s.issueWord w.head (callCheck s w) (callGo w s)

/-- What R157 judges of a bare form. DESIGN CHOICE (assumption log, entry 49): a guard predicate is read, and its hazard
bit judged, also where the form takes no effect from its guard. -/
def bareCheck (w : BareW) (g : Group) : WordCheck :=
  { details := headDetails g w.head anyRole false true ++ (if w.rsv = 0 && w.sub = 0 then [] else [0x04]) ++
      hazardDetails g (guardReads w.head)
    bank := false
    bound := fun _ => false }

/-- A thread's join stack from its innermost call record down. -/
def toCall (g : Group) : List Nat → List Nat
  | [] => []
  | j :: r => if g.records.any fun q => q.id = j && q.call then j :: r else toCall g r

/-- A thread that returns: it leaves the records above its innermost call record and arrives there, or it exits. -/
def returnThread (g : Group) (l : Nat) : Group :=
  let t := threadAt g l
  match toCall g t.joins with
  | [] => exitThread g l
  | j :: r =>
    let back := ((g.records.find? fun q => q.id = j).map JoinRec.target).getD 0
    { modThread g l (fun t => { t with joins := j :: r, returned := true, pc := BitVec.ofNat 32 back }) with
      records := g.records.map fun (q : JoinRec) =>
        if t.joins.contains q.id && !(j :: r).contains q.id then
          { q with members := q.members &&& ~~~((1 : BitVec 32) <<< l) }
        else q }

/-- The group ended once every thread has exited (R89). -/
def endIfExited (g : Group) : Group := if allExited g then { g with run := .ended, hold := .none } else g

/-- Threads that return or exit, the rest beyond the clause; a control processor's thread that has exited ends its
handler as HALT does (R275). DESIGN CHOICE (assumption log, entry 51): a thread that exits keeps the PC of the word
after its clause. -/
def State.leaveThreads (s : State) (lanes : BitVec 32) (leave : Group → Nat → Group) : State :=
  let f (g : Group) : Group :=
    let after := afterClause g
    let all := issuing g
    let g1 : Group := { g with
      clause := none
      hold := .none
      threads := g.threads.mapIdx fun l (t : Thread) =>
        if all.getLsbD l then { t with pc := BitVec.ofNat 32 after } else t }
    endIfExited (settle ((lanesOf lanes).foldl leave g1))
  let s1 := s.transfer f
  match s.issuer with
  | .handler c => match s1.unitOf s.issuer with
    | some g => if allExited g then s1.endByHalt c none else s1
    | none => s1
  | _ => s1

def retGo (w : BareW) (s : State) (g : Group) : Out :=
  s.fixed g w.head (s.leaveThreads (guardMask g w.head) returnThread)
def execRet (w : BareW) (s : State) : Out := s.issueWord w.head (bareCheck w) (retGo w s)

def exitGo (w : BareW) (s : State) (g : Group) : Out :=
  s.fixed g w.head (s.leaveThreads (guardMask g w.head) exitThread)
def execExit (w : BareW) (s : State) : Out := s.issueWord w.head (bareCheck w) (exitGo w s)

/-! ### JOIN, FORM, YIELD and BRC (R163, R165, R166) -/

def joinPc (g : Group) (taken : BitVec 32) (l : Nat) : Nat :=
  if taken.getLsbD l then
    match topRecord g (threadAt g l) with
    | some r => if r.call then afterClause g else r.target
    | none => afterClause g
  else afterClause g
def joinGo (w : BareW) (s : State) (g : Group) : Out :=
  s.fixed g w.head (s.transfer (leaveClause (joinPc g (guardMask g w.head)) none))
def execJoin (w : BareW) (s : State) : Out := s.issueWord w.head (bareCheck w) (joinGo w s)

/-- FORM and YIELD: a formation point and a place in the round-robin, neither of which a result depends on. -/
def stayGo (w : BareW) (s : State) (g : Group) : Out := s.fixed g w.head (s.retire 1)
def execForm (w : BareW) (s : State) : Out := s.issueWord w.head (bareCheck w) (stayGo w s)

/-- `YIELD`: the group goes on as at `FORM`, and gives up its places. -/
def yieldGo (w : BareW) (s : State) (g : Group) : Out := s.fixed g w.head ((s.retire 1).yieldPlace s.issuer)
def execYield (w : BareW) (s : State) : Out := s.issueWord w.head (bareCheck w) (yieldGo w s)

def brcCheck (s : State) (w : BraW) (g : Group) : WordCheck :=
  { details := headDetails g w.head anyRole false true ++ (if g.role = .control then [] else noGuard w.head) ++ (if w.join = 0 then [] else [0x04]) ++
      s.targetDetails [braTarget w g] ++ hazardDetails g (.k w.sub.toNat :: guardReads w.head)
    bank := false
    bound := fun _ => false }

def brcGo (w : BraW) (s : State) (g : Group) : Out :=
  match s.targetFault [braTarget w g] with
  | some v => .next (s.fault s.issuer v.1 v.2.1 (issuing g) v.2.2)
  | none =>
    let n := w.sub.toNat
    if guardMask g w.head = 0 then s.fixed g w.head (s.transfer (leaveClause (fun _ => afterClause g) none)) else
    let v : Reg32 := readK g n - 1
    let pc := if v ≠ 0 then (braTarget w g).toNat else afterClause g
    s.fixed g w.head ((s.writeNow s.issuer [.k n] [⟨.k n, none, v⟩]).transfer (leaveClause (fun _ => pc) none))
def execBrc (w : BraW) (s : State) : Out := s.issueWord w.head (brcCheck s w) (brcGo w s)

end Sys2Proof.Machine
end

