-- ==== Sys2Proof/Machine/FloatOps.lean ====
section
/-!
DEFINITION. Class F (R134-R146) over the arithmetic of Float.lean.
-/
namespace Sys2Proof.Machine

/-- The form of a class F word: MOD holds RM, FTZ and the SUB values it allows (R26, R136). -/
def formF (dst : DstForm) (a b c : SrcForm) (imm : ImmForm) (rmAny : Bool) (sub : Nat → Bool) : AluForm :=
  ⟨[.vector], dst, a, b, c, imm, false, .never, fun m => (rmAny || field m 4 2 = 0) && sub (m % 8), [], none⟩
def sub0 : Nat → Bool := fun n => n = 0
def formF1 : AluForm := formF .reg .any .none .none .none true sub0
def formF2 (imm : ImmForm) : AluForm := formF .reg .any .any .none imm true sub0
def formF3 (imm : ImmForm) : AluForm := { formF .reg .any .any .any imm true sub0 with old := .immediate }
def formLong (rmAny : Bool) : AluForm := { formF .reg .any .none .none .none rmAny sub0 with varLat := some .fpLong }

/-- RM and FTZ of a lane's MOD. -/
def rmIn (x : LaneIn) : RM := rmOf (field x.mod 4 2)
def ftzIn (x : LaneIn) : Bool := bitOf x.mod 3
def outR (r : Rounded) : LaneOut := ⟨BitVec.ofNat 64 r.bits, r.flags⟩

/-! ### FP32 arithmetic (R137, R138) -/

def execFadd (w : AluW) (s : State) : Out :=
  runAlu (formF2 .bf32) w (fun x => outR (opAdd fp32 (rmIn x) (ftzIn x) (uA x) (uB x))) s
def execFsub (w : AluW) (s : State) : Out :=
  runAlu (formF2 .bf32) w (fun x => outR (opSub fp32 (rmIn x) (ftzIn x) (uA x) (uB x))) s
def execFmul (w : AluW) (s : State) : Out :=
  runAlu (formF2 .bf32) w (fun x => outR (opMul fp32 (rmIn x) (ftzIn x) (uA x) (uB x))) s
def execFfma (w : AluW) (s : State) : Out :=
  runAlu (formF3 .bf32) w (fun x => outR (opFma fp32 (rmIn x) (ftzIn x) (uA x) (uB x) (uC x))) s

/-- Minimum and maximum raise no flag and take RM 00. -/
def formMinMax : AluForm := formF .reg .any .any .none .bf32 false sub0
def execFmin (w : AluW) (s : State) : Out :=
  runAlu formMinMax w (fun x => outNat (opMinMax fp32 (ftzIn x) false false (uA x) (uB x))) s
def execFmax (w : AluW) (s : State) : Out :=
  runAlu formMinMax w (fun x => outNat (opMinMax fp32 (ftzIn x) false true (uA x) (uB x))) s
def execFminn (w : AluW) (s : State) : Out :=
  runAlu formMinMax w (fun x => outNat (opMinMax fp32 (ftzIn x) true false (uA x) (uB x))) s
def execFmaxn (w : AluW) (s : State) : Out :=
  runAlu formMinMax w (fun x => outNat (opMinMax fp32 (ftzIn x) true true (uA x) (uB x))) s

/-! ### Comparison, classification, integral rounding (R139-R141) -/

/-- The predicate of a comparison, combined with pc unless OPC holds 0x150 (R139). -/
def setFloat (w : AluW) (f : Fmt) (x : LaneIn) : LaneOut :=
  let t := compareOp (x.mod % 8) (unpack f (ftzIn x) x.a.toNat) (unpack f (ftzIn x) x.b.toNat)
  outBool (t && (isImm w || w.opc = specZero || x.c ≠ 0))
def execFset (w : AluW) (s : State) : Out :=
  runAlu (formF .pred .any .any .pred .bf32 false fun _ => true) w (setFloat w fp32) s
def execDset (w : AluW) (s : State) : Out :=
  runAlu (formF .pred .wide .wide .pred .bf64 false fun _ => true) w (setFloat w fp64) s
def execFclass (w : AluW) (s : State) : Out :=
  runAlu (formF .reg .any .none .none .none false fun n => n < 3) w (fun x =>
    let f := match x.mod % 4 with | 0 => fp32 | 1 => fp16 | _ => bf16
    outNat (classMask f (ftzIn x) (uA x % 2 ^ f.width))) s
def execFrnd (w : AluW) (s : State) : Out :=
  runAlu (formF .reg .any .none .none .none true fun n => n < 2) w (fun x =>
    let r := opRound (rmIn x) (ftzIn x) (uA x)
    ⟨BitVec.ofNat 64 r.1, if bitOf x.mod 0 && r.2 then flNX else 0⟩) s

/-! ### Long-latency functions (R142) -/

def execFrcp (w : AluW) (s : State) : Out :=
  runAlu (formLong true) w (fun x => outR (opRcp (rmIn x) (ftzIn x) (uA x))) s
def execFrsq (w : AluW) (s : State) : Out :=
  runAlu (formLong true) w (fun x => outR (opRsq (rmIn x) (ftzIn x) (uA x))) s
def execFsqrt (w : AluW) (s : State) : Out :=
  runAlu (formLong true) w (fun x => outR (opSqrt (rmIn x) (ftzIn x) (uA x))) s
def execFdiv (w : AluW) (s : State) : Out :=
  runAlu { formF2 .bf32 with varLat := some .fpLong } w (fun x => outR (opDiv (rmIn x) (ftzIn x) (uA x) (uB x))) s
def execFex2 (w : AluW) (s : State) : Out := runAlu (formLong false) w (fun x => outR (opEx2 (ftzIn x) (uA x))) s
def execFlg2 (w : AluW) (s : State) : Out := runAlu (formLong false) w (fun x => outR (opLg2 (ftzIn x) (uA x))) s
def execFsin (w : AluW) (s : State) : Out := runAlu (formLong false) w (fun x => outR (opTrig false (ftzIn x) (uA x))) s
def execFcos (w : AluW) (s : State) : Out := runAlu (formLong false) w (fun x => outR (opTrig true (ftzIn x) (uA x))) s
def execFtanh (w : AluW) (s : State) : Out := runAlu (formLong false) w (fun x => outR (opTanh (ftzIn x) (uA x))) s
def execFsigm (w : AluW) (s : State) : Out := runAlu (formLong false) w (fun x => outR (opSigm (ftzIn x) (uA x))) s

/-! ### Packed and dot-product forms (R143-R145) -/

/-- Two 16-bit elements computed apart, their flags joined (R143). -/
def packed (x : LaneIn) (op : Nat → Nat → Nat → Rounded) : LaneOut :=
  let lo := op (field (uA x) 0 16) (field (uB x) 0 16) (field (uC x) 0 16)
  let hi := op (field (uA x) 16 16) (field (uB x) 16 16) (field (uC x) 16 16)
  ⟨BitVec.ofNat 64 (lo.bits + 2 ^ 16 * hi.bits), lo.flags ||| hi.flags⟩

def packedAdd (f : Fmt) (x : LaneIn) : LaneOut := packed x fun a b _ => opAdd f (rmIn x) (ftzIn x) a b
def packedMul (f : Fmt) (x : LaneIn) : LaneOut := packed x fun a b _ => opMul f (rmIn x) (ftzIn x) a b
def packedFma (f : Fmt) (x : LaneIn) : LaneOut := packed x fun a b c => opFma f (rmIn x) (ftzIn x) a b c
def packedMinMax (max : Bool) (x : LaneIn) : LaneOut :=
  packed x fun a b _ => ⟨opMinMax fp16 (ftzIn x) (bitOf x.mod 0) max a b, 0⟩

def execHadd2 (w : AluW) (s : State) : Out := runAlu (formF2 .half2) w (packedAdd fp16) s
def execHmul2 (w : AluW) (s : State) : Out := runAlu (formF2 .half2) w (packedMul fp16) s
def execHfma2 (w : AluW) (s : State) : Out := runAlu (formF3 .half2) w (packedFma fp16) s
def execBadd2 (w : AluW) (s : State) : Out := runAlu (formF2 .bf2) w (packedAdd bf16) s
def execBmul2 (w : AluW) (s : State) : Out := runAlu (formF2 .bf2) w (packedMul bf16) s
def execBfma2 (w : AluW) (s : State) : Out := runAlu (formF3 .bf2) w (packedFma bf16) s
def formHalfMinMax : AluForm := formF .reg .any .any .none .half2 false fun n => n < 2
def execHmax2 (w : AluW) (s : State) : Out := runAlu formHalfMinMax w (packedMinMax true) s
def execHmin2 (w : AluW) (s : State) : Out := runAlu formHalfMinMax w (packedMinMax false) s

/-- A byte of a word, signed or unsigned. -/
def byteOf (a : Nat) (j : Nat) (unsigned : Bool) : Int :=
  let b := field a (8 * j) 8
  if unsigned || b < 128 then b else (b : Int) - 256
def execIdp4 (w : AluW) (s : State) : Out :=
  runAlu { formF .reg .any .any .any .none false (fun _ => true) with mods := fun m => m < 8 } w (fun x =>
    let t := (List.range 4).foldl (fun t j => t + byteOf (uA x) j (bitOf x.mod 0) * byteOf (uB x) j (bitOf x.mod 1)) (sC x)
    outInt (if bitOf x.mod 2 then clamp32 t else t)) s

/-- The exact sum of two products and c, rounded once (R145). -/
def opDp2 (f : Fmt) (rm : RM) (ftz : Bool) (a b c : Nat) : Rounded :=
  let v (x i : Nat) := unpack f ftz (field x (16 * i) 16)
  let z := unpack fp32 ftz c
  finish fp32 rm ftz [v a 0, v a 1, v b 0, v b 1, z] (fadd rm (fadd rm (fmul (v a 0) (v b 0)) (fmul (v a 1) (v b 1))) z)
def execFdp2h (w : AluW) (s : State) : Out :=
  runAlu (formF .reg .any .any .any .none true fun n => n < 2) w (fun x =>
    outR (opDp2 (if bitOf x.mod 0 then bf16 else fp16) (rmIn x) (ftzIn x) (uA x) (uB x) (uC x))) s

/-! ### binary64 (R146) -/

def formD : AluForm := formF .wide .wide .wide .none .bf64 true sub0
def execDadd (w : AluW) (s : State) : Out :=
  runAlu formD w (fun x => outR (opAdd fp64 (rmIn x) (ftzIn x) x.a.toNat x.b.toNat)) s
def execDmul (w : AluW) (s : State) : Out :=
  runAlu formD w (fun x => outR (opMul fp64 (rmIn x) (ftzIn x) x.a.toNat x.b.toNat)) s
def execDfma (w : AluW) (s : State) : Out :=
  runAlu { formD with c := .wide, old := .immediate } w (fun x =>
    outR (opFma fp64 (rmIn x) (ftzIn x) x.a.toNat x.b.toNat x.c.toNat)) s

end Sys2Proof.Machine
end

