-- ==== Sys2Proof/Machine/Convert.lean ====
section
/-!
DEFINITION. Class C (R147-R156): conversions, group quantisation, scaling, permutation and packing; and the P word
(R36-R39).
-/
namespace Sys2Proof.Machine

/-! ### Conversions (R148-R151) -/

/-- A conversion type: a float layout, or an integer of some width and sign. -/
inductive CvtType where
  | float (f : Fmt)
  | int (n : Nat) (signed : Bool)
deriving DecidableEq, Repr

/-- The type codes of `CVT`, `CVT64` and `CVTP` (R148). -/
def cvtType (c : Nat) : Option CvtType :=
  match c with
  | 0x0 => some (.float fp32) | 0x1 => some (.float fp16) | 0x2 => some (.float bf16)
  | 0x3 => some (.float e4m3) | 0x4 => some (.float e5m2)
  | 0x5 => some (.int 32 true) | 0x6 => some (.int 32 false) | 0x7 => some (.int 16 true)
  | 0x8 => some (.int 16 false) | 0x9 => some (.int 8 true) | 0xA => some (.int 8 false)
  | _ => none
def cvt64Type (c : Nat) : Option CvtType :=
  match c with
  | 0x0 => some (.float fp64) | 0x1 => some (.float fp32) | 0x2 => some (.int 64 true)
  | 0x3 => some (.int 64 false) | 0x4 => some (.int 32 true) | 0x5 => some (.int 32 false)
  | _ => none
def cvtpType (c : Nat) : CvtType :=
  match c % 4 with | 0 => .float fp16 | 1 => .float bf16 | 2 => .float e4m3 | _ => .float e5m2

def CvtType.width : CvtType → Nat | .float f => f.width | .int n _ => n
def CvtType.isFp8 : CvtType → Bool | .float f => f = e4m3 || f = e5m2 | _ => false

/-- A conversion (R149): the destination's bits before placement, an integer sign-extended to 32 bits. -/
def convert (dt st : CvtType) (rm : RM) (ftz nsat : Bool) (a : Nat) : Rounded :=
  let a := a % 2 ^ st.width
  let int (n : Nat) (v : Int) : Nat := (BitVec.ofInt (if n = 64 then 64 else 32) v).toNat
  match st, dt with
  | .float f, .float g => toFloat g rm ftz (nsat || f = g) (unpack f ftz a)
  | .float f, .int n sg => let r := toInt rm n sg (unpack f ftz a); ⟨int n r.1, r.2⟩
  | .int n sg, .float g =>
    toFloat g rm ftz nsat (ofInt (if sg then (BitVec.ofNat n a).toInt else a))
  | .int n sg, .int m sg2 =>
    let v : Int := if sg then (BitVec.ofNat n a).toInt else a
    let lo : Int := if sg2 then -(2 ^ (m - 1)) else 0
    let hi : Int := if sg2 then 2 ^ (m - 1) - 1 else 2 ^ m - 1
    ⟨int m (if v < lo then lo else if hi < v then hi else v), 0⟩

/-- The fields of the conversion MOD (R148). -/
def cvtRm (m : Nat) : RM := rmOf (m % 8)
def cvtFtz (m : Nat) : Bool := bitOf m 3
def cvtNsat (m : Nat) : Bool := bitOf m 4

/-- Whether a conversion MOD is legal for a destination. -/
def cvtMods (dt : CvtType) (rna nsat : Bool) (m : Nat) : Bool :=
  m % 8 < (if rna then 5 else 4) && m < 32 && (!cvtNsat m || (nsat && dt.isFp8))

/-- The class C form without its operands' kinds. -/
def formC (dst : DstForm) (a b c : SrcForm) (imm : ImmForm) (mods : Nat → Bool) : AluForm :=
  ⟨[.vector], dst, a, b, c, imm, false, .never, mods, [], none⟩

def f32 : CvtType := .float fp32
def formCvt (w : AluW) : AluForm :=
  let d := cvtType (field w.opc.toNat 4 4)
  let t := cvtType (field w.opc.toNat 0 4)
  { formC .reg .any .none .raw .none (cvtMods (d.getD f32) true true) with
    extra := if isImm w then [] else
      (if field w.opc.toNat 8 2 = 0 then [] else [0x04]) ++ (if d.isNone || t.isNone then [0x0B] else []) }
def execCvt (w : AluW) (s : State) : Out :=
  runAlu (formCvt w) w (fun x =>
    let d := (cvtType (field w.opc.toNat 4 4)).getD f32
    let t := (cvtType (field w.opc.toNat 0 4)).getD f32
    outR (convert d t (cvtRm x.mod) (cvtFtz x.mod) (cvtNsat x.mod) (uA x))) s

def formCvtp (w : AluW) : AluForm :=
  { formC .reg .any .any .raw .none (cvtMods (cvtpType w.opc.toNat) false true) with
    extra := if isImm w || field w.opc.toNat 2 8 = 0 then [] else [0x04] }
def execCvtp (w : AluW) (s : State) : Out :=
  runAlu (formCvtp w) w (fun x =>
    let d := cvtpType w.opc.toNat
    let cv (a : Nat) := convert d f32 (cvtRm x.mod) (cvtFtz x.mod) (cvtNsat x.mod) a
    let lo := cv (uA x)
    let hi := cv (uB x)
    ⟨BitVec.ofNat 64 (lo.bits + 2 ^ d.width * hi.bits), lo.flags ||| hi.flags⟩) s

/-- CVT64: its types stand in OPC, which an immediate takes the place of (R25, R148). -/
def formCvt64 (w : AluW) : AluForm :=
  let d := (cvt64Type (field w.opc.toNat 4 4))
  let t := (cvt64Type (field w.opc.toNat 0 4))
  let wide (x : Option CvtType) : Bool := !isImm w && (x.getD f32).width = 64
  { formC (if wide d then .wide else .reg) (if wide t then .wide else .any) .none .raw .none
      (cvtMods (d.getD f32) false false) with
    extra := if isImm w then [] else
      (if field w.opc.toNat 8 2 = 0 then [] else [0x04]) ++ (if d.isNone || t.isNone then [0x0B] else []) ++
      (if wide d || wide t || d.isNone || t.isNone then [] else [0x12]) }
def execCvt64 (w : AluW) (s : State) : Out :=
  runAlu (formCvt64 w) w (fun x =>
    let d := (cvt64Type (field w.opc.toNat 4 4)).getD f32
    let t := (cvt64Type (field w.opc.toNat 0 4)).getD f32
    outR (convert d t (cvtRm x.mod) (cvtFtz x.mod) false x.a.toNat)) s

/-! ### Quantising a group (R152, R153) -/

def formQnt : AluForm :=
  { formC .vOnly .any .kOnly .none .zero modZero with varLat := some .fpLong }

/-- The block image of a quantised block: one word per lane (R152). -/
def imageWord (q : QBlock) (lane : Nat) : Nat :=
  if lane < 4 then natOfBytes (((codeBytes q.codes).drop (4 * lane)).take 4)
  else if lane = 4 then headerOf q.scale q.entries.length
  else if lane < 9 then (match q.entries[lane - 5]? with | some e => entryOf e | none => 0)
  else 0

/-- A group operation of fpLong latency whose lanes' results are already known. -/
def fpLongGo (f : AluForm) (w : AluW) (s : State) (g : Group) (val : Nat → Nat) (flags : Nat → BitVec 5) : Out :=
  if flagBlocked g (selectedFlag g w.head.fs) then .next (s.holdAt .flagFull)
  else
    let names := aluWrites g f w
    let flag := selectedFlag g w.head.fs
    let lanes := lanesOf (guardMask g w.head)
    if lanes = [] then .next ((s.emptyOp names flag).retire 1)
    else
      let ws := lanes.flatMap fun l => dstWrites g l false w.dst (BitVec.ofNat 64 (val l))
      let o := { Op.blank s.nextId s.issuer .fpLong flag with
        dests := destsOf ws, writes := ws, fstat := lanes.map fun l => (l, flags l) }
      .next ((s.launchOp names o).retire 1)

def qntGo (w : AluW) (s : State) (g : Group) : Out :=
  let m := guardMask g w.head
  let xs := (List.range 32).map fun l => if m.getLsbD l then (readSrc g l false w.opa).toNat else 0
  let b := (lowHalf (laneIn g formQnt w 0).b).toNat
  let q := quantise xs (if b < 4 then b else 4)
  fpLongGo formQnt w s g (imageWord q) fun l => q.flags.getD l 0
def execQnt (w : AluW) (s : State) : Out := s.issueWord w.head (aluCheck formQnt w) (qntGo w s)

def formDqnt : AluForm :=
  { formC .vOnly .any .none .none .none (fun m => m = 0 || m = 8) with varLat := some .fpLong }
def dqntGo (w : AluW) (s : State) (g : Group) : Out :=
  let m := guardMask g w.head
  let word (l : Nat) : Nat := if m.getLsbD l then (readSrc g l false w.opa).toNat else 0
  let codes := (List.range 32).map fun j => field (word (j / 8)) (4 * (j % 8)) 4
  let vals := readBx4 codes (word 4 % 2 ^ 16) ((List.range 4).map fun j => word (5 + j))
  let res (l : Nat) : Rounded := rnd fp32 .rne (bitOf w.mod.toNat 3) (vals.getD l .nan)
  fpLongGo formDqnt w s g (fun l => (res l).bits) fun l => (res l).flags
def execDqnt (w : AluW) (s : State) : Out := s.issueWord w.head (aluCheck formDqnt w) (dqntGo w s)

/-! ### Scaling, permutation, packing (R154-R156) -/

def execSclx (w : AluW) (s : State) : Out :=
  runAlu (formC .reg .any .any .none .zero fun m => field m 1 2 = 0) w (fun x =>
    if bitOf x.mod 0 && uB x % 256 = 255 then ⟨BitVec.ofNat 64 (canonNan fp32), flNV⟩
    else
      let n : Int := if bitOf x.mod 0 then (uB x % 256 : Nat) - 127 else sB x
      outR (opScale (rmIn x) (ftzIn x) (uA x) n)) s

/-- The bytes PRMT selects from {b, a} (R155). -/
def permute (a b c : Nat) : Nat :=
  natOfBytes ((List.range 4).map fun i =>
    let k := field c (4 * i) 4
    let y := field (a + 2 ^ 32 * b) (8 * (k % 8)) 8
    if k < 8 then BitVec.ofNat 8 y else if 128 ≤ y then 0xFF else 0)
def execPrmt (w : AluW) (s : State) : Out :=
  runAlu (formC .reg .any .any .any .zero modZero) w (fun x =>
    if isImm w then outNat (permute (uA x) (uA x) (uB x)) else outNat (permute (uA x) (uB x) (uC x))) s

/-- A byte narrowed to a nibble (R156). -/
def nibbleOf (unsigned : Bool) (b : Nat) : Nat :=
  if unsigned then (if 15 < b then 15 else b)
  else
    let v : Int := if b < 128 then b else (b : Int) - 256
    ((if v < -8 then -8 else if 7 < v then 7 else v) % 16).toNat
def execPack4 (w : AluW) (s : State) : Out :=
  runAlu (formC .reg .any .any .none .none fun m => m < 2) w (fun x =>
    outNat ((List.range 8).foldl (fun n j =>
      n + 16 ^ j * nibbleOf (bitOf x.mod 0) (field (if j < 4 then uA x else uB x) (8 * (j % 4)) 8)) 0)) s

/-! ### The P word (R36-R39) -/

def halfNop (h : Half) : Bool := h.op = 0x11
def halfFp (h : Half) : Bool := 0x0C ≤ h.op && h.op ≤ 0x10

/-- The ILLEGAL details of one half (R20, R36, R37). -/
def halfDetails (h : Half) : List Nat :=
  (if 0x11 < h.op then [0x0A] else []) ++ (if h.rsv ≠ 0 then [0x04] else []) ++
  (if halfNop h then
     (if h.i = 0 && h.d = 0 && h.s = 0 && h.g = 0 && h.n = 0 && h.pred = 0 then [] else [0x0A])
   else if h.g = 0 && (h.n ≠ 0 || h.pred ≠ 0) then [0x04] else [])

/-- The v registers a half reads, with repeats (R39). -/
def halfSources (h : Half) : List Nat :=
  if halfNop h then []
  else (if h.op = 0 then [] else [h.d.toNat]) ++ (if h.i = 0 then [h.s.toNat] else [])

/-- The bank rules of R39; a register named twice counts twice. -/
def pairBank (u l : Half) : Bool :=
  let srcs := halfSources u ++ halfSources l
  (!halfNop u && !halfNop l && u.d.toNat % 4 = l.d.toNat % 4) ||
  (List.range 4).any fun b => 2 < (srcs.filter fun r => r % 4 = b).length

/-- Whether a half's guard holds in a lane (R38: before either half writes). -/
def halfGuard (g : Group) (h : Half) (l : Nat) : Bool :=
  h.g = 0 || (readP (threadAt g l) h.pred.toNat != (h.n = 1))

/-- Whether a half names a register beyond the allocation. -/
def halfOut (g : Group) (h : Half) : Bool :=
  !halfNop h && (g.alloc ≤ h.d.toNat || (h.i = 0 && g.alloc ≤ h.s.toNat))

def pairReads (u l : Half) : List RegName :=
  [u, l].flatMap fun h =>
    (if h.g = 1 then [RegName.p h.pred.toNat] else []) ++ (halfSources h).map RegName.v

def pairCheck (u l : Half) (g : Group) : WordCheck :=
  { details :=
      (match g.role with
       | .control => [0x10]
       | .vector => []
       | _ => if halfFp u || halfFp l then [0x10] else []) ++
      halfDetails u ++ halfDetails l ++ hazardDetails g (pairReads u l)
    bank := pairBank u l
    bound := fun n => (halfGuard g u n && halfOut g u) || (halfGuard g l n && halfOut g l) }

/-- What a half computes: d op s under default modifiers (R37). -/
def halfResult (h : Half) (d s : Reg32) : LaneOut :=
  let f (r : Rounded) : LaneOut := outR r
  match h.op.toNat with
  | 0x00 => out32 s
  | 0x01 => out32 (d + s)
  | 0x02 => out32 (d - s)
  | 0x03 => out32 (d &&& s)
  | 0x04 => out32 (d ||| s)
  | 0x05 => out32 (d ^^^ s)
  | 0x06 => out32 (shiftL d s.toNat)
  | 0x07 => out32 (shiftR d s.toNat)
  | 0x08 => out32 (shiftA d s.toNat)
  | 0x09 => out32 (if d.toInt ≤ s.toInt then d else s)
  | 0x0A => out32 (if s.toInt ≤ d.toInt then d else s)
  | 0x0B => out32 (d * s)
  | 0x0C => f (opAdd fp32 .rne false d.toNat s.toNat)
  | 0x0D => f (opSub fp32 .rne false d.toNat s.toNat)
  | 0x0E => f (opMul fp32 .rne false d.toNat s.toNat)
  | 0x0F => outNat (opMinMax fp32 false false false d.toNat s.toNat)
  | 0x10 => outNat (opMinMax fp32 false false true d.toNat s.toNat)
  | _ => out32 d

/-- A half's source in a lane: a register, or imm8 (an FP half takes the FP32 value of that integer, R37). -/
def halfSource (g : Group) (h : Half) (l : Nat) : Reg32 :=
  if h.i = 0 then readV (threadAt g l) h.s.toNat
  else if halfFp h then BitVec.ofNat 32 (rne32 (ofInt h.s.toInt))
  else h.s.signExtend 32

/-- The results of a half over the issuing lanes: writes, and sticky flags. -/
def halfResults (g : Group) (h : Half) : List (RegWrite × (Nat × BitVec 5)) :=
  if halfNop h then []
  else ((lanesOf (issuing g)).filter (halfGuard g h)).map fun l =>
    let r := halfResult h (readV (threadAt g l) h.d.toNat) (halfSource g h l)
    (⟨.v h.d.toNat, some l, lowHalf r.value⟩, (l, r.flags))

/-- Both halves of a P word: every source and guard read before either writes (R38). -/
def pairGo (u l : Half) (s : State) (g : Group) : Out :=
  let rs := halfResults g u ++ halfResults g l
  let names := ([u, l].filter fun h => !halfNop h).map fun h => RegName.v h.d.toNat
  .next (((s.writeNow s.issuer names (rs.map Prod.fst)).modUnit s.issuer fun g => raiseFlags g (rs.map Prod.snd)).retire 1)

/-- A P word has no head of its own; its guards are its halves'. -/
def pairHead : Head := { g := 0, n := 0, pred := 0, fs := 0 }
def execPWord (upper lower : Half) (s : State) : Out :=
  s.issueWord pairHead (pairCheck upper lower) (pairGo upper lower s)

end Sys2Proof.Machine
end

