-- ==== Sys2Proof/Machine/CrossLane.lean ====
section
/-!
DEFINITION. Cross-lane operations (R168-R179) and the reduction tree of R84 and R85.
-/
namespace Sys2Proof.Machine

/-! ### The tree (R84, R85) -/

/-- A combine: the result of a pair, and the flags it raises. -/
abbrev Combine := Reg32 → Reg32 → Reg32 × BitVec 5

/-- One round of the tree at distance `d`. -/
def treeRound (op : Combine) (d : Nat) (v : List (Option Reg32)) : List (Option Reg32) × BitVec 5 :=
  let at' (i : Nat) : Option Reg32 := v.getD i none
  let out := (List.range 32).map fun i =>
    if i % (2 * d) < d then
      match at' i, at' (i + d) with
      | some x, some y => ((some (op x y).1 : Option Reg32), (op x y).2)
      | none, some y => (some y, 0)
      | x, none => (x, 0)
    else (at' i, 0)
  (out.map Prod.fst, out.foldl (fun f e => f ||| e.2) 0)

/-- The value the tree leaves in lane 0, and the flags of its combines. -/
def reduceTree (op : Combine) (v : List (Option Reg32)) : Option Reg32 × BitVec 5 :=
  let r := [16, 8, 4, 2, 1].foldl (fun acc d =>
    let n := treeRound op d acc.1
    (n.1, acc.2 ||| n.2)) (v, (0 : BitVec 5))
  (r.1.getD 0 none, r.2)

/-- The operations of REDUX and SCAN by code (R177). -/
def reduceOp (code : Nat) (rm : RM) : Combine := fun x y =>
  let pick (b : Bool) : Reg32 × BitVec 5 := (if b then x else y, 0)
  match code with
  | 0 => (x + y, 0)
  | 1 => pick (x.toInt ≤ y.toInt)
  | 2 => pick (y.toInt ≤ x.toInt)
  | 3 => pick (x.toNat ≤ y.toNat)
  | 4 => pick (y.toNat ≤ x.toNat)
  | 5 => (x &&& y, 0)
  | 6 => (x ||| y, 0)
  | 7 => (x ^^^ y, 0)
  | 8 => let r := opAdd fp32 rm false x.toNat y.toNat
         (BitVec.ofNat 32 r.bits, r.flags)
  | 9 => (BitVec.ofNat 32 (opMinMax fp32 false false false x.toNat y.toNat), 0)
  | 10 => (BitVec.ofNat 32 (opMinMax fp32 false false true x.toNat y.toNat), 0)
  | 11 => (BitVec.ofNat 32 (opMinMax fp32 false true false x.toNat y.toNat), 0)
  | _ => (BitVec.ofNat 32 (opMinMax fp32 false true true x.toNat y.toNat), 0)

/-! ### Participants (R168, R169) -/

/-- The lanes a cross-lane word names. -/
def crossMask (w : AluW) (g : Group) : BitVec 32 :=
  if isImm w then g.cohort
  else match opdOf w.opc with | .k n => readK g n | _ => g.cohort

/-- What the present lanes brought: lane, a and b, in ascending lane order. -/
def contributions (g : Group) (c : Clause) : List (Nat × Reg32 × Reg32) :=
  (lanesOf (heldLanes g c)).filterMap fun l => match (threadAt g l).held with
    | some h => if h.present then some (l, h.a, h.b) else none
    | none => none

/-- The results of a cross-lane word. -/
structure CrossOut where
  writes : List RegWrite
  flags : List (Nat × BitVec 5)

/-- A cross-lane word: threads held until all named ones stand at it, then `result` over what they brought. -/
def crossGo (f : AluForm) (w : AluW) (names : Group → List RegName)
    (result : Group → List (Nat × Reg32 × Reg32) → CrossOut) (s : State) (g : Group) : Out :=
  s.gather g (crossMask w g) (guardMask g w.head)
    (fun l => let x := laneIn g f w l; (lowHalf x.a, lowHalf x.b))
    (fun s g c =>
      let r := result g (contributions g c)
      s.fixed g w.head (((s.writeNow s.issuer (names g) r.writes).modUnit s.issuer fun g => raiseFlags g r.flags).release c))

def formCross (roles : List Role) (dst : DstForm) (a b : SrcForm) (imm : ImmForm) (mods : Nat → Bool)
    (extra : List Nat) : AluForm := ⟨roles, dst, a, b, .mask, imm, false, .never, mods, extra, none⟩

/-- The writes of one value per lane to DST. -/
def laneWrites (g : Group) (w : AluW) (vs : List (Nat × Reg32)) : List RegWrite :=
  vs.flatMap fun v => dstWrites g v.1 false w.dst (v.2.zeroExtend 64)
def boolReg (b : Bool) : Reg32 := if b then 1 else 0

/-! ### VOTE, ELECT, GSYNC (R173, R174, R179) -/

def formVote : AluForm := formCross groupRoles .pred .any .none .none (fun m => m < 3) []
def voteResult (w : AluW) (g : Group) (cs : List (Nat × Reg32 × Reg32)) : CrossOut :=
  let t := match w.mod.toNat with
    | 0 => cs.all fun c => c.2.1 ≠ 0
    | 1 => cs.any fun c => c.2.1 ≠ 0
    | _ => cs.all fun c => (cs.head?.map fun d => d.2.1) = some c.2.1
  ⟨laneWrites g w (cs.map fun c => (c.1, boolReg t)), []⟩
def execVote (w : AluW) (s : State) : Out :=
  s.issueWord w.head (aluCheck formVote w) (crossGo formVote w (fun g => aluWrites g formVote w) (voteResult w) s)

def formElect : AluForm := formCross groupRoles .pred .none .none .none modZero []
def electResult (w : AluW) (g : Group) (cs : List (Nat × Reg32 × Reg32)) : CrossOut :=
  let low := (cs.head?.map Prod.fst).getD 0
  ⟨laneWrites g w (cs.map fun c => (c.1, boolReg (c.1 = low))), []⟩
def execElect (w : AluW) (s : State) : Out :=
  s.issueWord w.head (aluCheck formElect w) (crossGo formElect w (fun g => aluWrites g formElect w) (electResult w) s)

/-- GSYNC acts as an acquire and release at group scope by its present lanes (R179). -/
def formGsync : AluForm := formCross groupRoles .none .none .none .none modZero []
def gsyncGo (w : AluW) (s : State) (g : Group) : Out :=
  s.gather g (crossMask w g) (guardMask g w.head) (fun _ => (0, 0)) fun s g c =>
    if contributions g c ≠ [] && s.fenceHolds 3 0 then .next (s.holdAt .fence)
    else s.fixed g w.head (s.release c)
def execGsync (w : AluW) (s : State) : Out := s.issueWord w.head (aluCheck formGsync w) (gsyncGo w s)

/-! ### SHFL (R175) -/

/-- MODE, W and whether the reserved immediate bits are clear. -/
def shflMode (w : AluW) : Nat := let i := (w.opc ++ w.mod : BitVec 16).toNat
  if isImm w then field i 5 2 else field w.mod.toNat 0 2
def shflWidth (w : AluW) : Nat := let i := (w.opc ++ w.mod : BitVec 16).toNat
  if isImm w then field i 7 3 else field w.mod.toNat 2 3
def shflExtra (w : AluW) : List Nat :=
  if isImm w then
    (if field (w.opc ++ w.mod : BitVec 16).toNat 10 6 = 0 then [] else [0x04]) ++
    (if shflWidth w ≤ 4 then [] else [0x12])
  else []
def formShfl (w : AluW) : AluForm :=
  formCross [.vector] .vOnly .any .any .zero (fun m => field m 2 3 ≤ 4 && field m 5 1 = 0) (shflExtra w)

/-- The lane a SHFL reads for lane `i`, if it names one of its segment (R175). -/
def shflSource (mode width n i : Nat) : Option Nat :=
  let base := i - i % width
  match mode with
  | 0 => some (base + n % width)
  | 1 => if n < 32 && base + n ≤ i then some (i - n) else none
  | 2 => if n < 32 && i + n < base + width then some (i + n) else none
  | _ => some (Nat.xor i (n % width))

def shflResult (w : AluW) (g : Group) (cs : List (Nat × Reg32 × Reg32)) : CrossOut :=
  let width := 32 / 2 ^ shflWidth w
  let amount (b : Reg32) : Nat := if isImm w then b.toNat % 32 else b.toNat
  let value (c : Nat × Reg32 × Reg32) : Reg32 :=
    match shflSource (shflMode w) width (amount c.2.2) c.1 with
    | some j => match cs.find? fun d => d.1 = j with | some d => d.2.1 | none => c.2.1
    | none => c.2.1
  ⟨laneWrites g w (cs.map fun c => (c.1, value c)), []⟩
def execShfl (w : AluW) (s : State) : Out :=
  let f := formShfl w
  s.issueWord w.head (aluCheck f w) (crossGo f w (fun g => aluWrites g f w) (shflResult w) s)

/-! ### MATCH (R176) -/

/-- MATCH: md is a destination in OPB. -/
def formMatch (w : AluW) : AluForm :=
  formCross [.vector] .pred .any .raw .none (fun m => m < 2) (if isImm w then [] else dstDetails .vOnly w.opb)
def matchCheck (w : AluW) (g : Group) : WordCheck :=
  let k := aluCheck (formMatch w) w g
  { k with bound := fun l => k.bound l || boundFails g l 1 1 w.opb }
def sameKey (float : Bool) (x y : Reg32) : Bool :=
  if float then compareOp 0 (val32 x.toNat) (val32 y.toNat) else x = y
def matchResult (w : AluW) (g : Group) (cs : List (Nat × Reg32 × Reg32)) : CrossOut :=
  let float := w.mod = 1
  let cls (c : Nat × Reg32 × Reg32) : BitVec 32 :=
    maskOf fun l => l = c.1 || cs.any fun d => d.1 = l && sameKey float c.2.1 d.2.1
  ⟨cs.flatMap fun c =>
      dstWrites g c.1 false w.dst (boolWord ((lanesOf (cls c)).head? = some c.1)) ++
      dstWrites g c.1 false w.opb ((cls c).zeroExtend 64), []⟩
def execMatchKey (w : AluW) (s : State) : Out :=
  let f := formMatch w
  s.issueWord w.head (matchCheck w)
    (crossGo f w (fun g => aluWrites g f w ++ (lanesOf (issuing g)).flatMap fun l => regNames g l w.opb 1)
      (matchResult w) s)

/-! ### REDUX and SCAN (R177, R178) -/

def present (cs : List (Nat × Reg32 × Reg32)) (keep : Nat → Bool) : List (Option Reg32) :=
  (List.range 32).map fun i => if keep i then (cs.find? fun c => c.1 = i).map fun c => c.2.1 else none

def formRedux : AluForm :=
  formCross [.vector] .vOnly .any .none .none
    (fun m => field m 0 4 < 13 && (field m 4 2 = 0 || field m 0 4 = 8)) []
def reduxResult (w : AluW) (g : Group) (cs : List (Nat × Reg32 × Reg32)) : CrossOut :=
  let m := w.mod.toNat
  let r := reduceTree (reduceOp (field m 0 4) (rmOf (field m 4 2))) (present cs fun _ => true)
  ⟨laneWrites g w (cs.map fun c => (c.1, r.1.getD 0)), cs.map fun c => (c.1, r.2)⟩
def execRedux (w : AluW) (s : State) : Out :=
  s.issueWord w.head (aluCheck formRedux w) (crossGo formRedux w (fun g => aluWrites g formRedux w) (reduxResult w) s)

/-- SCAN: the empty value stands in OPB only with EXC, in a v or k register. DESIGN CHOICE (assumption log, entry 49):
a p register in OPB records 0x03 with or without EXC, and a relative register counts as a v register. -/
def formScan (w : AluW) : AluForm :=
  let exc := bitOf w.mod.toNat 4
  formCross [.vector] .vOnly .any (if exc then .any else .none) .none
    (fun m => field m 0 4 < 13 && field m 5 1 = 0)
    (match opdOf w.opb with | .p _ => [0x03] | _ => [])
def scanResult (w : AluW) (g : Group) (cs : List (Nat × Reg32 × Reg32)) : CrossOut :=
  let m := w.mod.toNat
  let exc := bitOf m 4
  let rs := cs.map fun c =>
    let r := reduceTree (reduceOp (field m 0 4) .rne) (present cs fun i => i < c.1 || (!exc && i = c.1))
    (c, r)
  ⟨laneWrites g w (rs.map fun r => (r.1.1, r.2.1.getD r.1.2.2)), rs.map fun r => (r.1.1, r.2.2)⟩
def execScan (w : AluW) (s : State) : Out :=
  let f := formScan w
  s.issueWord w.head (aluCheck f w) (crossGo f w (fun g => aluWrites g f w) (scanResult w) s)

end Sys2Proof.Machine
end

