-- ==== Sys2Proof/Machine/Processor.lean ====
section
/-!
DEFINITION. The command processor: queues and doorbells, the eight commands, launch records and their checks, buffer
handles, the start and the end of launches (R304, R391, R392, R425, R432, R438, R439, R444-R450, R453).
-/
namespace Sys2Proof.Machine

/-! ### Queues (R444, R445) -/

def Queue.enabled (q : Queue) : Bool := q.cfg.getLsbD 63
def Queue.ctx (q : Queue) : Nat := getField q.cfg 55 6
def Queue.slots (q : Queue) : Nat := 2 ^ (getField q.cfg 48 4 + 1)
def Queue.ahead (q : Queue) : Nat := (q.producer + 2 ^ 64 - q.consumer) % 2 ^ 64
def State.ctxOfQueue (s : State) (q : Nat) : Nat := ((s.queues[q]?).map Queue.ctx).getD 0

/-- The first half of a slot, or the second, of its bytes, and a whole slot. -/
def slotLow (bs : List Byte) : SlotLow :=
  let w (i : Nat) : Word64 := BitVec.ofNat 64 (natOfBytes ((bs.drop (8 * i)).take 8))
  { w0 := w 0, w1 := w 1, w2 := w 2, w3 := w 3, w4 := w 4, w5 := w 5, w6 := w 6, w7 := w 7 }
def slotOf (bs : List Byte) : QSlot := { low := slotLow bs, high := slotLow (bs.drop 64) }

/-- A slot's bytes, and the slot as one number with word 0 lowest. -/
def slotBytes (q : QSlot) : List Byte := (slotWords q).flatMap fun w => bytesOfNat 8 w.toNat
def slotNat (q : QSlot) : Nat := natOfBytes (slotBytes q)

/-- The command a slot holds (R446); any other code is taken as a LAUNCH slot, which it makes malformed. -/
def slotCode (q : QSlot) : Nat :=
  let c := getField q.low.w0 0 8
  if 2 ≤ c && c ≤ 8 then c else 1

/-- The unparsed slot at the head of a queue, as its ring holds it or, once it has been read, as it was read (R444): enabled, not halted, and its context has nothing to parse again. -/
def State.queueHead (s : State) (q : Nat) : Option QSlot :=
  match s.queues[q]? with
  | none => none
  | some qu =>
    if qu.enabled && !qu.halted && qu.ahead ≠ 0 && ((s.contexts[qu.ctx]?).any fun c => c.replay = []) then
      some (qu.held.getD (slotOf (bytesAt s.hostMem (getField qu.cfg 0 48 + 128 * (qu.consumer % qu.slots)) 128)))
    else none

/-- Whether a STEP would open one step too many even once its queue has moved on (R432). -/
def State.stepHeld (s : State) (q id : Nat) : Bool :=
  s.stepsFull id && !s.steps.any fun x => x.queue = some q && x.id ≠ id

/-- Whether a context's page table names a page on a die that is held in reset: nothing of it is read until the die is back
(R405). -/
def State.ctxDown (s : State) (ctx : Nat) : Bool :=
  (List.range s.dies.length).any fun d => ((s.dies[d]?).any fun x => x.state = .inReset) &&
    s.homesOn d 4 1 (((s.contexts[ctx]?).map Context.root).getD 0)

/-- Whether a LAUNCH is held back: a close of its context's interval is due (R425), or what it names cannot be read. -/
def State.launchHeld (s : State) (ctx : Nat) : Bool :=
  ((s.contexts[ctx]?).any fun c => c.closeDue && c.replay = []) || s.ctxDown ctx

/-- Whether a head command that has been read waits: what it waits for has not come, a LAUNCH is held back, or a STEP would open
a seventeenth step (R425, R432). -/
def State.headWaits (s : State) (q : Nat) (slot : QSlot) : Bool :=
  match s.queues[q]? with
  | none => true
  | some qu =>
    qu.wait ≠ .none || (qu.held.isSome &&
      ((slotCode slot = 1 && s.launchHeld qu.ctx) || (slotCode slot = 2 && s.stepHeld q (getField slot.low.w0 32 32))))

/-- The head command of a queue, read and kept while it waits for something (R444). -/
def State.holdHead (s : State) (q : Nat) (slot : QSlot) (w : QueueWait) : State :=
  s.modQueue q fun qu => { qu with held := some slot, wait := w }

/-- The command kept by a context that is to be parsed again next (R427). -/
def State.replayHead (s : State) (c : Nat) : Option (Nat × QSlot) :=
  match (s.contexts[c]?).bind fun x => x.replay.head? with
  | some k => if ((s.queues[k.queue]?).map Queue.halted) = some false && !s.headWaits k.queue k.slot then some (k.queue, k.slot) else none
  | none => none

/-- Class and priority of a queue, best first (R445), and the place of its round-robin turn. -/
def Queue.rank (q : Queue) : Nat := (if q.cfg.getLsbD 52 then 0 else 4) + getField q.cfg 53 2
def State.turnPlace (s : State) (q : Nat) : Nat :=
  let r := ((s.queues[q]?).map Queue.rank).getD 0
  (q + 63 - (s.lastQueue[r]?).getD 63) % 64

/-- The next command parsed: one kept by a rollback, else the head of the eligible queue that R445 picks. -/
def State.nextCommand (s : State) : Option (Nat × QSlot) :=
  match (List.range s.contexts.length).findSome? s.replayHead with
  | some k => some k
  | none =>
    let able := (List.range s.queues.length).filterMap fun q => match s.queueHead q with
      | some slot => if s.headWaits q slot then none else some (q, slot)
      | none => none
    let key (p : Nat × QSlot) : Nat := 64 * ((s.queues[p.1]?).map Queue.rank).getD 0 + s.turnPlace p.1
    (leastOf (able.map key)).bind fun k => able.find? fun p => key p = k

/-- A queue that has had its turn. -/
def State.tookTurn (s : State) (q : Nat) : State :=
  match s.queues[q]? with
  | some qu => { s with lastQueue := modAt s.lastQueue qu.rank fun _ => q }
  | none => s

/-- A queue halted with a status and a slot, its vector raised (R444, R448); and the command at its head refused, which is read
again when the queue resumes. -/
def State.halt (s : State) (q status : Nat) : State :=
  { s.modQueue q fun qu =>
      { qu with halted := true, status := BitVec.ofNat 8 status, refused := qu.consumer % qu.slots } with
    interrupts := s.interrupts ++ [⟨3 + q, s.ctxOfQueue q, 0, 0⟩] }
def State.refuse (s : State) (q status : Nat) : State := (s.halt q status).modQueue q fun qu => { qu with held := none }

/-- A command passed: the kept command gone, or the consumer index moved on and written back (R444). -/
def State.consume (s : State) (q : Nat) : State :=
  let c := s.ctxOfQueue q
  match s.contexts[c]?, s.queues[q]? with
  | some x, some qu =>
    if x.replay ≠ [] then (s.modQueue q fun qu => { qu with held := none }).modContext c fun x => { x with replay := x.replay.tail }
    else
      let n := (qu.consumer + 1) % 2 ^ 64
      { s.modQueue q fun qu => { qu with consumer := n, held := none } with
        hostMem := putBytes s.hostMem qu.cons.toNat (bytesOfNat 8 n) }
  | _, _ => s

/-- The seed under which a queue's head is parsed: its own, or the recorded one (R427). -/
def State.seedFor (s : State) (q : Nat) : Word64 :=
  match (s.contexts[s.ctxOfQueue q]?).bind fun x => x.replay.head? with
  | some k => k.seed
  | none => ((s.queues[q]?).map Queue.seed).getD 0

/-- A command accepted: kept for a rollback when it is a launch, or follows one in the interval (R425), and passed. -/
def State.accept (s : State) (q : Nat) (slot : QSlot) (launch : Option Nat) : State :=
  (s.modContext (s.ctxOfQueue q) fun c =>
    if launch.isSome || c.kept ≠ [] then { c with kept := c.kept ++ [⟨q, slot, s.seedFor q, launch⟩] } else c).consume q

/-- The meaning of a command: it acts when it is the next one parsed; a malformed one is refused (R446). -/
def State.command (s : State) (q : Nat) (slot : QSlot) (code : Nat) (ok : Bool) (act : State → State) : Out :=
  if s.nextCommand = some (q, slot) && slotCode slot = code then
    .next (if ok then act (s.tookTurn q) else (s.tookTurn q).refuse q 1)
  else .next s

/-- What the PCI Express function does once the part has booted; until then, and after a boot that failed, it offers its DOE
mailbox and `TDIE_BOOTST` alone (R406). -/
def State.whenBooted (s s' : State) : Out := .next (if s.tdie.done then s' else s)

/-- DOORBELL (R444): the producer index; one that runs too far ahead halts the queue. -/
def execDoorbell (q : Nat) (index : BitVec 64) (s : State) : Out :=
  match s.queues[q]? with
  | none => .next s
  | some qu =>
    let s1 := s.modQueue q fun qu => { qu with producer := index.toNat }
    s.whenBooted (if qu.slots < ({ qu with producer := index.toNat } : Queue).ahead then s1.halt q 1 else s1)

/-! ### Commands with their operands (R446) -/

/-- Whether a slot has no bit outside a mask of its first three words. -/
def slotOnly (slot : QSlot) (m0 m1 m2 : Word64) : Bool :=
  slot.low.w0 &&& ~~~m0 = 0 && slot.low.w1 &&& ~~~m1 = 0 && slot.low.w2 &&& ~~~m2 = 0 &&
  ((slotWords slot).drop 3).all (· = 0)

def slotHandle (slot : QSlot) : Nat := getField slot.low.w0 16 12

def State.bufHandle? (s : State) (h : Nat) : Option BufHandle := (s.handles.find? fun e => e.1 = h).map Prod.snd
/-- A handle entered, or removed, in the table. -/
def BufHandle.none : BufHandle := ⟨0, 0, 0, false, .none, [], false⟩
def State.putHandle (s : State) (h : Nat) (b : BufHandle) : State :=
  { s with handles := Cells.put BufHandle.none s.handles h b }

/-- Whether a launch has ended (R391). -/
def launchEnded (l : Launch) : Bool :=
  match l.state with | .waiting | .running => false | .done | .conflict | .killed => true
def State.ended (s : State) (li : Nat) : Bool := ((s.launches[li]?).map launchEnded).getD true

/-- Whether every launch of a queue, or of a context, among the first `n` has ended. -/
def State.allEnded (s : State) (n : Nat) (which : Launch → Bool) : Bool :=
  (s.launches.take n).all fun l => !which l || launchEnded l

/-- SEED: the queue's seed for its later launches; writes a SEED record. -/
def execSeed (q : Nat) (slot : QSlot) (s : State) : Out :=
  s.command q slot 3 (slotOnly slot 0xFF (BitVec.allOnes 64) 0) fun s =>
    (((s.modQueue q fun qu => { qu with seed := slot.low.w1 }).record 0x04 q 0 (bytesOfNat 8 slot.low.w1.toNat)).accept q slot none)

/-- WAITH: passes at once when the handle's last writer has ended, else its queue waits for it. What is parsed after it depends on
that writer: the L1 of every core is invalidated, and its start acquires (R392). -/
def execWaith (q : Nat) (slot : QSlot) (s : State) : Out :=
  s.command q slot 4 (slotOnly slot 0x0FFF00FF 0 0) fun s =>
    match (s.bufHandle? (slotHandle slot)).bind BufHandle.writer with
    | some l => if s.ended l then { s.accept q slot none with l1 := [] } else s.holdHead q slot (.writer l)
    | none => s.accept q slot none

/-- The command with which a queue waits, as it was read (R444). -/
def State.waitingSlot (s : State) (q : Nat) : QSlot := ((s.queues[q]?).bind Queue.held).getD (slotOf [])

/-- A waiting head command that is done. -/
def State.endWait (s : State) (q : Nat) : State :=
  (s.modQueue q fun qu => { qu with wait := .none }).accept q (s.waitingSlot q) none

/-- WAITH_RELEASE: the writer that the subject queue waits for has ended. -/
def execWaithRelease (s : State) : Out :=
  match (s.queues[s.subject]?).map Queue.wait with
  | some (.writer l) => .next (if s.ended l then { s.endWait s.subject with l1 := [] } else s)
  | _ => .next s

/-- SIGNAL: parsed at once; its write waits for the launches parsed before it from its queue. -/
def execSignal (q : Nat) (slot : QSlot) (s : State) : Out :=
  s.command q slot 5 (slotOnly slot 0x1FF (BitVec.allOnes 64) (BitVec.allOnes 64) && getField slot.low.w1 0 3 = 0) fun s =>
    (s.modQueue q fun qu =>
      { qu with signals := qu.signals ++ [(slot.low.w0.getLsbD 8, slot.low.w1, slot.low.w2, s.launches.length)] }).accept q slot none

/-- SIGNAL_WRITE: the subject queue's oldest signal, once its launches have ended. -/
def execSignalWrite (s : State) : Out :=
  let q := s.subject
  match s.queues[q]? with
  | none => .next s
  | some qu => match qu.signals with
    | [] => .next s
    | x :: r =>
      if s.allEnded x.2.2.2 fun l => l.queue = q then
        .next { s.modQueue q (fun qu => { qu with signals := r }) with
          hostMem := putBytes s.hostMem x.2.1.toNat (bytesOfNat 8 x.2.2.1.toNat)
          interrupts := if x.1 then s.interrupts ++ [⟨3 + q, qu.ctx, 0, 0⟩] else s.interrupts }
      else .next s

/-- CKPT (R425): the context's interval is due to close. -/
def execCkpt (q : Nat) (slot : QSlot) (s : State) : Out :=
  s.command q slot 6 (slotOnly slot 0xFF 0 0) fun s =>
    (s.modContext (s.ctxOfQueue q) fun c => { c with closeDue := true }).accept q slot none

/-- Whether some unended launch lists a handle (R450). -/
def State.listed (s : State) (h : Nat) : Bool :=
  s.launches.any fun l => !launchEnded l && (l.reads.contains h || l.writes.contains h)

/-- A handle's new extent, or its removal; the first launch to read it owes an INPUT record (R428). -/
def State.setExtent (s : State) (ctx h : Nat) (hv : Bool) (base len : Nat) : State :=
  s.putHandle h (if len = 0 then BufHandle.none
    else { ((s.bufHandle? h).getD BufHandle.none) with ctx := ctx, base := base, len := len, hv := hv, dirtyInput := true })

/-- HANDLE (R450): applies at once, or waits for the launches that list the handle. -/
def execHandle (q : Nat) (slot : QSlot) (s : State) : Out :=
  let h := slotHandle slot
  let base := slot.low.w1.toNat
  let len := slot.low.w2.toNat
  let hv := slot.low.w0.getLsbD 28
  s.command q slot 7
    (slotOnly slot 0x1FFF00FF (BitVec.allOnes 64) (BitVec.allOnes 64) && base % 128 = 0 && base < 2 ^ 48 && base + len ≤ 2 ^ 48) fun s =>
      if s.listed h then s.holdHead q slot (.register h hv base len)
      else (s.setExtent (s.ctxOfQueue q) h hv base len).accept q slot none

/-- HANDLE_APPLY: no unended launch lists the handle any more. -/
def execHandleApply (s : State) : Out :=
  let q := s.subject
  match (s.queues[q]?).map Queue.wait with
  | some (.register h hv base len) =>
    .next (if s.listed h then s else (s.setExtent (s.ctxOfQueue q) h hv base len).endWait q)
  | _ => .next s

/-- Cached entries of a context that meet a range dropped on every die; length 0 is the whole context (R453). -/
def State.dropTrans (s : State) (ctx base len : Nat) : State :=
  { s with dies := s.dies.map fun d => { d with
      tlb := d.tlb.filter fun e => !(e.ctx = ctx && (len = 0 || (base < e.page + e.size && e.page < base + len))) } }

/-- INVTLB (R453): drops entries at once, or waits for the context's launches parsed before it. -/
def execInvtlb (q : Nat) (slot : QSlot) (s : State) : Out :=
  let base := slot.low.w1.toNat
  let len := slot.low.w2.toNat
  s.command q slot 8 (slotOnly slot 0xFF (BitVec.allOnes 64) (BitVec.allOnes 64) && base % 65536 = 0 && base < 2 ^ 48 && base + len ≤ 2 ^ 48) fun s =>
    let c := s.ctxOfQueue q
    if (s.allEnded s.launches.length fun l => l.ctx = c) && !s.enginesBusy c then (s.dropTrans c base len).accept q slot none
    else s.holdHead q slot (.inval base len s.launches.length)

/-- INVTLB_EXECUTE: the launches it waited for have ended, and the context has no engine command outstanding (R312). -/
def execInvtlbExecute (s : State) : Out :=
  let q := s.subject
  let c := s.ctxOfQueue q
  match (s.queues[q]?).map Queue.wait with
  | some (.inval base len before) =>
    .next (if (s.allEnded before fun l => l.ctx = c) && !s.enginesBusy c then (s.dropTrans c base len).endWait q else s)
  | _ => .next s

/-- A queue that has parsed a LAUNCH or STEP no longer declares its other steps (R432). -/
def State.moveOn (s : State) (q id : Nat) : State :=
  { s with steps := s.steps.map fun x => if x.queue = some q && x.id ≠ id then { x with queue := none } else x }

/-- Steps that are closed: their queue has moved on, and no launch of theirs is unended (R432). One that was still open when its
deadline passed owes a GOV record, unless it has had it (R438). -/
def State.closeSteps (s : State) : State :=
  let stays (x : StepRec) : Bool := x.queue.isSome || s.launches.any fun l => !launchEnded l && l.steps.contains x.id
  let owing := (s.steps.filter fun x => !stays x && x.deadline < s.timer.toNat && !x.overrun).map StepRec.id
  { s with steps := s.steps.filter stays, overdue := s.overdue ++ owing }

/-- STEP (R432). While it would open a seventeenth step it stays at the head of its queue. -/
def execStep (q : Nat) (slot : QSlot) (s : State) : Out :=
  let id := getField slot.low.w0 32 32
  let budget := slot.low.w1.toNat
  s.command q slot 2
    (slotOnly slot 0xFFFFFFFF000000FF 0xFFFFFFFF 0 && 1 ≤ id && 1 ≤ budget && budget ≤ 1000000) fun s =>
      let s1 := (s.moveOn q id).closeSteps
      if s1.stepsFull id then s1.holdHead q slot .none else (s1.declareStep q 0 id budget (some q)).accept q slot none

/-! ### Launch records (R447) -/

def recTask (r : Nat) : Bool := bitOf r 8
def recOrdered (r : Nat) : Bool := bitOf r 9
def recCoop (r : Nat) : Bool := bitOf r 10
def recCount (r : Nat) : Nat := field r 192 24 * field r 216 12 * field r 228 12

/-- Bits of a launch record that must be zero: low bit and length of each run. -/
def recReserved : List (Nat × Nat) :=
  [(12, 4), (28, 4), (112, 16), (188, 4), (249, 7), (304, 16), (368, 16), (496, 16), (560, 16), (608, 32), (688 + 12, 324)]

/-- Whether a slot is a well-formed launch record. -/
def recOk (r : Nat) : Bool :=
  field r 0 8 = 1 && (recReserved.all fun x => field r x.1 x.2 = 0) &&
  1 ≤ field r 192 24 && 1 ≤ field r 216 12 && 1 ≤ field r 228 12 && recCount r < 2 ^ 24 &&
  1 ≤ field r 240 4 && field r 240 4 ≤ 8 && field r 244 5 ≤ 16 && field r 320 16 = 0 && field r 384 4 = 0 &&
  field r 448 6 = 0 && field r 512 6 = 0 && field r 640 1 = 0 &&
  (if recTask r then field r 216 12 = 1 && field r 228 12 = 1 && field r 240 4 = 1 && field r 244 5 = 0
   else field r 448 48 = 0)

/-! ### The checks of a launch (R415, R439, R448) -/

/-- Teams of a kernel that are resident together on one empty core (R201). -/
def coreHolds (k : Kernel) : Nat :=
  ((List.range 9).reverse.find? fun n => n ≤ coreLimit k && packs (planOf k) n 0 (List.replicate 8 (0, 0))).getD 0

/-- Cluster-teams of `r` ranks and, beside them, whole ones of `cts` that `m` cores of `hold` teams each take with `cbar`
barriers each; `r` is 0 for none. -/
def clusterHolds (m hold cts cbar r : Nat) : Nat :=
  let ok (n : Nat) : Bool :=
    let teams := n + if r = 0 then 0 else 1
    n * cts + r ≤ m * min hold teams && (n = 0 || cts ≤ m) && r ≤ m && teams * cbar ≤ 16
  ((List.range 65).reverse.find? ok).getD 0

/-- Whether a free cooperative launch can be wholly resident on the clusters of its class (R448, status 0x05). -/
def State.gridFits (s : State) (classA : Bool) (k : Kernel) (n cts cbar : Nat) : Bool :=
  let hold := coreHolds k
  let cores := ((List.range s.clusters.length).map fun c =>
    ((List.range 8).filter fun i => s.coreServes (8 * c + i) classA).length)
  let full := (cores.map fun m => clusterHolds m hold cts cbar 0).sum
  let r := n % cts
  if r = 0 then n / cts ≤ full
  else cores.any fun m =>
    0 < hold && r ≤ m && cbar ≤ 16 && n / cts ≤ full - clusterHolds m hold cts cbar 0 + clusterHolds m hold cts cbar r

/-- Whether a kernel breaks the rules of a task kernel (R298). -/
def taskBad (k : Kernel) (ord : Bool) : Bool :=
  !(1 ≤ k.threads && k.threads ≤ 32 && k.cgrp = 0 && k.mgrp = 0 && k.vgrp ≤ 1 && k.paramSz ≤ 12 && k.ord = ord)

/-- Whether a fallback's kernel is one R439 allows: the same ORD, and no resource of R201 beyond the primary's. -/
def fallbackOk (k f : Kernel) : Bool :=
  let load (x : Kernel) (p : Nat) : Nat × Nat := planLoad ((groupPlan x).map fun g => g.2.1) 0 p
  f.ord = k.ord && banksNeeded f ≤ banksNeeded k && f.obuf ≤ k.obuf && f.tiles ≤ k.tiles &&
  (startRings f).length ≤ (startRings k).length &&
  (List.range 8).all fun p => (load f p).1 ≤ (load k p).1 && (load f p).2 ≤ (load k p).2

/-- Whether a code section holds a `BAR` word with LVL 011. -/
def hasGridBar (code : List Word64) : Bool :=
  code.any fun w => getField w 62 2 = 0 && getField w 54 8 = 0xF6 && getField w 5 3 = 3

/-- The entries of a handle list, when it can be read: handle, R, W. -/
def State.handleList (s : State) (ctx r : Nat) : Option (List (Nat × Bool × Bool)) :=
  let n := field r 688 12
  (s.ctxRead ctx (field r 640 48) (2 * n)).map fun bs => (List.range n).map fun i =>
    let e := natOfBytes ((bs.drop (2 * i)).take 2)
    (field e 0 12, bitOf e 12, bitOf e 13)

/-- Whether a handle list breaks status 0x08. -/
def State.handlesBad (s : State) (es : List (Nat × Bool × Bool)) : Bool :=
  es.any (fun e => (s.bufHandle? e.1).isNone || !(e.2.1 || e.2.2)) || (es.map Prod.fst).eraseDups.length ≠ es.length

/-- Whether an extent is mapped with a permission in a context. -/
def State.mapped (s : State) (ctx : Nat) (need : Need) (va n : Nat) : Bool :=
  n = 0 || (va + n ≤ 2 ^ 48 && (s.extentVerdict noDie ctx need va n).isNone)

/-- The extents of a launch record, each with what it must allow (status 0x09). -/
def recExtents (r : Nat) (k : Kernel) : List (Need × Nat × Nat) :=
  let threads := if recTask r then 32 else k.threads
  [(needR, field r 256 48, if recTask r then 0 else k.paramSz),
   (needRW, field r 320 48, field r 384 32 * threads * recCount r),
   (needR, field r 448 48, if recTask r then 64 * recCount r else 0),
   (needRW, field r 512 48, 64 * field r 576 32),
   (needR, field r 640 48, 2 * field r 688 12)]

/-- What a launch record names, once its first two checks pass: its object, kernel and fallback. -/
structure LaunchPlan where
  obj : CodeObject
  kernel : Kernel
  fallback : Option Kernel
deriving DecidableEq, Repr

def State.launchPlan (s : State) (ctx r : Nat) : Option LaunchPlan :=
  match s.objectAt ctx (field r 64 48) with
  | none => none
  | some o => match o.kernels[field r 16 12]? with
    | none => none
    | some k =>
      if field r 128 48 = 0 then some ⟨o, k, none⟩
      else match (s.objectAt ctx (field r 128 48)).bind fun f => f.kernels[field r 176 12]? with
        | some f => some ⟨o, k, some f⟩
        | none => none

/-- Whether a cooperative launch fails its residency test (R415, R448). -/
def State.coopBad (s : State) (classA : Bool) (r : Nat) (k : Kernel) : Bool :=
  recCoop r &&
  (if recOrdered r then coreHolds k < (recCount r + 143) / 144
   else !s.gridFits classA k (recCount r) (field r 240 4) (field r 244 5))

/-- The status that refuses a launch record, the first that applies, or 0 (R448). DESIGN CHOICE (assumption log, entry
50): a resource record outside its Values column that R448 gives no status is not refused. -/
def State.launchStatus (s : State) (ctx : Nat) (classA : Bool) (r : Nat) : Nat :=
  if !recOk r then 1
  else match s.launchPlan ctx r with
    | none => 2
    | some p =>
      let k := p.kernel
      let hs := s.handleList ctx r
      if !fitsEmpty k || (recTask r && taskBad k (recOrdered r)) then 3
      else if recOrdered r != k.ord || bitOf r 11 != k.idem || (recOrdered r && !([1, 2, 4, 8] : List Nat).contains (field r 240 4)) then 4
      else if s.coopBad classA r k then 5
      else if !recCoop r && hasGridBar p.obj.code then 6
      else if (p.fallback.any fun f => !fallbackOk k f) then 7
      else if (hs.any s.handlesBad) then 8
      else if hs.isNone || (recExtents r k).any (fun x => !s.mapped ctx x.1 x.2.1 x.2.2) then 9
      else 0

/-! ### Parsing a launch (R392, R428, R438, R449, R450) -/

/-- The earlier launches that a launch depends on through its handle list (R392). -/
def State.depsOf (s : State) (es : List (Nat × Bool × Bool)) : List Nat :=
  (es.flatMap fun e => match s.bufHandle? e.1 with
    | none => []
    | some b => b.writer.toList ++ if e.2.2 then b.readers else []).eraseDups

/-- A handle's record of writers and unended readers after a launch lists it (R450). -/
def listHandle (li : Nat) (ended : Nat → Bool) (w : Bool) (b : BufHandle) : BufHandle :=
  if w then { b with writer := some li, readers := [] }
  else { b with readers := b.readers.filter (fun l => !ended l) ++ [li] }
def State.listHandles (s : State) (li : Nat) (es : List (Nat × Bool × Bool)) : State :=
  es.foldl (fun s e => match s.bufHandle? e.1 with
    | some b => s.putHandle e.1 (listHandle li s.ended e.2.2 b)
    | none => s) s

/-- An INPUT or OUTPUT record of a handle: its extent and the hash of its bytes (R428). -/
def State.extentRecord (s : State) (type : Nat) (l : Launch) (x : Nat × Nat × Nat) : State :=
  let bytes := s.readVa s.teams.length noDie l.ctx x.2.1 x.2.2
  s.record type l.queue l.num.toNat (bytesOfNat 2 x.1 ++ bytesOfNat 6 x.2.2 ++ digestBytes (sha256 bytes))

/-- The INPUT records that a launch owes. -/
def State.inputRecords (s : State) (l : Launch) : State :=
  l.reads.foldl (fun s h => match s.bufHandle? h with
    | some b =>
      if b.dirtyInput then (s.extentRecord 0x02 l (h, b.base, b.len)).putHandle h { b with dirtyInput := false } else s
    | none => s) s

/-- The launch a record parses to; one that a rollback has parsed again keeps its number (R427). -/
def State.newLaunch (s : State) (q : Nat) (slot : QSlot) (p : LaunchPlan) (es : List (Nat × Bool × Bool)) : Launch :=
  let r := slotNat slot
  let ctx := s.ctxOfQueue q
  let step := field r 32 32
  let old := ((s.contexts[ctx]?).bind fun c => c.replay.head?).bind Kept.launch
  let ordinal := ((old.bind fun li => s.launches[li]?).map Launch.ordinal).getD s.launchCount
  { ordinal := ordinal, num := BitVec.ofNat 16 ordinal, queue := q, ctx := ctx, slot := slot,
    classA := ((s.queues[q]?).map fun qu => qu.cfg.getLsbD 52).getD false, kernel := p.kernel, kernels := p.obj.kernels,
    code := p.obj.code, codeVa := p.obj.codeVa, dataVa := p.obj.dataVa,
    params := if recTask r then [] else (s.ctxRead ctx (field r 256 48) p.kernel.paramSz).getD [],
    const := p.obj.const, seed := s.seedFor q, deps := s.depsOf es, reads := (es.filter fun e => e.2.1).map Prod.fst,
    writes := (es.filter fun e => e.2.2).map Prod.fst,
    extents := es.filterMap fun e => if e.2.2 then (s.bufHandle? e.1).map fun b => (e.1, b.base, b.len) else none,
    handlerCode := none,
    steps := if step = 0 then [] else [step], fallback := p.fallback.map fun _ => (field r 128 48, field r 176 12),
    state := .waiting, interval := ((s.contexts[ctx]?).map Context.interval).getD 0 }

/-- A launch of a switched step, parsed after the switch, runs its fallback (R438). In replay mode the launches that the
replayed stream's FALLBACK records name run theirs, and no others (R430, R439). -/
def State.lateSwitch (s : State) (li : Nat) (l : Launch) : State :=
  if l.fallback.isNone then s
  else if s.regs.replay then (if s.replaying.contains l.ordinal then s.switchLaunch (l.steps.headD 0) li else s)
  else match s.steps.find? fun x => l.steps.contains x.id && x.switched with
    | some x => s.switchLaunch x.id li
    | none => s

/-- A launch record accepted. -/
def State.parseLaunch (s : State) (q : Nat) (slot : QSlot) (p : LaunchPlan) (es : List (Nat × Bool × Bool)) : State :=
  let l := s.newLaunch q slot p es
  let li := s.launches.length
  let r := slotNat slot
  let s1 : State := { s with launches := s.launches ++ [l], launchCount := max s.launchCount (l.ordinal + 1) }
  let s2 := (s1.listHandles li es).record 0x01 q l.num.toNat
    (digestBytes (sha256 (slotBytes slot)) ++ bytesOfNat 4 (field r 32 32) ++ bytesOfNat 1 (field r 8 8))
  ((((s2.inputRecords l).moveOn q (field r 32 32)).closeSteps).lateSwitch li l).accept q slot (some li)

/-- LAUNCH (R447-R449). -/
def execLaunch (q : Nat) (slot : QSlot) (s : State) : Out :=
  if s.nextCommand = some (q, slot) && slotCode slot = 1 then
    let s1 := s.tookTurn q
    let ctx := s.ctxOfQueue q
    let r := slotNat slot
    if s.launchHeld ctx then .next (s.holdHead q slot .none)
    else
    let status := s.launchStatus ctx (((s.queues[q]?).map fun qu => qu.cfg.getLsbD 52).getD false) r
    .next (if status ≠ 0 then s1.refuse q status
      else match s.launchPlan ctx r, s.handleList ctx r with
        | some p, some es => s1.parseLaunch q slot p es
        | _, _ => s1.refuse q 2)
  else .next s

/-! ### The start of a launch (R211, R304, R349, R392, R411) -/

/-- The clusters of a die that may take a launch, rising. -/
def State.dieClusters (s : State) (d : Nat) (classA : Bool) : List Nat :=
  ((List.range 6).map (6 * d + ·)).filter fun c => s.clusterServes c classA

/-- The shares of a launch's `g` cluster-teams, by cluster: first index and the index after the last (R304). -/
def State.dividedShares (s : State) (g : Nat) (classA : Bool) : List (Nat × Nat × Nat) :=
  let per := (List.range s.dies.length).map fun d => s.dieClusters d classA
  let k := (per.map List.length).sum
  (List.range per.length).flatMap fun d =>
    let cs := per.getD d []
    let before := ((per.take d).map List.length).sum
    let a := before * g / k
    let m := (before + cs.length) * g / k - a
    cs.mapIdx fun j c => (c, a + j * m / cs.length, a + (j + 1) * m / cs.length)

/-- A launch's shares handed to their clusters. -/
def State.handShares (s : State) (li : Nat) (l : Launch) : State :=
  let g := (l.teamCount + l.cts - 1) / l.cts
  (s.dividedShares g l.classA).foldl (fun s x =>
    if x.2.1 < x.2.2 then s.modCluster x.1 fun c => { c with shares := c.shares ++ [⟨li, x.2.1, x.2.2⟩] } else s) s

/-- Whether every live die has a die barrier free (R349). -/
def State.barriersFree (s : State) : Bool := s.dies.all fun d => d.state ≠ .live || d.barriers.length < 4

/-- Whether a parsed launch may start. -/
def State.mayStart (s : State) (l : Launch) : Bool :=
  l.state = .waiting && l.deps.all s.ended && !s.ctxDown l.ctx && ((s.contexts[l.ctx]?).any fun c => c.created) &&
  ((List.range s.clusters.length).any fun c => s.clusterServes c l.classA) && (!l.coop || s.barriersFree)

/-- The code that fetch sees from a launch's start (R211). -/
def State.refetch (s : State) (l : Launch) : Launch :=
  match s.ctxRead l.ctx l.codeVa (8 * l.code.length) with
  | some bs => { l with code := wordsOf bs }
  | none => l

/-- The handler object's code that a launch's handlers run (R60, R211). -/
def State.handlerCodeOf (s : State) (ctx : Nat) : Option (List Word64 × Nat) :=
  (s.objectAt ctx (((s.contexts[ctx]?).map Context.hobj).getD 0)).map fun o => (o.code, o.codeVa)

/-- LAUNCH_START (R392): the subject launch starts once the launches it depends on have ended; L1s are invalidated for
them, and its cluster-teams or billets are divided. -/
def execLaunchStart (s : State) : Out :=
  let li := s.subject
  match s.launches[li]? with
  | none => .next s
  | some l =>
    if !s.mayStart l then .next s
    else
      let s1 : State := if l.deps = [] then s else { s with l1 := [] }
      let s2 := s1.modLaunch li fun l => { s1.refetch l with state := .running, handlerCode := s1.handlerCodeOf l.ctx }
      let s3 : State := if l.coop then
          { s2 with dies := s2.dies.map fun d => if d.state = .live then { d with barriers := d.barriers ++ [li] } else d }
        else s2
      .next (if l.ordered then s3 else s3.handShares li l)

/-- The OUTPUT records of a launch that has ended (R428). -/
def State.outputRecords (s : State) (l : Launch) : State := l.extents.foldl (fun s x => s.extentRecord 0x03 l x) s

/-! ### Queue control (R448, R454) -/

/-- QCTL_RESUME: the subject queue, halted, parses its slot again. -/
def execQctlResume (s : State) : Out := .next (s.modQueue s.subject fun q => { q with halted := false })

/-- QCTL_RESUME_SKIP: and passes over the slot it refused, if it refused one. -/
def execQctlResumeSkip (s : State) : Out :=
  let q := s.subject
  match s.queues[q]? with
  | some qu =>
    if qu.halted then
      let s1 := s.modQueue q fun q => { q with halted := false }
      .next (if qu.ahead ≠ 0 || ((s.contexts[qu.ctx]?).any fun c => c.replay ≠ []) then s1.consume q else s1)
    else .next s
  | none => .next s

/-- QCTL_KILL: every unended launch of the subject queue ends. -/
def execQctlKill (s : State) : Out :=
  let q := s.subject
  let ls := s.launches.filter fun l => l.queue = q && !launchEnded l
  .next ((ls.foldl State.outputRecords (s.killLaunches fun l => l.queue = q)).closeSteps)

/-- QCTL_PREEMPT: the subject queue's resident teams are pre-empted (R285). -/
def execQctlPreempt (s : State) : Out :=
  .next ((List.range s.teams.length).foldl (fun s u => match s.teams[u]?, s.launchOf u with
    | some t, some l => if l.queue = s.subject && t.residency = .resident && t.preempt = .none then s.preemptTeam u else s
    | _, _ => s) s)

end Sys2Proof.Machine
end

