-- ==== Sys2Proof/Machine/Device.lean ====
section
/-!
DEFINITION. What the host and peers do to the part beside queues: register writes, context control, invalidations, BAR4
requests and SPDM messages (R5, R404, R407, R408, R413, R451, R453, R454, R457, R459).
-/
namespace Sys2Proof.Machine

/-! ### Registers without an action of their own (R5) -/

/-- A value written to a register that takes only some values; what any other leaves there is not stated. -/
def State.written (s : State) (ok : Bool) (v : Word64) : Word64 := if ok then v else Config.registerValue s.fresh

/-- `CMDP_QCFG` written: EN takes effect only while the queue holds no unparsed slot, and enabling clears the seed. -/
def writeQcfg (v : Word64) (q : Queue) : Queue :=
  let v := v &&& 0x9FFFFFFFFFFFFF80
  let en := if q.ahead = 0 then v.getLsbD 63 else q.enabled
  { q with cfg := setField v 63 1 (if en then 1 else 0), seed := if en && !q.enabled then 0 else q.seed }

/-- `CMDP_QCFG` q: a LOGNM1 of 0 to 2 halts the queue. -/
def State.configQueue (s : State) (q : Nat) (v : Word64) : State :=
  let s1 := s.modQueue q (writeQcfg v)
  if getField v 48 4 < 3 && q < s.queues.length then s1.halt q 1 else s1

/-- Registers of the command processor that hold one value. -/
def writeDev (s : State) (reg : DevReg) (v : Word64) (r : DevRegs) : DevRegs :=
  let n := v.toNat
  match reg with
  | .ctxbase => { r with ctxbase := BitVec.ofNat 48 (n / 4096 * 4096) }
  | .invlen => { r with invlen := v.truncate 48 }
  | .obbase => { r with obbase := v }
  | .ibmap => { r with ibmap := v &&& 0x01FFFFFFC0000000 }
  | .parkth => { r with parkth := (s.written (field n 0 7 ≤ 100) v).truncate 7 }
  | .drainth => { r with drainth := v.truncate 16 }
  | .classa => { r with classa := v.truncate 18 }
  | .ckptiv => { r with ckptiv := (s.written (1 ≤ field n 0 10 && field n 0 10 ≤ 1000) v).truncate 10 }
  | .rbmax => { r with rbmax := (s.written (1 ≤ field n 0 4) v).truncate 4 }
  | .mlog => { r with mlog := (s.written (64 ≤ field n 0 16 && field n 0 16 ≤ 16384) v).truncate 16 }
  | .guard => { r with guard := v.truncate 16 }
  | .plim => { r with plim := (s.written (200 ≤ field n 0 9 && field n 0 9 ≤ 480) v).truncate 9 }
  | .defop => { r with defop := (s.written (field n 0 4 ≤ 9) v).truncate 4 }
  | .uncmin => { r with uncmin := (s.written (field n 0 4 ≤ 9) v).truncate 4 }
  | .tthr => { r with tthr := (s.written (60 ≤ field n 0 8 && field n 0 8 ≤ 125) v).truncate 8 }
  | .replay => { r with replay := v.getLsbD 0 }
  | _ => r

/-- Registers of one live die. -/
def writeDie (s : State) (reg : DevReg) (v : Word64) (d : Die) : Die :=
  let n := v.toNat
  match reg with
  | .undo _ => { d with undo := (s.written (256 ≤ field n 0 16 && field n 0 16 ≤ 8192) v).truncate 16 }
  | .mcres _ => { d with mcres := v.truncate 6 }
  | .scrub _ => { d with scrub := (s.written (1 ≤ field n 0 8) v).truncate 8 }
  | _ => d

/-- REGISTER_WRITE: the field takes its value, reserved bits are ignored, and a read-only register keeps its own (R5). -/
def execRegisterWrite (reg : DevReg) (value : BitVec 64) (s : State) : Out :=
  s.whenBooted (match reg with
    | .qcfg q => s.configQueue q value
    | .qcons q => s.modQueue q fun x => { x with cons := BitVec.ofNat 48 (field value.toNat 0 48 / 8 * 8) }
    | .qstat q => s.modQueue q fun x => { x with
        status := (s.written (field value.toNat 0 8 ≤ 9) value).truncate 8, refused := field value.toNat 16 16 }
    | .undo d | .mcres d | .scrub d => s.draw.modDie d (writeDie s reg value)
    | .readOnly _ => s
    | _ => { s.draw with regs := writeDev s reg value s.regs })

/-- CDIE_STALE_CLEAR and CDIE_CE_CLEAR: the subject die's counts. -/
def execCdieStaleClear (s : State) : Out := s.whenBooted (s.modDie s.subject fun d => { d with stale := 0 })
def execCdieCeClear (s : State) : Out := s.whenBooted (s.modDie s.subject fun d => { d with ce := 0 })

/-- ERRLOG_READ: the oldest entry is removed. -/
def execErrlogRead (s : State) : Out := s.whenBooted { s with errlog := s.errlog.tail }

/-! ### Contexts (R408, R451, R454) -/

/-- A context as its record describes it. -/
def contextOf (r now : Nat) : Context :=
  { Context.reset with
    created := true, root := field r 0 48, htab := field r 64 48, hobj := field r 128 48, save := field r 192 48,
    saveSz := field r 256 16, opened := now }

/-- CTXCTL_CREATE: the subject context's record is read and its keys are loaded. -/
def execCtxctlCreate (s : State) : Out :=
  let c := s.subject
  if ((s.contexts[c]?).map Context.created) = some false then
    s.whenBooted
      (s.modContext c fun _ => contextOf (natOfBytes (s.homeBytes 0 (s.regs.ctxbase.toNat + 64 * c) 64)) s.timer.toNat).dueByUndo
  else .next s

/-- The stops of a context that the host holds (R282): their clusters with them, in order. -/
def State.halted (s : State) (ctx : Nat) : List (Nat × Stop) :=
  (List.range s.clusters.length).flatMap fun c => match s.clusters[c]? with
    | none => []
    | some cl => (cl.stops.filter fun st =>
        ((s.launchOf st.team).map Launch.ctx) = some ctx && getField (s.stopSsw0 st) 8 1 = 1).map fun st => (c, st)

/-- CTXCTL_RESUME: as a TRET on the subject context's first held stop; the context runs on when none is left. -/
def execCtxctlResume (s : State) : Out :=
  let ctx := s.subject
  if ((s.contexts[ctx]?).map Context.stopped) = some true then
    match s.halted ctx with
    | [] => .next (s.modContext ctx fun c => { c with stopped := false })
    | x :: r =>
      let s1 := s.modCluster x.1 fun c => { c with stops := c.stops.filter (· ≠ x.2) }
      let s2 := s1.modContext ctx fun c => { c with stopped := r ≠ [] }
      .next (s2.returnFromStop x.2.team x.2.grp)
  else .next s

/-- CTXCTL_TERMINATE. -/
def execCtxctlTerminate (s : State) : Out :=
  let ctx := s.subject
  if ((s.contexts[ctx]?).map Context.created) = some true then .next ((s.terminate ctx s.teams.length 0).closeSteps) else .next s

/-! ### INVCTL (R312, R453) -/

/-- An invalidation under way done once the context's engine commands are. -/
def State.finishInval (s : State) : State :=
  match s.regs.invgo with
  | none => s
  | some v =>
    let ctx := getField v 8 6
    if s.enginesBusy ctx then s
    else
      let s1 := s.dropTrans ctx (getField v 16 32 * 65536) s.regs.invlen.toNat
      { s1 with regs := { s1.regs with invdone := true, invgo := none } }

/-- INVCTL_GO: a write of `CMDP_INVCTL` with GO set. -/
def execInvctlGo (base : BitVec 64) (s : State) : Out :=
  if base.getLsbD 0 then
    s.whenBooted ({ s with regs := { s.regs with invdone := false, invgo := some base } } : State).finishInval
  else .next s

/-! ### BAR4 (R459) -/

/-- Physical addresses that name a device byte: its die-local one and the window's (R410). -/
def windowPa (a : Nat) : Nat := windowBase + (a % dieBytes / 4096 * 3 + a / dieBytes) * 4096 + a % 4096

/-- Whether the extent of a handle holds a device byte. -/
def State.extentHolds (s : State) (b : BufHandle) (a : Nat) : Bool :=
  (pagesOf b.base b.len).any fun va =>
    let n := min ((va / 65536 + 1) * 65536) (b.base + b.len) - va
    match s.translate noDie b.ctx va with
    | .ok pa _ _ _ => (pa ≤ a && a < pa + n) || (pa ≤ windowPa a && windowPa a < pa + n)
    | _ => false

/-- Handles whose extent takes host bytes owe an INPUT record (R428). -/
def State.dirtyHandles (s : State) (pa n : Nat) : State :=
  { s with handles := s.handles.map fun e =>
      if (List.range n).any fun i => s.extentHolds e.2 (canonPa (pa + i)) then (e.1, { e.2 with dirtyInput := true }) else e }

/-- Inbound bytes written at home, sector by sector, without undo records. -/
def State.inboundWrite (s : State) (key pa : Nat) (bs : List Byte) : State :=
  let n := bs.length
  ((List.range (n / 32 + 2)).foldl (fun s i =>
    let lo := if i = 0 then pa else (pa / 32 + i) * 32
    let hi := min ((pa / 32 + i + 1) * 32) (pa + n)
    if lo < hi then s.sliceWrite 0 key lo false false 1 ((bs.drop (lo - pa)).take (hi - lo)) else s) s).dirtyHandles pa n

def State.reply (s : State) (r : InboundReply) : State := { s with inbound := s.inbound ++ [r] }

/-- An inbound AtomicOp: the old value answers. -/
def State.inboundAtomic (s : State) (key pa : Nat) (wide : Bool) (aop : Nat) (operand cmp : Word64) : State :=
  let n := if wide then 8 else 4
  let old := natOfBytes (s.homeBytes key pa n)
  let new := atomicNew aop wide old (operand.toNat % 2 ^ (8 * n)) (cmp.toNat % 2 ^ (8 * n))
  (s.inboundWrite key pa (bytesOfNat n new)).reply (.data (bytesOfNat n old))

/-- The dies that an inbound request for a device byte passes (R399): from its own die's H-die link, or from the root's over the
edge links, to its home slice. -/
def State.inboundDies (s : State) (pa : Nat) : List Nat :=
  let home := homeDie (canonPa pa)
  let link := hostDie s.tdie.dead.toNat home
  link :: (wayFrom s.tdie.dead.toNat s.tdie.lret.toNat 3 link (.hostLink link) home (.slice home (homeSlice (canonPa pa)))).map dieOfStop

/-- The extent of an inbound request. -/
def inboundExtent (req : Inbound) : Nat × Nat :=
  match req with
  | .read o n => (o, n)
  | .write o bs => (o, bs.length)
  | .fetchAdd o wide _ | .swap o wide _ | .cas o wide _ _ => (o, if wide then 8 else 4)

/-- INBOUND_REQUEST: an offset that reaches outside BAR4 (R443) or device memory is an Unsupported Request; a request waits for a die of its
way that is in reset (R399, R405). -/
def execInboundRequest (req : Inbound) (s : State) : Out :=
  let m := s.regs.ibmap
  let key := 1 + 8 * getField m 48 6 + getField m 54 3
  let base := getField m 0 48
  let ok (o n : Nat) : Bool := o + n ≤ 2 ^ (30 + s.regs.bar4) && (List.range n).all fun i => inDevice (base + o + i)
  let x := inboundExtent req
  let live := (List.range x.2).all fun i => !inDevice (base + x.1 + i) || (s.inboundDies (base + x.1 + i)).all fun d =>
    (s.dies[d]?).any fun e => e.state = .live
  if !live then .next s else s.whenBooted (match req with
    | .read o n => if ok o n then s.reply (.data (s.homeBytes key (base + o) n)) else s.reply .unsupported
    | .write o bs => if ok o bs.length then (s.inboundWrite key (base + o) bs).reply .written else s.reply .unsupported
    | .fetchAdd o wide v =>
      if ok o (if wide then 8 else 4) then s.inboundAtomic key (base + o) wide 0 v 0 else s.reply .unsupported
    | .swap o wide v =>
      if ok o (if wide then 8 else 4) then s.inboundAtomic key (base + o) wide 8 v 0 else s.reply .unsupported
    | .cas o wide cmp v =>
      if ok o (if wide then 8 else 4) then s.inboundAtomic key (base + o) wide 9 v cmp else s.reply .unsupported)

/-! ### SPDM (R407) -/

/-- A message answered, and the phase it leaves; what an answer holds beyond its kind is not stated. -/
def State.spdmReply (s : State) (p : SpdmPhase) (r : SpdmReply) : State :=
  { s.draw with spdm := p, spdmReplies := s.spdmReplies ++ [r] }
def State.spdmError (s : State) : State := { s with spdmReplies := s.spdmReplies ++ [.error] }

/-- Whether algorithms have been negotiated: the messages after NEGOTIATE_ALGORITHMS need them. -/
def SpdmPhase.ready (p : SpdmPhase) : Bool :=
  match p with | .negotiated _ | .keyExchanged | .session => true | .none | .version | .capabilities => false

def execSpdmGetVersion (s : State) : Out := .next (s.spdmReply .version .version)
def execSpdmGetCapabilities (s : State) : Out :=
  .next (if s.spdm = .version then s.spdmReply .capabilities .capabilities else s.spdmError)

/-- NEGOTIATE_ALGORITHMS: the part takes ECDSA P-384 and SHA-384, and for sessions AES-256-GCM where it is offered. -/
def execSpdmNegotiateAlgorithms (offered : List SpdmAlgorithm) (s : State) : Out :=
  .next (if s.spdm = .capabilities && offered.contains .ecdsaP384 && offered.contains .sha384 then
    s.spdmReply (.negotiated (offered.contains .aes256Gcm)) .algorithms else s.spdmError)

def execSpdmGetDigests (s : State) : Out :=
  .next (if s.spdm.ready then s.spdmReply s.spdm (.digests (Config.spdmDigest s.fresh)) else s.spdmError)
def execSpdmGetCertificate (s : State) : Out :=
  .next (if s.spdm.ready then s.spdmReply s.spdm (.certificate (Config.spdmBytes s.subject)) else s.spdmError)
def execSpdmChallenge (_slot : Nat) (_nonce : BitVec 256) (s : State) : Out :=
  .next (if s.spdm.ready then s.spdmReply s.spdm (.challengeAuth (Config.spdmSignature s.fresh)) else s.spdmError)

/-- What a measurement covers: the fuses at index 5, the remap table at 6; the spec does not state the firmware's bytes. -/
def State.measured (s : State) (index : Nat) : List Nat :=
  let bit (b : Bool) : Nat := if b then 1 else 0
  if index = 5 then
    [Config.deadPositions.toNat, Config.retiredLink.toNat] ++
      (List.range 18).map (fun c => bit (Config.clusterRetired (c / 6) (c % 6))) ++
      (List.range 144).map fun c => bit (Config.coreRetired (c / 48) (c / 8 % 6) (c % 8))
  else if index = 6 then s.remap.map BitVec.toNat
  else []

/-- GET_MEASUREMENTS of an index 1 to 6. -/
def execSpdmGetMeasurements (index : Nat) (_nonce : BitVec 256) (s : State) : Out :=
  .next (if s.spdm.ready && 1 ≤ index && index ≤ 6 then
    s.spdmReply s.spdm (.measurements index (Config.spdmMeasurement index (s.measured index)) (Config.spdmSignature s.fresh)) else s.spdmError)

/-- KEY_EXCHANGE: a session takes AES-256-GCM. -/
def execSpdmKeyExchange (_nonce : BitVec 256) (s : State) : Out :=
  .next (if s.spdm = .negotiated true then s.spdmReply .keyExchanged (.keyExchange (Config.spdmSignature s.fresh)) else s.spdmError)

/-- FINISH: the requester's verification opens the session. -/
def execSpdmFinish (verified : Bool) (s : State) : Out :=
  .next (if s.spdm = .keyExchanged && verified then s.spdmReply .session .finish else s.spdmError)
def execSpdmEndSession (s : State) : Out :=
  .next (if s.spdm = .session then s.spdmReply (.negotiated true) .ended else s.spdmError)

end Sys2Proof.Machine
end

