-- ==== Sys2Proof/Machine/Conclude.lean ====
section
/-!
DEFINITION. What comes about at the end of a step because of it (barrier completions, the ends of teams, tasks and
launches, closed steps): R89, R221, R259, R301, R326, R327, R391, R422, R423, R428, R432.
-/
namespace Sys2Proof.Machine

/-! ### Groups that have ended (R221, R259) -/

/-- Riddle state of gangs one of whose members has ended, discarded. -/
def dropRiddles (t : Team) : Team :=
  { t with riddles := t.riddles.filter fun r => r.members.all fun m => (t.groups[m]?).any fun g => g.run ≠ .ended }

/-- The barriers some group is held at: level, index and a team of it. -/
def State.heldBarriers (s : State) : List (Nat × Nat × Nat) :=
  (List.range s.teams.length).flatMap fun u => match s.teams[u]? with
    | none => []
    | some t => (t.groups.filterMap fun g => match g.hold, g.run with
        | .bar l i, .running => some (l, i, u)
        | _, _ => none).eraseDups

/-- Every held barrier tested. -/
def State.testBarriers (s : State) : State := s.heldBarriers.foldl (fun s b => s.barTest b.1 b.2.1 b.2.2) s

/-! ### The end of a team or task (R301, R326, R327) -/

/-- The teams spawned by a team, and whether one of its billets still stands in a queue. -/
def State.kidsOf (s : State) (u : Nat) : List Nat :=
  (List.range s.teams.length).filter fun k => ((s.teams[k]?).map Team.parent) = some (some u)
def State.queuedKid (s : State) (u : Nat) : Bool :=
  s.clusters.any fun c => (c.billets ++ c.overflow).any fun b => b.parent = some u

/-- Whether a team has nothing in flight: operations, and writes of its groups' visible sets not yet acknowledged (R164, R378,
R381). -/
def State.quiet (s : State) (u : Nat) : Bool :=
  s.opsOfTeam u = [] && s.writesSeen u (s.groupsOf u) = [] && !s.reqs.any fun r => r.team = u && isWrite r.kind && !r.acked

/-- Whether a team ends now: every group and every child has ended, and its writes are released. -/
def State.teamEnds (s : State) (u : Nat) : Bool :=
  match s.teams[u]? with
  | none => false
  | some t =>
    t.ended.isNone && t.residency ≠ .staging && t.groups ≠ [] && (t.groups.all fun g => g.run = .ended) &&
    ((s.kidsOf u).all fun k => (s.teams[k]?).any fun x => x.ended.isSome) && !s.queuedKid u && s.quiet u &&
    (!((s.launchOf u).map Launch.ordered).getD false || s.setSettled u)

/-- The children of its present life that a task's end covers: ended, and not covered by a `TWAIT` (R302, R422). -/
def State.lastKids (s : State) (u : Nat) : List Nat :=
  let covered := ((s.teams[u]?).map Team.covered).getD []
  let life := ((s.teams[u]?).map Team.life).getD 0
  (s.kidsOf u).filter fun k => !covered.contains k && (s.teams[k]?).any fun x => x.ended.isSome && x.parentLife = life

/-- A team's subscriptions and publications at its end (R326, R327). -/
def State.endSubs (s : State) (u : Nat) : State :=
  let s2 := s.settlePubs u
  let mates := s2.clusterTeam u
  { s2 with
    subs := (s2.subs.filter fun b => b.subscriber ≠ u).map fun b =>
      if b.publisher = u && !mates.contains b.subscriber then { b with state := .ended } else b
    updates := s2.updates.filter fun x => x.subscriber ≠ u }

/-- The end status of a task whose groups have ended (R301). -/
def endStatus (t : Team) : TaskStatus := if t.groups.any Group.handlerExit then .faulted else .done

/-- What a team gives back at its end; its banks stay until its cluster-team has ended (R203, R326). -/
def endTeamState (t : Team) : Team :=
  { t with residency := .ended, ended := some (endStatus t), preempt := .none, obufUnits := 0, ob := [], ranges := [], tiles := [],
           rings := [], riddles := [] }

/-- The banks of a cluster-team all of whose teams have ended, returned. -/
def State.freeBanks (s : State) (u : Nat) : State :=
  let mates := s.clusterTeam u
  if mates.all fun m => (s.teams[m]?).any fun t => t.ended.isSome then
    { s with teams := s.teams.mapIdx fun i t => if mates.contains i then { t with banks := [] } else t }
  else s

/-- A team ended: subscriptions settled, uncovered children merged in an ordered launch (R422, R423), status recorded. -/
def State.endTeam (s : State) (u : Nat) : State :=
  let s1 := s.endSubs u
  let m := if ((s1.launchOf u).map Launch.ordered).getD false then s1.mergeChildren u (s1.lastKids u) else (s1, none)
  let s2 := match m.2 with | some c => m.1.launchConflict u c.2 | none => m.1
  (s2.modTeam u endTeamState).freeBanks u

/-- Teams ended, children before their parents. -/
def State.endTeams (s : State) : State :=
  (List.range s.teams.length).reverse.foldl (fun s u => if s.teamEnds u then s.endTeam u else s) s

/-! ### The end of a launch (R391, R422, R423, R428) -/

/-- Whether every team or array task of a launch has ended. -/
def State.launchEnds (s : State) (li : Nat) : Bool :=
  match s.launches[li]? with
  | none => false
  | some l => l.state = .running &&
      l.teamCount ≤ (s.teams.filter fun t => t.launch = li && t.parent.isNone && t.ended.isSome).length

/-- A launch ended: its last merge, its status, its die barriers, and its OUTPUT records. -/
def State.endLaunch (s : State) (li : Nat) : State :=
  match s.launches[li]? with
  | none => s
  | some l =>
    let m := if l.ordered then s.mergeToMemory li else (s, none)
    let s1 := match m.2 with | some c => m.1.launchConflict c.team 0x01 | none => m.1
    let conflict := s1.teams.any fun t => t.launch = li && t.conflict
    let s2 := s1.modLaunch li fun l => { l with state := if conflict then .conflict else .done }
    let s3 : State := { s2 with dies := s2.dies.map fun d => { d with barriers := d.barriers.filter (· ≠ li) } }
    let s4 := if conflict then s3.reportStop l.ctx cConflict 0 else s3
    s4.outputRecords l

def State.endLaunches (s : State) : State :=
  (List.range s.launches.length).foldl (fun s li => if s.launchEnds li then s.endLaunch li else s) s

/-- Gangs one of whose members has ended, dropped (R259). -/
def State.dropGangs (s : State) : State := { s with teams := s.teams.map dropRiddles }

/-- Everything a step brings about. -/
def State.conclude (s : State) : State :=
  ((s.testBarriers.endTeams.endLaunches.dropGangs.closeSteps).finishInval).seatAll.l1Fit

end Sys2Proof.Machine
end

