-- ==== Sys2Proof/Machine/Fetch.lean ====
section
/-!
DEFINITION. Fetch: the clause a unit starts or goes on with, its checks (R8, R11, R44), the word that issues next, and
words that are no instruction (R43).
-/
namespace Sys2Proof.Machine

/-! ### The clause at a PC (R8-R12) -/

/-- A fetch of one word checked: its cause, detail and address where it faults. -/
def State.fetchFault (s : State) (i : Issuer) (n : Nat) : Option (Nat × Nat × Nat) :=
  let va := (s.codeOf i).2 + 8 * n
  match s.access (s.coreOf i / 48) (s.ctxOf i) needX va with
  | .error e => some (e.2.1, e.2.2, va)
  | .ok _ => none

/-- Whether an H word is malformed (R11). -/
def headerBad (w : Word64) : Bool :=
  let a := getField w 46 4
  let b := getField w 42 4
  getField w 38 4 = 0 || (12 ≤ a && a ≤ 14) || (12 ≤ b && b ≤ 14) || (a = b && a ≠ 15) || getField w 0 37 ≠ 0

/-- The ILLEGAL details of the clause at a word of the code section (R11). -/
def clauseDetails (code : List Word64) (pc : Nat) : List Nat :=
  match code[pc]? with
  | none => [0x06]
  | some w =>
    if !isHeader w then [0x06]
    else
      let len := getField w 38 4
      (if headerBad w then [0x05] else []) ++
      (if code.length < pc + 1 + len || (code[pc + 1 + len]?).any (fun x => !isHeader x) then [0x06] else []) ++
      (if (List.range len).any fun k => (code[pc + 1 + k]?).any isHeader then [0x07] else [])

/-- The first fault of the clause at a PC: fetch faults of its words, then ILLEGAL (R44). -/
def State.clauseFault (s : State) (i : Issuer) (pc : Nat) : Option (Nat × Nat × Nat) :=
  let code := (s.codeOf i).1
  let len := match code[pc]? with | some w => if isHeader w then getField w 38 4 else 0 | none => 0
  match (List.range (len + 1)).findSome? fun k => s.fetchFault i (pc + k) with
  | some f => some f
  | none => (leastOf (clauseDetails code pc)).map fun d => (cIllegal, d, 0)

/-- A stop before an H word: POS 0, the threads that stand there (R8, R270). -/
def State.stopAtHeader (s : State) (i : Issuer) (pc : Nat) (lanes : BitVec 32) (f : Nat × Nat × Nat) : State :=
  match i with
  | .group t g => s.takeStop t g f.1 0 f.2.1 (waitAt (s.codeOf i).1 pc) lanes f.2.2
  | _ => s.fault i f.1 f.2.1 lanes f.2.2

/-! ### Threads held at a cross-lane word (R169, R170) -/

/-- Held threads of a stopped unit whose PC a handler has moved stand there no longer (R170). -/
def dropMoved (g : Group) : Group :=
  { g with threads := g.threads.map fun (t : Thread) => match t.held with
      | some h => if h.stale && t.pc.toNat ≠ h.clause.h then { t with held := none } else t
      | none => t }

/-- A clause whose held word every thread it names has reached. -/
def completeHeld (g : Group) : Option Clause :=
  (lanesOf (activeMask g)).findSome? fun l => match (threadAt g l).held with
    | some h =>
      if !h.stale && gatheredAll g h.clause h.named then some { h.clause with lanes := heldLanes g h.clause, gathered := true }
      else none
    | none => none

/-- A clause whose held word is issued again after a stop, and its threads. -/
def staleHeld (g : Group) : Option Clause :=
  (lanesOf (activeMask g)).findSome? fun l => match (threadAt g l).held with
    | some h =>
      if h.stale then
        some { h.clause with gathered := false, lanes := maskOf fun m => match (threadAt g m).held with
          | some x => (activeMask g).getLsbD m && x.stale && x.clause.h = h.clause.h && x.clause.pos = h.clause.pos
          | none => false }
      else none
    | none => none

/-- Threads of a clause no longer held. -/
def unhold (c : Clause) (g : Group) : Group :=
  { g with threads := g.threads.mapIdx fun l (t : Thread) => if c.lanes.getLsbD l then { t with held := none } else t }

/-! ### What a unit does in its turn -/

/-- A unit in its turn: it waits or stops, or a word is ready to issue. -/
inductive Ready where
  | stay (s : State)
  | word (s : State) (i : Instr)
deriving DecidableEq, Repr

/-- The word at the clause's place. -/
def State.ready (s : State) (i : Issuer) : Ready :=
  match s.currentWord i with | some w => .word s w | none => .stay s

/-- A clause started: flags of its WAIT, and of a resumed group's WSNAP, are zero, its hazard bits cleared (R12, R17,
R280). -/
def State.startClause (s : State) (i : Issuer) (g : Group) (pc : Nat) (lanes : BitVec 32) : Ready :=
  match s.clauseFault i pc with
  | some f => .stay (s.stopAtHeader i pc lanes f)
  | none =>
    let c := clauseOf (((s.codeOf i).1).getD pc 0) pc lanes
    if flagsZero g (c.wait ||| snapAt g pc) then
      (s.modUnit i fun g => { clearWaited g c.wait with
        clause := some c, hold := .none
        resumeAt := match g.resumeAt with | some r => if r.1 = pc then none else some r | none => none }).ready i
    else .stay (s.modUnit i fun g => { g with hold := .clauseWait })

/-- A fetch fault of a clause that a stopped unit goes on inside (R199): a stop at the word it had reached. -/
def State.stopInside (s : State) (i : Issuer) (c : Clause) (f : Nat × Nat × Nat) : State :=
  match i with
  | .group t g => (s.modUnit i fun g => { g with clause := some c }).takeStop t g f.1 c.pos f.2.1 c.wait c.lanes f.2.2
  | _ => s.fault i f.1 f.2.1 c.lanes f.2.2

/-- The next step of a unit that is not inside a clause. DESIGN CHOICE (assumption log, entry 51): threads that issue a
cross-lane word again after a stop (R170) do so before any clause starts. -/
def State.nextOf (s : State) (i : Issuer) (g : Group) : Ready :=
  match completeHeld g with
  | some c => (s.modUnit i fun g => { g with clause := some c, hold := .none }).ready i
  | none => match staleHeld g with
    | some c => match s.clauseFault i c.h with
      | some f => .stay (s.stopInside i c f)
      | none => (s.modUnit i fun g => { unhold c g with clause := some c, hold := .none }).ready i
    | none => match nextClause g with
      | some (pc, lanes) => s.startClause i g pc lanes
      | none => .stay s

/-- A resumed unit goes on inside its clause (R15, R199, R280): the clause is fetched again, and its word issues once the
flags of WSNAP are zero. -/
def State.resumeClause (s : State) (i : Issuer) (g : Group) (c : Clause) : Ready :=
  match s.clauseFault i c.h with
  | some f => .stay (s.stopInside i c f)
  | none =>
    if flagsZero g (snapAt g c.h) then (s.modUnit i fun g => { g with hold := .none, resumeAt := none }).ready i else .stay s

/-- The unit's next word, if one issues in its turn. -/
def State.prepare (s : State) (i : Issuer) : Ready :=
  match s.unitOf i with
  | none => .stay s
  | some g => match g.clause with
    | some c =>
      if g.hold = .resumeWait then s.resumeClause i g c else s.ready i
    | none =>
      let s1 := s.modUnit i dropMoved
      s1.nextOf i (dropMoved g)

/-- Whether a unit may issue at all: a running group in the active set of its partition, of a resident team of a context that
is not stopped, that no group taking precedence keeps waiting; or a handler (R99, R206, R209, R282, R286). -/
def State.mayRun (s : State) (i : Issuer) : Bool :=
  match i with
  | .none => false
  | .handler c => ((s.clusters[c]?).bind Cluster.handler).isSome
  | .group t g =>
    ((s.teams[t]?).any fun tm => tm.residency = .resident) && ((s.group? t g).any fun gr => gr.run = .running && gr.seat = .active) &&
    !((s.contexts[s.ctxOf i]?).any Context.stopped) && !s.outranked t g

/-! ### Words that are no instruction (R43) -/

/-- The ILLEGAL details of such a word. -/
def strayDetails (w : Word64) (g : Group) : List Nat :=
  match getField w 62 2 with
  | 0 => [0x01]
  | 1 => (pairCheck (decodeHalf (w.extractLsb' 31 31)) (decodeHalf (w.extractLsb' 0 31)) g).details ++ [0x0A]
  | 2 => [0x07]
  | _ => [0x08]

/-- UNALLOCATED_OPCODE. -/
def execUnallocatedOpcode (w : Word64) (s : State) : Out :=
  match s.unitOf s.issuer with
  | none => .fault .noIssuer
  | some g => .next (s.fault s.issuer cIllegal ((leastOf (strayDetails w g)).getD 0x01) (issuing g) 0)

end Sys2Proof.Machine
end

