-- ==== Sys2Proof/Machine/Dispatch.lean ====
section
/-!
DEFINITION. One arm per constructor of Instr: the meaning of each instruction, command and event.
-/
namespace Sys2Proof.Machine

def exec (i : Instr) (s : State) : Host.Outcome State Fault Refusal :=
  match i with
  | .nop w => Sys2Proof.Machine.execNop w s
  | .mov w => Sys2Proof.Machine.execMov w s
  | .movi w => Sys2Proof.Machine.execMovi w s
  | .movh w => Sys2Proof.Machine.execMovh w s
  | .iadd w => Sys2Proof.Machine.execIadd w s
  | .isub w => Sys2Proof.Machine.execIsub w s
  | .iaddc w => Sys2Proof.Machine.execIaddc w s
  | .imul w => Sys2Proof.Machine.execImul w s
  | .imulh w => Sys2Proof.Machine.execImulh w s
  | .imulhu w => Sys2Proof.Machine.execImulhu w s
  | .imad w => Sys2Proof.Machine.execImad w s
  | .imadw w => Sys2Proof.Machine.execImadw w s
  | .idiv w => Sys2Proof.Machine.execIdiv w s
  | .idivu w => Sys2Proof.Machine.execIdivu w s
  | .irem w => Sys2Proof.Machine.execIrem w s
  | .iremu w => Sys2Proof.Machine.execIremu w s
  | .imin w => Sys2Proof.Machine.execImin w s
  | .imax w => Sys2Proof.Machine.execImax w s
  | .iminu w => Sys2Proof.Machine.execIminu w s
  | .imaxu w => Sys2Proof.Machine.execImaxu w s
  | .iabs w => Sys2Proof.Machine.execIabs w s
  | .isad w => Sys2Proof.Machine.execIsad w s
  | .iadds w => Sys2Proof.Machine.execIadds w s
  | .isubs w => Sys2Proof.Machine.execIsubs w s
  | .and w => Sys2Proof.Machine.execAnd w s
  | .or w => Sys2Proof.Machine.execOr w s
  | .xor w => Sys2Proof.Machine.execXor w s
  | .andn w => Sys2Proof.Machine.execAndn w s
  | .lop3 w => Sys2Proof.Machine.execLop3 w s
  | .shl w => Sys2Proof.Machine.execShl w s
  | .shr w => Sys2Proof.Machine.execShr w s
  | .sar w => Sys2Proof.Machine.execSar w s
  | .rot w => Sys2Proof.Machine.execRot w s
  | .funl w => Sys2Proof.Machine.execFunl w s
  | .bfx w => Sys2Proof.Machine.execBfx w s
  | .bfxu w => Sys2Proof.Machine.execBfxu w s
  | .bfi w => Sys2Proof.Machine.execBfi w s
  | .popc w => Sys2Proof.Machine.execPopc w s
  | .clz w => Sys2Proof.Machine.execClz w s
  | .brev w => Sys2Proof.Machine.execBrev w s
  | .ffs w => Sys2Proof.Machine.execFfs w s
  | .iset w => Sys2Proof.Machine.execIset w s
  | .isetu w => Sys2Proof.Machine.execIsetu w s
  | .pset w => Sys2Proof.Machine.execPset w s
  | .sel w => Sys2Proof.Machine.execSel w s
  | .pmov w => Sys2Proof.Machine.execPmov w s
  | .xset w => Sys2Proof.Machine.execXset w s
  | .xadd w => Sys2Proof.Machine.execXadd w s
  | .xget w => Sys2Proof.Machine.execXget w s
  | .lea w => Sys2Proof.Machine.execLea w s
  | .lea64 w => Sys2Proof.Machine.execLea64 w s
  | .iadd64 w => Sys2Proof.Machine.execIadd64 w s
  | .isub64 w => Sys2Proof.Machine.execIsub64 w s
  | .iset64 w => Sys2Proof.Machine.execIset64 w s
  | .sread w => Sys2Proof.Machine.execSread w s
  | .swr w => Sys2Proof.Machine.execSwr w s
  | .kread w => Sys2Proof.Machine.execKread w s
  | .fadd w => Sys2Proof.Machine.execFadd w s
  | .fsub w => Sys2Proof.Machine.execFsub w s
  | .fmul w => Sys2Proof.Machine.execFmul w s
  | .ffma w => Sys2Proof.Machine.execFfma w s
  | .fmin w => Sys2Proof.Machine.execFmin w s
  | .fmax w => Sys2Proof.Machine.execFmax w s
  | .fminn w => Sys2Proof.Machine.execFminn w s
  | .fmaxn w => Sys2Proof.Machine.execFmaxn w s
  | .fset w => Sys2Proof.Machine.execFset w s
  | .fclass w => Sys2Proof.Machine.execFclass w s
  | .frnd w => Sys2Proof.Machine.execFrnd w s
  | .frcp w => Sys2Proof.Machine.execFrcp w s
  | .frsq w => Sys2Proof.Machine.execFrsq w s
  | .fsqrt w => Sys2Proof.Machine.execFsqrt w s
  | .fdiv w => Sys2Proof.Machine.execFdiv w s
  | .fex2 w => Sys2Proof.Machine.execFex2 w s
  | .flg2 w => Sys2Proof.Machine.execFlg2 w s
  | .fsin w => Sys2Proof.Machine.execFsin w s
  | .fcos w => Sys2Proof.Machine.execFcos w s
  | .ftanh w => Sys2Proof.Machine.execFtanh w s
  | .fsigm w => Sys2Proof.Machine.execFsigm w s
  | .hadd2 w => Sys2Proof.Machine.execHadd2 w s
  | .hmul2 w => Sys2Proof.Machine.execHmul2 w s
  | .hfma2 w => Sys2Proof.Machine.execHfma2 w s
  | .badd2 w => Sys2Proof.Machine.execBadd2 w s
  | .bmul2 w => Sys2Proof.Machine.execBmul2 w s
  | .bfma2 w => Sys2Proof.Machine.execBfma2 w s
  | .hmax2 w => Sys2Proof.Machine.execHmax2 w s
  | .hmin2 w => Sys2Proof.Machine.execHmin2 w s
  | .idp4 w => Sys2Proof.Machine.execIdp4 w s
  | .fdp2h w => Sys2Proof.Machine.execFdp2h w s
  | .dadd w => Sys2Proof.Machine.execDadd w s
  | .dmul w => Sys2Proof.Machine.execDmul w s
  | .dfma w => Sys2Proof.Machine.execDfma w s
  | .dset w => Sys2Proof.Machine.execDset w s
  | .cvt w => Sys2Proof.Machine.execCvt w s
  | .cvtp w => Sys2Proof.Machine.execCvtp w s
  | .cvt64 w => Sys2Proof.Machine.execCvt64 w s
  | .qnt w => Sys2Proof.Machine.execQnt w s
  | .dqnt w => Sys2Proof.Machine.execDqnt w s
  | .sclx w => Sys2Proof.Machine.execSclx w s
  | .prmt w => Sys2Proof.Machine.execPrmt w s
  | .pack4 w => Sys2Proof.Machine.execPack4 w s
  | .pWord upper lower => Sys2Proof.Machine.execPWord upper lower s
  | .bra w => Sys2Proof.Machine.execBra w s
  | .brx w => Sys2Proof.Machine.execBrx w s
  | .join w => Sys2Proof.Machine.execJoin w s
  | .call w => Sys2Proof.Machine.execCall w s
  | .ret w => Sys2Proof.Machine.execRet w s
  | .exit w => Sys2Proof.Machine.execExit w s
  | .form w => Sys2Proof.Machine.execForm w s
  | .brc w => Sys2Proof.Machine.execBrc w s
  | .yield w => Sys2Proof.Machine.execYield w s
  | .vote w => Sys2Proof.Machine.execVote w s
  | .shfl w => Sys2Proof.Machine.execShfl w s
  | .matchKey w => Sys2Proof.Machine.execMatchKey w s
  | .redux w => Sys2Proof.Machine.execRedux w s
  | .scan w => Sys2Proof.Machine.execScan w s
  | .elect w => Sys2Proof.Machine.execElect w s
  | .gsync w => Sys2Proof.Machine.execGsync w s
  | .ld w => Sys2Proof.Machine.execLd w s
  | .st w => Sys2Proof.Machine.execSt w s
  | .lds w => Sys2Proof.Machine.execLds w s
  | .sts w => Sys2Proof.Machine.execSts w s
  | .ldc w => Sys2Proof.Machine.execLdc w s
  | .ldx w => Sys2Proof.Machine.execLdx w s
  | .stx w => Sys2Proof.Machine.execStx w s
  | .atom w => Sys2Proof.Machine.execAtom w s
  | .atoms w => Sys2Proof.Machine.execAtoms w s
  | .red w => Sys2Proof.Machine.execRed w s
  | .fence w => Sys2Proof.Machine.execFence w s
  | .ldt w => Sys2Proof.Machine.execLdt w s
  | .stt w => Sys2Proof.Machine.execStt w s
  | .pref w => Sys2Proof.Machine.execPref w s
  | .cmaint w => Sys2Proof.Machine.execCmaint w s
  | .fifopush w => Sys2Proof.Machine.execFifopush w s
  | .fifopop w => Sys2Proof.Machine.execFifopop w s
  | .bankcfg w => Sys2Proof.Machine.execBankcfg w s
  | .gang w => Sys2Proof.Machine.execGang w s
  | .obres w c => Sys2Proof.Machine.execObres w c s
  | .obrel w => Sys2Proof.Machine.execObrel w s
  | .obld w => Sys2Proof.Machine.execObld w s
  | .obldB w => Sys2Proof.Machine.execObldB w s
  | .mma w => Sys2Proof.Machine.execMma w s
  | .mmas w => Sys2Proof.Machine.execMmas w s
  | .mmar w c => Sys2Proof.Machine.execMmar w c s
  | .tres w => Sys2Proof.Machine.execTres w s
  | .trel w => Sys2Proof.Machine.execTrel w s
  | .tzero w => Sys2Proof.Machine.execTzero w s
  | .trd w => Sys2Proof.Machine.execTrd w s
  | .twr w => Sys2Proof.Machine.execTwr w s
  | .tst w => Sys2Proof.Machine.execTst w s
  | .tepi w c => Sys2Proof.Machine.execTepi w c s
  | .tscl w => Sys2Proof.Machine.execTscl w s
  | .rmap w => Sys2Proof.Machine.execRmap w s
  | .tsave w => Sys2Proof.Machine.execTsave w s
  | .tload w => Sys2Proof.Machine.execTload w s
  | .cpy w c => Sys2Proof.Machine.execCpy w c s
  | .tgms w c => Sys2Proof.Machine.execTgms w c s
  | .cebld w c => Sys2Proof.Machine.execCebld w c s
  | .cenbr w c => Sys2Proof.Machine.execCenbr w c s
  | .cewalk w c => Sys2Proof.Machine.execCewalk w c s
  | .cerel w => Sys2Proof.Machine.execCerel w s
  | .sbs w => Sys2Proof.Machine.execSbs w s
  | .sbsx w => Sys2Proof.Machine.execSbsx w s
  | .pubf w => Sys2Proof.Machine.execPubf w s
  | .trap w => Sys2Proof.Machine.execTrap w s
  | .tret w => Sys2Proof.Machine.execTret w s
  | .spawn w => Sys2Proof.Machine.execSpawn w s
  | .twait w => Sys2Proof.Machine.execTwait w s
  | .arrv w => Sys2Proof.Machine.execArrv w s
  | .waitr w => Sys2Proof.Machine.execWaitr w s
  | .barTeam w => Sys2Proof.Machine.execBarTeam w s
  | .barCluster w => Sys2Proof.Machine.execBarCluster w s
  | .barDie w => Sys2Proof.Machine.execBarDie w s
  | .barGrid w => Sys2Proof.Machine.execBarGrid w s
  | .dln w => Sys2Proof.Machine.execDln w s
  | .prog w => Sys2Proof.Machine.execProg w s
  | .hrd w => Sys2Proof.Machine.execHrd w s
  | .hwr w => Sys2Proof.Machine.execHwr w s
  | .halt w => Sys2Proof.Machine.execHalt w s
  | .starvationGuard core part => Sys2Proof.Machine.execStarvationGuard core part s
  | .fifoPushPerform team grp => Sys2Proof.Machine.execFifoPushPerform team grp s
  | .fifoPopPerform team grp => Sys2Proof.Machine.execFifoPopPerform team grp s
  | .teamSwitchBack team core => Sys2Proof.Machine.execTeamSwitchBack team core s
  | .stokerBilletStart cluster idx core => Sys2Proof.Machine.execStokerBilletStart cluster idx core s
  | .pageWalkComplete die ctx page => Sys2Proof.Machine.execPageWalkComplete die ctx page s
  | .ringFlitArrival req parityError => Sys2Proof.Machine.execRingFlitArrival req parityError s
  | .linkReplay link failed => Sys2Proof.Machine.execLinkReplay link failed s
  | .uncorrRollback ctx die => Sys2Proof.Machine.execUncorrRollback ctx die s
  | .packageBoot digestOk signatureOk => Sys2Proof.Machine.execPackageBoot digestOk signatureOk s
  | .patrolScrub die line => Sys2Proof.Machine.execPatrolScrub die line s
  | .bellowsPeriod temps power => Sys2Proof.Machine.execBellowsPeriod temps power s
  | .doorbell q index => Sys2Proof.Machine.execDoorbell q index s
  | .launch q slot => Sys2Proof.Machine.execLaunch q slot s
  | .step q slot => Sys2Proof.Machine.execStep q slot s
  | .seed q slot => Sys2Proof.Machine.execSeed q slot s
  | .waith q slot => Sys2Proof.Machine.execWaith q slot s
  | .signal q slot => Sys2Proof.Machine.execSignal q slot s
  | .ckpt q slot => Sys2Proof.Machine.execCkpt q slot s
  | .handle q slot => Sys2Proof.Machine.execHandle q slot s
  | .invtlb q slot => Sys2Proof.Machine.execInvtlb q slot s
  | .invctlGo base => Sys2Proof.Machine.execInvctlGo base s
  | .registerWrite reg value => Sys2Proof.Machine.execRegisterWrite reg value s
  | .inboundRequest req => Sys2Proof.Machine.execInboundRequest req s
  | .spdmNegotiateAlgorithms offered => Sys2Proof.Machine.execSpdmNegotiateAlgorithms offered s
  | .spdmChallenge slot nonce => Sys2Proof.Machine.execSpdmChallenge slot nonce s
  | .spdmGetMeasurements index nonce => Sys2Proof.Machine.execSpdmGetMeasurements index nonce s
  | .spdmKeyExchange nonce => Sys2Proof.Machine.execSpdmKeyExchange nonce s
  | .spdmFinish verified => Sys2Proof.Machine.execSpdmFinish verified s
  | .unallocatedOpcode w => Sys2Proof.Machine.execUnallocatedOpcode w s
  | .htDieFatalError trustDie => Sys2Proof.Machine.execHtDieFatalError trustDie s
  | .pcieLinkError fatal => Sys2Proof.Machine.execPcieLinkError fatal s
  | .memoryAccessComplete => Sys2Proof.Machine.execMemoryAccessComplete s
  | .writeAcknowledge => Sys2Proof.Machine.execWriteAcknowledge s
  | .divisionComplete => Sys2Proof.Machine.execDivisionComplete s
  | .fpLongComplete => Sys2Proof.Machine.execFpLongComplete s
  | .bankSwitchComplete => Sys2Proof.Machine.execBankSwitchComplete s
  | .arrvInversion => Sys2Proof.Machine.execArrvInversion s
  | .mmaComplete => Sys2Proof.Machine.execMmaComplete s
  | .obldComplete => Sys2Proof.Machine.execObldComplete s
  | .tileRegComplete => Sys2Proof.Machine.execTileRegComplete s
  | .tstComplete => Sys2Proof.Machine.execTstComplete s
  | .tepiComplete => Sys2Proof.Machine.execTepiComplete s
  | .rmapComplete => Sys2Proof.Machine.execRmapComplete s
  | .tsaveTloadComplete => Sys2Proof.Machine.execTsaveTloadComplete s
  | .cpyChunk => Sys2Proof.Machine.execCpyChunk s
  | .cpyComplete => Sys2Proof.Machine.execCpyComplete s
  | .tgmsComplete => Sys2Proof.Machine.execTgmsComplete s
  | .cebldSpaceGrant => Sys2Proof.Machine.execCebldSpaceGrant s
  | .ceCommandComplete => Sys2Proof.Machine.execCeCommandComplete s
  | .spawnComplete => Sys2Proof.Machine.execSpawnComplete s
  | .sbsSyncComplete => Sys2Proof.Machine.execSbsSyncComplete s
  | .sbsxComplete => Sys2Proof.Machine.execSbsxComplete s
  | .pubfComplete => Sys2Proof.Machine.execPubfComplete s
  | .hrdHwrComplete => Sys2Proof.Machine.execHrdHwrComplete s
  | .subUpdateApply => Sys2Proof.Machine.execSubUpdateApply s
  | .subBatchWindowClose => Sys2Proof.Machine.execSubBatchWindowClose s
  | .stopDelivery => Sys2Proof.Machine.execStopDelivery s
  | .teamResidency => Sys2Proof.Machine.execTeamResidency s
  | .preemptSaveComplete => Sys2Proof.Machine.execPreemptSaveComplete s
  | .stagingComplete => Sys2Proof.Machine.execStagingComplete s
  | .overflowBilletReturn => Sys2Proof.Machine.execOverflowBilletReturn s
  | .clusterSteal => Sys2Proof.Machine.execClusterSteal s
  | .billetDonation => Sys2Proof.Machine.execBilletDonation s
  | .launchStart => Sys2Proof.Machine.execLaunchStart s
  | .sliceAccess => Sys2Proof.Machine.execSliceAccess s
  | .fillLand => Sys2Proof.Machine.execFillLand s
  | .edgeFlitIngress => Sys2Proof.Machine.execEdgeFlitIngress s
  | .routerPowerDown => Sys2Proof.Machine.execRouterPowerDown s
  | .routerWakeComplete => Sys2Proof.Machine.execRouterWakeComplete s
  | .correctedError => Sys2Proof.Machine.execCorrectedError s
  | .dieFatalError => Sys2Proof.Machine.execDieFatalError s
  | .dieRejoin => Sys2Proof.Machine.execDieRejoin s
  | .checkpointTimer => Sys2Proof.Machine.execCheckpointTimer s
  | .intervalClose => Sys2Proof.Machine.execIntervalClose s
  | .cinderSignature => Sys2Proof.Machine.execCinderSignature s
  | .thermalTrip => Sys2Proof.Machine.execThermalTrip s
  | .operatingPointSettle => Sys2Proof.Machine.execOperatingPointSettle s
  | .waithRelease => Sys2Proof.Machine.execWaithRelease s
  | .signalWrite => Sys2Proof.Machine.execSignalWrite s
  | .handleApply => Sys2Proof.Machine.execHandleApply s
  | .invtlbExecute => Sys2Proof.Machine.execInvtlbExecute s
  | .qctlResume => Sys2Proof.Machine.execQctlResume s
  | .qctlResumeSkip => Sys2Proof.Machine.execQctlResumeSkip s
  | .qctlKill => Sys2Proof.Machine.execQctlKill s
  | .qctlPreempt => Sys2Proof.Machine.execQctlPreempt s
  | .ctxctlCreate => Sys2Proof.Machine.execCtxctlCreate s
  | .ctxctlResume => Sys2Proof.Machine.execCtxctlResume s
  | .ctxctlTerminate => Sys2Proof.Machine.execCtxctlTerminate s
  | .cdieStaleClear => Sys2Proof.Machine.execCdieStaleClear s
  | .cdieCeClear => Sys2Proof.Machine.execCdieCeClear s
  | .errlogRead => Sys2Proof.Machine.execErrlogRead s
  | .spdmGetVersion => Sys2Proof.Machine.execSpdmGetVersion s
  | .spdmGetCapabilities => Sys2Proof.Machine.execSpdmGetCapabilities s
  | .spdmGetDigests => Sys2Proof.Machine.execSpdmGetDigests s
  | .spdmGetCertificate => Sys2Proof.Machine.execSpdmGetCertificate s
  | .spdmEndSession => Sys2Proof.Machine.execSpdmEndSession s

end Sys2Proof.Machine
end

