-- ==== Sys2Proof/Machine/Turn.lean ====
section
/-!
DEFINITION. One turn of the machine: a group, a handler or the parser acts, or an event falls; what turn comes when none
is named; and a program placed before the machine.
-/
namespace Sys2Proof.Machine

/-! ### Turns -/

/-- Every group whose clause with the Y bit has ended since `b`, in its own turn or as another's turn or an event released
its last word, gives up its place in the V slot (R14). -/
def State.yieldsFrom (s b : State) : State :=
  (List.range b.teams.length).foldl (fun (s : State) t => (List.range (((b.teams[t]?).map fun tm => tm.groups.length).getD 0)).foldl
    (fun (s : State) g => match b.group? t g, s.group? t g with
      | some x, some y =>
        if x.clause.any (fun c => c.yields && (match y.clause with | some d => d.h ≠ c.h | none => true)) && y.run = .running then
          s.giveUpV t g
        else s
      | _, _ => s) s) s

/-- What the slots keep of a unit's turn (R14, R206). -/
def slotted (b : State) (i : Issuer) (o : Out) : Out :=
  match o with | .next s => .next ((s.served b i).yieldsFrom b) | .fault f => .fault f | .refused r => .refused r

/-- A unit's turn: its next word issues, or it waits or stops. -/
def State.issueTurn (s : State) (i : Issuer) : Out :=
  if s.mayRun i then
    match s.prepare i with
    | .stay t => .next t
    | .word t w => slotted { t with issuer := i } i (exec w { t with issuer := i })
  else .next s

/-- The command in a slot (R446). -/
def commandAt (q : Nat) (slot : QSlot) : Instr :=
  match slotCode slot with
  | 2 => .step q slot
  | 3 => .seed q slot
  | 4 => .waith q slot
  | 5 => .signal q slot
  | 6 => .ckpt q slot
  | 7 => .handle q slot
  | 8 => .invtlb q slot
  | _ => .launch q slot

/-- The command processor's turn: the next command is parsed (R445). -/
def State.parseTurn (s : State) : Out :=
  match s.nextCommand with
  | some k => exec (commandAt k.1 k.2) s
  | none => .next s

/-- Whether a row of the table is an event: words and commands act only when they are fetched or parsed. -/
def isEvent (i : Instr) : Bool := encode i = []

/-- What a turn does. -/
def State.take (s : State) (t : Turn) : Out :=
  match t with
  | .group u g => s.issueTurn (.group u g)
  | .handler c => s.issueTurn (.handler c)
  | .parse => s.parseTurn
  | .event i n => if isEvent i then exec i { s with subject := n } else .next s

/-- What follows from a turn taken in `b`, and no agent issuing. -/
def concluded (b : State) (o : Out) : Out :=
  match o with
  | .next s => .next (({ s with issuer := .none } : State).conclude.yieldsFrom b)
  | .fault f => .fault f
  | .refused r => .refused r

/-! ### The turn taken when none is named -/

/-- The event that completes a pending operation. -/
def completion (k : OpKind) : Instr :=
  match k with
  | .division => .divisionComplete
  | .fpLong => .fpLongComplete
  | .mem | .cmaint => .memoryAccessComplete
  | .fifoPush => .memoryAccessComplete
  | .fifoPop => .memoryAccessComplete
  | .bankSwitch => .bankSwitchComplete
  | .mma => .mmaComplete
  | .obld => .obldComplete
  | .tileReg => .tileRegComplete
  | .tst => .tstComplete
  | .tepi => .tepiComplete
  | .rmap => .rmapComplete
  | .tileImage => .tsaveTloadComplete
  | .cpy => .cpyComplete
  | .tgms => .tgmsComplete
  | .ce => .ceCommandComplete
  | .arrv => .arrvInversion
  | .spawn => .spawnComplete
  | .sbs => .sbsSyncComplete
  | .sbsx => .sbsxComplete
  | .pubf => .pubfComplete
  | .debug => .hrdHwrComplete

/-- An event on a subject. -/
def ev (i : Instr) (n : Nat) : Turn := .event i n

/-- The turns of a pending operation, and of a request. -/
def opTurns (o : Op) : List Turn :=
  match o.kind with
  | .cpy => [ev .cpyComplete o.id, ev .cpyChunk o.id]
  | .ce => [ev .ceCommandComplete o.id, ev .cebldSpaceGrant o.id]
  | k => [ev (completion k) o.id]
def reqTurns (r : Req) : List Turn :=
  [ev (.ringFlitArrival r.id false) 0, ev .edgeFlitIngress r.id, ev .sliceAccess r.id, ev .writeAcknowledge r.id]

/-- The turns of pending work: operations, requests, fills and updates. -/
def State.workTurns (s : State) : List Turn :=
  let waited := (s.reqs.filter Req.waitingFill).map fun r => lineOf r.pa
  let fills : List Turn := (((s.lines.filter Line.filling).map Line.addr) ++ waited).eraseDups.map (ev .fillLand)
  let updates : List Turn := s.updates.map fun u => ev .subUpdateApply u.id
  s.ops.flatMap opTurns ++ s.reqs.flatMap reqTurns ++ fills ++ updates

/-- The turns of teams: staging, saving and return, and the active groups that the slots of their partitions choose (R206) or
that are held and try again. -/
def State.teamTurns (s : State) : List Turn :=
  (List.range s.teams.length).flatMap fun u => match s.teams[u]? with
    | none => []
    | some t => match t.residency with
      | .staging => [ev .stagingComplete u]
      | .saving => [ev .preemptSaveComplete u]
      | .switchedOut => ((List.range 144).filter fun c => (s.offsetFor c t.kernel).isSome).map fun c => ev (.teamSwitchBack u c) 0
      | .ended => []
      | .resident => (List.range t.groups.length).filterMap fun g =>
          if (t.groups[g]?).any (fun x => x.run = .running && x.seat = .active &&
              (!s.slotReady u t g x || (s.slotChoices t.core (partOf t g)).contains (u, g))) then some (.group u g) else none

/-- The turns of clusters: handlers, stops, stokers. -/
def State.clusterTurns (s : State) : List Turn :=
  (List.range s.clusters.length).flatMap fun c => match s.clusters[c]? with
    | none => []
    | some k =>
      (if k.handler.isSome then [.handler c] else if k.stops ≠ [] then [ev .stopDelivery c] else []) ++
      (if k.shares ≠ [] || (s.launches.any fun l => l.ordered && l.state = .running) then [ev .teamResidency c] else []) ++
      (if k.overflow ≠ [] then [ev .overflowBilletReturn c] else []) ++
      ((List.range k.billets.length).flatMap fun i => (List.range 8).map fun n => ev (.stokerBilletStart c i (8 * c + n)) 0)

/-- The turns of a queue. -/
def queueTurns (q : Nat) (qu : Queue) : List Turn :=
  let waits : List Turn := match qu.wait with
    | .none => []
    | .writer _ => [ev .waithRelease q]
    | .register .. => [ev .handleApply q]
    | .inval .. => [ev .invtlbExecute q]
  let signals : List Turn := if qu.signals = [] then [] else [ev .signalWrite q]
  waits ++ signals

/-- The turns of the command processor, contexts and the T die. -/
def State.processorTurns (s : State) : List Turn :=
  let parse : List Turn := if s.nextCommand.isSome then [.parse] else []
  let starts : List Turn := ((List.range s.launches.length).filter fun li =>
    (s.launches[li]?).any fun l => l.state = .waiting).map (ev .launchStart)
  let queues : List Turn := (List.range s.queues.length).flatMap fun q => ((s.queues[q]?).map (queueTurns q)).getD []
  let closes : List Turn := ((List.range s.contexts.length).filter fun c => (s.contexts[c]?).any Context.closeDue).map (ev .intervalClose)
  let signs : List Turn := if s.signDue = [] then [] else [ev .cinderSignature 0]
  parse ++ starts ++ queues ++ closes ++ signs

/-- The partitions of a core where a group has been passed over three times (R206). -/
def State.slotTurns (s : State) : List Turn :=
  ((s.teams.filter fun t => t.residency = .resident).map Team.core).eraseDups.flatMap fun core =>
    ((List.range 8).filter fun p => (s.mReadyOf core p).any fun x => 3 ≤ x.2.2.2.passed && !x.2.2.2.precedence).map fun p =>
      ev (.starvationGuard core p) 0

/-- The routers that are waking (R346), and the dies held in reset (R405). -/
def State.routerTurns (s : State) : List Turn :=
  (s.dies.flatMap Die.waking).map (ev .routerWakeComplete) ++
    ((List.range s.dies.length).filter fun d => (s.dies[d]?).any fun x => x.state = .inReset).map (ev .dieRejoin)

/-- The turns that wait, in the order in which they came to wait. -/
def State.waiting (s : State) : List Turn :=
  let ts := s.workTurns ++ s.routerTurns ++ s.slotTurns ++ s.teamTurns ++ s.clusterTurns ++ s.processorTurns
  s.round.filter (ts.contains ·) ++ ts.filter fun t => !s.round.contains t

/-- The turn taken when the list names none: boot first, then the one that has waited longest. -/
def State.defaultTurn (s : State) : Option Turn :=
  if !s.tdie.done && s.tdie.fail = 0 then some (.event (.packageBoot true true) 0) else s.waiting.head?

/-- The turns that wait after one was taken from the front; a list that names turns leaves them as they stand. -/
def State.roundAfter (s : State) : List Turn :=
  if s.sched = [] && (s.tdie.done || s.tdie.fail ≠ 0) then s.waiting.tail else s.round

/-- The turn that comes. -/
def State.nextTurn (s : State) : Option Turn :=
  match s.sched with
  | t :: _ => some t
  | [] => s.defaultTurn

/-- The clock moves on before a turn by an amount the manual does not fix (R6), and the turn is taken off its list. -/
def State.beginTurn (s : State) : State :=
  { s with timer := s.timer + BitVec.ofNat 64 (Config.elapsed s.fresh), fresh := s.fresh + 1, sched := s.sched.tail,
           round := s.roundAfter, subject := 0, issuer := .none }

/-- One step. A part that needs a reset does nothing (R457). -/
def State.advanceTurn (s : State) : Out :=
  if s.needsReset then .next s
  else match s.nextTurn with
    | some t => concluded s.beginTurn (s.beginTurn.take t)
    | none => concluded s.beginTurn (.next s.beginTurn)

/-! ### A word placed where it is fetched next -/

/-- Where a placed program stands: its page tables and its code. -/
def placedRoot : Nat := 0x100000
def placedCode : Nat := 0x10000

/-- An H word: FLAGA cf0, FLAGB cf1, and a length (R10). -/
def placedHeader (len : Nat) : Word64 := BitVec.ofNat 64 (2 * 2 ^ 62 + 1 * 2 ^ 42 + len * 2 ^ 38)

/-- `EXIT` (R164). -/
def placedExit : Word64 := BitVec.ofNat 64 (0x85 * 2 ^ 54)

/-- A clause that holds the instruction's words, and a clause that ends the group. -/
def placedWords (i : Instr) (words : List Word64) : List Word64 :=
  let ws := words.take (if hasBlock i then 5 else 1)
  [placedHeader ws.length] ++ ws ++ [placedHeader 1, placedExit]

/-- The kernel of a placed program: one group of 32 threads with 256 registers, of role matrix or vector. -/
def placedKernel (matrix : Bool) : Kernel :=
  { entry := 0, threads := 32, regs := 256, ord := false, idem := false, cgrp := 0, creg := 0, mgrp := if matrix then 1 else 0,
    mreg := if matrix then 256 else 0, vgrp := 0, vreg := 0, scratch := 32768, obuf := 16, tiles := 4, rings := 2, paramSz := 0 }

/-- Whether an opcode is for a matrix group, and whether it is for a handler (R42, R204). -/
def wordOpcode (w : Word64) : Nat := if getField w 62 2 = 0 then getField w 54 8 else 0
def forMatrix (w : Word64) : Bool := let o := wordOpcode w; (0xC0 ≤ o && o < 0xE0) || o = 0xE1
def forHandler (w : Word64) : Bool := let o := wordOpcode w; o = 0xF1 || (0xF9 ≤ o && o ≤ 0xFB)

/-- A slot with nothing in it but a LAUNCH of one team. -/
def placedSlot : QSlot :=
  { low := { w0 := 1, w1 := BitVec.ofNat 64 placedCode, w2 := 0, w3 := BitVec.ofNat 64 (1 + 2 ^ 24 + 2 ^ 36 + 2 ^ 48), w4 := 0,
             w5 := 0, w6 := 0, w7 := 0 }
    high := { w0 := 0, w1 := 0, w2 := 0, w3 := 0, w4 := 0, w5 := 0, w6 := 0, w7 := 0 } }

/-- The launch of a placed program. -/
def placedLaunch (k : Kernel) (code : List Word64) : Launch :=
  { ordinal := 0, num := 0, queue := 0, ctx := 0, slot := placedSlot, classA := false, kernel := k, kernels := [k], code := code,
    codeVa := placedCode, dataVa := placedCode + 4096, params := [], const := [], seed := 0, deps := [], reads := [], writes := [],
    extents := [], handlerCode := none, steps := [], fallback := none, state := .running, interval := 0 }

/-- Page tables that map the first GiB of context 0 to itself, readable, writable and executable (R452). -/
def placedTables : List Byte × List Byte :=
  (bytesOfNat 8 (1 + (placedRoot + 4096)), bytesOfNat 8 (1 + 2 + 4 + 8 + 16))

/-- The machine with a program in context 0, launched and resident on core 0; for a handler's instruction, its group has
stopped and a handler holds the stop. -/
def State.placed (s : State) (i : Instr) (words : List Word64) : State :=
  let code := placedWords i words
  let k := placedKernel (forMatrix (words.getD 0 0))
  let l := placedLaunch k code
  let li := s.launches.length
  let t := s.teams.length
  let ctx : Context := { Context.reset with created := true, root := placedRoot }
  let m1 := putBytes s.mem placedRoot placedTables.1
  let m2 := putBytes m1 (placedRoot + 4096) placedTables.2
  let m3 := putBytes m2 placedCode (code.flatMap bytesOfWord)
  let tm := newTeam li l k 0 (topId l 0) none 0 0
  let s1 : State := { s with
    mem := m3
    contexts := modAt s.contexts 0 fun _ => ctx
    launches := s.launches ++ [l]
    teams := s.teams ++ [tm] }
  if forHandler (words.getD 0 0) then
    let st : Stop := ⟨t, 0, 0x0B⟩
    let s2 := s1.modGroup t 0 fun g => setInh true (stopGroup g 0x0B 0 0 0 1 0)
    let cpu := match s2.group? t 0 with | some g => handlerStart 0 0 g | none => Group.start .control 0 0 1
    { s2.modCluster 0 (fun c => { c with handler := some { stop := st, handle := 0, cpu := cpu, code := code, codeVa := placedCode } }) with
      sched := [.handler 0] }
  else { s1.setSeat (t, 0) .active with sched := [.group t 0] }

/-- The instruction's five words, of its bits. -/
def placedBits (nbits w : Nat) : List Word64 := (List.range 5).map fun j => BitVec.ofNat 64 (w % 2 ^ nbits / 2 ^ (64 * j))

end Sys2Proof.Machine
end

