-- ==== Sys2Proof/Machine/Step.lean ====
section
/-!
DEFINITION. The step of the machine, and a machine whose next step runs a given instruction.
-/
namespace Sys2Proof.Machine

/-- One step: the turn that comes, and what follows from it. -/
def step (s : State) : Host.Outcome State Fault Refusal := s.advanceTurn

/-- `s` with the instruction of some bits where the next step fetches it (assumption log, entry 5). -/
def State.withFetchWord (s : State) (nbits w : Nat) : State :=
  let words := placedBits nbits w
  s.placed (decodeWord (words.getD 0 0) ⟨words.getD 1 0, words.getD 2 0, words.getD 3 0, words.getD 4 0⟩) words

end Sys2Proof.Machine
end

