-- ==== Sys2Proof/Safety.lean ====
section
/-!
DEFINITION. What a safe run is: the machine answers a next state, its memories keep their canonical form, and what holds
of the whole part at the end of every step holds.
-/
namespace Sys2Proof.Machine

/-- R432: a tracked step has the queue that declared it, or a launch that carries it and has not ended. -/
def State.stepsOpen (s : State) : Bool :=
  s.steps.all fun x => x.queue.isSome || s.launches.any fun l => !launchEnded l && l.steps.contains x.id

/-- R259: no riddle state outlives a member of its gang. -/
def Team.gangsAlive (t : Team) : Bool :=
  t.riddles.all fun r => r.members.all fun m => (t.groups[m]?).any fun g => g.run ≠ .ended
def State.gangsAlive (s : State) : Bool := s.teams.all Team.gangsAlive

/-- R312, R453: an invalidation is under way only while engine commands of its context are outstanding. -/
def State.invalWaits (s : State) : Bool :=
  match s.regs.invgo with
  | none => true
  | some v => s.enginesBusy (getField v 8 6)

/-- What every step leaves true. -/
def State.settled (s : State) : Bool := s.stepsOpen && s.gangsAlive && s.invalWaits

/-- The memories in canonical form. -/
def State.memoriesCanonical (s : State) : Bool := Memory.wf s.mem && Memory.wf s.hostMem

/-- A safe state. -/
def State.safe (s : State) : Bool := s.settled && s.memoriesCanonical

/-- A run of `n` steps that answers a next state each time and stays safe. -/
def State.runsSafely : Nat → State → Bool
  | 0, s => s.safe
  | n + 1, s => s.safe && match step s with
    | .next s' => State.runsSafely n s'
    | .fault _ => false
    | .refused _ => false

/-! ### What statements about one word say -/

/-- A word issues: its agent has a unit, and no check of R44 turns the word away. -/
def State.issues (s : State) (h : Head) (check : Group → WordCheck) (g : Group) : Prop :=
  s.unitOf s.issuer = some g ∧ gatheredNow g = false ∧ firstFault g h (check g) = none

/-- The flag a word selects may count up (R16). -/
def flagFree (g : Group) (h : Head) : Prop := flagBlocked g (selectedFlag g h.fs) = false

/-- A team, and a cluster, without what its units hold. -/
def Team.bare (t : Team) : Team := { t with groups := [], issued := 0 }
def Cluster.bare (c : Cluster) : Cluster :=
  { c with handler := c.handler.map fun h => { h with cpu := Group.start .control 0 0 1 } }

/-- The part without its units, their outstanding operations and the counts of issued words: what is left is every
memory, scratchpad, operand buffer and tile, every table, queue and register of the part. -/
def State.bare (s : State) : State :=
  { s with teams := s.teams.map Team.bare, clusters := s.clusters.map Cluster.bare, ops := [], domains := [], nextId := 0 }

/-- Only the issuing unit, outstanding operations and the counts of issued words differ. -/
def State.onlyUnit (s t : State) : Prop := t.bare = s.bare ∧ ∀ i, i ≠ s.issuer → t.unitOf i = s.unitOf i

/-- A unit keeps every register but those that `names` gives for a lane of `lanes`, and everything that no word of class I,
F or C writes. -/
def Group.keeps (g g' : Group) (lanes : BitVec 32) (names : Nat → List RegName) : Prop :=
  (∀ n, (∀ l, lanes.getLsbD l = true → .k n ∉ names l) → readK g' n = readK g n) ∧
  (∀ l n, (lanes.getLsbD l = true → .v n ∉ names l) → readV (threadAt g' l) n = readV (threadAt g l) n) ∧
  (∀ l n, (lanes.getLsbD l = true → .p n ∉ names l) → readP (threadAt g' l) n = readP (threadAt g l) n) ∧
  (∀ l, (threadAt g' l).x = (threadAt g l).x ∧ (threadAt g' l).exited = (threadAt g l).exited) ∧
  g'.mstat = g.mstat ∧ g'.gang = g.gang ∧ g'.ssw0 = g.ssw0 ∧ g'.ssw1 = g.ssw1 ∧ g'.faultAddr = g.faultAddr ∧
  g'.cohort = g.cohort ∧ g'.role = g.role ∧ g'.alloc = g.alloc

/-- A destination reads as a result: nothing is asked of zero, which discards it (R21); a predicate holds whether the
result is nonzero, a register its low 32 bits, a pair all 64 (R62). -/
def holdsResult (g : Group) (lane : Nat) (wide : Bool) (d : Spec) (v : Word64) : Prop :=
  match opdOf d with
  | .p n => readP (threadAt g lane) n = decide (v ≠ 0)
  | .v _ | .k _ | .rel .. => readSrc g lane wide d = if wide then v else (lowHalf v).zeroExtend 64
  | _ => True

/-- A row of a table of instructions of the ALU layout: its constructor, its form and its result. -/
structure AluRow where
  con : AluW → Instr
  form : AluW → AluForm
  result : AluW → LaneIn → LaneOut

/-- The lanes whose result an ALU word delivers: one for a group-uniform word (R24). -/
def resultLanes (f : AluForm) (w : AluW) (g : Group) : List Nat :=
  if aluUniform f w then (lanesOf (guardMask g w.head)).take 1 else lanesOf (guardMask g w.head)

/-- The sticky flags a lane of an ALU word raises: its own, or, in a group-uniform word, those of its one run (R24, R69). -/
def laneFlags (r : AluRow) (w : AluW) (g : Group) (l : Nat) : BitVec 5 :=
  if aluUniform (r.form w) w then
    match lanesOf (guardMask g w.head) with
    | [] => 0
    | m :: _ => if (issuing g).getLsbD l then (r.result w (laneIn g (r.form w) w m)).flags else 0
  else if (guardMask g w.head).getLsbD l then (r.result w (laneIn g (r.form w) w l)).flags else 0

/-- An ALU word of fixed latency delivers: it answers a next state in which every lane of the result reads it, flags are
raised, and nothing else of the machine has changed (R18, R105, R108, R111). -/
def AluRow.delivers (r : AluRow) : Prop :=
  ∀ (w : AluW) (s : State) (g : Group), s.issues w.head (aluCheck (r.form w) w) g → flagFree g w.head →
    ∃ t g', Sys2Proof.Machine.exec (r.con w) s = .next t ∧ t.unitOf s.issuer = some g' ∧ s.onlyUnit t ∧
      (∀ l ∈ resultLanes (r.form w) w g, l < g.threads.length →
        holdsResult g' l (dstWide (r.form w).dst) w.dst (r.result w (laneIn g (r.form w) w l)).value) ∧
      (∀ l, l < g.threads.length → (threadAt g' l).status = (threadAt g l).status ||| (laneFlags r w g l).zeroExtend 32) ∧
      g.keeps g' (guardMask g w.head) (fun l => regNames g l w.dst (width (dstWide (r.form w).dst))) ∧
      t.ops = (s.cancelWrites s.issuer (aluWrites g (r.form w) w)).ops

/-- An ALU word of variable latency is issued: its results are pending under its flag, its hazard bits are set, and no
register has changed yet (R16, R17, R111). -/
def AluRow.starts (r : AluRow) (k : OpKind) : Prop :=
  ∀ (w : AluW) (s : State) (g : Group) (n : Nat), s.issues w.head (aluCheck (r.form w) w) g → flagFree g w.head →
    selectedFlag g w.head.fs = some n → guardMask g w.head ≠ 0 →
    ∃ t g' o, Sys2Proof.Machine.exec (r.con w) s = .next t ∧ t.unitOf s.issuer = some g' ∧ s.onlyUnit t ∧
      t.ops = (s.cancelWrites s.issuer (aluWrites g (r.form w) w)).ops ++ [o] ∧
      o.issuer = s.issuer ∧ o.kind = k ∧ o.flag = some n ∧ o.writes = (aluResults g (r.form w) w (r.result w)).1 ∧
      o.fstat = (aluResults g (r.form w) w (r.result w)).2 ∧ flagCount g' n = flagCount g n + (if n < g.cf.length then 1 else 0) ∧
      (∀ x ∈ aluWrites g (r.form w) w, hazardSet g' x = true) ∧ g.keeps g' 0 (fun _ => []) ∧
      ∀ l, (threadAt g' l).status = (threadAt g l).status

end Sys2Proof.Machine
end

