-- ==== Sys2Proof/WellFormed.lean ====
section
/-!
DEFINITION. Which terms of `Instr` stand for something: words the decoder can answer (R36, R42, R43, R234), commands of
a slot that holds their code (R446), and events of agents the part has.
-/
namespace Sys2Proof

/-- The level of a BAR word, and bit 1 of the subfield of an OBLD word, name its row of the opcode table. -/
def wfBar (l : Nat) (w : SysW) : Bool :=
  if l = 0 then w.lvl ≠ 1 && w.lvl ≠ 2 && w.lvl ≠ 3 else w.lvl.toNat = l
def wfObld (b : Bool) (w : TileW) : Bool := w.sub.getLsbD 1 = b

/-- A half opcode that R36 allocates. -/
def halfAllocated (h : Half) : Bool := h.op.toNat ≤ 0x11

/-- The opcodes of the F words that R42 does not allocate. -/
def opcodeFree (op : Nat) : Bool :=
  (0x39 ≤ op && op ≤ 0x3F) || (0x63 ≤ op && op ≤ 0x6F) || (0x78 ≤ op && op ≤ 0x7F) || (0x90 ≤ op && op ≤ 0x9F) ||
  (0xB2 ≤ op && op ≤ 0xBF) || (0xD2 ≤ op && op ≤ 0xDF) || (0xE9 ≤ op && op ≤ 0xEF) || 0xFC ≤ op

/-- A word that is no instruction (R7, R36, R43): an H or C word, a P word with an unallocated half, an F word with an
unallocated opcode. -/
def wfUnallocated (w : Word64) : Bool :=
  match (w.extractLsb' 62 2).toNat with
  | 0 => opcodeFree (w.extractLsb' 54 8).toNat
  | 1 => 0x11 < (w.extractLsb' 56 6).toNat || 0x11 < (w.extractLsb' 25 6).toNat
  | _ => true

/-- A command of one of the 64 queues whose slot holds its code. -/
def wfCommand (code q : Nat) (s : QSlot) : Bool := q < 64 && (s.low.w0.extractLsb' 0 8).toNat = code

/-- A register of a queue or a die that exists. -/
def wfReg : DevReg → Bool
  | .qcfg q | .qcons q | .qstat q => q < 64
  | .undo d | .mcres d | .scrub d => d < 3
  | _ => true

/-- Which terms stand for a word, a command or an event. -/
def wellFormed : Instr → Bool
  | .pWord u l => halfAllocated u && halfAllocated l
  | .barTeam w => wfBar 0 w
  | .barCluster w => wfBar 1 w
  | .barDie w => wfBar 2 w
  | .barGrid w => wfBar 3 w
  | .obld w => wfObld false w
  | .obldB w => wfObld true w
  | .unallocatedOpcode w => wfUnallocated w
  | .launch q s => wfCommand 1 q s
  | .step q s => wfCommand 2 q s
  | .seed q s => wfCommand 3 q s
  | .waith q s => wfCommand 4 q s
  | .signal q s => wfCommand 5 q s
  | .ckpt q s => wfCommand 6 q s
  | .handle q s => wfCommand 7 q s
  | .invtlb q s => wfCommand 8 q s
  | .doorbell q _ => q < 64
  | .starvationGuard core part => core < 144 && part < 8
  | .teamSwitchBack _ core => core < 144
  | .stokerBilletStart cluster _ core => cluster < 18 && core < 144
  | .pageWalkComplete die ctx _ => die < 3 && ctx < 64
  | .linkReplay link _ => link < 6
  | .uncorrRollback ctx die => ctx < 64 && die < 3
  | .patrolScrub die _ => die < 3
  | .bellowsPeriod temps _ => temps.length = 3
  | .registerWrite reg _ => wfReg reg
  | _ => true

end Sys2Proof
end

