-- ==== Sys2Proof/Certificates/Slice0/Obligations.lean ====
section
/-!
DEFINITION. The statements about the model that the provers prove, and the words they are written in.
-/
namespace Sys2Proof.Machine

/-! ### Words in general -/

/-- A word runs: `exec` answers a next state in which the issuing unit is as `unit` says, the rest of the part as `part`
says, and no other unit has changed. -/
def State.runs (s : State) (i : Instr) (unit : Group → Prop) (part : State → Prop) : Prop :=
  ∃ t g', Sys2Proof.Machine.exec i s = .next t ∧ t.unitOf s.issuer = some g' ∧ (∀ j, j ≠ s.issuer → t.unitOf j = s.unitOf j) ∧
    unit g' ∧ part t

/-- Nothing but units has changed, and no outstanding write is left to the registers `names` (R106). -/
def State.unmoved (s t : State) (names : List RegName) : Prop :=
  t.bare = s.bare ∧ t.ops = (s.cancelWrites s.issuer names).ops

/-- Nothing that a word writes has changed in a unit. -/
def Group.still (g g' : Group) : Prop :=
  g.keeps g' 0 (fun _ => []) ∧ ∀ l, (threadAt g' l).status = (threadAt g l).status

/-- Every guard-true lane reads its result in the destination; every other register, and every sticky flag, is kept. -/
def Group.lanesHold (g g' : Group) (h : Head) (wide : Bool) (d : Spec) (value : Nat → Word64) : Prop :=
  (∀ l, (guardMask g h).getLsbD l = true → l < g.threads.length → holdsResult g' l wide d (value l)) ∧
  (∀ l, (threadAt g' l).status = (threadAt g l).status) ∧
  g.keeps g' (guardMask g h) fun l => regNames g l d (width wide)

/-- A unit waits for a new operation: the flag it selected counts it, the registers it will write carry their hazard bits,
and nothing has been written yet (R16, R17). -/
def Group.awaits (g g' : Group) (n : Nat) (names : List RegName) : Prop :=
  flagCount g' n = flagCount g n + (if n < g.cf.length then 1 else 0) ∧ (∀ m, m ≠ n → flagCount g' m = flagCount g m) ∧
  (∀ x ∈ names, hazardSet g' x = true) ∧ g.still g'

/-- A word of variable latency is issued: one new operation of the issuing unit is pending, under the flag it selected;
`rel` says what the operation and the part are. -/
def State.begins (s : State) (i : Instr) (g : Group) (names : List RegName) (n : Nat) (k : OpKind) (rel : Op → State → Prop) : Prop :=
  ∃ o, o.issuer = s.issuer ∧ o.kind = k ∧ o.flag = some n ∧
    s.runs i (fun g' => g.awaits g' n names) fun t => rel o t ∧ t.ops = (s.cancelWrites s.issuer names).ops ++ [o]

/-- The part without its units and without what an access leaves behind as it issues: requests, translations, copies in the
L1, and a task's counts of sequence numbers and log bytes. -/
def State.resting (s : State) : State :=
  { s.bare with
    reqs := [], l1 := [], dies := s.dies.map fun d => { d with tlb := [] }
    teams := s.bare.teams.map fun t => { t with seq := 0, logged := [], loggedHeld := [] } }

/-- New requests of an operation, one for each of some lanes: kind, virtual and physical address, size and data (R338). -/
def State.sends (s t : State) (o : Op) (lanes : List Nat) (kind : ReqKind) (va pa : Nat → Nat) (size : Nat) (data : Nat → List Byte) : Prop :=
  ∃ rs, t.reqs = s.reqs ++ rs ∧
    (rs.map fun r => (r.lane, r.kind, r.va, r.pa, r.size, r.data)) = (lanes.map fun l => (l, kind, va l, pa l, size, data l)) ∧
    ∀ r ∈ rs, r.op = some o.id ∧ r.performed = false ∧ r.acked = false

/-- A memory word need not wait: its flag is free, no acquire of its group is outstanding, and what it releases has taken
effect (R378, R379). -/
def memFree (s : State) (g : Group) (h : Head) (sem scope : Nat) : Prop :=
  flagFree g h ∧ s.acquiring s.issuer = false ∧ (semRel sem = true → s.released s.issuer scope = true)

/-- An address lies in the slot of a record entered in the cinder ring from one state to another, once the ring has a place in
memory (R428). -/
def State.ringPut (s t : State) (a : Nat) : Prop := t.cinderBase ≠ 0 ∧ ∃ k, k < (t.cinderSeq - s.cinderSeq).toNat ∧
  let slot := canonPa (t.cinderBase + 64 * ((s.cinderSeq.toNat + k) % 4194304))
  slot ≤ a ∧ a < slot + 64

/-- Memory holds what it held but for the records entered in the cinder ring since (R428). -/
def State.memKept (s t : State) : Prop := ∀ a : Nat, ¬ s.ringPut t a → Cells.get emptyByte t.mem a = Cells.get emptyByte s.mem a

/-- No bank switch is pending (R198). -/
def banksStill (s : State) : Prop := ∀ o ∈ s.ops, o.kind ≠ .bankSwitch

/-! ### Class I: moves, arithmetic, logic, bit fields, comparisons (R112-R122, R126, R127) -/

/-- A result of 32 bits that raises no flag, and one of 64 bits. -/
def gives (x : Int) : LaneOut := ⟨(BitVec.ofInt 32 x).zeroExtend 64, 0⟩
def gives64 (x : Int) : LaneOut := ⟨BitVec.ofInt 64 x, 0⟩
def truth (b : Bool) : LaneOut := ⟨if b then 1 else 0, 0⟩

/-- An exact integer held within 32 signed bits (R63). -/
def saturated (x : Int) : Int := max (-(2 ^ 31)) (min x (2 ^ 31 - 1))

/-- Moves, sums and products (R112, R113). -/
def moveSumRows : List AluRow :=
  [⟨.nop, fun _ => formNone, fun _ _ => gives 0⟩,
   ⟨.mov, fun _ => formA, fun _ x => gives (uA x)⟩,
   ⟨.movi, fun _ => { formNone with dst := .reg, b := .any, imm := .sign, needImm := true }, fun _ x => gives (uB x)⟩,
   ⟨.movh, fun _ => { formAB .high with needImm := true }, fun _ x => ⟨(rB x ||| (rA x &&& 0x0000FFFF)).zeroExtend 64, 0⟩⟩,
   ⟨.iadd, fun _ => formAB .sign, fun _ x => gives (sA x + sB x)⟩,
   ⟨.isub, fun _ => formAB .sign, fun _ x => gives (sA x - sB x)⟩,
   ⟨.iaddc, fun _ => formABC .none fun m => m < 2, fun _ x =>
     let t := uA x + uB x + uC x % 2
     gives (if x.mod = 1 then t / 2 ^ 32 else t)⟩,
   ⟨.imul, fun _ => formAB .sign, fun _ x => gives (sA x * sB x)⟩,
   ⟨.imulh, fun _ => formAB .sign, fun _ x => gives (sA x * sB x / 2 ^ 32)⟩,
   ⟨.imulhu, fun _ => formAB .zero, fun _ x => gives (uA x * uB x / 2 ^ 32 : Nat)⟩,
   ⟨.imad, fun _ => formABC .none modZero, fun _ x => gives (sA x * sB x + sC x)⟩,
   ⟨.imadw, fun _ => { formABC .none (fun m => m < 2) with dst := .wide, c := .wide }, fun _ x =>
     gives64 (if x.mod = 1 then uA x * uB x + x.c.toNat else sA x * sB x + x.c.toInt)⟩,
   ⟨.iadds, fun _ => formAB .sign, fun _ x => gives (saturated (sA x + sB x))⟩,
   ⟨.isubs, fun _ => formAB .sign, fun _ x => gives (saturated (sA x - sB x))⟩]

/-- Minimum, maximum, distance, logic and shifts (R115-R117). -/
def logicRows : List AluRow :=
  [⟨.imin, fun _ => formAB .sign, fun _ x => gives (min (sA x) (sB x))⟩,
   ⟨.imax, fun _ => formAB .sign, fun _ x => gives (max (sA x) (sB x))⟩,
   ⟨.iminu, fun _ => formAB .zero, fun _ x => gives (min (uA x) (uB x) : Nat)⟩,
   ⟨.imaxu, fun _ => formAB .zero, fun _ x => gives (max (uA x) (uB x) : Nat)⟩,
   ⟨.iabs, fun _ => formA, fun _ x => gives |sA x|⟩,
   ⟨.isad, fun _ => formABC .none fun m => m < 2, fun _ x =>
     gives ((if x.mod = 1 then |(uA x : Int) - uB x| else |sA x - sB x|) + uC x)⟩,
   ⟨.and, fun _ => formAB .zero, fun _ x => gives (rA x &&& rB x).toNat⟩,
   ⟨.or, fun _ => formAB .zero, fun _ x => gives (rA x ||| rB x).toNat⟩,
   ⟨.xor, fun _ => formAB .zero, fun _ x => gives (rA x ^^^ rB x).toNat⟩,
   ⟨.andn, fun _ => formAB .zero, fun _ x => gives (rA x &&& ~~~ rB x).toNat⟩,
   ⟨.lop3, fun w => { formAB .none with c := .raw, old := .always, extra := if isImm w || w.opc.toNat < 256 then [] else [0x04] },
     fun w x => ⟨(BitVec.ofFnLE fun i : Fin 32 => bitOf w.opc.toNat (4 * ((rA x).getLsbD i).toNat +
       2 * ((rB x).getLsbD i).toNat + ((lowHalf x.old).getLsbD i).toNat)).zeroExtend 64, 0⟩⟩,
   ⟨.shl, fun _ => formAB .zero, fun _ x => gives (if uB x < 32 then uA x * 2 ^ uB x else 0 : Nat)⟩,
   ⟨.shr, fun _ => formAB .zero, fun _ x => gives (if uB x < 32 then uA x / 2 ^ uB x else 0 : Nat)⟩,
   ⟨.sar, fun _ => formAB .zero, fun _ x => gives (if uB x < 32 then sA x / 2 ^ uB x else if sA x < 0 then -1 else 0)⟩,
   ⟨.rot, fun _ => formAB .zero, fun _ x => gives ((uA x * 2 ^ (uB x % 32) + uA x / 2 ^ (32 - uB x % 32) : Nat) % 2 ^ 32 : Nat)⟩,
   ⟨.funl, fun _ => formABC .none fun m => m < 2, fun _ x =>
     let t := uA x * 2 ^ 32 + uB x
     let n := uC x % 64
     gives (if x.mod = 1 then t / 2 ^ n else t * 2 ^ n % 2 ^ 64 / 2 ^ 32 : Nat)⟩]

/-- A field of `b`: its position, and its last bit (R118). -/
def fieldPos (x : LaneIn) : Nat := uB x % 256
def fieldTop (x : LaneIn) : Nat := min (fieldPos x + uB x / 256 % 256) 32 - 1
def noField (x : LaneIn) : Bool := uB x / 256 % 256 = 0 || 32 ≤ fieldPos x

/-- Bit fields and counting (R118, R119). -/
def bitRows : List AluRow :=
  [⟨.bfx, fun _ => formAB .zero, fun _ x =>
     let n := fieldTop x + 1 - fieldPos x
     let f := uA x / 2 ^ fieldPos x % 2 ^ n
     gives (if noField x then 0 else if 2 ^ n ≤ 2 * f then (f : Int) - 2 ^ n else f)⟩,
   ⟨.bfxu, fun _ => formAB .zero, fun _ x =>
     gives (if noField x then 0 else (uA x / 2 ^ fieldPos x % 2 ^ (fieldTop x + 1 - fieldPos x) : Nat))⟩,
   ⟨.bfi, fun _ => { formABC .zero modZero with old := .immediate }, fun _ x =>
     ⟨(BitVec.ofFnLE fun i : Fin 32 =>
       if !noField x ∧ fieldPos x ≤ i ∧ i ≤ fieldTop x then (rA x).getLsbD (i - fieldPos x) else (rC x).getLsbD i).zeroExtend 64, 0⟩⟩,
   ⟨.popc, fun _ => formA, fun _ x => gives ((List.range 32).filter fun i => (rA x).getLsbD i).length⟩,
   ⟨.clz, fun _ => formA, fun _ x => gives ((List.range 32).filter fun i => (List.range 32).all fun j => j < i || !(rA x).getLsbD j).length⟩,
   ⟨.brev, fun _ => formA, fun _ x => ⟨(BitVec.ofFnLE fun i : Fin 32 => (rA x).getLsbD (31 - i)).zeroExtend 64, 0⟩⟩,
   ⟨.ffs, fun _ => formA, fun _ x => gives (match (List.range 32).find? fun i => (rA x).getLsbD i with | some i => i | none => -1)⟩]

/-- The six comparisons, and the combines of a comparison and of PSET, by their codes (R120, R121). -/
def compared (c : Nat) (a b : Int) : Bool := [decide (a = b), decide (a ≠ b), decide (a < b), decide (a ≤ b), decide (a > b)].getD c (decide (a ≥ b))
def combined (c : Nat) (t p : Bool) : Bool := [t, t && p, t || p].getD c (xor t p)
def connective (c : Nat) (p q : Bool) : Bool := [p && q, p || q, xor p q, p && !q, p || !q].getD c (!(xor p q))

/-- The predicate of ISET, ISETU and ISET64. -/
def isetTruth (x : LaneIn) (a b : Int) : LaneOut := truth (combined (x.mod / 8 % 4) (compared (x.mod % 8) a b) (x.c ≠ 0))

/-- Comparisons, predicates, selection, addresses and 64-bit sums (R120-R122, R126, R127). -/
def compareRows : List AluRow :=
  [⟨.iset, fun w => formSet .sign .any w false, fun _ x => isetTruth x (sA x) (sB x)⟩,
   ⟨.isetu, fun w => formSet .zero .any w false, fun _ x => isetTruth x (uA x) (uB x)⟩,
   ⟨.iset64, fun w => formSet .sign64 .wide w true, fun _ x =>
     if x.mod / 32 % 2 = 1 then isetTruth x x.a.toNat x.b.toNat else isetTruth x x.a.toInt x.b.toInt⟩,
   ⟨.pset, fun w => ⟨anyRole, .pred, .pred, .pred, .pred, .none, false, .never, fun m => m % 8 < 6 && field m 3 3 < 6,
     if isImm w then [0x03] else [], none⟩,
     fun _ x => truth (connective (x.mod / 8 % 8) (connective (x.mod % 8) (x.a ≠ 0) (x.b ≠ 0)) (x.c ≠ 0))⟩,
   ⟨.sel, fun _ => { formAB .none with c := .pred }, fun _ x => gives (if x.c ≠ 0 then uA x else uB x : Nat)⟩,
   ⟨.lea, fun _ => { formAB .sign with mods := fun m => m < 8 }, fun _ x => gives (uA x + uB x * 2 ^ (x.mod % 8) : Nat)⟩,
   ⟨.lea64, fun _ => ⟨anyRole, .wide, .wide, .any, .none, .sign, false, .never, fun m => m < 16, [], none⟩, fun _ x =>
     gives64 (x.a.toNat + (if x.mod / 8 % 2 = 1 then (uB x : Int) else sB x) * 2 ^ (x.mod % 8))⟩,
   ⟨.iadd64, fun _ => form64 .sign64, fun _ x => gives64 (x.a.toInt + x.b.toInt)⟩,
   ⟨.isub64, fun _ => form64 .sign64, fun _ x => gives64 (x.a.toInt - x.b.toInt)⟩]

/-! ### Classes F and C: arithmetic, comparison and conversion (R134-R151, R154-R156) -/

/-- The values of a lane's FP32, element and binary64 operands: subnormals read as zeros under .FTZ (R68). -/
def fA (f : Fmt) (lo : Nat) (x : LaneIn) : FVal := unpack f (ftzIn x) (field (uA x) lo f.width)
def fB (f : Fmt) (lo : Nat) (x : LaneIn) : FVal := unpack f (ftzIn x) (field (uB x) lo f.width)
def fC (f : Fmt) (lo : Nat) (x : LaneIn) : FVal := unpack f (ftzIn x) (field (uC x) lo f.width)
def dA (x : LaneIn) : FVal := unpack fp64 (ftzIn x) x.a.toNat
def dB (x : LaneIn) : FVal := unpack fp64 (ftzIn x) x.b.toNat
def dC (x : LaneIn) : FVal := unpack fp64 (ftzIn x) x.c.toNat

/-- An exact value of some inputs rounded once; a NaN that no input is raises NV (R67, R134, R137). -/
def roundedOf (f : Fmt) (x : LaneIn) (ins : List FVal) (v : FVal) : LaneOut := outR (finish f (rmIn x) (ftzIn x) ins v)

/-- Two elements computed apart, the flags of both raised (R143). -/
def bothElements (r : Nat → Rounded) : LaneOut :=
  ⟨BitVec.ofNat 64 ((r 0).bits + 2 ^ 16 * (r 16).bits), (r 0).flags ||| (r 16).flags⟩
def sumOf (f : Fmt) (x : LaneIn) (lo : Nat) : Rounded :=
  finish f (rmIn x) (ftzIn x) [fA f lo x, fB f lo x] (fadd (rmIn x) (fA f lo x) (fB f lo x))
def productOf (f : Fmt) (x : LaneIn) (lo : Nat) : Rounded :=
  finish f (rmIn x) (ftzIn x) [fA f lo x, fB f lo x] (fmul (fA f lo x) (fB f lo x))
def fusedOf (f : Fmt) (x : LaneIn) (lo : Nat) : Rounded :=
  finish f (rmIn x) (ftzIn x) [fA f lo x, fB f lo x, fC f lo x] (fadd (rmIn x) (fmul (fA f lo x) (fB f lo x)) (fC f lo x))

/-- Whether a value is not a NaN and, for two of them, less, zeros equal (R139). -/
def comparedFloat (c : Nat) (a b : FVal) : Bool :=
  let ordered := !isNan a && !isNan b
  [ordered && !flt a b && !flt b a, !ordered || flt a b || flt b a, ordered && flt a b, ordered && !flt b a, ordered && flt b a,
    ordered && !flt a b, ordered].getD c (!ordered)
def setTruth (w : AluW) (x : LaneIn) (a b : FVal) : LaneOut :=
  truth (comparedFloat (x.mod % 8) a b && (isImm w || w.opc = specZero || x.c ≠ 0))

/-- FP32 and binary64 arithmetic, minima, comparisons, classes and integral rounding (R137-R141, R146). -/
def floatRows : List AluRow :=
  [⟨.fadd, fun _ => formF2 .bf32, fun _ x => roundedOf fp32 x [fA fp32 0 x, fB fp32 0 x] (fadd (rmIn x) (fA fp32 0 x) (fB fp32 0 x))⟩,
   ⟨.fsub, fun _ => formF2 .bf32, fun _ x => roundedOf fp32 x [fA fp32 0 x, fB fp32 0 x] (fadd (rmIn x) (fA fp32 0 x) (fneg (fB fp32 0 x)))⟩,
   ⟨.fmul, fun _ => formF2 .bf32, fun _ x => roundedOf fp32 x [fA fp32 0 x, fB fp32 0 x] (fmul (fA fp32 0 x) (fB fp32 0 x))⟩,
   ⟨.ffma, fun _ => formF3 .bf32, fun _ x => roundedOf fp32 x [fA fp32 0 x, fB fp32 0 x, fC fp32 0 x]
     (fadd (rmIn x) (fmul (fA fp32 0 x) (fB fp32 0 x)) (fC fp32 0 x))⟩,
   ⟨.fmin, fun _ => formMinMax, fun _ x => gives (opMinMax fp32 (ftzIn x) false false (uA x) (uB x))⟩,
   ⟨.fmax, fun _ => formMinMax, fun _ x => gives (opMinMax fp32 (ftzIn x) false true (uA x) (uB x))⟩,
   ⟨.fminn, fun _ => formMinMax, fun _ x => gives (opMinMax fp32 (ftzIn x) true false (uA x) (uB x))⟩,
   ⟨.fmaxn, fun _ => formMinMax, fun _ x => gives (opMinMax fp32 (ftzIn x) true true (uA x) (uB x))⟩,
   ⟨.fset, fun _ => formF .pred .any .any .pred .bf32 false fun _ => true, fun w x => setTruth w x (fA fp32 0 x) (fB fp32 0 x)⟩,
   ⟨.dset, fun _ => formF .pred .wide .wide .pred .bf64 false fun _ => true, fun w x => setTruth w x (dA x) (dB x)⟩,
   ⟨.fclass, fun _ => formF .reg .any .none .none .none false fun n => n < 3, fun _ x =>
     let f := [fp32, fp16].getD (x.mod % 4) bf16
     gives (classMask f (ftzIn x) (uA x % 2 ^ f.width))⟩,
   ⟨.frnd, fun _ => formF .reg .any .none .none .none true fun n => n < 2, fun _ x =>
     ⟨BitVec.ofNat 64 (opRound (rmIn x) (ftzIn x) (uA x)).1,
       if x.mod % 2 = 1 ∧ (opRound (rmIn x) (ftzIn x) (uA x)).2 = true then flNX else 0⟩⟩,
   ⟨.dadd, fun _ => formD, fun _ x => roundedOf fp64 x [dA x, dB x] (fadd (rmIn x) (dA x) (dB x))⟩,
   ⟨.dmul, fun _ => formD, fun _ x => roundedOf fp64 x [dA x, dB x] (fmul (dA x) (dB x))⟩,
   ⟨.dfma, fun _ => { formD with c := .wide, old := .immediate }, fun _ x =>
     roundedOf fp64 x [dA x, dB x, dC x] (fadd (rmIn x) (fmul (dA x) (dB x)) (dC x))⟩]

/-- The signed or unsigned byte `j` of a register (R144). -/
def dotByte (a : Nat) (j : Nat) (unsigned : Bool) : Int :=
  if unsigned then (a / 256 ^ j % 256 : Nat) else (BitVec.ofNat 8 (a / 256 ^ j)).toInt

/-- Packed forms and dot products (R143-R145). -/
def packedRows : List AluRow :=
  [⟨.hadd2, fun _ => formF2 .half2, fun _ x => bothElements (sumOf fp16 x)⟩,
   ⟨.hmul2, fun _ => formF2 .half2, fun _ x => bothElements (productOf fp16 x)⟩,
   ⟨.hfma2, fun _ => formF3 .half2, fun _ x => bothElements (fusedOf fp16 x)⟩,
   ⟨.badd2, fun _ => formF2 .bf2, fun _ x => bothElements (sumOf bf16 x)⟩,
   ⟨.bmul2, fun _ => formF2 .bf2, fun _ x => bothElements (productOf bf16 x)⟩,
   ⟨.bfma2, fun _ => formF3 .bf2, fun _ x => bothElements (fusedOf bf16 x)⟩,
   ⟨.hmax2, fun _ => formHalfMinMax, fun _ x => bothElements fun lo =>
     ⟨opMinMax fp16 (ftzIn x) (x.mod % 2 = 1) true (field (uA x) lo 16) (field (uB x) lo 16), 0⟩⟩,
   ⟨.hmin2, fun _ => formHalfMinMax, fun _ x => bothElements fun lo =>
     ⟨opMinMax fp16 (ftzIn x) (x.mod % 2 = 1) false (field (uA x) lo 16) (field (uB x) lo 16), 0⟩⟩,
   ⟨.idp4, fun _ => { formF .reg .any .any .any .none false (fun _ => true) with mods := fun m => m < 8 }, fun _ x =>
     let t := sC x + ((List.range 4).map fun j =>
       dotByte (uA x) j (x.mod % 2 = 1) * dotByte (uB x) j (x.mod / 2 % 2 = 1)).sum
     gives (if x.mod / 4 % 2 = 1 then saturated t else t)⟩,
   ⟨.fdp2h, fun _ => formF .reg .any .any .any .none true fun n => n < 2, fun _ x =>
     let f := if x.mod % 2 = 1 then bf16 else fp16
     roundedOf fp32 x [fA f 0 x, fA f 16 x, fB f 0 x, fB f 16 x, fC fp32 0 x]
       (fadd (rmIn x) (fadd (rmIn x) (fmul (fA f 0 x) (fB f 0 x)) (fmul (fA f 16 x) (fB f 16 x))) (fC fp32 0 x))⟩]

/-- Conversions, scaling, permutation and packing (R148-R151, R154-R156). -/
def convertRows : List AluRow :=
  [⟨.cvt, formCvt, fun w x => outR (convert ((cvtType (w.opc.toNat / 16 % 16)).getD f32) ((cvtType (w.opc.toNat % 16)).getD f32)
     (rmOf (x.mod % 8)) (x.mod / 8 % 2 = 1) (x.mod / 16 % 2 = 1) (uA x))⟩,
   ⟨.cvtp, formCvtp, fun w x =>
     let d : CvtType := .float ([fp16, bf16, e4m3].getD (w.opc.toNat % 4) e5m2)
     let conv (a : Nat) : Rounded := convert d (.float fp32) (rmOf (x.mod % 8)) (x.mod / 8 % 2 = 1) (x.mod / 16 % 2 = 1) a
     ⟨BitVec.ofNat 64 ((conv (uA x)).bits + 2 ^ d.width * (conv (uB x)).bits), (conv (uA x)).flags ||| (conv (uB x)).flags⟩⟩,
   ⟨.cvt64, formCvt64, fun w x => outR (convert ((cvt64Type (w.opc.toNat / 16 % 16)).getD f32)
     ((cvt64Type (w.opc.toNat % 16)).getD f32) (rmOf (x.mod % 8)) (x.mod / 8 % 2 = 1) false x.a.toNat)⟩,
   ⟨.sclx, fun _ => formC .reg .any .any .none .zero fun m => field m 1 2 = 0, fun _ x =>
     if x.mod % 2 = 1 ∧ uB x % 256 = 255 then ⟨0x7FC00000, flNV⟩
     else outR (opScale (rmIn x) (ftzIn x) (uA x) (if x.mod % 2 = 1 then ((uB x % 256 : Nat) : Int) - 127 else sB x))⟩,
   ⟨.prmt, fun _ => formC .reg .any .any .any .zero modZero, fun w x =>
     let c := if isImm w then uB x else uC x
     let b := if isImm w then uA x else uB x
     let source (i : Nat) : Nat := (uA x + 2 ^ 32 * b) / 256 ^ (c / 16 ^ i % 8) % 256
     gives ((List.range 4).map fun i =>
       256 ^ i * (if c / 16 ^ i % 16 < 8 then source i else if 128 ≤ source i then 255 else 0)).sum⟩,
   ⟨.pack4, fun _ => formC .reg .any .any .none .none fun m => m < 2, fun _ x =>
     let bytes (j : Nat) : Nat := (if j < 4 then uA x else uB x) / 256 ^ (j % 4) % 256
     gives ((List.range 8).map fun j => 16 ^ j * (if x.mod = 1 then min (bytes j) 15
       else (max (-8) (min ((BitVec.ofNat 8 (bytes j)).toInt) 7) % 16).toNat)).sum⟩]

/-! ### Variable-latency forms (R114, R142) -/

/-- Division: truncation toward zero, and what a divisor of 0 gives (R63, R114). -/
def divisionRows : List AluRow :=
  [⟨.idiv, fun _ => formDiv .sign, fun _ x => gives (if uB x = 0 then -1 else (sA x).tdiv (sB x))⟩,
   ⟨.idivu, fun _ => formDiv .zero, fun _ x => gives (if uB x = 0 then -1 else uA x / uB x)⟩,
   ⟨.irem, fun _ => formDiv .sign, fun _ x => gives (if uB x = 0 then sA x else sA x - sB x * (sA x).tdiv (sB x))⟩,
   ⟨.iremu, fun _ => formDiv .zero, fun _ x => gives (if uB x = 0 then uA x else uA x % uB x : Nat)⟩]

/-- The long-latency functions, correctly rounded (R142). -/
def longRows : List AluRow :=
  [⟨.frcp, fun _ => formLong true, fun _ x => outR (opRcp (rmIn x) (ftzIn x) (uA x))⟩,
   ⟨.frsq, fun _ => formLong true, fun _ x => outR (opRsq (rmIn x) (ftzIn x) (uA x))⟩,
   ⟨.fsqrt, fun _ => formLong true, fun _ x => outR (opSqrt (rmIn x) (ftzIn x) (uA x))⟩,
   ⟨.fdiv, fun _ => { formF2 .bf32 with varLat := some .fpLong }, fun _ x => outR (opDiv (rmIn x) (ftzIn x) (uA x) (uB x))⟩,
   ⟨.fex2, fun _ => formLong false, fun _ x => outR (opEx2 (ftzIn x) (uA x))⟩,
   ⟨.flg2, fun _ => formLong false, fun _ x => outR (opLg2 (ftzIn x) (uA x))⟩,
   ⟨.fsin, fun _ => formLong false, fun _ x => outR (opTrig false (ftzIn x) (uA x))⟩,
   ⟨.fcos, fun _ => formLong false, fun _ x => outR (opTrig true (ftzIn x) (uA x))⟩,
   ⟨.ftanh, fun _ => formLong false, fun _ x => outR (opTanh (ftzIn x) (uA x))⟩,
   ⟨.fsigm, fun _ => formLong false, fun _ x => outR (opSigm (ftzIn x) (uA x))⟩]

/-! ### Predicates, index registers, special registers (R123-R131), the P word (R36-R39), blocks (R152, R153) -/

/-- `PMOV` writes a truth: of `a ≠ 0`, or of one bit of `a`; or all sixteen predicates from the bits of `a` (R123). -/
def pmovMoves : Prop := ∀ (w : AluW) (s : State) (g : Group), s.issues w.head (aluCheck (formPmov w) w) g → flagFree g w.head →
  let a (l : Nat) : Reg32 := lowHalf (readSrc g l false w.opa)
  let b (l : Nat) : Nat := (lowHalf (readSrc g l false w.opb)).toNat
  (isImm w = false ∧ w.mod.toNat = 0 → s.runs (.pmov w)
    (fun g' => g.lanesHold g' w.head false w.dst fun l => if a l = 0 then 0 else 1) fun t => s.unmoved t (aluWrites g (formPmov w) w)) ∧
  (isImm w = false ∧ w.mod.toNat = 1 → s.runs (.pmov w)
    (fun g' => g.lanesHold g' w.head false w.dst fun l => if (a l).getLsbD (b l % 32) then 1 else 0)
      fun t => s.unmoved t (aluWrites g (formPmov w) w)) ∧
  (isImm w = false ∧ w.mod.toNat = 2 → s.runs (.pmov w)
    (fun g' => (∀ l n, (guardMask g w.head).getLsbD l = true → l < g.threads.length → n < 16 → readP (threadAt g' l) n = (a l).getLsbD n) ∧
      (∀ l, (threadAt g' l).status = (threadAt g l).status) ∧
      g.keeps g' (guardMask g w.head) fun _ => (List.range 16).map RegName.p)
    fun t => s.unmoved t ((List.range 16).map RegName.p))

/-- The index register `i` of every lane after `XSET` or `XADD`: the low half of `b`, or the wrapped sum (R124). -/
def indexWrites (add : Bool) (w : AluW) (g g' : Group) : Prop :=
  (∀ l j, l < g.threads.length → j < 4 →
    readX (threadAt g' l).x j =
      if (guardMask g w.head).getLsbD l = true ∧ j = w.dst.toNat then
        (if add then readX (threadAt g l).x j else 0) + BitVec.ofNat 16 (if isImm w then (w.opc ++ w.mod : BitVec 16).toNat
          else (readSrc g l false w.opb).toNat)
      else readX (threadAt g l).x j) ∧
  (∀ n, readK g' n = readK g n) ∧
  (∀ l, (threadAt g' l).v = (threadAt g l).v ∧ (threadAt g' l).p = (threadAt g l).p ∧
    (threadAt g' l).status = (threadAt g l).status ∧ (threadAt g' l).exited = (threadAt g l).exited) ∧
  g'.mstat = g.mstat ∧ g'.gang = g.gang ∧ g'.ssw0 = g.ssw0 ∧ g'.ssw1 = g.ssw1

/-- The special registers of a thread by their numbers (R90, R91); a task stands alone in its grid. -/
def specialList (s : State) (tm : Team) (la : Launch) (g : Group) (gi l : Nat) : List Nat :=
  let task := taskTeam s tm
  let nx := la.slot.low.w3.toNat % 2 ^ 24
  let ny := la.slot.low.w3.toNat / 2 ^ 24 % 2 ^ 12
  let nz := la.slot.low.w3.toNat / 2 ^ 36 % 2 ^ 12
  [l, 32 * gi + l, gi, tm.groups.length] ++
  (if task then [tm.tidx, 0, 0, 1, 1, 1] else [tm.tidx % nx, tm.tidx / nx % ny, tm.tidx / nx / ny, nx, ny, nz]) ++
  [tm.vcore / 8 % 6, tm.vcore / 48, tm.vcore, match g.role with | .copy => 0 | .matrix => 1 | _ => 2,
   tm.taskId.toNat % 2 ^ 32, tm.taskId.toNat / 2 ^ 32, la.seed.toNat, g.gang.toNat % 256, g.mstat.toNat,
   (threadAt g l).status.toNat, la.dataVa]

/-- No operation is outstanding that has sticky flags of the register to deliver (R130). -/
def statusSettled (s : State) (reg : Spec) : Prop :=
  ∀ o ∈ s.ops, o.issuer = s.issuer → ¬ (reg = 0x013 ∧ o.kind = .fpLong) ∧ ¬ (reg = 0x012 ∧ classX o.kind = true)

/-- `SREAD` delivers the register that OPA numbers, a pair for `%seed` and `%dseg` (R128). -/
def sreadReads : Prop := ∀ (w : AluW) (s : State) (g : Group) (t gi : Nat) (tm : Team) (la : Launch),
  s.issuer = .group t gi → s.teams[t]? = some tm → s.launches[tm.launch]? = some la →
  s.issues w.head (sreadCheck w) g → flagFree g w.head → statusSettled s w.opa →
  s.runs (.sread w) (fun g' => g.lanesHold g' w.head (w.opa = 0x010 || w.opa = 0x014) w.dst fun l =>
    BitVec.ofNat 64 ((specialList s tm la g gi l).getD w.opa.toNat 0)) fun t => s.unmoved t (aluWrites g (formSread w) w)

/-- What `SWR` leaves of a register: written, its bits cleared or set, where `mask` lets it (R129). -/
def swrValue (w : AluW) (mask old b : BitVec 32) : BitVec 32 :=
  BitVec.ofFnLE fun i : Fin 32 => if mask.getLsbD i then
    (if isImm w ∨ w.mod = 0 then b.getLsbD i else if w.mod = 1 then old.getLsbD i && !b.getLsbD i else old.getLsbD i || b.getLsbD i)
  else old.getLsbD i

/-- `SWR` changes the sticky flags of each guard-true thread, or the group's `%mstat` (R129). -/
def swrWrites : Prop := ∀ (w : AluW) (s : State) (g : Group), s.issues w.head (aluCheck (formSwr w) w) g → flagFree g w.head →
  statusSettled s w.opa →
  let b (l : Nat) : BitVec 32 := lowHalf (laneIn g (formSwr w) w l).b
  (w.opa = 0x013 → s.runs (.swr w) (fun g' =>
      (∀ l, l < g.threads.length → (threadAt g' l).status = if (guardMask g w.head).getLsbD l = true
        then swrValue w 0x1F (threadAt g l).status (b l) else (threadAt g l).status) ∧ g.keeps g' 0 fun _ => []) fun t => s.unmoved t []) ∧
  (w.opa = 0x012 → s.runs (.swr w) (fun g' => g'.mstat = swrValue w 0xFF g.mstat (b 0) ∧ g.still { g' with mstat := g.mstat })
    fun t => s.unmoved t [])

/-- `KREAD` copies a register of one issuing thread to a k register, 0 where that lane issues nothing (R131). -/
def kreadReads : Prop := ∀ (w : AluW) (s : State) (g : Group), s.issues w.head (aluCheck (formKread w) w) g → flagFree g w.head →
  let n := (lowHalf (laneIn g (formKread w) w 0).b).toNat
  s.runs (.kread w) (fun g' => holdsResult g' 0 false w.dst (if n < 32 ∧ (issuing g).getLsbD n = true then readSrc g n false w.opa else 0) ∧
    (∀ l, (threadAt g' l).status = (threadAt g l).status) ∧ g.keeps g' (-1) fun _ => regNames g 0 w.dst 1)
    fun t => s.unmoved t (aluWrites g (formKread w) w)

/-- What a half of a P word computes from its destination and its source, by its code (R37). -/
def halfTable : List (LaneIn → LaneOut) :=
  [fun x => gives (uB x), fun x => gives (sA x + sB x), fun x => gives (sA x - sB x), fun x => gives (rA x &&& rB x).toNat,
   fun x => gives (rA x ||| rB x).toNat, fun x => gives (rA x ^^^ rB x).toNat,
   fun x => gives (if uB x < 32 then uA x * 2 ^ uB x else 0 : Nat), fun x => gives (if uB x < 32 then uA x / 2 ^ uB x else 0 : Nat),
   fun x => gives (if uB x < 32 then sA x / 2 ^ uB x else if sA x < 0 then -1 else 0),
   fun x => gives (min (sA x) (sB x)), fun x => gives (max (sA x) (sB x)), fun x => gives (sA x * sB x),
   fun x => roundedOf fp32 x [fA fp32 0 x, fB fp32 0 x] (fadd .rne (fA fp32 0 x) (fB fp32 0 x)),
   fun x => roundedOf fp32 x [fA fp32 0 x, fB fp32 0 x] (fadd .rne (fA fp32 0 x) (fneg (fB fp32 0 x))),
   fun x => roundedOf fp32 x [fA fp32 0 x, fB fp32 0 x] (fmul (fA fp32 0 x) (fB fp32 0 x)),
   fun x => gives (opMinMax fp32 false false false (uA x) (uB x)), fun x => gives (opMinMax fp32 false false true (uA x) (uB x))]

/-- The result of a half in a lane; an FP half takes the value of its imm8 as an FP32 number. -/
def halfValue (g : Group) (h : Half) (l : Nat) : LaneOut :=
  let src : Reg32 := if h.i = 0 then readV (threadAt g l) h.s.toNat
    else if 0x0C ≤ h.op.toNat then BitVec.ofNat 32 (rnd fp32 .rne false (ofInt h.s.toInt)).bits else h.s.signExtend 32
  (halfTable.getD h.op.toNat fun _ => gives 0)
    { a := (readV (threadAt g l) h.d.toNat).zeroExtend 64, b := src.zeroExtend 64, c := 0, old := 0, imm := 0, mod := 0 }

/-- Whether a half acts in a lane (R20, R37). -/
def halfActs (g : Group) (h : Half) (l : Nat) : Prop :=
  h.op ≠ 0x11 ∧ (issuing g).getLsbD l = true ∧ (h.g = 0 ∨ readP (threadAt g l) h.pred.toNat ≠ decide (h.n = 1))

/-- A P word: each half's destination reads its result, both from the registers as they stood before the word (R38). -/
def pairRuns : Prop := ∀ (u d : Half) (s : State) (g : Group), s.issues pairHead (pairCheck u d) g →
  s.runs (.pWord u d)
    (fun g' => (∀ h ∈ [u, d], ∀ l, halfActs g h l → l < g.threads.length →
        readV (threadAt g' l) h.d.toNat = lowHalf (halfValue g h l).value) ∧
      (∀ l, l < g.threads.length → ∀ i : Nat, i < 32 → (threadAt g' l).status.getLsbD i = true ↔
        (threadAt g l).status.getLsbD i = true ∨ ∃ h ∈ [u, d], halfActs g h l ∧ (halfValue g h l).flags.getLsbD i = true) ∧
      g.keeps g' (issuing g) fun _ => ([u, d].filter fun h => h.op ≠ 0x11).map fun h => RegName.v h.d.toNat)
    fun t => s.unmoved t (([u, d].filter fun h => h.op ≠ 0x11).map fun h => RegName.v h.d.toNat)

/-- `QNT` and `DQNT` start one operation for the group: each guard-true lane is due its word of the block image, or its
element rounded to FP32, with the sticky flags of that element (R152, R153). -/
def blocksStart : Prop := ∀ (w : AluW) (s : State) (g : Group) (n : Nat), flagFree g w.head →
  selectedFlag g w.head.fs = some n → guardMask g w.head ≠ 0 →
  let lanes := lanesOf (guardMask g w.head)
  let word (l : Nat) : Nat := if (guardMask g w.head).getLsbD l then (readSrc g l false w.opa).toNat else 0
  let b := (lowHalf (laneIn g formQnt w 0).b).toNat
  let q := quantise ((List.range 32).map word) (min b 4)
  let codes := (List.range 32).map fun j => word (j / 8) / 16 ^ (j % 8) % 16
  let elem (l : Nat) : Rounded := rnd fp32 .rne (w.mod.toNat / 8 % 2 = 1)
    ((readBx4 codes (word 4 % 2 ^ 16) [word 5, word 6, word 7, word 8]).getD l .nan)
  (s.issues w.head (aluCheck formQnt w) g → s.begins (.qnt w) g (aluWrites g formQnt w) n .fpLong
    fun o t => o.writes = (lanes.flatMap fun l => dstWrites g l false w.dst (BitVec.ofNat 64 (imageWord q l))) ∧
      (o.fstat = lanes.map fun l => (l, q.flags.getD l 0)) ∧ t.bare = s.bare) ∧
  (s.issues w.head (aluCheck formDqnt w) g → s.begins (.dqnt w) g (aluWrites g formDqnt w) n .fpLong
    fun o t => o.writes = (lanes.flatMap fun l => dstWrites g l false w.dst (BitVec.ofNat 64 (elem l).bits)) ∧
      (o.fstat = lanes.map fun l => (l, (elem l).flags)) ∧ t.bare = s.bare)

/-! ### Control transfers (R157-R167) -/

/-- The issuing threads leave their clause for the PCs given; no other thread moves, and no register changes. -/
def Group.leavesTo (g g' : Group) (pcOf : Nat → Nat) : Prop :=
  g'.clause = none ∧
  (∀ l, l < g.threads.length → (threadAt g' l).pc =
    if (issuing g).getLsbD l = true then BitVec.ofNat 32 (pcOf l) else (threadAt g l).pc) ∧ g.still g'

/-- A thread stands below a new record of the issuing threads (R96, R161). -/
def Group.pushed (g g' : Group) (l target : Nat) (call : Bool) : Prop :=
  ∃ r ∈ g'.records, r ∉ g.records ∧ r.target = target ∧ r.members = issuing g ∧ r.call = call ∧
    (threadAt g' l).joins = r.id :: (threadAt g l).joins

/-- What a branch does to the join stacks: a live thread that leaves for another PC than some other issuing thread, and not
for J, stands below a record whose target is J (R96); the control processor has no records (R167). -/
def Group.diverges (g g' : Group) (pcOf : Nat → Nat) (j : Nat) : Prop :=
  g.role ≠ .control → (∀ l, (issuing g).getLsbD l = true → pcOf l < 2 ^ 32) → ∀ l m, l < g.threads.length →
    (issuing g).getLsbD l = true → (issuing g).getLsbD m = true → (threadAt g l).exited = false → pcOf l ≠ pcOf m → pcOf l ≠ j →
    g.pushed g' l j false

/-- `BRA`, `BRX`, `JOIN`, `CALL` and `BRC`: where each issuing thread stands afterwards, and what the join stacks record. -/
def branchesGo : Prop := ∀ (s : State) (g : Group) (c : Clause), g.clause = some c →
  let word : Int := c.h + c.pos
  let after : Nat := c.h + 1 + c.len
  (∀ w : BraW, s.issues w.head (braCheck s w) g → flagFree g w.head → (∀ n ∈ braTargets w g, s.targetVerdict n = none) →
    let pcOf (l : Nat) : Nat := if (guardMask g w.head).getLsbD l then (word + w.tgt.toInt).toNat else after
    s.runs (.bra w) (fun g' => g.leavesTo g' pcOf ∧ g.diverges g' pcOf (word + w.join.toInt).toNat) fun t => s.unmoved t []) ∧
  (∀ w : BrxW, s.issues w.head (brxCheck s w) g → flagFree g w.head →
    (∀ l, (guardMask g w.head).getLsbD l = true → s.targetVerdict (readOpd g l w.a 0).toNat = none) →
    (w.join ≠ 0 → s.targetVerdict (word + w.join.toInt) = none) →
    let pcOf (l : Nat) : Nat := if (guardMask g w.head).getLsbD l then (readOpd g l w.a 0).toNat else after
    s.runs (.brx w) (fun g' => g.leavesTo g' pcOf ∧ (w.join ≠ 0 → g.diverges g' pcOf (word + w.join.toInt).toNat)) fun t => s.unmoved t []) ∧
  (∀ w : BareW, s.issues w.head (bareCheck w) g → flagFree g w.head →
    s.runs (.join w) (fun g' => g.leavesTo g' fun l =>
      if (guardMask g w.head).getLsbD l then
        match topRecord g (threadAt g l) with
        | some r => if r.call then after else r.target
        | none => after
      else after) fun t => s.unmoved t []) ∧
  (∀ w : BraW, s.issues w.head (callCheck s w) g → flagFree g w.head → s.targetVerdict (word + w.tgt.toInt) = none →
    (g.role = .control → callDepth g (threadAt g 0) < 1024) →
    s.runs (.call w) (fun g' =>
      g.leavesTo g' (fun l => if (guardMask g w.head).getLsbD l then (word + w.tgt.toInt).toNat else after) ∧
      ∀ l, l < g.threads.length → (guardMask g w.head).getLsbD l = true → (threadAt g l).exited = false →
        (threadAt g l).returned = false → g.pushed g' l after true) fun t => s.unmoved t []) ∧
  (∀ w : BraW, s.issues w.head (brcCheck s w) g → flagFree g w.head → s.targetVerdict (word + w.tgt.toInt) = none →
    guardMask g w.head ≠ 0 →
    let k := readK g w.sub.toNat - 1
    let g1 : Group := { g with k := Cells.put 0 g.k w.sub.toNat k }
    s.runs (.brc w) (fun g' => readK g' w.sub.toNat = k ∧
      g1.leavesTo g' fun _ => if k = 0 then after else (word + w.tgt.toInt).toNat) fun t => s.unmoved t [.k w.sub.toNat]) ∧
  (∀ w : BraW, s.issues w.head (brcCheck s w) g → flagFree g w.head → s.targetVerdict (word + w.tgt.toInt) = none →
    guardMask g w.head = 0 → s.runs (.brc w) (fun g' => g.leavesTo g' fun _ => after) fun t => s.unmoved t [])

/-- A unit without its place in its partition. -/
def Group.placeless (g : Group) : Group := { g with seat := .none }

/-- `FORM` only goes on. `YIELD` changes nothing that a result depends on: the group's places in both slots' round-robins are
given up, and it is exchanged with the oldest ready pending group of its partition, if there is one (R166). -/
def formationStays : Prop := ∀ (w : BareW) (s : State) (g : Group), s.issues w.head (bareCheck w) g → flagFree g w.head →
  s.runs (.form w) (fun g' => g.still g') (fun t => s.unmoved t []) ∧
  ∃ t g', Sys2Proof.Machine.exec (.yield w) s = .next t ∧ t.unitOf s.issuer = some g' ∧ g.still g' ∧
    (∀ j, j ≠ s.issuer → (t.unitOf j).map Group.placeless = (s.unitOf j).map Group.placeless) ∧
    { t.bare with slots := s.slots } = s.bare ∧ t.ops = s.ops ∧
    ∀ u k tm, s.issuer = .group u k → s.teams[u]? = some tm →
      let part := partOf tm k
      t.slotLast tm.core part none = some (u, k) ∧ t.slotLast tm.core part (some g.role) = some (u, k) ∧
      match (s.retire 1).pendingReady tm.core part with
      | [] => ∀ a b, (t.group? a b).map Group.seat = (s.group? a b).map Group.seat
      | r :: _ => ∀ a b, (t.group? a b).map Group.seat =
          if (a, b) = (r.1, r.2.1) then (s.group? a b).map fun _ => Seat.active
          else if (a, b) = (u, k) then (s.group? a b).map fun _ => Seat.pending s.fresh
          else (s.group? a b).map Group.seat

/-! ### Cross-lane words (R168-R179) -/

/-- A cross-lane word that executes as it issues: it names exactly threads that issue it now, and none waits at it. -/
def crossReady (w : AluW) (g : Group) (c : Clause) : Prop :=
  g.clause = some c ∧ c.gathered = false ∧ (∀ l, (threadAt g l).held = none) ∧
  namedLanes g (crossMask w g) ≠ 0 ∧ ∀ l, (namedLanes g (crossMask w g)).getLsbD l = true → c.lanes.getLsbD l = true ∧ l < g.threads.length

/-- The present lanes in ascending order with what they bring: the named lanes whose guard is true (R168). -/
def presentLanes (w : AluW) (f : AluForm) (g : Group) : List (Nat × Reg32 × Reg32) :=
  (lanesOf (guardMask g w.head &&& namedLanes g (crossMask w g))).map fun l =>
    (l, lowHalf (laneIn g f w l).a, lowHalf (laneIn g f w l).b)

/-- A cross-lane instruction: its form, and the value and flags of a present lane from what the present lanes bring. -/
structure CrossRow where
  con : AluW → Instr
  form : AluW → AluForm
  value : AluW → List (Nat × Reg32 × Reg32) → Nat × Reg32 × Reg32 → Word64
  flags : AluW → List (Nat × Reg32 × Reg32) → Nat → BitVec 5

/-- A cross-lane word delivers each present lane its value (R168, R169). -/
def CrossRow.delivers (r : CrossRow) : Prop := ∀ (w : AluW) (s : State) (g : Group) (c : Clause),
  s.issues w.head (aluCheck (r.form w) w) g → flagFree g w.head → crossReady w g c →
  let cs := presentLanes w (r.form w) g
  s.runs (r.con w) (fun g' =>
      (∀ e ∈ cs, e.1 < g.threads.length → holdsResult g' e.1 false w.dst (r.value w cs e)) ∧
      (∀ l, l < g.threads.length → (threadAt g' l).status = (threadAt g l).status |||
        (if (cs.map Prod.fst).contains l then (r.flags w cs l).zeroExtend 32 else 0)) ∧
      g.keeps g' (guardMask g w.head &&& namedLanes g (crossMask w g)) fun l => regNames g l w.dst 1)
    fun t => t.bare = s.bare

/-- The value a present lane brings, if the lane is present. -/
def broughtBy (cs : List (Nat × Reg32 × Reg32)) (l : Nat) : Option Reg32 := (cs.find? fun e => e.1 = l).map fun e => e.2.1

/-- Votes, election and shuffles (R173-R175), reductions and scans (R177, R178). -/
def crossRows : List CrossRow :=
  [⟨.vote, fun _ => formVote, fun w cs _ =>
      if (match w.mod.toNat with
        | 0 => cs.all fun e => e.2.1 ≠ 0
        | 1 => cs.any fun e => e.2.1 ≠ 0
        | _ => cs.all fun e => cs.all fun d => e.2.1 = d.2.1) then 1 else 0, fun _ _ _ => 0⟩,
   ⟨.elect, fun _ => formElect, fun _ cs e => if cs.all fun d => e.1 ≤ d.1 then 1 else 0, fun _ _ _ => 0⟩,
   ⟨.shfl, formShfl, fun w cs e =>
      let n := if isImm w then (w.opc ++ w.mod : BitVec 16).toNat % 32 else e.2.2.toNat
      let mode := if isImm w then (w.opc ++ w.mod : BitVec 16).toNat / 32 % 4 else w.mod.toNat % 4
      let width := [32, 16, 8, 4].getD (if isImm w then (w.opc ++ w.mod : BitVec 16).toNat / 128 % 8 else w.mod.toNat / 4 % 8) 2
      let low := e.1 / width * width
      let source : Option Nat := match mode with
        | 0 => some (low + n % width)
        | 1 => if n < 32 ∧ low + n ≤ e.1 then some (e.1 - n) else none
        | 2 => if n < 32 ∧ e.1 + n < low + width then some (e.1 + n) else none
        | _ => some (Nat.xor e.1 (n % width))
      (((source.bind (broughtBy cs)).getD e.2.1).zeroExtend 64), fun _ _ _ => 0⟩,
   ⟨.redux, fun _ => formRedux, fun w cs _ =>
      (((reduceTree (reduceOp (w.mod.toNat % 16) (rmOf (w.mod.toNat / 16))) ((List.range 32).map (broughtBy cs))).1.getD 0).zeroExtend 64),
     fun w cs _ => (reduceTree (reduceOp (w.mod.toNat % 16) (rmOf (w.mod.toNat / 16))) ((List.range 32).map (broughtBy cs))).2⟩,
   ⟨.scan, formScan, fun w cs e =>
      (((reduceTree (reduceOp (w.mod.toNat % 16) .rne) ((List.range 32).map fun i =>
        if i < e.1 ∨ (w.mod.toNat / 16 % 2 = 0 ∧ i = e.1) then broughtBy cs i else none)).1.getD e.2.2).zeroExtend 64),
     fun w cs l => (reduceTree (reduceOp (w.mod.toNat % 16) .rne) ((List.range 32).map fun i =>
        if i < l ∨ (w.mod.toNat / 16 % 2 = 0 ∧ i = l) then broughtBy cs i else none)).2⟩]

/-- `MATCH` gives each present lane the mask of the present lanes with its key, and to the lowest of them a true predicate
(R176); two NaNs never match, and a lane matches itself. -/
def matchFinds : Prop := ∀ (w : AluW) (s : State) (g : Group) (c : Clause),
  s.issues w.head (matchCheck w) g → flagFree g w.head → crossReady w g c →
  let cs := presentLanes w (formMatch w) g
  let same (x y : Nat × Reg32 × Reg32) : Bool := x.1 = y.1 ||
    if w.mod = 1 then comparedFloat 0 (unpack fp32 false x.2.1.toNat) (unpack fp32 false y.2.1.toNat) else x.2.1 = y.2.1
  let cls (e : Nat × Reg32 × Reg32) : BitVec 32 := maskOf fun l => cs.any fun d => d.1 = l && same e d
  s.runs (.matchKey w) (fun g' =>
      (∀ e ∈ cs, e.1 < g.threads.length → holdsResult g' e.1 false w.dst (if cs.all fun d => !same e d || e.1 ≤ d.1 then 1 else 0) ∧
        holdsResult g' e.1 false w.opb ((cls e).zeroExtend 64)) ∧ (∀ l, (threadAt g' l).status = (threadAt g l).status) ∧
      g.keeps g' (guardMask g w.head &&& namedLanes g (crossMask w g)) fun l => regNames g l w.dst 1 ++ regNames g l w.opb 1)
    fun t => t.bare = s.bare

/-- `GSYNC` changes no register; it holds its group while an earlier access of the present lanes must still be ordered (R179). -/
def gsyncOrders : Prop := ∀ (w : AluW) (s : State) (g : Group) (c : Clause),
  s.issues w.head (aluCheck formGsync w) g → flagFree g w.head → crossReady w g c → s.fenceHolds 3 0 = false →
  s.runs (.gsync w) (fun g' => g.still g') fun t => t.bare = s.bare ∧ t.ops = s.ops

/-! ### Class M: loads, stores, atomics (R180-R191) -/

/-- The address of a lane: its base register, a pair in global space, and the scaled offset (R180). -/
def addressOf (g : Group) (wide : Bool) (a : Spec) (off : BitVec 12) (size l : Nat) : Int :=
  (readSrc g l wide a).toNat + off.toInt * size

/-- The lane a register belongs to: a k register is the group's. -/
def laneOf (r : RegName) (l : Nat) : Option Nat := match r with | .k _ => none | _ => some l

/-- Where a lane's loaded bytes go. -/
def loadSlot (g : Group) (d : Spec) (size : Nat) (signed : Bool) (tag : Nat → Option RegName) (l : Nat) : Option (Nat × LoadDest) :=
  (regNames g l d 1).head?.map fun r => (l, ⟨r, laneOf r l, size, signed, tag l⟩)

/-- Where an access goes after its translations have been cached. -/
def State.homeOf (s : State) (vas : List Nat) (va : Nat) : Nat :=
  ((s.cacheTrans (s.coreOf s.issuer / 48) (s.ctxOf s.issuer) vas).paOf va).1

/-- `LD` and `LDX`: one read request for each acting lane, to its translated address (R188); a private address counts from
the thread's own window. -/
def loadsSend : Prop := ∀ (w : MemW) (s : State) (g : Group) (n : Nat), selectedFlag g w.head.fs = some n →
  guardMask g w.head ≠ 0 → memFree s g w.head w.sem.toNat w.scope.toNat →
  let size := 2 ^ w.sz.toNat
  let lanes := actLanes g w.head w.d
  let win (l : Nat) : Nat := (s.privWindow (s.viewTeam s.issuer) (issuerGroup s.issuer) l).1
  let rel (va : Nat → Nat) (o : Op) (t : State) : Prop :=
    t.resting = s.resting ∧ o.effect = .load (lanes.filterMap (loadSlot g w.d size (w.sx = 1) fun _ => none)) ∧
    o.acquire = (if semAcq w.sem.toNat then some w.scope.toNat else none) ∧
    s.sends t o lanes .read va (fun l => s.homeOf (lanes.map va) (va l)) size fun _ => []
  (s.issues w.head (memCheck ruleLd allRoles true false w) g →
    s.judgeLanes (judgedAddrs s g w.head .global needR true w.a w.off size) 0 size = none →
    s.begins (.ld w) g (runWrites g w.d (runLen w.sz.toNat)) n .mem
      (rel fun l => (addressOf g true w.a w.off size l).toNat)) ∧
  (s.issues w.head (memCheck ruleLdc [.vector] false false w) g →
    s.judgeLanes (judgedAddrs s g w.head .priv needR false w.a w.off size) 0 size = none →
    s.begins (.ldx w) g (runWrites g w.d (runLen w.sz.toNat)) n .mem
      (rel fun l => win l + (addressOf g false w.a w.off size l).toNat))

/-- `LDC` reads its bytes, which do not change, as it issues; `LDS` is left one read of the scratchpad for each acting lane
(R182, R188). -/
def localLoadsRead : Prop := ∀ (w : MemW) (s : State) (g : Group) (n : Nat), selectedFlag g w.head.fs = some n →
  guardMask g w.head ≠ 0 → memFree s g w.head w.sem.toNat w.scope.toNat → banksStill s →
  let size := 2 ^ w.sz.toNat
  let addr (l : Nat) : Nat := (addressOf g false w.a w.off size l).toNat
  let slot := loadSlot g w.d size (w.sx = 1) fun _ => none
  (s.issues w.head (memCheck ruleLds [.vector] false false w) g →
    s.judgeLanes (judgedAddrs s g w.head .scratch needR false w.a w.off size) 0 size = none →
    s.begins (.lds w) g (runWrites g w.d (runLen w.sz.toNat)) n .mem fun o t => t.bare = s.bare ∧ o.effect = .none ∧ o.writes = [] ∧
      o.todo = (actLanes g w.head w.d).filterMap fun l => (slot l).map fun d => .padRead (addr l) d.2) ∧
  (s.issues w.head (memCheck ruleLdc groupRoles false false w) g →
    s.judgeLanes (judgedAddrs s g w.head .const needR false w.a w.off size) 0 size = none →
    s.begins (.ldc w) g (runWrites g w.d (runLen w.sz.toNat)) n .mem fun o t => t.bare = s.bare ∧ o.effect = .none ∧ o.todo = [] ∧
      o.writes = (actLanes g w.head w.d).flatMap fun l =>
        match slot l with
        | some d => loadWrites ((List.range size).map fun i => s.constByte (s.viewTeam s.issuer) (addr l + i)) d.2 0
        | none => [])

/-- The bytes of a lane's data run, low register and low byte first (R182). -/
def storedBytes (g : Group) (d : Spec) (size l : Nat) : List Byte :=
  (List.range size).map fun i => BitVec.ofNat 8 ((readOpd g l d (i / 4)).toNat / 256 ^ (i % 4))

/-- `ST` and `STX`: one write request for each lane; `ST.SQ` also has the sequence tag delivered to the register after its
data run (R188, R191). -/
def storesSend : Prop := ∀ (w : MemW) (s : State) (g : Group) (n : Nat), selectedFlag g w.head.fs = some n →
  guardMask g w.head ≠ 0 → memFree s g w.head w.sem.toNat w.scope.toNat →
  let size := 2 ^ w.sz.toNat
  let run := runLen w.sz.toNat
  let tagged : Bool := w.q = 1 && w.d ≠ specZero
  let lanes := if tagged then actLanes g w.head w.d else lanesOf (guardMask g w.head)
  let tags := if tagged then (lanesOf (issuing g)).filterMap fun l => nthName g l w.d run else []
  let win (l : Nat) : Nat := (s.privWindow (s.viewTeam s.issuer) (issuerGroup s.issuer) l).1
  let rel (va : Nat → Nat) (o : Op) (t : State) : Prop :=
    t.resting = s.resting ∧
    o.effect = (if tagged then .atomic (lanes.filterMap (loadSlot g w.d 0 false fun l => nthName g l w.d run)) else .none) ∧
    o.release = (if semRel w.sem.toNat then some w.scope.toNat else none) ∧
    s.sends t o lanes .write va (fun l => s.homeOf (lanes.map va) (va l)) size (storedBytes g w.d size)
  (s.issues w.head (memCheck ruleSt allRoles true true w) g →
    s.judgeLanes (judgedAddrs s g w.head .global needW true w.a w.off size) 1 size = none →
    s.begins (.st w) g tags n .mem (rel fun l => (addressOf g true w.a w.off size l).toNat)) ∧
  (s.issues w.head (memCheck ruleStx [.vector] false true w) g →
    s.judgeLanes (judgedAddrs s g w.head .priv needW false w.a w.off size) 1 size = none →
    s.begins (.stx w) g tags n .mem (rel fun l => win l + (addressOf g false w.a w.off size l).toNat))

/-- A team without what its units hold and without the bytes of its banks. -/
def Team.padless (t : Team) : Team := { t.bare with banks := t.banks.map fun (b : Bank) => { b with bytes := [] } }

/-- Only the scratchpad of a team, updates for its subscribers, pending operations and identifiers have changed beside units. -/
def State.padOnly (s t : State) (u : Nat) : Prop :=
  { t.bare with teams := [], updates := [] } = { s.bare with teams := [], updates := [] } ∧
  t.teams.length = s.teams.length ∧
  ∀ v, (v ≠ u → (t.teams[v]?).map Team.bare = (s.teams[v]?).map Team.bare) ∧ (t.teams[v]?).map Team.padless = (s.teams[v]?).map Team.padless

/-- `STS` is left one write of the scratchpad for each lane, with the bytes it holds at issue (R188). -/
def scratchStores : Prop := ∀ (w : MemW) (s : State) (g : Group) (n : Nat), selectedFlag g w.head.fs = some n →
  guardMask g w.head ≠ 0 → memFree s g w.head w.sem.toNat w.scope.toNat → banksStill s →
  s.issues w.head (memCheck ruleSts [.vector] false true w) g →
  s.judgeLanes (judgedAddrs s g w.head .scratch needW false w.a w.off (2 ^ w.sz.toNat)) 0 (2 ^ w.sz.toNat) = none →
  s.begins (.sts w) g [] n .mem fun o t => t.bare = s.bare ∧ o.effect = .none ∧
    o.release = (if semRel w.sem.toNat then some w.scope.toNat else none) ∧
    o.todo = (lanesOf (guardMask g w.head)).map fun l =>
      .padWrite (addressOf g false w.a w.off (2 ^ w.sz.toNat) l).toNat (storedBytes g w.d (2 ^ w.sz.toNat) l)

/-- `ATOM` and `RED`: one request for each acting lane with its operand; `ATOM` is due the old value (R189, R190). -/
def atomicsSend : Prop := ∀ (w : AtomW) (s : State) (g : Group) (n : Nat), selectedFlag g w.head.fs = some n →
  guardMask g w.head ≠ 0 → memFree s g w.head w.sem.toNat w.scope.toNat →
  let run := if w.sz = 1 then 2 else 1
  let tagged : Bool := w.q = 1 && w.d ≠ specZero
  let lanes := actLanes g w.head w.d
  let va (l : Nat) : Nat := (readSrc g l true w.a).toNat
  let names := runWrites g w.d (if tagged then run + 1 else run)
  (s.issues w.head (atomCheck ruleAtom w) g →
    s.judgeLanes (judgedAddrs s g w.head .global { needRW with aop := some w.aop.toNat } true w.a 0 (4 * run)) 1 (4 * run) = none →
    s.begins (.atom w) g names n .mem fun o t => t.resting = s.resting ∧
      o.effect = .atomic (lanes.filterMap (loadSlot g w.d (4 * run) false fun l => if tagged then nthName g l w.d run else none)) ∧
      s.sends t o lanes .atomic va (fun l => s.homeOf (lanes.map va) (va l)) (4 * run) (storedBytes g w.b (4 * run))) ∧
  (s.issues w.head (atomCheck ruleRed w) g →
    s.judgeLanes (judgedAddrs s g w.head .global { needRW with aop := some w.aop.toNat } true w.a 0 (4 * run)) 2 (4 * run) = none →
    s.begins (.red w) g [] n .mem fun o t => t.resting = s.resting ∧ o.effect = .atomic [] ∧
      s.sends t o lanes .red va (fun l => s.homeOf (lanes.map va) (va l)) (4 * run) (storedBytes g w.b (4 * run)))

/-- The value an atomic leaves from the old value, the operand and the comparison (R189). -/
def atomicValue (code : Nat) (wide : Bool) (old b cmp : Nat) : Nat :=
  let n := if wide then 64 else 32
  let lt : Bool := (BitVec.ofNat n old).toInt < (BitVec.ofNat n b).toInt
  let f := if wide then fp64 else fp32
  [(old + b) % 2 ^ n, if lt then old else b, if lt then b else old, min old b, max old b, Nat.land old b, Nat.lor old b,
   Nat.xor old b, b, if old = cmp then b else old, (finish f .rne false [unpack f false old, unpack f false b]
     (fadd .rne (unpack f false old) (unpack f false b))).bits, opMinMax f false false false old b].getD code
   (opMinMax f false false true old b)

/-- `ATOMS` is left one atomic on the scratchpad for each acting lane, with its operands (R189). -/
def scratchAtomics : Prop := ∀ (w : AtomW) (s : State) (g : Group) (n : Nat), selectedFlag g w.head.fs = some n →
  guardMask g w.head ≠ 0 → memFree s g w.head w.sem.toNat w.scope.toNat → banksStill s →
  s.issues w.head (atomCheck ruleAtoms w) g →
  let wide : Bool := w.sz = 1
  let size := if wide then 8 else 4
  s.judgeLanes (judgedAddrs s g w.head .scratch { needRW with aop := some w.aop.toNat } false w.a 0 size) 0 size = none →
  s.begins (.atoms w) g (runWrites g w.d (size / 4)) n .mem fun o t => t.bare = s.bare ∧ o.effect = .none ∧
    o.acquire = (if semAcq w.sem.toNat then some w.scope.toNat else none) ∧
    o.release = (if semRel w.sem.toNat then some w.scope.toNat else none) ∧
    o.todo = (actLanes g w.head w.d).map fun l => .padAtomic (readSrc g l false w.a).toNat w.aop.toNat wide
      (readSrc g l wide w.b).toNat (readSrc g l wide w.d).toNat ((loadSlot g w.d size false (fun _ => none) l).map Prod.snd)

/-! ### Class M: fences, tile copies, cache maintenance, FIFO banks (R192-R198) -/

/-- `FENCE` waits until what it orders has returned, then changes no register; an acquire at cluster scope or wider drops
the sectors of its core's L1 (R192). -/
def fencesOrder : Prop := ∀ (w : MemW) (s : State) (g : Group), s.issues w.head (fenceCheck w) g → flagFree g w.head →
  s.fenceHolds w.sem.toNat w.scope.toNat = false →
  s.runs (.fence w) (fun g' => g.still g') fun t => t.ops = s.ops ∧ t.reqs = s.reqs ∧ t.resting = s.resting ∧
    t.l1 = s.l1.filter fun x => !(semAcq w.sem.toNat && decide (2 ≤ w.scope.toNat) && x.core = s.coreOf s.issuer)

/-- `LDT` and `STT` start one copy between scratchpad and a tile in memory whose header takes the first 32 bytes (R193,
R194); `STT` takes its bytes from the scratchpad as it issues. -/
def tileCopiesStart : Prop := ∀ (w : MemW) (s : State) (g : Group) (n : Nat) (tm : Team), selectedFlag g w.head.fs = some n →
  memFree s g w.head w.sem.toNat w.scope.toNat → banksStill s → s.teams[s.viewTeam s.issuer]? = some tm →
  let scr := (readSrc g 0 false w.d).toNat
  let ga := (readSrc g 0 true w.a).toNat
  let len := 32 * (w.off.toNat / 2 % 128 + 1)
  let aon : Bool := w.sub.toNat % 2 = 1
  let pd := RegName.p (w.off.toNat / 256 % 16)
  (s.issues w.head (tileCheck false w) g → s.tileVerdict false scr ga len aon = none →
    s.begins (.ldt w) g (if aon then [pd] else []) n .mem fun o t => t.resting = s.resting ∧ t.reqs = s.reqs ∧
      (aon = true → o.effect = .tileLoad scr ga len 0 none ∧ o.todo = []) ∧
      (aon = false → o.effect = .none ∧ o.todo = fillMoves (ga + 32) scr len) ∧
      o.acquire = (if semAcq w.sem.toNat then some w.scope.toNat else none) ∧
      o.dests = if aon then (lanesOf (issuing g)).map fun l => (pd, some l) else []) ∧
  (s.issues w.head (tileCheck true w) g → s.tileVerdict true scr ga len aon = none →
    s.rowsLog 1 ((ga + 32, len) :: if aon then [(ga, 8)] else []) = none →
    s.padWrites s.issuer = false →
    s.begins (.stt w) g [] n .mem fun o t => t.resting = s.resting ∧ t.reqs = s.reqs ∧
      (let data := (List.range len).map fun i => scratchByte tm (scr + i)
       (aon = true → o.effect = .tileStore ga data 0 ∧ o.todo = []) ∧
       (aon = false → o.effect = .none ∧ o.todo = storeMoves [(ga + 32, data)])) ∧
      o.release = if semRel w.sem.toNat then some w.scope.toNat else none)

/-- The line a lane of `PREF` names, when it is aligned and may be read: its physical address (R195). -/
def State.prefLine (s : State) (a : Int) : Option Nat :=
  if 0 ≤ a ∧ a < 2 ^ 48 ∧ a % 128 = 0 then
    match s.access (s.coreOf s.issuer / 48) (s.ctxOf s.issuer) needR a.toNat with
    | .ok (pa, _) => if pa < hostBase then some pa else none
    | .error _ => none
  else none

/-- `PREF` moves no register and faults nowhere: it requests the lines that may be read into their home slices, with the L1's
copy unless SL is set, and drops every other lane (R195). -/
def prefetchesQuietly : Prop := ∀ (w : MemW) (s : State) (g : Group),
  s.issues w.head (lineCheck false w (fun n => n < 2) []) g → flagFree g w.head →
  s.runs (.pref w) (fun g' => g.still g') fun t => t.ops = s.ops ∧ t.l1 = s.l1 ∧ t.resting = s.resting ∧ t.dies = s.dies ∧
    ∃ rs, t.reqs = s.reqs ++ rs ∧ (rs.map fun r => (r.op, r.kind, r.lane, r.pa, r.plain)) =
      (lanesOf (guardMask g w.head)).filterMap fun l => (s.prefLine ((readSrc g l true w.a).toNat + w.off.toInt)).map fun pa =>
        (none, .pref, l, pa, decide (w.sub ≠ 1))

/-- `CMAINT`: the L1 of its core loses its sectors, or those of the lanes' lines, and the home slices are asked to clean,
to clean and invalidate, or to zero each line (R196). -/
def maintenanceStarts : Prop := ∀ (w : MemW) (s : State) (g : Group) (n : Nat), selectedFlag g w.head.fs = some n →
  guardMask g w.head ≠ 0 → memFree s g w.head 0 0 →
  s.issues w.head (lineCheck true w (fun n => n < 5) (if w.sub = 1 && (w.a ≠ specZero || w.off ≠ 0) then [0x04] else [])) g →
  let lanes := lanesOf (guardMask g w.head)
  let va (l : Nat) : Nat := ((readSrc g l true w.a).toNat + w.off.toInt).toNat
  let pa (l : Nat) : Nat := s.homeOf (lanes.map va) (va l)
  let core := s.coreOf s.issuer
  (w.sub ≠ 1 → s.judgeLanes (lanes.map fun l => s.cmaintAddr (w.sub = 4) l ((readSrc g l true w.a).toNat + w.off.toInt))
    (if w.sub = 4 then 1 else 0) 128 = none) →
  s.begins (.cmaint w) g [] n .cmaint fun o t => o.effect = .none ∧ t.resting = s.resting ∧
    (w.sub = 0 → t.reqs = s.reqs ∧ t.l1 = s.l1.filter fun x => !(decide (x.core = core) && lanes.any fun l =>
      canonPa (pa l) / 32 ≤ x.sector && x.sector ≤ (canonPa (pa l) + 127) / 32)) ∧
    (w.sub = 1 → t.reqs = s.reqs ∧ t.l1 = s.l1.filter fun x => x.core ≠ core) ∧
    (w.sub = 2 → s.sends t o lanes .clean va pa 128 fun _ => []) ∧
    (w.sub = 3 → s.sends t o lanes .clinv va pa 128 fun _ => []) ∧
    (w.sub = 4 → s.sends t o lanes .zero va pa 128 fun _ => List.replicate 128 0)

/-- Only one bank of the issuing team has changed beside units. -/
def State.bankOnly (s t : State) (tm : Team) (bank : Nat) (f : Bank → Bank) : Prop :=
  t.bare = { s.bare with teams := s.bare.teams.set (s.viewTeam s.issuer) { tm.bare with banks := modAt tm.banks bank f } }

/-- `FIFOPUSH` and `FIFOPOP` move one entry of eight registers for each guard-true lane, in ascending lanes, at the tail
and from the head of a bank in FIFO mode, when no other group that reached the bank earlier still waits there (R197). -/
def fifosMove : Prop := ∀ (w : MemW) (s : State) (g : Group) (n : Nat) (tm : Team) (b : Bank), selectedFlag g w.head.fs = some n →
  guardMask g w.head ≠ 0 → memFree s g w.head 0 0 → banksStill s → s.teams[s.viewTeam s.issuer]? = some tm →
  tm.banks[w.off.toNat % 16]? = some b → b.mode = .fifo →
  let lanes := lanesOf (guardMask g w.head)
  let first (push : Bool) : Prop := fifoBehind tm (w.off.toNat % 16) push (fifoSince s.nextId g (w.off.toNat % 16) push) = false
  (s.issues w.head (fifoCheck true w) g → b.fifo.length + lanes.length ≤ 1024 → first true →
    s.begins (.fifopush w) g [] n .fifoPush fun o t => o.effect = .none ∧ o.writes = [] ∧
      s.bankOnly t tm (w.off.toNat % 16) fun b =>
        { b with fifo := b.fifo ++ lanes.map fun l => (List.range 8).map fun j => readOpd g l w.d j }) ∧
  (s.issues w.head (fifoCheck false w) g → lanes.length ≤ b.fifo.length → first false →
    s.begins (.fifopop w) g (runWrites g w.d 8) n .fifoPop fun o t => o.effect = .none ∧
      s.bankOnly t tm (w.off.toNat % 16) (fun b => { b with fifo := b.fifo.drop lanes.length }) ∧
      ∀ i l j : Nat, lanes[i]? = some l → j < 8 → match nthName g l w.d j with
        | some r => ⟨r, some l, (b.fifo.getD i []).getD j 0⟩ ∈ o.writes
        | none => True)

/-- `BANKCFG` starts the switch of one granted bank to the mode it names (R198). -/
def bankSwitchStarts : Prop := ∀ (w : MemW) (s : State) (g : Group) (n : Nat) (tm : Team), selectedFlag g w.head.fs = some n →
  memFree s g w.head 0 0 → s.teams[s.viewTeam s.issuer]? = some tm → s.issues w.head (bankCheck w) g →
  w.off.toNat % 16 < tm.banks.length →
  s.begins (.bankcfg w) g [] n .bankSwitch fun o t => t.bare = s.bare ∧
    o.effect = .bank (w.off.toNat % 16) ([.cache, .scratch].getD w.sub.toNat .fifo)

/-! ### Class X: gangs, ranges, tiles (R222-R250, R263-R268) -/

/-- Beside units only the issuing team has changed, to `tm`. -/
def State.teamOnly (s t : State) (tm : Team) : Prop :=
  t.bare = { s.bare with teams := s.bare.teams.set (s.viewTeam s.issuer) tm.bare }

/-- Beside units only tile elements of the issuing team have changed, to `elem`. -/
def State.tilesTo (s t : State) (tm : Team) (elem : Nat → Nat → Nat → Reg32) : Prop :=
  ∃ tm', s.teamOnly t tm' ∧ ({ tm' with tiles := tm.tiles } : Team).bare = tm.bare ∧
    tm'.tiles.map Tile.reserved = tm.tiles.map Tile.reserved ∧
    ∀ m row col, row < 16 → col < 16 → tileElem tm' m row col = elem m row col

/-- `GANG` sets the gang register of its group: length, position and list (R231, R232). -/
def gangsForm : Prop := ∀ (w : TileW) (s : State) (g : Group) (t gi : Nat) (tm : Team), s.issuer = .group t gi →
  s.teams[t]? = some tm → s.issues w.head (tileFormCheck (formGang w) w [(w.v, 1)] noBound) g → flagFree g w.head →
  s.outstanding s.issuer classX = false → (∀ r ∈ tm.riddles, gi ∉ r.members) →
  let n := w.sub.toNat
  let ka := (readOpd g 0 w.v 0).toNat
  let entry (q : Nat) : Nat := ka / 32 ^ q % 32
  (n = 0 → s.runs (.gang w) (fun g' => g'.gang = 0 ∧ g.still { g' with gang := g.gang }) fun u => s.unmoved u []) ∧
  (2 ≤ n → n ≤ 6 → ka < 32 ^ n → (∀ p q, p < q → q < n → entry p % 8 ≠ entry q % 8) →
    (∀ p, p < n → ∃ x, tm.groups[entry p]? = some x ∧ x.role = .matrix ∧ x.cohort = BitVec.allOnes 32) →
    ∀ p, p < n → entry p = gi → s.runs (.gang w)
      (fun g' => g'.gang = BitVec.ofNat 64 (n + 16 * p + 256 * ka) ∧ g.still { g' with gang := g.gang }) fun u => s.unmoved u [])

/-- `OBRES` enters a well-formed record that fits under its name; `OBREL` drops it (R236, R237). -/
def rangesReserve : Prop := ∀ (w : TileW) (c : CBlock) (s : State) (g : Group) (tm : Team),
  s.teams[s.viewTeam s.issuer]? = some tm → flagFree g w.head → s.nameBusy (s.viewTeam s.issuer) w.ob.toNat = false →
  (s.issues w.head (obresCheck w c) g →
    (tm.ranges.any (fun r => r.name = w.ob.toNat) = true ∨ s.coreRecords tm.core < 32) → recordBad (blockValue g c) = false →
    recordOutside (recordOf (blockValue g c)) tm.obufUnits = false →
    s.runs (.obres w c) (fun g' => g.still g') fun t => t.ops = s.ops ∧
      s.teamOnly t { tm with ranges := ⟨w.ob.toNat, blockValue g c⟩ :: tm.ranges.filter fun r => r.name ≠ w.ob.toNat }) ∧
  (s.issues w.head (tileFormCheck (formRange 1) w [] noBound) g → (∃ r ∈ tm.ranges, r.name = w.ob.toNat) →
    s.runs (.obrel w) (fun g' => g.still g') fun t => t.ops = s.ops ∧
      s.teamOnly t { tm with ranges := tm.ranges.filter fun r => r.name ≠ w.ob.toNat })

/-- `TRES` and `TREL` take and free a span of tiles, their elements 0; `TZERO` clears one tile (R246). -/
def tilesReserve : Prop := ∀ (w : TileW) (s : State) (g : Group) (tm : Team),
  s.teams[s.viewTeam s.issuer]? = some tm → flagFree g w.head →
  let mine (m : Nat) : Bool := w.mt.toNat ≤ m && m ≤ w.mt.toNat + w.sub.toNat
  let tiles (b : Bool) : Team := { tm with tiles := tm.tiles.mapIdx fun m x => if mine m then ⟨b, []⟩ else x }
  (s.issues w.head (tileFormCheck (formSpan w) w [] noBound) g →
    (∀ m, mine m = true → ∃ x, tm.tiles[m]? = some x ∧ x.reserved = false) →
    s.runs (.tres w) (fun g' => g.still g') fun t => t.ops = s.ops ∧ s.teamOnly t (tiles true)) ∧
  (s.issues w.head (tileFormCheck (formSpan w) w [] noBound) g →
    (∀ m, mine m = true → ∃ x, tm.tiles[m]? = some x ∧ x.reserved = true) →
    s.tileBusy (s.viewTeam s.issuer) (spanOf w) = false →
    s.runs (.trel w) (fun g' => g.still g') fun t => t.ops = s.ops ∧ s.teamOnly t (tiles false)) ∧
  (s.issues w.head (tileFormCheck (formTile false false false unusedSpec unusedSpec subZero) w [] noBound) g →
    (∃ x, tm.tiles[w.mt.toNat]? = some x ∧ x.reserved = true) → s.tileBusy (s.viewTeam s.issuer) [w.mt.toNat] = false →
    s.runs (.tzero w) (fun g' => g.still g') fun t => t.ops = s.ops ∧
      s.tilesTo t tm fun m row col => if m = w.mt.toNat then 0 else tileElem tm m row col)

/-- `OBLD` starts the load of a run of bytes into a held range, from memory or from the scratchpad (R238). -/
def rangeLoadsStart : Prop := ∀ (w : TileW) (s : State) (g : Group) (n : Nat) (tm : Team) (r : ObRec),
  s.teams[s.viewTeam s.issuer]? = some tm → rangeOf tm w.ob.toNat = some r → selectedFlag g w.head.fs = some n →
  flagFree g w.head → s.issues w.head (tileFormCheck (formObld w) w [(w.v, if isPad w then 1 else 2), (w.w, 1)] noBound) g →
  let kb := (readOpd g 0 w.w 0).toNat
  let off := 32 * (kb % 4096)
  let len := 32 * (kb / 4096 % 8192)
  let a := (readSrc g 0 (!isPad w) w.v).toNat
  len ≠ 0 → len ≤ 131072 → off + len ≤ r.len → s.srcVerdict (isPad w) a len w = none →
  s.obBusy (s.viewTeam s.issuer) (r.base + off) len = false →
  (isPad w = true → s.padBusy a len = false) → s.acquiring s.issuer = false →
  s.begins (.obld w) g [] n .obld fun o t => t.resting = s.resting ∧ t.reqs = s.reqs ∧ t.l1 = s.l1 ∧
    o.arrive = (if w.arr = 1 then some (w.sg.toNat, w.slot.toNat) else none) ∧
    o.effect = .obLoad w.ob.toNat (r.base + off) len ∧ o.todo = bufMoves (isPad w) a (r.base + off) len

/-- `OBLD.B` starts the load of thirteen words for each guard-true lane, 128 bytes apart (R239). -/
def sliceLoadsStart : Prop := ∀ (w : TileW) (s : State) (g : Group) (n : Nat) (tm : Team),
  s.teams[s.viewTeam s.issuer]? = some tm → selectedFlag g w.head.fs = some n → flagFree g w.head → guardMask g w.head ≠ 0 →
  s.issues w.head (tileFormCheck (formObldB w) w [(w.v, if isPad w then 1 else 2)] fun g l => boundFails g l 1 13 w.w) g →
  let a := (readSrc g 0 (!isPad w) w.v).toNat
  let ds := (lanesOf (guardMask g w.head)).flatMap fun l => (List.range 13).filterMap fun j =>
    (nthName g l w.w j).map fun r => (a + 128 * j + 4 * l, r, l)
  s.srcVerdict (isPad w) a 1664 w = none → (isPad w = true → s.padBusy a 1664 = false) → s.acquiring s.issuer = false →
  s.begins (.obldB w) g (runWrites g w.w 13) n .obld fun o t => t.resting = s.resting ∧ t.reqs = s.reqs ∧ t.l1 = s.l1 ∧
    o.arrive = (if w.arr = 1 then some (w.sg.toNat, w.slot.toNat) else none) ∧
    o.effect = .none ∧ o.dests = (ds.map fun d => (d.2.1, some d.2.2)) ∧ o.todo = ds.map fun d =>
      if isPad w then .padRead d.1 ⟨d.2.1, some d.2.2, 4, false, none⟩ else .word d.1 d.2.1 d.2.2

/-- The tile a word names is reserved and no earlier operation still has it (R223, R225). -/
def tileFree (s : State) (tm : Team) (m : Nat) : Prop :=
  s.teams[s.viewTeam s.issuer]? = some tm ∧ (∃ x, tm.tiles[m]? = some x ∧ x.reserved = true) ∧
  s.tileBusy (s.viewTeam s.issuer) [m] = false

/-- `TRD` and `TWR` move eight elements between a tile row's half and each guard-true lane; `TSCL` scales a tile (R247,
R249). -/
def tileMovesStart : Prop := ∀ (w : TileW) (s : State) (g : Group) (n : Nat) (tm : Team), tileFree s tm w.mt.toNat →
  selectedFlag g w.head.fs = some n → flagFree g w.head →
  (s.issues w.head (tileFormCheck (formTile true true false (vRun true) unusedSpec subZero) w []
      fun g l => boundFails g l 1 8 w.v) g → guardMask g w.head ≠ 0 →
    s.begins (.trd w) g (runWrites g w.v 8) n .tileReg fun o t => t.bare = s.bare ∧
      o.writes = (lanesOf (guardMask g w.head)).flatMap fun l => (List.range 8).filterMap fun j =>
        (nthName g l w.v j).map fun r => ⟨r, some l, tileElem tm w.mt.toNat (l / 2) (8 * (l % 2) + j)⟩) ∧
  (s.issues w.head (tileFormCheck (formTile true true false (vRun false) unusedSpec subZero) w [(w.v, 8)]
      fun g l => boundFails g l 1 8 w.v) g → guardMask g w.head ≠ 0 →
    s.begins (.twr w) g [] n .tileReg fun o t => o.writes = [] ∧ s.tilesTo t tm fun m row col =>
      if m = w.mt.toNat ∧ (guardMask g w.head).getLsbD (2 * row + col / 8) = true then readOpd g (2 * row + col / 8) w.v (col % 8)
      else tileElem tm m row col) ∧
  (s.issues w.head (tileFormCheck (formTile true false false (kOnlyDetails false) unusedSpec fun n => n < 4 && n ≠ 2) w
      [(w.v, 1)] noBound) g →
    let scaled (x : Reg32) : Reg32 × BitVec 32 :=
      let p := x.toInt * (readOpd g 0 w.v 0).toInt
      if w.sub.toNat % 2 = 1 then
        if w.sub.toNat / 2 % 2 = 1 then (BitVec.ofInt 32 (saturated p), if saturated p = p then 0 else msISAT) else (BitVec.ofInt 32 p, 0)
      else
        let r := scaleAcc (readOpd g 0 w.v 0).toNat x.toNat
        (BitVec.ofNat 32 r.bits, (if r.mnv then msMNV else 0) ||| if r.mof then msMOF else 0)
    s.begins (.tscl w) g [] n .tileReg fun o t => o.writes = [] ∧
      (∀ i : Nat, o.mstat.getLsbD i = true ↔ ∃ row col, row < 16 ∧ col < 16 ∧
        (scaled (tileElem tm w.mt.toNat row col)).2.getLsbD i = true) ∧
      s.tilesTo t tm fun m row col => if m = w.mt.toNat then (scaled (tileElem tm m row col)).1 else tileElem tm m row col)

/-- `TST`, `TSAVE` and `TLOAD` start the move of a tile to the scratchpad, or to and from a KiB of memory (R248, R250). -/
def tileImagesStart : Prop := ∀ (w : TileW) (s : State) (g : Group) (n : Nat) (tm : Team), tileFree s tm w.mt.toNat →
  selectedFlag g w.head.fs = some n → flagFree g w.head →
  let arrive := if w.arr = 1 then some (w.sg.toNat, w.slot.toNat) else none
  (let a := (readOpd g 0 w.v 0).toNat
   let width := if w.sub = 0 then 64 else 32
   let stride := if w.w = specZero then width else (readOpd g 0 w.w 0).toNat
   s.issues w.head (tileFormCheck (formTile true false true (kOnlyDetails false) kOrZero fun n => n < 3) w [(w.v, 1), (w.w, 1)] noBound) g →
    a % 32 = 0 → stride % 32 = 0 → width ≤ stride → (∀ r, r < 16 → scratchVerdict tm (a + r * stride : Nat) width = none) →
    s.ringVerdict (w.arr = 1) w.sg.toNat w.slot.toNat = none → s.padBusy a (15 * stride + width) = false → s.acquiring s.issuer = false →
    s.begins (.tst w) g [] n .tst fun o t => t.bare = s.bare ∧ o.arrive = arrive ∧
      o.todo = padMoves ((List.range 16).map fun r => (a + r * stride, (List.range 16).flatMap fun c =>
        let x := (tileElem tm w.mt.toNat r c).toNat
        if w.sub = 0 then bytesOfNat 4 x
        else if x % 2 ^ 31 = 0 then [0, 0]
        else bytesOfNat 2 (rnd (if w.sub = 1 then bf16 else fp16) .rne false (unpack fp32 false x)).bits))) ∧
  (let a := (readSrc g 0 true w.v).toNat
   s.issues w.head (tileFormCheck formImage w [(w.v, 2)] noBound) g → a % 32 = 0 → a + 1024 ≤ 2 ^ 48 →
    s.acquiring s.issuer = false → s.ringVerdict (w.arr = 1) w.sg.toNat w.slot.toNat = none →
    (s.spanVerdict needW a 1024 = none → s.rowsLog 1 [(a, 1024)] = none → s.begins (.tsave w) g [] n .tileImage fun o t =>
      t.resting = s.resting ∧ t.reqs = s.reqs ∧ o.arrive = arrive ∧
      o.todo = storeMoves [(a, (List.range 256).flatMap fun i => bytesOfNat 4 (tileElem tm w.mt.toNat (i / 16) (i % 16)).toNat)]) ∧
    (s.spanVerdict needR a 1024 = none → s.begins (.tload w) g [] n .tileImage fun o t =>
      t.resting = s.resting ∧ t.reqs = s.reqs ∧ o.arrive = arrive ∧ o.effect = .tileImage w.mt.toNat ∧
      o.todo = (List.range 32).map fun i => .tileFill w.mt.toNat a i))

/-- `RMAP` moves or sums tile rows by a well-formed map in the scratchpad (R262, R263). -/
def rowsRemap : Prop := ∀ (w : TileW) (s : State) (g : Group) (n : Nat) (tm : Team),
  s.teams[s.viewTeam s.issuer]? = some tm → selectedFlag g w.head.fs = some n → flagFree g w.head →
  s.issues w.head (tileFormCheck (formRmap w) w [(w.v, 1)] noBound) g →
  let a := (readOpd g 0 w.v 0).toNat
  let parts := w.sub.toNat % 8 + 1
  let step := w.sub.toNat / 8 % 4 + 1
  let dest (x : Nat) : Nat := (scratchByte tm (a + x)).toNat
  notReserved tm (rmapTiles w) = false → a % 32 = 0 → scratchVerdict tm a (16 * parts) = none → s.padBusy a (16 * parts) = false →
  s.outstanding s.issuer classX = false → s.tileBusy (s.viewTeam s.issuer) (rmapTiles w) = false →
  s.acquiring s.issuer = false →
  (∀ x, x < 16 * parts → dest x < 16 * parts ∧ dest (dest x) = dest x) →
  let old (x col : Nat) : Reg32 := tileElem tm (w.mt.toNat + step * (x / 16)) (x % 16) col
  s.begins (.rmap w) g [] n .rmap fun o t => o.writes = [] ∧ s.tilesTo t tm fun m row col =>
    match (List.range parts).find? fun i => m = w.mt.toNat + step * i with
    | none => tileElem tm m row col
    | some i =>
      let x := 16 * i + row
      if w.sub.toNat / 32 % 2 = 0 then old (dest x) col
      else if dest x ≠ x then old x col
      else match (List.range (16 * parts)).filter fun y => dest y = x with
        | [] => old x col
        | y :: ys => ys.foldl (fun sum z => if w.sub.toNat / 64 % 2 = 1 then sum + old z col
            else BitVec.ofNat 32 (add32 sum.toNat (old z col).toNat)) (old y col)

/-- `TEPI` starts the write of a tile through the flue (R264-R268): its rows and status are those of R266. -/
def flueStarts : Prop := ∀ (w : TileW) (c : CBlock) (s : State) (g : Group) (n : Nat) (tm : Team), tileFree s tm w.mt.toNat →
  selectedFlag g w.head.fs = some n → flagFree g w.head → s.issues w.head (tepiCheck w c) g →
  let f := flueOf (blockValue g c)
  let a := (readSrc g 0 true w.v).toNat
  let stride := if w.w = specZero then flueRow f else (readOpd g 0 w.w 0).toNat
  let out := flueRows f (flueIn f tm) tm w.mt.toNat (if f.aon then a + 32 else a) stride
  flueBad (blockValue g c) = false → s.tepiFault w f a (if f.aon then a + 32 else a) stride out.1 = none →
  (∀ p ∈ flueReads f, s.padBusy p.1 p.2 = false) → s.acquiring s.issuer = false →
  s.begins (.tepi w c) g [] n .tepi fun o t => t.resting = s.resting ∧ t.reqs = s.reqs ∧ o.mstat = out.2 ∧
    o.release = some f.scope ∧ (f.aon = true → o.effect = .flueRows a out.1 0 ∧ o.todo = []) ∧
    (f.aon = false → o.effect = .none ∧ o.todo = storeMoves out.1) ∧
    o.arrive = if w.arr = 1 then some (w.sg.toNat, w.slot.toNat) else none

/-! ### Gang-collective words (R233, R240-R245, R251-R258) -/

/-- A member issues its word with every thread of its group at once, and some other member it meets has not latched its
own. -/
def latchesAlone (s : State) (g : Group) (c : Clause) (t gi : Nat) (tm : Team) : Prop :=
  s.issuer = .group t gi ∧ s.teams[t]? = some tm ∧ g.clause = some c ∧ c.gathered = false ∧ g.latch = none ∧
  activeMask g ≠ 0 ∧ (∀ l, (activeMask g).getLsbD l = true → c.lanes.getLsbD l = true ∧ l < g.threads.length) ∧
  (∀ l, (threadAt g l).held = none) ∧ gangN g ≠ 0 ∧ (∀ m ∈ gangList g, ∀ x, tm.groups[m]? = some x → x.run ≠ .ended) ∧
  ∀ x ∈ tm.groups, (x = g ∨ x.latch.isSome) → gi ∈ gangList x → ∃ m ∈ gangList x, m ≠ gi ∧ ∀ y, tm.groups[m]? = some y → y.latch = none

/-- A gang-collective word is held in the rendezvous latch with the operands its member read, until the last member issues
it (R233). -/
def multipliesLatch : Prop := ∀ (w : MulW) (b : CBlock) (s : State) (g : Group) (c : Clause) (t gi : Nat) (tm : Team),
  latchesAlone s g c t gi tm →
  let waits (i : Instr) (l : Latch) : Prop :=
    s.runs i (fun g' => g'.latch = some l ∧ g'.hold = .latch ∧ g.still g') fun u => u.bare = s.bare ∧ u.ops = s.ops
  (s.issues w.head (mulCheck false w) g → waits (.mma w) (mulLatch (.mma w) w (fun _ => []) g)) ∧
  (s.issues w.head (mulCheck false w) g → waits (.mmas w) (mulLatch (.mmas w) w (fun _ => []) g)) ∧
  (s.issues w.head (mmarCheck w b) g →
    waits (.mmar w b) (mulLatch (.mmar w b) w (fun g => blockWords (blockValue g b)) g))

/-- Every member of a gang has latched one and the same word, and none of its groups has ended. -/
def gangMet (s : State) (i : Instr) (h : Head) (g : Group) (t gi : Nat) (ms : List Nat) (tm : Team) : Prop :=
  s.issuer = .group t gi ∧ s.teams[t]? = some tm ∧ s.unitOf s.issuer = some g ∧ gatheredNow g = true ∧ g.latch.isSome ∧
  gangN g ≠ 0 ∧ (∀ m ∈ gangList g, ∀ x, tm.groups[m]? = some x → x.run ≠ .ended) ∧ s.meeting t gi = some ms ∧ ms.Nodup ∧
  (∀ l ∈ s.latches t ms, l.instr = i) ∧
  (∀ m ∈ ms, ∃ x, tm.groups[m]? = some x ∧ gangLists x = gangLists g ∧ flagBlocked x (selectedFlag x h.fs) = false)

/-- What a multiply leaves: in member `p`'s tiles each element is the old one, if accumulated, and the products of its A row
and its B column (R243); every member counts the multiply under its flag and passes the word (R233, R245). -/
def State.multiplied (s u : State) (w : MulW) (t : Nat) (ms : List Nat) (src : ObRec) (row : Nat → Nat) (bits : BitVec 32)
    (before tm tm' : Team) : Prop :=
  let n := ms.length
  let c := min n 4
  let ls := s.latches t ms
  let gamma (p : Nat) : Reg32 := (ls[p]?.map Latch.gamma).getD 0
  (∀ i, (∀ m ∈ ms, i ≠ .group t m) → u.unitOf i = s.unitOf i) ∧
  (∀ m ∈ ms, ∃ x g', before.groups[m]? = some x ∧ u.unitOf (.group t m) = some g' ∧ g'.latch = none ∧ x.still g' ∧
    ∀ f, selectedFlag x w.head.fs = some f → flagCount g' f = flagCount x f + if f < x.cf.length then 1 else 0) ∧
  (∃ os, u.ops = s.ops ++ os ∧ (os.map fun o => (o.issuer, o.kind, o.mstat)) =
    ms.mapIdx fun p m => (.group t m, .mma, (mulAll w src row n ls tm).2.getD p 0 ||| bits)) ∧
  tm'.tiles.map Tile.reserved = tm.tiles.map Tile.reserved ∧
  (∀ p sl r col, p < n → sl < c → r < 16 → col < 16 →
    let m := w.mt.toNat + p * c + sl
    tileElem tm' m r col = (mulElem w (isIntFmt src.fmt) (tileElem tm m r col) (gamma p)
      (aRow tm src (row (16 * p + r)) w.aoff.toNat) ((sliceCols w tm ls sl).getD col ⟨[], [], false⟩)).1) ∧
  ∀ m r col, m < w.mt.toNat ∨ w.mt.toNat + n * c ≤ m → tileElem tm' m r col = tileElem tm m r col

/-- `MMA` and `MMAS` multiply once every member has issued them and their ranges and tiles pass R242 and R244. -/
def multipliesRun : Prop := ∀ (w : MulW) (s : State) (g : Group) (t gi : Nat) (ms : List Nat) (tm : Team) (a : ObRec) (sparse : Bool),
  let i := if sparse then Instr.mmas w else Instr.mma w
  gangMet s i w.head g t gi ms tm → notReserved tm (mulTiles w ms.length) = false →
  mulRangeDetails w sparse ms.length tm = [] → rangeOf tm w.oba.toNat = some a →
  s.mulBusy t (mulNames w) (mulTiles w ms.length) = false →
  mulDataDetails tm a (List.range (16 * ms.length)) w.aoff.toNat = [] →
  ∃ u tm', Sys2Proof.Machine.exec i s = .next u ∧ s.teamOnly u tm' ∧ s.multiplied u w t ms a id 0 tm tm tm' ∧
    ({ tm' with tiles := tm.tiles } : Team).bare = tm.bare

/-- A multiply of a riddle sequence that is under way reads the representative of each row, from RROB under MEAN (R256,
R257); `.END` closes the sequence. -/
def riddleRuns : Prop := ∀ (w : MulW) (b : CBlock) (s : State) (g : Group) (t gi : Nat) (ms : List Nat) (tm : Team) (a : ObRec) (z : Riddle),
  gangMet s (.mmar w b) w.head g t gi ms tm → w.b = 0 → (tm.riddles.find? fun r => r.members = ms) = some z →
  notReserved tm (mulTiles w ms.length) = false → rangeOf tm w.oba.toNat = some a →
  mulRangeDetails w false ms.length tm = [] → (z.rep = 1 → rrobDetails tm w ms.length z.rrob = []) →
  s.mulBusy t (mulNames w ++ if z.rep = 1 then [z.rrob] else []) (mulTiles w ms.length) = false →
  (z.rep ≠ 1 → ∀ r ∈ z.rows, sideBeyond tm a r w.aoff.toNat = false) →
  ∃ u tm', Sys2Proof.Machine.exec (.mmar w b) s = .next u ∧ s.teamOnly u tm' ∧
    s.multiplied u w t ms (if z.rep = 1 then (rangeOf tm z.rrob).getD a else a) (fun r => z.rows.getD r 0) 0 tm tm tm' ∧
    ({ tm' with tiles := tm.tiles, riddles := tm.riddles } : Team).bare = tm.bare ∧
    tm'.riddles = if w.e = 1 then tm.riddles.filter fun r => r.members ≠ ms else z :: tm.riddles.filter fun r => r.members ≠ ms

/-- A multiply that opens a sequence with a GIVEN map takes each row's representative from the map (R255, R257). -/
def riddleOpens : Prop := ∀ (w : MulW) (b : CBlock) (s : State) (g : Group) (t gi : Nat) (ms : List Nat) (tm : Team) (a : ObRec),
  gangMet s (.mmar w b) w.head g t gi ms tm → w.b = 1 → (tm.riddles.find? fun r => r.members = ms) = none →
  let vs := (((s.latches t ms).head?).map Latch.values).getD []
  let k := riddleOf vs
  let map := (List.range (16 * ms.length)).map fun i => (scratchByte tm (k.map + i)).toNat
  k.rep = 2 → riddleBad vs a.fmt = false → notReserved tm (mulTiles w ms.length) = false → rangeOf tm w.oba.toNat = some a →
  mulRangeDetails w false ms.length tm = [] → s.mulBusy t (mulNames w) (mulTiles w ms.length) = false →
  s.padBusy k.map (16 * ms.length) = false → (∀ m ∈ ms, s.acquiring (.group t m) = false) → k.map % 32 = 0 → s.padVerdict k.map (16 * ms.length) = none →
  (∀ q ∈ map, q < 16 * ms.length ∧ map.getD q 0 = q) → (∀ r ∈ map, sideBeyond tm a r w.aoff.toNat = false) →
  ∃ u tm', Sys2Proof.Machine.exec (.mmar w b) s = .next u ∧ s.teamOnly u tm' ∧
    s.multiplied u w t ms a (fun r => map.getD r 0) 0 tm tm tm' ∧
    ({ tm' with tiles := tm.tiles, riddles := tm.riddles } : Team).bare = tm.bare ∧
    tm'.riddles = if w.e = 1 then tm.riddles.filter fun r => r.members ≠ ms
      else ⟨ms, 2, k.rrob, map⟩ :: tm.riddles.filter fun r => r.members ≠ ms

/-- An integer element: the accumulator and every product summed exactly, wrapped or saturated to 32 bits (R83, R243). -/
def integerElements : Prop := ∀ (w : MulW) (old gamma : Reg32) (a : ARow) (b : BCol), w.sc = 0 → w.st = 0 →
  let products : Int := ((List.zip a.ints b.ints).map fun ab =>
    ((List.zip ab.1 ab.2).map fun xy => (xy.1.map fun x => x * xy.2).getD 0).sum).sum
  let start : Int := if w.ac = 1 then old.toInt else 0
  (mulElem w true old gamma a b).1 = BitVec.ofInt 32 (if w.ng = 1 then start - products else start + products)

/-! ### Words a whole group issues (R169), engines and subscriptions (R308-R370) -/

/-- Every live thread of the group issues the word now, or all have issued it and the word waited. -/
def State.wholly (s : State) (h : Head) (check : Group → WordCheck) (g : Group) : Prop :=
  s.unitOf s.issuer = some g ∧ flagFree g h ∧ (gatheredNow g = true ∨ (firstFault g h (check g) = none ∧
    ∃ c, g.clause = some c ∧ c.gathered = false ∧ activeMask g ≠ 0 ∧ (∀ l, (threadAt g l).held = none) ∧
      ∀ l, (activeMask g).getLsbD l = true → c.lanes.getLsbD l = true ∧ l < g.threads.length))

/-- `CPY` starts one command of a copy engine (R308-R313). -/
def copiesStart : Prop := ∀ (w : EngW) (c : CBlock) (s : State) (g : Group) (n : Nat), selectedFlag g w.head.fs = some n →
  flagFree g w.head → s.issues w.head (cpyCheck w c) g → s.copyVerdict w (blockValue g c) = none →
  s.copiesAt (s.coreOf s.issuer / 8) < 64 → s.acquiring s.issuer = false → s.padSwitching (blockValue g c) (w.sub.toNat % 4) = false →
  s.begins (.cpy w c) g [] n .cpy fun o t => t.resting = s.resting ∧ t.reqs = s.reqs ∧ t.l1 = s.l1 ∧
    o.effect = .copy (blockValue g c) (w.sub.toNat % 4) (w.sub.toNat / 4 % 32) 0 ∧
    o.before = (if w.acq = 1 then some w.scope.toNat else none) ∧ o.release = (if w.rel = 1 then some w.scope.toNat else none) ∧
    o.arrive = if w.arr = 1 then some (w.sg.toNat, w.slot.toNat) else none

/-- `TGMS` is latched by its members and issued by the last one: every member's kd is due the number of pairs that the map
lists for the command's offsets (R314-R318). -/
def tileGathersStart : Prop := ∀ (w : EngW) (c : CBlock) (s : State) (g : Group) (cl : Clause) (t gi : Nat) (tm : Team),
  (latchesAlone s g cl t gi tm → s.issues w.head (tgmsCheck w c) g →
    s.runs (.tgms w c) (fun g' => g'.latch = some (tgmsLatch w c g) ∧ g'.hold = .latch ∧ g.still g')
      fun u => u.bare = s.bare ∧ u.ops = s.ops) ∧
  ∀ (ms : List Nat) (a b : ObRec) (h : CeHandle) (m : Nat × Nat × List Nat), gangMet s (.tgms w c) w.head g t gi ms tm →
    let vs := (((s.latches t ms).head?).map Latch.values).getD []
    let k := tileCmdOf vs
    let cols := min ms.length 4
    let tiles := (List.range (ms.length * cols)).map (k.mt + ·)
    notReserved tm tiles = false → rangeOf tm k.obg = some a → rangeOf tm k.obw = some b →
    16 * ms.length ≤ a.rows → 16 * cols ≤ b.rows → h.isTable = false →
    (match (s.latches t ms).findSome? Latch.map with
      | some i => s.mapById i
      | none => s.ceHandle s.dieCtx.1 s.dieCtx.2 k.handle) = some h →
    h.holder = none → mapOf h = some m → s.tgmsVerdict w k vs a b cols (some m) = none →
    s.mulBusy t [k.obg, k.obw] tiles = false → (∀ x ∈ ms, s.acquiring (.group t x) = false) → ms ≠ [] →
    let count := ((tileOffsets k m.2.1).map fun i => (s.mapPairs m i).length).sum
    ∃ u os, Sys2Proof.Machine.exec (.tgms w c) s = .next u ∧
      (∀ i, (∀ x ∈ ms, i ≠ .group t x) → u.unitOf i = s.unitOf i) ∧
      (∀ x ∈ ms, ∃ y g', tm.groups[x]? = some y ∧ u.unitOf (.group t x) = some g' ∧ g'.latch = none ∧ y.still g') ∧
      u.ops.drop s.ops.length = os ∧ (os.map fun o => (o.issuer, o.kind)) = (ms.map fun x => (.group t x, .tgms)) ∧
      (∀ o ∈ os, o.writes = (kDest w.d).map fun r => ⟨r, none, BitVec.ofNat 32 count⟩) ∧
      { u.bare with teams := [], dies := [] } = { s.bare with teams := [], dies := [] }

/-- What a coordinate-engine word starts: one command whose kd is due a result (R358-R360). -/
def commandStarts (s : State) (i : Instr) (w : EngW) (g : Group) (n : Nat) (e : Effect) (part : Op → State → Prop) : Prop :=
  s.begins i g (kDest w.d) n .ce fun o t => o.effect = e ∧ part o t ∧ t.reqs = s.reqs ∧
    o.dests = ((kDest w.d).map fun r => (r, none)) ∧
    o.before = (if w.acq = 1 then some w.scope.toNat else none) ∧ o.release = (if w.rel = 1 then some w.scope.toNat else none) ∧
    o.arrive = if w.arr = 1 then some (w.sg.toNat, w.slot.toNat) else none

/-- `CEBLD` reserves its handle, with its slots of hash SRAM where they fit and no build waits; `CENBR` reserves a map's
handle; `CEWALK` names none; `CEREL` takes the name off a handle (R356-R368). -/
def engineCommandsStart : Prop := ∀ (w : EngW) (c : CBlock) (s : State) (g : Group) (n : Nat), selectedFlag g w.head.fs = some n →
  s.acquiring s.issuer = false →
  let v := blockValue g c
  let die := s.coreOf s.issuer / 48
  let ctx := s.ctxOf s.issuer
  let adds (t : State) (h : CeHandle) : Prop :=
    t.resting = (s.modDie die fun d => { d with handles := d.handles ++ [h] }).resting
  let addr (x : Word64) : Nat := x.toNat % 2 ^ 48
  s.ringVerdict (w.arr = 1) w.sg.toNat w.slot.toNat = none →
  (s.wholly w.head (ceCheck w c) g →
    let cc := v.c0.toNat / 16 % 32
    let len := v.c2.toNat % 2 ^ 24
    s.ceHandle die ctx (v.c0.toNat % 16) = none → v.c0.toNat / 2 ^ 9 % 2 ^ 52 = 0 → v.c1.toNat / 2 ^ 48 % 2 ^ 13 = 0 →
    v.c2.toNat / 2 ^ 24 % 2 ^ 37 = 0 → v.c3.toNat % 2 ^ 61 = 0 → 4 ≤ cc → cc ≤ 19 → 0 < len → len < 2 ^ cc →
    addr v.c1 % 32 = 0 → s.spanVerdict needR (addr v.c1) (8 * len) = none →
    commandStarts s (.cebld w c) w g n (.build (v.c0.toNat % 16) (2 ^ cc) (addr v.c1) len) fun o t =>
      adds t ⟨o.id, ctx, v.c0.toNat % 16, true, some o.id,
        if (∃ q ∈ s.ceOps die, s.ungranted die q = true) ∨ (∀ d, s.dies[die]? = some d → hashSlots < d.hashUsed + 2 ^ cc)
        then .map 0 0 [] else .table (2 ^ cc) []⟩) ∧
  (s.wholly w.head (ceCheck w c) g →
    let km := v.c0.getLsbD 8
    let noff := v.c0.toNat / 2 ^ 9 % 64 + 1
    let nout := v.c0.toNat / 2 ^ 16 % 2 ^ 24
    let extent := mapHead noff + 8 * noff * nout
    s.ceHandle die ctx (v.c0.toNat % 16) = none → (∃ h, s.ceHandle die ctx (v.c0.toNat / 16 % 16) = some h ∧ h.isTable = true) →
    v.c0.getLsbD 15 = false → v.c0.toNat / 2 ^ 40 % 2 ^ 21 = 0 → v.c1.toNat / 2 ^ 48 % 2 ^ 13 = 0 →
    v.c2.toNat / 2 ^ 48 % 2 ^ 13 = 0 → v.c3.toNat / 2 ^ 48 % 2 ^ 13 = 0 → nout ≠ 0 →
    (km = false → addr v.c3 = 0 ∧ noff = 27) → s.ordDest (addr v.c2) extent = false →
    addr v.c1 % 32 = 0 → addr v.c2 % 32 = 0 → addr v.c3 % 32 = 0 →
    s.spanVerdict needW (addr v.c2) extent = none → s.spanVerdict needR (addr v.c1) (8 * nout) = none →
    (km = true → s.spanVerdict needR (addr v.c3) (8 * noff) = none) →
    commandStarts s (.cenbr w c) w g n
      (.neighbours (v.c0.toNat % 16) (v.c0.toNat / 16 % 16) km noff nout (addr v.c1) (addr v.c2) (addr v.c3)) fun o t =>
      adds t ⟨o.id, ctx, v.c0.toNat % 16, false, some o.id, .map 0 0 []⟩) ∧
  (s.wholly w.head (ceCheck w c) g →
    let len := v.c2.toNat % 2 ^ 24
    let parties := v.c2.toNat / 2 ^ 24 % 256 + 1
    let extent := walkHead parties + 2 * walkRow len
    v.c0.toNat / 2 ^ 48 % 2 ^ 13 = 0 → v.c1.toNat / 2 ^ 48 % 2 ^ 13 = 0 → v.c2.toNat / 2 ^ 32 % 2 ^ 29 = 0 →
    v.c3.toNat % 2 ^ 61 = 0 → len ≠ 0 → s.ordDest (addr v.c1) extent = false → addr v.c0 % 32 = 0 → addr v.c1 % 32 = 0 →
    s.spanVerdict needR (addr v.c0) (8 * len) = none → s.spanVerdict needW (addr v.c1) extent = none →
    commandStarts s (.cewalk w c) w g n (.walk (addr v.c0) (addr v.c1) len parties) fun _ t => t.resting = s.resting) ∧
  (s.wholly w.head (cerelCheck w) g →
    let h := (readOpd g 0 w.a 0).toNat % 16
    (s.ceHandle die ctx h).isSome = true →
    commandStarts s (.cerel w) w g n (.free h) fun o t => t.resting = (s.modDie die fun d => { d with
      handles := d.handles.map fun x => if x.ctx = ctx && x.name = h then { x with name := 16 + o.id } else x }).resting)

/-- `SBS` enters a subscription under the lowest free handle and starts its sync, or is due the status that refuses it;
`SBSX` starts the end of one; `PUBF` starts to wait for the updates of its group, whose windows close (R319-R325). -/
def subscriptionsStart : Prop := ∀ (w : EngW) (s : State) (g : Group) (n t : Nat) (tm : Team) (l : Launch),
  selectedFlag g w.head.fs = some n → s.acquiring s.issuer = false → t = s.viewTeam s.issuer → s.teams[t]? = some tm →
  s.launchOf t = some l →
  let r (j : Nat) : Nat := (readOpd g 0 w.a j).toNat
  let status := s.sbsStatus t tm l (r 0) (r 1) (r 2) (r 3)
  let due (o : Op) (v : Nat) : Prop := o.writes = (kDest w.d).map fun x => ⟨x, none, BitVec.ofNat 32 v⟩
  (s.wholly w.head (subCheck true w) g → status ≠ 0 →
    s.begins (.sbs w) g (kDest w.d) n .sbs fun o u => u.bare = s.bare ∧ o.effect = .none ∧ due o (256 * status)) ∧
  (s.wholly w.head (subCheck true w) g → status = 0 → ∀ h p, (∀ b ∈ s.subs, b.subscriber = t → b.handle ≠ h) →
    (∀ i, i < h → ∃ b ∈ s.subs, b.subscriber = t ∧ b.handle = i) → h < 16 → s.teamAt tm.launch (r 0) = some p →
    s.begins (.sbs w) g (kDest w.d) n .sbs fun o u => o.effect = .sync h ∧ due o h ∧
      u.bare = { s.bare with subs := s.subs ++ [{
        handle := h, subscriber := t, publisher := p, pubOffset := r 1, subOffset := r 2, len := r 3, state := .active,
        synced := 0, log := [], overflow := false, image := [] }] }) ∧
  (s.wholly w.head (subCheck false w) g →
    s.begins (.sbsx w) g (kDest w.d) n .sbsx fun o u => u.bare = s.bare ∧ o.effect = .unsubscribe (r 0 % 16)) ∧
  (s.wholly w.head (pubfCheck w) g → s.ringVerdict (w.arr = 1) w.sg.toNat w.slot.toNat = none →
    let mine (u : Update) : Bool := u.team = t && u.grps.contains (issuerGroup s.issuer)
    s.begins (.pubf w) g [] n .pubf fun o u => o.effect = .flush ((s.updates.filter mine).map Update.id)
        ((s.ops.filter fun p => p.issuer = s.issuer && (padPending p || s.clearsPublished p)).map Op.id) ∧
      o.arrive = (if w.arr = 1 then some (w.sg.toNat, w.slot.toNat) else none) ∧
      u.bare = { s.bare with updates := s.updates.map fun x => if mine x then { x with windowOpen := false } else x })

/-! ### Class S: traps, handlers, tasks, rings, barriers, steps (R216-R221, R269-R302, R350, R432-R442) -/

/-- A group of a team stops: parked, with its saved status in `SSW0` and `SSW1` and the fault address written, in its cluster's
queue; its registers, every other unit and all memory stay as they were (R269-R273). -/
def State.stopsAt (s u : State) (t gi : Nat) (g : Group) (tm : Team) (cause detail pos : Nat) (wait : BitVec 12) (mask : BitVec 32)
    (addr : Nat) : Prop :=
  (∃ g', u.unitOf (.group t gi) = some g' ∧ g'.run = .parked ∧ g'.clause = none ∧
    getField g'.ssw0 0 8 = cause % 256 ∧ getField g'.ssw0 8 1 = 0 ∧ getField g'.ssw0 9 4 = pos % 16 ∧ getField g'.ssw0 13 12 = wait.toNat ∧
    getField g'.ssw0 25 7 = detail % 128 ∧ getField g'.ssw0 32 16 = mask.toNat % 2 ^ 16 ∧ getField g'.ssw0 48 16 = 0 ∧
    g'.ssw1.toNat = mask.toNat / 2 ^ 16 ∧ g'.faultAddr = BitVec.ofNat 48 addr ∧
    g.still { g' with ssw0 := g.ssw0, ssw1 := g.ssw1, faultAddr := g.faultAddr }) ∧
  (∀ j, j ≠ .group t gi → u.unitOf j = s.unitOf j) ∧
  { u.bare with teams := [], clusters := [] } = { s.bare with teams := [], clusters := [] } ∧
  u.clusters.map Cluster.bare = (modAt s.clusters (tm.core / 8) fun c => { c with stops := c.stops ++ [⟨t, gi, cause⟩] }).map Cluster.bare

/-- A word of an ALU row that fails a check of R44 stops its group at that word, with the PCs of its threads at their H word. -/
def AluRow.stops (r : AluRow) : Prop := ∀ (w : AluW) (s : State) (g : Group) (c : Clause) (t gi cause detail : Nat) (mask : BitVec 32) (tm : Team),
  s.issuer = .group t gi → s.teams[t]? = some tm → s.unitOf s.issuer = some g → g.clause = some c → c.gathered = false →
  firstFault g w.head (aluCheck (r.form w) w g) = some (cause, detail, mask) →
  ∃ u, Sys2Proof.Machine.exec (r.con w) s = .next u ∧ s.stopsAt u t gi g tm cause detail c.pos c.wait mask 0 ∧
    ∀ l, l < g.threads.length → (u.unitOf s.issuer).map (fun g' => (threadAt g' l).pc) =
      some (if c.lanes.getLsbD l then BitVec.ofNat 32 c.h else (threadAt g l).pc)

/-- `TRAP` stops its group after the word, with its code as the detail; no guard-true lane, no stop (R276, R277). -/
def trapsStop : Prop := ∀ (w : SysW) (s : State) (g : Group) (c : Clause) (t gi : Nat) (tm : Team), s.issuer = .group t gi →
  s.teams[t]? = some tm → s.issues w.head (trapCheck w) g → flagFree g w.head → g.clause = some c →
  (guardMask g w.head = 0 → s.runs (.trap w) (fun g' => g.still g') fun u => s.unmoved u []) ∧
  (guardMask g w.head ≠ 0 → ∃ u, Sys2Proof.Machine.exec (.trap w) s = .next u ∧
    s.stopsAt u t gi g tm (if w.ph = 1 then 0x0C else 0x0B) (8 * w.sg.toNat + w.slot.toNat) 0 0 (guardMask g w.head) 0 ∧
    ∀ l, l < g.threads.length → (u.unitOf s.issuer).map (fun g' => (threadAt g' l).pc) =
      some (if c.lanes.getLsbD l then BitVec.ofNat 32 (c.h + 1 + c.len) else (threadAt g l).pc))

/-- A handler hands its stop to the host: the stopped group stays parked with INH set and the stop goes back to the front of
its queue, its context is stopped, and vector 2 reports it (R282). -/
def State.handsOver (s u : State) (c : Nat) (cl : Cluster) (h : Handler) (cause : Nat) : Prop :=
  let ctx := ((s.launchOf h.stop.team).map Launch.ctx).getD 0
  (u.clusters[c]?).map Cluster.handler = some none ∧
  (u.clusters[c]?).map Cluster.stops = some (h.stop :: cl.stops.filter fun x => x ≠ h.stop) ∧
  (∀ gr, s.group? h.stop.team h.stop.grp = some gr →
    let x := if gr.latch.isSome then saveGroup gr else gr
    u.group? h.stop.team h.stop.grp = some { x with ssw0 := setField x.ssw0 8 1 1 }) ∧
  (u.contexts[ctx]?).map Context.stopped = (s.contexts[ctx]?).map (fun _ => true) ∧
  (∃ x, u.interrupts = s.interrupts ++ [x] ∧ x.vector = 2 ∧ x.ctx = ctx ∧ x.cause = cause) ∧
  s.memKept u ∧ u.lines = s.lines ∧ u.hostMem = s.hostMem ∧ u.reqs = s.reqs ∧ u.launches = s.launches

/-- `HALT`, `TRET` and an `EXIT` or `RET` of the control processor's thread end a handler (R275, R280, R282). -/
def handlersEnd : Prop := ∀ (s : State) (g : Group) (c : Nat) (cl : Cluster) (h : Handler), s.issuer = .handler c →
  s.clusters[c]? = some cl → cl.handler = some h → (∀ o ∈ s.ops, o.issuer ≠ s.issuer) →
  let ended (i : Instr) : Prop := ∃ u, Sys2Proof.Machine.exec i s = .next u ∧ ∀ gr, s.group? h.stop.team h.stop.grp = some gr →
    s.handsOver u c cl h (getField gr.ssw0 0 8)
  (∀ w : SysW, s.issues w.head (haltCheck w) g → flagFree g w.head → guardMask g w.head ≠ 0 → ended (.halt w)) ∧
  (∀ w : SysW, s.issues w.head (haltCheck w) g → flagFree g w.head → guardMask g w.head = 0 →
    s.runs (.halt w) (fun g' => g.still g') fun u => s.unmoved u []) ∧
  (∀ w : BareW, s.issues w.head (bareCheck w) g → flagFree g w.head → (guardMask g w.head).getLsbD 0 = true → g.cohort = 1 →
    g.threads.length = 1 → ended (.exit w) ∧ ((threadAt g 0).joins = [] → ended (.ret w))) ∧
  ∀ (w : SysW) (gr : Group), s.issues w.head (tretCheck w) g → flagFree g w.head → guardMask g w.head ≠ 0 →
    readOpd g 0 w.a 0 = h.handle → s.group? h.stop.team h.stop.grp = some gr → sswReserved gr = false →
    posBeyond (s.codeOf (.group h.stop.team h.stop.grp)).1 gr = false →
    ∃ u g', Sys2Proof.Machine.exec (.tret w) s = .next u ∧ u.unitOf s.issuer = none ∧
      u.group? h.stop.team h.stop.grp = some g' ∧ g'.run = (if allExited gr then .ended else .running) ∧
      g'.ssw0 = setField gr.ssw0 8 1 0 ∧ gr.still { g' with ssw0 := gr.ssw0 } ∧
      { u.bare with clusters := [] } = { s.bare with clusters := [] }

/-- `RET` and `EXIT` of a group: a thread without a call exits, and one inside a call goes back to its word; the group ends
with its last thread (R89, R162, R164). -/
def threadsLeave : Prop := ∀ (w : BareW) (s : State) (g : Group) (t gi : Nat), s.issuer = .group t gi →
  s.issues w.head (bareCheck w) g → flagFree g w.head →
  let acts (l : Nat) : Prop := (guardMask g w.head).getLsbD l = true ∧ l < g.threads.length
  let leaves (g' : Group) (out : Nat → Prop) : Prop :=
    g'.clause = none ∧
    (∀ l, l < g.threads.length → ((threadAt g' l).exited = true ↔ (threadAt g l).exited = true ∨ out l)) ∧
    (∀ l, l < g.threads.length → (issuing g).getLsbD l = true → (¬ acts l ∨ out l) →
      (threadAt g' l).pc = BitVec.ofNat 32 (afterClause g)) ∧
    (∀ l, l < g.threads.length → (issuing g).getLsbD l = false → (threadAt g' l).pc = (threadAt g l).pc) ∧
    (allExited g' = true → g'.run = .ended) ∧ (allExited g' = false → g'.run = g.run) ∧
    (∀ n, readK g' n = readK g n) ∧ ∀ l, (threadAt g' l).v = (threadAt g l).v ∧ (threadAt g' l).p = (threadAt g l).p ∧
      (threadAt g' l).status = (threadAt g l).status
  s.runs (.exit w) (fun g' => leaves g' acts) (fun u => s.unmoved u []) ∧
  s.runs (.ret w) (fun g' => leaves g' (fun l => acts l ∧ toCall g (threadAt g l).joins = []) ∧
    ∀ l, acts l → ∀ j r q, toCall g (threadAt g l).joins = j :: r → (g.records.find? fun x => x.id = j) = some q →
      (threadAt g' l).pc = BitVec.ofNat 32 q.target) fun u => s.unmoved u []

/-- `HRD` is due an item of the stopped group as it stands, and `HWR` will write one (R278). -/
def windowsOpen : Prop := ∀ (w : SysW) (s : State) (g gr : Group) (c n : Nat) (h : Handler), s.issuer = .handler c →
  ((s.clusters[c]?).bind Cluster.handler) = some h → selectedFlag g w.head.fs = some n → flagFree g w.head →
  guardMask g w.head ≠ 0 → readOpd g 0 w.a 0 = h.handle → selectorOk (readOpd g 0 w.b 0) = true →
  s.group? h.stop.team h.stop.grp = some gr →
  let sel := readOpd g 0 w.b 0
  (s.issues w.head (windowCheck true w) g → s.begins (.hrd w) g (regNames g 0 w.d 1) n .debug fun o t => t.bare = s.bare ∧
    o.effect = .none ∧ o.writes = (regNames g 0 w.d 1).map fun r => ⟨r, none, readItem gr sel⟩) ∧
  (s.issues w.head (windowCheck false w) g → s.begins (.hwr w) g [] n .debug fun o t => t.bare = s.bare ∧ o.writes = [] ∧
    o.effect = .debugWrite (sel.toNat / 2 ^ 16 % 16) (sel.toNat % 256) (sel.toNat / 256 % 32) (readOpd g 0 w.d 0))

/-- `SPAWN` makes a child with the ID below its parent's and starts its billet on its way; `TWAIT`, once every child of the
group has ended, delivers how many are not DONE (R299-R302). -/
def tasksSpawn : Prop := ∀ (w : SysW) (s : State) (g : Group) (t : Nat) (tm : Team) (l : Launch), t = s.viewTeam s.issuer →
  s.teams[t]? = some tm → s.launchOf t = some l → s.acquiring s.issuer = false → (l.ordered = true → s.setSettled t = true) →
  (∀ n, selectedFlag g w.head.fs = some n → s.wholly w.head (spawnCheck w) g →
    let off := (readOpd g 0 w.a 0).toNat
    let bytes := (List.range 64).map fun i => scratchByte tm (off + i)
    let id := childId tm.taskId (billetOrd (natOfBytes bytes))
    s.padBusy off 64 = false → s.padWrites s.issuer = false → off % 64 = 0 → scratchVerdict tm off 64 = none → s.spawnDetails tm l (natOfBytes bytes) = [] →
    s.begins (.spawn w) g (kDest w.d) n .spawn fun o u =>
      o.release = some 4 ∧ (o.writes = (kDest w.d).map fun r => ⟨r, none, BitVec.ofNat 32 (id.toNat % 2 ^ 32)⟩) ∧
      (∃ b, o.effect = .child b ∧ b.taskId = id ∧ b.parent = some t ∧ b.bytes = bytes ∧ b.launch = tm.launch) ∧
      s.teamOnly u { tm with ordinals := billetOrd (natOfBytes bytes) :: tm.ordinals, spawns := tm.spawns + 1 } ∧
      (u.unitOf s.issuer).map Group.children = some (g.children ++ [id])) ∧
  (s.wholly w.head (twaitCheck w) g → l.ordered = false → (∀ i, s.issuer = .group t i →
    let kids := s.endedChildren t g.children
    let bad := kids.filter fun u => (s.teams[u]?).bind Team.ended ≠ some .done
    let count := min 255 bad.length
    g.children.length ≤ kids.length →
    s.runs (.twait w) (fun g' => g'.children = [] ∧ (∀ r ∈ kDest w.d, r = .k (w.d.toNat - 0x100) ∧ readK g' (w.d.toNat - 0x100) = BitVec.ofNat 32 count) ∧
        (w.sub.getLsbD 4 = true → ∀ x, (activeMask g).getLsbD x = true → x < g.threads.length →
          readP (threadAt g' x) (w.sub.toNat % 16) = decide (count ≠ 0)) ∧
        g.keeps g' (-1) fun _ => kDest w.d ++ if w.sub.getLsbD 4 then [.p (w.sub.toNat % 16)] else [])
      fun u => u.bare = { s.bare with
        teams := s.bare.teams.set t { tm.bare with covered := tm.covered ++ kids }
        l1 := s.l1.filter fun x => x.core ≠ s.coreOf s.issuer }))

/-- `ARRV` leaves an inversion pending behind the group's earlier accesses, and `WAITR` passes once the slot has the phase it
awaits (R218, R219). -/
def ringsStep : Prop := ∀ (w : SysW) (s : State) (g : Group) (tm : Team) (r : Ring), s.teams[s.viewTeam s.issuer]? = some tm →
  (tm.rings.find? fun x => x.name = w.sg.toNat) = some r → w.slot.toNat < r.slots →
  let slot := (w.slot.toNat + (readOpd g 0 w.a 0).toNat) % r.slots
  (s.wholly w.head (ringStepCheck true w) g → s.runs (.arrv w) (fun g' => g.still g') fun u => u.bare = s.bare ∧
    ∃ o, u.ops = s.ops ++ [o] ∧ o.issuer = s.issuer ∧ o.kind = .arrv ∧ o.flag = none ∧ o.arrive = some (w.sg.toNat, slot)) ∧
  (s.wholly w.head (ringStepCheck false w) g → (r.phases.getLsbD slot = true ↔ ¬ (w.ph = 1 ↔ (readOpd g 0 w.b 0).getLsbD 0 = true)) →
    s.runs (.waitr w) (fun g' => g.still g') fun u => s.unmoved u [])

/-- The barrier instruction of a level. -/
def barInstr (w : SysW) : Instr :=
  match w.lvl.toNat with | 0 => .barTeam w | 1 => .barCluster w | 2 => .barDie w | _ => .barGrid w

/-- An arrival at a barrier holds its group while a participant is missing, and the last one lets every participant pass
(R220, R221, R294, R350, R442). -/
def barriersMeet : Prop := ∀ (w : SysW) (s : State) (g : Group) (t gi : Nat) (tm : Team), s.issuer = .group t gi →
  s.teams[t]? = some tm → s.wholly w.head (barCheck w) g → s.barFault w = none → w.lvl.toNat ≤ 3 →
  let level := w.lvl.toNat
  let index := if level = 0 then w.sub.toNat % 4 else if level = 1 then w.sub.toNat % 16 else 0
  let all := s.barGroups level index t
  let here (p : Nat × Nat) : Prop := ((s.group? p.1 p.2).map Group.hold) = some (.bar level index)
  s.fenceHolds 3 (level + 1) = false → (t, gi) ∈ all → (∀ p ∈ all, ∀ x, s.group? p.1 p.2 = some x → x.clause.isSome) →
  ((∃ p ∈ all, p ≠ (t, gi) ∧ ¬ here p) → s.runs (barInstr w) (fun g' => g'.hold = .bar level index ∧ g.still g')
    fun u => u.bare = s.bare ∧ u.ops = s.ops) ∧
  ((∀ p ∈ all, p ≠ (t, gi) → here p) → s.barAssembled level t = true → (level = 3 → s.orderedOf s.issuer = false) →
    (level ≠ 0 → ∀ x ∈ s.updates, x.team ∉ s.barTeams level t) →
    (level ≠ 0 → ∀ b ∈ s.subs, b.subscriber ∈ s.barTeams level t → b.image = []) →
    ∃ u, Sys2Proof.Machine.exec (barInstr w) s = .next u ∧ u.ops = s.ops ∧
      (∀ i, (∀ p ∈ all, i ≠ .group p.1 p.2) → u.unitOf i = s.unitOf i) ∧
      (∀ p ∈ all, ∃ x g', s.group? p.1 p.2 = some x ∧ u.group? p.1 p.2 = some g' ∧ g'.hold = .none ∧ x.still g') ∧
      let cores := all.map fun p => ((s.teams[p.1]?).map Team.core).getD 0
      u.bare = { s.bare with l1 := if level = 0 then s.l1 else s.l1.filter fun x => !cores.contains x.core })

/-- `DLN` declares a step with a deadline of `max 1 (min 1000000 b)` periods of 100 from now, or brings its deadline forward; a
step that would be the seventeenth is not opened; the issuing launch joins the step (R432, R434, R435). `PROG` reports how many words are left (R435). -/
def stepsDeclare : Prop := ∀ (w : SysW) (s : State) (g : Group) (t : Nat) (tm : Team) (l : Launch), t = s.viewTeam s.issuer →
  s.teams[t]? = some tm → s.launchOf t = some l →
  let id := (readOpd g 0 w.a 0).toNat
  let due := s.timer.toNat + 100 * max 1 (min 1000000 (readOpd g 0 w.b 0).toNat)
  (s.wholly w.head (stepCheck true w) g → id = 0 → s.runs (.dln w) (fun g' => g.still g') fun u => s.unmoved u []) ∧
  (s.wholly w.head (stepCheck true w) g → id ≠ 0 → s.runs (.dln w) (fun g' => g.still g') fun u => u.ops = s.ops ∧
    ((∃ x ∈ s.steps, x.id = id) → (u.steps.map fun x => (x.id, x.queue)) = (s.steps.map fun x => (x.id, x.queue)) ∧
      ∀ x ∈ u.steps, x.id = id → x.deadline ≤ due) ∧
    ((∀ x ∈ s.steps, x.id ≠ id) → s.steps.length < 16 → u.steps = s.steps ++ [⟨id, s.launches.length, due, none, false, false, false⟩]) ∧
    ((∀ x ∈ s.steps, x.id ≠ id) → 16 ≤ s.steps.length → u.steps = s.steps ∧ u.launches = s.launches) ∧
    (((∃ x ∈ s.steps, x.id = id) ∨ s.steps.length < 16) → u.launches = modAt s.launches tm.launch fun l =>
      { l with steps := if l.steps.contains id then l.steps else l.steps ++ [id] }) ∧
    u.cinderSeq = s.cinderSeq + 1 ∧ u.teams.map Team.bare = s.teams.map Team.bare ∧ s.memKept u ∧ u.lines = s.lines) ∧
  (s.wholly w.head (stepCheck false w) g → s.runs (.prog w) (fun g' => g.still g') fun u => u.ops = s.ops ∧
    s.teamOnly u { tm with estimate := some (tm.issued + 1024 * id) })

/-! ### Events: pending operations delivered (R16, R106, R114, R135, R185, R311) -/

/-- The sticky flags that a row of entries raises in a lane. -/
def flagsFor (fl : List (Nat × BitVec 5)) (l : Nat) : BitVec 32 :=
  ((fl.filter fun e => e.1 = l).foldl (fun (a : BitVec 5) e => a ||| e.2) 0).zeroExtend 32

/-- The last of some register writes that reaches a register of a lane. -/
def lastWrite (ws : List RegWrite) (l : Nat) (r : RegName) : Option RegWrite :=
  (ws.filter fun w => w.reg = r && (match r with | .k _ => true | _ => decide (w.lane = some l))).getLast?

/-- An operation delivered to its unit: its register writes read back, its sticky flags are raised, its flag counts down
once, and everything else of the unit is kept. -/
def Group.delivered (g g' : Group) (o : Op) : Prop :=
  (∀ l n, l < g.threads.length → readV (threadAt g' l) n =
    match lastWrite o.writes l (.v n) with | some w => w.value | none => readV (threadAt g l) n) ∧
  (∀ n, readK g' n = match lastWrite o.writes 0 (.k n) with | some w => w.value | none => readK g n) ∧
  (∀ l n, l < g.threads.length → n < 16 → readP (threadAt g' l) n =
    match lastWrite o.writes l (.p n) with | some w => decide (w.value ≠ 0) | none => readP (threadAt g l) n) ∧
  (∀ l, l < g.threads.length → (threadAt g' l).status = (threadAt g l).status ||| flagsFor o.fstat l) ∧
  g'.mstat = g.mstat ||| o.mstat ∧ (∀ n, flagCount g' n = flagCount g n - if o.flag = some n then 1 else 0) ∧
  { g' with threads := [], k := [], mstat := 0, cf := [] } = { g with threads := [], k := [], mstat := 0, cf := [] } ∧
  g'.threads.length = g.threads.length ∧
  ∀ l, { threadAt g' l with v := [], p := 0, status := 0 } = { threadAt g l with v := [], p := 0, status := 0 }

/-- An event completes an operation: it is delivered to its unit and gone, and the rest of the part is `base`. -/
def State.completes (s : State) (i : Instr) (o : Op) (base : State) : Prop :=
  ∃ t, Sys2Proof.Machine.exec i s = .next t ∧ t.ops = (base.ops.filter fun p => p.id ≠ o.id) ∧ t.bare = base.bare ∧
    (∀ j, j ≠ o.issuer → t.unitOf j = base.unitOf j) ∧
    ∀ g, base.unitOf o.issuer = some g → ∃ g', t.unitOf o.issuer = some g' ∧ g.delivered g' o

/-- The part with the phase bit inverted of the ring slot that an operation arrives at (R216). -/
def State.arriving (s : State) (o : Op) : State :=
  match o.arrive with
  | none => s
  | some a => s.modTeam (issuerTeam o.issuer) fun tm => { tm with rings := tm.rings.map fun r =>
      if r.name = a.1 then { r with phases := r.phases ^^^ ((1 : BitVec 8) <<< a.2) } else r }

/-- Operations that only deliver, and the inversion of `ARRV` behind its group's earlier accesses (R114, R135, R219, R245,
R247, R263). -/
def resultsDelivered : Prop := ∀ (s : State) (o : Op),
  (s.opOf [.division] = some o → s.completes .divisionComplete o s) ∧
  (s.opOf [.fpLong] = some o → s.completes .fpLongComplete o s) ∧
  (s.opOf [.mma] = some o →
    (o.effect = .none → s.completes .mmaComplete o (s.arriving o)) ∧
    ∀ ids, o.effect = .member ids → s.completes .mmaComplete o (({ s with updates := s.updates.map fun u =>
      if u.id ∈ ids then { u with grps := issuerGroup o.issuer :: u.grps } else u } : State).arriving o)) ∧
  (s.opOf [.tileReg] = some o → s.completes .tileRegComplete o (s.arriving o)) ∧
  (s.opOf [.rmap] = some o → s.completes .rmapComplete o (s.arriving o)) ∧
  (s.opOf [.arrv] = some o → (∀ p ∈ s.ops, p.id < o.id → p.issuer = o.issuer → beforeArrival p = false) →
    s.completes .arrvInversion o (s.arriving o))

/-- `HRD` delivers its item; `HWR` writes one, and a register so written loses its hazard bit and its outstanding writes
(R200, R278). -/
def windowsDelivered : Prop := ∀ (s : State) (o : Op) (c : Nat) (h : Handler), s.opOf [.debug] = some o → o.issuer = .handler c →
  ((s.clusters[c]?).bind Cluster.handler) = some h →
  (o.effect = .none → s.completes .hrdHwrComplete o s) ∧
  ∀ space index lane v, o.effect = .debugWrite space index lane v → space < 16 → index < 256 → lane < 32 →
    let sel := selectorOf space index lane
    ∀ gr, s.group? h.stop.team h.stop.grp = some gr →
    let names := itemNames gr sel
    s.completes .hrdHwrComplete o ((s.cancelWrites (.group h.stop.team h.stop.grp) names).modGroup h.stop.team h.stop.grp fun g =>
      writeItem { g with hazards := g.hazards.filter fun x => !names.contains x.reg } sel v)

/-- What `HRD` reads of an item that `HWR` has just written: the value, cut to the item's width and to its writable bits; an item
that cannot be written keeps its own (R278). -/
def windowItems : Prop := ∀ (g : Group) (index lane : Nat) (v : Reg32), index < 256 → lane < 32 → lane < g.threads.length →
  let own (x : Reg32) : Reg32 := if g.cohort.getLsbD lane then x else 0
  let reads (space : Nat) (x : Reg32) : Prop :=
    readItem (writeItem g (selectorOf space index lane) v) (selectorOf space index lane) = x
  let was (space : Nat) : Reg32 := readItem g (selectorOf space index lane)
  reads 0 (own (if index < g.alloc then v else 0)) ∧ reads 1 v ∧ reads 2 (own (v &&& 0xFFFF)) ∧
  reads 3 (own ((v.truncate 16 : BitVec 16).signExtend 32)) ∧ reads 4 (own v) ∧
  (g.threads.length = 32 → reads 5 (v &&& g.cohort)) ∧ reads 6 (own ((was 6 &&& ~~~fstatWritable) ||| (v &&& fstatWritable))) ∧
  reads 7 (was 7) ∧ reads 8 (if index = 0 then (v &&& 0xFFFFFEFF) ||| (was 8 &&& 0x100) else v) ∧ reads 9 (was 9) ∧
  reads 10 ((was 10 &&& ~~~mstatWritable) ||| (v &&& mstatWritable)) ∧ reads 11 (was 11) ∧ reads 12 (was 12)

/-- A part once a memory access has completed: an acquire adds to what its group has seen the writes that its team has made or
seen and that are not yet acknowledged, and at cluster scope or wider drops its core's L1; requests that nothing waits for are
gone (R192, R379, R381). -/
def State.afterAccess (s : State) (o : Op) : State :=
  let joined (t : Nat) : List Nat := (s.writesSeen t (s.groupsOf t)).map Req.id
  let s1 : State := match o.acquire, o.issuer with
    | some _, .group t g => if joined t = [] then s else s.modGroup t g fun x => { x with seen := joined t }
    | _, _ => s
  { s1 with
    l1 := match o.acquire with
      | some sc => if 2 ≤ sc then s.l1.filter (fun x => x.core ≠ s.coreOf o.issuer) else s.l1
      | none => s.l1
    reqs := s.reqs.filter fun r => !r.performed || r.waitingFill || r.hops ≠ [] || (isWrite r.kind && !r.acked) ||
      s.ops.any fun p => p.id ≠ o.id && r.op = some p.id }

/-- Loads and atomics whose requests have all been performed and answered deliver what these found, sign-extended where the word
says so; cache maintenance and the accesses that wait for nothing complete as well (R182, R185, R192). -/
def accessesReturn : Prop := ∀ (s : State) (o : Op), s.opOf [.mem, .cmaint, .fifoPush, .fifoPop] = some o → o.todo = [] →
  let rs := s.reqs.filter fun r => r.op = some o.id
  let answered : Prop := ∀ r ∈ rs, r.performed = true ∧ r.waitingFill = false ∧ r.hops = []
  (∀ dests, o.effect = .load dests ∨ o.effect = .atomic dests → answered → ∃ ws,
    s.completes .memoryAccessComplete { o with writes := ws } (s.afterAccess o) ∧ (∀ w ∈ ws, (w.reg, w.lane) ∈ o.dests) ∧
    ∀ d ∈ dests, ∀ r, (rs.find? fun r => r.lane = d.1) = some r → r.result.length = d.2.size → 1 ≤ d.2.size →
      let x := natOfBytes r.result
      let y := if d.2.signed = true ∧ d.2.size < 4 ∧ 2 ^ (8 * d.2.size - 1) ≤ x then x + 2 ^ 32 - 2 ^ (8 * d.2.size) else x
      (∀ n j l, d.2.reg = .v n → 4 * j < d.2.size → d.2.lane = some l → (.v (n + j), some l) ∈ o.dests →
        ⟨.v (n + j), some l, BitVec.ofNat 32 (y / 2 ^ (32 * j))⟩ ∈ ws) ∧
      (∀ n j, d.2.reg = .k n → 4 * j < d.2.size → (.k (n + j), d.2.lane) ∈ o.dests →
        ⟨.k (n + j), d.2.lane, BitVec.ofNat 32 (y / 2 ^ (32 * j))⟩ ∈ ws) ∧
      ∀ q, d.2.tagReg = some q → (q, d.2.lane) ∈ o.dests → ⟨q, d.2.lane, r.tag.zeroExtend 32⟩ ∈ ws) ∧
  (o.kind = .cmaint → o.effect = .none → answered → s.completes .memoryAccessComplete o (s.afterAccess o)) ∧
  (o.kind ≠ .cmaint → o.effect = .none → (∀ sc, o.release = some sc → 2 ≤ sc → ∀ r ∈ rs, r.acked = true) →
    s.completes .memoryAccessComplete o (s.afterAccess o))

/-- An operation that stays, changed. -/
def State.goesOn (s : State) (i : Instr) (o : Op) (f : Op → Op) (base : State) : Prop :=
  Sys2Proof.Machine.exec i s = .next { base with ops := base.ops.map fun p => if p.id = o.id then f p else p }

/-- The events that make an operation's next move, with the kinds of operation they serve. -/
def moveEvents : List (Instr × List OpKind) :=
  [(.memoryAccessComplete, [.mem, .cmaint, .fifoPush, .fifoPop]), (.obldComplete, [.obld]), (.tstComplete, [.tst]),
   (.tsaveTloadComplete, [.tileImage]), (.tepiComplete, [.tepi]), (.cpyChunk, [.cpy]), (.tgmsComplete, [.tgms]),
   (.ceCommandComplete, [.ce])]

/-- An operation with the registers that loaded bytes are due, those of a cancelled destination apart (R106, R182). -/
def Op.due (p : Op) (d : LoadDest) (bytes : List Byte) : Op :=
  { p with writes := p.writes ++ (loadWrites bytes d 0).filter fun w => p.dests.contains (w.reg, w.lane) }

/-- A team's scratchpad holds new bytes from an address on, and its other bytes as before; nothing else has changed (R213). -/
def State.padHolds (s u : State) (t a : Nat) (data : List Byte) : Prop :=
  s.padOnly u t ∧ ∀ tm tm', s.teams[t]? = some tm → u.teams[t]? = some tm' → a + data.length ≤ 32768 * tm.banks.length →
    ∀ x, scratchByte tm' x = if a ≤ x ∧ x < a + data.length then data.getD (x - a) 0 else scratchByte tm x

/-- A piece of an operation can be moved: nothing that it must come behind is outstanding, its home die serves, and no byte
that it reads at home waits for a fill (R188, R318, R339, R405). -/
abbrev State.movable (s : State) (o : Op) (m : Move) : Prop := s.moveHeld o m = false ∧ s.moveFills o m = []

/-- What is left to move is moved one piece at a time, and each piece is read and written at that moment: scratchpad reads,
writes and atomics, sectors between memory, scratchpad, operand buffer and tiles, bytes for the coordinate engine, and sectors
of contributions (R188, R189, R194, R238, R248, R250, R310, R317, R372). A piece that must wait changes nothing; one that needs
a fill starts it, and waits until it lands (R339). -/
def movesPerform : Prop := ∀ (s : State) (e : Instr) (ks : List OpKind) (o : Op) (m : Move) (rest : List Move),
  (e, ks) ∈ moveEvents → s.opOf ks = some o → o.todo = m :: rest →
  (s.moveHeld o m = true → Sys2Proof.Machine.exec e s = .next s) ∧
  (s.moveHeld o m = false → s.moveFills o m ≠ [] →
    Sys2Proof.Machine.exec e s = .next ((s.moveFills o m).foldl (fun s f => s.fillLine (s.ctxOf o.issuer) f.1 f.2) s)) ∧
  (s.movable o m → ∃ u, Sys2Proof.Machine.exec e s = .next u ∧
    (∀ j, u.unitOf j = s.unitOf j) ∧
    let t := issuerTeam o.issuer
    let s0 : State := { s with ops := s.ops.map fun p => if p.id = o.id then { p with todo := rest } else p }
    let left (f : Op → Op) : Prop := u.ops = s.ops.map fun p => if p.id = o.id then f { p with todo := rest } else p
    let pad (a n : Nat) : List Byte := match s.teams[t]? with | some tm => scratchRead tm a n | none => List.replicate n 0
    let team (f : Team → Team) : Prop := { u.bare with teams := [] } = { s.bare with teams := [] } ∧
      ∀ v, (u.teams[v]?).map Team.bare = (s.teams[v]?).map fun tm => if v = t then (f tm).bare else tm.bare
    match m with
    | .padRead a d => u.bare = s.bare ∧ left fun p => p.due d (pad a d.size)
    | .padWrite a data => s.padHolds u t a data ∧ left id
    | .padAtomic a aop wide b cmp dest =>
      let n := if wide then 8 else 4
      let old := natOfBytes (pad a n)
      s.padHolds u t a (bytesOfNat n (atomicNew aop wide old b cmp)) ∧
      left fun p => match dest with | some d => p.due d (bytesOfNat n old) | none => p
    | .padFill va a n => s.padHolds u t a (s.opRead o va n) ∧ left id
    | .store va data => u = s0.storeBy (s.opTrans o) o.issuer (o.kind = .mem) [(va, data)]
    | .word va reg lane => u.bare = s.bare ∧ left fun p => p.due ⟨reg, some lane, 4, false, none⟩ (s.opRead o va 4)
    | .bufFill src a dst n => left id ∧
      team fun tm => { tm with ob := putBytes tm.ob dst (if src then pad a n else s.opRead o a n) }
    | .tileFill k va part => left id ∧ team fun tm => (List.range 8).foldl (fun tm j =>
        tilePut tm k (part / 2) (8 * (part % 2) + j) (BitVec.ofNat 32 (natOfBytes (((s.opRead o (va + 32 * part) 32).drop (4 * j)).take 4)))) tm
    | .copyRead side a side' b n => u.bare = s.bare ∧
      left fun p => { p with todo := p.todo ++ [.copyWrite side' b (s.sideRead o side a n)] }
    | .copyWrite side b data => u = s0.sideWrite o side b data
    | .fetch va n => u.bare = s.bare ∧ left fun p => { p with data := p.data ++ s.opRead o va n }
    | .scatter va seq aop values => match s.opTrans o va with
      | .ok pa leaf _ _ => u = ((List.range values.length).foldl (fun s i => s.contribute t (s.ctxOf o.issuer) (va + 4 * i)
          (pa + 4 * i) leaf seq 4 aop (values.getD i 0).toNat (if i = 0 then 1 else 0)) s0).l1DropSectors
          (s.coreOf o.issuer) pa (4 * values.length)
      | _ => u = s0
    | .pause => u.bare = s.bare ∧ left id)

/-- The sectors of an extent hold each of its bytes once, and none crosses a multiple of 32 (R372). -/
def sectorsCover : Prop := ∀ (a n : Nat),
  (∀ p ∈ sectors a n, 0 < p.2 ∧ p.1 / 32 = (p.1 + p.2 - 1) / 32 ∧ a ≤ p.1 ∧ p.1 + p.2 ≤ a + n) ∧
  ∀ x, a ≤ x → x < a + n → ((sectors a n).filter fun p => decide (p.1 ≤ x) && decide (x < p.1 + p.2)).length = 1

/-- `LDT.AON` reads the version, copies its tile and reads the version again; it tries again, sixteen times in all, while the two
differ or are odd. `STT.AON` writes its bytes behind the header, between two steps of the version (R194). -/
def tileCopiesPerform : Prop := ∀ (s : State) (o : Op), s.opOf [.mem, .cmaint, .fifoPush, .fifoPop] = some o → o.todo = [] →
  (∀ scr ga len tries seen, o.effect = .tileLoad scr ga len tries seen → s.movable o (.padFill ga scr 8) →
    let v := natOfBytes (s.opRead o ga 8)
    let status (x : Reg32) : Op := { o with writes := o.writes.map fun w => { w with value := x } }
    (seen = none → s.goesOn .memoryAccessComplete o
      (fun p => { p with todo := fillMoves (ga + 32) scr len, effect := .tileLoad scr ga len tries (some v) }) s) ∧
    ∀ v1, seen = some v1 →
      (v1 = v → v % 2 = 0 → s.completes .memoryAccessComplete (status 0) (s.afterAccess o)) ∧
      (v1 ≠ v ∨ v % 2 = 1 → 15 ≤ tries → s.completes .memoryAccessComplete (status 1) (s.afterAccess o)) ∧
      (v1 ≠ v ∨ v % 2 = 1 → tries < 15 →
        s.goesOn .memoryAccessComplete o (fun p => { p with effect := .tileLoad scr ga len (tries + 1) none }) s)) ∧
  ∀ ga data step, o.effect = .tileStore ga data step → s.movable o (.bufFill false ga 0 8) →
    let version := s.storeBy (s.opTrans o) o.issuer (o.kind = .mem) [(ga, bytesOfNat 8 (natOfBytes (s.opRead o ga 8) + 1))]
    (step = 0 → s.goesOn .memoryAccessComplete o
      (fun p => { p with todo := storeMoves [(ga + 32, data)], effect := .tileStore ga data 1 }) version) ∧
    (step ≠ 0 → s.completes .memoryAccessComplete o (version.afterAccess o))

/-- A bank switches once no earlier access to it is in flight: it holds nothing in its new mode. A group that waits at a FIFO
issues its word again (R197, R198). -/
def banksChange : Prop := ∀ (s : State),
  (∀ o b m, s.opOf [.bankSwitch] = some o → o.effect = .bank b m → s.bankInFlight o b = false →
    let t := issuerTeam o.issuer
    s.completes .bankSwitchComplete o (s.switchBank o b m) ∧
    ((s.switchBank o b m).teams[t]?).map Team.banks = (s.teams[t]?).map fun tm => modAt tm.banks b fun _ => ⟨m, [], []⟩) ∧
  ∀ t gi g w bank push since, s.group? t gi = some g → g.hold = .fifo bank push since → g.run = .running →
    let again (e i : Instr) : Prop := s.currentWord (.group t gi) = some i →
      Sys2Proof.Machine.exec e s = Sys2Proof.Machine.exec i { s with issuer := .group t gi } ∧ ∃ u, Sys2Proof.Machine.exec e s = .next u
    again (.fifoPushPerform t gi) (.fifopush w) ∧ again (.fifoPopPerform t gi) (.fifopop w)

/-- `OBLD`, `OBLD.B`, `TST`, `TSAVE` and `TLOAD` complete once nothing is left to move, a `TST` that arrives only behind its
group's earlier writes (R389). A `TEPI` completes then behind its release
as well; under `.AON` its rows are written between two steps of the version (R238, R239, R248, R250, R268). -/
def matrixMovesPerform : Prop := ∀ (s : State) (o : Op), o.todo = [] →
  (s.opOf [.obld] = some o → s.completes .obldComplete o (s.arriving o)) ∧
  (s.opOf [.tst] = some o → (o.arrive.isSome = true → s.writesDone o false = true) → s.completes .tstComplete o (s.arriving o)) ∧
  (s.opOf [.tileImage] = some o → s.completes .tsaveTloadComplete o (s.arriving o)) ∧
  (s.opOf [.tepi] = some o → s.readsBefore o = false →
    let version (va : Nat) := s.storeBy (s.opTrans o) o.issuer false [(va, bytesOfNat 8 (natOfBytes (s.opRead o va 8) + 1))]
    (∀ va rows, o.effect = .flueRows va rows 0 → s.writesDone o true = true → s.movable o (.bufFill false va 0 8) →
      s.goesOn .tepiComplete o (fun p => { p with effect := .flueRows va rows 1, todo := storeMoves rows }) (version va)) ∧
    (∀ va rows, o.effect = .flueRows va rows 1 → s.movable o (.bufFill false va 0 8) →
      s.goesOn .tepiComplete o (fun p => { p with effect := .none }) (version va)) ∧
    (o.effect = .none → s.writesDone o (2 ≤ o.release.getD 0) = true → s.completes .tepiComplete o (s.arriving o)))

/-- A copy moves chunk after chunk of 4096 bytes, and stops at a chunk's end while its team is away; it completes after its last
chunk, its release and every earlier copy of its group (R310, R311, R313). -/
def copiesMove : Prop := ∀ (s : State) (o : Op) (c : CBlock) (dir range chunk : Nat), s.opOf [.cpy] = some o → o.todo = [] →
  o.effect = .copy c dir range chunk →
  let k := copyOf c
  (s.engineRuns o = false → Sys2Proof.Machine.exec .cpyChunk s = .next s ∧ Sys2Proof.Machine.exec .cpyComplete s = .next s) ∧
  (s.engineRuns o = true → 4096 * chunk < k.total → (chunk = 0 → s.mayRead o = true) →
    s.goesOn .cpyChunk o (fun p => { p with todo := s.chunkMoves o k dir range chunk, effect := .copy c dir range (chunk + 1) }) s) ∧
  (s.engineRuns o = true → k.total ≤ 4096 * chunk → s.mayEnd o = true →
    (∀ p ∈ s.ops, p.kind = .cpy → p.issuer = o.issuer → o.id ≤ p.id) → s.completes .cpyComplete o (s.arriving o))

/-- The moves of a copy's chunks: together they read each byte of each row, and write it to its place (R310). -/
def chunksCover : Prop := ∀ (s : State) (o : Op) (c : CBlock) (dir range r i : Nat), let k := copyOf c
  copyBad c = false → r < k.rows → i < k.xb →
  ∃ a b n, Move.copyRead (srcSide dir) a (dstSide dir) b n ∈ s.chunkMoves o k dir range ((r * k.xb + i) / 4096) ∧ n ≤ 32 ∧
    ∃ d < n, a + d = s.sideBase o (srcSide dir) range + k.srcRow r + i ∧ b + d = s.sideBase o (dstSide dir) range + k.dstRow r + i

/-- A tile command waits for the earlier ones of its members; then it moves the contributions that it held, and completes for
every member once nothing is left to move (R311, R316-R318). -/
def tileGathersComplete : Prop := ∀ (s : State) (o : Op) (c : CBlock) (n map : Nat) (held : List Move),
  s.opOf [.tgms] = some o → o.todo = [] → o.effect = .tile c n map held →
  let before : Prop := ∃ p q, p ∈ s.ops ∧ p.kind = .tgms ∧ p.id < o.id ∧ q ∈ s.ops ∧ o.id ≤ q.id ∧ q.id < o.id + n ∧ q.issuer = p.issuer
  (before → Sys2Proof.Machine.exec .tgmsComplete s = .next s) ∧
  (¬ before → held ≠ [] → s.goesOn .tgmsComplete o (fun p => { p with todo := held, effect := .tile c n map [] }) s) ∧
  (¬ before → held = [] → s.mayEnd o = true →
  (∀ i, i < n → ∃ p, (s.ops.find? fun p => p.id = o.id + i) = some p) →
  (∀ i j p q, i < n → j < n → (s.ops.find? fun x => x.id = o.id + i) = some p → (s.ops.find? fun x => x.id = o.id + j) = some q →
    p.issuer = q.issuer → i = j) →
  ∃ u, Sys2Proof.Machine.exec .tgmsComplete s = .next u ∧
    u.ops = (s.ops.filter fun p => !(decide (o.id ≤ p.id) && decide (p.id < o.id + n))) ∧
    (∀ j, (∀ i p, i < n → (s.ops.find? fun x => x.id = o.id + i) = some p → p.issuer ≠ j) → u.unitOf j = s.unitOf j) ∧
    (∀ i p g, i < n → (s.ops.find? fun x => x.id = o.id + i) = some p → s.unitOf p.issuer = some g →
      ∃ g', u.unitOf p.issuer = some g' ∧ g.delivered g' p) ∧
    { u.bare with teams := [] } = { s.bare with teams := [] })

/-- A command of the coordinate engine executes when its turn comes: it reads its bytes; `CENBR` then has its map to write and
`CEWALK` its lists; and once all is written `CEBLD` has built its table, `CENBR` its map, and `CEREL` frees its handle, each with
the result for kd (R360-R368). A build that waits takes its slots of hash SRAM when they fit (R357). -/
def engineCommandsRun : Prop := ∀ (s : State) (o : Op), s.opOf [.ce] = some o → o.todo = [] →
  let die := s.coreOf o.issuer / 48
  let ctx := s.ctxOf o.issuer
  let ends (x : Nat) (base : State) : Prop := s.completes .ceCommandComplete (giveAll o x) (base.arriving o)
  let put (obj : CeObject) (h : CeHandle) : CeHandle := if h.holder = some o.id then { h with holder := none, object := obj } else h
  let held (s : State) (obj : CeObject) : State := s.modDie die fun d => { d with handles := d.handles.map (put obj) }
  let writes (rows : List (Nat × List Byte)) (e : Effect) : Prop :=
    s.goesOn .ceCommandComplete o (fun p => { p with todo := storeMoves rows, effect := e }) s
  let reads : Prop := o.data = [] ∧ o.ceReads ≠ []
  (reads → s.ceReady die o = true → s.goesOn .ceCommandComplete o (fun p => { p with
    todo := o.ceReads.flatMap fun e => (sectors e.1 e.2).map fun x => .fetch x.1 x.2 }) s) ∧
  (s.ceReady die o = false → (∀ h tb km noff nout outl dst offl, o.effect ≠ .neighbours h tb km noff nout outl dst offl) →
    (∀ coo out n p, o.effect ≠ .walk coo out n p) → Sys2Proof.Machine.exec .ceCommandComplete s = .next s) ∧
  (¬ reads →
    (∀ h tb km noff nout outl dst offl tab, o.effect = .neighbours h tb km noff nout outl dst offl →
      s.tableFor die ctx tb o.id = some tab →
      let lists := mapLists tab.2 tab.1 (nats8 (o.data.take (8 * nout)))
        (if km then (nats8 (o.data.drop (8 * nout))).map coordOf else cubeOffsets)
      let counts := lists.map List.length
      writes [(dst, mapBytes lists)] (.listed [h, tb] (some (.map dst lists.length counts)) counts.sum)) ∧
    (∀ coo out n p, o.effect = .walk coo out n p →
      let pairs := sortBy (fun a b => decide (a.1 < b.1 ∨ (a.1 = b.1 ∧ a.2 ≤ b.2)))
        ((nats8 o.data).map fun w => (w % 2 ^ 32, w / 2 ^ 32 % 2 ^ 32))
      let sorted := pairs.eraseDups
      let bounds := (List.range (p + 1)).flatMap fun i => bytesOfNat 4 (i * sorted.length / p)
      writes [(out, bounds ++ List.replicate (walkHead p - 4 * (p + 1)) 0), (out + walkHead p, sorted.flatMap fun e => bytesOfNat 4 e.1),
        (out + walkHead p + walkRow n, sorted.flatMap fun e => bytesOfNat 4 e.2)] (.listed [] none sorted.length))) ∧
  (¬ reads → s.ceReady die o = true → s.mayEnd o = true →
    (∀ h c list n, o.effect = .build h (2 ^ c) list n → c < 20 →
      let b := buildTable c (nats8 o.data)
      ends ((if b.2.1 then 2 ^ 31 else 0) + b.2.2) (held s (.table (2 ^ c) b.1))) ∧
    (∀ names obj x, o.effect = .listed names (some obj) x → ends x (held s obj)) ∧
    (∀ names x, o.effect = .listed names none x → ends x s) ∧
    (∀ h, o.effect = .free h → s.handleUsers die ctx o h = false →
      (∀ d, s.dies[die]? = some d → ∀ x ∈ d.handles, x.name = 16 + o.id → x.holder = none) →
      ends 0 (s.modDie die fun d => { d with
        handles := d.handles.filter fun x => x.name ≠ 16 + o.id, hashKept := d.hashKept ++ s.keptSlots die ctx o }))) ∧
  (∀ b d h cap list n, ((s.ceOps die).find? (s.ungranted die)) = some b → s.dies[die]? = some d → b.effect = .build h cap list n →
    let take (h : CeHandle) : CeHandle := if h.holder = some b.id then { h with object := .table cap [] } else h
    Sys2Proof.Machine.exec .cebldSpaceGrant s = .next (if d.hashUsed + cap ≤ 2 ^ 19 then
      s.modDie die (fun d => { d with handles := d.handles.map take }) else s)) ∧
  ((s.ceOps die).find? (s.ungranted die) = none → Sys2Proof.Machine.exec .cebldSpaceGrant s = .next s)

/-- A spawned billet enters its cluster's queue of 256 or, once that is full, the overflow area, once the release of `SPAWN` has
taken effect (R300, R303). Its 64 bytes stand in memory at the lowest free place there, which is the model's choice (log 53). -/
def childrenArrive : Prop := ∀ (s : State) (o : Op) (b : Billet) (c : Cluster), s.opOf [.spawn] = some o → o.effect = .child b →
  s.mayEnd o = true → s.readsBefore o = false → s.publishing o.issuer = false →
  let k := s.coreOf o.issuer / 8
  s.clusters[k]? = some c →
  (c.billets.length < 256 → s.completes .spawnComplete o ((s.modCluster k fun c => { c with billets := c.billets ++ [b] }).arriving o)) ∧
  (256 ≤ c.billets.length → ∀ l n, s.launches[b.launch]? = some l →
    let used (i : Nat) : Prop := ∃ c ∈ s.clusters, ∃ x ∈ c.overflow, x.launch = b.launch ∧ x.place = i
    (∀ i < n, used i) → ¬ used n →
    s.completes .spawnComplete o (((s.opStore o [((l.slot.high.w0.toNat % 2 ^ 48) + 64 * n, b.bytes)]).modCluster k fun c =>
      { c with overflow := c.overflow ++ [{ b with place := n }] }).arriving o))

/-- Subscriptions complete. The sync of an `SBS` reads the publisher's region 4 KiB after 4 KiB, each queued behind the updates
that came before it, and `SBS` completes once all of it has been applied; `SBSX` completes with the subscription gone and its
status, `PUBF` once every update it covers has been applied, those of tile loads that were outstanding among them (R322-R326). -/
def subscriptionsComplete : Prop := ∀ (s : State) (o : Op),
  let t := issuerTeam o.issuer
  (s.opOf [.sbs] = some o → (o.effect = .none → s.completes .sbsSyncComplete o (s.arriving o)) ∧
    ∀ h b, o.effect = .sync h → (s.subs.find? fun b => b.subscriber = t && b.handle = h) = some b →
      let mine (x : Subscription) : Bool := x.subscriber = t && x.handle = h
      let changed (f : Subscription → Subscription) : State := { s with subs := s.subs.map fun x => if mine x then f x else x }
      (b.synced < b.len → ∀ p, s.teams[b.publisher]? = some p →
        let n := min 4096 (b.len - b.synced)
        let u : Update := { id := s.nextId, subscriber := t, handle := h, team := b.publisher, grps := [],
                            write := ⟨b.synced, scratchRead p (b.pubOffset + b.synced) n⟩, windowOpen := false, sync := true, late := false }
        Sys2Proof.Machine.exec .sbsSyncComplete s = .next { changed fun x => { x with synced := x.synced + n } with
          updates := s.updates ++ [u], nextId := s.nextId + 1 }) ∧
      (b.len ≤ b.synced → (∀ u ∈ s.updates, u.subscriber = t → u.handle = h → u.sync = false) →
        let gone : Bool := (s.teams[b.publisher]?).any fun p => p.residency = .ended
        s.completes .sbsSyncComplete o ((changed fun x => { x with state := if gone then .ended else x.state }).arriving o))) ∧
  (s.opOf [.sbsx] = some o → ∀ h, o.effect = .unsubscribe h →
    let found := s.subs.find? fun b => b.subscriber = t && b.handle = h
    let status := match found with | none => 9 | some b => if b.state = .ended then 10 else 0
    let s1 : State := { s with
      subs := s.subs.filter fun b => b.subscriber ≠ t || b.handle ≠ h
      updates := s.updates.filter fun u => u.subscriber ≠ t || u.handle ≠ h }
    s.completes .sbsxComplete (giveAll o (256 * status)) (s1.arriving o)) ∧
  (s.opOf [.pubf] = some o → ∀ ids loads, o.effect = .flush ids loads →
    let mine := s.updates.filter fun u => u.team = t && u.grps.contains (issuerGroup o.issuer)
    (loads = [] → (∀ u ∈ s.updates, u.id ∉ ids) → s.completes .pubfComplete o (s.arriving o)) ∧
    (loads ≠ [] → (∀ p ∈ s.ops, p.id ∉ loads) →
      s.goesOn .pubfComplete o (fun p => { p with effect := .flush (ids ++ mine.map Update.id) [] }) s))

/-- A record reaches its subscriber in its turn, and once the sync has been read: logged while the subscription is dormant, in
the save area as well, else written to its region, or, in an ordered launch, to its image, and there one of a write made after an
arrival waits for the barrier; no later write joins an update whose window has closed (R323, R328, R330, R331). Where in the save
area an item stands, and the values of its control bytes, are free values (log 53). -/
def updatesApply : Prop := ∀ (s : State),
  Sys2Proof.Machine.exec .subBatchWindowClose s = .next { s with updates := s.updates.map fun u =>
    if u.id = s.subject then { u with windowOpen := false } else u } ∧
  ∀ u b, (s.updates.find? fun x => x.id = s.subject) = some u →
    (∀ x ∈ s.updates, x.subscriber = u.subscriber → x.handle = u.handle → u.id ≤ x.id) →
    b ∈ s.subs → b.subscriber = u.subscriber → b.handle = u.handle →
    (∀ x ∈ s.subs, x.subscriber = u.subscriber → x.handle = u.handle → x = b) →
    let ordered := ((s.launchOf u.subscriber).map Launch.ordered) = some true
    let s1 : State := { s with updates := s.updates.filter fun x => x.id ≠ u.id }
    let changed (f : Subscription → Subscription) : State := { s1 with
      subs := s1.subs.map fun x => if x.subscriber = u.subscriber && x.handle = u.handle then f x else x }
    let goes (t : State) : Prop := Sys2Proof.Machine.exec .subUpdateApply s = .next t
    let saved (t : State) (off : Nat) (bs : List Byte) : State := t.saveWrite u.subscriber (1 + u.handle) off bs
    let control (t : State) : State := { saved t 0 (s.savedBytes 64) with fresh := s.fresh + 1 }
    let full := changed fun b => { b with overflow := true }
    (b.synced < b.len → goes s) ∧
    (u.late = true → ordered → goes s) ∧
    (b.len ≤ b.synced → (u.late = false ∨ ¬ ordered) →
      (b.state = .ended → goes s1) ∧
      (b.state = .dormant → ¬ ordered → b.overflow = false → b.log.length < 1024 →
        let a := u.write.offset % 32
        let mask := (2 ^ u.write.data.length - 1) * 2 ^ a
        goes (control (saved (changed fun b => { b with log := b.log ++ [u.write] }) (64 + 64 * b.log.length)
          (bytesOfNat 8 (u.write.offset / 32 + 2 ^ 16 * mask) ++
            (List.replicate a 0 ++ u.write.data ++ List.replicate 32 0).take 32 ++ List.replicate 24 0)))) ∧
      (b.state = .dormant → ¬ ordered → (b.overflow = true ∨ 1024 ≤ b.log.length) → goes (control full)) ∧
      (b.state = .active → ¬ ordered →
        goes (s1.modTeam u.subscriber fun t => putUpdate t (b.subOffset + u.write.offset) u.write.data)) ∧
      ((b.state = .active ∨ b.state = .dormant) → ordered →
        goes (changed fun b => { b with image := (List.range u.write.data.length).foldl (fun c i =>
          Cells.put none c (u.write.offset + i) (some (u.write.data.getD i 0))) b.image })))

/-! ### Events: requests at the home slices and on their way (R338-R348, R375, R403, R404) -/

/-- A request that has taken its place in slice order: what it found and its tag; its response starts at once on its way back,
unless a fill must land first. -/
def performedAs (s : State) (r q : Req) (bs : List Byte) (tag : BitVec 16) (fill : Bool) : Req :=
  if q.id = r.id then
    let x := { q with performed := true, waitingFill := fill, result := bs, tag := tag }
    if fill then x
    else { x with hops := s.routeBack r.core r.pa, place := (s.homeStop r.core r.pa).2, order := s.nextId, dated := false, sends := 0 }
  else q

/-- A request reaches its place in slice order: nothing it must wait for is left, and its home die is in service. -/
def State.atSlice (s : State) (r : Req) : Prop :=
  s.req? s.subject = some r ∧ r.performed = false ∧ r.hops = [] ∧ s.homeLive r = true ∧ s.sliceGate r = false

/-- A home slice performs its subject request: requests become performed as `performedAs` says, operations stay, and `rest` holds. -/
def State.slicePerforms (s : State) (r : Req) (bs : List Byte) (tag : BitVec 16) (fill : Bool) (rest : State → Prop) : Prop :=
  ∃ t, Sys2Proof.Machine.exec .sliceAccess s = .next t ∧ t.reqs = (s.reqs.map fun q => performedAs s r q bs tag fill) ∧ t.ops = s.ops ∧ rest t

/-- Whether no line has to make room for a write to a line: the line is resident or its set has room, and its slice holds fewer
lines than it has data entries (R334). -/
def State.roomAt (s : State) (a : Nat) : Prop :=
  (s.lines.any (fun l => l.addr = a) = true ∨ (s.setLines a).length < 12) ∧ (s.lines.filter fun l => sameSlice l.addr a).length < 16384

/-- Reads at a slice: each byte from the write path of the core, its L1, the task's view or the slice, as it stands now; a read that
needs bytes of a fill starts one and answers when it lands. Reads beyond the endpoint are answered from there (R338, R339, R375, R458). -/
def readsPerform : Prop := ∀ (s : State) (r : Req), s.atSlice r → r.kind = .read →
  (hostBase ≤ r.pa → s.slicePerforms r (s.hostRead r.pa r.size) 0 false fun t =>
    t.lines = s.lines ∧ t.mem = s.mem ∧ t.hostMem = s.hostMem ∧ t.teams = s.teams ∧ t.l1 = s.l1) ∧
  (r.pa < hostBase →
    let l1 : Bool := r.plain && !r.ord && Config.l1Serves s.fresh
    let addrs := (List.range r.size).map fun i => canonPa r.pa + i
    let fill := addrs.any fun a => !s.byteAt r l1 a
    s.slicePerforms r (addrs.map (s.readByte r l1)) 0 fill fun t =>
      (fill = false → t.lines = s.lines ∧ t.mem = s.mem) ∧
      (fill = true → ∃ l ∈ t.lines, l.addr = lineOf r.pa ∧ l.filling = true ∧ (s.line? (lineOf r.pa) = none →
        l.fillData = (List.range 128).map fun i => s.memByte (keySlot r.ctx r.leaf) (128 * lineOf r.pa + i))) ∧
      t.teams.map Team.bare = s.teams.map Team.bare ∧ t.clusters = s.clusters)

/-- A plain load that stands at its core, with no earlier access of its group to its bytes ahead of it, is answered there when the
write path and the L1 hold every byte (R338, R375). -/
def coresAnswer : Prop := ∀ (s : State) (r : Req), s.req? s.subject = some r → r.kind = .read → r.plain = true → r.pa < hostBase →
  r.performed = false → r.place = coreStop r.core → r.hops ≠ [] → s.ownBefore r = false →
  let addrs := (List.range r.size).map fun i => canonPa r.pa + i
  (∀ a ∈ addrs, s.coreByte r (!r.ord) a = true) →
  ∃ t, Sys2Proof.Machine.exec .sliceAccess s = .next t ∧ t.bare = { s.bare with reqs := t.reqs } ∧ t.ops = s.ops ∧
    t.reqs = s.reqs.map fun q => if q.id = r.id then
      { q with performed := true, hops := [], result := addrs.map (s.readByte r (!r.ord)) } else q

/-- Where a plain or acquire read finds a byte: in the newest store of its own core that is not yet performed where it is plain (the
model's choice, assumption log, entry 57: until then, and not until its acknowledgement, a store is in the write path), in the sector
copy of its L1 where that serves it, in its task's set and base on an ORD page, else at its slice: a byte written or filled there, one
that its pending fill brings, or memory's (R339, R375, R419). -/
def readsSee : Prop := ∀ (s : State) (r : Req) (l1 : Bool) (a : Nat), r.kind = .read → r.pa < hostBase →
  let store (q : Req) : Bool := (q.kind = .write || q.kind = .zero) && !q.performed && q.core = r.core && decide (q.id < r.id) &&
    q.ord = r.ord && (!r.ord || q.team = r.team) && decide (canonPa q.pa ≤ a) && decide (a < canonPa q.pa + q.data.length)
  let key := keySlot r.ctx r.leaf
  let slice : Byte := s.homeByte key a
  (∀ q, r.plain = true → (s.reqs.filter store).getLast? = some q → s.readByte r l1 a = q.data.getD (a - canonPa q.pa) 0) ∧
  ((r.plain = false ∨ ∀ q ∈ s.reqs, store q = false) →
    (∀ x, l1 = true → (s.l1.find? fun x => x.core = r.core && x.sector = a / 32) = some x → x.data.length = 32 →
      s.readByte r l1 a = x.data.getD (a % 32) 0) ∧
    ((l1 = false ∨ ∀ x ∈ s.l1, x.core = r.core → x.sector ≠ a / 32) →
      (r.ord = false → s.readByte r l1 a = slice) ∧
      (∀ tm, r.ord = true → s.teams[r.team]? = some tm →
        (∀ e, (tm.writeSet.find? fun e => e.1 = a) = some e → s.readByte r l1 a = e.2.value) ∧
        ((∀ e ∈ tm.writeSet, e.1 ≠ a) → ∀ e, (tm.base.find? fun e => e.1 = a) = some e → s.readByte r l1 a = e.2.value) ∧
        ((∀ e ∈ tm.writeSet, e.1 ≠ a) → (∀ e ∈ tm.base, e.1 ≠ a) → s.readByte r l1 a = slice)))) ∧
  (s.line? (a / 128) = none → slice = s.memByte key a) ∧
  (∀ l, s.line? (a / 128) = some l → l.key ≠ 513 → slice = if l.valid.getLsbD (a % 128) then Cells.get 0 l.data (a % 128)
    else if l.filling then l.fillData.getD (a % 128) 0 else s.memByte key (128 * l.addr + a % 128))

/-- A write within a line of device memory, or an atomic, leaves its bytes at the line's home, under the next count of the line's
writes; where no other line has to make room, every other byte reads as before and memory behind the slice is unchanged (R189, R338,
R341). -/
def State.writesHome (s t : State) (r : Req) (key : Nat) (bs : List Byte) : Prop :=
  let a := canonPa r.pa
  (∀ i, i < bs.length → t.homeByte key (a + i) = bs.getD i 0) ∧
  (s.roomAt (a / 128) → t.mem = s.mem ∧ ∀ b, (b < a ∨ a + bs.length ≤ b) → t.homeByte key b = s.homeByte key b) ∧
  t.countOf r = s.countOf r + 1 ∧ t.teams = s.teams ∧ t.hostMem = s.hostMem

/-- Writes and atomics at a slice: to the line, to a task's write set on an ORD page of an ordered launch, or beyond the endpoint; an
atomic that needs bytes of a fill takes its place now and answers when the fill lands; an ordered launch's `RED` on an ORD page is held
(R189, R190, R338-R341, R420, R458). A line left by an ended context is judged apart (R408). -/
def writesPerform : Prop := ∀ (s : State) (r : Req), s.atSlice r → (∀ l, s.line? (lineOf r.pa) = some l → l.key ≠ 513) →
  let leaf := r.leaf
  let key := keySlot r.ctx leaf
  let a := canonPa r.pa
  let inLine (n : Nat) : Prop := 0 < n ∧ r.pa % 128 + n ≤ 128
  let count := ((s.teams[r.team]?).map fun t => Cells.get 0 t.shadows (lineOf r.pa)).getD 0
  let held (t : State) (bs : List Byte) : Prop := ∀ i, i < bs.length → t.viewByte r.team key (a + i) = bs.getD i 0
  let rest (t : State) (bs : List Byte) : Prop := t.lines = s.lines ∧ t.mem = s.mem ∧
    ∀ b, (b < a ∨ a + bs.length ≤ b) → t.viewByte r.team key b = s.viewByte r.team key b
  ((r.kind = .write ∨ r.kind = .zero) →
    (r.pa < hostBase → r.ord = false → s.toView r.team leaf = false → inLine r.data.length →
      s.slicePerforms r [] (s.countOf r + 1) false fun t => s.writesHome t r key r.data) ∧
    (r.pa < hostBase → r.ord = true → s.toView r.team leaf = true → inLine r.data.length → r.team < s.teams.length →
      s.slicePerforms r [] (BitVec.ofNat 16 (count + 1)) false fun t => held t r.data ∧ rest t r.data) ∧
    (hostBase ≤ r.pa → r.ord = false → s.slicePerforms r [] (s.countOf r) false fun t => t.lines = s.lines ∧ t.mem = s.mem ∧
      t.hostMem = putBytes s.hostMem (r.pa - hostBase + s.regs.obbase.toNat) r.data)) ∧
  ((r.kind = .atomic ∨ (r.kind = .red ∧ r.ord = false)) → (r.size = 4 ∨ r.size = 8) →
    let fill := (reqAddrs r).any fun x => !s.byteAt { r with plain := false } false x
    (r.pa < hostBase → r.ord = false → s.toView r.team leaf = false → inLine r.size →
      let old := natOfBytes (s.homeBytes key r.pa r.size)
      let new := bytesOfNat r.size (atomicNew r.aop (r.size = 8) old (natOfBytes r.data) r.compare.toNat)
      s.slicePerforms r (bytesOfNat r.size old) (s.countOf r + 1) fill fun t => s.writesHome t r key new) ∧
    (r.pa < hostBase → r.ord = true → s.toView r.team leaf = true → inLine r.size → r.team < s.teams.length →
      let old := natOfBytes ((List.range r.size).map fun i => s.viewByte r.team key (canonPa (r.pa + i)))
      let new := bytesOfNat r.size (atomicNew r.aop (r.size = 8) old (natOfBytes r.data) r.compare.toNat)
      s.slicePerforms r (bytesOfNat r.size old) (BitVec.ofNat 16 (count + 1)) fill fun t => held t new ∧ (fill = false → rest t new)) ∧
    (hostBase ≤ r.pa → r.ord = false →
      let old := natOfBytes (s.hostRead r.pa r.size)
      s.slicePerforms r (bytesOfNat r.size old) (s.countOf r) false fun t => t.lines = s.lines ∧ t.mem = s.mem ∧
        t.hostMem = putBytes s.hostMem (r.pa - hostBase + s.regs.obbase.toNat)
          (bytesOfNat r.size (atomicNew r.aop (r.size = 8) old (natOfBytes r.data) r.compare.toNat)))) ∧
  (r.kind = .red → r.ord = true → s.toView r.team leaf = true → s.slicePerforms r [] 0 false fun t => t.lines = s.lines ∧ t.mem = s.mem ∧
    t.teams = modAt s.teams r.team fun tm => { tm with held := tm.held ++
      [⟨r.compare.toNat, canonPa r.pa, r.va, r.aop, decide (r.size = 8), BitVec.ofNat 64 (natOfBytes r.data), 1⟩] })

/-- A prefetch at its slice asks for its line and changes no result: it has a fill started where bytes are missing (R195). -/
def prefetchesPerform : Prop := ∀ (s : State) (r : Req), s.atSlice r → r.kind = .pref → ∃ t,
  Sys2Proof.Machine.exec .sliceAccess s = .next t ∧ t.ops = s.ops ∧ t.teams = s.teams ∧
  (s.needsFill r.pa 128 = true → ∃ l ∈ t.lines, l.addr = lineOf r.pa ∧ l.filling = true) ∧
  (s.needsFill r.pa 128 = false → t.lines = s.lines ∧ t.mem = s.mem) ∧
  (s.roomAt (lineOf r.pa) → (∀ l, s.line? (lineOf r.pa) = some l → l.key ≠ 513) →
    ∀ b, t.homeByte (keySlot r.ctx r.leaf) b = s.homeByte (keySlot r.ctx r.leaf) b)

/-- The new value of each integer atomic operation over 32 or 64 bits (R189). -/
def atomicValues : Prop := ∀ (wide : Bool) (old b cmp : Nat), let n := if wide then 64 else 32
  old < 2 ^ n → b < 2 ^ n →
  let int (x : Nat) : Int := if 2 * x < 2 ^ n then x else (x : Int) - 2 ^ n
  atomicNew 0 wide old b cmp = (old + b) % 2 ^ n ∧
  int (atomicNew 1 wide old b cmp) = min (int old) (int b) ∧ int (atomicNew 2 wide old b cmp) = max (int old) (int b) ∧
  atomicNew 3 wide old b cmp = min old b ∧ atomicNew 4 wide old b cmp = max old b ∧
  atomicNew 5 wide old b cmp = old &&& b ∧ atomicNew 6 wide old b cmp = old ||| b ∧ atomicNew 7 wide old b cmp = old ^^^ b ∧
  atomicNew 8 wide old b cmp = b ∧ atomicNew 9 wide old b cmp = if old = cmp then b else old

/-- `CMAINT.CLEAN` writes a line back whole where it differs from memory; `CLINV` drops the line as well, and one that is being filled
loses its write count (R196, R337, R339, R341). -/
def cleansPerform : Prop := ∀ (s : State) (r : Req) (l : Line), s.atSlice r → (r.kind = .clean ∨ r.kind = .clinv) →
  (s.line? (lineOf r.pa) = some l → s.slicePerforms r [] 0 false fun t =>
    (∀ a, Cells.get emptyByte t.mem a = if a / 128 = l.addr ∧ l.dirty ≠ 0 then s.lineByte l.key l (a % 128)
      else Cells.get emptyByte s.mem a) ∧
    t.lines = (if r.kind = .clinv ∧ l.filling = false then s.lines.filter (fun x => x.addr ≠ l.addr)
      else s.lines.map fun x => if x.addr = l.addr then { x with dirty := 0, count := if r.kind = .clinv then 0 else x.count } else x) ∧
    t.teams = s.teams) ∧
  (s.line? (lineOf r.pa) = none → s.slicePerforms r [] 0 false fun t => t.lines = s.lines ∧ t.mem = s.mem ∧ t.teams = s.teams)

/-- A fill supplies the bytes of its line that no write has supplied, and the requests that wait for it answer with what they found at
their place in slice order (R339, R340). -/
def fillsLand : Prop := ∀ (s : State) (l : Line), s.line? s.subject = some l → l.filling = true →
  (s.reqs.Pairwise fun p q => p.id ≠ q.id) →
  let waits (r : Req) : Prop := r.waitingFill = true ∧ lineOf r.pa = l.addr
  ∃ t, Sys2Proof.Machine.exec .fillLand s = .next t ∧ t.ops = s.ops ∧ t.teams = s.teams ∧
    (∃ x, t.line? l.addr = some x ∧ x.filling = false ∧ x.valid = BitVec.allOnes 128 ∧ x.dirty = l.dirty ∧ x.count = l.count ∧
      ∀ i, i < 128 → Cells.get 0 x.data i = if l.valid.getLsbD i then Cells.get 0 l.data i else l.fillData.getD i 0) ∧
    ((s.lines.filter fun x => sameSlice x.addr l.addr).length ≤ 16384 → t.mem = s.mem ∧ ∀ x ∈ s.lines, x.addr ≠ l.addr → x ∈ t.lines) ∧
    (∀ r ∈ s.reqs, ¬ waits r → r ∈ t.reqs) ∧
    ∀ r ∈ s.reqs, waits r → ∃ q ∈ t.reqs, q.id = r.id ∧ q.waitingFill = false ∧ q.performed = r.performed ∧ q.result = r.result ∧
      q.hops = s.routeBack r.core r.pa ∧ q.place = (s.homeStop r.core r.pa).2

/-- Two parts that differ at most in requests and in which routers sleep. -/
def routersOnly (s t : State) : Prop :=
  { t with reqs := [], dies := [], nextId := 0 } = { s with reqs := [], dies := [], nextId := 0 } ∧
  (t.dies.map fun d => { d with asleep := [], waking := [] }) = s.dies.map fun d => { d with asleep := [], waking := [] }

/-- Whether something still waits for a request. -/
def State.needed (s : State) (q : Req) : Prop :=
  q.performed = false ∨ q.waitingFill = true ∨ q.hops ≠ [] ∨ (isWrite q.kind = true ∧ q.acked = false) ∨ ∃ o ∈ s.ops, q.op = some o.id

/-- A request's flit that has gone on to a stop: it keeps to the second virtual channel once it has crossed station 3 (R343), and as
it leaves its core it takes the next place in the order of injection (R344). -/
def steppedOn (r : Req) (first : Option Nat) (h : RingStop) (rest : List RingStop) : Req :=
  let third : Bool := match h, rest with | .station _ 3 q, x :: _ => quadOf x ≠ q | _, _ => false
  { r with hops := rest, place := h, dated := r.dated || third, sends := 0, order := first.getD r.order }

/-- The requests after one flit has gone on: those that something still waits for. -/
def State.flitOn (s t : State) (r : Req) (h : RingStop) (rest : List RingStop) : Prop :=
  routersOnly s t ∧ (∀ x ∈ rest.take 2, t.routerAsleep x = false) ∧
  ∀ q, q ∈ t.reqs ↔ s.needed q ∧ ∃ p ∈ s.reqs, q = (if p.id = r.id then steppedOn p (if r.atCore then some s.nextId else none) h rest else p)

/-- A flit goes on to the next stop of its request's route when that router is awake, no flit of its flow stands before it, the
station has room, and, at its core, no access that it must come behind is left; a parity error has it sent again, and its fourth failure
is reported as an uncorrectable error, and rolls back its context, or every context on the die where its owner cannot be read. A sleeping router is woken, two hops ahead (R343-R346). -/
def flitsMove : Prop := ∀ (s : State) (r : Req) (h : RingStop) (rest : List RingStop), s.req? r.id = some r → r.hops = h :: rest →
  (∀ d p, h ≠ .edge d p) →
  (s.routerAsleep h = true → ∀ e, ∃ t, Sys2Proof.Machine.exec (.ringFlitArrival r.id e) s = .next t ∧ routersOnly s t ∧ t.reqs = s.reqs ∧
    t.routerAsleep h = false ∧ t.routerWaking h = true) ∧
  (s.routerAsleep h = false → (s.routerWaking h = true ∨ s.flowWaits r = true ∨ s.stationFull r h rest = true ∨
      (r.atCore = true ∧ s.coreGate r = true)) →
    ∀ e, Sys2Proof.Machine.exec (.ringFlitArrival r.id e) s = .next s) ∧
  (s.routerAsleep h = false → s.routerWaking h = false → s.flowWaits r = false → s.stationFull r h rest = false →
    (r.atCore = true → s.coreGate r = false) →
    (∃ t, Sys2Proof.Machine.exec (.ringFlitArrival r.id false) s = .next t ∧ s.flitOn t r h rest) ∧
    (r.sends < 3 → Sys2Proof.Machine.exec (.ringFlitArrival r.id true) s =
      .next { s with reqs := s.reqs.map fun q => if q.id = r.id then { q with sends := q.sends + 1 } else q }) ∧
    (3 ≤ r.sends → let ctxs := if Config.ownerUnreadable s.fresh then s.ctxsOn (dieOfStop h) else [r.ctx]
      Sys2Proof.Machine.exec (.ringFlitArrival r.id true) s = .next (
        if ctxs = [] then s.draw.deviceError else s.draw.deviceError.rollback ctxs (dieOfStop h))))

/-- Flits of one source, destination and virtual channel keep the order of their injection: one that stands no further than an earlier
one does not move (R344, R402). -/
def flowsKeepOrder : Prop := ∀ (s : State) (q r : Req) (h : RingStop) (rest : List RingStop), s.req? r.id = some r → r.hops = h :: rest →
  r.atCore = false → q.atCore = false → q ∈ s.reqs → q.order < r.order → q.performed = r.performed → q.core = r.core → q.waitingFill = false → q.hops ≠ [] →
  s.homeStop q.core q.pa = s.homeStop r.core r.pa → s.reqClassA q = s.reqClassA r → r.hops.length ≤ q.hops.length →
  s.routerAsleep h = false → (∀ e, Sys2Proof.Machine.exec (.ringFlitArrival r.id e) s = .next s) ∧
    (s.subject = r.id → Sys2Proof.Machine.exec .edgeFlitIngress s = .next s)

/-- A flit enters a die over an edge link once the edge's router is awake, and wakes it where it sleeps (R346); one whose sender, or, for a response, whose requester, has been reset since is dropped and
counted, and a die in reset lets none in (R403-R405). -/
def edgesCross : Prop := ∀ (s : State) (r : Req) (d p : Nat) (rest : List RingStop) (die : Die), s.req? s.subject = some r →
  r.hops = .edge d p :: rest → s.dies[d]? = some die →
  (s.routerAsleep (.edge d p) = true → ∃ t, Sys2Proof.Machine.exec .edgeFlitIngress s = .next t ∧ routersOnly s t ∧ t.reqs = s.reqs ∧
    t.routerAsleep (.edge d p) = false ∧ t.routerWaking (.edge d p) = true) ∧
  (s.routerAsleep (.edge d p) = false → (s.routerWaking (.edge d p) = true ∨ s.flowWaits r = true) →
    Sys2Proof.Machine.exec .edgeFlitIngress s = .next s) ∧
  (s.routerAsleep (.edge d p) = false → s.routerWaking (.edge d p) = false → s.flowWaits r = false →
  let current := if r.performed then (if d = r.core / 48 then die.inc else r.incarnation) else die.incTable.getD (r.core / 48) 0
  (r.incarnation = current → die.state = .live → ∃ t, Sys2Proof.Machine.exec .edgeFlitIngress s = .next t ∧ s.flitOn t r (.edge d p) rest) ∧
  (r.incarnation = current → die.state ≠ .live → Sys2Proof.Machine.exec .edgeFlitIngress s = .next s) ∧
  (r.incarnation ≠ current → Sys2Proof.Machine.exec .edgeFlitIngress s = .next { s with
    reqs := s.reqs.filter fun q => q.id ≠ r.id
    dies := modAt s.dies d fun x => { x with stale := if x.stale = BitVec.allOnes 32 then x.stale else x.stale + 1 } }))

/-- Routers sleep unless a flit is on its way to them, and wake (R346); page walks enter translations in the banks of a die's TLB
(R342, R347); an acknowledgement reaches its core (R192). -/
def networkSettles : Prop := ∀ (s : State),
  (let d := s.subject / 256
   ((∃ r ∈ s.reqs, (d, s.subject) ∈ nextRouters r) → Sys2Proof.Machine.exec .routerPowerDown s = .next s) ∧
   ((∀ r ∈ s.reqs, (d, s.subject) ∉ nextRouters r) → Sys2Proof.Machine.exec .routerPowerDown s = .next (s.modDie d fun x =>
     if s.subject ∈ x.asleep ∨ s.subject ∈ x.waking then x else { x with asleep := x.asleep ++ [s.subject] })) ∧
   Sys2Proof.Machine.exec .routerWakeComplete s =
     .next (s.modDie d fun x => { x with waking := x.waking.filter fun y => y ≠ s.subject })) ∧
  (∀ die ctx page d pa leaf base size, s.dies[die]? = some d → d.state = .live → s.translate die ctx page = .ok pa leaf base size →
    let bank := page / 2 ^ 16 % 4
    Sys2Proof.Machine.exec (.pageWalkComplete die ctx page) s = .next (s.modDie die fun d =>
      if ∃ e ∈ d.tlb, e.bank = bank ∧ e.ctx = ctx ∧ e.page = base then d
      else { d with tlb := ⟨bank, ctx, base, size, leaf⟩ :: (d.tlb.filter fun e => e.bank = bank).take 4095 ++
        d.tlb.filter fun e => e.bank ≠ bank })) ∧
  ∀ r, s.req? s.subject = some r → r.performed = true → r.waitingFill = false → r.hops = [] → isWrite r.kind = true →
    ∃ t, Sys2Proof.Machine.exec .writeAcknowledge s = .next t ∧ { t with reqs := [] } = { s with reqs := [] } ∧
      ∀ q, q ∈ t.reqs ↔ s.needed q ∧ ∃ p ∈ s.reqs, q = (if p.id = r.id then { p with acked := true } else p)

/-! ### Events: stops and the starvation guard (R43, R206, R273-R275) -/

/-- A word that is no instruction stops its group with ILLEGAL (R43). -/
def straysStop : Prop := ∀ (w : Word64) (s : State) (g : Group) (c : Clause) (t gi : Nat) (tm : Team), s.issuer = .group t gi →
  s.teams[t]? = some tm → s.unitOf s.issuer = some g → g.clause = some c →
  let stops (detail : Nat) : Prop := ∃ u, Sys2Proof.Machine.exec (.unallocatedOpcode w) s = .next u ∧
    s.stopsAt u t gi g tm 0x01 detail c.pos c.wait c.lanes 0
  let tag := w.toNat / 2 ^ 62
  (tag = 0 → stops 0x01) ∧ (tag = 1 → ∃ d, d ≤ 0x0A ∧ stops d) ∧ (tag = 2 → stops 0x07) ∧ (tag = 3 → stops 0x08)

/-- The control processor takes the next stop of its cluster's queue: its handler starts at the entry of the cause in the object as the
team's launch found it, with the stop handle, the saved status and the mask in k0 to k3, and INH is set in the stopped group; without a handler the stop goes to the host, and
where the table or the object cannot be read the context ends (R273-R275, R281, R282). -/
def stopsDeliver : Prop := ∀ (s : State) (st : Stop) (g : Group) (cl : Cluster), s.nextStop s.subject = some st →
  s.group? st.team st.grp = some g → s.clusters[s.subject]? = some cl →
  let ctx := ((s.launchOf st.team).map Launch.ctx).getD 0
  let table := ((s.contexts[ctx]?).map Context.htab).getD 0
  let object := match (s.launchOf st.team).bind Launch.handlerCode with
    | some o => some o
    | none => (s.objectAt ctx (((s.contexts[ctx]?).map Context.hobj).getD 0)).map fun o => (o.code, o.codeVa)
  let entry := (s.ctxRead ctx (table + 8 * st.cause) 8).map natOfBytes
  let ssw0 := setField g.ssw0 8 1 1
  let mask := g.ssw0.toNat / 2 ^ 32 % 2 ^ 16 + g.ssw1.toNat % 2 ^ 16 * 2 ^ 16
  (∀ e o, entry = some e → e / 2 ^ 32 % 4 = 1 → object = some o →
    ∃ u h, Sys2Proof.Machine.exec .stopDelivery s = .next u ∧
      u.clusters = modAt s.clusters s.subject (fun c => { c with handler := some h, stops := c.stops.filter fun x => x ≠ st }) ∧
      h.stop = st ∧ h.handle = Config.stopHandle s.fresh ∧ h.code = o.1 ∧ h.codeVa = o.2 ∧
      h.cpu.role = .control ∧ h.cpu.cohort = 1 ∧ h.cpu.clause = none ∧ h.cpu.run = .running ∧ (threadAt h.cpu 0).pc = BitVec.ofNat 32 e ∧
      (∀ n, readK h.cpu n = if n = 0 then h.handle else if n = 1 then lowHalf ssw0 else if n = 2 then highHalf ssw0
        else if n = 3 then BitVec.ofNat 32 mask else 0) ∧
      (∀ l n, readV (threadAt h.cpu l) n = 0 ∧ readP (threadAt h.cpu l) n = false) ∧
      (∀ l, s.launchOf st.team = some l → (u.launchOf st.team).bind Launch.handlerCode = some o) ∧
      u.group? st.team st.grp = some { g with ssw0 := ssw0 } ∧ u.mem = s.mem ∧ u.lines = s.lines ∧ u.ops = s.ops) ∧
  (∀ e, entry = some e → e / 2 ^ 32 % 4 ≠ 1 → ∃ u, Sys2Proof.Machine.exec .stopDelivery s = .next u ∧
    (u.clusters[s.subject]?).map Cluster.stops = some (st :: cl.stops.filter fun x => x ≠ st) ∧
    (let x := if g.latch.isSome then saveGroup g else g
     u.group? st.team st.grp = some { x with ssw0 := setField x.ssw0 8 1 1 }) ∧ (u.contexts[ctx]?).map Context.stopped = (s.contexts[ctx]?).map (fun _ => true) ∧
    (∃ x, u.interrupts = s.interrupts ++ [x] ∧ x.vector = 2 ∧ x.ctx = ctx ∧ x.cause = st.cause) ∧ s.memKept u ∧ u.lines = s.lines ∧
    u.cinderSeq = s.cinderSeq + 1) ∧
  ((entry = none ∨ ∃ e, entry = some e ∧ e / 2 ^ 32 % 4 = 1 ∧ object = none) →
    Sys2Proof.Machine.exec .stopDelivery s = .next (s.terminate ctx st.team g.ssw0))

/-- A context that ends: its teams and launches end, its stop goes to the host under cause 0x12, and no other context's team,
launch or handle is touched (R281, R301, R408). -/
def contextsEnd : Prop := ∀ (s : State) (ctx team : Nat) (ssw0 : Word64), let u := s.terminate ctx team ssw0
  (∀ l : Nat, (u.launches[l]?).map Launch.state = (s.launches[l]?).map fun (x : Launch) =>
    if x.ctx = ctx ∧ (x.state = .waiting ∨ x.state = .running) then .killed else x.state) ∧
  (∀ (t : Nat) (tm : Team) (l : Launch), s.teams[t]? = some tm → s.launches[tm.launch]? = some l →
    (l.ctx ≠ ctx → u.teams[t]? = some tm) ∧
    (l.ctx = ctx → (l.state = .waiting ∨ l.state = .running) → tm.ended = none →
      ∃ x, u.teams[t]? = some x ∧ x.ended = some .killed ∧ x.residency = .ended ∧ ∀ g ∈ x.groups, g.run = .ended)) ∧
  (∀ c, c ≠ ctx → u.contexts[c]? = s.contexts[c]?) ∧
  ((u.contexts[ctx]?).map fun c => (c.terminated, c.created, c.stopped)) = ((s.contexts[ctx]?).map fun _ => (true, false, false)) ∧
  (u.dies.map fun d => d.handles) = (s.dies.map fun d => d.handles.filter fun h => h.ctx ≠ ctx) ∧
  (∃ x, u.interrupts = s.interrupts ++ [x] ∧ x = ⟨2, ctx, 0x12, ssw0⟩) ∧ s.memKept u ∧ u.cinderSeq = s.cinderSeq + 1 ∧
  u.lines = s.lines.map fun x => if x.key ≠ 0 ∧ (x.key - 1) / 8 = ctx then { x with key := 513 } else x

/-- Of the groups of a partition whose ready M-slot word the M slot has passed over three times in a row, one takes precedence, a copy
group before a matrix group before a vector group (R206). -/
def guardsStarving : Prop := ∀ (s : State) (core part : Nat), ∃ u, Sys2Proof.Machine.exec (.starvationGuard core part) s = .next u ∧
  u.ops = s.ops ∧ u.bare = s.bare ∧
  let passedBy (t g : Nat) (x : Group) : Prop := (∃ tm, (t, g, tm, x) ∈ s.mReadyOf core part) ∧ 3 ≤ x.passed
  let rank (g : Group) : Nat := match g.role with | .copy => 0 | .matrix => 1 | .vector => 2 | .control => 3
  (∀ t g x, s.group? t g = some x → ∃ y, u.group? t g = some y ∧
    (y = x ∨ (passedBy t g x ∧ y = { x with precedence := true }))) ∧
  (∀ t g x, passedBy t g x → x.role ≠ .control →
    ∃ t' g' y, passedBy t' g' y ∧ rank y ≤ rank x ∧ u.group? t' g' = some { y with precedence := true })

/-- A group that takes precedence, passed over three times or already marked, keeps the M slot of its partition from any other group's
word. Once a word has issued (`b` being the part before it), its slot has served its group: an M-slot word passes over the partition's
other ready groups, and so does a P word, which fills both slots (R9, R206). That each such word counts as one clock is the model's
choice (assumption log, entry 6). -/
def slotsServe : Prop := ∀ (s b : State) (t gi : Nat) (tm : Team) (g : Group), b.teams[t]? = some tm → b.group? t gi = some g →
  let part := (tm.offset + gi) % 8
  let waits (u k : Nat) : Prop := ∃ x y, (u, k, x, y) ∈ b.mReadyOf tm.core part
  let here (u k : Nat) : Prop := ∃ x y, (u, k, x, y) ∈ b.partGroups tm.core part
  let m := (nextBits (b.codeOf (.group t gi)).1 g).any inMSlot
  let first (x : Group) : Bool := x.precedence || decide (3 ≤ x.passed)
  (b.outranked t gi = true ↔ first g = false ∧ m = true ∧ ∃ u k x y, (u, k, x, y) ∈ b.mReadyOf tm.core part ∧ first y = true) ∧
  ((m = true ∨ b.pairNext t gi = true) → ∀ u k y, s.group? u k = some y → ∃ z, (s.serve b t gi).group? u k = some z ∧
    z = { y with passed := z.passed, precedence := z.precedence } ∧
    ((u, k) = (t, gi) → z.passed = 0 ∧ z.precedence = false) ∧
    ((u, k) ≠ (t, gi) → z.precedence = y.precedence ∧ (waits u k → z.passed = y.passed + 1) ∧
      (here u k → ¬ waits u k → z.passed = 0) ∧ (¬ here u k → ¬ waits u k → z.passed = y.passed))) ∧
  (m = false → b.pairNext t gi = false → (s.serve b t gi).teams = s.teams) ∧
  ((s.serve b t gi).slots.head?).map SlotPlace.last = some (t, gi) ∧
  ∀ core part p r, s.slotChoices core part = p :: r → s.pairNext p.1 p.2 = true → r = []

/-! ### Events: where teams run (R88, R201-R205, R283-R306, R416-R418) -/

/-- The start of a group: its role and allocation, every thread at the entry and every register, flag and status zero (R88, R205). -/
def groupsStart : Prop := ∀ (k : Kernel) (i : Nat), i < (k.threads + 31) / 32 → ∃ g, (startGroups k)[i]? = some g ∧
  g.role = (if i < k.cgrp then .copy else if i < k.cgrp + k.mgrp then .matrix else .vector) ∧
  g.alloc = (if i < k.cgrp then k.creg else if i < k.cgrp + k.mgrp then k.mreg
    else if i < k.cgrp + k.mgrp + k.vgrp then k.vreg else k.regs) ∧
  g.threads.length = min 32 (k.threads - 32 * i) ∧ (∀ l, g.cohort.getLsbD l = decide (l < g.threads.length)) ∧
  (∀ l, l < g.threads.length → (threadAt g l).pc = BitVec.ofNat 32 k.entry) ∧
  (∀ l n, readV (threadAt g l) n = 0 ∧ readP (threadAt g l) n = false ∧ readX (threadAt g l).x n = 0) ∧ (∀ n, readK g n = 0) ∧
  (∀ l, (threadAt g l).status = 0 ∧ (threadAt g l).exited = false ∧ (threadAt g l).joins = []) ∧ (∀ n, flagCount g n = 0) ∧
  g.hazards = [] ∧ g.gang = 0 ∧ g.mstat = 0 ∧ g.ssw0 = 0 ∧ g.ssw1 = 0 ∧ g.faultAddr = 0 ∧ g.run = .running ∧ g.hold = .none ∧ g.clause = none

/-- A team that has just become resident. -/
def teamAtStart (t : Team) (li : Nat) (l : Launch) (k : Kernel) (tidx core : Nat) : Prop :=
  t.launch = li ∧ t.kernel = k ∧ t.tidx = tidx ∧ t.cteam = tidx / l.cts ∧ t.rank = tidx % l.cts ∧ t.core = core ∧
  t.vcore = (if l.ordered then tidx % 144 else core) ∧ t.residency = .resident ∧ t.preempt = .none ∧ t.groups = startGroups k ∧
  t.taskId = BitVec.ofNat 64 (l.num.toNat * 2 ^ 48 + tidx * 2 ^ 24) ∧ t.parent = none ∧ t.ended = none ∧ t.scratch = k.scratch ∧
  t.banks = List.replicate ((k.scratch + 32767) / 32768) ⟨.scratch, [], []⟩ ∧ t.obufUnits = k.obuf ∧ t.ob = [] ∧ t.ranges = [] ∧
  t.tiles = List.replicate k.tiles ⟨false, []⟩ ∧ (∀ r ∈ t.rings, r.phases = 0) ∧ t.issued = 0 ∧ t.writeSet = [] ∧ t.held = []

/-- A cluster's stoker starts the next cluster-team of its first share, the lowest of its launch, when it has room, one rank on each of as many cores, or takes
the next array billet into its queue, or ends its task when that billet cannot be read or fails its checks (R201, R293, R295, R298,
R304, R449). -/
def stokersStart : Prop := ∀ (s : State) (cl : Cluster) (sh : Share) (rest : List Share) (l : Launch), s.clusters[s.subject]? = some cl →
  cl.shares = sh :: rest → sh.next < sh.stop → s.launches[sh.launch]? = some l → l.state = .running → (∀ x ∈ rest, x ≠ sh ∧ (x.launch = sh.launch → sh.next ≤ x.next)) →
  let moved : List Share := if sh.next + 1 < sh.stop then { sh with next := sh.next + 1 } :: rest else rest
  (l.isTask = false →
    let n := min l.cts (l.teamCount - sh.next * l.cts)
    let cores := s.coresFor s.subject l l.kernel
    n ≤ cores.length → s.barriersUsed s.subject sh.launch sh.next + l.cbar ≤ 16 →
    ∃ u ts, Sys2Proof.Machine.exec .teamResidency s = .next u ∧ u.teams = s.teams ++ ts ∧ ts.length = n ∧
      (∀ i t, ts[i]? = some t → teamAtStart t sh.launch l l.kernel (sh.next * l.cts + i) (cores.getD i 0)) ∧
      u.clusters = modAt s.clusters s.subject (fun c => { c with shares := moved }) ∧
      { u with teams := [], clusters := [] } = { s with teams := [], clusters := [] }) ∧
  (l.isTask = true → s.queueRoom s.subject = true →
    let bytes := s.arrayBillet l sh.next
    let good : Prop := ∃ bs, bytes = some bs ∧ billetDetails l.kernels l.ordered (natOfBytes bs) = []
    let id := BitVec.ofNat 64 (l.num.toNat * 2 ^ 48 + sh.next * 2 ^ 24)
    (good → Sys2Proof.Machine.exec .teamResidency s = .next { s with clusters := modAt s.clusters s.subject fun c => { c with
      shares := moved
      billets := c.billets ++ [⟨sh.launch, id, sh.next, none, 0, 0, bytes.getD [], true, [], 0⟩] } }) ∧
    (¬ good → ∃ u t, Sys2Proof.Machine.exec .teamResidency s = .next u ∧ u.teams = s.teams ++ [t] ∧ t.taskId = id ∧ t.launch = sh.launch ∧
      t.ended = some .stagefault ∧ t.residency = .ended ∧ t.groups = [] ∧
      u.clusters = modAt s.clusters s.subject (fun c => { c with shares := moved })))

/-- A team of an ordered launch starts on the core of its logical core, index modulo 144, in ascending index, once every lower index
of that core has been resident (R416-R418). -/
def gridsPlace : Prop := ∀ (s : State) (cl : Cluster) (l : Launch) (tidx : Nat), s.clusters[s.subject]? = some cl → cl.shares = [] →
  s.launches = [l] → l.state = .running → l.ordered = true → l.isTask = false → l.cts = 1 → l.cbar = 0 →
  s.clusterServes s.subject l.classA = true → s.barriersUsed s.subject 0 tidx ≤ 16 →
  let core (t : Nat) : Nat := s.remapCore (t % 144)
  tidx < l.teamCount → core tidx / 8 = s.subject → s.taken 0 tidx = false →
  (∀ t, t < tidx → core t / 8 = s.subject → s.taken 0 t = true) →
  (∀ v, v < tidx → core v = core tidx → ∃ i tm, s.teamAt 0 v = some i ∧ s.teams[i]? = some tm ∧ (tm.begun = true ∨ tm.residency = .ended)) →
  (s.offsetFor (core tidx) l.kernel).isSome = true →
  ∃ u t, Sys2Proof.Machine.exec .teamResidency s = .next u ∧ u = { s with teams := s.teams ++ [t] } ∧ teamAtStart t 0 l l.kernel tidx (core tidx)

/-- A billet leaves its cluster's queue for a core with room, unless one before it could start: its task is staged, or ends with
STAGEFAULT when its kernel is no task kernel (R298, R303, R306). -/
def billetsStart : Prop := ∀ (s : State) (cluster idx core : Nat) (c : Cluster) (b : Billet) (l : Launch), s.clusters[cluster]? = some c →
  c.billets[idx]? = some b → core / 8 = cluster → s.billetFits b core = true → s.launches[b.launch]? = some l →
  (∀ x ∈ c.billets.take idx, ∀ n, n < 8 → s.billetFits x (8 * cluster + n) = false) →
  ∃ u t, Sys2Proof.Machine.exec (.stokerBilletStart cluster idx core) s = .next u ∧
    u = { s with teams := s.teams ++ [t], clusters := modAt s.clusters cluster fun c => { c with billets := c.billets.eraseIdx idx } } ∧
    t.launch = b.launch ∧ t.taskId = b.taskId ∧ t.parent = b.parent ∧ t.spawnIndex = b.spawnIndex ∧ t.parentLife = b.parentLife ∧
    match taskKernel l.kernels l.ordered (natOfBytes b.bytes) with
    | some k => t.kernel = k ∧ t.core = core ∧ t.residency = .staging ∧ t.groups = startGroups k ∧ t.ended = none ∧
        t.billet = b.bytes ∧ t.arg = (b.bytes.drop 4).take 12 ∧ t.base = b.base
    | none => t.residency = .ended ∧ t.ended = some .stagefault ∧ t.groups = []

/-- A staged task starts once the rows of its tiles stand in its scratchpad, the fills of their lines landed and their homes out of
reset (R339, R405), or ends with STAGEFAULT when a row cannot be read (R298).
The oldest overflowed billet of a cluster re-enters its queue of 256 (R303). -/
def tasksStage : Prop := ∀ (s : State),
  (∀ t : Team, s.teams[s.subject]? = some t → t.residency = .staging → ((s.dies[t.core / 48]?).map Die.state = some .live) →
    let die := t.core / 48
    let ctx := s.ctxOf (.group s.subject 0)
    let rows := stageRows t.billet
    let tr := s.translate die ctx
    let extents := rows.map fun r => (r.1, r.2.2)
    let bad (r : Nat × Nat × Nat) : Prop := 2 ^ 48 < r.1 + r.2.2 ∨ s.extentVerdict die ctx needR r.1 r.2.2 ≠ none
    ((∀ r ∈ rows, ¬ bad r) → s.anyDown tr extents = true → Sys2Proof.Machine.exec .stagingComplete s = .next s) ∧
    ((∀ r ∈ rows, ¬ bad r) → s.anyDown tr extents = false → s.lackFills tr s.subject extents ≠ [] →
      Sys2Proof.Machine.exec .stagingComplete s = .next (s.startFills ctx (s.lackFills tr s.subject extents))) ∧
    ((∀ r ∈ rows, ¬ bad r) → s.anyDown tr extents = false → s.lackFills tr s.subject extents = [] → ∃ u, Sys2Proof.Machine.exec .stagingComplete s = .next u ∧
      u.teams = (modAt s.teams s.subject fun t =>
        { rows.foldl (fun t r => scratchWrite t r.2.1 (s.readVa s.subject die ctx r.1 r.2.2)) t with
          residency := .resident, begun := true }) ∧
      u.l1 = s.l1.filter (fun x => x.core ≠ t.core) ∧ { u with teams := [], l1 := [] } = { s with teams := [], l1 := [] }) ∧
    ((∃ r ∈ rows, bad r) → ∃ u, Sys2Proof.Machine.exec .stagingComplete s = .next u ∧ { u with teams := [] } = { s with teams := [] } ∧
      (u.teams[s.subject]?).map (fun t => (t.residency, t.ended, t.groups)) = some (.ended, some .stagefault, []) ∧
      ∀ v, v ≠ s.subject → u.teams[v]? = s.teams[v]?)) ∧
  ∀ c b r, s.clusters[s.subject]? = some c → c.overflow = b :: r →
    (s.queueRoom s.subject = true → Sys2Proof.Machine.exec .overflowBilletReturn s =
      .next { s with clusters := modAt s.clusters s.subject fun c => { c with billets := c.billets ++ [b], overflow := r } }) ∧
    (s.queueRoom s.subject = false → Sys2Proof.Machine.exec .overflowBilletReturn s = .next s)

/-- Whether an index of a launch is among some shares. -/
def sharesHold (ss : List Share) (launch i : Nat) : Prop := ∃ x ∈ ss, x.launch = launch ∧ x.next ≤ i ∧ i < x.stop

/-- An idle cluster takes the upper half of the unstarted work that may move from the cluster of its die that has most, and, when none
has two, that of the other die that has most; without work in its own die, the next sibling that holds queued billets ships half of those
that may move, youngest first (R305). -/
def workMoves : Prop := ∀ (s : State) (c : Nat) (cl : Cluster), s.subject = c → s.idleCluster c = true → s.clusters[c]? = some cl →
  let sibling := richest (s.movableOf c) (dieClusters (c / 6))
  let far := richest (s.movableOn c) ((List.range 3).filter fun d => d ≠ c / 6)
  let mine (x : Share) : Bool := s.mayMove c x.launch
  (∀ v k, sibling = some v → s.clusters[v]? = some k →
    ∃ u a b, Sys2Proof.Machine.exec .clusterSteal s = .next u ∧ { u with clusters := [] } = { s with clusters := [] } ∧ v ≠ c ∧
      u.clusters[c]? = some { cl with shares := b } ∧ u.clusters[v]? = some { k with shares := a } ∧
      (∀ x, x ≠ c → x ≠ v → u.clusters[x]? = s.clusters[x]?) ∧
      sharesLeft b = sharesLeft (k.shares.filter mine) / 2 ∧ (∀ x ∈ b, mine x = true) ∧
      (∀ l i, sharesHold k.shares l i ↔ sharesHold a l i ∨ sharesHold b l i)) ∧
  (∀ d, sibling = none → far = some d → ∃ u b, Sys2Proof.Machine.exec .clusterSteal s = .next u ∧
    { u with clusters := [] } = { s with clusters := [] } ∧ u.clusters[c]? = some { cl with shares := b } ∧
    (∀ x, x ≠ c → x / 6 ≠ d → u.clusters[x]? = s.clusters[x]?) ∧
    (∀ x k, x / 6 = d → s.clusters[x]? = some k → ∃ a, u.clusters[x]? = some { k with shares := a }) ∧
    sharesLeft b = ((dieClusters d).map (s.movableOf c)).sum / 2 ∧ (∀ x ∈ b, mine x = true) ∧
    ∀ l i, (∃ x k, x / 6 = d ∧ s.clusters[x]? = some k ∧ sharesHold k.shares l i) ↔
      (sharesHold b l i ∨ ∃ x k, x / 6 = d ∧ u.clusters[x]? = some k ∧ sharesHold k.shares l i)) ∧
  ((sibling = none ∧ far = none) → Sys2Proof.Machine.exec .clusterSteal s = .next s) ∧
  let ring := (List.range 5).map fun i => 6 * (c / 6) + (c % 6 + 1 + i) % 6
  let holds (x : Nat) : Bool := (s.clusters[x]?).any fun k => k.billets.any (s.mayShip c)
  (∀ v k, sibling = none → ring.find? holds = some v → s.clusters[v]? = some k →
    let mov := k.billets.filter (s.mayShip c)
    let half := mov.length / 2
    ∃ u, Sys2Proof.Machine.exec .billetDonation s = .next u ∧ { u with clusters := [] } = { s with clusters := [] } ∧
      (u.clusters[c]?).map Cluster.billets = some ((mov.drop (mov.length - half)).reverse) ∧
      (u.clusters[v]?).map Cluster.billets = some (k.billets.filter fun b => !((mov.drop (mov.length - half)).contains b)) ∧
      ∀ x, x ≠ c → x ≠ v → u.clusters[x]? = s.clusters[x]?) ∧
  (sibling = none → ring.find? holds = none → Sys2Proof.Machine.exec .billetDonation s = .next s)

/-- The way a cluster-team is pre-empted (R285). -/
def preemptWay (s : State) (t : Nat) : PreemptMode :=
  let ms := s.clusterTeam t
  if s.canSave t = true ∧ ms.all s.nearEnd then .drain
  else if ms.all fun u => (s.teams[u]?).any fun x => x.kernel.idem then .flush
  else if s.canSave t then .save else .drain

/-- A queue's teams are pre-empted together: a team that fits its context's save area and is near its end drains, an idempotent one is
flushed, one that fits is saved, any other drains (R285, R451, R454). -/
def queuesPreempt : Prop := ∀ (s : State), ∃ u, Sys2Proof.Machine.exec .qctlPreempt s = .next u ∧
  { u with teams := [] } = { s with teams := [] } ∧ u.teams.length = s.teams.length ∧
  ∀ (t : Nat) (tm : Team) (l : Launch), s.teams[t]? = some tm → s.launches[tm.launch]? = some l →
    u.teams[t]? = some (if l.queue = s.subject ∧ tm.residency = .resident ∧ tm.preempt = .none then
      { tm with preempt := preemptWay s t, residency := if preemptWay s t = .drain then .resident else .saving } else tm)

/-- A team leaves its core at its pre-emption point with its bytes in its context's save area, every register kept and the position of each running group in SSW0; one that
is flushed starts over from its entry, in another life. Its subscriptions go dormant, or, when it is flushed, are gone (R286-R288, R290,
R330). Until then it stays. -/
def teamsLeave : Prop := ∀ (s : State) (t : Team), s.teams[s.subject]? = some t → t.residency = .saving →
  (t.preempt ≠ .flush → s.saveBlocked s.subject = true → Sys2Proof.Machine.exec .preemptSaveComplete s = .next s) ∧
  (t.preempt = .flush → s.flushBlocked s.subject = true → Sys2Proof.Machine.exec .preemptSaveComplete s = .next s) ∧
  (t.preempt ≠ .flush → s.saveBlocked s.subject = false →
    let area := s.saveWrite s.subject 0 0 (s.savedBytes (saveBytes t + 64 * s.enginesOut s.subject))
    ∃ u x, Sys2Proof.Machine.exec .preemptSaveComplete s = .next u ∧
      { u with teams := [], subs := [] } = { area with teams := [], subs := [], fresh := s.fresh + 1 } ∧
      u.teams = s.teams.set s.subject x ∧ { x with groups := t.groups, residency := t.residency, savedAt := t.savedAt } = t ∧
      x.residency = .switchedOut ∧ x.savedAt = s.nextId ∧ x.groups.length = t.groups.length ∧
      (∀ (i : Nat) (g : Group), t.groups[i]? = some g → ∃ g' : Group, x.groups[i]? = some g' ∧
        g.still { g' with ssw0 := g.ssw0, ssw1 := g.ssw1 } ∧ g'.seat = .none ∧ g'.run = g.run ∧ g'.clause = g.clause ∧
        (g.run ≠ .running → g'.ssw0 = g.ssw0 ∧ g'.ssw1 = g.ssw1) ∧
        (g.run = .running → g'.latch = none ∧ g'.ssw1 = 0 ∧
          (∀ c, g.clause = some c → g'.ssw0 = BitVec.ofNat 64 (c.pos % 16 * 2 ^ 9)) ∧
          (g.clause = none → (∀ l, (threadAt g l).held = none) → g'.ssw0 = 0))) ∧
      ∀ b ∈ s.subs, b.subscriber = s.subject → b.state = .active → { b with state := .dormant } ∈ u.subs) ∧
  (t.preempt = .flush → s.flushBlocked s.subject = false → ∃ u x, Sys2Proof.Machine.exec .preemptSaveComplete s = .next u ∧
    u.teams[s.subject]? = some x ∧ x.residency = .switchedOut ∧ x.groups = startGroups t.kernel ∧ x.writeSet = [] ∧ x.held = [] ∧
    x.issued = 0 ∧ x.life = t.life + 1 ∧ x.banks = List.replicate ((t.kernel.scratch + 32767) / 32768) ⟨.scratch, [], []⟩ ∧
    (∀ b ∈ u.subs, b.subscriber ≠ s.subject) ∧ (∀ b ∈ u.subs, b.publisher = s.subject → b.state = .ended) ∧
    (∀ o ∈ u.ops, ∀ g, o.issuer ≠ .group s.subject g) ∧ (∀ (c : Nat) (k : Cluster), u.clusters[c]? = some k → ∀ x ∈ k.stops, x.team ≠ s.subject) ∧
    u.mem = s.mem ∧ u.lines = s.lines)

/-- Switched-out teams with no group waiting for `TRET` return together to cores with room: in a free launch a cluster-team to cores of
one cluster, in an ordered launch each team to the core of its logical core; one that keeps its state to a core of its die, under its
number (R292; assumption log, entry 61); no L1 keeps what it held there before (R284, R292, R294,
R417, R418). -/
def teamsReturn : Prop := ∀ (s : State) (t core : Nat) (tm : Team) (l : Launch), s.teams[t]? = some tm → s.launchOf t = some l →
  l.state = .running → mayReturn tm = true → ((l.coop = true ∨ tm.preempt ≠ .flush) → core / 48 = tm.core / 48) →
  (tm.parent = none → s.barriersUsed (core / 8) tm.launch tm.cteam + l.cbar ≤ 16) →
  let ms := s.returnSet t
  let plan := s.returnPlan t core l ms
  (∀ v ∈ ms, ∃ x, s.teams[v]? = some x ∧ mayReturn x = true) → plan.length = ms.length → (t, core) ∈ plan →
  (∀ p ∈ plan, s.returnFits p.1 p.2 = true) → ∃ u, Sys2Proof.Machine.exec (.teamSwitchBack t core) s = .next u ∧
    u.mem = s.mem ∧ u.lines = s.lines ∧ u.ops = s.ops ∧ u.reqs = s.reqs ∧ u.launches = s.launches ∧
    (∀ x ∈ u.l1, x ∈ s.l1 ∧ ∀ p ∈ plan, x.core ≠ p.2) ∧
    (∀ v, (∀ p ∈ plan, p.1 ≠ v) → u.teams[v]? = s.teams[v]?) ∧
    ((plan.map Prod.fst).Nodup → ∀ p ∈ plan, ∃ x y, s.teams[p.1]? = some x ∧ u.teams[p.1]? = some y ∧
      y.core = p.2 ∧ y.preempt = .none ∧ y.begun = true ∧ y.groups = x.groups ∧ y.tiles = x.tiles ∧ y.ob = x.ob ∧ y.ranges = x.ranges ∧
      y.vcore = (if l.ordered = true ∨ x.preempt ≠ .flush then x.vcore else p.2) ∧
      y.residency = (if x.preempt = .flush ∧ x.billet ≠ [] then .staging else .resident) ∧
      ((∀ b ∈ s.subs, b.subscriber ≠ p.1) → y.banks = x.banks))

/-- Pre-emption completes: a queue's resident team starts to leave or drains; a team with nothing outstanding leaves, saved or to start
over; and it comes back to a core with room (R283-R288). -/
def teamsMove : Prop := ∀ (s : State) (t : Nat) (tm : Team) (l : Launch), s.teams[t]? = some tm → s.launches[tm.launch]? = some l →
  (s.subject = l.queue → tm.residency = .resident → tm.preempt = .none →
    ∃ u x, Sys2Proof.Machine.exec .qctlPreempt s = .next u ∧ u.teams[t]? = some x ∧ x.groups = tm.groups ∧
      ((x.preempt = .drain ∧ x.residency = .resident) ∨ ((x.preempt = .flush ∨ x.preempt = .save) ∧ x.residency = .saving))) ∧
  (s.subject = t → tm.residency = .saving → (∀ o ∈ s.ops, ∀ g, o.issuer ≠ .group t g) → (∀ r ∈ s.reqs, r.team ≠ t) →
    ∃ u x, Sys2Proof.Machine.exec .preemptSaveComplete s = .next u ∧ u.teams[t]? = some x ∧ x.residency = .switchedOut ∧
      (tm.preempt = .flush → x.groups = startGroups tm.kernel) ∧ (tm.preempt ≠ .flush → x.tiles = tm.tiles ∧ x.banks = tm.banks)) ∧
  (∀ core, mayReturn tm = true → l.state = .running → l.ordered = false → l.coop = false → s.clusterTeam t = [t] →
    (tm.parent = none → s.barriersUsed (core / 8) tm.launch tm.cteam + l.cbar ≤ 16) → tm.ranges = [] →
    tm.begun = true → (tm.preempt ≠ .flush → core / 48 = tm.core / 48) → (∀ b ∈ s.subs, b.subscriber ≠ t ∧ b.publisher ≠ t) → s.reqs = [] → s.coreServes core l.classA = true →
    (s.offsetFor core tm.kernel).isSome = true → s.coreRecords core ≤ 32 → s.subsOnCore core ≤ 16 → (s.publications core).length ≤ 8 →
    ∃ u x, Sys2Proof.Machine.exec (.teamSwitchBack t core) s = .next u ∧ u.teams[t]? = some x ∧ x.core = core ∧ x.preempt = .none ∧
      x.groups = tm.groups ∧ x.residency = if tm.preempt = .flush ∧ tm.billet ≠ [] then .staging else .resident)

/-! ### Events: errors, rollback, boot, the bellows (R403-R413, R425-R441, R457) -/

/-- A die reset: its slices, L1s and outstanding requests are gone, it is held in reset under its next incarnation, which every
table learns, and the host is told (R403-R405). -/
def diesReset : Prop := ∀ (s : State) (d : Nat) (die : Die), s.dies[d]? = some die → let u := s.resetDie d
  (∃ x, u.dies[d]? = some x ∧ x.state = .inReset ∧ x.inc = die.inc + 1 ∧ x.tlb = []) ∧
  (∀ (i : Nat) (x : Die), u.dies[i]? = some x → d < x.incTable.length → x.incTable.getD d 0 = die.inc + 1) ∧
  (∀ l ∈ u.lines, homeDie (128 * l.addr) ≠ d ∧ ∃ k, ∃ x ∈ s.lines, l = { x with key := k }) ∧
  (∀ r ∈ u.reqs, (r ∈ s.reqs ∧ r.core / 48 ≠ d) ∨ ∃ q ∈ s.reqs, q.strays d = true ∧ r = { q with op := none, team := noTeam }) ∧
  (∀ x ∈ u.l1, x ∈ s.l1 ∧ x.core / 48 ≠ d) ∧ (∃ xs, u.interrupts = xs ++ [⟨0, 0, 0, 0⟩]) ∧ s.errlog.length < u.errlog.length

/-- Errors reported by links, dies and the package (R404, R405, R412, R413, R457). -/
def errorsReport : Prop := ∀ (s : State),
  (∀ (link : Nat) (die : Die), let at_ := linkDie s.tdie.dead.toNat link
    s.dies[at_]? = some die →
    let n := Cells.get 0 die.linkFails link
    let counts (n : Nat) : State := s.modDie at_ fun d => { d with linkFails := Cells.put 0 d.linkFails link n }
    (die.state ≠ .live → ∀ f, Sys2Proof.Machine.exec (.linkReplay link f) s = .next s) ∧
    (die.state = .live → Sys2Proof.Machine.exec (.linkReplay link false) s = .next (counts 0)) ∧
    (die.state = .live → n < 15 → Sys2Proof.Machine.exec (.linkReplay link true) s = .next (counts (n + 1))) ∧
    (die.state = .live → 15 ≤ n → Sys2Proof.Machine.exec (.linkReplay link true) s = .next (s.resetDie at_))) ∧
  (∀ link dead : Nat, link < 6 → linkDie dead link = link / 2) ∧
  (∀ dead : Nat, dead < 4 → (dead ≠ 0 → positionOf dead (linkDie dead 6) = 0) ∧ (dead ≠ 3 → positionOf dead (linkDie dead 7) = 3)) ∧
  (∀ d : Die, s.dies[s.subject]? = some d →
    (d.state = .live → Sys2Proof.Machine.exec .dieFatalError s = .next (s.resetDie s.subject)) ∧
    (d.state = .inReset → (∀ r ∈ s.reqs, r.core / 48 ≠ s.subject) → Sys2Proof.Machine.exec .dieRejoin s =
      .next { s with dies := modAt s.dies s.subject fun d => { d with state := .live } }) ∧
    Sys2Proof.Machine.exec .correctedError s = .next { s with dies := modAt s.dies s.subject fun d =>
      { d with ce := BitVec.ofNat 32 (min (2 ^ 32 - 1) (d.ce.toNat + 1)) } }) ∧
  (∀ die line, Sys2Proof.Machine.exec (.patrolScrub die line) s = .next s) ∧
  (∀ x, Sys2Proof.Machine.exec (.htDieFatalError x) s = .next { s with aer := s.aer ++ [.fatal], needsReset := true }) ∧
  (∀ x, Sys2Proof.Machine.exec (.pcieLinkError x) s = .next { s with aer := s.aer ++ [if x then .fatal else .correctable] }) ∧
  (s.tdie.done = true → Sys2Proof.Machine.exec .cdieStaleClear s = .next { s with dies := modAt s.dies s.subject fun d => { d with stale := 0 } }) ∧
  (s.tdie.done = true → Sys2Proof.Machine.exec .cdieCeClear s = .next { s with dies := modAt s.dies s.subject fun d => { d with ce := 0 } }) ∧
  (s.tdie.done = true → Sys2Proof.Machine.exec .errlogRead s = .next { s with errlog := s.errlog.drop 1 }) ∧
  (s.tdie.done = false → Sys2Proof.Machine.exec .cdieStaleClear s = .next s ∧ Sys2Proof.Machine.exec .cdieCeClear s = .next s ∧
    Sys2Proof.Machine.exec .errlogRead s = .next s)

/-- A context that wrote no line another context wrote rolls back to the start of its interval: its launches end, the lines its undo
records name hold their old bytes, its commands are parsed again, and it has one attempt fewer; past the bound, unprotected, or with an
undo record lost, it ends (R427). -/
def contextsRollBack : Prop := ∀ (s : State) (ctx die : Nat) (c : Context), s.contexts[ctx]? = some c → c.created = true →
  s.rollbackSet 64 [ctx] = [ctx] → ∃ u, Sys2Proof.Machine.exec (.uncorrRollback ctx die) s = .next u ∧
  (∃ xs, u.interrupts = xs ++ [⟨0, 0, 0, 0⟩]) ∧ u.errlog.length = s.errlog.length + 1 ∧
  (c.unprotected = false → c.attempts < s.regs.rbmax.toNat → Config.undoLost (s.fresh + ctx) = false →
    (∃ x, u.contexts[ctx]? = some x ∧ x.attempts = c.attempts + 1 ∧ x.replay = c.kept ++ c.replay ∧ x.kept = [] ∧ x.created = true ∧
      x.interval = c.interval) ∧
    (∀ (l : Launch) (i : Nat), s.launches[i]? = some l → l.ctx = ctx → (l.state = .waiting ∨ l.state = .running) →
      (u.launches[i]?).map Launch.state = some .killed) ∧
    (((s.openUndo ctx).map UndoRec.line).Nodup → (∀ r ∈ s.openUndo ctx, r.data.length = 128) → ∀ r ∈ s.openUndo ctx,
      (∀ l ∈ u.lines, l.addr ≠ r.line) ∧ ∀ i, i < 128 → ¬ s.ringPut u (128 * r.line + i) → Cells.get emptyByte u.mem (128 * r.line + i) = r.data.getD i 0) ∧
    (∀ a, (∀ r ∈ s.openUndo ctx, r.data.length = 128 ∧ a / 128 ≠ r.line) → ¬ s.ringPut u a → Cells.get emptyByte u.mem a = Cells.get emptyByte s.mem a) ∧
    u.openUndo ctx = [] ∧ u.l1 = [] ∧ (∀ q ∈ u.queues, getField q.cfg 55 6 = ctx → q.wait = .none)) ∧
  ((c.unprotected = true ∨ s.regs.rbmax.toNat ≤ c.attempts ∨ Config.undoLost (s.fresh + ctx) = true) →
    ∃ x, u.contexts[ctx]? = some x ∧ x.terminated = true ∧ x.created = false)

/-- Checkpoint intervals: the timer makes a close due, and a close that is due happens once no launch of the context runs; the next
interval opens protected, with no undo record and no attempt used, and is due at once while a region is still 75 % full. The T die
signs the chain's entries in order, 32 bytes of chain and 96 of signature in each place of the table (R425, R426, R429). -/
def intervalsClose : Prop := ∀ (s : State),
  (∀ c : Context, s.contexts[s.subject]? = some c → c.created = true →
    (c.opened + 100000 * s.regs.ckptiv.toNat ≤ s.timer.toNat → Sys2Proof.Machine.exec .checkpointTimer s =
      .next { s with contexts := modAt s.contexts s.subject fun c => { c with closeDue := true } }) ∧
    (s.timer.toNat < c.opened + 100000 * s.regs.ckptiv.toNat → Sys2Proof.Machine.exec .checkpointTimer s = .next s) ∧
    (c.closeDue = true → c.replay = [] → (∀ l ∈ s.launches, l.ctx = s.subject → l.state ≠ .running) →
      ∃ u x, Sys2Proof.Machine.exec .intervalClose s = .next u ∧
        (let base := s.contexts.set s.subject x
         u.contexts = if u.undoFilled then base.map (fun k => if k.created then { k with closeDue := true } else k) else base) ∧
        x.interval = c.interval + 1 ∧
        x.closeDue = false ∧ x.unprotected = false ∧ x.attempts = 0 ∧ x.opened = s.timer.toNat ∧
        (∀ k ∈ x.kept, k ∈ c.kept) ∧ (∀ d ∈ u.dies, ∀ r ∈ d.undoLog, r.ctx ≠ s.subject) ∧ u.cinderSeq = s.cinderSeq + 1 ∧
        s.memKept u ∧ u.lines = s.lines ∧ u.launches = s.launches ∧ u.teams = s.teams)) ∧
  ∀ d r, s.signDue = d :: r →
    let sig := Config.signature d.2
    let place := canonPa (s.regs.sigbase.toNat + 128 * (d.1 % 1024))
    Sys2Proof.Machine.exec .cinderSignature s = .next { s with
      signDue := r
      signatures := Cells.put (0, 0) s.signatures (d.1 % 1024) (d.2, sig)
      mem := if s.regs.sigbase = 0 then s.mem else putBytes s.mem place (digestBytes d.2 ++ bytesOfNat 96 sig.toNat)
      lineKeys := if s.regs.sigbase = 0 then s.lineKeys else Cells.put 0 s.lineKeys (place / 128) deviceKey }

/-- Boot: with exactly one position fused dead, the digest and the signature right, every die is live under incarnation 0 and a RESET
record opens the ring, which takes 256 MiB of the interleave window; otherwise boot stops with its code, 1, 2 or 3 (R406, R428). -/
def partBoots : Prop := ∀ (s : State) (d g : Bool), s.tdie.done = false → s.tdie.fail = 0 →
  let fails (n : BitVec 7) : Prop := Sys2Proof.Machine.exec (.packageBoot d g) s = .next { s with tdie := { s.tdie with fail := n } }
  (deadPosition = none → fails 1) ∧ (deadPosition ≠ none → d = false → fails 2) ∧ (deadPosition ≠ none → d = true → g = false → fails 3) ∧
  ∀ p, deadPosition = some p → d = true → g = true → ∃ u, Sys2Proof.Machine.exec (.packageBoot d g) s = .next u ∧ u.tdie.done = true ∧
    u.tdie.fail = 0 ∧ u.tdie.dead.toNat = p ∧ u.tdie.lret = Config.retiredLink ∧
    (u.dies = s.dies.map fun x => { x with state := .live, inc := 0, incTable := [0, 0, 0] }) ∧ u.remap.length = 144 ∧
    (∃ piece, piece < 384 ∧ u.cinderBase = windowBase + piece * 2 ^ 28) ∧
    u.cinderSeq = s.cinderSeq + 1 ∧ s.memKept u ∧ u.queues = s.queues ∧ u.contexts = s.contexts

/-- The remap table: every logical core maps to a core of its own die that no fuse retires, when one lives, and is its own core when it
and its cluster live (R417). -/
def coresRemap : Prop := ∀ l, l < 144 → remapOf l < 144 ∧ remapOf l / 48 = l / 48 ∧
  ((∃ c, c < 6 ∧ Config.clusterRetired (l / 48) c = false) → Config.clusterRetired (l / 48) (remapOf l / 8 % 6) = false) ∧
  ((∃ k, k < 8 ∧ Config.coreRetired (l / 48) (remapOf l / 8 % 6) k = false) →
    Config.coreRetired (l / 48) (remapOf l / 8 % 6) (remapOf l % 8) = false) ∧
  (Config.clusterRetired (l / 48) (l / 8 % 6) = false → Config.coreRetired (l / 48) (l / 8 % 6) (l % 8) = false → remapOf l = l) ∧
  field ((remapTable.getD l 0).toNat) 0 8 = remapOf l / 48 + 4 * (remapOf l / 8 % 6) + 32 * (remapOf l % 8)

/-- A period of the bellows, 50 µs by the timer after the one before (R6, R431, R436, R437): thermal caps follow the dies' sensors, power caps the package's power, every C domain
takes the least of its need and its caps, a U domain the higher of its C domains but no less than `BLW_UNCMIN`; a step newly at risk
raises vector 1, and in a period without one the first step past its deadline and not yet reported, those that closed before it
first, is reported (one record a period, R441; assumption log, entry 42). -/
def bellowsGovern : Prop := ∀ (s : State) (temps : List Nat) (power : Nat), s.domains.length = 9 →
  (s.steps.map StepRec.id).Nodup →
  (s.timer.toNat < s.bellowsAt + 5000 → Sys2Proof.Machine.exec (.bellowsPeriod temps power) s = .next s) ∧
  (s.bellowsAt + 5000 ≤ s.timer.toNat → ∃ u, u.bellowsAt = s.timer.toNat ∧
  Sys2Proof.Machine.exec (.bellowsPeriod temps power) s = .next u ∧ u.domains.length = 9 ∧
  let thr := s.regs.tthr.toNat
  let lim := s.regs.plim.toNat
  let ds := s.recap temps power
  let need (x : Nat) : Nat := (({ s with domains := ds } : State).domainNeed x).1
  let risky : List Nat := cDomains.flatMap fun x => (({ s with domains := ds } : State).domainNeed x).2
  (∀ (x : Nat) (d e : Domain), s.domains[x]? = some d → u.domains[x]? = some e →
    let t := temps.getD (x / 3) 0
    (maxJunction ≤ t → e.tcap = 0) ∧ (t < maxJunction → thr ≤ t → e.tcap = d.tcap - 1) ∧
    (t < maxJunction → t + 5 ≤ thr → e.tcap = min 9 (d.tcap + 1)) ∧ (t < maxJunction → t < thr → thr < t + 5 → e.tcap = d.tcap) ∧
    (x % 3 ≠ 2 → (lim < power → e.pcap = if x = highestDomain s.domains then d.pcap - 1 else d.pcap) ∧
      (power ≤ lim → 95 * lim < 100 * power → e.pcap = d.pcap) ∧ (100 * power ≤ 95 * lim → e.pcap = min 9 (d.pcap + 1))) ∧
    (x % 3 = 2 → e.pcap = d.pcap) ∧ e.point = d.point ∧ e.last = e.target ∧ e.retired = 0 ∧
    (x % 3 ≠ 2 → e.target = min (need x) (min e.tcap e.pcap)) ∧
    (x % 3 = 2 → ∀ a b, u.domains[x - 2]? = some a → u.domains[x - 1]? = some b →
      e.target = max (max a.target b.target) s.regs.uncmin.toNat)) ∧
  (∀ (i : Nat) (x y : StepRec), s.steps[i]? = some x → u.steps[i]? = some y → y.id = x.id ∧ y.deadline = x.deadline ∧ y.queue = x.queue ∧
    (y.overrun = true ↔ x.overrun = true ∨ (s.overdue = [] ∧ x.deadline < s.timer.toNat ∧ (∀ z, z ∈ s.steps → z.id ∈ risky → z.atRisk = true) ∧
      ∀ (j : Nat) (z : StepRec), j < i → s.steps[j]? = some z → z.deadline < s.timer.toNat → z.overrun = true)) ∧ (y.atRisk = true ↔ x.atRisk = true ∨ x.id ∈ risky)) ∧
  (u.interrupts = s.interrupts ++ List.replicate (s.steps.filter fun x => !x.atRisk && risky.contains x.id).length ⟨1, 0, 0, 0⟩) ∧
  (u.overdue = if ∀ z, z ∈ s.steps → z.id ∈ risky → z.atRisk = true then s.overdue.drop 1 else s.overdue) ∧
  u.steps.length = s.steps.length ∧ s.memKept u ∧ u.ops = s.ops ∧ u.teams.length = s.teams.length ∧
  ∀ (i : Nat) (t : Team), s.teams[i]? = some t → (t.begun = true ∨ t.residency = .ended) → u.teams[i]? = some t)

/-- A thermal trip caps its die's domains at once, and a domain settles at its target (R431, R437). -/
def domainsSettle : Prop := ∀ (s : State),
  (∃ u, Sys2Proof.Machine.exec .thermalTrip s = .next u ∧ { u with domains := [] } = { s with domains := [] } ∧
    u.domains.length = s.domains.length ∧ ∀ (x : Nat) (d : Domain), s.domains[x]? = some d → u.domains[x]? = some (if x / 3 = s.subject then
      { d with tcap := 0, target := if x % 3 = 2 then s.regs.uncmin.toNat else 0 } else d)) ∧
  Sys2Proof.Machine.exec .operatingPointSettle s =
    .next { s with domains := modAt s.domains s.subject fun d => { d with point := d.target } }

/-! ### Events: the command processor (R391, R392, R425, R432, R444-R454) -/

/-- A slot whose words beyond the third are zero. -/
def plainSlot (w0 w1 w2 : Word64) : QSlot := { low := ⟨w0, w1, w2, 0, 0, 0, 0, 0⟩, high := ⟨0, 0, 0, 0, 0, 0, 0, 0⟩ }

/-- A queue's head command, under way in its context. -/
structure QHead where
  q : Nat
  slot : QSlot
  qu : Queue
  c : Context

/-- The command that is parsed next (R445). -/
def State.parsing (s : State) (h : QHead) : Prop :=
  s.nextCommand = some (h.q, h.slot) ∧ s.queues[h.q]? = some h.qu ∧ s.contexts[h.qu.ctx]? = some h.c

/-- A queue has moved past its head command: its consumer index is one more and written back, or, while commands are parsed again, the
next of them comes; a command from the first launch of the interval on is kept (R425, R427, R444). -/
def State.passes (u : State) (h : QHead) (s : State) (launch : Option Nat) : Prop :=
  (∃ y, u.queues[h.q]? = some y ∧ y.held = none ∧ y.consumer = if h.c.replay = [] then (h.qu.consumer + 1) % 2 ^ 64 else h.qu.consumer) ∧
  (∃ x, u.contexts[h.qu.ctx]? = some x ∧ x.replay = h.c.replay.drop 1 ∧ (x.kept.map fun k => (k.queue, k.slot, k.launch)) =
    (h.c.kept.map fun k => (k.queue, k.slot, k.launch)) ++ if launch ≠ none ∨ h.c.kept ≠ [] then [(h.q, h.slot, launch)] else []) ∧
  u.hostMem = (if h.c.replay = [] then putBytes s.hostMem h.qu.cons.toNat (bytesOfNat 8 ((h.qu.consumer + 1) % 2 ^ 64)) else s.hostMem) ∧
  (∀ j, j ≠ h.q → u.queues[j]? = s.queues[j]?) ∧ (∀ j, j ≠ h.qu.ctx → u.contexts[j]? = s.contexts[j]?)

/-- The part without queues, contexts, host memory and the order of turns. -/
def State.unqueued (s : State) : State := { s with queues := [], contexts := [], hostMem := [], lastQueue := [] }

/-- A head command that stays at the head of its queue, waiting, as it was read (R444). -/
def State.waitsFor (s : State) (i : Instr) (h : QHead) (w : QueueWait) : Prop :=
  Sys2Proof.Machine.exec i s = .next { s with
    queues := modAt s.queues h.q fun x => { x with held := some h.slot, wait := w }
    lastQueue := modAt s.lastQueue h.qu.rank fun _ => h.q }

/-- A command that runs: its queue has passed it, and the rest of the part is `base` but for queues and contexts. -/
def State.accepts (s : State) (i : Instr) (h : QHead) (base : State) (y : Queue → Prop) : Prop :=
  ∃ u, Sys2Proof.Machine.exec i s = .next u ∧ u.passes h s none ∧ u.unqueued = base.unqueued ∧
    u.lastQueue = (modAt s.lastQueue h.qu.rank fun _ => h.q) ∧ ∀ x, u.queues[h.q]? = some x → y x

/-- SEED, WAITH, SIGNAL, CKPT, HANDLE, INVTLB and STEP, each at the head of its queue (R425, R432, R446, R450, R453). -/
def commandsRun : Prop := ∀ (s : State) (h : QHead), s.parsing h →
  let keeps (x : Queue) : Prop := x.wait = h.qu.wait ∧ x.seed = h.qu.seed ∧ x.signals = h.qu.signals ∧ x.cfg = h.qu.cfg
  let ctx := h.qu.ctx
  let writerEnded (n : Nat) : Prop := ∀ b, s.bufHandle? n = some b → ∀ w, b.writer = some w →
    ∀ l, s.launches[w]? = some l → launchEnded l = true
  (∀ v, h.slot = plainSlot 3 v 0 → s.accepts (.seed h.q h.slot) h (s.record 0x04 h.q 0 (bytesOfNat 8 v.toNat)) fun x =>
    x.seed = v ∧ x.wait = h.qu.wait ∧ x.signals = h.qu.signals ∧ x.cfg = h.qu.cfg) ∧
  (∀ n, n < 4096 → h.slot = plainSlot (BitVec.ofNat 64 (4 + 2 ^ 16 * n)) 0 0 →
    (((s.bufHandle? n).bind BufHandle.writer) = none → s.accepts (.waith h.q h.slot) h s keeps) ∧
    (((s.bufHandle? n).bind BufHandle.writer).isSome = true → writerEnded n → s.accepts (.waith h.q h.slot) h { s with l1 := [] } keeps) ∧
    ∀ b w l, s.bufHandle? n = some b → b.writer = some w → s.launches[w]? = some l → launchEnded l = false →
      s.waitsFor (.waith h.q h.slot) h (.writer w)) ∧
  (∀ (irq : Bool) addr v, addr.toNat % 8 = 0 → h.slot = plainSlot (if irq then 0x105 else 0x005) addr v →
    s.accepts (.signal h.q h.slot) h s fun x =>
      x.signals = h.qu.signals ++ [(irq, addr, v, s.launches.length)] ∧ x.wait = h.qu.wait ∧ x.seed = h.qu.seed) ∧
  (h.slot = plainSlot 6 0 0 → s.accepts (.ckpt h.q h.slot) h s keeps ∧
    ∀ u, Sys2Proof.Machine.exec (.ckpt h.q h.slot) s = .next u → (u.contexts[ctx]?).map Context.closeDue = some true) ∧
  (∀ n (hv : Bool) (base len : Word64), n < 4096 → base.toNat % 128 = 0 → base.toNat < 2 ^ 48 → base.toNat + len.toNat ≤ 2 ^ 48 →
    h.slot = plainSlot (BitVec.ofNat 64 (7 + 2 ^ 16 * n + if hv then 2 ^ 28 else 0)) base len →
    let b := (s.bufHandle? n).getD BufHandle.none
    let new : BufHandle := if len = 0 then BufHandle.none
      else { b with ctx := ctx, base := base.toNat, len := len.toNat, hv := hv, dirtyInput := true }
    (s.listed n = false → s.accepts (.handle h.q h.slot) h { s with handles := Cells.put BufHandle.none s.handles n new } keeps) ∧
    (s.listed n = true → s.waitsFor (.handle h.q h.slot) h (.register n hv base.toNat len.toNat))) ∧
  (∀ (base len : Word64), base.toNat % 65536 = 0 → base.toNat < 2 ^ 48 → base.toNat + len.toNat ≤ 2 ^ 48 → h.slot = plainSlot 8 base len →
    ((∀ l ∈ s.launches, l.ctx = ctx → launchEnded l = true) → s.enginesBusy ctx = false →
      s.accepts (.invtlb h.q h.slot) h (s.dropTrans ctx base.toNat len.toNat) keeps) ∧
    (((∃ l ∈ s.launches, l.ctx = ctx ∧ launchEnded l = false) ∨ s.enginesBusy ctx = true) →
      s.waitsFor (.invtlb h.q h.slot) h (.inval base.toNat len.toNat s.launches.length))) ∧
  (∀ id budget : Nat, 1 ≤ id → id < 2 ^ 32 → 1 ≤ budget → budget ≤ 1000000 →
    h.slot = plainSlot (BitVec.ofNat 64 (2 + 2 ^ 32 * id)) (BitVec.ofNat 64 budget) 0 →
    let moved := s.steps.map fun x => if x.queue = some h.q ∧ x.id ≠ id then { x with queue := none } else x
    let stays (x : StepRec) : Bool := x.queue.isSome || s.launches.any fun l => !launchEnded l && l.steps.contains x.id
    let open_ := moved.filter stays
    let owing := (moved.filter fun x => !stays x && x.deadline < s.timer.toNat && !x.overrun).map StepRec.id
    let due := s.timer.toNat + 100 * budget
    ((∀ x ∈ open_, x.id ≠ id) → open_.length < 16 → ∃ u, Sys2Proof.Machine.exec (.step h.q h.slot) s = .next u ∧ u.passes h s none ∧
      u.steps = open_ ++ [⟨id, s.launches.length, due, some h.q, false, false, false⟩] ∧ u.overdue = s.overdue ++ owing ∧
      u.cinderSeq = s.cinderSeq + 1 ∧ u.launches = s.launches ∧ s.memKept u) ∧
    ((∃ x ∈ open_, x.id = id) → ∃ u, Sys2Proof.Machine.exec (.step h.q h.slot) s = .next u ∧ u.passes h s none ∧
      (u.steps.map StepRec.id) = open_.map StepRec.id ∧ (∀ x ∈ u.steps, x.id = id → x.deadline ≤ due ∧ x.queue.isSome = true) ∧
      u.cinderSeq = s.cinderSeq + 1 ∧ u.launches = s.launches ∧ s.memKept u) ∧
    ((∀ x ∈ open_, x.id ≠ id) → 16 ≤ open_.length → Sys2Proof.Machine.exec (.step h.q h.slot) s =
      .next { s with steps := open_, overdue := s.overdue ++ owing
                     queues := modAt s.queues h.q fun x => { x with held := some h.slot, wait := .none }
                     lastQueue := modAt s.lastQueue h.qu.rank fun _ => h.q }))

/-- `INVTLB` drops the cached translations of a context that meet a range, all of them for length 0 (R453). -/
def translationsDrop : Prop := ∀ (s : State) (ctx base len d : Nat) (die : Die) (e : TlbEntry), s.dies[d]? = some die → e ∈ die.tlb →
  ∃ x, (s.dropTrans ctx base len).dies[d]? = some x ∧ (∀ y ∈ x.tlb, y ∈ die.tlb) ∧
    (e ∈ x.tlb ↔ ¬ (e.ctx = ctx ∧ (len = 0 ∨ (base < e.page + e.size ∧ e.page < base + len))))

/-- The slots that hold a well-formed command other than LAUNCH (R446). -/
def goodCommand (slot : QSlot) : Prop :=
  (∃ v, slot = plainSlot 3 v 0) ∨ (∃ n, n < 4096 ∧ slot = plainSlot (BitVec.ofNat 64 (4 + 2 ^ 16 * n)) 0 0) ∨
  (∃ irq addr v, addr.toNat % 8 = 0 ∧ slot = plainSlot (if irq = true then 0x105 else 0x005) addr v) ∨ slot = plainSlot 6 0 0 ∨
  (∃ (n : Nat) (hv : Bool) (base len : Word64), n < 4096 ∧ base.toNat % 128 = 0 ∧ base.toNat < 2 ^ 48 ∧ base.toNat + len.toNat ≤ 2 ^ 48 ∧
    slot = plainSlot (BitVec.ofNat 64 (7 + 2 ^ 16 * n + if hv then 2 ^ 28 else 0)) base len) ∨
  (∃ base len : Word64, base.toNat % 65536 = 0 ∧ base.toNat < 2 ^ 48 ∧ base.toNat + len.toNat ≤ 2 ^ 48 ∧ slot = plainSlot 8 base len) ∨
  ∃ id budget : Nat, 1 ≤ id ∧ id < 2 ^ 32 ∧ 1 ≤ budget ∧ budget ≤ 1000000 ∧
    slot = plainSlot (BitVec.ofNat 64 (2 + 2 ^ 32 * id)) (BitVec.ofNat 64 budget) 0

/-- A queue that refuses its head command: it halts with the status and the slot's place, and its vector is raised (R448). -/
def State.refuses (s : State) (i : Instr) (h : QHead) (status : Nat) : Prop :=
  Sys2Proof.Machine.exec i s = .next { s with
    queues := modAt s.queues h.q fun x =>
      { x with held := none, halted := true, status := BitVec.ofNat 8 status, refused := h.qu.consumer % 2 ^ (getField h.qu.cfg 48 4 + 1) }
    lastQueue := modAt s.lastQueue h.qu.rank fun _ => h.q
    interrupts := s.interrupts ++ [⟨3 + h.q, h.qu.ctx, 0, 0⟩] }

/-- A malformed command is refused with status 1, and a launch record with the first status that R448 gives it; a refused slot runs in
no part. While a close of its context's interval is due, or its page table cannot be read (R405, R425), a launch record waits unjudged. -/
def commandsRefused : Prop := ∀ (s : State) (h : QHead), s.parsing h → let code := h.slot.low.w0.toNat % 256
  (¬ goodCommand h.slot → (code = 2 → s.refuses (.step h.q h.slot) h 1) ∧ (code = 3 → s.refuses (.seed h.q h.slot) h 1) ∧
    (code = 4 → s.refuses (.waith h.q h.slot) h 1) ∧ (code = 5 → s.refuses (.signal h.q h.slot) h 1) ∧
    (code = 6 → s.refuses (.ckpt h.q h.slot) h 1) ∧ (code = 7 → s.refuses (.handle h.q h.slot) h 1) ∧
    (code = 8 → s.refuses (.invtlb h.q h.slot) h 1)) ∧
  (slotCode h.slot = 1 → s.launchHeld h.qu.ctx = true → Sys2Proof.Machine.exec (.launch h.q h.slot) s =
    .next { s with queues := modAt s.queues h.q fun x => { x with held := some h.slot, wait := .none } }) ∧
  (slotCode h.slot = 1 → s.launchHeld h.qu.ctx = false → let status := s.launchStatus h.qu.ctx (h.qu.cfg.getLsbD 52) (slotNat h.slot)
    status ≠ 0 → s.refuses (.launch h.q h.slot) h status)

/-- The statuses that refuse a launch record for what its fields say alone: a reserved bit or a count out of range is 1 (R447, R448). -/
def recordsMalformed : Prop := ∀ (s : State) (ctx : Nat) (a : Bool) (r : Nat),
  ((field r 0 8 ≠ 1 ∨ field r 12 4 ≠ 0 ∨ field r 28 4 ≠ 0 ∨ field r 112 16 ≠ 0 ∨ field r 192 24 = 0 ∨ field r 216 12 = 0 ∨
    field r 228 12 = 0 ∨ 2 ^ 24 ≤ field r 192 24 * field r 216 12 * field r 228 12 ∨ field r 240 4 = 0 ∨ 8 < field r 240 4 ∨
    16 < field r 244 5) → s.launchStatus ctx a r = 1) ∧ s.launchStatus ctx a r ≤ 9

/-- A launch record that passes every check becomes a launch under the next number, or under its old one when a rollback has it parsed
again, with the kernel, code, seed and dependences it is
parsed with; its handles' readers and writers are entered, and its queue goes on (R392, R447-R450). -/
def launchesParse : Prop := ∀ (s : State) (h : QHead) (p : LaunchPlan) (es : List (Nat × Bool × Bool)), s.parsing h →
  slotCode h.slot = 1 → s.launchHeld h.qu.ctx = false → let r := slotNat h.slot
  let ordinal := ((((h.c.replay.head?).bind Kept.launch).bind fun li => s.launches[li]?).map Launch.ordinal).getD s.launchCount
  s.launchStatus h.qu.ctx (h.qu.cfg.getLsbD 52) r = 0 → s.launchPlan h.qu.ctx r = some p → s.handleList h.qu.ctx r = some es →
  (p.fallback = none ∨ (s.regs.replay = false ∧ ∀ x ∈ s.steps, x.switched = false) ∨
    (s.regs.replay = true ∧ ordinal ∉ s.replaying)) →
  ∃ u l, Sys2Proof.Machine.exec (.launch h.q h.slot) s = .next u ∧ u.passes h s (some s.launches.length) ∧
    u.launches = s.launches ++ [l] ∧ u.launchCount = max s.launchCount (ordinal + 1) ∧ l.ordinal = ordinal ∧ l.num = BitVec.ofNat 16 ordinal ∧
    l.queue = h.q ∧ l.ctx = h.qu.ctx ∧
    l.slot = h.slot ∧ l.classA = h.qu.cfg.getLsbD 52 ∧ l.kernel = p.kernel ∧ l.kernels = p.obj.kernels ∧ l.code = p.obj.code ∧
    l.codeVa = p.obj.codeVa ∧ l.const = p.obj.const ∧ l.handlerCode = none ∧ l.state = .waiting ∧ l.deps = s.depsOf es ∧
    l.seed = ((h.c.replay.head?).map Kept.seed).getD h.qu.seed ∧ l.steps = (if field r 32 32 = 0 then [] else [field r 32 32]) ∧
    (l.reads = (es.filter fun e => e.2.1).map Prod.fst) ∧ (l.writes = (es.filter fun e => e.2.2).map Prod.fst) ∧
    (∀ e ∈ es, ∀ b, s.bufHandle? e.1 = some b → ∃ y, u.bufHandle? e.1 = some y ∧ y.base = b.base ∧ y.len = b.len ∧
      (e.2.2 = true → y.writer = some s.launches.length ∧ y.readers = []) ∧ (e.2.2 = false → y.writer = b.writer ∧ s.launches.length ∈ y.readers)) ∧
    u.teams = s.teams ∧ u.clusters = s.clusters ∧ s.memKept u ∧ u.ops = s.ops ∧ u.interrupts = s.interrupts

/-- The launches a handle list makes a launch depend on: the last writer of each handle, and, for one it writes, its readers (R392). -/
def dependencesHold : Prop := ∀ (s : State) (es : List (Nat × Bool × Bool)) (l : Nat), l ∈ s.depsOf es ↔
  ∃ e ∈ es, ∃ b, s.bufHandle? e.1 = some b ∧ (b.writer = some l ∨ (e.2.2 = true ∧ l ∈ b.readers))

/-- Waiting commands end when what they wait for has come, and a queue's oldest signal is written once the launches parsed before it
from its queue have ended (R446, R450, R453). -/
def waitsEnd : Prop := ∀ (s : State) (h : QHead), h.q = s.subject → s.queues[h.q]? = some h.qu → s.contexts[h.qu.ctx]? = some h.c →
  h.qu.held = some h.slot →
  let ends (i : Instr) (base : State) : Prop := ∃ u, Sys2Proof.Machine.exec i s = .next u ∧ u.passes h s none ∧ u.unqueued = base.unqueued ∧
    u.lastQueue = s.lastQueue ∧ (u.queues[h.q]?).map Queue.wait = some .none
  let stays (i : Instr) : Prop := Sys2Proof.Machine.exec i s = .next s
  (∀ w, h.qu.wait = .writer w → (s.ended w = true → ends .waithRelease { s with l1 := [] }) ∧ (s.ended w = false → stays .waithRelease)) ∧
  (∀ n hv base len, h.qu.wait = .register n hv base len →
    let b := (s.bufHandle? n).getD BufHandle.none
    let new : BufHandle := if len = 0 then BufHandle.none else { b with ctx := h.qu.ctx, base := base, len := len, hv := hv, dirtyInput := true }
    (s.listed n = false → ends .handleApply { s with handles := Cells.put BufHandle.none s.handles n new }) ∧
    (s.listed n = true → stays .handleApply)) ∧
  (∀ base len n, h.qu.wait = .inval base len n →
    ((∀ l ∈ s.launches.take n, l.ctx = h.qu.ctx → launchEnded l = true) → s.enginesBusy h.qu.ctx = false → ends .invtlbExecute (s.dropTrans h.qu.ctx base len)) ∧
    (((∃ l ∈ s.launches.take n, l.ctx = h.qu.ctx ∧ launchEnded l = false) ∨ s.enginesBusy h.qu.ctx = true) → stays .invtlbExecute)) ∧
  ∀ irq addr v n rest, h.qu.signals = (irq, addr, v, n) :: rest →
    ((∀ l ∈ s.launches.take n, l.queue = h.q → launchEnded l = true) → Sys2Proof.Machine.exec .signalWrite s = .next { s with
      queues := modAt s.queues h.q fun x => { x with signals := rest }
      hostMem := putBytes s.hostMem addr.toNat (bytesOfNat 8 v.toNat)
      interrupts := s.interrupts ++ if irq then [⟨3 + h.q, h.qu.ctx, 0, 0⟩] else [] }) ∧
    ((∃ l ∈ s.launches.take n, l.queue = h.q ∧ launchEnded l = false) → stays .signalWrite)

/-- A launch starts once the launches it depends on have ended: its code and its handlers' are read, L1s are dropped for what it depends on, a cooperative
launch takes a die barrier of every live die, and a free launch's cluster-teams are divided over the clusters (R60, R211, R304, R349, R392). -/
def launchesStart : Prop := ∀ (s : State) (l : Launch), s.launches[s.subject]? = some l →
  (s.mayStart l = false → Sys2Proof.Machine.exec .launchStart s = .next s) ∧
  (s.mayStart l = true → ∃ u x, Sys2Proof.Machine.exec .launchStart s = .next u ∧ u.launches = s.launches.set s.subject x ∧
    { x with code := l.code, state := l.state, handlerCode := l.handlerCode } = l ∧ x.state = .running ∧ x.handlerCode = s.handlerCodeOf l.ctx ∧
    (∀ bs, s.ctxRead l.ctx l.codeVa (8 * l.code.length) = some bs → x.code = wordsOf bs) ∧
    u.l1 = (if l.deps = [] then s.l1 else []) ∧
    (∀ (d : Nat) (die : Die), s.dies[d]? = some die → u.dies[d]? = some
      (if l.coop = true ∧ die.state = .live then { die with barriers := die.barriers ++ [s.subject] } else die)) ∧
    (l.ordered = true → u.clusters = s.clusters) ∧
    (l.ordered = false → u.clusters.length = s.clusters.length ∧ ∀ (c : Nat) (k k' : Cluster), s.clusters[c]? = some k → u.clusters[c]? = some k' →
      { k' with shares := k.shares } = k ∧ ∃ new, k'.shares = k.shares ++ new ∧ ∀ sh, sh ∈ new ↔ sh.launch = s.subject ∧ sh.next < sh.stop ∧
        (c, sh.next, sh.stop) ∈ s.dividedShares ((l.teamCount + l.cts - 1) / l.cts) l.classA) ∧
    u.teams = s.teams ∧ u.mem = s.mem ∧ u.ops = s.ops)

/-- The clusters' shares of `g` cluster-teams hold each index once, in rising order, and only clusters that serve the class get
any; no two clusters of a die differ by more than one (R304). -/
def sharesDivide : Prop := ∀ (s : State) (g : Nat) (a : Bool), s.clusters.length = 6 * s.dies.length →
  let ds := s.dividedShares g a
  (∀ x ∈ ds, x.2.1 ≤ x.2.2 ∧ x.2.2 ≤ g ∧ s.clusterServes x.1 a = true) ∧
  ((∃ c, c < s.clusters.length ∧ s.clusterServes c a = true) → ∀ i, i < g → ∃ x ∈ ds, (x.2.1 ≤ i ∧ i < x.2.2) ∧
    ∀ y ∈ ds, y.2.1 ≤ i → i < y.2.2 → y = x) ∧
  ∀ x ∈ ds, ∀ y ∈ ds, x.1 / 6 = y.1 / 6 → x.2.2 - x.2.1 ≤ y.2.2 - y.2.1 + 1

/-- Queue control: a halted queue goes on at its slot or past it, and `KILL` ends every unended launch of the queue and no other (R448,
R454). -/
def queuesControlled : Prop := ∀ (s : State),
  Sys2Proof.Machine.exec .qctlResume s = .next { s with queues := modAt s.queues s.subject fun q => { q with halted := false } } ∧
  (∀ qu c, s.queues[s.subject]? = some qu → s.contexts[qu.ctx]? = some c →
    (qu.halted = false → Sys2Proof.Machine.exec .qctlResumeSkip s = .next s) ∧
    (qu.halted = true → ∃ u y, Sys2Proof.Machine.exec .qctlResumeSkip s = .next u ∧ u.queues = s.queues.set s.subject y ∧ y.halted = false ∧
      (c.replay = [] → qu.ahead ≠ 0 → y.consumer = (qu.consumer + 1) % 2 ^ 64 ∧
        u.hostMem = putBytes s.hostMem qu.cons.toNat (bytesOfNat 8 ((qu.consumer + 1) % 2 ^ 64))) ∧
      (c.replay = [] → qu.ahead = 0 → y.consumer = qu.consumer ∧ u.hostMem = s.hostMem) ∧
      (c.replay ≠ [] → y.consumer = qu.consumer ∧ (u.contexts[qu.ctx]?).map Context.replay = some (c.replay.drop 1)))) ∧
  ∃ u, Sys2Proof.Machine.exec .qctlKill s = .next u ∧ u.queues = s.queues ∧ u.contexts = s.contexts ∧ s.memKept u ∧ u.lines = s.lines ∧
    (∀ i : Nat, (u.launches[i]?).map Launch.state = (s.launches[i]?).map fun (l : Launch) =>
      if l.queue = s.subject ∧ (l.state = .waiting ∨ l.state = .running) then .killed else l.state) ∧
    ∀ (t : Nat) (tm : Team) (l : Launch), s.teams[t]? = some tm → s.launches[tm.launch]? = some l →
      (l.queue ≠ s.subject → u.teams[t]? = some tm) ∧
      (l.queue = s.subject → (l.state = .waiting ∨ l.state = .running) → tm.ended = none → (u.teams[t]?).bind Team.ended = some .killed)

/-- Context control (R282, R312, R451, R453, R454): a context is created from its record, goes on with its first held stop as a `TRET`
resumes it, or ends; `INVCTL` drops translations once the context's engine commands are done. -/
def contextsControlled : Prop := ∀ (s : State) (c : Context), s.contexts[s.subject]? = some c →
  let rec_ := natOfBytes (s.homeBytes 0 (s.regs.ctxbase.toNat + 64 * s.subject) 64)
  (c.created = false → s.tdie.done = false → Sys2Proof.Machine.exec .ctxctlCreate s = .next s) ∧
  (c.created = false → s.tdie.done = true → ∃ u x, Sys2Proof.Machine.exec .ctxctlCreate s = .next u ∧
    u = ({ s with contexts := s.contexts.set s.subject x } : State).dueByUndo ∧
    x.created = true ∧ x.stopped = false ∧ x.terminated = false ∧ x.root = field rec_ 0 48 ∧ x.htab = field rec_ 64 48 ∧
    x.hobj = field rec_ 128 48 ∧ x.save = field rec_ 192 48 ∧ x.saveSz = field rec_ 256 16 ∧ x.interval = 0 ∧ x.attempts = 0 ∧
    x.unprotected = false ∧ x.opened = s.timer.toNat) ∧
  (c.stopped = true → s.halted s.subject = [] → Sys2Proof.Machine.exec .ctxctlResume s =
    .next { s with contexts := modAt s.contexts s.subject fun c => { c with stopped := false } }) ∧
  (∀ k st rest, c.stopped = true → s.halted s.subject = (k, st) :: rest →
    let s1 : State := { s with
      clusters := modAt s.clusters k fun c => { c with stops := c.stops.filter fun x => x ≠ st }
      contexts := modAt s.contexts s.subject fun c => { c with stopped := decide (rest ≠ []) } }
    Sys2Proof.Machine.exec .ctxctlResume s = .next (s1.returnFromStop st.team st.grp)) ∧
  (c.created = true → ∃ u, Sys2Proof.Machine.exec .ctxctlTerminate s = .next u ∧ { u with steps := [], overdue := [] } =
    { s.terminate s.subject s.teams.length 0 with steps := [], overdue := [] }) ∧
  ∀ v : Word64, v.getLsbD 0 = true → s.tdie.done = true → ∃ u, Sys2Proof.Machine.exec (.invctlGo v) s = .next u ∧
    let busy := s.enginesBusy (v.toNat / 2 ^ 8 % 64)
    (busy = true → u = { s with regs := { s.regs with invdone := false, invgo := some v } }) ∧
    (busy = false → u.regs = { s.regs with invdone := true, invgo := none } ∧
      u.dies = (s.dropTrans (v.toNat / 2 ^ 8 % 64) (v.toNat / 2 ^ 16 % 2 ^ 32 * 2 ^ 16) s.regs.invlen.toNat).dies ∧
      { u with regs := s.regs, dies := s.dies } = s)

/-- A return from a stop that its saved status allows: the group runs again, or ends when every thread has exited, with INH clear and its
registers kept; a reserved bit or a position past its clause ends its context (R280, R281). -/
def stopsReturn : Prop := ∀ (s : State) (t gi : Nat) (g : Group), s.group? t gi = some g →
  let ctx := ((s.launchOf t).map Launch.ctx).getD 0
  let bad : Prop := g.ssw0.toNat / 2 ^ 48 ≠ 0 ∨ g.ssw1.toNat / 2 ^ 16 ≠ 0 ∨
    posBeyond (s.codeOf (.group t gi)).1 g = true
  (bad → s.returnFromStop t gi = s.terminate ctx t g.ssw0) ∧
  (¬ bad → ∃ g', (s.returnFromStop t gi).group? t gi = some g' ∧ g'.run = (if allExited g then .ended else .running) ∧
    g'.ssw0 = setField g.ssw0 8 1 0 ∧ g.still { g' with ssw0 := g.ssw0 } ∧ (s.returnFromStop t gi).bare = s.bare ∧
    ∀ j, j ≠ .group t gi → (s.returnFromStop t gi).unitOf j = s.unitOf j)

/-! ### Events: registers, BAR4 and SPDM (R5, R404, R407, R413, R443-R459) -/

/-- A doorbell moves a queue's producer index; one that runs more slots ahead than the queue has halts it; before the part has booted it is not offered (R406, R444). -/
def doorbellsRing : Prop := ∀ (s : State) (q : Nat) (index : BitVec 64) (qu : Queue), s.queues[q]? = some qu →
  let ahead := (index.toNat + 2 ^ 64 - qu.consumer) % 2 ^ 64
  (s.tdie.done = false → Sys2Proof.Machine.exec (.doorbell q index) s = .next s) ∧ (s.tdie.done = true →
  (ahead ≤ qu.slots → Sys2Proof.Machine.exec (.doorbell q index) s =
    .next { s with queues := modAt s.queues q fun x => { x with producer := index.toNat } }) ∧
  (qu.slots < ahead → Sys2Proof.Machine.exec (.doorbell q index) s = .next { s with
    queues := modAt s.queues q fun x =>
      { x with producer := index.toNat, halted := true, status := 1, refused := x.consumer % x.slots }
    interrupts := s.interrupts ++ [⟨3 + q, qu.ctx, 0, 0⟩] }))

/-- A register write takes its field's bits, and a read-only register keeps its value; a value outside the range of a field leaves one
that no rule gives; before the part has booted none is offered (R5, R406). -/
def registersTake : Prop := ∀ (s : State) (v : Word64),
  let n := v.toNat
  let sets (r : DevReg) (regs : DevRegs) : Prop := ∃ u, Sys2Proof.Machine.exec (.registerWrite r v) s = .next u ∧
    { u with fresh := s.fresh } = { s with regs := regs }
  let dies (r : DevReg) (d : Nat) (f : Die → Die) : Prop := ∃ u, Sys2Proof.Machine.exec (.registerWrite r v) s = .next u ∧
    { u with fresh := s.fresh } = { s with dies := modAt s.dies d f }
  (∀ x, Sys2Proof.Machine.exec (.registerWrite (.readOnly x) v) s = .next s) ∧
  (s.tdie.done = false → ∀ r, Sys2Proof.Machine.exec (.registerWrite r v) s = .next s) ∧ (s.tdie.done = true →
  sets .ctxbase { s.regs with ctxbase := BitVec.ofNat 48 (n / 4096 * 4096) } ∧ sets .invlen { s.regs with invlen := v.truncate 48 } ∧
  sets .obbase { s.regs with obbase := v } ∧ sets .ibmap { s.regs with ibmap := v &&& 0x01FFFFFFC0000000 } ∧
  (n % 128 ≤ 100 → sets .parkth { s.regs with parkth := v.truncate 7 }) ∧ sets .drainth { s.regs with drainth := v.truncate 16 } ∧
  sets .classa { s.regs with classa := v.truncate 18 } ∧
  (1 ≤ n % 1024 → n % 1024 ≤ 1000 → sets .ckptiv { s.regs with ckptiv := v.truncate 10 }) ∧
  (1 ≤ n % 16 → sets .rbmax { s.regs with rbmax := v.truncate 4 }) ∧
  (64 ≤ n % 65536 → n % 65536 ≤ 16384 → sets .mlog { s.regs with mlog := v.truncate 16 }) ∧
  sets .guard { s.regs with guard := v.truncate 16 } ∧
  (200 ≤ n % 512 → n % 512 ≤ 480 → sets .plim { s.regs with plim := v.truncate 9 }) ∧
  (n % 16 ≤ 9 → sets .defop { s.regs with defop := v.truncate 4 } ∧ sets .uncmin { s.regs with uncmin := v.truncate 4 }) ∧
  (60 ≤ n % 256 → n % 256 ≤ 125 → sets .tthr { s.regs with tthr := v.truncate 8 }) ∧
  sets .replay { s.regs with replay := v.getLsbD 0 } ∧
  (∀ d, (256 ≤ n % 65536 → n % 65536 ≤ 8192 → dies (.undo d) d fun x => { x with undo := v.truncate 16 }) ∧
    (dies (.mcres d) d fun x => { x with mcres := v.truncate 6 }) ∧
    (1 ≤ n % 256 → dies (.scrub d) d fun x => { x with scrub := v.truncate 8 })) ∧
  ∀ q qu, s.queues[q]? = some qu →
    (Sys2Proof.Machine.exec (.registerWrite (.qcons q) v) s = .next { s with queues := modAt s.queues q fun x =>
      { x with cons := BitVec.ofNat 48 (n % 2 ^ 48 / 8 * 8) } }) ∧
    (n % 256 ≤ 9 → Sys2Proof.Machine.exec (.registerWrite (.qstat q) v) s = .next { s with queues := modAt s.queues q fun x =>
      { x with status := v.truncate 8, refused := n / 2 ^ 16 % 2 ^ 16 } }) ∧
    ∃ u y, Sys2Proof.Machine.exec (.registerWrite (.qcfg q) v) s = .next u ∧ u.queues = s.queues.set q y ∧
      (∀ i, i < 63 → y.cfg.getLsbD i = (v.getLsbD i && decide (7 ≤ i) && decide (i ≠ 61) && decide (i ≠ 62))) ∧
      y.cfg.getLsbD 63 = (if qu.ahead = 0 then v.getLsbD 63 else qu.cfg.getLsbD 63) ∧
      y.seed = (if y.cfg.getLsbD 63 = true ∧ qu.cfg.getLsbD 63 = false then 0 else qu.seed) ∧
      (n / 2 ^ 48 % 16 < 3 → y.halted = true ∧ y.status = 1) ∧ (3 ≤ n / 2 ^ 48 % 16 → y.halted = qu.halted ∧ y.status = qu.status) ∧
      { u with queues := [], interrupts := [] } = { s with queues := [], interrupts := [] })

/-- Requests at BAR4 (R459): a read answers with bytes of their home slices, a write and an AtomicOp go there, an AtomicOp answers with the
old value, and an extent that leaves BAR4 or device memory is an Unsupported Request. A request waits while a die of its way is in reset, and none is
offered before the part has booted (R399, R405, R406). -/
def inboundServed : Prop := ∀ (s : State) (o n : Nat), let m := s.regs.ibmap
  let key := 1 + 8 * (m.toNat / 2 ^ 48 % 64) + m.toNat / 2 ^ 54 % 8
  let base := m.toNat % 2 ^ 48
  let inside (n : Nat) : Prop := o + n ≤ 2 ^ (30 + s.regs.bar4) ∧ ∀ i, i < n → inDevice (base + o + i) = true
  let open_ (n : Nat) : Prop := s.tdie.done = true ∧ ∀ i, i < n → inDevice (base + o + i) = true →
    ∀ d ∈ s.inboundDies (base + o + i), ∃ e : Die, s.dies[d]? = some e ∧ e.state = .live
  let answers (i : Inbound) (r : InboundReply) (p : State → Prop) : Prop := ∃ u, Sys2Proof.Machine.exec (.inboundRequest i) s = .next u ∧
    u.inbound = s.inbound ++ [r] ∧ u.teams = s.teams ∧ u.hostMem = s.hostMem ∧ u.reqs = s.reqs ∧ p u
  let same (u : State) : Prop := u.lines = s.lines ∧ u.mem = s.mem
  let holds (bs : List Byte) (u : State) : Prop := ∀ i, i < bs.length → u.homeByte key (canonPa (base + o + i)) = bs.getD i 0
  (∀ i, ¬ open_ (inboundExtent i).2 → (inboundExtent i).1 = o → Sys2Proof.Machine.exec (.inboundRequest i) s = .next s) ∧
  (open_ n → (inside n → answers (.read o n) (.data (s.homeBytes key (base + o) n)) same) ∧ (¬ inside n → answers (.read o n) .unsupported same)) ∧
  (∀ bs : List Byte, open_ bs.length → (¬ inside bs.length → answers (.write o bs) .unsupported same) ∧
    (inside bs.length → (base + o) % 32 + bs.length ≤ 32 → answers (.write o bs) .written (holds bs))) ∧
  ∀ (wide : Bool) (v cmp : Word64), let size := if wide then 8 else 4
    open_ size →
    let old := natOfBytes (s.homeBytes key (base + o) size)
    let cut (x : Word64) : Nat := x.toNat % 2 ^ (8 * size)
    let atomic (i : Inbound) (new : Nat) : Prop := (¬ inside size → answers i .unsupported same) ∧
      (inside size → (base + o) % size = 0 → answers i (.data (bytesOfNat size old)) (holds (bytesOfNat size new)))
    atomic (.fetchAdd o wide v) ((old + cut v) % 2 ^ (8 * size)) ∧ atomic (.swap o wide v) (cut v) ∧
    atomic (.cas o wide cmp v) (if old = cut cmp then cut v else old)

/-- SPDM: each message is answered in the phase that takes it and leaves the phase it leads to, and is answered with an error in any
other. A session opens only where AES-256-GCM was offered; measurement 5 covers the fuses and 6 the remap table (R407). -/
def spdmAnswers : Prop := ∀ (s : State),
  let answers (i : Instr) (p : SpdmPhase) (r : SpdmReply) : Prop := ∃ u, Sys2Proof.Machine.exec i s = .next u ∧
    u.spdm = p ∧ u.spdmReplies = s.spdmReplies ++ [r] ∧ { u with spdm := s.spdm, spdmReplies := [], fresh := 0 } =
      { s with spdmReplies := [], fresh := 0 }
  let errs (i : Instr) : Prop := Sys2Proof.Machine.exec i s = .next { s with spdmReplies := s.spdmReplies ++ [.error] }
  let open_ : Prop := (∃ b, s.spdm = .negotiated b) ∨ s.spdm = .keyExchanged ∨ s.spdm = .session
  answers .spdmGetVersion .version .version ∧
  (s.spdm = .version → answers .spdmGetCapabilities .capabilities .capabilities) ∧ (s.spdm ≠ .version → errs .spdmGetCapabilities) ∧
  (∀ a, let ok : Prop := s.spdm = .capabilities ∧ SpdmAlgorithm.ecdsaP384 ∈ a ∧ SpdmAlgorithm.sha384 ∈ a
    (ok → answers (.spdmNegotiateAlgorithms a) (.negotiated (decide (SpdmAlgorithm.aes256Gcm ∈ a))) .algorithms) ∧ (¬ ok → errs (.spdmNegotiateAlgorithms a))) ∧
  (open_ → answers .spdmGetDigests s.spdm (.digests (Config.spdmDigest s.fresh)) ∧ (∃ b, answers .spdmGetCertificate s.spdm (.certificate b)) ∧
    ∀ n x, ∃ g, answers (.spdmChallenge n x) s.spdm (.challengeAuth g)) ∧
  (¬ open_ → errs .spdmGetDigests ∧ errs .spdmGetCertificate ∧ ∀ n x, errs (.spdmChallenge n x)) ∧
  (∀ i x, (open_ ∧ 1 ≤ i ∧ i ≤ 6 → ∃ g, answers (.spdmGetMeasurements i x) s.spdm
      (.measurements i (Config.spdmMeasurement i (s.measured i)) g)) ∧
    (¬ (open_ ∧ 1 ≤ i ∧ i ≤ 6) → errs (.spdmGetMeasurements i x))) ∧
  (∀ x, (s.spdm = .negotiated true → ∃ g, answers (.spdmKeyExchange x) .keyExchanged (.keyExchange g)) ∧
    (s.spdm ≠ .negotiated true → errs (.spdmKeyExchange x))) ∧
  (s.spdm = .keyExchanged → answers (.spdmFinish true) .session .finish) ∧ (s.spdm ≠ .keyExchanged → errs (.spdmFinish true)) ∧
  errs (.spdmFinish false) ∧ (s.spdm = .session → answers .spdmEndSession (.negotiated true) .ended) ∧ (s.spdm ≠ .session → errs .spdmEndSession)

/-! ### The machine as a whole -/

/-- `XSET` and `XADD` write an index register of each guard-true lane, and `XGET` reads one, sign-extended (R124). -/
def indexesMove : Prop := ∀ (w : AluW) (s : State) (g : Group), flagFree g w.head →
  (s.issues w.head (aluCheck formX w) g →
    s.runs (.xset w) (indexWrites false w g) (fun t => s.unmoved t []) ∧
    s.runs (.xadd w) (indexWrites true w g) (fun t => s.unmoved t [])) ∧
  (s.issues w.head (aluCheck (formXget w) w) g → s.runs (.xget w)
    (fun g' => g.lanesHold g' w.head false w.dst fun l =>
      ((readX (threadAt g l).x w.opa.toNat).signExtend 32).zeroExtend 64) fun t => s.unmoved t (aluWrites g (formXget w) w))

/-- The queue and the slot of a command, and no slot for the rest. -/
def commandSlot : Instr → Option (Nat × QSlot)
  | .launch q s | .step q s | .seed q s | .waith q s | .signal q s | .ckpt q s | .handle q s | .invtlb q s => some (q, s)
  | _ => none

/-- What encode writes, the decoder reads back with every field, and leaves the bytes after it. -/
def roundTrip : Prop := ∀ (i : Instr), wellFormed i = true → encode i ≠ [] →
  match commandSlot i with
  | none => ∀ rest, decode (encodeBytes i ++ rest) = .ok (i, rest)
  | some (q, slot) => encode i = slotWords slot ∧ decodeSlot q slot = .ok i

/-- What the decoder reads is well formed, and encodes to the bytes it was read from. -/
def bytesKept : Prop :=
  (∀ (bs rest : List Byte) (i : Instr), decode bs = .ok (i, rest) → wellFormed i = true ∧ encodeBytes i ++ rest = bs) ∧
  ∀ (q : Nat) (slot : QSlot) (i : Instr), q < 64 → decodeSlot q slot = .ok i → wellFormed i = true ∧ encode i = slotWords slot

/-- Words of the manual's own listings decode to the instructions they stand for (R19, R27-R34). -/
def wordsDecode : Prop := ∀ (c : CBlock),
  let head (g n p f : Nat) : Head := ⟨BitVec.ofNat 1 g, BitVec.ofNat 1 n, BitVec.ofNat 4 p, BitVec.ofNat 2 f⟩
  decodeWord 0x10C0003010050198 c = .ffma ⟨head 0 0 0 0, 0x003, 0x004, 0x005, 0x006, 0x18⟩ ∧
  decodeWord 0x1C00002005501404 c = .cvt ⟨head 0 0 0 0, 0x002, 0x001, 0x150, 0x050, 0x04⟩ ∧
  decodeWord 0x1CC0402005FF0001 c = .qnt ⟨head 0 0 0 1, 0x002, 0x001, 0x1FF, 0, 0x01⟩ ∧
  decodeWord 0x202100000B000440 c = .bra ⟨head 1 0 1 0, 11, 17, 0⟩ ∧
  decodeWord 0x330080022A880001 c = .tst ⟨head 0 0 0 2, 0, 0, 0x115, 0x110, 0, 0, 0, 1⟩ ∧
  decodeWord 0x398050C450000000 c = .sbs ⟨head 0 0 0 1, 0x10C, 0x114, 0, 0, 0, 0, 0, 0, 0, 0⟩ ∧
  decodeWord 0x3900514540014000 c = .cewalk ⟨head 0 0 0 1, 0x114, 0x150, 0, 0, 0, 0, 1, 2, 0, 0⟩ c ∧
  decodeWord 0x384051644C000000 c = .tgms ⟨head 0 0 0 1, 0x116, 0x113, 0, 0, 0, 0, 0, 0, 0, 0⟩ c ∧
  decodeWord 0x3DC01504711D0000 c = .dln ⟨head 0 0 0 0, 0x150, 0x11C, 0x11D, 0, 0, 0, 0, 0⟩ ∧
  decodeWord 0x3E4050D4010B0000 c = .hrd ⟨head 0 0 0 1, 0x10D, 0x100, 0x10B, 0, 0, 0, 0, 0⟩ ∧
  decodeWord 0x3C40150401500000 c = .tret ⟨head 0 0 0 0, 0x150, 0x100, 0x150, 0, 0, 0, 0, 0⟩ ∧
  decodeWord 0x8000000000000000 c = .unallocatedOpcode 0x8000000000000000 ∧
  decodeWord 0xC000000000000000 c = .unallocatedOpcode 0xC000000000000000

/-- The bytes of a unit's code from its next word on: the word of its clause it has reached. -/
def State.bytesAt (s : State) (i : Issuer) (c : Clause) : List Byte := ((s.codeOf i).1.drop (c.h + c.pos)).flatMap bytesOfWord

/-- In its turn a unit inside a clause executes the instruction its bytes decode to; one between clauses starts the clause at its PC
once the flags of its WAIT, and of a resumed group's WSNAP, are zero, and its first word executes. The slots then count what was
served, and a group whose clause with the Y bit has ended gives its place up (R8, R12, R14, R206, R280). -/
def stepRuns : Prop := ∀ (s : State) (i : Issuer) (u : Turn) (rest : List Byte) (ins : Instr), s.needsReset = false → s.nextTurn = some u →
  ((∃ t g, i = .group t g ∧ u = .group t g) ∨ ∃ c, i = .handler c ∧ u = .handler c) → s.beginTurn.mayRun i = true →
  let b := s.beginTurn
  ∀ g, b.unitOf i = some g →
  (∀ c, g.clause = some c → g.hold ≠ .resumeWait → decode (b.bytesAt i c) = .ok (ins, rest) →
    step s = concluded b (slotted { b with issuer := i } i (Sys2Proof.Machine.exec ins { b with issuer := i }))) ∧
  (∀ pc lanes, g.clause = none → (∀ l, (threadAt g l).held = none) → nextClause g = some (pc, lanes) → b.clauseFault i pc = none →
    let c := clauseOf ((b.codeOf i).1.getD pc 0) pc lanes
    let start (g : Group) : Group := { clearWaited g c.wait with
      clause := some c, hold := .none, resumeAt := if (g.resumeAt.map Prod.fst) = some pc then none else g.resumeAt }
    flagsZero g (c.wait ||| snapAt g pc) = true → decode (b.bytesAt i c) = .ok (ins, rest) →
    let b1 : State := { b.modUnit i start with issuer := i }
    step s = concluded b (slotted b1 i (Sys2Proof.Machine.exec ins b1)))

/-- The turn of the command processor executes the command its slot decodes to, and an event's turn that event; with no turn named, the
one that has waited longest comes, and the others keep their order (R376, R445, R446). -/
def turnsRun : Prop := ∀ (s : State), s.needsReset = false →
  (∀ q slot ins, s.nextTurn = some .parse → s.beginTurn.nextCommand = some (q, slot) → decodeSlot q slot = .ok ins →
    step s = concluded s.beginTurn (Sys2Proof.Machine.exec ins s.beginTurn)) ∧
  (∀ ins n, s.nextTurn = some (.event ins n) → encode ins = [] →
    step s = concluded s.beginTurn (Sys2Proof.Machine.exec ins { s.beginTurn with subject := n })) ∧
  (s.sched = [] → s.tdie.done = true → s.nextTurn = s.waiting.head? ∧ s.waiting = s.nextTurn.toList ++ s.beginTurn.round)

/-- Every event answers a next state, from any state: no data an event finds ends a run. One that is not due leaves the state as it was
(assumption log, entry 1). -/
def eventsGoOn : Prop := ∀ (i : Instr) (s : State), encode i = [] → ∃ t, Sys2Proof.Machine.exec i s = .next t

/-- What a step has brought about holds of every state it answers: closed steps are gone, no riddle state outlives a member of its
gang, and an invalidation waits only for engine commands (R259, R312, R432, R453). -/
def stepsSettle : Prop := ∀ (s t : State), (s.settled = true ∨ s.needsReset = false) → step s = .next t → t.settled = true

/-- The state after reset is safe, and holds the values that the spec gives it; memory that nothing has written lists nothing, and so
reads zero (assumption log, entry 4) (R403, R406, R412, R426, R427, R437, R446). -/
def resetHolds : Prop := State.reset.safe = true ∧ State.reset.tdie.done = false ∧ State.reset.mem = [] ∧ State.reset.teams = [] ∧
  State.reset.dies.length = 3 ∧ (∀ d ∈ State.reset.dies, d.state = .off ∧ d.inc = 0 ∧ d.scrub = 24 ∧ d.undo = 2048) ∧
  State.reset.clusters.length = 18 ∧ State.reset.queues.length = 64 ∧ (∀ q ∈ State.reset.queues, q.seed = 0) ∧
  State.reset.contexts.length = 64 ∧ (∀ c ∈ State.reset.contexts, c.created = false) ∧
  State.reset.regs.parkth = 50 ∧ State.reset.regs.drainth = 64 ∧ State.reset.regs.rbmax = 3 ∧
  State.reset.regs.mlog = 1024 ∧ State.reset.regs.guard = 200 ∧ State.reset.regs.plim = 400 ∧ State.reset.regs.defop = 9 ∧
  State.reset.regs.uncmin = 3

/-- A part that needs a reset stays as it is (R457). -/
def resetWaits : Prop := ∀ s : State, s.needsReset = true → step s = .next s

/-- The operations that write device or host memory keep both in their canonical form. -/
def memoriesKept : Prop := ∀ (s : State), s.memoriesCanonical = true →
  (∀ l, (s.writeBack l).memoriesCanonical = true) ∧ (∀ pa bs, (s.hostWrite pa bs).memoriesCanonical = true) ∧
  (∀ cs, (s.restoreLines cs).memoriesCanonical = true) ∧
  (∀ ctx key pa ord zero n bs, (s.sliceWrite ctx key pa ord zero n bs).memoriesCanonical = true) ∧
  (∀ team die ctx va bs, (s.writeVa team die ctx va bs).memoriesCanonical = true) ∧
  (∀ tr i through rows, (s.storeBy tr i through rows).memoriesCanonical = true) ∧
  (∀ pa bs, (s.deviceWrite pa bs).memoriesCanonical = true) ∧ (∀ t item off bs, (s.saveWrite t item off bs).memoriesCanonical = true) ∧
  (∀ team ctx va pa leaf size aop operand cmp adds, (s.homeAtomic team ctx va pa leaf size aop operand cmp adds).1.memoriesCanonical = true) ∧
  (∀ key pa bs, (s.inboundWrite key pa bs).memoriesCanonical = true) ∧
  ∀ l, (s.mergeToMemory l).1.memoriesCanonical = true

/-- A word that its group's role may not issue stops the group with ILLEGAL, and no detail above that of the role comes first (R42,
R44, R204): handler words outside a handler, multiplies outside a matrix group, scratchpad and private accesses and atomics outside a
vector group. The mask holds the issuing lanes (assumption log, entry 10). -/
def rolesRefused : Prop := ∀ (s : State) (t gi : Nat) (tm : Team) (g : Group) (c : Clause), s.issuer = .group t gi →
  s.teams[t]? = some tm → s.unitOf s.issuer = some g → g.clause = some c → c.gathered = false →
  let illegal (i : Instr) (limit : Nat) : Prop := ∃ u d, Sys2Proof.Machine.exec i s = .next u ∧ d ≤ limit ∧
    s.stopsAt u t gi g tm 0x01 d c.pos c.wait (issuing g) 0
  (g.role ≠ .control → ∀ w : SysW, illegal (.hrd w) 0x10 ∧ illegal (.hwr w) 0x10 ∧ illegal (.halt w) 0x10 ∧ illegal (.tret w) 0x11) ∧
  (g.role ≠ .matrix → ∀ (m : MulW) (e : EngW) (b : CBlock),
    illegal (.mma m) 0x10 ∧ illegal (.mmas m) 0x10 ∧ illegal (.mmar m b) 0x10 ∧ illegal (.tgms e b) 0x10) ∧
  (g.role ≠ .vector → ∀ w : MemW, illegal (.lds w) 0x10 ∧ illegal (.sts w) 0x10 ∧ illegal (.ldx w) 0x10 ∧ illegal (.stx w) 0x10) ∧
  (g.role ≠ .vector → ∀ w : AtomW, illegal (.atom w) 0x10 ∧ illegal (.atoms w) 0x10 ∧ illegal (.red w) 0x10)

/-- An access one of whose lanes is misaligned stops its group with MISALIGN: the mask holds the misaligned lanes, and the address is
that of the lowest of them, cut as assumption log entry 49 says; nothing is stored or loaded (R44, R183, R187). -/
def misalignedStop : Prop := ∀ (s : State) (t gi : Nat) (tm : Team) (g : Group) (c : Clause) (w : MemW), s.issuer = .group t gi →
  s.teams[t]? = some tm → g.clause = some c → banksStill s →
  let size := 2 ^ w.sz.toNat
  let stops (i : Instr) (wide : Bool) : Prop := ∀ m, m < 32 → (guardMask g w.head).getLsbD m = true → addressOf g wide w.a w.off size m % size ≠ 0 →
    (∀ l, l < m → (guardMask g w.head).getLsbD l = true → addressOf g wide w.a w.off size l % size = 0) →
    ∃ u bad, Sys2Proof.Machine.exec i s = .next u ∧
      s.stopsAt u t gi g tm 0x04 0x01 c.pos c.wait bad (addressOf g wide w.a w.off size m).toNat ∧
      ∀ l, l < 32 → (bad.getLsbD l = true ↔ (guardMask g w.head).getLsbD l = true ∧ addressOf g wide w.a w.off size l % size ≠ 0)
  (s.issues w.head (memCheck ruleLd allRoles true false w) g → stops (.ld w) true) ∧
  (s.issues w.head (memCheck ruleSt allRoles true true w) g → stops (.st w) true) ∧
  (s.issues w.head (memCheck ruleLds [.vector] false false w) g → stops (.lds w) false) ∧
  (s.issues w.head (memCheck ruleSts [.vector] false true w) g → stops (.sts w) false) ∧
  (s.issues w.head (memCheck ruleLdc groupRoles false false w) g → stops (.ldc w) false) ∧
  (s.issues w.head (memCheck ruleLdc [.vector] false false w) g → stops (.ldx w) false) ∧
  (s.issues w.head (memCheck ruleStx [.vector] false true w) g → stops (.stx w) false)

end Sys2Proof.Machine

open Sys2Proof.Machine

/-- Moves, sums, products, minima, logic and shifts deliver their results (R115, R117). -/
def Obligations.MovesSumsLogicDeliver : Prop :=
  (∀ r ∈ moveSumRows, r.delivers) ∧
  (∀ r ∈ logicRows, r.delivers)

/-- Bit fields, counts, comparisons, selection, addresses and 64-bit sums deliver their results (R119). -/
def Obligations.BitsComparisonsDeliver : Prop :=
  (∀ r ∈ bitRows, r.delivers) ∧
  (∀ r ∈ compareRows, r.delivers)

/-- FP32 and binary64 arithmetic, minima, comparisons, classes and integral rounding deliver their results (R137, R138, R139, R140, R141, R146). -/
def Obligations.FloatsDeliver : Prop :=
  (∀ r ∈ floatRows, r.delivers)

/-- Packed arithmetic, dot products, conversions, scaling, permutation and packing deliver their results (R143, R144, R145, R148, R149, R150, R151, R154, R155, R156). `SCLX.E8` with `b[7:0]` = 0xFF raises NV whatever `a` is: the model's choice (assumption log, entry 12). -/
def Obligations.PackedConversionsDeliver : Prop :=
  (∀ r ∈ packedRows, r.delivers) ∧
  (∀ r ∈ convertRows, r.delivers)

/-- Divisions and long-latency functions start one operation that is due their results (R114, R16, R17, R142). -/
def Obligations.LongLatencyWordsStart : Prop :=
  (∀ r ∈ divisionRows, r.starts .division) ∧
  (∀ r ∈ longRows, r.starts .fpLong)

/-- PMOV, XSET, XADD and XGET move predicates and index registers (R123, R124). -/
def Obligations.PredicatesIndexesMove : Prop :=
  pmovMoves ∧
  indexesMove

/-- SREAD, SWR and KREAD read and write special registers (R90, R91, R128, R129, R130, R131). -/
def Obligations.SpecialRegistersMove : Prop :=
  sreadReads ∧
  swrWrites ∧
  kreadReads

/-- A P word's halves read before either writes; QNT and DQNT start one operation for the group (R36, R37, R38, R152, R153). -/
def Obligations.PairsAndBlocksRun : Prop :=
  pairRuns ∧
  blocksStart

/-- Branches, calls, joins, counters, returns and exits: where each thread stands afterwards (R89, R96, R157, R158, R159, R160, R161, R162, R164, R165, R166, R167). The model's choices: BRC with a false guard falls through without counting (assumption log, entry 16); the PC of an exited thread (entry 51). -/
def Obligations.ControlTransfersGo : Prop :=
  branchesGo ∧
  formationStays ∧
  threadsLeave

/-- Votes, election, shuffles, reductions and scans deliver each present lane its value (R173, R174). -/
def Obligations.CrossLaneWordsDeliver : Prop :=
  (∀ r ∈ crossRows, r.delivers)

/-- MATCH finds the classes of equal keys; GSYNC orders and writes nothing (R168, R169, R176, R179). -/
def Obligations.MatchesAndSyncsRun : Prop :=
  matchFinds ∧
  gsyncOrders

/-- LD, LDX, LDS and LDC: requests sent, scratchpad reads left to do, or bytes read at issue (R16, R180, R182, R187, R188). -/
def Obligations.LoadsIssue : Prop :=
  loadsSend ∧
  localLoadsRead

/-- ST, STX and STS: write requests sent, or scratchpad writes left to do (R180, R182, R187, R188, R191). -/
def Obligations.StoresIssue : Prop :=
  storesSend ∧
  scratchStores

/-- ATOM, RED and ATOMS: requests sent, or scratchpad atomics left to do (R187, R189, R190). -/
def Obligations.AtomicsIssue : Prop :=
  atomicsSend ∧
  scratchAtomics

/-- FENCE, PREF and CMAINT order, hint and start cache maintenance (R192, R195, R196, R379). -/
def Obligations.FencesPrefetchesMaintain : Prop :=
  fencesOrder ∧
  prefetchesQuietly ∧
  maintenanceStarts

/-- LDT, STT, FIFOPUSH, FIFOPOP and BANKCFG start (R193, R194, R197, R198). -/
def Obligations.TileCopiesAndFifosStart : Prop :=
  tileCopiesStart ∧
  fifosMove ∧
  bankSwitchStarts

/-- GANG, OBRES, OBREL, TRES, TREL and TZERO (R222, R231, R232, R236, R237, R246). -/
def Obligations.GangsRangesTilesReserve : Prop :=
  gangsForm ∧
  rangesReserve ∧
  tilesReserve

/-- OBLD and OBLD.B start loads into a range and into registers (R238, R239). -/
def Obligations.RangeLoadsStart : Prop :=
  rangeLoadsStart ∧
  sliceLoadsStart

/-- TRD, TWR, TSCL, TST, TSAVE and TLOAD start (R247, R248, R249, R250). -/
def Obligations.TileMovesStart : Prop :=
  tileMovesStart ∧
  tileImagesStart

/-- RMAP moves or sums tile rows; TEPI starts a tile's write through the flue (R262, R263, R264, R265, R266, R268). -/
def Obligations.RemapsAndFluesStart : Prop :=
  rowsRemap ∧
  flueStarts

/-- MMA, MMAS and MMAR: the rendezvous latch, and the multiply when its last member issues (R233, R240, R241, R242, R243, R244, R245, R255, R256, R257, R83). -/
def Obligations.MultipliesMeet : Prop :=
  multipliesLatch ∧
  multipliesRun ∧
  riddleRuns ∧
  riddleOpens ∧
  integerElements

/-- CPY starts one copy; TGMS meets and is due its counts (R308, R309, R310, R312, R314, R315, R316). -/
def Obligations.CopiesAndGathersStart : Prop :=
  copiesStart ∧
  tileGathersStart

/-- CEBLD, CENBR, CEWALK and CEREL start coordinate-engine commands (R356, R357, R358, R359, R360, R363, R366, R368). -/
def Obligations.EngineCommandsStart : Prop :=
  engineCommandsStart

/-- SBS, SBSX and PUBF start (R319, R320, R321, R322, R324, R325). -/
def Obligations.SubscriptionsStart : Prop :=
  subscriptionsStart

/-- A word that a check of R44 turns away stops its group; role, privilege and alignment checks (R42, R44, R183, R187, R204, R269, R270, R272). The model's choices: the mask of an ILLEGAL stop (assumption log, entry 10); how a kept address is cut (entry 49). -/
def Obligations.ChecksStop : Prop :=
  (∀ r ∈ moveSumRows ++ logicRows ++ bitRows ++ compareRows ++ floatRows ++ packedRows ++ convertRows ++ divisionRows ++ longRows, r.stops) ∧
  rolesRefused ∧
  misalignedStop

/-- TRAP stops its group after the word; a word that is no instruction stops it with ILLEGAL (R43, R269, R270, R276, R277). The mask of an ILLEGAL stop is the model's choice (assumption log, entry 10). -/
def Obligations.TrapsAndStraysStop : Prop :=
  trapsStop ∧
  straysStop

/-- HALT, TRET and a handler's EXIT and RET end it; HRD and HWR open the stopped group (R275, R278, R280, R282). -/
def Obligations.HandlersRunAndEnd : Prop :=
  handlersEnd ∧
  windowsOpen

/-- SPAWN makes a child task; TWAIT delivers how many children are not DONE (R299, R300, R301, R302). -/
def Obligations.TasksSpawn : Prop :=
  tasksSpawn

/-- ARRV, WAITR and the four BAR levels (R217, R218, R219, R220, R221, R294, R350, R442). -/
def Obligations.RingsAndBarriersMeet : Prop :=
  ringsStep ∧
  barriersMeet

/-- DLN and PROG declare steps and progress; slots serve groups and the starvation guard gives precedence (R206, R432, R434, R435). Each served word counts as one clock for the groups passed over: the model's choice (assumption log, entry 6). -/
def Obligations.StepsDeclareAndGuard : Prop :=
  stepsDeclare ∧
  guardsStarving ∧
  slotsServe

/-- A pending operation that completes is delivered to its unit and gone (R16, R106, R135, R200, R216, R219, R245, R278). -/
def Obligations.OperationsDeliver : Prop :=
  resultsDelivered ∧
  windowsDelivered ∧
  windowItems

/-- Loads, stores, atomics and tile copies move their data piece by piece and complete (R182, R185, R188, R189, R192, R194, R372, R379). -/
def Obligations.AccessesReturn : Prop :=
  accessesReturn ∧
  movesPerform ∧
  sectorsCover ∧
  tileCopiesPerform

/-- Banks switch, waiting FIFO words issue again, spawned billets arrive (R197, R198, R300, R303). The places of the overflow area are the model's choice (assumption log, entries 41 and 53). -/
def Obligations.BanksAndChildrenArrive : Prop :=
  banksChange ∧
  childrenArrive

/-- Operand-buffer loads, tile stores, tile images and flue writes perform (R238, R239, R248, R250, R268). -/
def Obligations.MatrixMovesPerform : Prop :=
  matrixMovesPerform

/-- A copy moves chunk by chunk of 4096 bytes, and its chunks cover each byte once in order (R310, R311). -/
def Obligations.CopiesMove : Prop :=
  copiesMove ∧
  chunksCover

/-- TGMS and coordinate-engine commands execute and complete (R316, R317, R318, R357, R360, R361, R362, R364, R365, R366, R367, R368). -/
def Obligations.EngineCommandsComplete : Prop :=
  tileGathersComplete ∧
  engineCommandsRun

/-- Syncs, ends, flushes and updates of subscriptions (R322, R323, R324, R325, R328, R330, R331). -/
def Obligations.SubscriptionsComplete : Prop :=
  subscriptionsComplete ∧
  updatesApply

/-- A read finds its bytes at its home slice, in its core's writes, its L1, or its task's view (R195, R338, R339, R375, R419, R458). That a store stays in the write path until it is performed is the model's choice (assumption log, entry 57). -/
def Obligations.ReadsPerformAtHome : Prop :=
  readsPerform ∧
  coresAnswer ∧
  readsSee ∧
  prefetchesPerform

/-- Writes and atomics leave their bytes at home, in a write set, or beyond the endpoint (R189, R190, R338, R340, R341, R420, R458). -/
def Obligations.WritesPerformAtHome : Prop :=
  writesPerform ∧
  atomicValues

/-- Lines are cleaned, invalidated and filled (R196, R337, R339, R340). -/
def Obligations.LinesCleanAndFill : Prop :=
  cleansPerform ∧
  fillsLand

/-- Flits cross routers and edges in order; routers sleep and wake; walks and acknowledgements land (R192, R343, R344, R345, R346, R347, R402, R403, R404). -/
def Obligations.FlitsTravel : Prop :=
  flitsMove ∧
  flowsKeepOrder ∧
  edgesCross ∧
  networkSettles

/-- A stop starts its handler, goes to the host, or ends its context (R273, R274, R275, R281, R282, R301, R408). -/
def Obligations.StopsReachHandlers : Prop :=
  stopsDeliver ∧
  contextsEnd

/-- Groups start zeroed; stokers start teams; ordered teams keep their logical core (R88, R201, R205, R293, R295, R298, R304, R416, R417, R418, R449). -/
def Obligations.TeamsStart : Prop :=
  groupsStart ∧
  stokersStart ∧
  gridsPlace

/-- Billets start and are staged; idle clusters steal and are given work (R298, R303, R305, R306). -/
def Obligations.TasksMove : Prop :=
  billetsStart ∧
  tasksStage ∧
  workMoves

/-- Pre-emption drains, flushes or saves teams, and they return (R284, R285, R286, R287, R288, R330, R417, R454). The model's choices: places and bytes of the save area (assumption log, entry 53); the die and number a saved team returns to (entry 61). -/
def Obligations.TeamsLeaveAndReturn : Prop :=
  queuesPreempt ∧
  teamsLeave ∧
  teamsReturn

/-- Die resets, error reports and rollback (R403, R404, R405, R412, R413, R427, R457). -/
def Obligations.ErrorsResetAndRollBack : Prop :=
  diesReset ∧
  errorsReport ∧
  contextsRollBack

/-- Checkpoint intervals close, the part boots, and the remap table maps live cores (R406, R417, R425, R426, R428, R429). -/
def Obligations.IntervalsAndBoot : Prop :=
  intervalsClose ∧
  partBoots ∧
  coresRemap

/-- The bellows sets caps and targets; trips and settling (R431, R436, R437). -/
def Obligations.BellowsGovern : Prop :=
  bellowsGovern ∧
  domainsSettle

/-- SEED, WAITH, SIGNAL, CKPT, HANDLE, INVTLB and STEP run, wait or are refused (R391, R425, R432, R444, R446, R447, R448, R450, R453). -/
def Obligations.CommandsRun : Prop :=
  commandsRun ∧
  translationsDrop ∧
  commandsRefused ∧
  recordsMalformed

/-- Launch records parse into launches with their dependences, and start when these have ended (R211, R304, R349, R392, R447, R448, R449, R450). -/
def Obligations.LaunchesRun : Prop :=
  launchesParse ∧
  dependencesHold ∧
  launchesStart ∧
  sharesDivide

/-- Waiting commands end; queue and context control registers act (R280, R281, R282, R312, R446, R448, R450, R451, R453, R454). A context with another held stop stays stopped after RESUME: the model's choice (assumption log, entry 38). -/
def Obligations.QueuesAndContextsObey : Prop :=
  waitsEnd ∧
  queuesControlled ∧
  contextsControlled ∧
  stopsReturn

/-- Doorbells, register writes, BAR4 requests and SPDM messages (R5, R407, R443, R444, R451, R459). -/
def Obligations.HostInterfaceAnswers : Prop :=
  doorbellsRing ∧
  registersTake ∧
  inboundServed ∧
  spdmAnswers

/-- Words of the manual's listings decode to the instructions they stand for (R7, R19, R27, R28, R30, R32, R33, R34). -/
def Obligations.WordsDecode : Prop :=
  wordsDecode

/-- Decoding and encoding agree for every instruction and command (R7, R19, R27, R36, R40, R41, R42, R43, R446). -/
def Obligations.DecodeInvertsEncode : Prop :=
  roundTrip ∧
  bytesKept

/-- A step runs the decoded instruction of the agent whose turn it is (R8, R12, R14, R206, R445, R446). -/
def Obligations.StepRunsDecodedWord : Prop :=
  stepRuns ∧
  turnsRun

/-- What reset leaves (R403, R406, R412, R426, R427, R431, R446). Memory that nothing has written reads zero: the model's choice (assumption log, entry 4). -/
def Obligations.ResetHolds : Prop :=
  resetHolds

/-- Every step leaves no closed step, no orphaned riddle, and no idle invalidation (R259, R312, R432, R453). -/
def Obligations.StepsLeaveSettled : Prop :=
  stepsSettle

/-- The operations that write memory keep its canonical form (R337, R338, R422, R427, R458). -/
def Obligations.MemoriesStayCanonical : Prop :=
  memoriesKept

/-- Every event answers a next state from any state; a part that needs a reset stays as it is (R457). An event that is not due leaves the state as it was: the model's choice (assumption log, entry 1). -/
def Obligations.EventsGoOn : Prop :=
  eventsGoOn ∧
  resetWaits

/-- Pre-emption completes: a queue's team starts to leave or drains, a leaving team leaves, and it returns (R283, R284, R285, R286, R287, R288, R291, R294, R319). -/
def Obligations.TeamsMove : Prop :=
  teamsMove
end

