-- ==== Sys2Proof/Laws/Cells.lean ====
section
/-!
SUPPORT. Sparse tables: reading after writing, and the canonical form, which every write keeps.
-/
namespace Sys2Proof.Machine

variable {α : Type} {d : α}

theorem Cells.get_filter_other (c : Cells α) {m n : Nat} (h : m ≠ n) :
    Cells.get d (c.filter fun e => e.1 ≠ n) m = Cells.get d c m := by
  induction c with
  | nil => rfl
  | cons e r ih =>
    obtain ⟨k, v⟩ := e
    by_cases hk : k = n
    · subst hk; simp [Cells.get, h]; simpa using ih
    · simp only [ne_eq, hk, not_false_eq_true, decide_true, List.filter_cons_of_pos, Cells.get]
      rw [← ih]

theorem Cells.get_filter_same (c : Cells α) (n : Nat) : Cells.get d (c.filter fun e => e.1 ≠ n) n = d := by
  induction c with
  | nil => rfl
  | cons e r ih =>
    obtain ⟨k, v⟩ := e
    by_cases hk : k = n
    · subst hk; simpa using ih
    · simp only [ne_eq, hk, not_false_eq_true, decide_true, List.filter_cons_of_pos, Cells.get, Ne.symm hk, if_false]
      exact ih

theorem Cells.get_list_same (c : Cells α) (n : Nat) (a : α) : Cells.get d (Cells.list c n a) n = a := by
  induction c with
  | nil => simp [Cells.list, Cells.get]
  | cons e r ih =>
    obtain ⟨k, v⟩ := e
    unfold Cells.list
    split
    · simp [Cells.get]
    · split
      · simp [Cells.get]
      · next h => simp [Cells.get, h, ih]

theorem Cells.get_list_other (c : Cells α) {m n : Nat} (a : α) (h : m ≠ n) :
    Cells.get d (Cells.list c n a) m = Cells.get d c m := by
  induction c with
  | nil => simp [Cells.list, Cells.get, h]
  | cons e r ih =>
    obtain ⟨k, v⟩ := e
    unfold Cells.list
    split
    · simp [Cells.get, h]
    · split
      · next hk => subst hk; simp [Cells.get, h]
      · simp [Cells.get, ih]

/-- A key reads as the value just written there. -/
@[simp] theorem Cells.get_put_same [DecidableEq α] (c : Cells α) (n : Nat) (a : α) : Cells.get d (Cells.put d c n a) n = a := by
  unfold Cells.put
  split
  · next h => rw [Cells.get_filter_same, h]
  · exact Cells.get_list_same c n a

/-- Another key reads as before. -/
@[simp] theorem Cells.get_put_other [DecidableEq α] (c : Cells α) {m n : Nat} (a : α) (h : m ≠ n) :
    Cells.get d (Cells.put d c n a) m = Cells.get d c m := by
  unfold Cells.put
  split
  · exact Cells.get_filter_other c h
  · exact Cells.get_list_other c a h

/-! ### The canonical form -/

/-- The canonical form as a proposition: no entry equal to `d`, keys strictly rising. -/
theorem Cells.wf_iff [DecidableEq α] (c : Cells α) :
    Cells.wf d c = true ↔ (∀ e ∈ c, e.2 ≠ d) ∧ c.Pairwise fun a b => a.1 < b.1 := by
  induction c with
  | nil => simp [Cells.wf]
  | cons e r ih =>
    obtain ⟨k, v⟩ := e
    cases r with
    | nil => simp [Cells.wf]
    | cons f r =>
      obtain ⟨k', v'⟩ := f
      simp only [Cells.wf, Bool.and_eq_true, decide_eq_true_eq, ih, List.mem_cons, List.pairwise_cons]
      constructor
      · rintro ⟨⟨hv, hk⟩, hall, hp⟩
        refine ⟨?_, ?_, hp⟩
        · rintro x (rfl | hx)
          · exact hv
          · exact hall x hx
        · rintro x (rfl | hx)
          · exact hk
          · exact lt_trans hk (hp.1 x hx)
      · rintro ⟨hall, hk, hp⟩
        exact ⟨⟨hall _ (.inl rfl), hk _ (.inl rfl)⟩, fun x hx => hall x (.inr hx), hp⟩

theorem Cells.mem_list {c : Cells α} {n : Nat} {a : α} {e : Nat × α} (h : e ∈ Cells.list c n a) : e = (n, a) ∨ e ∈ c := by
  induction c with
  | nil => simpa [Cells.list] using h
  | cons f r ih =>
    obtain ⟨k, v⟩ := f
    unfold Cells.list at h
    split at h
    · simpa [or_assoc] using h
    · split at h
      · rcases List.mem_cons.1 h with rfl | h
        · exact .inl rfl
        · exact .inr (List.mem_cons_of_mem _ h)
      · rcases List.mem_cons.1 h with rfl | h
        · exact .inr List.mem_cons_self
        · exact (ih h).imp id (List.mem_cons_of_mem _)

/-- A write keeps the canonical form. -/
theorem Cells.wf_put [DecidableEq α] {c : Cells α} (n : Nat) (a : α) (h : Cells.wf d c = true) : Cells.wf d (Cells.put d c n a) = true := by
  rw [Cells.wf_iff] at h ⊢
  obtain ⟨hv, hp⟩ := h
  unfold Cells.put
  split
  · exact ⟨fun e he => hv e (List.mem_filter.1 he).1, hp.filter _⟩
  · next ha =>
    constructor
    · intro e he
      rcases Cells.mem_list he with rfl | he
      · exact ha
      · exact hv e he
    · clear hv
      induction c with
      | nil => simp [Cells.list]
      | cons f r ih =>
        obtain ⟨k, v⟩ := f
        obtain ⟨hk, hr⟩ := List.pairwise_cons.1 hp
        unfold Cells.list
        split
        · next hn =>
          refine List.pairwise_cons.2 ⟨?_, hp⟩
          intro e he
          rcases List.mem_cons.1 he with rfl | he
          · exact hn
          · exact lt_trans hn (hk e he)
        · split
          · next hn => subst hn; exact List.pairwise_cons.2 ⟨hk, hr⟩
          · next h1 h2 =>
            refine List.pairwise_cons.2 ⟨?_, ih hr⟩
            intro e he
            rcases Cells.mem_list he with rfl | he
            · show k < n; omega
            · exact hk e he

/-! ### Rows of bytes -/

/-- A row of bytes written keeps the canonical form of a memory. -/
theorem putBytes_wf (c : Cells Byte) (a : Nat) (bs : List Byte) (h : Memory.wf c = true) : Memory.wf (putBytes c a bs) = true := by
  induction bs generalizing c a with
  | nil => exact h
  | cons b bs ih => exact ih _ _ (Cells.wf_put _ _ h)

/-- Outside the row, a byte reads as before. -/
theorem get_putBytes_outside (c : Cells Byte) (a : Nat) (bs : List Byte) (n : Nat) (h : n < a ∨ a + bs.length ≤ n) :
    Cells.get emptyByte (putBytes c a bs) n = Cells.get emptyByte c n := by
  induction bs generalizing c a with
  | nil => rfl
  | cons b bs ih =>
    simp only [List.length_cons] at h
    rw [putBytes, ih _ _ (by omega), Cells.get_put_other _ _ (by omega)]

/-- Inside the row, a byte reads as the byte written there. -/
theorem get_putBytes_inside (c : Cells Byte) (a : Nat) (bs : List Byte) (i : Nat) (h : i < bs.length) :
    Cells.get emptyByte (putBytes c a bs) (a + i) = bs[i] := by
  induction bs generalizing c a i with
  | nil => simp at h
  | cons b bs ih =>
    cases i with
    | zero => rw [putBytes, get_putBytes_outside _ _ _ _ (by omega)]; simp
    | succ i =>
      have := ih (Cells.put emptyByte c a b) (a + 1) i (by simpa using h)
      rw [putBytes, show a + (i + 1) = a + 1 + i by omega, this]; simp

/-- A row of bytes written reads back as it was written. -/
theorem bytesAt_putBytes (c : Cells Byte) (a : Nat) (bs : List Byte) : bytesAt (putBytes c a bs) a bs.length = bs := by
  apply List.ext_getElem
  · simp [bytesAt]
  · intro i h1 h2
    simp [bytesAt, get_putBytes_inside c a bs i h2]

end Sys2Proof.Machine
end

