-- ==== Sys2Proof/Laws/State.lean ====
section
/-!
SUPPORT. What each update of the state leaves alone: one lemma per field per update.
-/
namespace Sys2Proof.Machine

/-! ### `modTeam` -/

@[simp] theorem State.modTeam_sched (s : State) (t : Nat) (f : Team → Team) : (s.modTeam t f).sched = s.sched := rfl
@[simp] theorem State.modTeam_round (s : State) (t : Nat) (f : Team → Team) : (s.modTeam t f).round = s.round := rfl
@[simp] theorem State.modTeam_bellowsAt (s : State) (t : Nat) (f : Team → Team) : (s.modTeam t f).bellowsAt = s.bellowsAt := rfl
@[simp] theorem State.modTeam_slots (s : State) (t : Nat) (f : Team → Team) : (s.modTeam t f).slots = s.slots := rfl
@[simp] theorem State.modTeam_replaying (s : State) (t : Nat) (f : Team → Team) : (s.modTeam t f).replaying = s.replaying := rfl
@[simp] theorem State.modTeam_overdue (s : State) (t : Nat) (f : Team → Team) : (s.modTeam t f).overdue = s.overdue := rfl
@[simp] theorem State.modTeam_cinderBase (s : State) (t : Nat) (f : Team → Team) : (s.modTeam t f).cinderBase = s.cinderBase := rfl
@[simp] theorem State.modTeam_subject (s : State) (t : Nat) (f : Team → Team) : (s.modTeam t f).subject = s.subject := rfl
@[simp] theorem State.modTeam_issuer (s : State) (t : Nat) (f : Team → Team) : (s.modTeam t f).issuer = s.issuer := rfl
@[simp] theorem State.modTeam_fresh (s : State) (t : Nat) (f : Team → Team) : (s.modTeam t f).fresh = s.fresh := rfl
@[simp] theorem State.modTeam_nextId (s : State) (t : Nat) (f : Team → Team) : (s.modTeam t f).nextId = s.nextId := rfl
@[simp] theorem State.modTeam_timer (s : State) (t : Nat) (f : Team → Team) : (s.modTeam t f).timer = s.timer := rfl
@[simp] theorem State.modTeam_tdie (s : State) (t : Nat) (f : Team → Team) : (s.modTeam t f).tdie = s.tdie := rfl
@[simp] theorem State.modTeam_remap (s : State) (t : Nat) (f : Team → Team) : (s.modTeam t f).remap = s.remap := rfl
@[simp] theorem State.modTeam_dies (s : State) (t : Nat) (f : Team → Team) : (s.modTeam t f).dies = s.dies := rfl
@[simp] theorem State.modTeam_clusters (s : State) (t : Nat) (f : Team → Team) : (s.modTeam t f).clusters = s.clusters := rfl
@[simp] theorem State.modTeam_domains (s : State) (t : Nat) (f : Team → Team) : (s.modTeam t f).domains = s.domains := rfl
@[simp] theorem State.modTeam_regs (s : State) (t : Nat) (f : Team → Team) : (s.modTeam t f).regs = s.regs := rfl
@[simp] theorem State.modTeam_queues (s : State) (t : Nat) (f : Team → Team) : (s.modTeam t f).queues = s.queues := rfl
@[simp] theorem State.modTeam_contexts (s : State) (t : Nat) (f : Team → Team) : (s.modTeam t f).contexts = s.contexts := rfl
@[simp] theorem State.modTeam_handles (s : State) (t : Nat) (f : Team → Team) : (s.modTeam t f).handles = s.handles := rfl
@[simp] theorem State.modTeam_launches (s : State) (t : Nat) (f : Team → Team) : (s.modTeam t f).launches = s.launches := rfl
@[simp] theorem State.modTeam_launchCount (s : State) (t : Nat) (f : Team → Team) : (s.modTeam t f).launchCount = s.launchCount := rfl
@[simp] theorem State.modTeam_ops (s : State) (t : Nat) (f : Team → Team) : (s.modTeam t f).ops = s.ops := rfl
@[simp] theorem State.modTeam_reqs (s : State) (t : Nat) (f : Team → Team) : (s.modTeam t f).reqs = s.reqs := rfl
@[simp] theorem State.modTeam_updates (s : State) (t : Nat) (f : Team → Team) : (s.modTeam t f).updates = s.updates := rfl
@[simp] theorem State.modTeam_subs (s : State) (t : Nat) (f : Team → Team) : (s.modTeam t f).subs = s.subs := rfl
@[simp] theorem State.modTeam_l1 (s : State) (t : Nat) (f : Team → Team) : (s.modTeam t f).l1 = s.l1 := rfl
@[simp] theorem State.modTeam_lines (s : State) (t : Nat) (f : Team → Team) : (s.modTeam t f).lines = s.lines := rfl
@[simp] theorem State.modTeam_mem (s : State) (t : Nat) (f : Team → Team) : (s.modTeam t f).mem = s.mem := rfl
@[simp] theorem State.modTeam_hostMem (s : State) (t : Nat) (f : Team → Team) : (s.modTeam t f).hostMem = s.hostMem := rfl
@[simp] theorem State.modTeam_steps (s : State) (t : Nat) (f : Team → Team) : (s.modTeam t f).steps = s.steps := rfl
@[simp] theorem State.modTeam_lastQueue (s : State) (t : Nat) (f : Team → Team) : (s.modTeam t f).lastQueue = s.lastQueue := rfl
@[simp] theorem State.modTeam_cinder (s : State) (t : Nat) (f : Team → Team) : (s.modTeam t f).cinder = s.cinder := rfl
@[simp] theorem State.modTeam_cinderSeq (s : State) (t : Nat) (f : Team → Team) : (s.modTeam t f).cinderSeq = s.cinderSeq := rfl
@[simp] theorem State.modTeam_chain (s : State) (t : Nat) (f : Team → Team) : (s.modTeam t f).chain = s.chain := rfl
@[simp] theorem State.modTeam_signDue (s : State) (t : Nat) (f : Team → Team) : (s.modTeam t f).signDue = s.signDue := rfl
@[simp] theorem State.modTeam_signatures (s : State) (t : Nat) (f : Team → Team) : (s.modTeam t f).signatures = s.signatures := rfl
@[simp] theorem State.modTeam_interrupts (s : State) (t : Nat) (f : Team → Team) : (s.modTeam t f).interrupts = s.interrupts := rfl
@[simp] theorem State.modTeam_errlog (s : State) (t : Nat) (f : Team → Team) : (s.modTeam t f).errlog = s.errlog := rfl
@[simp] theorem State.modTeam_aer (s : State) (t : Nat) (f : Team → Team) : (s.modTeam t f).aer = s.aer := rfl
@[simp] theorem State.modTeam_needsReset (s : State) (t : Nat) (f : Team → Team) : (s.modTeam t f).needsReset = s.needsReset := rfl
@[simp] theorem State.modTeam_lineKeys (s : State) (t : Nat) (f : Team → Team) : (s.modTeam t f).lineKeys = s.lineKeys := rfl
@[simp] theorem State.modTeam_spdm (s : State) (t : Nat) (f : Team → Team) : (s.modTeam t f).spdm = s.spdm := rfl
@[simp] theorem State.modTeam_spdmReplies (s : State) (t : Nat) (f : Team → Team) : (s.modTeam t f).spdmReplies = s.spdmReplies := rfl
@[simp] theorem State.modTeam_inbound (s : State) (t : Nat) (f : Team → Team) : (s.modTeam t f).inbound = s.inbound := rfl

/-! ### `modGroup` -/

@[simp] theorem State.modGroup_sched (s : State) (t g : Nat) (f : Group → Group) : (s.modGroup t g f).sched = s.sched := rfl
@[simp] theorem State.modGroup_round (s : State) (t g : Nat) (f : Group → Group) : (s.modGroup t g f).round = s.round := rfl
@[simp] theorem State.modGroup_bellowsAt (s : State) (t g : Nat) (f : Group → Group) : (s.modGroup t g f).bellowsAt = s.bellowsAt := rfl
@[simp] theorem State.modGroup_slots (s : State) (t g : Nat) (f : Group → Group) : (s.modGroup t g f).slots = s.slots := rfl
@[simp] theorem State.modGroup_replaying (s : State) (t g : Nat) (f : Group → Group) : (s.modGroup t g f).replaying = s.replaying := rfl
@[simp] theorem State.modGroup_overdue (s : State) (t g : Nat) (f : Group → Group) : (s.modGroup t g f).overdue = s.overdue := rfl
@[simp] theorem State.modGroup_cinderBase (s : State) (t g : Nat) (f : Group → Group) : (s.modGroup t g f).cinderBase = s.cinderBase := rfl
@[simp] theorem State.modGroup_subject (s : State) (t g : Nat) (f : Group → Group) : (s.modGroup t g f).subject = s.subject := rfl
@[simp] theorem State.modGroup_issuer (s : State) (t g : Nat) (f : Group → Group) : (s.modGroup t g f).issuer = s.issuer := rfl
@[simp] theorem State.modGroup_fresh (s : State) (t g : Nat) (f : Group → Group) : (s.modGroup t g f).fresh = s.fresh := rfl
@[simp] theorem State.modGroup_nextId (s : State) (t g : Nat) (f : Group → Group) : (s.modGroup t g f).nextId = s.nextId := rfl
@[simp] theorem State.modGroup_timer (s : State) (t g : Nat) (f : Group → Group) : (s.modGroup t g f).timer = s.timer := rfl
@[simp] theorem State.modGroup_tdie (s : State) (t g : Nat) (f : Group → Group) : (s.modGroup t g f).tdie = s.tdie := rfl
@[simp] theorem State.modGroup_remap (s : State) (t g : Nat) (f : Group → Group) : (s.modGroup t g f).remap = s.remap := rfl
@[simp] theorem State.modGroup_dies (s : State) (t g : Nat) (f : Group → Group) : (s.modGroup t g f).dies = s.dies := rfl
@[simp] theorem State.modGroup_clusters (s : State) (t g : Nat) (f : Group → Group) : (s.modGroup t g f).clusters = s.clusters := rfl
@[simp] theorem State.modGroup_domains (s : State) (t g : Nat) (f : Group → Group) : (s.modGroup t g f).domains = s.domains := rfl
@[simp] theorem State.modGroup_regs (s : State) (t g : Nat) (f : Group → Group) : (s.modGroup t g f).regs = s.regs := rfl
@[simp] theorem State.modGroup_queues (s : State) (t g : Nat) (f : Group → Group) : (s.modGroup t g f).queues = s.queues := rfl
@[simp] theorem State.modGroup_contexts (s : State) (t g : Nat) (f : Group → Group) : (s.modGroup t g f).contexts = s.contexts := rfl
@[simp] theorem State.modGroup_handles (s : State) (t g : Nat) (f : Group → Group) : (s.modGroup t g f).handles = s.handles := rfl
@[simp] theorem State.modGroup_launches (s : State) (t g : Nat) (f : Group → Group) : (s.modGroup t g f).launches = s.launches := rfl
@[simp] theorem State.modGroup_launchCount (s : State) (t g : Nat) (f : Group → Group) : (s.modGroup t g f).launchCount = s.launchCount := rfl
@[simp] theorem State.modGroup_ops (s : State) (t g : Nat) (f : Group → Group) : (s.modGroup t g f).ops = s.ops := rfl
@[simp] theorem State.modGroup_reqs (s : State) (t g : Nat) (f : Group → Group) : (s.modGroup t g f).reqs = s.reqs := rfl
@[simp] theorem State.modGroup_updates (s : State) (t g : Nat) (f : Group → Group) : (s.modGroup t g f).updates = s.updates := rfl
@[simp] theorem State.modGroup_subs (s : State) (t g : Nat) (f : Group → Group) : (s.modGroup t g f).subs = s.subs := rfl
@[simp] theorem State.modGroup_l1 (s : State) (t g : Nat) (f : Group → Group) : (s.modGroup t g f).l1 = s.l1 := rfl
@[simp] theorem State.modGroup_lines (s : State) (t g : Nat) (f : Group → Group) : (s.modGroup t g f).lines = s.lines := rfl
@[simp] theorem State.modGroup_mem (s : State) (t g : Nat) (f : Group → Group) : (s.modGroup t g f).mem = s.mem := rfl
@[simp] theorem State.modGroup_hostMem (s : State) (t g : Nat) (f : Group → Group) : (s.modGroup t g f).hostMem = s.hostMem := rfl
@[simp] theorem State.modGroup_steps (s : State) (t g : Nat) (f : Group → Group) : (s.modGroup t g f).steps = s.steps := rfl
@[simp] theorem State.modGroup_lastQueue (s : State) (t g : Nat) (f : Group → Group) : (s.modGroup t g f).lastQueue = s.lastQueue := rfl
@[simp] theorem State.modGroup_cinder (s : State) (t g : Nat) (f : Group → Group) : (s.modGroup t g f).cinder = s.cinder := rfl
@[simp] theorem State.modGroup_cinderSeq (s : State) (t g : Nat) (f : Group → Group) : (s.modGroup t g f).cinderSeq = s.cinderSeq := rfl
@[simp] theorem State.modGroup_chain (s : State) (t g : Nat) (f : Group → Group) : (s.modGroup t g f).chain = s.chain := rfl
@[simp] theorem State.modGroup_signDue (s : State) (t g : Nat) (f : Group → Group) : (s.modGroup t g f).signDue = s.signDue := rfl
@[simp] theorem State.modGroup_signatures (s : State) (t g : Nat) (f : Group → Group) : (s.modGroup t g f).signatures = s.signatures := rfl
@[simp] theorem State.modGroup_interrupts (s : State) (t g : Nat) (f : Group → Group) : (s.modGroup t g f).interrupts = s.interrupts := rfl
@[simp] theorem State.modGroup_errlog (s : State) (t g : Nat) (f : Group → Group) : (s.modGroup t g f).errlog = s.errlog := rfl
@[simp] theorem State.modGroup_aer (s : State) (t g : Nat) (f : Group → Group) : (s.modGroup t g f).aer = s.aer := rfl
@[simp] theorem State.modGroup_needsReset (s : State) (t g : Nat) (f : Group → Group) : (s.modGroup t g f).needsReset = s.needsReset := rfl
@[simp] theorem State.modGroup_lineKeys (s : State) (t g : Nat) (f : Group → Group) : (s.modGroup t g f).lineKeys = s.lineKeys := rfl
@[simp] theorem State.modGroup_spdm (s : State) (t g : Nat) (f : Group → Group) : (s.modGroup t g f).spdm = s.spdm := rfl
@[simp] theorem State.modGroup_spdmReplies (s : State) (t g : Nat) (f : Group → Group) : (s.modGroup t g f).spdmReplies = s.spdmReplies := rfl
@[simp] theorem State.modGroup_inbound (s : State) (t g : Nat) (f : Group → Group) : (s.modGroup t g f).inbound = s.inbound := rfl

/-! ### `modCluster` -/

@[simp] theorem State.modCluster_sched (s : State) (c : Nat) (f : Cluster → Cluster) : (s.modCluster c f).sched = s.sched := rfl
@[simp] theorem State.modCluster_round (s : State) (c : Nat) (f : Cluster → Cluster) : (s.modCluster c f).round = s.round := rfl
@[simp] theorem State.modCluster_bellowsAt (s : State) (c : Nat) (f : Cluster → Cluster) : (s.modCluster c f).bellowsAt = s.bellowsAt := rfl
@[simp] theorem State.modCluster_slots (s : State) (c : Nat) (f : Cluster → Cluster) : (s.modCluster c f).slots = s.slots := rfl
@[simp] theorem State.modCluster_replaying (s : State) (c : Nat) (f : Cluster → Cluster) : (s.modCluster c f).replaying = s.replaying := rfl
@[simp] theorem State.modCluster_overdue (s : State) (c : Nat) (f : Cluster → Cluster) : (s.modCluster c f).overdue = s.overdue := rfl
@[simp] theorem State.modCluster_cinderBase (s : State) (c : Nat) (f : Cluster → Cluster) : (s.modCluster c f).cinderBase = s.cinderBase := rfl
@[simp] theorem State.modCluster_subject (s : State) (c : Nat) (f : Cluster → Cluster) : (s.modCluster c f).subject = s.subject := rfl
@[simp] theorem State.modCluster_issuer (s : State) (c : Nat) (f : Cluster → Cluster) : (s.modCluster c f).issuer = s.issuer := rfl
@[simp] theorem State.modCluster_fresh (s : State) (c : Nat) (f : Cluster → Cluster) : (s.modCluster c f).fresh = s.fresh := rfl
@[simp] theorem State.modCluster_nextId (s : State) (c : Nat) (f : Cluster → Cluster) : (s.modCluster c f).nextId = s.nextId := rfl
@[simp] theorem State.modCluster_timer (s : State) (c : Nat) (f : Cluster → Cluster) : (s.modCluster c f).timer = s.timer := rfl
@[simp] theorem State.modCluster_tdie (s : State) (c : Nat) (f : Cluster → Cluster) : (s.modCluster c f).tdie = s.tdie := rfl
@[simp] theorem State.modCluster_remap (s : State) (c : Nat) (f : Cluster → Cluster) : (s.modCluster c f).remap = s.remap := rfl
@[simp] theorem State.modCluster_dies (s : State) (c : Nat) (f : Cluster → Cluster) : (s.modCluster c f).dies = s.dies := rfl
@[simp] theorem State.modCluster_domains (s : State) (c : Nat) (f : Cluster → Cluster) : (s.modCluster c f).domains = s.domains := rfl
@[simp] theorem State.modCluster_regs (s : State) (c : Nat) (f : Cluster → Cluster) : (s.modCluster c f).regs = s.regs := rfl
@[simp] theorem State.modCluster_queues (s : State) (c : Nat) (f : Cluster → Cluster) : (s.modCluster c f).queues = s.queues := rfl
@[simp] theorem State.modCluster_contexts (s : State) (c : Nat) (f : Cluster → Cluster) : (s.modCluster c f).contexts = s.contexts := rfl
@[simp] theorem State.modCluster_handles (s : State) (c : Nat) (f : Cluster → Cluster) : (s.modCluster c f).handles = s.handles := rfl
@[simp] theorem State.modCluster_launches (s : State) (c : Nat) (f : Cluster → Cluster) : (s.modCluster c f).launches = s.launches := rfl
@[simp] theorem State.modCluster_launchCount (s : State) (c : Nat) (f : Cluster → Cluster) : (s.modCluster c f).launchCount = s.launchCount := rfl
@[simp] theorem State.modCluster_teams (s : State) (c : Nat) (f : Cluster → Cluster) : (s.modCluster c f).teams = s.teams := rfl
@[simp] theorem State.modCluster_ops (s : State) (c : Nat) (f : Cluster → Cluster) : (s.modCluster c f).ops = s.ops := rfl
@[simp] theorem State.modCluster_reqs (s : State) (c : Nat) (f : Cluster → Cluster) : (s.modCluster c f).reqs = s.reqs := rfl
@[simp] theorem State.modCluster_updates (s : State) (c : Nat) (f : Cluster → Cluster) : (s.modCluster c f).updates = s.updates := rfl
@[simp] theorem State.modCluster_subs (s : State) (c : Nat) (f : Cluster → Cluster) : (s.modCluster c f).subs = s.subs := rfl
@[simp] theorem State.modCluster_l1 (s : State) (c : Nat) (f : Cluster → Cluster) : (s.modCluster c f).l1 = s.l1 := rfl
@[simp] theorem State.modCluster_lines (s : State) (c : Nat) (f : Cluster → Cluster) : (s.modCluster c f).lines = s.lines := rfl
@[simp] theorem State.modCluster_mem (s : State) (c : Nat) (f : Cluster → Cluster) : (s.modCluster c f).mem = s.mem := rfl
@[simp] theorem State.modCluster_hostMem (s : State) (c : Nat) (f : Cluster → Cluster) : (s.modCluster c f).hostMem = s.hostMem := rfl
@[simp] theorem State.modCluster_steps (s : State) (c : Nat) (f : Cluster → Cluster) : (s.modCluster c f).steps = s.steps := rfl
@[simp] theorem State.modCluster_lastQueue (s : State) (c : Nat) (f : Cluster → Cluster) : (s.modCluster c f).lastQueue = s.lastQueue := rfl
@[simp] theorem State.modCluster_cinder (s : State) (c : Nat) (f : Cluster → Cluster) : (s.modCluster c f).cinder = s.cinder := rfl
@[simp] theorem State.modCluster_cinderSeq (s : State) (c : Nat) (f : Cluster → Cluster) : (s.modCluster c f).cinderSeq = s.cinderSeq := rfl
@[simp] theorem State.modCluster_chain (s : State) (c : Nat) (f : Cluster → Cluster) : (s.modCluster c f).chain = s.chain := rfl
@[simp] theorem State.modCluster_signDue (s : State) (c : Nat) (f : Cluster → Cluster) : (s.modCluster c f).signDue = s.signDue := rfl
@[simp] theorem State.modCluster_signatures (s : State) (c : Nat) (f : Cluster → Cluster) : (s.modCluster c f).signatures = s.signatures := rfl
@[simp] theorem State.modCluster_interrupts (s : State) (c : Nat) (f : Cluster → Cluster) : (s.modCluster c f).interrupts = s.interrupts := rfl
@[simp] theorem State.modCluster_errlog (s : State) (c : Nat) (f : Cluster → Cluster) : (s.modCluster c f).errlog = s.errlog := rfl
@[simp] theorem State.modCluster_aer (s : State) (c : Nat) (f : Cluster → Cluster) : (s.modCluster c f).aer = s.aer := rfl
@[simp] theorem State.modCluster_needsReset (s : State) (c : Nat) (f : Cluster → Cluster) : (s.modCluster c f).needsReset = s.needsReset := rfl
@[simp] theorem State.modCluster_lineKeys (s : State) (c : Nat) (f : Cluster → Cluster) : (s.modCluster c f).lineKeys = s.lineKeys := rfl
@[simp] theorem State.modCluster_spdm (s : State) (c : Nat) (f : Cluster → Cluster) : (s.modCluster c f).spdm = s.spdm := rfl
@[simp] theorem State.modCluster_spdmReplies (s : State) (c : Nat) (f : Cluster → Cluster) : (s.modCluster c f).spdmReplies = s.spdmReplies := rfl
@[simp] theorem State.modCluster_inbound (s : State) (c : Nat) (f : Cluster → Cluster) : (s.modCluster c f).inbound = s.inbound := rfl

/-! ### `modDie` -/

@[simp] theorem State.modDie_sched (s : State) (d : Nat) (f : Die → Die) : (s.modDie d f).sched = s.sched := rfl
@[simp] theorem State.modDie_round (s : State) (d : Nat) (f : Die → Die) : (s.modDie d f).round = s.round := rfl
@[simp] theorem State.modDie_bellowsAt (s : State) (d : Nat) (f : Die → Die) : (s.modDie d f).bellowsAt = s.bellowsAt := rfl
@[simp] theorem State.modDie_slots (s : State) (d : Nat) (f : Die → Die) : (s.modDie d f).slots = s.slots := rfl
@[simp] theorem State.modDie_replaying (s : State) (d : Nat) (f : Die → Die) : (s.modDie d f).replaying = s.replaying := rfl
@[simp] theorem State.modDie_overdue (s : State) (d : Nat) (f : Die → Die) : (s.modDie d f).overdue = s.overdue := rfl
@[simp] theorem State.modDie_cinderBase (s : State) (d : Nat) (f : Die → Die) : (s.modDie d f).cinderBase = s.cinderBase := rfl
@[simp] theorem State.modDie_subject (s : State) (d : Nat) (f : Die → Die) : (s.modDie d f).subject = s.subject := rfl
@[simp] theorem State.modDie_issuer (s : State) (d : Nat) (f : Die → Die) : (s.modDie d f).issuer = s.issuer := rfl
@[simp] theorem State.modDie_fresh (s : State) (d : Nat) (f : Die → Die) : (s.modDie d f).fresh = s.fresh := rfl
@[simp] theorem State.modDie_nextId (s : State) (d : Nat) (f : Die → Die) : (s.modDie d f).nextId = s.nextId := rfl
@[simp] theorem State.modDie_timer (s : State) (d : Nat) (f : Die → Die) : (s.modDie d f).timer = s.timer := rfl
@[simp] theorem State.modDie_tdie (s : State) (d : Nat) (f : Die → Die) : (s.modDie d f).tdie = s.tdie := rfl
@[simp] theorem State.modDie_remap (s : State) (d : Nat) (f : Die → Die) : (s.modDie d f).remap = s.remap := rfl
@[simp] theorem State.modDie_clusters (s : State) (d : Nat) (f : Die → Die) : (s.modDie d f).clusters = s.clusters := rfl
@[simp] theorem State.modDie_domains (s : State) (d : Nat) (f : Die → Die) : (s.modDie d f).domains = s.domains := rfl
@[simp] theorem State.modDie_regs (s : State) (d : Nat) (f : Die → Die) : (s.modDie d f).regs = s.regs := rfl
@[simp] theorem State.modDie_queues (s : State) (d : Nat) (f : Die → Die) : (s.modDie d f).queues = s.queues := rfl
@[simp] theorem State.modDie_contexts (s : State) (d : Nat) (f : Die → Die) : (s.modDie d f).contexts = s.contexts := rfl
@[simp] theorem State.modDie_handles (s : State) (d : Nat) (f : Die → Die) : (s.modDie d f).handles = s.handles := rfl
@[simp] theorem State.modDie_launches (s : State) (d : Nat) (f : Die → Die) : (s.modDie d f).launches = s.launches := rfl
@[simp] theorem State.modDie_launchCount (s : State) (d : Nat) (f : Die → Die) : (s.modDie d f).launchCount = s.launchCount := rfl
@[simp] theorem State.modDie_teams (s : State) (d : Nat) (f : Die → Die) : (s.modDie d f).teams = s.teams := rfl
@[simp] theorem State.modDie_ops (s : State) (d : Nat) (f : Die → Die) : (s.modDie d f).ops = s.ops := rfl
@[simp] theorem State.modDie_reqs (s : State) (d : Nat) (f : Die → Die) : (s.modDie d f).reqs = s.reqs := rfl
@[simp] theorem State.modDie_updates (s : State) (d : Nat) (f : Die → Die) : (s.modDie d f).updates = s.updates := rfl
@[simp] theorem State.modDie_subs (s : State) (d : Nat) (f : Die → Die) : (s.modDie d f).subs = s.subs := rfl
@[simp] theorem State.modDie_l1 (s : State) (d : Nat) (f : Die → Die) : (s.modDie d f).l1 = s.l1 := rfl
@[simp] theorem State.modDie_lines (s : State) (d : Nat) (f : Die → Die) : (s.modDie d f).lines = s.lines := rfl
@[simp] theorem State.modDie_mem (s : State) (d : Nat) (f : Die → Die) : (s.modDie d f).mem = s.mem := rfl
@[simp] theorem State.modDie_hostMem (s : State) (d : Nat) (f : Die → Die) : (s.modDie d f).hostMem = s.hostMem := rfl
@[simp] theorem State.modDie_steps (s : State) (d : Nat) (f : Die → Die) : (s.modDie d f).steps = s.steps := rfl
@[simp] theorem State.modDie_lastQueue (s : State) (d : Nat) (f : Die → Die) : (s.modDie d f).lastQueue = s.lastQueue := rfl
@[simp] theorem State.modDie_cinder (s : State) (d : Nat) (f : Die → Die) : (s.modDie d f).cinder = s.cinder := rfl
@[simp] theorem State.modDie_cinderSeq (s : State) (d : Nat) (f : Die → Die) : (s.modDie d f).cinderSeq = s.cinderSeq := rfl
@[simp] theorem State.modDie_chain (s : State) (d : Nat) (f : Die → Die) : (s.modDie d f).chain = s.chain := rfl
@[simp] theorem State.modDie_signDue (s : State) (d : Nat) (f : Die → Die) : (s.modDie d f).signDue = s.signDue := rfl
@[simp] theorem State.modDie_signatures (s : State) (d : Nat) (f : Die → Die) : (s.modDie d f).signatures = s.signatures := rfl
@[simp] theorem State.modDie_interrupts (s : State) (d : Nat) (f : Die → Die) : (s.modDie d f).interrupts = s.interrupts := rfl
@[simp] theorem State.modDie_errlog (s : State) (d : Nat) (f : Die → Die) : (s.modDie d f).errlog = s.errlog := rfl
@[simp] theorem State.modDie_aer (s : State) (d : Nat) (f : Die → Die) : (s.modDie d f).aer = s.aer := rfl
@[simp] theorem State.modDie_needsReset (s : State) (d : Nat) (f : Die → Die) : (s.modDie d f).needsReset = s.needsReset := rfl
@[simp] theorem State.modDie_lineKeys (s : State) (d : Nat) (f : Die → Die) : (s.modDie d f).lineKeys = s.lineKeys := rfl
@[simp] theorem State.modDie_spdm (s : State) (d : Nat) (f : Die → Die) : (s.modDie d f).spdm = s.spdm := rfl
@[simp] theorem State.modDie_spdmReplies (s : State) (d : Nat) (f : Die → Die) : (s.modDie d f).spdmReplies = s.spdmReplies := rfl
@[simp] theorem State.modDie_inbound (s : State) (d : Nat) (f : Die → Die) : (s.modDie d f).inbound = s.inbound := rfl

/-! ### `modQueue` -/

@[simp] theorem State.modQueue_sched (s : State) (q : Nat) (f : Queue → Queue) : (s.modQueue q f).sched = s.sched := rfl
@[simp] theorem State.modQueue_round (s : State) (q : Nat) (f : Queue → Queue) : (s.modQueue q f).round = s.round := rfl
@[simp] theorem State.modQueue_bellowsAt (s : State) (q : Nat) (f : Queue → Queue) : (s.modQueue q f).bellowsAt = s.bellowsAt := rfl
@[simp] theorem State.modQueue_slots (s : State) (q : Nat) (f : Queue → Queue) : (s.modQueue q f).slots = s.slots := rfl
@[simp] theorem State.modQueue_replaying (s : State) (q : Nat) (f : Queue → Queue) : (s.modQueue q f).replaying = s.replaying := rfl
@[simp] theorem State.modQueue_overdue (s : State) (q : Nat) (f : Queue → Queue) : (s.modQueue q f).overdue = s.overdue := rfl
@[simp] theorem State.modQueue_cinderBase (s : State) (q : Nat) (f : Queue → Queue) : (s.modQueue q f).cinderBase = s.cinderBase := rfl
@[simp] theorem State.modQueue_subject (s : State) (q : Nat) (f : Queue → Queue) : (s.modQueue q f).subject = s.subject := rfl
@[simp] theorem State.modQueue_issuer (s : State) (q : Nat) (f : Queue → Queue) : (s.modQueue q f).issuer = s.issuer := rfl
@[simp] theorem State.modQueue_fresh (s : State) (q : Nat) (f : Queue → Queue) : (s.modQueue q f).fresh = s.fresh := rfl
@[simp] theorem State.modQueue_nextId (s : State) (q : Nat) (f : Queue → Queue) : (s.modQueue q f).nextId = s.nextId := rfl
@[simp] theorem State.modQueue_timer (s : State) (q : Nat) (f : Queue → Queue) : (s.modQueue q f).timer = s.timer := rfl
@[simp] theorem State.modQueue_tdie (s : State) (q : Nat) (f : Queue → Queue) : (s.modQueue q f).tdie = s.tdie := rfl
@[simp] theorem State.modQueue_remap (s : State) (q : Nat) (f : Queue → Queue) : (s.modQueue q f).remap = s.remap := rfl
@[simp] theorem State.modQueue_dies (s : State) (q : Nat) (f : Queue → Queue) : (s.modQueue q f).dies = s.dies := rfl
@[simp] theorem State.modQueue_clusters (s : State) (q : Nat) (f : Queue → Queue) : (s.modQueue q f).clusters = s.clusters := rfl
@[simp] theorem State.modQueue_domains (s : State) (q : Nat) (f : Queue → Queue) : (s.modQueue q f).domains = s.domains := rfl
@[simp] theorem State.modQueue_regs (s : State) (q : Nat) (f : Queue → Queue) : (s.modQueue q f).regs = s.regs := rfl
@[simp] theorem State.modQueue_contexts (s : State) (q : Nat) (f : Queue → Queue) : (s.modQueue q f).contexts = s.contexts := rfl
@[simp] theorem State.modQueue_handles (s : State) (q : Nat) (f : Queue → Queue) : (s.modQueue q f).handles = s.handles := rfl
@[simp] theorem State.modQueue_launches (s : State) (q : Nat) (f : Queue → Queue) : (s.modQueue q f).launches = s.launches := rfl
@[simp] theorem State.modQueue_launchCount (s : State) (q : Nat) (f : Queue → Queue) : (s.modQueue q f).launchCount = s.launchCount := rfl
@[simp] theorem State.modQueue_teams (s : State) (q : Nat) (f : Queue → Queue) : (s.modQueue q f).teams = s.teams := rfl
@[simp] theorem State.modQueue_ops (s : State) (q : Nat) (f : Queue → Queue) : (s.modQueue q f).ops = s.ops := rfl
@[simp] theorem State.modQueue_reqs (s : State) (q : Nat) (f : Queue → Queue) : (s.modQueue q f).reqs = s.reqs := rfl
@[simp] theorem State.modQueue_updates (s : State) (q : Nat) (f : Queue → Queue) : (s.modQueue q f).updates = s.updates := rfl
@[simp] theorem State.modQueue_subs (s : State) (q : Nat) (f : Queue → Queue) : (s.modQueue q f).subs = s.subs := rfl
@[simp] theorem State.modQueue_l1 (s : State) (q : Nat) (f : Queue → Queue) : (s.modQueue q f).l1 = s.l1 := rfl
@[simp] theorem State.modQueue_lines (s : State) (q : Nat) (f : Queue → Queue) : (s.modQueue q f).lines = s.lines := rfl
@[simp] theorem State.modQueue_mem (s : State) (q : Nat) (f : Queue → Queue) : (s.modQueue q f).mem = s.mem := rfl
@[simp] theorem State.modQueue_hostMem (s : State) (q : Nat) (f : Queue → Queue) : (s.modQueue q f).hostMem = s.hostMem := rfl
@[simp] theorem State.modQueue_steps (s : State) (q : Nat) (f : Queue → Queue) : (s.modQueue q f).steps = s.steps := rfl
@[simp] theorem State.modQueue_lastQueue (s : State) (q : Nat) (f : Queue → Queue) : (s.modQueue q f).lastQueue = s.lastQueue := rfl
@[simp] theorem State.modQueue_cinder (s : State) (q : Nat) (f : Queue → Queue) : (s.modQueue q f).cinder = s.cinder := rfl
@[simp] theorem State.modQueue_cinderSeq (s : State) (q : Nat) (f : Queue → Queue) : (s.modQueue q f).cinderSeq = s.cinderSeq := rfl
@[simp] theorem State.modQueue_chain (s : State) (q : Nat) (f : Queue → Queue) : (s.modQueue q f).chain = s.chain := rfl
@[simp] theorem State.modQueue_signDue (s : State) (q : Nat) (f : Queue → Queue) : (s.modQueue q f).signDue = s.signDue := rfl
@[simp] theorem State.modQueue_signatures (s : State) (q : Nat) (f : Queue → Queue) : (s.modQueue q f).signatures = s.signatures := rfl
@[simp] theorem State.modQueue_interrupts (s : State) (q : Nat) (f : Queue → Queue) : (s.modQueue q f).interrupts = s.interrupts := rfl
@[simp] theorem State.modQueue_errlog (s : State) (q : Nat) (f : Queue → Queue) : (s.modQueue q f).errlog = s.errlog := rfl
@[simp] theorem State.modQueue_aer (s : State) (q : Nat) (f : Queue → Queue) : (s.modQueue q f).aer = s.aer := rfl
@[simp] theorem State.modQueue_needsReset (s : State) (q : Nat) (f : Queue → Queue) : (s.modQueue q f).needsReset = s.needsReset := rfl
@[simp] theorem State.modQueue_lineKeys (s : State) (q : Nat) (f : Queue → Queue) : (s.modQueue q f).lineKeys = s.lineKeys := rfl
@[simp] theorem State.modQueue_spdm (s : State) (q : Nat) (f : Queue → Queue) : (s.modQueue q f).spdm = s.spdm := rfl
@[simp] theorem State.modQueue_spdmReplies (s : State) (q : Nat) (f : Queue → Queue) : (s.modQueue q f).spdmReplies = s.spdmReplies := rfl
@[simp] theorem State.modQueue_inbound (s : State) (q : Nat) (f : Queue → Queue) : (s.modQueue q f).inbound = s.inbound := rfl

/-! ### `modContext` -/

@[simp] theorem State.modContext_sched (s : State) (c : Nat) (f : Context → Context) : (s.modContext c f).sched = s.sched := rfl
@[simp] theorem State.modContext_round (s : State) (c : Nat) (f : Context → Context) : (s.modContext c f).round = s.round := rfl
@[simp] theorem State.modContext_bellowsAt (s : State) (c : Nat) (f : Context → Context) : (s.modContext c f).bellowsAt = s.bellowsAt := rfl
@[simp] theorem State.modContext_slots (s : State) (c : Nat) (f : Context → Context) : (s.modContext c f).slots = s.slots := rfl
@[simp] theorem State.modContext_replaying (s : State) (c : Nat) (f : Context → Context) : (s.modContext c f).replaying = s.replaying := rfl
@[simp] theorem State.modContext_overdue (s : State) (c : Nat) (f : Context → Context) : (s.modContext c f).overdue = s.overdue := rfl
@[simp] theorem State.modContext_cinderBase (s : State) (c : Nat) (f : Context → Context) : (s.modContext c f).cinderBase = s.cinderBase := rfl
@[simp] theorem State.modContext_subject (s : State) (c : Nat) (f : Context → Context) : (s.modContext c f).subject = s.subject := rfl
@[simp] theorem State.modContext_issuer (s : State) (c : Nat) (f : Context → Context) : (s.modContext c f).issuer = s.issuer := rfl
@[simp] theorem State.modContext_fresh (s : State) (c : Nat) (f : Context → Context) : (s.modContext c f).fresh = s.fresh := rfl
@[simp] theorem State.modContext_nextId (s : State) (c : Nat) (f : Context → Context) : (s.modContext c f).nextId = s.nextId := rfl
@[simp] theorem State.modContext_timer (s : State) (c : Nat) (f : Context → Context) : (s.modContext c f).timer = s.timer := rfl
@[simp] theorem State.modContext_tdie (s : State) (c : Nat) (f : Context → Context) : (s.modContext c f).tdie = s.tdie := rfl
@[simp] theorem State.modContext_remap (s : State) (c : Nat) (f : Context → Context) : (s.modContext c f).remap = s.remap := rfl
@[simp] theorem State.modContext_dies (s : State) (c : Nat) (f : Context → Context) : (s.modContext c f).dies = s.dies := rfl
@[simp] theorem State.modContext_clusters (s : State) (c : Nat) (f : Context → Context) : (s.modContext c f).clusters = s.clusters := rfl
@[simp] theorem State.modContext_domains (s : State) (c : Nat) (f : Context → Context) : (s.modContext c f).domains = s.domains := rfl
@[simp] theorem State.modContext_regs (s : State) (c : Nat) (f : Context → Context) : (s.modContext c f).regs = s.regs := rfl
@[simp] theorem State.modContext_queues (s : State) (c : Nat) (f : Context → Context) : (s.modContext c f).queues = s.queues := rfl
@[simp] theorem State.modContext_handles (s : State) (c : Nat) (f : Context → Context) : (s.modContext c f).handles = s.handles := rfl
@[simp] theorem State.modContext_launches (s : State) (c : Nat) (f : Context → Context) : (s.modContext c f).launches = s.launches := rfl
@[simp] theorem State.modContext_launchCount (s : State) (c : Nat) (f : Context → Context) : (s.modContext c f).launchCount = s.launchCount := rfl
@[simp] theorem State.modContext_teams (s : State) (c : Nat) (f : Context → Context) : (s.modContext c f).teams = s.teams := rfl
@[simp] theorem State.modContext_ops (s : State) (c : Nat) (f : Context → Context) : (s.modContext c f).ops = s.ops := rfl
@[simp] theorem State.modContext_reqs (s : State) (c : Nat) (f : Context → Context) : (s.modContext c f).reqs = s.reqs := rfl
@[simp] theorem State.modContext_updates (s : State) (c : Nat) (f : Context → Context) : (s.modContext c f).updates = s.updates := rfl
@[simp] theorem State.modContext_subs (s : State) (c : Nat) (f : Context → Context) : (s.modContext c f).subs = s.subs := rfl
@[simp] theorem State.modContext_l1 (s : State) (c : Nat) (f : Context → Context) : (s.modContext c f).l1 = s.l1 := rfl
@[simp] theorem State.modContext_lines (s : State) (c : Nat) (f : Context → Context) : (s.modContext c f).lines = s.lines := rfl
@[simp] theorem State.modContext_mem (s : State) (c : Nat) (f : Context → Context) : (s.modContext c f).mem = s.mem := rfl
@[simp] theorem State.modContext_hostMem (s : State) (c : Nat) (f : Context → Context) : (s.modContext c f).hostMem = s.hostMem := rfl
@[simp] theorem State.modContext_steps (s : State) (c : Nat) (f : Context → Context) : (s.modContext c f).steps = s.steps := rfl
@[simp] theorem State.modContext_lastQueue (s : State) (c : Nat) (f : Context → Context) : (s.modContext c f).lastQueue = s.lastQueue := rfl
@[simp] theorem State.modContext_cinder (s : State) (c : Nat) (f : Context → Context) : (s.modContext c f).cinder = s.cinder := rfl
@[simp] theorem State.modContext_cinderSeq (s : State) (c : Nat) (f : Context → Context) : (s.modContext c f).cinderSeq = s.cinderSeq := rfl
@[simp] theorem State.modContext_chain (s : State) (c : Nat) (f : Context → Context) : (s.modContext c f).chain = s.chain := rfl
@[simp] theorem State.modContext_signDue (s : State) (c : Nat) (f : Context → Context) : (s.modContext c f).signDue = s.signDue := rfl
@[simp] theorem State.modContext_signatures (s : State) (c : Nat) (f : Context → Context) : (s.modContext c f).signatures = s.signatures := rfl
@[simp] theorem State.modContext_interrupts (s : State) (c : Nat) (f : Context → Context) : (s.modContext c f).interrupts = s.interrupts := rfl
@[simp] theorem State.modContext_errlog (s : State) (c : Nat) (f : Context → Context) : (s.modContext c f).errlog = s.errlog := rfl
@[simp] theorem State.modContext_aer (s : State) (c : Nat) (f : Context → Context) : (s.modContext c f).aer = s.aer := rfl
@[simp] theorem State.modContext_needsReset (s : State) (c : Nat) (f : Context → Context) : (s.modContext c f).needsReset = s.needsReset := rfl
@[simp] theorem State.modContext_lineKeys (s : State) (c : Nat) (f : Context → Context) : (s.modContext c f).lineKeys = s.lineKeys := rfl
@[simp] theorem State.modContext_spdm (s : State) (c : Nat) (f : Context → Context) : (s.modContext c f).spdm = s.spdm := rfl
@[simp] theorem State.modContext_spdmReplies (s : State) (c : Nat) (f : Context → Context) : (s.modContext c f).spdmReplies = s.spdmReplies := rfl
@[simp] theorem State.modContext_inbound (s : State) (c : Nat) (f : Context → Context) : (s.modContext c f).inbound = s.inbound := rfl

/-! ### `modLaunch` -/

@[simp] theorem State.modLaunch_sched (s : State) (l : Nat) (f : Launch → Launch) : (s.modLaunch l f).sched = s.sched := rfl
@[simp] theorem State.modLaunch_round (s : State) (l : Nat) (f : Launch → Launch) : (s.modLaunch l f).round = s.round := rfl
@[simp] theorem State.modLaunch_bellowsAt (s : State) (l : Nat) (f : Launch → Launch) : (s.modLaunch l f).bellowsAt = s.bellowsAt := rfl
@[simp] theorem State.modLaunch_slots (s : State) (l : Nat) (f : Launch → Launch) : (s.modLaunch l f).slots = s.slots := rfl
@[simp] theorem State.modLaunch_replaying (s : State) (l : Nat) (f : Launch → Launch) : (s.modLaunch l f).replaying = s.replaying := rfl
@[simp] theorem State.modLaunch_overdue (s : State) (l : Nat) (f : Launch → Launch) : (s.modLaunch l f).overdue = s.overdue := rfl
@[simp] theorem State.modLaunch_cinderBase (s : State) (l : Nat) (f : Launch → Launch) : (s.modLaunch l f).cinderBase = s.cinderBase := rfl
@[simp] theorem State.modLaunch_subject (s : State) (l : Nat) (f : Launch → Launch) : (s.modLaunch l f).subject = s.subject := rfl
@[simp] theorem State.modLaunch_issuer (s : State) (l : Nat) (f : Launch → Launch) : (s.modLaunch l f).issuer = s.issuer := rfl
@[simp] theorem State.modLaunch_fresh (s : State) (l : Nat) (f : Launch → Launch) : (s.modLaunch l f).fresh = s.fresh := rfl
@[simp] theorem State.modLaunch_nextId (s : State) (l : Nat) (f : Launch → Launch) : (s.modLaunch l f).nextId = s.nextId := rfl
@[simp] theorem State.modLaunch_timer (s : State) (l : Nat) (f : Launch → Launch) : (s.modLaunch l f).timer = s.timer := rfl
@[simp] theorem State.modLaunch_tdie (s : State) (l : Nat) (f : Launch → Launch) : (s.modLaunch l f).tdie = s.tdie := rfl
@[simp] theorem State.modLaunch_remap (s : State) (l : Nat) (f : Launch → Launch) : (s.modLaunch l f).remap = s.remap := rfl
@[simp] theorem State.modLaunch_dies (s : State) (l : Nat) (f : Launch → Launch) : (s.modLaunch l f).dies = s.dies := rfl
@[simp] theorem State.modLaunch_clusters (s : State) (l : Nat) (f : Launch → Launch) : (s.modLaunch l f).clusters = s.clusters := rfl
@[simp] theorem State.modLaunch_domains (s : State) (l : Nat) (f : Launch → Launch) : (s.modLaunch l f).domains = s.domains := rfl
@[simp] theorem State.modLaunch_regs (s : State) (l : Nat) (f : Launch → Launch) : (s.modLaunch l f).regs = s.regs := rfl
@[simp] theorem State.modLaunch_queues (s : State) (l : Nat) (f : Launch → Launch) : (s.modLaunch l f).queues = s.queues := rfl
@[simp] theorem State.modLaunch_contexts (s : State) (l : Nat) (f : Launch → Launch) : (s.modLaunch l f).contexts = s.contexts := rfl
@[simp] theorem State.modLaunch_handles (s : State) (l : Nat) (f : Launch → Launch) : (s.modLaunch l f).handles = s.handles := rfl
@[simp] theorem State.modLaunch_launchCount (s : State) (l : Nat) (f : Launch → Launch) : (s.modLaunch l f).launchCount = s.launchCount := rfl
@[simp] theorem State.modLaunch_teams (s : State) (l : Nat) (f : Launch → Launch) : (s.modLaunch l f).teams = s.teams := rfl
@[simp] theorem State.modLaunch_ops (s : State) (l : Nat) (f : Launch → Launch) : (s.modLaunch l f).ops = s.ops := rfl
@[simp] theorem State.modLaunch_reqs (s : State) (l : Nat) (f : Launch → Launch) : (s.modLaunch l f).reqs = s.reqs := rfl
@[simp] theorem State.modLaunch_updates (s : State) (l : Nat) (f : Launch → Launch) : (s.modLaunch l f).updates = s.updates := rfl
@[simp] theorem State.modLaunch_subs (s : State) (l : Nat) (f : Launch → Launch) : (s.modLaunch l f).subs = s.subs := rfl
@[simp] theorem State.modLaunch_l1 (s : State) (l : Nat) (f : Launch → Launch) : (s.modLaunch l f).l1 = s.l1 := rfl
@[simp] theorem State.modLaunch_lines (s : State) (l : Nat) (f : Launch → Launch) : (s.modLaunch l f).lines = s.lines := rfl
@[simp] theorem State.modLaunch_mem (s : State) (l : Nat) (f : Launch → Launch) : (s.modLaunch l f).mem = s.mem := rfl
@[simp] theorem State.modLaunch_hostMem (s : State) (l : Nat) (f : Launch → Launch) : (s.modLaunch l f).hostMem = s.hostMem := rfl
@[simp] theorem State.modLaunch_steps (s : State) (l : Nat) (f : Launch → Launch) : (s.modLaunch l f).steps = s.steps := rfl
@[simp] theorem State.modLaunch_lastQueue (s : State) (l : Nat) (f : Launch → Launch) : (s.modLaunch l f).lastQueue = s.lastQueue := rfl
@[simp] theorem State.modLaunch_cinder (s : State) (l : Nat) (f : Launch → Launch) : (s.modLaunch l f).cinder = s.cinder := rfl
@[simp] theorem State.modLaunch_cinderSeq (s : State) (l : Nat) (f : Launch → Launch) : (s.modLaunch l f).cinderSeq = s.cinderSeq := rfl
@[simp] theorem State.modLaunch_chain (s : State) (l : Nat) (f : Launch → Launch) : (s.modLaunch l f).chain = s.chain := rfl
@[simp] theorem State.modLaunch_signDue (s : State) (l : Nat) (f : Launch → Launch) : (s.modLaunch l f).signDue = s.signDue := rfl
@[simp] theorem State.modLaunch_signatures (s : State) (l : Nat) (f : Launch → Launch) : (s.modLaunch l f).signatures = s.signatures := rfl
@[simp] theorem State.modLaunch_interrupts (s : State) (l : Nat) (f : Launch → Launch) : (s.modLaunch l f).interrupts = s.interrupts := rfl
@[simp] theorem State.modLaunch_errlog (s : State) (l : Nat) (f : Launch → Launch) : (s.modLaunch l f).errlog = s.errlog := rfl
@[simp] theorem State.modLaunch_aer (s : State) (l : Nat) (f : Launch → Launch) : (s.modLaunch l f).aer = s.aer := rfl
@[simp] theorem State.modLaunch_needsReset (s : State) (l : Nat) (f : Launch → Launch) : (s.modLaunch l f).needsReset = s.needsReset := rfl
@[simp] theorem State.modLaunch_lineKeys (s : State) (l : Nat) (f : Launch → Launch) : (s.modLaunch l f).lineKeys = s.lineKeys := rfl
@[simp] theorem State.modLaunch_spdm (s : State) (l : Nat) (f : Launch → Launch) : (s.modLaunch l f).spdm = s.spdm := rfl
@[simp] theorem State.modLaunch_spdmReplies (s : State) (l : Nat) (f : Launch → Launch) : (s.modLaunch l f).spdmReplies = s.spdmReplies := rfl
@[simp] theorem State.modLaunch_inbound (s : State) (l : Nat) (f : Launch → Launch) : (s.modLaunch l f).inbound = s.inbound := rfl

/-! ### `withId` -/

@[simp] theorem State.withId_sched (s : State) : (s.withId).sched = s.sched := rfl
@[simp] theorem State.withId_round (s : State) : (s.withId).round = s.round := rfl
@[simp] theorem State.withId_bellowsAt (s : State) : (s.withId).bellowsAt = s.bellowsAt := rfl
@[simp] theorem State.withId_slots (s : State) : (s.withId).slots = s.slots := rfl
@[simp] theorem State.withId_replaying (s : State) : (s.withId).replaying = s.replaying := rfl
@[simp] theorem State.withId_overdue (s : State) : (s.withId).overdue = s.overdue := rfl
@[simp] theorem State.withId_cinderBase (s : State) : (s.withId).cinderBase = s.cinderBase := rfl
@[simp] theorem State.withId_subject (s : State) : (s.withId).subject = s.subject := rfl
@[simp] theorem State.withId_issuer (s : State) : (s.withId).issuer = s.issuer := rfl
@[simp] theorem State.withId_fresh (s : State) : (s.withId).fresh = s.fresh := rfl
@[simp] theorem State.withId_timer (s : State) : (s.withId).timer = s.timer := rfl
@[simp] theorem State.withId_tdie (s : State) : (s.withId).tdie = s.tdie := rfl
@[simp] theorem State.withId_remap (s : State) : (s.withId).remap = s.remap := rfl
@[simp] theorem State.withId_dies (s : State) : (s.withId).dies = s.dies := rfl
@[simp] theorem State.withId_clusters (s : State) : (s.withId).clusters = s.clusters := rfl
@[simp] theorem State.withId_domains (s : State) : (s.withId).domains = s.domains := rfl
@[simp] theorem State.withId_regs (s : State) : (s.withId).regs = s.regs := rfl
@[simp] theorem State.withId_queues (s : State) : (s.withId).queues = s.queues := rfl
@[simp] theorem State.withId_contexts (s : State) : (s.withId).contexts = s.contexts := rfl
@[simp] theorem State.withId_handles (s : State) : (s.withId).handles = s.handles := rfl
@[simp] theorem State.withId_launches (s : State) : (s.withId).launches = s.launches := rfl
@[simp] theorem State.withId_launchCount (s : State) : (s.withId).launchCount = s.launchCount := rfl
@[simp] theorem State.withId_teams (s : State) : (s.withId).teams = s.teams := rfl
@[simp] theorem State.withId_ops (s : State) : (s.withId).ops = s.ops := rfl
@[simp] theorem State.withId_reqs (s : State) : (s.withId).reqs = s.reqs := rfl
@[simp] theorem State.withId_updates (s : State) : (s.withId).updates = s.updates := rfl
@[simp] theorem State.withId_subs (s : State) : (s.withId).subs = s.subs := rfl
@[simp] theorem State.withId_l1 (s : State) : (s.withId).l1 = s.l1 := rfl
@[simp] theorem State.withId_lines (s : State) : (s.withId).lines = s.lines := rfl
@[simp] theorem State.withId_mem (s : State) : (s.withId).mem = s.mem := rfl
@[simp] theorem State.withId_hostMem (s : State) : (s.withId).hostMem = s.hostMem := rfl
@[simp] theorem State.withId_steps (s : State) : (s.withId).steps = s.steps := rfl
@[simp] theorem State.withId_lastQueue (s : State) : (s.withId).lastQueue = s.lastQueue := rfl
@[simp] theorem State.withId_cinder (s : State) : (s.withId).cinder = s.cinder := rfl
@[simp] theorem State.withId_cinderSeq (s : State) : (s.withId).cinderSeq = s.cinderSeq := rfl
@[simp] theorem State.withId_chain (s : State) : (s.withId).chain = s.chain := rfl
@[simp] theorem State.withId_signDue (s : State) : (s.withId).signDue = s.signDue := rfl
@[simp] theorem State.withId_signatures (s : State) : (s.withId).signatures = s.signatures := rfl
@[simp] theorem State.withId_interrupts (s : State) : (s.withId).interrupts = s.interrupts := rfl
@[simp] theorem State.withId_errlog (s : State) : (s.withId).errlog = s.errlog := rfl
@[simp] theorem State.withId_aer (s : State) : (s.withId).aer = s.aer := rfl
@[simp] theorem State.withId_needsReset (s : State) : (s.withId).needsReset = s.needsReset := rfl
@[simp] theorem State.withId_lineKeys (s : State) : (s.withId).lineKeys = s.lineKeys := rfl
@[simp] theorem State.withId_spdm (s : State) : (s.withId).spdm = s.spdm := rfl
@[simp] theorem State.withId_spdmReplies (s : State) : (s.withId).spdmReplies = s.spdmReplies := rfl
@[simp] theorem State.withId_inbound (s : State) : (s.withId).inbound = s.inbound := rfl

/-! ### `draw` -/

@[simp] theorem State.draw_sched (s : State) : (s.draw).sched = s.sched := rfl
@[simp] theorem State.draw_round (s : State) : (s.draw).round = s.round := rfl
@[simp] theorem State.draw_bellowsAt (s : State) : (s.draw).bellowsAt = s.bellowsAt := rfl
@[simp] theorem State.draw_slots (s : State) : (s.draw).slots = s.slots := rfl
@[simp] theorem State.draw_replaying (s : State) : (s.draw).replaying = s.replaying := rfl
@[simp] theorem State.draw_overdue (s : State) : (s.draw).overdue = s.overdue := rfl
@[simp] theorem State.draw_cinderBase (s : State) : (s.draw).cinderBase = s.cinderBase := rfl
@[simp] theorem State.draw_subject (s : State) : (s.draw).subject = s.subject := rfl
@[simp] theorem State.draw_issuer (s : State) : (s.draw).issuer = s.issuer := rfl
@[simp] theorem State.draw_nextId (s : State) : (s.draw).nextId = s.nextId := rfl
@[simp] theorem State.draw_timer (s : State) : (s.draw).timer = s.timer := rfl
@[simp] theorem State.draw_tdie (s : State) : (s.draw).tdie = s.tdie := rfl
@[simp] theorem State.draw_remap (s : State) : (s.draw).remap = s.remap := rfl
@[simp] theorem State.draw_dies (s : State) : (s.draw).dies = s.dies := rfl
@[simp] theorem State.draw_clusters (s : State) : (s.draw).clusters = s.clusters := rfl
@[simp] theorem State.draw_domains (s : State) : (s.draw).domains = s.domains := rfl
@[simp] theorem State.draw_regs (s : State) : (s.draw).regs = s.regs := rfl
@[simp] theorem State.draw_queues (s : State) : (s.draw).queues = s.queues := rfl
@[simp] theorem State.draw_contexts (s : State) : (s.draw).contexts = s.contexts := rfl
@[simp] theorem State.draw_handles (s : State) : (s.draw).handles = s.handles := rfl
@[simp] theorem State.draw_launches (s : State) : (s.draw).launches = s.launches := rfl
@[simp] theorem State.draw_launchCount (s : State) : (s.draw).launchCount = s.launchCount := rfl
@[simp] theorem State.draw_teams (s : State) : (s.draw).teams = s.teams := rfl
@[simp] theorem State.draw_ops (s : State) : (s.draw).ops = s.ops := rfl
@[simp] theorem State.draw_reqs (s : State) : (s.draw).reqs = s.reqs := rfl
@[simp] theorem State.draw_updates (s : State) : (s.draw).updates = s.updates := rfl
@[simp] theorem State.draw_subs (s : State) : (s.draw).subs = s.subs := rfl
@[simp] theorem State.draw_l1 (s : State) : (s.draw).l1 = s.l1 := rfl
@[simp] theorem State.draw_lines (s : State) : (s.draw).lines = s.lines := rfl
@[simp] theorem State.draw_mem (s : State) : (s.draw).mem = s.mem := rfl
@[simp] theorem State.draw_hostMem (s : State) : (s.draw).hostMem = s.hostMem := rfl
@[simp] theorem State.draw_steps (s : State) : (s.draw).steps = s.steps := rfl
@[simp] theorem State.draw_lastQueue (s : State) : (s.draw).lastQueue = s.lastQueue := rfl
@[simp] theorem State.draw_cinder (s : State) : (s.draw).cinder = s.cinder := rfl
@[simp] theorem State.draw_cinderSeq (s : State) : (s.draw).cinderSeq = s.cinderSeq := rfl
@[simp] theorem State.draw_chain (s : State) : (s.draw).chain = s.chain := rfl
@[simp] theorem State.draw_signDue (s : State) : (s.draw).signDue = s.signDue := rfl
@[simp] theorem State.draw_signatures (s : State) : (s.draw).signatures = s.signatures := rfl
@[simp] theorem State.draw_interrupts (s : State) : (s.draw).interrupts = s.interrupts := rfl
@[simp] theorem State.draw_errlog (s : State) : (s.draw).errlog = s.errlog := rfl
@[simp] theorem State.draw_aer (s : State) : (s.draw).aer = s.aer := rfl
@[simp] theorem State.draw_needsReset (s : State) : (s.draw).needsReset = s.needsReset := rfl
@[simp] theorem State.draw_lineKeys (s : State) : (s.draw).lineKeys = s.lineKeys := rfl
@[simp] theorem State.draw_spdm (s : State) : (s.draw).spdm = s.spdm := rfl
@[simp] theorem State.draw_spdmReplies (s : State) : (s.draw).spdmReplies = s.spdmReplies := rfl
@[simp] theorem State.draw_inbound (s : State) : (s.draw).inbound = s.inbound := rfl

/-! ### `cancelWrites` -/

@[simp] theorem State.cancelWrites_sched (s : State) (i : Issuer) (rs : List RegName) : (s.cancelWrites i rs).sched = s.sched := rfl
@[simp] theorem State.cancelWrites_round (s : State) (i : Issuer) (rs : List RegName) : (s.cancelWrites i rs).round = s.round := rfl
@[simp] theorem State.cancelWrites_bellowsAt (s : State) (i : Issuer) (rs : List RegName) : (s.cancelWrites i rs).bellowsAt = s.bellowsAt := rfl
@[simp] theorem State.cancelWrites_slots (s : State) (i : Issuer) (rs : List RegName) : (s.cancelWrites i rs).slots = s.slots := rfl
@[simp] theorem State.cancelWrites_replaying (s : State) (i : Issuer) (rs : List RegName) : (s.cancelWrites i rs).replaying = s.replaying := rfl
@[simp] theorem State.cancelWrites_overdue (s : State) (i : Issuer) (rs : List RegName) : (s.cancelWrites i rs).overdue = s.overdue := rfl
@[simp] theorem State.cancelWrites_cinderBase (s : State) (i : Issuer) (rs : List RegName) : (s.cancelWrites i rs).cinderBase = s.cinderBase := rfl
@[simp] theorem State.cancelWrites_subject (s : State) (i : Issuer) (rs : List RegName) : (s.cancelWrites i rs).subject = s.subject := rfl
@[simp] theorem State.cancelWrites_issuer (s : State) (i : Issuer) (rs : List RegName) : (s.cancelWrites i rs).issuer = s.issuer := rfl
@[simp] theorem State.cancelWrites_fresh (s : State) (i : Issuer) (rs : List RegName) : (s.cancelWrites i rs).fresh = s.fresh := rfl
@[simp] theorem State.cancelWrites_nextId (s : State) (i : Issuer) (rs : List RegName) : (s.cancelWrites i rs).nextId = s.nextId := rfl
@[simp] theorem State.cancelWrites_timer (s : State) (i : Issuer) (rs : List RegName) : (s.cancelWrites i rs).timer = s.timer := rfl
@[simp] theorem State.cancelWrites_tdie (s : State) (i : Issuer) (rs : List RegName) : (s.cancelWrites i rs).tdie = s.tdie := rfl
@[simp] theorem State.cancelWrites_remap (s : State) (i : Issuer) (rs : List RegName) : (s.cancelWrites i rs).remap = s.remap := rfl
@[simp] theorem State.cancelWrites_dies (s : State) (i : Issuer) (rs : List RegName) : (s.cancelWrites i rs).dies = s.dies := rfl
@[simp] theorem State.cancelWrites_clusters (s : State) (i : Issuer) (rs : List RegName) : (s.cancelWrites i rs).clusters = s.clusters := rfl
@[simp] theorem State.cancelWrites_domains (s : State) (i : Issuer) (rs : List RegName) : (s.cancelWrites i rs).domains = s.domains := rfl
@[simp] theorem State.cancelWrites_regs (s : State) (i : Issuer) (rs : List RegName) : (s.cancelWrites i rs).regs = s.regs := rfl
@[simp] theorem State.cancelWrites_queues (s : State) (i : Issuer) (rs : List RegName) : (s.cancelWrites i rs).queues = s.queues := rfl
@[simp] theorem State.cancelWrites_contexts (s : State) (i : Issuer) (rs : List RegName) : (s.cancelWrites i rs).contexts = s.contexts := rfl
@[simp] theorem State.cancelWrites_handles (s : State) (i : Issuer) (rs : List RegName) : (s.cancelWrites i rs).handles = s.handles := rfl
@[simp] theorem State.cancelWrites_launches (s : State) (i : Issuer) (rs : List RegName) : (s.cancelWrites i rs).launches = s.launches := rfl
@[simp] theorem State.cancelWrites_launchCount (s : State) (i : Issuer) (rs : List RegName) : (s.cancelWrites i rs).launchCount = s.launchCount := rfl
@[simp] theorem State.cancelWrites_teams (s : State) (i : Issuer) (rs : List RegName) : (s.cancelWrites i rs).teams = s.teams := rfl
@[simp] theorem State.cancelWrites_reqs (s : State) (i : Issuer) (rs : List RegName) : (s.cancelWrites i rs).reqs = s.reqs := rfl
@[simp] theorem State.cancelWrites_updates (s : State) (i : Issuer) (rs : List RegName) : (s.cancelWrites i rs).updates = s.updates := rfl
@[simp] theorem State.cancelWrites_subs (s : State) (i : Issuer) (rs : List RegName) : (s.cancelWrites i rs).subs = s.subs := rfl
@[simp] theorem State.cancelWrites_l1 (s : State) (i : Issuer) (rs : List RegName) : (s.cancelWrites i rs).l1 = s.l1 := rfl
@[simp] theorem State.cancelWrites_lines (s : State) (i : Issuer) (rs : List RegName) : (s.cancelWrites i rs).lines = s.lines := rfl
@[simp] theorem State.cancelWrites_mem (s : State) (i : Issuer) (rs : List RegName) : (s.cancelWrites i rs).mem = s.mem := rfl
@[simp] theorem State.cancelWrites_hostMem (s : State) (i : Issuer) (rs : List RegName) : (s.cancelWrites i rs).hostMem = s.hostMem := rfl
@[simp] theorem State.cancelWrites_steps (s : State) (i : Issuer) (rs : List RegName) : (s.cancelWrites i rs).steps = s.steps := rfl
@[simp] theorem State.cancelWrites_lastQueue (s : State) (i : Issuer) (rs : List RegName) : (s.cancelWrites i rs).lastQueue = s.lastQueue := rfl
@[simp] theorem State.cancelWrites_cinder (s : State) (i : Issuer) (rs : List RegName) : (s.cancelWrites i rs).cinder = s.cinder := rfl
@[simp] theorem State.cancelWrites_cinderSeq (s : State) (i : Issuer) (rs : List RegName) : (s.cancelWrites i rs).cinderSeq = s.cinderSeq := rfl
@[simp] theorem State.cancelWrites_chain (s : State) (i : Issuer) (rs : List RegName) : (s.cancelWrites i rs).chain = s.chain := rfl
@[simp] theorem State.cancelWrites_signDue (s : State) (i : Issuer) (rs : List RegName) : (s.cancelWrites i rs).signDue = s.signDue := rfl
@[simp] theorem State.cancelWrites_signatures (s : State) (i : Issuer) (rs : List RegName) : (s.cancelWrites i rs).signatures = s.signatures := rfl
@[simp] theorem State.cancelWrites_interrupts (s : State) (i : Issuer) (rs : List RegName) : (s.cancelWrites i rs).interrupts = s.interrupts := rfl
@[simp] theorem State.cancelWrites_errlog (s : State) (i : Issuer) (rs : List RegName) : (s.cancelWrites i rs).errlog = s.errlog := rfl
@[simp] theorem State.cancelWrites_aer (s : State) (i : Issuer) (rs : List RegName) : (s.cancelWrites i rs).aer = s.aer := rfl
@[simp] theorem State.cancelWrites_needsReset (s : State) (i : Issuer) (rs : List RegName) : (s.cancelWrites i rs).needsReset = s.needsReset := rfl
@[simp] theorem State.cancelWrites_lineKeys (s : State) (i : Issuer) (rs : List RegName) : (s.cancelWrites i rs).lineKeys = s.lineKeys := rfl
@[simp] theorem State.cancelWrites_spdm (s : State) (i : Issuer) (rs : List RegName) : (s.cancelWrites i rs).spdm = s.spdm := rfl
@[simp] theorem State.cancelWrites_spdmReplies (s : State) (i : Issuer) (rs : List RegName) : (s.cancelWrites i rs).spdmReplies = s.spdmReplies := rfl
@[simp] theorem State.cancelWrites_inbound (s : State) (i : Issuer) (rs : List RegName) : (s.cancelWrites i rs).inbound = s.inbound := rfl

/-! ### `modUnit` -/

@[simp] theorem State.modUnit_sched (s : State) (i : Issuer) (f : Group → Group) : (s.modUnit i f).sched = s.sched := by cases i <;> rfl
@[simp] theorem State.modUnit_round (s : State) (i : Issuer) (f : Group → Group) : (s.modUnit i f).round = s.round := by cases i <;> rfl
@[simp] theorem State.modUnit_bellowsAt (s : State) (i : Issuer) (f : Group → Group) : (s.modUnit i f).bellowsAt = s.bellowsAt := by cases i <;> rfl
@[simp] theorem State.modUnit_slots (s : State) (i : Issuer) (f : Group → Group) : (s.modUnit i f).slots = s.slots := by cases i <;> rfl
@[simp] theorem State.modUnit_replaying (s : State) (i : Issuer) (f : Group → Group) : (s.modUnit i f).replaying = s.replaying := by cases i <;> rfl
@[simp] theorem State.modUnit_overdue (s : State) (i : Issuer) (f : Group → Group) : (s.modUnit i f).overdue = s.overdue := by cases i <;> rfl
@[simp] theorem State.modUnit_cinderBase (s : State) (i : Issuer) (f : Group → Group) : (s.modUnit i f).cinderBase = s.cinderBase := by cases i <;> rfl
@[simp] theorem State.modUnit_subject (s : State) (i : Issuer) (f : Group → Group) : (s.modUnit i f).subject = s.subject := by cases i <;> rfl
@[simp] theorem State.modUnit_issuer (s : State) (i : Issuer) (f : Group → Group) : (s.modUnit i f).issuer = s.issuer := by cases i <;> rfl
@[simp] theorem State.modUnit_fresh (s : State) (i : Issuer) (f : Group → Group) : (s.modUnit i f).fresh = s.fresh := by cases i <;> rfl
@[simp] theorem State.modUnit_nextId (s : State) (i : Issuer) (f : Group → Group) : (s.modUnit i f).nextId = s.nextId := by cases i <;> rfl
@[simp] theorem State.modUnit_timer (s : State) (i : Issuer) (f : Group → Group) : (s.modUnit i f).timer = s.timer := by cases i <;> rfl
@[simp] theorem State.modUnit_tdie (s : State) (i : Issuer) (f : Group → Group) : (s.modUnit i f).tdie = s.tdie := by cases i <;> rfl
@[simp] theorem State.modUnit_remap (s : State) (i : Issuer) (f : Group → Group) : (s.modUnit i f).remap = s.remap := by cases i <;> rfl
@[simp] theorem State.modUnit_dies (s : State) (i : Issuer) (f : Group → Group) : (s.modUnit i f).dies = s.dies := by cases i <;> rfl
@[simp] theorem State.modUnit_domains (s : State) (i : Issuer) (f : Group → Group) : (s.modUnit i f).domains = s.domains := by cases i <;> rfl
@[simp] theorem State.modUnit_regs (s : State) (i : Issuer) (f : Group → Group) : (s.modUnit i f).regs = s.regs := by cases i <;> rfl
@[simp] theorem State.modUnit_queues (s : State) (i : Issuer) (f : Group → Group) : (s.modUnit i f).queues = s.queues := by cases i <;> rfl
@[simp] theorem State.modUnit_contexts (s : State) (i : Issuer) (f : Group → Group) : (s.modUnit i f).contexts = s.contexts := by cases i <;> rfl
@[simp] theorem State.modUnit_handles (s : State) (i : Issuer) (f : Group → Group) : (s.modUnit i f).handles = s.handles := by cases i <;> rfl
@[simp] theorem State.modUnit_launches (s : State) (i : Issuer) (f : Group → Group) : (s.modUnit i f).launches = s.launches := by cases i <;> rfl
@[simp] theorem State.modUnit_launchCount (s : State) (i : Issuer) (f : Group → Group) : (s.modUnit i f).launchCount = s.launchCount := by cases i <;> rfl
@[simp] theorem State.modUnit_ops (s : State) (i : Issuer) (f : Group → Group) : (s.modUnit i f).ops = s.ops := by cases i <;> rfl
@[simp] theorem State.modUnit_reqs (s : State) (i : Issuer) (f : Group → Group) : (s.modUnit i f).reqs = s.reqs := by cases i <;> rfl
@[simp] theorem State.modUnit_updates (s : State) (i : Issuer) (f : Group → Group) : (s.modUnit i f).updates = s.updates := by cases i <;> rfl
@[simp] theorem State.modUnit_subs (s : State) (i : Issuer) (f : Group → Group) : (s.modUnit i f).subs = s.subs := by cases i <;> rfl
@[simp] theorem State.modUnit_l1 (s : State) (i : Issuer) (f : Group → Group) : (s.modUnit i f).l1 = s.l1 := by cases i <;> rfl
@[simp] theorem State.modUnit_lines (s : State) (i : Issuer) (f : Group → Group) : (s.modUnit i f).lines = s.lines := by cases i <;> rfl
@[simp] theorem State.modUnit_mem (s : State) (i : Issuer) (f : Group → Group) : (s.modUnit i f).mem = s.mem := by cases i <;> rfl
@[simp] theorem State.modUnit_hostMem (s : State) (i : Issuer) (f : Group → Group) : (s.modUnit i f).hostMem = s.hostMem := by cases i <;> rfl
@[simp] theorem State.modUnit_steps (s : State) (i : Issuer) (f : Group → Group) : (s.modUnit i f).steps = s.steps := by cases i <;> rfl
@[simp] theorem State.modUnit_lastQueue (s : State) (i : Issuer) (f : Group → Group) : (s.modUnit i f).lastQueue = s.lastQueue := by cases i <;> rfl
@[simp] theorem State.modUnit_cinder (s : State) (i : Issuer) (f : Group → Group) : (s.modUnit i f).cinder = s.cinder := by cases i <;> rfl
@[simp] theorem State.modUnit_cinderSeq (s : State) (i : Issuer) (f : Group → Group) : (s.modUnit i f).cinderSeq = s.cinderSeq := by cases i <;> rfl
@[simp] theorem State.modUnit_chain (s : State) (i : Issuer) (f : Group → Group) : (s.modUnit i f).chain = s.chain := by cases i <;> rfl
@[simp] theorem State.modUnit_signDue (s : State) (i : Issuer) (f : Group → Group) : (s.modUnit i f).signDue = s.signDue := by cases i <;> rfl
@[simp] theorem State.modUnit_signatures (s : State) (i : Issuer) (f : Group → Group) : (s.modUnit i f).signatures = s.signatures := by cases i <;> rfl
@[simp] theorem State.modUnit_interrupts (s : State) (i : Issuer) (f : Group → Group) : (s.modUnit i f).interrupts = s.interrupts := by cases i <;> rfl
@[simp] theorem State.modUnit_errlog (s : State) (i : Issuer) (f : Group → Group) : (s.modUnit i f).errlog = s.errlog := by cases i <;> rfl
@[simp] theorem State.modUnit_aer (s : State) (i : Issuer) (f : Group → Group) : (s.modUnit i f).aer = s.aer := by cases i <;> rfl
@[simp] theorem State.modUnit_needsReset (s : State) (i : Issuer) (f : Group → Group) : (s.modUnit i f).needsReset = s.needsReset := by cases i <;> rfl
@[simp] theorem State.modUnit_lineKeys (s : State) (i : Issuer) (f : Group → Group) : (s.modUnit i f).lineKeys = s.lineKeys := by cases i <;> rfl
@[simp] theorem State.modUnit_spdm (s : State) (i : Issuer) (f : Group → Group) : (s.modUnit i f).spdm = s.spdm := by cases i <;> rfl
@[simp] theorem State.modUnit_spdmReplies (s : State) (i : Issuer) (f : Group → Group) : (s.modUnit i f).spdmReplies = s.spdmReplies := by cases i <;> rfl
@[simp] theorem State.modUnit_inbound (s : State) (i : Issuer) (f : Group → Group) : (s.modUnit i f).inbound = s.inbound := by cases i <;> rfl

/-! ### `issued` -/

@[simp] theorem State.issued_sched (s : State) : s.issued.sched = s.sched := by unfold State.issued; split <;> rfl
@[simp] theorem State.issued_round (s : State) : s.issued.round = s.round := by unfold State.issued; split <;> rfl
@[simp] theorem State.issued_bellowsAt (s : State) : s.issued.bellowsAt = s.bellowsAt := by unfold State.issued; split <;> rfl
@[simp] theorem State.issued_slots (s : State) : s.issued.slots = s.slots := by unfold State.issued; split <;> rfl
@[simp] theorem State.issued_replaying (s : State) : s.issued.replaying = s.replaying := by unfold State.issued; split <;> rfl
@[simp] theorem State.issued_overdue (s : State) : s.issued.overdue = s.overdue := by unfold State.issued; split <;> rfl
@[simp] theorem State.issued_cinderBase (s : State) : s.issued.cinderBase = s.cinderBase := by unfold State.issued; split <;> rfl
@[simp] theorem State.issued_subject (s : State) : s.issued.subject = s.subject := by unfold State.issued; split <;> rfl
@[simp] theorem State.issued_issuer (s : State) : s.issued.issuer = s.issuer := by unfold State.issued; split <;> rfl
@[simp] theorem State.issued_fresh (s : State) : s.issued.fresh = s.fresh := by unfold State.issued; split <;> rfl
@[simp] theorem State.issued_nextId (s : State) : s.issued.nextId = s.nextId := by unfold State.issued; split <;> rfl
@[simp] theorem State.issued_timer (s : State) : s.issued.timer = s.timer := by unfold State.issued; split <;> rfl
@[simp] theorem State.issued_tdie (s : State) : s.issued.tdie = s.tdie := by unfold State.issued; split <;> rfl
@[simp] theorem State.issued_remap (s : State) : s.issued.remap = s.remap := by unfold State.issued; split <;> rfl
@[simp] theorem State.issued_dies (s : State) : s.issued.dies = s.dies := by unfold State.issued; split <;> rfl
@[simp] theorem State.issued_clusters (s : State) : s.issued.clusters = s.clusters := by unfold State.issued; split <;> rfl
@[simp] theorem State.issued_regs (s : State) : s.issued.regs = s.regs := by unfold State.issued; split <;> rfl
@[simp] theorem State.issued_queues (s : State) : s.issued.queues = s.queues := by unfold State.issued; split <;> rfl
@[simp] theorem State.issued_contexts (s : State) : s.issued.contexts = s.contexts := by unfold State.issued; split <;> rfl
@[simp] theorem State.issued_handles (s : State) : s.issued.handles = s.handles := by unfold State.issued; split <;> rfl
@[simp] theorem State.issued_launches (s : State) : s.issued.launches = s.launches := by unfold State.issued; split <;> rfl
@[simp] theorem State.issued_launchCount (s : State) : s.issued.launchCount = s.launchCount := by unfold State.issued; split <;> rfl
@[simp] theorem State.issued_ops (s : State) : s.issued.ops = s.ops := by unfold State.issued; split <;> rfl
@[simp] theorem State.issued_reqs (s : State) : s.issued.reqs = s.reqs := by unfold State.issued; split <;> rfl
@[simp] theorem State.issued_updates (s : State) : s.issued.updates = s.updates := by unfold State.issued; split <;> rfl
@[simp] theorem State.issued_subs (s : State) : s.issued.subs = s.subs := by unfold State.issued; split <;> rfl
@[simp] theorem State.issued_l1 (s : State) : s.issued.l1 = s.l1 := by unfold State.issued; split <;> rfl
@[simp] theorem State.issued_lines (s : State) : s.issued.lines = s.lines := by unfold State.issued; split <;> rfl
@[simp] theorem State.issued_mem (s : State) : s.issued.mem = s.mem := by unfold State.issued; split <;> rfl
@[simp] theorem State.issued_hostMem (s : State) : s.issued.hostMem = s.hostMem := by unfold State.issued; split <;> rfl
@[simp] theorem State.issued_steps (s : State) : s.issued.steps = s.steps := by unfold State.issued; split <;> rfl
@[simp] theorem State.issued_lastQueue (s : State) : s.issued.lastQueue = s.lastQueue := by unfold State.issued; split <;> rfl
@[simp] theorem State.issued_cinder (s : State) : s.issued.cinder = s.cinder := by unfold State.issued; split <;> rfl
@[simp] theorem State.issued_cinderSeq (s : State) : s.issued.cinderSeq = s.cinderSeq := by unfold State.issued; split <;> rfl
@[simp] theorem State.issued_chain (s : State) : s.issued.chain = s.chain := by unfold State.issued; split <;> rfl
@[simp] theorem State.issued_signDue (s : State) : s.issued.signDue = s.signDue := by unfold State.issued; split <;> rfl
@[simp] theorem State.issued_signatures (s : State) : s.issued.signatures = s.signatures := by unfold State.issued; split <;> rfl
@[simp] theorem State.issued_interrupts (s : State) : s.issued.interrupts = s.interrupts := by unfold State.issued; split <;> rfl
@[simp] theorem State.issued_errlog (s : State) : s.issued.errlog = s.errlog := by unfold State.issued; split <;> rfl
@[simp] theorem State.issued_aer (s : State) : s.issued.aer = s.aer := by unfold State.issued; split <;> rfl
@[simp] theorem State.issued_needsReset (s : State) : s.issued.needsReset = s.needsReset := by unfold State.issued; split <;> rfl
@[simp] theorem State.issued_lineKeys (s : State) : s.issued.lineKeys = s.lineKeys := by unfold State.issued; split <;> rfl
@[simp] theorem State.issued_spdm (s : State) : s.issued.spdm = s.spdm := by unfold State.issued; split <;> rfl
@[simp] theorem State.issued_spdmReplies (s : State) : s.issued.spdmReplies = s.spdmReplies := by unfold State.issued; split <;> rfl
@[simp] theorem State.issued_inbound (s : State) : s.issued.inbound = s.inbound := by unfold State.issued; split <;> rfl

/-! ### `retire` -/

@[simp] theorem State.retire_sched (s : State) (n : Nat) : (s.retire n).sched = s.sched := by simp [State.retire]
@[simp] theorem State.retire_round (s : State) (n : Nat) : (s.retire n).round = s.round := by simp [State.retire]
@[simp] theorem State.retire_bellowsAt (s : State) (n : Nat) : (s.retire n).bellowsAt = s.bellowsAt := by simp [State.retire]
@[simp] theorem State.retire_slots (s : State) (n : Nat) : (s.retire n).slots = s.slots := by simp [State.retire]
@[simp] theorem State.retire_replaying (s : State) (n : Nat) : (s.retire n).replaying = s.replaying := by simp [State.retire]
@[simp] theorem State.retire_overdue (s : State) (n : Nat) : (s.retire n).overdue = s.overdue := by simp [State.retire]
@[simp] theorem State.retire_cinderBase (s : State) (n : Nat) : (s.retire n).cinderBase = s.cinderBase := by simp [State.retire]
@[simp] theorem State.retire_subject (s : State) (n : Nat) : (s.retire n).subject = s.subject := by simp [State.retire]
@[simp] theorem State.retire_issuer (s : State) (n : Nat) : (s.retire n).issuer = s.issuer := by simp [State.retire]
@[simp] theorem State.retire_fresh (s : State) (n : Nat) : (s.retire n).fresh = s.fresh := by simp [State.retire]
@[simp] theorem State.retire_nextId (s : State) (n : Nat) : (s.retire n).nextId = s.nextId := by simp [State.retire]
@[simp] theorem State.retire_timer (s : State) (n : Nat) : (s.retire n).timer = s.timer := by simp [State.retire]
@[simp] theorem State.retire_tdie (s : State) (n : Nat) : (s.retire n).tdie = s.tdie := by simp [State.retire]
@[simp] theorem State.retire_remap (s : State) (n : Nat) : (s.retire n).remap = s.remap := by simp [State.retire]
@[simp] theorem State.retire_dies (s : State) (n : Nat) : (s.retire n).dies = s.dies := by simp [State.retire]
@[simp] theorem State.retire_regs (s : State) (n : Nat) : (s.retire n).regs = s.regs := by simp [State.retire]
@[simp] theorem State.retire_queues (s : State) (n : Nat) : (s.retire n).queues = s.queues := by simp [State.retire]
@[simp] theorem State.retire_contexts (s : State) (n : Nat) : (s.retire n).contexts = s.contexts := by simp [State.retire]
@[simp] theorem State.retire_handles (s : State) (n : Nat) : (s.retire n).handles = s.handles := by simp [State.retire]
@[simp] theorem State.retire_launches (s : State) (n : Nat) : (s.retire n).launches = s.launches := by simp [State.retire]
@[simp] theorem State.retire_launchCount (s : State) (n : Nat) : (s.retire n).launchCount = s.launchCount := by simp [State.retire]
@[simp] theorem State.retire_ops (s : State) (n : Nat) : (s.retire n).ops = s.ops := by simp [State.retire]
@[simp] theorem State.retire_reqs (s : State) (n : Nat) : (s.retire n).reqs = s.reqs := by simp [State.retire]
@[simp] theorem State.retire_updates (s : State) (n : Nat) : (s.retire n).updates = s.updates := by simp [State.retire]
@[simp] theorem State.retire_subs (s : State) (n : Nat) : (s.retire n).subs = s.subs := by simp [State.retire]
@[simp] theorem State.retire_l1 (s : State) (n : Nat) : (s.retire n).l1 = s.l1 := by simp [State.retire]
@[simp] theorem State.retire_lines (s : State) (n : Nat) : (s.retire n).lines = s.lines := by simp [State.retire]
@[simp] theorem State.retire_mem (s : State) (n : Nat) : (s.retire n).mem = s.mem := by simp [State.retire]
@[simp] theorem State.retire_hostMem (s : State) (n : Nat) : (s.retire n).hostMem = s.hostMem := by simp [State.retire]
@[simp] theorem State.retire_steps (s : State) (n : Nat) : (s.retire n).steps = s.steps := by simp [State.retire]
@[simp] theorem State.retire_lastQueue (s : State) (n : Nat) : (s.retire n).lastQueue = s.lastQueue := by simp [State.retire]
@[simp] theorem State.retire_cinder (s : State) (n : Nat) : (s.retire n).cinder = s.cinder := by simp [State.retire]
@[simp] theorem State.retire_cinderSeq (s : State) (n : Nat) : (s.retire n).cinderSeq = s.cinderSeq := by simp [State.retire]
@[simp] theorem State.retire_chain (s : State) (n : Nat) : (s.retire n).chain = s.chain := by simp [State.retire]
@[simp] theorem State.retire_signDue (s : State) (n : Nat) : (s.retire n).signDue = s.signDue := by simp [State.retire]
@[simp] theorem State.retire_signatures (s : State) (n : Nat) : (s.retire n).signatures = s.signatures := by simp [State.retire]
@[simp] theorem State.retire_interrupts (s : State) (n : Nat) : (s.retire n).interrupts = s.interrupts := by simp [State.retire]
@[simp] theorem State.retire_errlog (s : State) (n : Nat) : (s.retire n).errlog = s.errlog := by simp [State.retire]
@[simp] theorem State.retire_aer (s : State) (n : Nat) : (s.retire n).aer = s.aer := by simp [State.retire]
@[simp] theorem State.retire_needsReset (s : State) (n : Nat) : (s.retire n).needsReset = s.needsReset := by simp [State.retire]
@[simp] theorem State.retire_lineKeys (s : State) (n : Nat) : (s.retire n).lineKeys = s.lineKeys := by simp [State.retire]
@[simp] theorem State.retire_spdm (s : State) (n : Nat) : (s.retire n).spdm = s.spdm := by simp [State.retire]
@[simp] theorem State.retire_spdmReplies (s : State) (n : Nat) : (s.retire n).spdmReplies = s.spdmReplies := by simp [State.retire]
@[simp] theorem State.retire_inbound (s : State) (n : Nat) : (s.retire n).inbound = s.inbound := by simp [State.retire]

/-! ### `writeNow` -/

@[simp] theorem State.writeNow_sched (s : State) (i : Issuer) (names : List RegName) (ws : List RegWrite) : (s.writeNow i names ws).sched = s.sched := by simp [State.writeNow]
@[simp] theorem State.writeNow_round (s : State) (i : Issuer) (names : List RegName) (ws : List RegWrite) : (s.writeNow i names ws).round = s.round := by simp [State.writeNow]
@[simp] theorem State.writeNow_bellowsAt (s : State) (i : Issuer) (names : List RegName) (ws : List RegWrite) : (s.writeNow i names ws).bellowsAt = s.bellowsAt := by simp [State.writeNow]
@[simp] theorem State.writeNow_slots (s : State) (i : Issuer) (names : List RegName) (ws : List RegWrite) : (s.writeNow i names ws).slots = s.slots := by simp [State.writeNow]
@[simp] theorem State.writeNow_replaying (s : State) (i : Issuer) (names : List RegName) (ws : List RegWrite) : (s.writeNow i names ws).replaying = s.replaying := by simp [State.writeNow]
@[simp] theorem State.writeNow_overdue (s : State) (i : Issuer) (names : List RegName) (ws : List RegWrite) : (s.writeNow i names ws).overdue = s.overdue := by simp [State.writeNow]
@[simp] theorem State.writeNow_cinderBase (s : State) (i : Issuer) (names : List RegName) (ws : List RegWrite) : (s.writeNow i names ws).cinderBase = s.cinderBase := by simp [State.writeNow]
@[simp] theorem State.writeNow_subject (s : State) (i : Issuer) (names : List RegName) (ws : List RegWrite) : (s.writeNow i names ws).subject = s.subject := by simp [State.writeNow]
@[simp] theorem State.writeNow_issuer (s : State) (i : Issuer) (names : List RegName) (ws : List RegWrite) : (s.writeNow i names ws).issuer = s.issuer := by simp [State.writeNow]
@[simp] theorem State.writeNow_fresh (s : State) (i : Issuer) (names : List RegName) (ws : List RegWrite) : (s.writeNow i names ws).fresh = s.fresh := by simp [State.writeNow]
@[simp] theorem State.writeNow_nextId (s : State) (i : Issuer) (names : List RegName) (ws : List RegWrite) : (s.writeNow i names ws).nextId = s.nextId := by simp [State.writeNow]
@[simp] theorem State.writeNow_timer (s : State) (i : Issuer) (names : List RegName) (ws : List RegWrite) : (s.writeNow i names ws).timer = s.timer := by simp [State.writeNow]
@[simp] theorem State.writeNow_tdie (s : State) (i : Issuer) (names : List RegName) (ws : List RegWrite) : (s.writeNow i names ws).tdie = s.tdie := by simp [State.writeNow]
@[simp] theorem State.writeNow_remap (s : State) (i : Issuer) (names : List RegName) (ws : List RegWrite) : (s.writeNow i names ws).remap = s.remap := by simp [State.writeNow]
@[simp] theorem State.writeNow_dies (s : State) (i : Issuer) (names : List RegName) (ws : List RegWrite) : (s.writeNow i names ws).dies = s.dies := by simp [State.writeNow]
@[simp] theorem State.writeNow_domains (s : State) (i : Issuer) (names : List RegName) (ws : List RegWrite) : (s.writeNow i names ws).domains = s.domains := by simp [State.writeNow]
@[simp] theorem State.writeNow_regs (s : State) (i : Issuer) (names : List RegName) (ws : List RegWrite) : (s.writeNow i names ws).regs = s.regs := by simp [State.writeNow]
@[simp] theorem State.writeNow_queues (s : State) (i : Issuer) (names : List RegName) (ws : List RegWrite) : (s.writeNow i names ws).queues = s.queues := by simp [State.writeNow]
@[simp] theorem State.writeNow_contexts (s : State) (i : Issuer) (names : List RegName) (ws : List RegWrite) : (s.writeNow i names ws).contexts = s.contexts := by simp [State.writeNow]
@[simp] theorem State.writeNow_handles (s : State) (i : Issuer) (names : List RegName) (ws : List RegWrite) : (s.writeNow i names ws).handles = s.handles := by simp [State.writeNow]
@[simp] theorem State.writeNow_launches (s : State) (i : Issuer) (names : List RegName) (ws : List RegWrite) : (s.writeNow i names ws).launches = s.launches := by simp [State.writeNow]
@[simp] theorem State.writeNow_launchCount (s : State) (i : Issuer) (names : List RegName) (ws : List RegWrite) : (s.writeNow i names ws).launchCount = s.launchCount := by simp [State.writeNow]
@[simp] theorem State.writeNow_reqs (s : State) (i : Issuer) (names : List RegName) (ws : List RegWrite) : (s.writeNow i names ws).reqs = s.reqs := by simp [State.writeNow]
@[simp] theorem State.writeNow_updates (s : State) (i : Issuer) (names : List RegName) (ws : List RegWrite) : (s.writeNow i names ws).updates = s.updates := by simp [State.writeNow]
@[simp] theorem State.writeNow_subs (s : State) (i : Issuer) (names : List RegName) (ws : List RegWrite) : (s.writeNow i names ws).subs = s.subs := by simp [State.writeNow]
@[simp] theorem State.writeNow_l1 (s : State) (i : Issuer) (names : List RegName) (ws : List RegWrite) : (s.writeNow i names ws).l1 = s.l1 := by simp [State.writeNow]
@[simp] theorem State.writeNow_lines (s : State) (i : Issuer) (names : List RegName) (ws : List RegWrite) : (s.writeNow i names ws).lines = s.lines := by simp [State.writeNow]
@[simp] theorem State.writeNow_mem (s : State) (i : Issuer) (names : List RegName) (ws : List RegWrite) : (s.writeNow i names ws).mem = s.mem := by simp [State.writeNow]
@[simp] theorem State.writeNow_hostMem (s : State) (i : Issuer) (names : List RegName) (ws : List RegWrite) : (s.writeNow i names ws).hostMem = s.hostMem := by simp [State.writeNow]
@[simp] theorem State.writeNow_steps (s : State) (i : Issuer) (names : List RegName) (ws : List RegWrite) : (s.writeNow i names ws).steps = s.steps := by simp [State.writeNow]
@[simp] theorem State.writeNow_lastQueue (s : State) (i : Issuer) (names : List RegName) (ws : List RegWrite) : (s.writeNow i names ws).lastQueue = s.lastQueue := by simp [State.writeNow]
@[simp] theorem State.writeNow_cinder (s : State) (i : Issuer) (names : List RegName) (ws : List RegWrite) : (s.writeNow i names ws).cinder = s.cinder := by simp [State.writeNow]
@[simp] theorem State.writeNow_cinderSeq (s : State) (i : Issuer) (names : List RegName) (ws : List RegWrite) : (s.writeNow i names ws).cinderSeq = s.cinderSeq := by simp [State.writeNow]
@[simp] theorem State.writeNow_chain (s : State) (i : Issuer) (names : List RegName) (ws : List RegWrite) : (s.writeNow i names ws).chain = s.chain := by simp [State.writeNow]
@[simp] theorem State.writeNow_signDue (s : State) (i : Issuer) (names : List RegName) (ws : List RegWrite) : (s.writeNow i names ws).signDue = s.signDue := by simp [State.writeNow]
@[simp] theorem State.writeNow_signatures (s : State) (i : Issuer) (names : List RegName) (ws : List RegWrite) : (s.writeNow i names ws).signatures = s.signatures := by simp [State.writeNow]
@[simp] theorem State.writeNow_interrupts (s : State) (i : Issuer) (names : List RegName) (ws : List RegWrite) : (s.writeNow i names ws).interrupts = s.interrupts := by simp [State.writeNow]
@[simp] theorem State.writeNow_errlog (s : State) (i : Issuer) (names : List RegName) (ws : List RegWrite) : (s.writeNow i names ws).errlog = s.errlog := by simp [State.writeNow]
@[simp] theorem State.writeNow_aer (s : State) (i : Issuer) (names : List RegName) (ws : List RegWrite) : (s.writeNow i names ws).aer = s.aer := by simp [State.writeNow]
@[simp] theorem State.writeNow_needsReset (s : State) (i : Issuer) (names : List RegName) (ws : List RegWrite) : (s.writeNow i names ws).needsReset = s.needsReset := by simp [State.writeNow]
@[simp] theorem State.writeNow_lineKeys (s : State) (i : Issuer) (names : List RegName) (ws : List RegWrite) : (s.writeNow i names ws).lineKeys = s.lineKeys := by simp [State.writeNow]
@[simp] theorem State.writeNow_spdm (s : State) (i : Issuer) (names : List RegName) (ws : List RegWrite) : (s.writeNow i names ws).spdm = s.spdm := by simp [State.writeNow]
@[simp] theorem State.writeNow_spdmReplies (s : State) (i : Issuer) (names : List RegName) (ws : List RegWrite) : (s.writeNow i names ws).spdmReplies = s.spdmReplies := by simp [State.writeNow]
@[simp] theorem State.writeNow_inbound (s : State) (i : Issuer) (names : List RegName) (ws : List RegWrite) : (s.writeNow i names ws).inbound = s.inbound := by simp [State.writeNow]

/-! ### `emptyOp` -/

@[simp] theorem State.emptyOp_sched (s : State) (names : List RegName) (flag : Option Nat) : (s.emptyOp names flag).sched = s.sched := by simp [State.emptyOp]
@[simp] theorem State.emptyOp_round (s : State) (names : List RegName) (flag : Option Nat) : (s.emptyOp names flag).round = s.round := by simp [State.emptyOp]
@[simp] theorem State.emptyOp_bellowsAt (s : State) (names : List RegName) (flag : Option Nat) : (s.emptyOp names flag).bellowsAt = s.bellowsAt := by simp [State.emptyOp]
@[simp] theorem State.emptyOp_slots (s : State) (names : List RegName) (flag : Option Nat) : (s.emptyOp names flag).slots = s.slots := by simp [State.emptyOp]
@[simp] theorem State.emptyOp_replaying (s : State) (names : List RegName) (flag : Option Nat) : (s.emptyOp names flag).replaying = s.replaying := by simp [State.emptyOp]
@[simp] theorem State.emptyOp_overdue (s : State) (names : List RegName) (flag : Option Nat) : (s.emptyOp names flag).overdue = s.overdue := by simp [State.emptyOp]
@[simp] theorem State.emptyOp_cinderBase (s : State) (names : List RegName) (flag : Option Nat) : (s.emptyOp names flag).cinderBase = s.cinderBase := by simp [State.emptyOp]
@[simp] theorem State.emptyOp_subject (s : State) (names : List RegName) (flag : Option Nat) : (s.emptyOp names flag).subject = s.subject := by simp [State.emptyOp]
@[simp] theorem State.emptyOp_issuer (s : State) (names : List RegName) (flag : Option Nat) : (s.emptyOp names flag).issuer = s.issuer := by simp [State.emptyOp]
@[simp] theorem State.emptyOp_fresh (s : State) (names : List RegName) (flag : Option Nat) : (s.emptyOp names flag).fresh = s.fresh := by simp [State.emptyOp]
@[simp] theorem State.emptyOp_nextId (s : State) (names : List RegName) (flag : Option Nat) : (s.emptyOp names flag).nextId = s.nextId := by simp [State.emptyOp]
@[simp] theorem State.emptyOp_timer (s : State) (names : List RegName) (flag : Option Nat) : (s.emptyOp names flag).timer = s.timer := by simp [State.emptyOp]
@[simp] theorem State.emptyOp_tdie (s : State) (names : List RegName) (flag : Option Nat) : (s.emptyOp names flag).tdie = s.tdie := by simp [State.emptyOp]
@[simp] theorem State.emptyOp_remap (s : State) (names : List RegName) (flag : Option Nat) : (s.emptyOp names flag).remap = s.remap := by simp [State.emptyOp]
@[simp] theorem State.emptyOp_dies (s : State) (names : List RegName) (flag : Option Nat) : (s.emptyOp names flag).dies = s.dies := by simp [State.emptyOp]
@[simp] theorem State.emptyOp_domains (s : State) (names : List RegName) (flag : Option Nat) : (s.emptyOp names flag).domains = s.domains := by simp [State.emptyOp]
@[simp] theorem State.emptyOp_regs (s : State) (names : List RegName) (flag : Option Nat) : (s.emptyOp names flag).regs = s.regs := by simp [State.emptyOp]
@[simp] theorem State.emptyOp_queues (s : State) (names : List RegName) (flag : Option Nat) : (s.emptyOp names flag).queues = s.queues := by simp [State.emptyOp]
@[simp] theorem State.emptyOp_contexts (s : State) (names : List RegName) (flag : Option Nat) : (s.emptyOp names flag).contexts = s.contexts := by simp [State.emptyOp]
@[simp] theorem State.emptyOp_handles (s : State) (names : List RegName) (flag : Option Nat) : (s.emptyOp names flag).handles = s.handles := by simp [State.emptyOp]
@[simp] theorem State.emptyOp_launches (s : State) (names : List RegName) (flag : Option Nat) : (s.emptyOp names flag).launches = s.launches := by simp [State.emptyOp]
@[simp] theorem State.emptyOp_launchCount (s : State) (names : List RegName) (flag : Option Nat) : (s.emptyOp names flag).launchCount = s.launchCount := by simp [State.emptyOp]
@[simp] theorem State.emptyOp_reqs (s : State) (names : List RegName) (flag : Option Nat) : (s.emptyOp names flag).reqs = s.reqs := by simp [State.emptyOp]
@[simp] theorem State.emptyOp_updates (s : State) (names : List RegName) (flag : Option Nat) : (s.emptyOp names flag).updates = s.updates := by simp [State.emptyOp]
@[simp] theorem State.emptyOp_subs (s : State) (names : List RegName) (flag : Option Nat) : (s.emptyOp names flag).subs = s.subs := by simp [State.emptyOp]
@[simp] theorem State.emptyOp_l1 (s : State) (names : List RegName) (flag : Option Nat) : (s.emptyOp names flag).l1 = s.l1 := by simp [State.emptyOp]
@[simp] theorem State.emptyOp_lines (s : State) (names : List RegName) (flag : Option Nat) : (s.emptyOp names flag).lines = s.lines := by simp [State.emptyOp]
@[simp] theorem State.emptyOp_mem (s : State) (names : List RegName) (flag : Option Nat) : (s.emptyOp names flag).mem = s.mem := by simp [State.emptyOp]
@[simp] theorem State.emptyOp_hostMem (s : State) (names : List RegName) (flag : Option Nat) : (s.emptyOp names flag).hostMem = s.hostMem := by simp [State.emptyOp]
@[simp] theorem State.emptyOp_steps (s : State) (names : List RegName) (flag : Option Nat) : (s.emptyOp names flag).steps = s.steps := by simp [State.emptyOp]
@[simp] theorem State.emptyOp_lastQueue (s : State) (names : List RegName) (flag : Option Nat) : (s.emptyOp names flag).lastQueue = s.lastQueue := by simp [State.emptyOp]
@[simp] theorem State.emptyOp_cinder (s : State) (names : List RegName) (flag : Option Nat) : (s.emptyOp names flag).cinder = s.cinder := by simp [State.emptyOp]
@[simp] theorem State.emptyOp_cinderSeq (s : State) (names : List RegName) (flag : Option Nat) : (s.emptyOp names flag).cinderSeq = s.cinderSeq := by simp [State.emptyOp]
@[simp] theorem State.emptyOp_chain (s : State) (names : List RegName) (flag : Option Nat) : (s.emptyOp names flag).chain = s.chain := by simp [State.emptyOp]
@[simp] theorem State.emptyOp_signDue (s : State) (names : List RegName) (flag : Option Nat) : (s.emptyOp names flag).signDue = s.signDue := by simp [State.emptyOp]
@[simp] theorem State.emptyOp_signatures (s : State) (names : List RegName) (flag : Option Nat) : (s.emptyOp names flag).signatures = s.signatures := by simp [State.emptyOp]
@[simp] theorem State.emptyOp_interrupts (s : State) (names : List RegName) (flag : Option Nat) : (s.emptyOp names flag).interrupts = s.interrupts := by simp [State.emptyOp]
@[simp] theorem State.emptyOp_errlog (s : State) (names : List RegName) (flag : Option Nat) : (s.emptyOp names flag).errlog = s.errlog := by simp [State.emptyOp]
@[simp] theorem State.emptyOp_aer (s : State) (names : List RegName) (flag : Option Nat) : (s.emptyOp names flag).aer = s.aer := by simp [State.emptyOp]
@[simp] theorem State.emptyOp_needsReset (s : State) (names : List RegName) (flag : Option Nat) : (s.emptyOp names flag).needsReset = s.needsReset := by simp [State.emptyOp]
@[simp] theorem State.emptyOp_lineKeys (s : State) (names : List RegName) (flag : Option Nat) : (s.emptyOp names flag).lineKeys = s.lineKeys := by simp [State.emptyOp]
@[simp] theorem State.emptyOp_spdm (s : State) (names : List RegName) (flag : Option Nat) : (s.emptyOp names flag).spdm = s.spdm := by simp [State.emptyOp]
@[simp] theorem State.emptyOp_spdmReplies (s : State) (names : List RegName) (flag : Option Nat) : (s.emptyOp names flag).spdmReplies = s.spdmReplies := by simp [State.emptyOp]
@[simp] theorem State.emptyOp_inbound (s : State) (names : List RegName) (flag : Option Nat) : (s.emptyOp names flag).inbound = s.inbound := by simp [State.emptyOp]

/-! ### `launchOp` -/

@[simp] theorem State.launchOp_sched (s : State) (names : List RegName) (o : Op) : (s.launchOp names o).sched = s.sched := by simp [State.launchOp]
@[simp] theorem State.launchOp_round (s : State) (names : List RegName) (o : Op) : (s.launchOp names o).round = s.round := by simp [State.launchOp]
@[simp] theorem State.launchOp_bellowsAt (s : State) (names : List RegName) (o : Op) : (s.launchOp names o).bellowsAt = s.bellowsAt := by simp [State.launchOp]
@[simp] theorem State.launchOp_slots (s : State) (names : List RegName) (o : Op) : (s.launchOp names o).slots = s.slots := by simp [State.launchOp]
@[simp] theorem State.launchOp_replaying (s : State) (names : List RegName) (o : Op) : (s.launchOp names o).replaying = s.replaying := by simp [State.launchOp]
@[simp] theorem State.launchOp_overdue (s : State) (names : List RegName) (o : Op) : (s.launchOp names o).overdue = s.overdue := by simp [State.launchOp]
@[simp] theorem State.launchOp_cinderBase (s : State) (names : List RegName) (o : Op) : (s.launchOp names o).cinderBase = s.cinderBase := by simp [State.launchOp]
@[simp] theorem State.launchOp_subject (s : State) (names : List RegName) (o : Op) : (s.launchOp names o).subject = s.subject := by simp [State.launchOp]
@[simp] theorem State.launchOp_issuer (s : State) (names : List RegName) (o : Op) : (s.launchOp names o).issuer = s.issuer := by simp [State.launchOp]
@[simp] theorem State.launchOp_fresh (s : State) (names : List RegName) (o : Op) : (s.launchOp names o).fresh = s.fresh := by simp [State.launchOp]
@[simp] theorem State.launchOp_timer (s : State) (names : List RegName) (o : Op) : (s.launchOp names o).timer = s.timer := by simp [State.launchOp]
@[simp] theorem State.launchOp_tdie (s : State) (names : List RegName) (o : Op) : (s.launchOp names o).tdie = s.tdie := by simp [State.launchOp]
@[simp] theorem State.launchOp_remap (s : State) (names : List RegName) (o : Op) : (s.launchOp names o).remap = s.remap := by simp [State.launchOp]
@[simp] theorem State.launchOp_dies (s : State) (names : List RegName) (o : Op) : (s.launchOp names o).dies = s.dies := by simp [State.launchOp]
@[simp] theorem State.launchOp_domains (s : State) (names : List RegName) (o : Op) : (s.launchOp names o).domains = s.domains := by simp [State.launchOp]
@[simp] theorem State.launchOp_regs (s : State) (names : List RegName) (o : Op) : (s.launchOp names o).regs = s.regs := by simp [State.launchOp]
@[simp] theorem State.launchOp_queues (s : State) (names : List RegName) (o : Op) : (s.launchOp names o).queues = s.queues := by simp [State.launchOp]
@[simp] theorem State.launchOp_contexts (s : State) (names : List RegName) (o : Op) : (s.launchOp names o).contexts = s.contexts := by simp [State.launchOp]
@[simp] theorem State.launchOp_handles (s : State) (names : List RegName) (o : Op) : (s.launchOp names o).handles = s.handles := by simp [State.launchOp]
@[simp] theorem State.launchOp_launches (s : State) (names : List RegName) (o : Op) : (s.launchOp names o).launches = s.launches := by simp [State.launchOp]
@[simp] theorem State.launchOp_launchCount (s : State) (names : List RegName) (o : Op) : (s.launchOp names o).launchCount = s.launchCount := by simp [State.launchOp]
@[simp] theorem State.launchOp_reqs (s : State) (names : List RegName) (o : Op) : (s.launchOp names o).reqs = s.reqs := by simp [State.launchOp]
@[simp] theorem State.launchOp_updates (s : State) (names : List RegName) (o : Op) : (s.launchOp names o).updates = s.updates := by simp [State.launchOp]
@[simp] theorem State.launchOp_subs (s : State) (names : List RegName) (o : Op) : (s.launchOp names o).subs = s.subs := by simp [State.launchOp]
@[simp] theorem State.launchOp_l1 (s : State) (names : List RegName) (o : Op) : (s.launchOp names o).l1 = s.l1 := by simp [State.launchOp]
@[simp] theorem State.launchOp_lines (s : State) (names : List RegName) (o : Op) : (s.launchOp names o).lines = s.lines := by simp [State.launchOp]
@[simp] theorem State.launchOp_mem (s : State) (names : List RegName) (o : Op) : (s.launchOp names o).mem = s.mem := by simp [State.launchOp]
@[simp] theorem State.launchOp_hostMem (s : State) (names : List RegName) (o : Op) : (s.launchOp names o).hostMem = s.hostMem := by simp [State.launchOp]
@[simp] theorem State.launchOp_steps (s : State) (names : List RegName) (o : Op) : (s.launchOp names o).steps = s.steps := by simp [State.launchOp]
@[simp] theorem State.launchOp_lastQueue (s : State) (names : List RegName) (o : Op) : (s.launchOp names o).lastQueue = s.lastQueue := by simp [State.launchOp]
@[simp] theorem State.launchOp_cinder (s : State) (names : List RegName) (o : Op) : (s.launchOp names o).cinder = s.cinder := by simp [State.launchOp]
@[simp] theorem State.launchOp_cinderSeq (s : State) (names : List RegName) (o : Op) : (s.launchOp names o).cinderSeq = s.cinderSeq := by simp [State.launchOp]
@[simp] theorem State.launchOp_chain (s : State) (names : List RegName) (o : Op) : (s.launchOp names o).chain = s.chain := by simp [State.launchOp]
@[simp] theorem State.launchOp_signDue (s : State) (names : List RegName) (o : Op) : (s.launchOp names o).signDue = s.signDue := by simp [State.launchOp]
@[simp] theorem State.launchOp_signatures (s : State) (names : List RegName) (o : Op) : (s.launchOp names o).signatures = s.signatures := by simp [State.launchOp]
@[simp] theorem State.launchOp_interrupts (s : State) (names : List RegName) (o : Op) : (s.launchOp names o).interrupts = s.interrupts := by simp [State.launchOp]
@[simp] theorem State.launchOp_errlog (s : State) (names : List RegName) (o : Op) : (s.launchOp names o).errlog = s.errlog := by simp [State.launchOp]
@[simp] theorem State.launchOp_aer (s : State) (names : List RegName) (o : Op) : (s.launchOp names o).aer = s.aer := by simp [State.launchOp]
@[simp] theorem State.launchOp_needsReset (s : State) (names : List RegName) (o : Op) : (s.launchOp names o).needsReset = s.needsReset := by simp [State.launchOp]
@[simp] theorem State.launchOp_lineKeys (s : State) (names : List RegName) (o : Op) : (s.launchOp names o).lineKeys = s.lineKeys := by simp [State.launchOp]
@[simp] theorem State.launchOp_spdm (s : State) (names : List RegName) (o : Op) : (s.launchOp names o).spdm = s.spdm := by simp [State.launchOp]
@[simp] theorem State.launchOp_spdmReplies (s : State) (names : List RegName) (o : Op) : (s.launchOp names o).spdmReplies = s.spdmReplies := by simp [State.launchOp]
@[simp] theorem State.launchOp_inbound (s : State) (names : List RegName) (o : Op) : (s.launchOp names o).inbound = s.inbound := by simp [State.launchOp]

/-! ### `holdAt` -/

@[simp] theorem State.holdAt_sched (s : State) (h : Hold) : (s.holdAt h).sched = s.sched := by simp [State.holdAt]
@[simp] theorem State.holdAt_round (s : State) (h : Hold) : (s.holdAt h).round = s.round := by simp [State.holdAt]
@[simp] theorem State.holdAt_bellowsAt (s : State) (h : Hold) : (s.holdAt h).bellowsAt = s.bellowsAt := by simp [State.holdAt]
@[simp] theorem State.holdAt_slots (s : State) (h : Hold) : (s.holdAt h).slots = s.slots := by simp [State.holdAt]
@[simp] theorem State.holdAt_replaying (s : State) (h : Hold) : (s.holdAt h).replaying = s.replaying := by simp [State.holdAt]
@[simp] theorem State.holdAt_overdue (s : State) (h : Hold) : (s.holdAt h).overdue = s.overdue := by simp [State.holdAt]
@[simp] theorem State.holdAt_cinderBase (s : State) (h : Hold) : (s.holdAt h).cinderBase = s.cinderBase := by simp [State.holdAt]
@[simp] theorem State.holdAt_subject (s : State) (h : Hold) : (s.holdAt h).subject = s.subject := by simp [State.holdAt]
@[simp] theorem State.holdAt_issuer (s : State) (h : Hold) : (s.holdAt h).issuer = s.issuer := by simp [State.holdAt]
@[simp] theorem State.holdAt_fresh (s : State) (h : Hold) : (s.holdAt h).fresh = s.fresh := by simp [State.holdAt]
@[simp] theorem State.holdAt_nextId (s : State) (h : Hold) : (s.holdAt h).nextId = s.nextId := by simp [State.holdAt]
@[simp] theorem State.holdAt_timer (s : State) (h : Hold) : (s.holdAt h).timer = s.timer := by simp [State.holdAt]
@[simp] theorem State.holdAt_tdie (s : State) (h : Hold) : (s.holdAt h).tdie = s.tdie := by simp [State.holdAt]
@[simp] theorem State.holdAt_remap (s : State) (h : Hold) : (s.holdAt h).remap = s.remap := by simp [State.holdAt]
@[simp] theorem State.holdAt_dies (s : State) (h : Hold) : (s.holdAt h).dies = s.dies := by simp [State.holdAt]
@[simp] theorem State.holdAt_domains (s : State) (h : Hold) : (s.holdAt h).domains = s.domains := by simp [State.holdAt]
@[simp] theorem State.holdAt_regs (s : State) (h : Hold) : (s.holdAt h).regs = s.regs := by simp [State.holdAt]
@[simp] theorem State.holdAt_queues (s : State) (h : Hold) : (s.holdAt h).queues = s.queues := by simp [State.holdAt]
@[simp] theorem State.holdAt_contexts (s : State) (h : Hold) : (s.holdAt h).contexts = s.contexts := by simp [State.holdAt]
@[simp] theorem State.holdAt_handles (s : State) (h : Hold) : (s.holdAt h).handles = s.handles := by simp [State.holdAt]
@[simp] theorem State.holdAt_launches (s : State) (h : Hold) : (s.holdAt h).launches = s.launches := by simp [State.holdAt]
@[simp] theorem State.holdAt_launchCount (s : State) (h : Hold) : (s.holdAt h).launchCount = s.launchCount := by simp [State.holdAt]
@[simp] theorem State.holdAt_ops (s : State) (h : Hold) : (s.holdAt h).ops = s.ops := by simp [State.holdAt]
@[simp] theorem State.holdAt_reqs (s : State) (h : Hold) : (s.holdAt h).reqs = s.reqs := by simp [State.holdAt]
@[simp] theorem State.holdAt_updates (s : State) (h : Hold) : (s.holdAt h).updates = s.updates := by simp [State.holdAt]
@[simp] theorem State.holdAt_subs (s : State) (h : Hold) : (s.holdAt h).subs = s.subs := by simp [State.holdAt]
@[simp] theorem State.holdAt_l1 (s : State) (h : Hold) : (s.holdAt h).l1 = s.l1 := by simp [State.holdAt]
@[simp] theorem State.holdAt_lines (s : State) (h : Hold) : (s.holdAt h).lines = s.lines := by simp [State.holdAt]
@[simp] theorem State.holdAt_mem (s : State) (h : Hold) : (s.holdAt h).mem = s.mem := by simp [State.holdAt]
@[simp] theorem State.holdAt_hostMem (s : State) (h : Hold) : (s.holdAt h).hostMem = s.hostMem := by simp [State.holdAt]
@[simp] theorem State.holdAt_steps (s : State) (h : Hold) : (s.holdAt h).steps = s.steps := by simp [State.holdAt]
@[simp] theorem State.holdAt_lastQueue (s : State) (h : Hold) : (s.holdAt h).lastQueue = s.lastQueue := by simp [State.holdAt]
@[simp] theorem State.holdAt_cinder (s : State) (h : Hold) : (s.holdAt h).cinder = s.cinder := by simp [State.holdAt]
@[simp] theorem State.holdAt_cinderSeq (s : State) (h : Hold) : (s.holdAt h).cinderSeq = s.cinderSeq := by simp [State.holdAt]
@[simp] theorem State.holdAt_chain (s : State) (h : Hold) : (s.holdAt h).chain = s.chain := by simp [State.holdAt]
@[simp] theorem State.holdAt_signDue (s : State) (h : Hold) : (s.holdAt h).signDue = s.signDue := by simp [State.holdAt]
@[simp] theorem State.holdAt_signatures (s : State) (h : Hold) : (s.holdAt h).signatures = s.signatures := by simp [State.holdAt]
@[simp] theorem State.holdAt_interrupts (s : State) (h : Hold) : (s.holdAt h).interrupts = s.interrupts := by simp [State.holdAt]
@[simp] theorem State.holdAt_errlog (s : State) (h : Hold) : (s.holdAt h).errlog = s.errlog := by simp [State.holdAt]
@[simp] theorem State.holdAt_aer (s : State) (h : Hold) : (s.holdAt h).aer = s.aer := by simp [State.holdAt]
@[simp] theorem State.holdAt_needsReset (s : State) (h : Hold) : (s.holdAt h).needsReset = s.needsReset := by simp [State.holdAt]
@[simp] theorem State.holdAt_lineKeys (s : State) (h : Hold) : (s.holdAt h).lineKeys = s.lineKeys := by simp [State.holdAt]
@[simp] theorem State.holdAt_spdm (s : State) (h : Hold) : (s.holdAt h).spdm = s.spdm := by simp [State.holdAt]
@[simp] theorem State.holdAt_spdmReplies (s : State) (h : Hold) : (s.holdAt h).spdmReplies = s.spdmReplies := by simp [State.holdAt]
@[simp] theorem State.holdAt_inbound (s : State) (h : Hold) : (s.holdAt h).inbound = s.inbound := by simp [State.holdAt]

/-! ### `finishOp` -/

@[simp] theorem State.finishOp_sched (s : State) (o : Op) : (s.finishOp o).sched = s.sched := by simp [State.finishOp]
@[simp] theorem State.finishOp_round (s : State) (o : Op) : (s.finishOp o).round = s.round := by simp [State.finishOp]
@[simp] theorem State.finishOp_bellowsAt (s : State) (o : Op) : (s.finishOp o).bellowsAt = s.bellowsAt := by simp [State.finishOp]
@[simp] theorem State.finishOp_slots (s : State) (o : Op) : (s.finishOp o).slots = s.slots := by simp [State.finishOp]
@[simp] theorem State.finishOp_replaying (s : State) (o : Op) : (s.finishOp o).replaying = s.replaying := by simp [State.finishOp]
@[simp] theorem State.finishOp_overdue (s : State) (o : Op) : (s.finishOp o).overdue = s.overdue := by simp [State.finishOp]
@[simp] theorem State.finishOp_cinderBase (s : State) (o : Op) : (s.finishOp o).cinderBase = s.cinderBase := by simp [State.finishOp]
@[simp] theorem State.finishOp_subject (s : State) (o : Op) : (s.finishOp o).subject = s.subject := by simp [State.finishOp]
@[simp] theorem State.finishOp_issuer (s : State) (o : Op) : (s.finishOp o).issuer = s.issuer := by simp [State.finishOp]
@[simp] theorem State.finishOp_fresh (s : State) (o : Op) : (s.finishOp o).fresh = s.fresh := by simp [State.finishOp]
@[simp] theorem State.finishOp_nextId (s : State) (o : Op) : (s.finishOp o).nextId = s.nextId := by simp [State.finishOp]
@[simp] theorem State.finishOp_timer (s : State) (o : Op) : (s.finishOp o).timer = s.timer := by simp [State.finishOp]
@[simp] theorem State.finishOp_tdie (s : State) (o : Op) : (s.finishOp o).tdie = s.tdie := by simp [State.finishOp]
@[simp] theorem State.finishOp_remap (s : State) (o : Op) : (s.finishOp o).remap = s.remap := by simp [State.finishOp]
@[simp] theorem State.finishOp_dies (s : State) (o : Op) : (s.finishOp o).dies = s.dies := by simp [State.finishOp]
@[simp] theorem State.finishOp_domains (s : State) (o : Op) : (s.finishOp o).domains = s.domains := by simp [State.finishOp]
@[simp] theorem State.finishOp_regs (s : State) (o : Op) : (s.finishOp o).regs = s.regs := by simp [State.finishOp]
@[simp] theorem State.finishOp_queues (s : State) (o : Op) : (s.finishOp o).queues = s.queues := by simp [State.finishOp]
@[simp] theorem State.finishOp_contexts (s : State) (o : Op) : (s.finishOp o).contexts = s.contexts := by simp [State.finishOp]
@[simp] theorem State.finishOp_handles (s : State) (o : Op) : (s.finishOp o).handles = s.handles := by simp [State.finishOp]
@[simp] theorem State.finishOp_launches (s : State) (o : Op) : (s.finishOp o).launches = s.launches := by simp [State.finishOp]
@[simp] theorem State.finishOp_launchCount (s : State) (o : Op) : (s.finishOp o).launchCount = s.launchCount := by simp [State.finishOp]
@[simp] theorem State.finishOp_reqs (s : State) (o : Op) : (s.finishOp o).reqs = s.reqs := by simp [State.finishOp]
@[simp] theorem State.finishOp_updates (s : State) (o : Op) : (s.finishOp o).updates = s.updates := by simp [State.finishOp]
@[simp] theorem State.finishOp_subs (s : State) (o : Op) : (s.finishOp o).subs = s.subs := by simp [State.finishOp]
@[simp] theorem State.finishOp_l1 (s : State) (o : Op) : (s.finishOp o).l1 = s.l1 := by simp [State.finishOp]
@[simp] theorem State.finishOp_lines (s : State) (o : Op) : (s.finishOp o).lines = s.lines := by simp [State.finishOp]
@[simp] theorem State.finishOp_mem (s : State) (o : Op) : (s.finishOp o).mem = s.mem := by simp [State.finishOp]
@[simp] theorem State.finishOp_hostMem (s : State) (o : Op) : (s.finishOp o).hostMem = s.hostMem := by simp [State.finishOp]
@[simp] theorem State.finishOp_steps (s : State) (o : Op) : (s.finishOp o).steps = s.steps := by simp [State.finishOp]
@[simp] theorem State.finishOp_lastQueue (s : State) (o : Op) : (s.finishOp o).lastQueue = s.lastQueue := by simp [State.finishOp]
@[simp] theorem State.finishOp_cinder (s : State) (o : Op) : (s.finishOp o).cinder = s.cinder := by simp [State.finishOp]
@[simp] theorem State.finishOp_cinderSeq (s : State) (o : Op) : (s.finishOp o).cinderSeq = s.cinderSeq := by simp [State.finishOp]
@[simp] theorem State.finishOp_chain (s : State) (o : Op) : (s.finishOp o).chain = s.chain := by simp [State.finishOp]
@[simp] theorem State.finishOp_signDue (s : State) (o : Op) : (s.finishOp o).signDue = s.signDue := by simp [State.finishOp]
@[simp] theorem State.finishOp_signatures (s : State) (o : Op) : (s.finishOp o).signatures = s.signatures := by simp [State.finishOp]
@[simp] theorem State.finishOp_interrupts (s : State) (o : Op) : (s.finishOp o).interrupts = s.interrupts := by simp [State.finishOp]
@[simp] theorem State.finishOp_errlog (s : State) (o : Op) : (s.finishOp o).errlog = s.errlog := by simp [State.finishOp]
@[simp] theorem State.finishOp_aer (s : State) (o : Op) : (s.finishOp o).aer = s.aer := by simp [State.finishOp]
@[simp] theorem State.finishOp_needsReset (s : State) (o : Op) : (s.finishOp o).needsReset = s.needsReset := by simp [State.finishOp]
@[simp] theorem State.finishOp_lineKeys (s : State) (o : Op) : (s.finishOp o).lineKeys = s.lineKeys := by simp [State.finishOp]
@[simp] theorem State.finishOp_spdm (s : State) (o : Op) : (s.finishOp o).spdm = s.spdm := by simp [State.finishOp]
@[simp] theorem State.finishOp_spdmReplies (s : State) (o : Op) : (s.finishOp o).spdmReplies = s.spdmReplies := by simp [State.finishOp]
@[simp] theorem State.finishOp_inbound (s : State) (o : Op) : (s.finishOp o).inbound = s.inbound := by simp [State.finishOp]

end Sys2Proof.Machine
end

