-- ==== Sys2Proof/Laws/Unit.lean ====
section
/-!
SUPPORT. What the updates of the issuing unit do to units, and to the rest of the part.
-/
namespace Sys2Proof.Machine

theorem getElem?_modAt {α : Type} (l : List α) (n m : Nat) (f : α → α) :
    (modAt l n f)[m]? = if n = m then (l[m]?).map f else l[m]? := by
  simp only [modAt, List.getElem?_modify]
  split <;> simp_all

@[simp] theorem length_modAt {α : Type} (l : List α) (n : Nat) (f : α → α) : (modAt l n f).length = l.length := by
  simp [modAt]

theorem map_modAt {α β : Type} (l : List α) (n : Nat) (f : α → α) (h : α → β) (hf : ∀ a, h (f a) = h a) :
    (modAt l n f).map h = l.map h := by
  apply List.ext_getElem?
  intro m
  simp only [List.getElem?_map, getElem?_modAt]
  split
  · cases l[m]? <;> simp [hf]
  · rfl

/-! ### Units -/

theorem State.unitOf_modUnit_same {s : State} {i : Issuer} {g : Group} (f : Group → Group) (h : s.unitOf i = some g) :
    (s.modUnit i f).unitOf i = some (f g) := by
  cases i with
  | none => simp [State.unitOf] at h
  | group t n =>
    simp only [State.unitOf, State.group?, State.modUnit, State.modGroup, State.modTeam, getElem?_modAt, if_true] at h ⊢
    cases ht : s.teams[t]? with
    | none => simp [ht] at h
    | some tm => simp only [ht, Option.bind_some] at h; simp [getElem?_modAt, h]
  | handler c =>
    simp only [State.unitOf, State.modUnit, State.modCluster, getElem?_modAt, if_true] at h ⊢
    cases hc : s.clusters[c]? with
    | none => simp [hc] at h
    | some cl =>
      simp only [hc, Option.bind_some, Option.map_some] at h ⊢
      cases hh : cl.handler with
      | none => simp [hh] at h
      | some hd => simp [hh] at h ⊢; rw [h]

theorem State.unitOf_modUnit_other {s : State} {i j : Issuer} (f : Group → Group) (h : j ≠ i) :
    (s.modUnit i f).unitOf j = s.unitOf j := by
  cases i with
  | none => rfl
  | group t n =>
    cases j with
    | none => rfl
    | handler c => rfl
    | group t' n' =>
      simp only [State.unitOf, State.group?, State.modUnit, State.modGroup, State.modTeam, getElem?_modAt]
      split
      · next ht =>
        subst ht
        have hn : n ≠ n' := fun hn => h (by rw [hn])
        cases s.teams[t]? <;> simp [getElem?_modAt, hn]
      · rfl
  | handler c =>
    cases j with
    | none => rfl
    | group t n => rfl
    | handler c' =>
      have hc : c ≠ c' := fun hc => h (by rw [hc])
      simp [State.unitOf, State.modUnit, State.modCluster, getElem?_modAt, hc]

@[simp] theorem State.unitOf_countDomain (s : State) (j : Issuer) : s.countDomain.unitOf j = s.unitOf j := by cases j <;> rfl

@[simp] theorem State.unitOf_issued (s : State) (j : Issuer) : s.issued.unitOf j = s.unitOf j := by
  unfold State.issued
  split
  · rw [State.unitOf_countDomain]
    cases j with
    | none => rfl
    | handler c => rfl
    | group t n =>
      simp only [State.unitOf, State.group?, State.modTeam, getElem?_modAt]
      split
      · cases s.teams[t]? <;> rfl
      · rfl
  · exact State.unitOf_countDomain s j
  · rfl

@[simp] theorem State.unitOf_cancelWrites (s : State) (i : Issuer) (rs : List RegName) (j : Issuer) :
    (s.cancelWrites i rs).unitOf j = s.unitOf j := by cases j <;> rfl

theorem State.unitOf_ops (s : State) (ops : List Op) (n : Nat) (j : Issuer) :
    ({ s with ops := ops, nextId := n } : State).unitOf j = s.unitOf j := by cases j <;> rfl

/-! ### The rest of the part -/

theorem State.bare_modTeam {s : State} {t : Nat} {f : Team → Team} (hf : ∀ a, (f a).bare = a.bare) :
    (s.modTeam t f).bare = s.bare := by
  have h := map_modAt s.teams t f Team.bare hf
  simp only [State.bare, State.modTeam, h]

theorem State.bare_modCluster {s : State} {c : Nat} {f : Cluster → Cluster} (hf : ∀ a, (f a).bare = a.bare) :
    (s.modCluster c f).bare = s.bare := by
  have h := map_modAt s.clusters c f Cluster.bare hf
  simp only [State.bare, State.modCluster, h]

@[simp] theorem State.bare_modUnit (s : State) (i : Issuer) (f : Group → Group) : (s.modUnit i f).bare = s.bare := by
  cases i with
  | none => rfl
  | group t n => exact State.bare_modTeam fun _ => rfl
  | handler c =>
    refine State.bare_modCluster fun a => ?_
    cases h : a.handler <;> simp [Cluster.bare, h]

@[simp] theorem State.bare_countDomain (s : State) : s.countDomain.bare = s.bare := rfl

@[simp] theorem State.bare_issued (s : State) : s.issued.bare = s.bare := by
  unfold State.issued
  split
  · exact (State.bare_countDomain _).trans (State.bare_modTeam fun _ => rfl)
  · exact State.bare_countDomain s
  · rfl

@[simp] theorem State.bare_cancelWrites (s : State) (i : Issuer) (rs : List RegName) : (s.cancelWrites i rs).bare = s.bare := rfl

theorem State.bare_ops (s : State) (ops : List Op) (n : Nat) : ({ s with ops := ops, nextId := n } : State).bare = s.bare := rfl

@[simp] theorem State.bare_retire (s : State) (n : Nat) : (s.retire n).bare = s.bare := by simp [State.retire]
@[simp] theorem State.bare_writeNow (s : State) (i : Issuer) (ns : List RegName) (ws : List RegWrite) :
    (s.writeNow i ns ws).bare = s.bare := by simp [State.writeNow]
@[simp] theorem State.bare_launchOp (s : State) (ns : List RegName) (o : Op) : (s.launchOp ns o).bare = s.bare := by
  rw [State.launchOp, State.bare_ops]; simp
@[simp] theorem State.bare_emptyOp (s : State) (ns : List RegName) (f : Option Nat) : (s.emptyOp ns f).bare = s.bare := by
  simp [State.emptyOp]
@[simp] theorem State.bare_holdAt (s : State) (h : Hold) : (s.holdAt h).bare = s.bare := by simp [State.holdAt]

theorem State.unitOf_retire {s : State} {g : Group} (n : Nat) (h : s.unitOf s.issuer = some g) :
    (s.retire n).unitOf s.issuer = some (advance n g) := by
  simp [State.retire, State.unitOf_modUnit_same _ h]
theorem State.unitOf_retire_other {s : State} {j : Issuer} (n : Nat) (h : j ≠ s.issuer) :
    (s.retire n).unitOf j = s.unitOf j := by simp [State.retire, State.unitOf_modUnit_other _ h]
theorem State.unitOf_writeNow {s : State} {i : Issuer} {g : Group} (ns : List RegName) (ws : List RegWrite)
    (h : s.unitOf i = some g) : (s.writeNow i ns ws).unitOf i = some (ws.foldl applyWrite (clearHazards g ns)) := by
  rw [State.writeNow, State.unitOf_modUnit_same _ (by simpa using h)]
theorem State.unitOf_writeNow_other {s : State} {i j : Issuer} (ns : List RegName) (ws : List RegWrite) (h : j ≠ i) :
    (s.writeNow i ns ws).unitOf j = s.unitOf j := by simp [State.writeNow, State.unitOf_modUnit_other _ h]

/-- The unit after a variable-latency word is issued. -/
def launched (g : Group) (names : List RegName) (flag : Option Nat) : Group :=
  match flag with | some f => flagUp (setHazards g names f) f | none => g

theorem State.unitOf_launchOp {s : State} {g : Group} (ns : List RegName) (o : Op) (h : s.unitOf s.issuer = some g) :
    (s.launchOp ns o).unitOf s.issuer = some (launched g ns o.flag) := by
  rw [State.launchOp, State.unitOf_ops, State.unitOf_modUnit_same _ (by simpa using h)]
  cases o.flag <;> rfl
theorem State.unitOf_launchOp_other {s : State} {j : Issuer} (ns : List RegName) (o : Op) (h : j ≠ s.issuer) :
    (s.launchOp ns o).unitOf j = s.unitOf j := by
  rw [State.launchOp, State.unitOf_ops, State.unitOf_modUnit_other _ h]; simp
theorem State.ops_launchOp (s : State) (ns : List RegName) (o : Op) :
    (s.launchOp ns o).ops = (s.cancelWrites s.issuer ns).ops ++ [o] := by simp [State.launchOp]
@[simp] theorem State.ops_writeNow (s : State) (i : Issuer) (ns : List RegName) (ws : List RegWrite) :
    (s.writeNow i ns ws).ops = (s.cancelWrites i ns).ops := by simp [State.writeNow]
theorem State.unitOf_setOps (s : State) (ops : List Op) (j : Issuer) : ({ s with ops := ops } : State).unitOf j = s.unitOf j := by
  cases j <;> rfl

/-- A unit after an operation is delivered to it (R135, R185). -/
def received (o : Op) (g : Group) : Group :=
  let g := raiseFlags (o.writes.foldl applyWrite g) o.fstat
  let g : Group := { g with mstat := g.mstat ||| o.mstat }
  match o.flag with | some f => flagDown g f | none => g

theorem State.unitOf_finishOp {s : State} {g : Group} (o : Op) (h : s.unitOf o.issuer = some g) :
    (s.finishOp o).unitOf o.issuer = some (received o g) :=
  (State.unitOf_setOps _ _ _).trans (State.unitOf_modUnit_same _ h)
theorem State.unitOf_finishOp_other {s : State} {j : Issuer} (o : Op) (h : j ≠ o.issuer) :
    (s.finishOp o).unitOf j = s.unitOf j :=
  (State.unitOf_setOps _ _ _).trans (State.unitOf_modUnit_other _ h)
theorem State.bare_setOps (s : State) (ops : List Op) : ({ s with ops := ops } : State).bare = s.bare := rfl
@[simp] theorem State.bare_finishOp (s : State) (o : Op) : (s.finishOp o).bare = s.bare :=
  (State.bare_setOps _ _).trans (State.bare_modUnit _ _ _)
theorem State.ops_finishOp (s : State) (o : Op) : (s.finishOp o).ops = s.ops.filter fun p => p.id ≠ o.id := by
  simp [State.finishOp]

end Sys2Proof.Machine
end

