-- ==== Sys2Proof/Laws/Regs.lean ====
section
/-!
SUPPORT. Registers of a unit: what reads after writes, and what the clause and join machinery leaves alone.
-/
namespace Sys2Proof.Machine

/-- A register of a lane by its name. -/
def readName (g : Group) (lane : Nat) : RegName → Reg32
  | .v n => readV (threadAt g lane) n
  | .k n => readK g n
  | .p n => if readP (threadAt g lane) n then 1 else 0

/-! ### Threads -/

theorem threadAt_modThread (g : Group) (l m : Nat) (f : Thread → Thread) :
    threadAt (modThread g l f) m = if l = m ∧ m < g.threads.length then f (threadAt g m) else threadAt g m := by
  simp only [threadAt, modThread, List.getD_eq_getElem?_getD, getElem?_modAt]
  by_cases h : l = m
  · subst h
    by_cases hl : l < g.threads.length
    · simp [hl]
    · simp [hl]
  · simp [h]

@[simp] theorem modThread_k (g : Group) (l : Nat) (f : Thread → Thread) : (modThread g l f).k = g.k := rfl
@[simp] theorem modThread_length (g : Group) (l : Nat) (f : Thread → Thread) :
    (modThread g l f).threads.length = g.threads.length := by simp [modThread]

/-- Two units hold the same registers, index registers, sticky flags and exit bits. -/
def sameRegs (g g' : Group) : Prop :=
  (∀ n, readK g' n = readK g n) ∧ g'.threads.length = g.threads.length ∧
  (∀ l, (threadAt g' l).v = (threadAt g l).v ∧ (threadAt g' l).p = (threadAt g l).p ∧ (threadAt g' l).x = (threadAt g l).x ∧
    (threadAt g' l).status = (threadAt g l).status ∧ (threadAt g' l).exited = (threadAt g l).exited) ∧
  g'.mstat = g.mstat ∧ g'.gang = g.gang ∧ g'.ssw0 = g.ssw0 ∧ g'.ssw1 = g.ssw1 ∧ g'.faultAddr = g.faultAddr ∧
  g'.cohort = g.cohort ∧ g'.role = g.role ∧ g'.alloc = g.alloc ∧ g'.cf = g.cf ∧ g'.hazards = g.hazards

theorem sameRegs.refl (g : Group) : sameRegs g g := by simp [sameRegs]
theorem sameRegs.trans {a b c : Group} (h1 : sameRegs a b) (h2 : sameRegs b c) : sameRegs a c := by
  obtain ⟨a1, a2, a3, a4, a5, a6, a7, a8, a9, a10, a11, a12, a13⟩ := h1
  obtain ⟨b1, b2, b3, b4, b5, b6, b7, b8, b9, b10, b11, b12, b13⟩ := h2
  refine ⟨fun n => (b1 n).trans (a1 n), b2.trans a2, fun l => ?_, b4.trans a4, b5.trans a5, b6.trans a6, b7.trans a7,
    b8.trans a8, b9.trans a9, b10.trans a10, b11.trans a11, b12.trans a12, b13.trans a13⟩
  obtain ⟨x1, x2, x3, x4, x5⟩ := a3 l
  obtain ⟨y1, y2, y3, y4, y5⟩ := b3 l
  exact ⟨y1.trans x1, y2.trans x2, y3.trans x3, y4.trans x4, y5.trans x5⟩

/-- A change of threads that keeps each thread's registers. -/
theorem sameRegs_mapIdx (g : Group) (f : Nat → Thread → Thread)
    (h : ∀ l t, (f l t).v = t.v ∧ (f l t).p = t.p ∧ (f l t).x = t.x ∧ (f l t).status = t.status ∧ (f l t).exited = t.exited) :
    sameRegs g { g with threads := g.threads.mapIdx f } := by
  refine ⟨fun _ => rfl, by simp, fun l => ?_, rfl, rfl, rfl, rfl, rfl, rfl, rfl, rfl, rfl, rfl⟩
  simp only [threadAt, List.getD_eq_getElem?_getD, List.getElem?_mapIdx]
  cases ht : g.threads[l]? with
  | none => simp
  | some t => simpa using h l t

theorem sameRegs_popRecord (g : Group) (r : JoinRec) : sameRegs g (popRecord g r) := by
  refine (sameRegs_mapIdx g (fun l t =>
    if r.members.getLsbD l && t.joins.head? = some r.id then { t with joins := t.joins.tail, returned := false } else t)
    fun l t => ?_).trans (sameRegs.refl _)
  split <;> simp

theorem sameRegs_settleJoins (n : Nat) (g : Group) : sameRegs g (settleJoins n g) := by
  induction n generalizing g with
  | zero => exact sameRegs.refl g
  | succ n ih =>
    unfold settleJoins
    split
    · exact sameRegs.refl g
    · exact (sameRegs_popRecord _ _).trans (ih _)

theorem sameRegs_settle (g : Group) : sameRegs g (settle g) := sameRegs_settleJoins _ g

theorem sameRegs_endClause (g : Group) (c : Clause) : sameRegs g (endClause g c) := by
  unfold endClause
  refine sameRegs.trans ?_ (sameRegs_settle _)
  refine (sameRegs_mapIdx g (fun l t => if c.lanes.getLsbD l then { t with pc := BitVec.ofNat 32 (c.h + 1 + c.len) } else t)
    fun l t => ?_).trans (sameRegs.refl _)
  split <;> simp

/-- Going past a word touches no register. -/
theorem sameRegs_advance (n : Nat) (g : Group) : sameRegs g (advance n g) := by
  unfold advance
  split
  · exact sameRegs.refl g
  · split
    · exact sameRegs.refl g
    · exact (sameRegs.refl g).trans ((sameRegs_endClause { g with hold := .none } _).trans (sameRegs.refl _))

theorem sameRegs.readName {g g' : Group} (h : sameRegs g g') (l : Nat) (r : RegName) : readName g' l r = readName g l r := by
  obtain ⟨h1, _, h3, _⟩ := h
  obtain ⟨hv, hp, _⟩ := h3 l
  have hP (n : Nat) : readP (threadAt g' l) n = readP (threadAt g l) n := by simp [readP, hp]
  cases r with
  | v n => simp [Sys2Proof.Machine.readName, readV, hv]
  | k n => exact h1 n
  | p n => simp only [Sys2Proof.Machine.readName, hP]

/-! ### Register writes -/

theorem readP_writeP (t : Thread) (n m : Nat) (b : Bool) (hn : n < 16) :
    readP (writeP t n b) m = if m = n then b else readP t m := by
  have hbit : ∀ i, ((1 : BitVec 16) <<< n).getLsbD i = decide (i = n) := by
    intro i
    simp only [BitVec.getLsbD_shiftLeft]
    by_cases h : i = n
    · subst h; simp [hn]
    · rcases Nat.lt_or_gt_of_ne h with h' | h'
      · simp [h, h']
      · have : i - n ≠ 0 := by omega
        simp [h, this]
  have hge : ∀ i, 16 ≤ i → t.p.getLsbD i = false := fun i h => BitVec.getLsbD_of_ge _ _ h
  cases b
  · simp only [writeP, readP, Bool.false_eq_true, if_false, BitVec.getLsbD_and, BitVec.getLsbD_not, hbit]
    by_cases h : m = n
    · simp [h]
    · by_cases hm : m < 16
      · simp [h, hm]
      · simp [h, hge m (by omega)]
  · simp only [writeP, readP, if_true, BitVec.getLsbD_or, hbit]
    by_cases h : m = n <;> simp [h]

@[simp] theorem readV_writeV (t : Thread) (n : Nat) (a : Reg32) (m : Nat) :
    readV (writeV t n a) m = if m = n then a else readV t m := by
  by_cases h : m = n
  · subst h; simp [readV, writeV]
  · simp [readV, writeV, h]
@[simp] theorem readK_writeK (g : Group) (n : Nat) (a : Reg32) (m : Nat) :
    readK (writeK g n a) m = if m = n then a else readK g m := by
  by_cases h : m = n
  · subst h; simp [readK, writeK]
  · simp [readK, writeK, h]

/-- A write that a list of register writes delivers to a register of a lane. -/
def reaches (w : RegWrite) (lane : Nat) (r : RegName) : Prop :=
  w.reg = r ∧ match r with | .k _ => True | _ => w.lane = some lane

/-- What a register write leaves of everything but its own register. -/
theorem applyWrite_keeps (g : Group) (w : RegWrite) :
    (applyWrite g w).threads.length = g.threads.length ∧
    (∀ l, (threadAt (applyWrite g w) l).x = (threadAt g l).x ∧ (threadAt (applyWrite g w) l).status = (threadAt g l).status ∧
      (threadAt (applyWrite g w) l).exited = (threadAt g l).exited) ∧
    (applyWrite g w).mstat = g.mstat ∧ (applyWrite g w).gang = g.gang ∧ (applyWrite g w).ssw0 = g.ssw0 ∧
    (applyWrite g w).ssw1 = g.ssw1 ∧ (applyWrite g w).faultAddr = g.faultAddr ∧ (applyWrite g w).cohort = g.cohort ∧
    (applyWrite g w).role = g.role ∧ (applyWrite g w).alloc = g.alloc ∧ (applyWrite g w).cf = g.cf ∧
    (applyWrite g w).hazards = g.hazards := by
  unfold applyWrite
  split
  · refine ⟨by simp, fun l => ?_, rfl, rfl, rfl, rfl, rfl, rfl, rfl, rfl, rfl, rfl⟩
    rw [threadAt_modThread]; split <;> simp [writeV]
  · refine ⟨by simp, fun l => ?_, rfl, rfl, rfl, rfl, rfl, rfl, rfl, rfl, rfl, rfl⟩
    rw [threadAt_modThread]; split <;> simp [writeP]
  · exact ⟨rfl, fun _ => ⟨rfl, rfl, rfl⟩, rfl, rfl, rfl, rfl, rfl, rfl, rfl, rfl, rfl, rfl⟩
  · exact ⟨rfl, fun _ => ⟨rfl, rfl, rfl⟩, rfl, rfl, rfl, rfl, rfl, rfl, rfl, rfl, rfl, rfl⟩

theorem readName_applyWrite_other (g : Group) (w : RegWrite) (l : Nat) (r : RegName) (hp : ∀ n, w.reg = .p n → n < 16)
    (h : ¬ reaches w l r) : readName (applyWrite g w) l r = readName g l r := by
  obtain ⟨wr, wl, wv⟩ := w
  cases wr with
  | v n =>
    cases wl with
    | none => rfl
    | some m =>
      cases r with
      | v n' =>
        simp only [applyWrite, readName, threadAt_modThread]
        split
        · next hm =>
          have : n' ≠ n := fun e => h ⟨by rw [e], by simp [hm.1]⟩
          simp [this]
        · rfl
      | k n' => rfl
      | p n' => simp only [applyWrite, readName, threadAt_modThread]; split <;> rfl
  | p n =>
    cases wl with
    | none => rfl
    | some m =>
      cases r with
      | v n' => simp only [applyWrite, readName, threadAt_modThread]; split <;> rfl
      | k n' => rfl
      | p n' =>
        simp only [applyWrite, readName, threadAt_modThread]
        split
        · next hm =>
          have : n' ≠ n := fun e => h ⟨by rw [e], by simp [hm.1]⟩
          rw [readP_writeP _ _ _ _ (hp n rfl)]; simp [this]
        · rfl
  | k n =>
    cases r with
    | v n' => cases wl <;> rfl
    | p n' => cases wl <;> rfl
    | k n' =>
      have : n' ≠ n := fun e => h ⟨by rw [e], trivial⟩
      cases wl <;> simp [applyWrite, readName, this]

/-- The value a register holds after a write. -/
def stored (w : RegWrite) : Reg32 := match w.reg with | .p _ => if w.value = 0 then 0 else 1 | _ => w.value

theorem readName_applyWrite_same (g : Group) (w : RegWrite) (l : Nat) (r : RegName) (hp : ∀ n, w.reg = .p n → n < 16)
    (hl : l < g.threads.length) (h : reaches w l r) : readName (applyWrite g w) l r = stored w := by
  obtain ⟨wr, wl, wv⟩ := w
  obtain ⟨rfl, h2⟩ := h
  cases wr with
  | v n => simp only at h2; subst h2; simp [applyWrite, readName, threadAt_modThread, hl, stored]
  | p n =>
    simp only at h2; subst h2
    simp only [applyWrite, readName, threadAt_modThread, hl, stored, and_self, if_true]
    rw [readP_writeP _ _ _ _ (hp n rfl)]
    by_cases hv : wv = 0 <;> simp [hv]
  | k n => cases wl <;> simp [applyWrite, readName, stored]

/-- Registers that no write of a row reaches are kept; so is everything that is no general register. -/
theorem foldl_applyWrite_keeps (ws : List RegWrite) (g : Group) :
    (ws.foldl applyWrite g).threads.length = g.threads.length ∧
    (∀ l, (threadAt (ws.foldl applyWrite g) l).x = (threadAt g l).x ∧
      (threadAt (ws.foldl applyWrite g) l).status = (threadAt g l).status ∧
      (threadAt (ws.foldl applyWrite g) l).exited = (threadAt g l).exited) ∧
    (ws.foldl applyWrite g).mstat = g.mstat ∧ (ws.foldl applyWrite g).gang = g.gang ∧
    (ws.foldl applyWrite g).ssw0 = g.ssw0 ∧ (ws.foldl applyWrite g).ssw1 = g.ssw1 ∧
    (ws.foldl applyWrite g).faultAddr = g.faultAddr ∧ (ws.foldl applyWrite g).cohort = g.cohort ∧
    (ws.foldl applyWrite g).role = g.role ∧ (ws.foldl applyWrite g).alloc = g.alloc ∧
    (ws.foldl applyWrite g).cf = g.cf ∧ (ws.foldl applyWrite g).hazards = g.hazards := by
  induction ws generalizing g with
  | nil => simp
  | cons w ws ih =>
    obtain ⟨a1, a2, a3, a4, a5, a6, a7, a8, a9, a10, a11, a12⟩ := applyWrite_keeps g w
    obtain ⟨b1, b2, b3, b4, b5, b6, b7, b8, b9, b10, b11, b12⟩ := ih (applyWrite g w)
    simp only [List.foldl_cons]
    refine ⟨b1.trans a1, fun l => ?_, b3.trans a3, b4.trans a4, b5.trans a5, b6.trans a6, b7.trans a7, b8.trans a8,
      b9.trans a9, b10.trans a10, b11.trans a11, b12.trans a12⟩
    obtain ⟨x1, x2, x3⟩ := a2 l
    obtain ⟨y1, y2, y3⟩ := b2 l
    exact ⟨y1.trans x1, y2.trans x2, y3.trans x3⟩

theorem readName_foldl_other (ws : List RegWrite) (g : Group) (l : Nat) (r : RegName)
    (hp : ∀ w ∈ ws, ∀ n, w.reg = .p n → n < 16) (h : ∀ w ∈ ws, ¬ reaches w l r) :
    readName (ws.foldl applyWrite g) l r = readName g l r := by
  induction ws generalizing g with
  | nil => rfl
  | cons w ws ih =>
    rw [List.foldl_cons, ih _ (fun w' hw => hp w' (List.mem_cons_of_mem _ hw)) (fun w' hw => h w' (List.mem_cons_of_mem _ hw)),
      readName_applyWrite_other _ _ _ _ (hp w List.mem_cons_self) (h w List.mem_cons_self)]

/-- A register reads what every write that reaches it stores, if they agree. -/
theorem readName_foldl_same (ws : List RegWrite) (g : Group) (l : Nat) (r : RegName) (v : Reg32)
    (hp : ∀ w ∈ ws, ∀ n, w.reg = .p n → n < 16) (hl : l < g.threads.length) (hex : ∃ w ∈ ws, reaches w l r)
    (hall : ∀ w ∈ ws, reaches w l r → stored w = v) : readName (ws.foldl applyWrite g) l r = v := by
  induction ws generalizing g with
  | nil => obtain ⟨w, hw, _⟩ := hex; simp at hw
  | cons w ws ih =>
    rw [List.foldl_cons]
    by_cases hr : ∃ w' ∈ ws, reaches w' l r
    · exact ih _ (fun w' hw => hp w' (List.mem_cons_of_mem _ hw)) (by rw [(applyWrite_keeps g w).1]; exact hl) hr
        fun w' hw => hall w' (List.mem_cons_of_mem _ hw)
    · have hr' : ∀ w' ∈ ws, ¬ reaches w' l r := fun w' hw hx => hr ⟨w', hw, hx⟩
      rw [readName_foldl_other _ _ _ _ (fun w' hw => hp w' (List.mem_cons_of_mem _ hw)) hr']
      obtain ⟨w', hw', hx⟩ := hex
      rcases List.mem_cons.1 hw' with rfl | hw'
      · rw [readName_applyWrite_same _ _ _ _ (hp _ List.mem_cons_self) hl hx]; exact hall _ List.mem_cons_self hx
      · exact absurd hx (hr' w' hw')

/-! ### Sticky flags -/

theorem raiseFlags_keeps (fl : List (Nat × BitVec 5)) (g : Group) :
    (∀ n, readK (raiseFlags g fl) n = readK g n) ∧ (raiseFlags g fl).threads.length = g.threads.length ∧
    (∀ l, (threadAt (raiseFlags g fl) l).v = (threadAt g l).v ∧ (threadAt (raiseFlags g fl) l).p = (threadAt g l).p ∧
      (threadAt (raiseFlags g fl) l).x = (threadAt g l).x ∧ (threadAt (raiseFlags g fl) l).exited = (threadAt g l).exited) ∧
    (raiseFlags g fl).mstat = g.mstat ∧ (raiseFlags g fl).gang = g.gang ∧ (raiseFlags g fl).ssw0 = g.ssw0 ∧
    (raiseFlags g fl).ssw1 = g.ssw1 ∧ (raiseFlags g fl).faultAddr = g.faultAddr ∧ (raiseFlags g fl).cohort = g.cohort ∧
    (raiseFlags g fl).role = g.role ∧ (raiseFlags g fl).alloc = g.alloc ∧ (raiseFlags g fl).cf = g.cf ∧
    (raiseFlags g fl).hazards = g.hazards := by
  induction fl generalizing g with
  | nil => simp [raiseFlags]
  | cons e fl ih =>
    obtain ⟨b1, b2, b3, b4⟩ := ih (modThread g e.1 fun t => { t with status := t.status ||| e.2.zeroExtend 32 })
    refine ⟨b1, b2.trans (by simp), fun l => ?_, b4⟩
    obtain ⟨y1, y2, y3, y4⟩ := b3 l
    rw [threadAt_modThread] at y1 y2 y3 y4
    refine ⟨?_, ?_, ?_, ?_⟩
    · exact y1.trans (by split <;> rfl)
    · exact y2.trans (by split <;> rfl)
    · exact y3.trans (by split <;> rfl)
    · exact y4.trans (by split <;> rfl)

end Sys2Proof.Machine
end

