-- ==== Sys2Proof/Laws/Alu.lean ====
section
/-!
SUPPORT. What a word of the ALU layout does once the checks of R44 let it issue.
-/
namespace Sys2Proof.Machine

theorem leastOf_eq_none {l : List Nat} (h : leastOf l = none) : l = [] := by
  cases l with
  | nil => rfl
  | cons a r => unfold leastOf at h; split at h <;> simp at h

theorem lanesOf_mem {m : BitVec 32} {l : Nat} : l ∈ lanesOf m ↔ m.getLsbD l = true := by
  simp only [lanesOf, List.mem_filter, List.mem_range, and_iff_right_iff_imp]
  intro h
  by_contra hl
  rw [BitVec.getLsbD_of_ge _ _ (by omega)] at h
  simp at h

theorem lanesOf_nodup (m : BitVec 32) : (lanesOf m).Nodup := List.Nodup.filter _ List.nodup_range

theorem foldl_bits (f : Nat → Bool) (n : Nat) :
    ∀ i, Nat.testBit ((List.range n).foldl (fun a j => if f j then a + 2 ^ j else a) 0) i = (decide (i < n) && f i) ∧
      (List.range n).foldl (fun a j => if f j then a + 2 ^ j else a) 0 < 2 ^ n := by
  induction n with
  | zero => simp
  | succ n ih =>
    intro i
    have hlt := (ih 0).2
    rw [List.range_succ, List.foldl_append]
    simp only [List.foldl_cons, List.foldl_nil]
    by_cases hn : f n = true
    · simp only [hn, if_true]
      refine ⟨?_, by rw [Nat.pow_succ]; omega⟩
      rcases Nat.lt_trichotomy i n with h | h | h
      · rw [Nat.add_comm, Nat.testBit_two_pow_add_gt h, (ih i).1]; simp [h, Nat.lt_succ_of_lt h]
      · subst h; rw [Nat.add_comm, Nat.testBit_two_pow_add_eq, (ih i).1]; simp [hn]
      · rw [Nat.testBit_lt_two_pow (lt_of_lt_of_le (show _ < 2 ^ (n + 1) by rw [Nat.pow_succ]; omega) (Nat.pow_le_pow_right (by omega) h))]
        have : ¬ i < n + 1 := by omega
        simp [this]
    · simp only [hn]
      refine ⟨?_, by simp only [Bool.false_eq_true, if_false]; rw [Nat.pow_succ]; omega⟩
      simp only [Bool.false_eq_true, if_false, (ih i).1]
      rcases Nat.lt_trichotomy i n with h | h | h
      · simp [h, Nat.lt_succ_of_lt h]
      · subst h; simp [hn]
      · have h1 : ¬ i < n + 1 := by omega
        have h2 : ¬ i < n := by omega
        simp [h1, h2]

/-- The mask of a test holds the lanes that pass it. -/
theorem getLsbD_maskOf (f : Nat → Bool) (i : Nat) : (maskOf f).getLsbD i = (decide (i < 32) && f i) := by
  unfold maskOf
  rw [BitVec.getLsbD_ofNat, (foldl_bits f 32 i).1]
  by_cases h : i < 32 <;> simp [h]

theorem guardMask_mem {g : Group} {h : Head} {l : Nat} :
    l ∈ lanesOf (guardMask g h) ↔ (issuing g).getLsbD l = true ∧ guardTrue g h l = true := by
  rw [lanesOf_mem, guardMask, getLsbD_maskOf]
  constructor
  · intro hh; simp at hh; exact hh.2
  · rintro ⟨h1, h2⟩
    have : l < 32 := by
      by_contra hl; rw [BitVec.getLsbD_of_ge _ _ (by omega)] at h1; simp at h1
    simp [h1, h2, this]

/-- What a word that R44 lets issue has passed. -/
theorem firstFault_none {g : Group} {h : Head} {k : WordCheck} (hf : firstFault g h k = none) :
    k.details = [] ∧ k.bank = false ∧ ∀ l, (guardMask g h).getLsbD l = true → k.bound l = false := by
  unfold firstFault at hf
  split at hf
  · simp at hf
  · next hd =>
    refine ⟨leastOf_eq_none hd, ?_⟩
    split at hf
    · simp at hf
    · next hb =>
      refine ⟨by simpa using hb, fun l hl => ?_⟩
      simp only [ite_eq_left_iff, reduceCtorEq, imp_false, not_not] at hf
      have hl32 : l < 32 := by
        by_contra h'
        rw [BitVec.getLsbD_of_ge _ _ (by omega)] at hl; simp at hl
      have h0 : (maskOf fun l => (guardMask g h).getLsbD l && k.bound l).getLsbD l = false := by rw [hf]; simp
      rw [getLsbD_maskOf] at h0
      simpa [hl, hl32] using h0

/-- A word that issues goes on with its effect. -/
theorem State.issues.run {s : State} {h : Head} {check : Group → WordCheck} {g : Group} (hi : s.issues h check g)
    (go : Group → Out) : s.issueWord h check go = go g := by
  obtain ⟨h1, h2, h3⟩ := hi
  simp [State.issueWord, h1, h2, h3]

/-! ### Results -/

@[simp] theorem pair_halves (v : Word64) : pair (lowHalf v) (highHalf v) = v := by
  apply BitVec.eq_of_getLsbD_eq
  intro i hi
  unfold pair lowHalf highHalf
  rw [BitVec.getLsbD_append, BitVec.getLsbD_extractLsb', BitVec.getLsbD_extractLsb']
  by_cases h : i < 32
  · simp [h]
  · have h1 : 32 + (i - 32) = i := by omega
    simp [h, h1]; omega

theorem aluResults_fst (g : Group) (f : AluForm) (w : AluW) (sem : LaneIn → LaneOut) :
    (aluResults g f w sem).1 =
      (resultLanes f w g).flatMap fun l => dstWrites g l (dstWide f.dst) w.dst (sem (laneIn g f w l)).value := by
  unfold aluResults resultLanes
  split
  · cases lanesOf (guardMask g w.head) <;> simp
  · simp [List.flatMap_map]

theorem resultLanes_guard {f : AluForm} {w : AluW} {g : Group} {l : Nat} (h : l ∈ resultLanes f w g) :
    (guardMask g w.head).getLsbD l = true := by
  unfold resultLanes at h
  split at h
  · exact lanesOf_mem.1 (List.mem_of_mem_take h)
  · exact lanesOf_mem.1 h

theorem opd_p_lt {d : Spec} {n : Nat} (h : opdOf d = .p n) : n < 16 := by
  unfold opdOf at h
  dsimp only at h
  split at h
  · simp at h
  · split at h
    · simp at h
    · split at h
      · simp only [Opd.p.injEq] at h; omega
      · split at h
        · simp at h
        · split at h
          · simp at h
          · split at h <;> simp at h

theorem dstWrites_p {g : Group} {l : Nat} {wide : Bool} {d : Spec} {v : Word64} {w : RegWrite} {n : Nat}
    (h : w ∈ dstWrites g l wide d v) (hp : w.reg = .p n) : n < 16 := by
  unfold dstWrites at h
  dsimp only at h
  split at h
  · split at h
    · simp at h; rcases h with rfl | rfl <;> simp at hp
    · simp at h; subst h; simp at hp
  · split at h
    · simp at h; rcases h with rfl | rfl <;> simp at hp
    · simp at h; subst h; simp at hp
  · split at h
    · simp at h; rcases h with rfl | rfl <;> simp at hp
    · simp at h; subst h; simp at hp
  · next m hm =>
    simp only [List.mem_singleton] at h
    subst h
    simp only [RegName.p.injEq] at hp
    subst hp
    exact opd_p_lt hm
  · simp at h

/-- The lane of a write of a lane's result, unless it goes to a k register. -/
theorem dstWrites_lane {g : Group} {l : Nat} {wide : Bool} {d : Spec} {v : Word64} {w : RegWrite}
    (h : w ∈ dstWrites g l wide d v) : w.lane = some l ∨ (isKReg d = true ∧ w.lane = none ∧ ∃ n, w.reg = .k n) := by
  unfold dstWrites at h
  dsimp only at h
  split at h
  · left
    split at h
    · simp at h; rcases h with rfl | rfl <;> rfl
    · simp at h; subst h; rfl
  · left
    split at h
    · simp at h; rcases h with rfl | rfl <;> rfl
    · simp at h; subst h; rfl
  · next hd =>
    right
    refine ⟨by simp [isKReg, hd], ?_⟩
    split at h
    · simp at h; rcases h with rfl | rfl <;> exact ⟨rfl, _, rfl⟩
    · simp at h; subst h; exact ⟨rfl, _, rfl⟩
  · left; simp only [List.mem_singleton] at h; subst h; rfl
  · simp at h

/-- A write to a lane goes to no k register. -/
theorem dstWrites_laned {g : Group} {l : Nat} {wide : Bool} {d : Spec} {v : Word64} {w : RegWrite}
    (h : w ∈ dstWrites g l wide d v) (hl : w.lane = some l) (n : Nat) : w.reg ≠ .k n := by
  cases hd : opdOf d with
  | v n =>
    cases wide
    · simp [dstWrites, hd] at h; subst h; simp
    · simp [dstWrites, hd] at h; rcases h with rfl | rfl <;> simp
  | k n =>
    cases wide
    · simp [dstWrites, hd] at h; subst h; simp at hl
    · simp [dstWrites, hd] at h; rcases h with rfl | rfl <;> simp at hl
  | p n => simp [dstWrites, hd] at h; subst h; simp
  | rel a b =>
    cases wide
    · simp [dstWrites, hd] at h; subst h; simp
    · simp [dstWrites, hd] at h; rcases h with rfl | rfl <;> simp
  | zero => simp [dstWrites, hd] at h
  | imm => simp [dstWrites, hd] at h
  | rsv => simp [dstWrites, hd] at h

/-- The register a write of a result names is one of its destination's. -/
theorem dstWrites_name {g : Group} {l : Nat} {wide : Bool} {d : Spec} {v : Word64} {w : RegWrite}
    (h : w ∈ dstWrites g l wide d v) (hb : ∀ x off, opdOf d = .rel x off → 0 ≤ effective (threadAt g l) x off) :
    w.reg ∈ regNames g l d (width wide) := by
  cases hd : opdOf d with
  | v n =>
    cases wide
    · simp [dstWrites, hd] at h; subst h; simp [regNames, hd, width]
    · simp [dstWrites, hd] at h; rcases h with rfl | rfl <;> simp [regNames, hd, width, List.range_succ]
  | k n =>
    cases wide
    · simp [dstWrites, hd] at h; subst h; simp [regNames, hd, width]
    · simp [dstWrites, hd] at h; rcases h with rfl | rfl <;> simp [regNames, hd, width, List.range_succ]
  | p n => simp [dstWrites, hd] at h; subst h; simp [regNames, hd]
  | rel a b =>
    have h0 := hb a b hd
    have h1 : 0 ≤ effective (threadAt g l) a b + 1 := by omega
    have h2 : (effective (threadAt g l) a b + 1).toNat = (effective (threadAt g l) a b).toNat + 1 := by omega
    cases wide
    · simp [dstWrites, hd] at h; subst h; simp [regNames, hd, width, h0]
    · simp [dstWrites, hd] at h
      rcases h with rfl | rfl <;> simp [regNames, hd, width, List.range_succ, h0, h1, h2]
  | zero => simp [dstWrites, hd] at h
  | imm => simp [dstWrites, hd] at h
  | rsv => simp [dstWrites, hd] at h

/-- A destination within bounds names no register below 0. -/
theorem effective_nonneg {g : Group} {l a n : Nat} {d : Spec} (hl : l < g.threads.length) (hb : boundFails g l a n d = false) :
    ∀ x off, opdOf d = .rel x off → 0 ≤ effective (threadAt g l) x off := by
  intro x off hd
  have ht : g.threads[l]? = some (threadAt g l) := by
    simp [threadAt, List.getD_eq_getElem?_getD, hl]
  simp only [boundFails, ht, hd, outside, Bool.or_eq_false_iff, decide_eq_false_iff_not] at hb
  omega

/-- The writes of one lane's result go to different registers. -/
theorem dstWrites_inj {g : Group} {l : Nat} {wide : Bool} {d : Spec} {v : Word64} {x y : RegWrite}
    (hx : x ∈ dstWrites g l wide d v) (hy : y ∈ dstWrites g l wide d v) (h : y.reg = x.reg) : y = x := by
  cases hd : opdOf d with
  | v n =>
    cases wide
    · simp [dstWrites, hd] at hx hy; rw [hx, hy]
    · simp [dstWrites, hd] at hx hy; rcases hx with rfl | rfl <;> rcases hy with rfl | rfl <;> simp at h ⊢
  | k n =>
    cases wide
    · simp [dstWrites, hd] at hx hy; rw [hx, hy]
    · simp [dstWrites, hd] at hx hy; rcases hx with rfl | rfl <;> rcases hy with rfl | rfl <;> simp at h ⊢
  | p n => simp [dstWrites, hd] at hx hy; rw [hx, hy]
  | rel a b =>
    cases wide
    · simp [dstWrites, hd] at hx hy; rw [hx, hy]
    · simp [dstWrites, hd] at hx hy; rcases hx with rfl | rfl <;> rcases hy with rfl | rfl <;> simp at h ⊢
  | zero => simp [dstWrites, hd] at hx
  | imm => simp [dstWrites, hd] at hx
  | rsv => simp [dstWrites, hd] at hx

/-- A unit in which every write of a lane's result has been delivered reads the result. -/
theorem holdsResult_of_reads {g g' : Group} {l : Nat} {wide : Bool} {d : Spec} {v : Word64}
    (hx : (threadAt g' l).x = (threadAt g l).x)
    (hr : ∀ w ∈ dstWrites g l wide d v, readName g' l w.reg = stored w) :
    holdsResult g' l wide d v := by
  have heff (x off : Nat) : effective (threadAt g' l) x off = effective (threadAt g l) x off := by simp [effective, hx]
  unfold holdsResult
  unfold dstWrites at hr
  dsimp only at hr
  split
  · next n hd =>
    rw [hd] at hr
    have := hr _ (List.mem_singleton.2 rfl)
    simp only [readName, stored] at this
    cases hP : readP (threadAt g' l) n <;> by_cases hv : v = 0 <;> simp [hP, hv] at this ⊢ <;>
      first | exact absurd this hv | exact this
  · next n hd =>
    rw [hd] at hr
    cases wide
    · have := hr _ (List.mem_singleton.2 rfl)
      simp only [readName, stored] at this
      simp [readSrc, hd, readOpd, this]
    · have h0 := hr ⟨.v n, some l, lowHalf v⟩ (by simp)
      have h1 := hr ⟨.v (n + 1), some l, highHalf v⟩ (by simp)
      simp only [readName, stored] at h0 h1
      simp [readSrc, hd, readOpd, h0, h1]
  · next n hd =>
    rw [hd] at hr
    cases wide
    · have := hr _ (List.mem_singleton.2 rfl)
      simp only [readName, stored] at this
      simp [readSrc, hd, readOpd, this]
    · have h0 := hr ⟨.k n, none, lowHalf v⟩ (by simp)
      have h1 := hr ⟨.k (n + 1), none, highHalf v⟩ (by simp)
      simp only [readName, stored] at h0 h1
      simp [readSrc, hd, readOpd, h0, h1]
  · next x off hd =>
    rw [hd] at hr
    cases wide
    · have := hr _ (List.mem_singleton.2 rfl)
      simp only [readName, stored] at this
      simp [readSrc, hd, readOpd, heff, this]
    · have h0 := hr ⟨.v (effective (threadAt g l) x off).toNat, some l, lowHalf v⟩ (by simp)
      have h1 := hr ⟨.v ((effective (threadAt g l) x off).toNat + 1), some l, highHalf v⟩ (by simp)
      simp only [readName, stored] at h0 h1
      simp [readSrc, hd, readOpd, heff, h0, h1]
  · trivial

/-! ### The whole word -/

theorem holdsResult_same {g g' : Group} (h : sameRegs g g') (l : Nat) (wide : Bool) (d : Spec) (v : Word64)
    (hr : holdsResult g l wide d v) : holdsResult g' l wide d v := by
  obtain ⟨h1, _, h3, _⟩ := h
  obtain ⟨hv, hp, hx, _⟩ := h3 l
  have hP (n : Nat) : readP (threadAt g' l) n = readP (threadAt g l) n := by simp [readP, hp]
  have hread (j : Nat) : readOpd g' l d j = readOpd g l d j := by
    unfold readOpd
    dsimp only
    split
    · simp [readV, hv]
    · exact h1 _
    · rw [hP]
    · simp [readV, hv, effective, hx]
    · rfl
  unfold holdsResult at hr ⊢
  split
  · next n hd => rw [hd] at hr; rw [hP]; exact hr
  · next n hd => rw [hd] at hr; simp only [readSrc, hd, hread] at hr ⊢; exact hr
  · next n hd => rw [hd] at hr; simp only [readSrc, hd, hread] at hr ⊢; exact hr
  · next n hd => rw [hd] at hr; simp only [readSrc, hd, hread] at hr ⊢; exact hr
  · trivial

/-- Status bits raised in lanes that are each named once. -/
theorem status_raiseFlags (fl : List (Nat × BitVec 5)) (g : Group) (hn : (fl.map Prod.fst).Nodup) (l : Nat)
    (hl : l < g.threads.length) :
    (threadAt (raiseFlags g fl) l).status =
      (threadAt g l).status ||| (((fl.find? fun e => e.1 = l).map Prod.snd).getD 0).zeroExtend 32 := by
  induction fl generalizing g with
  | nil => simp [raiseFlags]
  | cons e fl ih =>
    obtain ⟨m, b⟩ := e
    simp only [List.map_cons, List.nodup_cons] at hn
    have := ih (modThread g m fun t => { t with status := t.status ||| b.zeroExtend 32 }) hn.2 (by simpa using hl)
    rw [show raiseFlags g ((m, b) :: fl) = raiseFlags (modThread g m fun t => { t with status := t.status ||| b.zeroExtend 32 }) fl
      from rfl, this, threadAt_modThread]
    by_cases hm : m = l
    · subst hm
      have hnone : fl.find? (fun e => e.1 = m) = none := by
        rw [List.find?_eq_none]
        intro e he
        simp only [decide_eq_true_eq]
        intro hem
        exact hn.1 (by rw [← hem]; exact List.mem_map_of_mem he)
      simp [hl, hnone]
    · simp [hm]

theorem find_map_lane {β : Type} (ls : List Nat) (f : Nat → β) (l : Nat) :
    (((ls.map fun m => (m, f m)).find? fun e => e.1 = l).map Prod.snd) = if l ∈ ls then some (f l) else none := by
  induction ls with
  | nil => simp
  | cons a r ih =>
    by_cases h : a = l
    · subst h; simp
    · simp only [List.map_cons, List.find?_cons, h, decide_false, ih, List.mem_cons, Ne.symm h, false_or]

theorem aluResults_snd_nodup (g : Group) (f : AluForm) (w : AluW) (sem : LaneIn → LaneOut) :
    ((aluResults g f w sem).2.map Prod.fst).Nodup := by
  unfold aluResults
  split
  · split
    · simp
    · simpa [Function.comp_def] using lanesOf_nodup _
  · simpa [Function.comp_def] using lanesOf_nodup _

theorem laneFlags_find (r : AluRow) (g : Group) (w : AluW) (l : Nat) :
    ((((aluResults g (r.form w) w (r.result w)).2).find? fun e => e.1 = l).map Prod.snd).getD 0 = laneFlags r w g l := by
  unfold aluResults laneFlags
  split
  · split
    · next h => simp [h]
    · next m ms h =>
      simp only [h, find_map_lane, lanesOf_mem]
      split <;> rfl
  · simp only [List.map_map, Function.comp_def]
    rw [find_map_lane]
    simp only [lanesOf_mem]
    split <;> rfl

/-- The destination kinds of which `AluRow.delivers` speaks. -/
def plainDst (f : AluForm) : Prop := f.dst ≠ .kOnly ∧ f.dst ≠ .xreg

theorem kReg_uniform {f : AluForm} {w : AluW} (hp : plainDst f) (hd : dstDetails f.dst w.dst = []) (hk : isKReg w.dst = true) :
    aluUniform f w = true := by
  have : ∃ n, opdOf w.dst = .k n := by
    unfold isKReg at hk
    split at hk
    · exact ⟨_, ‹_›⟩
    · simp at hk
  obtain ⟨n, hn⟩ := this
  have hz : w.dst ≠ specZero := by intro h; rw [h] at hn; simp [opdOf, specZero] at hn
  unfold aluUniform
  cases hf : f.dst with
  | none => simp [dstDetails, hf, hz] at hd
  | reg => simp [hk]
  | wide => simp [hk]
  | pred => simp [dstDetails, hf, hn] at hd
  | vOnly => simp [dstDetails, hf, hn] at hd
  | kOnly => exact absurd hf hp.1
  | xreg => exact absurd hf hp.2
  | pred0 => simp [dstDetails, hf, hn] at hd

theorem aluCheck_passed {f : AluForm} {w : AluW} {g : Group} (h : firstFault g w.head (aluCheck f w g) = none) :
    dstDetails f.dst w.dst = [] ∧ ∀ l, (guardMask g w.head).getLsbD l = true → f.dst ≠ .none → f.dst ≠ .xreg →
      boundFails g l (width (dstWide f.dst)) (width (dstWide f.dst)) w.dst = false := by
  obtain ⟨h1, _, h3⟩ := firstFault_none h
  simp only [aluCheck, aluFieldDetails, List.append_eq_nil_iff] at h1
  refine ⟨h1.1.1.2.1.1.1, fun l hl hn hx => ?_⟩
  have := h3 l hl
  simp only [aluCheck, aluBound, Bool.or_eq_false_iff] at this
  revert this
  cases hf : f.dst <;> simp_all

/-- The registers of a unit after the writes and flags of an ALU word. -/
theorem aluGo_unit (f : AluForm) (w : AluW) (sem : LaneIn → LaneOut) (g : Group) (hp : plainDst f)
    (hf : firstFault g w.head (aluCheck f w g) = none) (g1 : Group) (names : List RegName)
    (hg1 : g1 = raiseFlags ((aluResults g f w sem).1.foldl applyWrite (clearHazards g names)) (aluResults g f w sem).2) :
    (∀ l ∈ resultLanes f w g, l < g.threads.length → holdsResult g1 l (dstWide f.dst) w.dst (sem (laneIn g f w l)).value) ∧
    g.keeps g1 (guardMask g w.head) (fun l => regNames g l w.dst (width (dstWide f.dst))) ∧ g1.threads.length = g.threads.length ∧
    (∀ l, l < g.threads.length → (threadAt g1 l).status =
      (threadAt g l).status ||| ((((aluResults g f w sem).2.find? fun e => e.1 = l).map Prod.snd).getD 0).zeroExtend 32) := by
  obtain ⟨hd, hb⟩ := aluCheck_passed hf
  obtain ⟨f1, f2, f3, f4⟩ := raiseFlags_keeps (aluResults g f w sem).2 ((aluResults g f w sem).1.foldl applyWrite (clearHazards g names))
  obtain ⟨k1, k2, k3⟩ := foldl_applyWrite_keeps (aluResults g f w sem).1 (clearHazards g names)
  have hc : ∀ l r, readName (clearHazards g names) l r = readName g l r := fun _ _ => rfl
  have hread : ∀ l r, readName g1 l r = readName ((aluResults g f w sem).1.foldl applyWrite (clearHazards g names)) l r := by
    intro l r
    obtain ⟨x1, x2, x3, x4⟩ := f3 l
    subst hg1
    cases r with
    | v n => simp [readName, readV, x1]
    | k n => exact f1 n
    | p n =>
      have : readP (threadAt (raiseFlags ((aluResults g f w sem).1.foldl applyWrite (clearHazards g names)) (aluResults g f w sem).2) l) n
        = readP (threadAt ((aluResults g f w sem).1.foldl applyWrite (clearHazards g names)) l) n := by simp [readP, x2]
      simp only [readName, this]
  have hmem : ∀ x ∈ (aluResults g f w sem).1, ∃ l ∈ resultLanes f w g,
      x ∈ dstWrites g l (dstWide f.dst) w.dst (sem (laneIn g f w l)).value := by
    intro x hx
    rw [aluResults_fst] at hx
    exact List.mem_flatMap.1 hx
  have hpx : ∀ x ∈ (aluResults g f w sem).1, ∀ n, x.reg = .p n → n < 16 := by
    intro x hx n hn
    obtain ⟨l, _, h⟩ := hmem x hx
    exact dstWrites_p h hn
  have hone : ∀ x l m, x ∈ dstWrites g l (dstWide f.dst) w.dst (sem (laneIn g f w l)).value → l ∈ resultLanes f w g →
      m ∈ resultLanes f w g → reaches x m x.reg → l = m := by
    intro x l m hx hl hm hr
    rcases dstWrites_lane hx with h | ⟨hk, _, _⟩
    · obtain ⟨_, h2⟩ := hr
      cases hreg : x.reg with
      | v n => rw [hreg] at h2; simp only [h, Option.some.injEq] at h2; exact h2
      | p n => rw [hreg] at h2; simp only [h, Option.some.injEq] at h2; exact h2
      | k n => exact absurd hreg (dstWrites_laned hx h n)
    · have hu := kReg_uniform hp hd hk
      unfold resultLanes at hl hm
      rw [if_pos hu] at hl hm
      cases hls : lanesOf (guardMask g w.head) with
      | nil => rw [hls] at hl; simp at hl
      | cons a r => rw [hls] at hl hm; simp at hl hm; rw [hl, hm]
  have hlen : g1.threads.length = g.threads.length := by subst hg1; exact f2.trans (k1.trans rfl)
  have hzero : ∀ l, ¬ l < g.threads.length → threadAt g1 l = threadAt g l := by
    intro l hl
    simp only [threadAt, List.getD_eq_getElem?_getD]
    rw [List.getElem?_eq_none (by omega), List.getElem?_eq_none (by omega)]
  have hkeep : ∀ l r, ((guardMask g w.head).getLsbD l = true → r ∉ regNames g l w.dst (width (dstWide f.dst))) →
      (∀ n, r ≠ .k n) → (¬ l < g.threads.length → readName g1 l r = readName g l r) → readName g1 l r = readName g l r := by
    intro l r hn hk hz
    by_cases hl : l < g.threads.length
    · rw [hread]
      refine (readName_foldl_other _ _ l r hpx fun x hx hr => ?_).trans (hc l r)
      obtain ⟨m, hm, hx'⟩ := hmem x hx
      rcases dstWrites_lane hx' with h | ⟨_, _, n, h⟩
      · have hml : m = l := by
          obtain ⟨_, h2⟩ := hr
          cases r with
          | v n => simp only [h, Option.some.injEq] at h2; exact h2
          | p n => simp only [h, Option.some.injEq] at h2; exact h2
          | k n => exact absurd rfl (hk n)
        subst hml
        have hgm := resultLanes_guard hm
        refine hn hgm (hr.1 ▸ dstWrites_name hx' ?_)
        refine effective_nonneg hl (hb m hgm ?_ hp.2)
        intro hnone
        rw [hnone] at hd
        have : w.dst = specZero := by
          by_contra hz; simp [dstDetails, hz] at hd
        rw [this] at hx'
        simp [dstWrites, opdOf, specZero] at hx'
      · exact hk n (hr.1.symm.trans h)
    · exact hz hl
  refine ⟨fun l hl hlen => ?_, ⟨fun n hn => ?_, fun l n hn => ?_, fun l n hn => ?_, fun l => ?_, ?_⟩, ?_, fun l hl => ?_⟩
  · refine holdsResult_of_reads (g := g) ?_ fun x hx => ?_
    · subst hg1; exact (f3 l).2.2.1.trans (k2 l).1
    · rw [hread]
      have hxr : reaches x l x.reg := by
        refine ⟨rfl, ?_⟩
        rcases dstWrites_lane hx with h | ⟨_, _, n, h⟩
        · cases hreg : x.reg <;> simp [h]
        · rw [h]; trivial
      refine readName_foldl_same _ _ _ _ _ hpx (by simpa [clearHazards] using hlen) ⟨x, ?_, hxr⟩ fun y hy hry => ?_
      · rw [aluResults_fst]; exact List.mem_flatMap.2 ⟨l, hl, hx⟩
      · obtain ⟨m, hm, hy'⟩ := hmem y hy
        have hry' : reaches y l y.reg := by rw [hry.1]; exact ⟨hry.1, hry.2⟩
        have : m = l := hone y m l hy' hm hl hry'
        subst this
        rw [dstWrites_inj hx hy' hry.1]
  · have h0 := hread 0 (.k n)
    simp only [readName] at h0
    rw [h0]
    refine (readName_foldl_other _ _ 0 (.k n) hpx fun x hx hr => ?_).trans (hc 0 (.k n))
    obtain ⟨l, hl, hx'⟩ := hmem x hx
    rcases dstWrites_lane hx' with h | ⟨hk, _, _⟩
    · exact dstWrites_laned hx' h n hr.1
    · refine hn l (resultLanes_guard hl) (hr.1 ▸ dstWrites_name hx' fun a b hab => ?_)
      simp [isKReg, hab] at hk
  · exact hkeep l (.v n) (fun h => hn h) (by simp) (fun hl => by simp [readName, readV, hzero l hl])
  · have := hkeep l (.p n) (fun h => hn h) (by simp) (fun hl => by simp [readName, hzero l hl])
    simp only [readName] at this
    cases h1 : readP (threadAt g1 l) n <;> cases h2 : readP (threadAt g l) n <;> simp [h1, h2] at this ⊢
  · subst hg1
    exact ⟨(f3 l).2.2.1.trans (k2 l).1, (f3 l).2.2.2.trans (k2 l).2.2⟩
  · subst hg1
    obtain ⟨m1, m2, m3, m4, m5, m6, m7, m8, _, _⟩ := f4
    obtain ⟨n1, n2, n3, n4, n5, n6, n7, n8, _, _⟩ := k3
    exact ⟨m1.trans n1, m2.trans n2, m3.trans n3, m4.trans n4, m5.trans n5, m6.trans n6, m7.trans n7, m8.trans n8⟩
  · exact hlen
  · subst hg1
    rw [status_raiseFlags _ _ (aluResults_snd_nodup g f w sem) l (by rw [k1]; exact hl), (k2 l).2.1]
    rfl

/-- Registers kept stay kept when nothing more is written. -/
theorem keeps_same {g g1 g2 : Group} {m : BitVec 32} {ns : Nat → List RegName} (h : g.keeps g1 m ns) (hs : sameRegs g1 g2) :
    g.keeps g2 m ns := by
  obtain ⟨h1, h2, h3, h4, h5, h6, h7, h8, h9, h10, h11, h12⟩ := h
  obtain ⟨s1, _, s3, s4, s5, s6, s7, s8, s9, s10, s11, _, _⟩ := hs
  refine ⟨fun n hn => (s1 n).trans (h1 n hn), fun l n hn => ?_, fun l n hn => ?_, fun l => ?_, s4.trans h5, s5.trans h6,
    s6.trans h7, s7.trans h8, s8.trans h9, s9.trans h10, s10.trans h11, s11.trans h12⟩
  · rw [← h2 l n hn]; simp [readV, (s3 l).1]
  · rw [← h3 l n hn]; simp [readP, (s3 l).2.1]
  · exact ⟨(s3 l).2.2.1.trans (h4 l).1, (s3 l).2.2.2.2.trans (h4 l).2⟩

/-- A word of fixed latency that runs `result` delivers it. -/
theorem AluRow.delivers_of (r : AluRow) (he : ∀ w s, Sys2Proof.Machine.exec (r.con w) s = runAlu (r.form w) w (r.result w) s)
    (hv : ∀ w, (r.form w).varLat = none) (hp : ∀ w, plainDst (r.form w)) : r.delivers := by
  intro w s g hi hf
  obtain ⟨hu, _, hff⟩ := id hi
  have hf' : flagBlocked g (selectedFlag g w.head.fs) = false := hf
  obtain ⟨g1, hg1⟩ : ∃ g1, g1 = raiseFlags ((aluResults g (r.form w) w (r.result w)).1.foldl applyWrite
      (clearHazards g (aluWrites g (r.form w) w))) (aluResults g (r.form w) w (r.result w)).2 := ⟨_, rfl⟩
  obtain ⟨u1, u2, u3, u4⟩ := aluGo_unit (r.form w) w (r.result w) g (hp w) hff g1 _ hg1
  have hs := sameRegs_advance 1 g1
  have hunit : ((s.writeNow s.issuer (aluWrites g (r.form w) w) (aluResults g (r.form w) w (r.result w)).1).modUnit s.issuer
      fun x => raiseFlags x (aluResults g (r.form w) w (r.result w)).2).unitOf s.issuer = some g1 := by
    rw [State.unitOf_modUnit_same _ (State.unitOf_writeNow _ _ hu), hg1]
  have hgo : aluGo (r.form w) w (r.result w) s g = .next (((s.writeNow s.issuer (aluWrites g (r.form w) w)
      (aluResults g (r.form w) w (r.result w)).1).modUnit s.issuer
        fun x => raiseFlags x (aluResults g (r.form w) w (r.result w)).2).retire 1) := by
    simp [aluGo, hf', hv]
  refine ⟨_, advance 1 g1, (he w s).trans ((hi.run _).trans hgo), ?_, ⟨?_, ?_⟩, ?_, ?_, ?_, ?_⟩
  · rw [State.retire, State.unitOf_issued]
    simp only [State.modUnit_issuer, State.writeNow_issuer]
    exact State.unitOf_modUnit_same _ hunit
  · simp
  · intro i hne
    rw [State.unitOf_retire_other _ (by simpa using hne), State.unitOf_modUnit_other _ (by simpa using hne),
      State.unitOf_writeNow_other _ _ hne]
  · exact fun l hl hlen => holdsResult_same hs _ _ _ _ (u1 l hl hlen)
  · intro l hl
    rw [hs.2.2.1 l |>.2.2.2.1, u4 l hl, laneFlags_find]
  · exact keeps_same u2 hs
  · simp

theorem sameRegs_launched_keeps (g : Group) (ns : List RegName) (f : Option Nat) :
    g.keeps (launched g ns f) 0 (fun _ => []) ∧ ∀ l, (threadAt (launched g ns f) l).status = (threadAt g l).status := by
  cases f with
  | none => exact ⟨by simp [launched, Group.keeps], fun _ => rfl⟩
  | some f =>
    refine ⟨?_, fun _ => rfl⟩
    exact ⟨fun _ _ => rfl, fun _ _ _ => rfl, fun _ _ _ => rfl, fun _ => ⟨rfl, rfl⟩, rfl, rfl, rfl, rfl, rfl, rfl, rfl, rfl⟩

theorem flagCount_flagUp (g : Group) (n : Nat) :
    flagCount (flagUp g n) n = flagCount g n + if n < g.cf.length then 1 else 0 := by
  simp only [flagCount, flagUp, List.getD_eq_getElem?_getD, getElem?_modAt, if_true]
  by_cases h : n < g.cf.length
  · simp [h]
  · simp [h]

theorem hazardSet_setHazards (g : Group) (ns : List RegName) (f : Nat) (r : RegName) (h : r ∈ ns) :
    hazardSet (setHazards g ns f) r = true := by
  simp only [hazardSet, setHazards, List.any_append, List.any_map, Bool.or_eq_true, List.any_eq_true]
  exact .inl ⟨r, h, by simp⟩

/-- A word of variable latency that runs `result` is issued. -/
theorem AluRow.starts_of (r : AluRow) (k : OpKind)
    (he : ∀ w s, Sys2Proof.Machine.exec (r.con w) s = runAlu (r.form w) w (r.result w) s)
    (hv : ∀ w, (r.form w).varLat = some k) : r.starts k := by
  intro w s g n hi hf hn hm
  have hu := hi.1
  have hf' : flagBlocked g (selectedFlag g w.head.fs) = false := hf
  obtain ⟨o, ho⟩ : ∃ o, o = { Op.blank s.nextId s.issuer k (some n) with
    dests := destsOf (aluResults g (r.form w) w (r.result w)).1, writes := (aluResults g (r.form w) w (r.result w)).1,
    fstat := (aluResults g (r.form w) w (r.result w)).2 } := ⟨_, rfl⟩
  have hgo : aluGo (r.form w) w (r.result w) s g = .next ((s.launchOp (aluWrites g (r.form w) w) o).retire 1) := by
    rw [aluGo, hf', hv, hn, ho]
    simp only [Bool.false_eq_true, if_false]
    exact if_neg hm
  have hflag : o.flag = some n := by rw [ho]; rfl
  have hs := sameRegs_advance 1 (launched g (aluWrites g (r.form w) w) o.flag)
  obtain ⟨k1, k2⟩ := sameRegs_launched_keeps g (aluWrites g (r.form w) w) o.flag
  have hcf : (advance 1 (launched g (aluWrites g (r.form w) w) o.flag)).cf = (launched g (aluWrites g (r.form w) w) o.flag).cf :=
    hs.2.2.2.2.2.2.2.2.2.2.2.1
  have hhz : (advance 1 (launched g (aluWrites g (r.form w) w) o.flag)).hazards =
    (launched g (aluWrites g (r.form w) w) o.flag).hazards := hs.2.2.2.2.2.2.2.2.2.2.2.2
  refine ⟨_, advance 1 (launched g (aluWrites g (r.form w) w) o.flag), o, (he w s).trans ((hi.run _).trans hgo), ?_, ⟨?_, ?_⟩,
    ?_, ?_, ?_, hflag, ?_, ?_, ?_, ?_, ?_, ?_⟩
  · rw [State.retire, State.unitOf_issued]
    simp only [State.launchOp_issuer]
    exact State.unitOf_modUnit_same _ (State.unitOf_launchOp _ _ hu)
  · simp
  · intro i hne
    rw [State.unitOf_retire_other _ (by simpa using hne), State.unitOf_launchOp_other _ _ hne]
  · simp [State.ops_launchOp]
  · rw [ho]; rfl
  · rw [ho]; rfl
  · rw [ho]
  · rw [ho]
  · rw [flagCount, hcf, hflag]
    exact (flagCount_flagUp _ n).trans rfl
  · intro x hx
    rw [hazardSet, hhz, hflag]
    exact hazardSet_setHazards g _ n x hx
  · exact keeps_same k1 hs
  · intro l
    rw [(hs.2.2.1 l).2.2.2.1, k2]

end Sys2Proof.Machine
end

