-- ==== Sys2Proof/Laws/Memory.lean ====
section
/-!
SUPPORT. The canonical form of the two memories: the state after reset has it, and what an operation stores keeps it.
-/
namespace Sys2Proof.Machine

theorem State.reset_memoriesCanonical : State.reset.memoriesCanonical = true := by decide

/-- Writes made one after another keep the canonical form when each of them does. -/
theorem Memory.wf_foldl {β : Type} {f : List Host.Cell → β → List Host.Cell} (hf : ∀ m b, Memory.wf m = true → Memory.wf (f m b) = true)
    (bs : List β) (m : List Host.Cell) (h : Memory.wf m = true) : Memory.wf (bs.foldl f m) = true := by
  induction bs generalizing m with
  | nil => exact h
  | cons b bs ih => exact ih _ (hf _ _ h)

/-- The bytes a line's write-back and its eviction store (R337). -/
theorem writeBack_mem_wf (s : State) (l : Line) (h : Memory.wf s.mem = true) : Memory.wf (s.writeBack l).mem = true := by
  unfold State.writeBack
  split
  · exact h
  · exact putBytes_wf _ _ _ h
theorem evict_mem_wf (s : State) (l : Line) (h : Memory.wf s.mem = true) : Memory.wf (s.evict l).mem = true :=
  writeBack_mem_wf s l h

/-- The bytes an undo log puts back (R427). -/
theorem restoreUndo_wf (m : List Host.Cell) (rs : List UndoRec) (h : Memory.wf m = true) : Memory.wf (restoreUndo m rs) = true :=
  Memory.wf_foldl (fun _ _ hm => putBytes_wf _ _ _ hm) _ _ h
theorem restoreLines_mem_wf (s : State) (cs : List Nat) (h : Memory.wf s.mem = true) : Memory.wf (s.restoreLines cs).mem = true :=
  Memory.wf_foldl (fun _ _ hm => restoreUndo_wf _ _ hm) _ _ h

/-- Room made in a slice, and a line changed there (R334, R337, R411). -/
theorem makeRoom_mem_wf (s : State) (a : Nat) (c : Bool) (h : Memory.wf s.mem = true) : Memory.wf (s.makeRoom a c).mem = true := by
  unfold State.makeRoom
  simp only []
  split
  · exact h
  · split
    · exact h
    · exact evict_mem_wf s _ h
theorem fitEntries_mem_wf (a n : Nat) (s : State) (h : Memory.wf s.mem = true) : Memory.wf (s.fitEntries a n).mem = true := by
  induction n generalizing s with
  | zero => exact h
  | succ n ih =>
    unfold State.fitEntries
    split
    · exact h
    · split
      · exact h
      · exact ih _ (evict_mem_wf s _ h)
theorem modLine_mem_wf (s : State) (a key : Nat) (c : Bool) (f : Line → Line) (h : Memory.wf s.mem = true) :
    Memory.wf (s.modLine a key c f).mem = true := by
  have h0 : Memory.wf (match s.line? a with
      | some l => if l.key = 513 && key ≠ 513 then s.evict l else s
      | none => s).mem = true := by
    split
    · split
      · exact evict_mem_wf s _ h
      · exact h
    · exact h
  unfold State.modLine
  apply fitEntries_mem_wf
  dsimp only
  split
  · exact h0
  · exact makeRoom_mem_wf _ a c h0

/-- Bytes written beyond the endpoint (R458). -/
theorem hostWrite_hostMem_wf (s : State) (pa : Nat) (bs : List Byte) (h : Memory.wf s.hostMem = true) : Memory.wf (s.hostWrite pa bs).hostMem = true :=
  putBytes_wf _ _ _ h

end Sys2Proof.Machine
end

