-- ==== Sys2Proof/Laws/Slots.lean ====
section
/-!
SUPPORT. What the issue slots and the active and pending sets can change: seats, counts and precedence of groups, and the
slots' places in their round-robin; nothing else of the part.
-/
namespace Sys2Proof.Machine

/-! ### Seats -/

/-- Two parts that differ at most in their teams. -/
def State.teamsOnly (s t : State) : Prop := { t with teams := s.teams } = s

theorem State.teamsOnly_refl (s : State) : s.teamsOnly s := rfl
theorem State.teamsOnly_trans {s t u : State} (h : s.teamsOnly t) (k : t.teamsOnly u) : s.teamsOnly u := by
  unfold State.teamsOnly at *
  rw [← h, ← k]
theorem State.teamsOnly_foldl {α : Type} (l : List α) (f : State → α → State) (h : ∀ (s : State) x, s.teamsOnly (f s x)) (s : State) :
    s.teamsOnly (l.foldl f s) := by
  induction l generalizing s with
  | nil => rfl
  | cons a l ih => exact State.teamsOnly_trans (h s a) (ih (f s a))

theorem State.setSeat_teamsOnly (s : State) (p : Nat × Nat) (x : Seat) : s.teamsOnly (s.setSeat p x) := rfl
theorem State.exchange_teamsOnly (s : State) (p q : Nat × Nat) : s.teamsOnly (s.exchange p q) := rfl
theorem State.seatNew_teamsOnly (s : State) (core part : Nat) : s.teamsOnly (s.seatNew core part) :=
  State.teamsOnly_foldl _ _ (fun s x => by split <;> rfl) s
theorem State.seatMoves_teamsOnly (s : State) (core part : Nat) : s.teamsOnly (s.seatMoves core part) := by
  unfold State.seatMoves
  split
  · rfl
  · exact State.teamsOnly_foldl _ _ (fun s x => by split <;> [(split <;> [rfl; (split <;> rfl); rfl]); rfl]) s
theorem State.seatFree_teamsOnly (n : Nat) (s : State) (core part : Nat) : s.teamsOnly (s.seatFree n core part) := by
  induction n generalizing s with
  | zero => rfl
  | succ n ih =>
    unfold State.seatFree
    split
    · rfl
    · split
      · exact State.teamsOnly_trans (State.setSeat_teamsOnly s _ _) (ih _)
      · exact State.teamsOnly_trans (State.setSeat_teamsOnly s _ _) (ih _)
      · rfl
theorem State.seatPart_teamsOnly (s : State) (core part : Nat) : s.teamsOnly (s.seatPart core part) :=
  State.teamsOnly_trans (State.teamsOnly_trans (s.seatNew_teamsOnly core part) (State.seatMoves_teamsOnly _ core part)) (State.seatFree_teamsOnly 8 _ core part)
/-- Settling the seats of every core changes groups alone. -/
theorem State.seatAll_teamsOnly (s : State) : s.teamsOnly s.seatAll := by
  unfold State.seatAll
  exact State.teamsOnly_foldl s.unsettled (fun s p => s.seatPart p.1 p.2) (fun s p => s.seatPart_teamsOnly p.1 p.2) s

/-! ### Slots -/

/-- A slot that serves a group changes groups and the slots' places alone. -/
theorem State.serve_rest (s b : State) (t g : Nat) : { s.serve b t g with teams := s.teams, slots := s.slots } = s := by
  unfold State.serve State.slotTake
  split
  · dsimp only; split <;> rfl
  · rfl
theorem State.yieldPlace_rest (s : State) (i : Issuer) : { s.yieldPlace i with teams := s.teams, slots := s.slots } = s := by
  unfold State.yieldPlace State.giveUpV
  split
  · split
    · dsimp only
      split <;> simp_all [State.slotTake, State.exchange, State.setSeat, State.modGroup, State.modTeam]
    · rfl
  · rfl

end Sys2Proof.Machine
end

