-- ==== Sys2Proof/Laws/Transfer.lean ====
section
/-!
SUPPORT. What an operation's next move can do: it waits, performs one move, or, with nothing left, does what follows.
-/
namespace Sys2Proof.Machine

/-- Everything an awaited move can answer: it waits, starts the fills that it needs, or goes on. -/
theorem State.await_cases {s t : State} {o : Op} {m : Move} {go : Out} (h : s.await o m go = .next t) :
    (s.moveHeld o m = true ∧ t = s) ∨
    (s.moveHeld o m = false ∧ s.moveFills o m ≠ [] ∧ t = s.startFills (s.ctxOf o.issuer) (s.moveFills o m)) ∨
    (s.moveHeld o m = false ∧ s.moveFills o m = [] ∧ go = .next t) := by
  unfold State.await at h
  split at h
  · exact .inl ⟨‹_›, (Host.Outcome.next.inj h).symm⟩
  · rename_i c
    have c' : s.moveHeld o m = false := by simpa using c
    split at h
    · exact .inr (.inr ⟨c', ‹_›, h⟩)
    · exact .inr (.inl ⟨c', ‹_›, (Host.Outcome.next.inj h).symm⟩)

/-- A move that waits for nothing goes on. -/
theorem State.await_go {s : State} {o : Op} {m : Move} {go : Out} (h : s.moveHeld o m = false) (f : s.moveFills o m = []) :
    s.await o m go = go := by simp [State.await, h, f]

/-- Everything a turn of a transfer can answer. -/
theorem State.progress_cases {s t : State} {o : Op} {done : Op → Out} (h : s.progress o done = .next t) :
    (o.todo = [] ∧ done o = .next t) ∨ ∃ m rest, o.todo = m :: rest ∧
      ((s.moveHeld o m = true ∧ t = s) ∨
       (s.moveHeld o m = false ∧ s.moveFills o m ≠ [] ∧ t = s.startFills (s.ctxOf o.issuer) (s.moveFills o m)) ∨
       (s.moveHeld o m = false ∧ s.moveFills o m = [] ∧
        t = (s.modOp o fun p => { p with todo := rest }).perform o m)) := by
  unfold State.progress at h
  split at h
  · exact .inl ⟨‹_›, h⟩
  · rename_i m rest e
    refine .inr ⟨m, rest, e, ?_⟩
    rcases State.await_cases h with x | x | ⟨a, b, x⟩
    · exact .inl x
    · exact .inr (.inl x)
    · exact .inr (.inr ⟨a, b, (Host.Outcome.next.inj x).symm⟩)

/-- An operation with moves left never stops: it waits or performs the first of them. -/
theorem State.progress_next {s : State} {o : Op} {done : Op → Out} (h : o.todo ≠ []) : ∃ t, s.progress o done = .next t := by
  unfold State.progress
  split
  · exact absurd ‹_› h
  · unfold State.await; split
    · exact ⟨_, rfl⟩
    · split <;> exact ⟨_, rfl⟩

@[simp] theorem State.perform_pause (s : State) (o : Op) : s.perform o .pause = s := rfl
@[simp] theorem State.modOp_teams (s : State) (o : Op) (f : Op → Op) : (s.modOp o f).teams = s.teams := rfl
@[simp] theorem State.modOp_mem (s : State) (o : Op) (f : Op → Op) : (s.modOp o f).mem = s.mem := rfl
@[simp] theorem State.modOp_lines (s : State) (o : Op) (f : Op → Op) : (s.modOp o f).lines = s.lines := rfl
@[simp] theorem State.modOp_reqs (s : State) (o : Op) (f : Op → Op) : (s.modOp o f).reqs = s.reqs := rfl
/-- A move that loads a register changes its operation alone. -/
theorem State.perform_padRead_rest (s : State) (o : Op) (a : Nat) (d : LoadDest) :
    { s.perform o (.padRead a d) with ops := s.ops } = s := rfl

end Sys2Proof.Machine
end

