-- ==== Sys2Proof/Tests/Slice0.lean ====
section
/-!
SUPPORT. Tests: words of the manual decode, ill-formed terms are refused, values of the manual come out, and states that meet
the statements' premises, a premise on a part's fuses or on a value the manual leaves open being a premise here too.
-/
namespace Sys2Proof.Machine

/-! ### States that meet premises -/

/-- A clause of fifteen words at its first word, with FLAGA cf0 and FLAGB cf1, issued by some lanes. -/
def sampleClause (lanes : BitVec 32) : Clause := ⟨0, 0, 0, 1, 15, false, 1, lanes, false⟩

/-- A group of 32 threads inside a clause. -/
def sampleGroup (r : Role) : Group := { Group.start r 256 0 32 with clause := some (sampleClause (BitVec.allOnes 32)) }

/-- A part with one team of these groups, resident on core 0 under page tables that map the first GiB; group 0 issues. -/
def sampleWorld (gs : List Group) : State :=
  let s := State.reset.placed (decodeWord 0 ⟨0, 0, 0, 0⟩) [0, 0, 0, 0, 0]
  { s with teams := s.teams.map fun t => { t with groups := gs }, issuer := .group 0 0, sched := [] }
def sample (r : Role) : State := sampleWorld [sampleGroup r]

/-- No guard; the first flag selected. -/
def bareHead : Head := ⟨0, 0, 0, 0⟩
def flagHead : Head := ⟨0, 0, 0, 1⟩
def guardHead : Head := ⟨1, 0, 3, 0⟩

theorem issues_of {s : State} {h : Head} {check : Group → WordCheck} {g : Group} (hu : s.unitOf s.issuer = some g)
    (hg : (!gatheredNow g && (firstFault g h (check g)).isNone && !flagBlocked g (selectedFlag g h.fs)) = true) :
    s.issues h check g ∧ flagFree g h := by
  simp only [Bool.and_eq_true, Bool.not_eq_true', Option.isNone_iff_eq_none] at hg
  exact ⟨⟨hu, hg.1.1, hg.1.2⟩, hg.2⟩

/-! ### Rows of the ALU tables -/

/-- A specifier that a form takes, for a destination and for a source. -/
def destSpec : DstForm → Spec
  | .none => specZero | .pred => 0x141 | .kOnly => 0x102 | .xreg => 1 | .pred0 => 0x140 | .reg | .wide | .vOnly => 0x010
def sourceSpec (n : Nat) : SrcForm → Spec
  | .none => specZero | .raw => 0 | .pred => 0x142 | .mask | .kOnly => 0x100 | .any | .wide | .vrel => BitVec.ofNat 10 n

/-- A word of a row with its operands in registers, or an immediate where the form asks for one. -/
def rowWord (r : AluRow) (opc : Spec) (imm : Bool) : AluW :=
  let head := if (r.form ⟨bareHead, 0, 0, 0, 0, 0⟩).varLat.isSome then flagHead else bareHead
  let f := r.form ⟨head, specZero, specZero, specZero, opc, 0⟩
  ⟨head, destSpec f.dst, sourceSpec 2 f.a, if imm then specImm else sourceSpec 4 f.b,
    if imm || (match f.c with | .raw => true | _ => false) then opc else sourceSpec 6 f.c, 0⟩

/-- Whether one of a few words of a row issues in a group of vector role. -/
def rowIssues (r : AluRow) : Bool :=
  let g := sampleGroup .vector
  [rowWord r 0 false, rowWord r 0 true, rowWord r 0x150 false, rowWord r 0x001 false].any fun w =>
    !gatheredNow g && (firstFault g w.head (aluCheck (r.form w) w g)).isNone && !flagBlocked g (selectedFlag g w.head.fs)

theorem row_witness {r : AluRow} (h : rowIssues r = true) :
    ∃ w g, (sample .vector).issues w.head (aluCheck (r.form w) w) g ∧ flagFree g w.head := by
  obtain ⟨w, _, hw⟩ := List.any_eq_true.1 h
  exact ⟨w, sampleGroup .vector, issues_of rfl hw⟩
theorem rows_witness {rs : List AluRow} (h : rs.all rowIssues = true) :
    ∀ r ∈ rs, ∃ w g, (sample .vector).issues w.head (aluCheck (r.form w) w) g ∧ flagFree g w.head :=
  fun r hr => row_witness (List.all_eq_true.1 h r hr)

/-! ### A handler -/

/-- A group that SWTRAP has stopped, and the control processor's thread that handles it, in a clause of one word. -/
def parkedGroup : Group := { Group.start .vector 64 0 32 with run := .parked, ssw0 := 0x10B }
def handlerCpu : Group := { handlerStart 0 7 parkedGroup with clause := some ⟨0, 0, 0, 1, 1, false, 1, 1, false⟩ }
def stopHandler : Handler := ⟨⟨0, 0, 0x0B⟩, 7, handlerCpu, [placedHeader 1, placedExit, placedHeader 1, placedExit], 0⟩
def handling : State :=
  { (sampleWorld [parkedGroup]).modCluster 0 (fun c => { c with handler := some stopHandler }) with issuer := .handler 0 }
/-- The first team of a part that has one. -/
def worldTeam (s : State) (h : (s.teams[0]?).isSome) : Team := (s.teams[0]?).get h

theorem witness_moveSum : moveSumRows.all rowIssues = true := by decide +kernel
theorem witness_logic : logicRows.all rowIssues = true := by decide +kernel
theorem witness_bits : bitRows.all rowIssues = true := by decide +kernel
theorem witness_compare : compareRows.all rowIssues = true := by decide +kernel
theorem witness_floats : floatRows.all rowIssues = true := by decide +kernel
theorem witness_packed : packedRows.all rowIssues = true := by decide +kernel
theorem witness_convert : convertRows.all rowIssues = true := by decide +kernel

/-- Every row that delivers has a word, a state and a unit that meet its premises. -/
theorem witness_delivers : ∀ r ∈ moveSumRows ++ logicRows ++ bitRows ++ compareRows ++ floatRows ++ packedRows ++ convertRows,
    ∃ w g, (sample .vector).issues w.head (aluCheck (r.form w) w) g ∧ flagFree g w.head := by
  intro r hr
  have h : (moveSumRows ++ logicRows ++ bitRows ++ compareRows ++ floatRows ++ packedRows ++ convertRows).all rowIssues = true := by
    simp only [List.all_append, witness_moveSum, witness_logic, witness_bits, witness_compare, witness_floats, witness_packed,
      witness_convert, Bool.and_self]
  exact rows_witness h r hr

/-- A row of variable latency issues with a flag and a guard-true lane. -/
def rowStarts (r : AluRow) : Bool :=
  let g := sampleGroup .vector
  let w := rowWord r 0x150 false
  !gatheredNow g && (firstFault g w.head (aluCheck (r.form w) w g)).isNone && !flagBlocked g (selectedFlag g w.head.fs) &&
    decide (selectedFlag g w.head.fs = some 0) && decide (guardMask g w.head ≠ 0)

theorem witness_starts : ∀ r ∈ divisionRows ++ longRows, ∃ w g, ((sample .vector).issues w.head (aluCheck (r.form w) w) g ∧
    flagFree g w.head) ∧ selectedFlag g w.head.fs = some 0 ∧ guardMask g w.head ≠ 0 := by
  intro r hr
  have h : (divisionRows ++ longRows).all rowStarts = true := by decide +kernel
  have h := List.all_eq_true.1 h r hr
  simp only [rowStarts, Bool.and_eq_true, decide_eq_true_eq] at h
  exact ⟨rowWord r 0x150 false, sampleGroup .vector, issues_of rfl (by simp only [Bool.and_eq_true]; exact ⟨⟨h.1.1.1.1, h.1.1.1.2⟩, h.1.1.2⟩), h.1.2, h.2⟩

/-- A word of every row with a flag where the row takes none, or without one where it needs one, fails a check. -/
def rowStops (r : AluRow) : Bool :=
  let g := sampleGroup .vector
  let w := { rowWord r 0x150 false with mod := 63, dst := 0x3FF, opa := 0x3FF }
  (firstFault g w.head (aluCheck (r.form w) w g)).isSome

theorem witness_stops : ∀ r ∈ moveSumRows ++ logicRows ++ bitRows ++ compareRows ++ floatRows ++ packedRows ++ convertRows ++
    divisionRows ++ longRows, ∃ w tm cause detail mask,
    let s := sample .vector
    let g := sampleGroup .vector
    s.issuer = .group 0 0 ∧ s.teams[0]? = some tm ∧ s.unitOf s.issuer = some g ∧
    g.clause = some (sampleClause (BitVec.allOnes 32)) ∧ (sampleClause (BitVec.allOnes 32)).gathered = false ∧
    firstFault g w.head (aluCheck (r.form w) w g) = some (cause, detail, mask) := by
  intro r hr
  have h : (moveSumRows ++ logicRows ++ bitRows ++ compareRows ++ floatRows ++ packedRows ++ convertRows ++ divisionRows ++
      longRows).all rowStops = true := by decide +kernel
  obtain ⟨⟨c, d, m⟩, e⟩ := Option.isSome_iff_exists.1 (List.all_eq_true.1 h r hr)
  exact ⟨_, _, c, d, m, rfl, rfl, rfl, rfl, rfl, e⟩

/-! ### Predicates, index registers, special registers, pairs and blocks -/

def aluOf (h : Head) (dst opa opb opc : Spec) (mod : BitVec 6) : AluW := ⟨h, dst, opa, opb, opc, mod⟩

theorem witness_pmov (m : Fin 3) : ∃ w, ((sample .vector).issues w.head (aluCheck (formPmov w) w) (sampleGroup .vector) ∧
    flagFree (sampleGroup .vector) w.head) ∧ isImm w = false ∧ w.mod.toNat = m := by
  refine ⟨aluOf bareHead (if m = 2 then 0x140 else 0x143) 2 (if m = 1 then 5 else specZero) specZero (BitVec.ofNat 6 m), ?_⟩
  fin_cases m <;> exact ⟨issues_of rfl (by decide +kernel), by decide +kernel⟩

theorem witness_indexes : ∃ w, ((sample .vector).issues w.head (aluCheck formX w) (sampleGroup .vector) ∧
    flagFree (sampleGroup .vector) w.head) :=
  ⟨aluOf bareHead 3 specZero 2 specZero 0, issues_of rfl (by decide +kernel)⟩

theorem statusSettled_of {s : State} (reg : Spec) (h : s.ops = []) : statusSettled s reg := by simp [statusSettled, h]

/-- The special registers 0 and 0x14 are the first and the last that SREAD reads. -/
theorem witness_sread (n : Fin 2) : ∃ w tm la, (sample .vector).issuer = .group 0 0 ∧ (sample .vector).teams[0]? = some tm ∧
    (sample .vector).launches[tm.launch]? = some la ∧
    ((sample .vector).issues w.head (sreadCheck w) (sampleGroup .vector) ∧ flagFree (sampleGroup .vector) w.head) ∧
    statusSettled (sample .vector) w.opa ∧ w.opa = (if n = 0 then 0 else 0x14) := by
  refine ⟨aluOf bareHead 0x010 (if n = 0 then 0 else 0x14) specZero specZero 0, _, _, rfl, rfl, rfl, ?_, statusSettled_of _ rfl, rfl⟩
  fin_cases n <;> exact issues_of rfl (by decide +kernel)

theorem witness_swr (status : Bool) : ∃ w, ((sample .vector).issues w.head (aluCheck (formSwr w) w) (sampleGroup .vector) ∧
    flagFree (sampleGroup .vector) w.head) ∧ statusSettled (sample .vector) w.opa ∧ w.opa = if status then 0x013 else 0x012 := by
  refine ⟨aluOf bareHead specZero (if status then 0x013 else 0x012) specImm 5 0, ?_, statusSettled_of _ rfl, rfl⟩
  cases status <;> exact issues_of rfl (by decide +kernel)

theorem witness_kread : ∃ w, ((sample .vector).issues w.head (aluCheck (formKread w) w) (sampleGroup .vector) ∧
    flagFree (sampleGroup .vector) w.head) :=
  ⟨aluOf bareHead 0x104 2 0x101 specZero 0, issues_of rfl (by decide +kernel)⟩

theorem witness_pair : ∃ u d, (sample .vector).issues pairHead (pairCheck u d) (sampleGroup .vector) ∧
    flagFree (sampleGroup .vector) pairHead :=
  ⟨⟨1, 0, 3, 4, 0, 0, 0, 0⟩, ⟨16, 0, 4, 3, 0, 0, 0, 0⟩, issues_of rfl (by decide +kernel)⟩

theorem witness_blocks : ∃ w, ((sample .vector).issues w.head (aluCheck formQnt w) (sampleGroup .vector) ∧
    flagFree (sampleGroup .vector) w.head) ∧ selectedFlag (sampleGroup .vector) w.head.fs = some 0 ∧
    guardMask (sampleGroup .vector) w.head ≠ 0 ∧
    (sample .vector).issues w.head (aluCheck formDqnt w) (sampleGroup .vector) := by
  refine ⟨aluOf flagHead 0x020 2 specZero specZero 0, issues_of rfl (by decide +kernel), by decide +kernel, by decide +kernel,
    (issues_of rfl (by decide +kernel)).1⟩

/-! ### Control transfers and cross-lane words -/

/-- A group in a clause of one word, which therefore may branch, under a program of two clauses. -/
def branchGroup : Group := { Group.start .vector 256 0 32 with clause := some ⟨0, 0, 0, 1, 1, false, 1, BitVec.allOnes 32, false⟩ }
def branchWorld (g : Group) : State :=
  let s := sampleWorld [g]
  { s with launches := s.launches.map fun l => { l with code := [placedHeader 1, placedExit, placedHeader 1, placedExit] } }
def branch : State := branchWorld branchGroup

theorem witness_bra : ∃ w : BraW, (branch.issues w.head (braCheck branch w) branchGroup ∧ flagFree branchGroup w.head) ∧
    ∀ n ∈ braTargets w branchGroup, branch.targetVerdict n = none :=
  ⟨⟨guardHead, 1, 1, 0⟩, issues_of rfl (by decide +kernel), by decide +kernel⟩

theorem lanes_all {g : Group} {p : Nat → Prop} {m : BitVec 32} (h : ∀ l : Fin 32, m.getLsbD l = true → p l) :
    ∀ l, m.getLsbD l = true → p l := fun l hl =>
  if hh : l < 32 then h ⟨l, hh⟩ hl else by simp [BitVec.getLsbD_of_ge _ _ (Nat.le_of_not_lt hh)] at hl

theorem witness_brx : ∃ w : BrxW, (branch.issues w.head (brxCheck branch w) branchGroup ∧ flagFree branchGroup w.head) ∧
    (∀ l, (guardMask branchGroup w.head).getLsbD l = true → branch.targetVerdict (readOpd branchGroup l w.a 0).toNat = none) ∧
    (w.join ≠ 0 → branch.targetVerdict (1 + w.join.toInt) = none) :=
  ⟨⟨bareHead, 0, 3, 0, 1, 0⟩, issues_of rfl (by decide +kernel), lanes_all (g := branchGroup) (by decide +kernel), by decide +kernel⟩

theorem witness_join : ∃ w : BareW, branch.issues w.head (bareCheck w) branchGroup ∧ flagFree branchGroup w.head :=
  ⟨⟨bareHead, 0, 0⟩, issues_of rfl (by decide +kernel)⟩

theorem witness_call : ∃ w : BraW, (branch.issues w.head (callCheck branch w) branchGroup ∧ flagFree branchGroup w.head) ∧
    branch.targetVerdict (1 + w.tgt.toInt) = none ∧ (branchGroup.role = .control → callDepth branchGroup (threadAt branchGroup 0) < 1024) :=
  ⟨⟨bareHead, 1, 0, 0⟩, issues_of rfl (by decide +kernel), by decide +kernel, by decide +kernel⟩

theorem witness_brc : ∃ w : BraW, (branch.issues w.head (brcCheck branch w) branchGroup ∧ flagFree branchGroup w.head) ∧
    branch.targetVerdict (1 + w.tgt.toInt) = none ∧ guardMask branchGroup w.head ≠ 0 :=
  ⟨⟨bareHead, 1, 0, 3⟩, issues_of rfl (by decide +kernel), by decide +kernel, by decide +kernel⟩

/-- A guarded BRC of a handler: its one thread has p3 false. -/
theorem witness_brc_false : ∃ w : BraW, (handling.issues w.head (brcCheck handling w) handlerCpu ∧ flagFree handlerCpu w.head) ∧
    handling.targetVerdict (1 + w.tgt.toInt) = none ∧ guardMask handlerCpu w.head = 0 :=
  ⟨⟨guardHead, 1, 0, 3⟩, issues_of rfl (by decide +kernel), by decide +kernel, by decide +kernel⟩

theorem witness_formation : ∃ w : BareW, branch.issues w.head (bareCheck w) branchGroup ∧ flagFree branchGroup w.head :=
  ⟨⟨bareHead, 0, 0⟩, issues_of rfl (by decide +kernel)⟩

/-- No thread of a started group waits at a cross-lane word. -/
theorem none_held {g : Group} (h : (g.threads.all fun t => t.held.isNone) = true) : ∀ l, (threadAt g l).held = none := by
  intro l
  rcases hl : g.threads[l]? with _ | t
  · simp [threadAt, List.getD_eq_getElem?_getD, hl, Thread.zero]
  · simpa [threadAt, List.getD_eq_getElem?_getD, hl] using List.all_eq_true.1 h t (List.mem_of_getElem? hl)

theorem crossReady_of {w : AluW} {g : Group} {c : Clause} (hc : g.clause = some c) (h : c.gathered = false)
    (hh : (g.threads.all fun t => t.held.isNone) = true) (h0 : namedLanes g (crossMask w g) ≠ 0)
    (h1 : ∀ l : Fin 32, (namedLanes g (crossMask w g)).getLsbD l = true → c.lanes.getLsbD l = true ∧ l < g.threads.length) :
    crossReady w g c := ⟨hc, h, none_held hh, h0, lanes_all (g := g) h1⟩

/-- VOTE, ELECT, SHFL, REDUX and SCAN in a group of 32 threads. -/
theorem witness_cross (n : Fin 5) : ∃ r w, crossRows[n]? = some r ∧ ((sample .vector).issues w.head (aluCheck (r.form w) w)
    (sampleGroup .vector) ∧ flagFree (sampleGroup .vector) w.head) ∧ crossReady w (sampleGroup .vector) (sampleClause (BitVec.allOnes 32)) := by
  let w : AluW := [aluOf bareHead 0x143 0x142 specZero specZero 0, aluOf bareHead 0x143 specZero specZero specZero 0,
    aluOf bareHead 0x010 2 4 specZero 0, aluOf bareHead 0x010 2 specZero specZero 0].getD n (aluOf bareHead 0x010 2 specZero specZero 0)
  refine ⟨crossRows[n], w, List.getElem?_eq_getElem _, ?_, ?_⟩
  · fin_cases n <;> exact issues_of rfl (by decide +kernel)
  · fin_cases n <;> exact crossReady_of rfl rfl (by decide +kernel) (by decide +kernel) (by decide +kernel)

theorem witness_match : ∃ w, ((sample .vector).issues w.head (matchCheck w) (sampleGroup .vector) ∧
    flagFree (sampleGroup .vector) w.head) ∧ crossReady w (sampleGroup .vector) (sampleClause (BitVec.allOnes 32)) :=
  ⟨aluOf bareHead 0x143 2 0x020 specZero 1, issues_of rfl (by decide +kernel),
    crossReady_of rfl rfl (by decide +kernel) (by decide +kernel) (by decide +kernel)⟩

theorem witness_gsync : ∃ w, ((sample .vector).issues w.head (aluCheck formGsync w) (sampleGroup .vector) ∧
    flagFree (sampleGroup .vector) w.head) ∧ crossReady w (sampleGroup .vector) (sampleClause (BitVec.allOnes 32)) ∧
    (sample .vector).fenceHolds 3 0 = false :=
  ⟨aluOf bareHead specZero specZero specZero specZero 0, issues_of rfl (by decide +kernel),
    crossReady_of rfl rfl (by decide +kernel) (by decide +kernel) (by decide +kernel), by decide +kernel⟩

/-! ### Loads, stores, atomics, fences, tile copies, maintenance, FIFO banks -/

theorem memFree_of {s : State} {g : Group} {h : Head} {sem scope : Nat}
    (e : (!flagBlocked g (selectedFlag g h.fs) && !s.acquiring s.issuer && (!semRel sem || s.released s.issuer scope)) = true) :
    memFree s g h sem scope := by
  simp only [Bool.and_eq_true, Bool.not_eq_true', Bool.or_eq_true] at e
  exact ⟨e.1.1, e.1.2, fun hs => by simpa [hs] using e.2⟩

theorem banksStill_of {s : State} (h : s.ops = []) : banksStill s := by simp [banksStill, h]

/-- A memory word on v2 (or v2:v3) with data in v16 and what follows it, of a size, an order and a scope. -/
def memOf (sz : BitVec 3) (sem : BitVec 2) (scope : BitVec 3) (sub : BitVec 3) : MemW :=
  { head := flagHead, d := 0x010, a := 2, off := 0, sz := sz, sx := 0, sem := sem, scope := scope, f := 0, q := 0, sub := sub }

/-- Words of the narrowest and the widest size. -/
def sizes (n : Fin 2) : BitVec 3 := if n = 0 then 0 else 4

theorem witness_ld (n : Fin 2) :
    let w := memOf (sizes n) 0 0 0
    let s := sample .vector
    let g := sampleGroup .vector
    selectedFlag g w.head.fs = some 0 ∧ guardMask g w.head ≠ 0 ∧ memFree s g w.head w.sem.toNat w.scope.toNat ∧
    s.issues w.head (memCheck ruleLd allRoles true false w) g ∧
    s.judgeLanes (judgedAddrs s g w.head .global needR true w.a w.off (2 ^ w.sz.toNat)) 0 (2 ^ w.sz.toNat) = none := by
  fin_cases n <;> exact ⟨by decide +kernel, by decide +kernel, memFree_of (by decide +kernel), (issues_of rfl (by decide +kernel)).1, by decide +kernel⟩

/-- A launch with a segment of its own of 64 bytes a thread and a constant segment of 64 bytes. -/
def constWorld : State :=
  let s := sample .vector
  { s with launches := s.launches.map fun (l : Launch) =>
    { l with slot := { l.slot with low := { l.slot.low with w5 := 0x40000, w6 := 64 } }, const := List.replicate 64 7 } }

theorem witness_ldx (n : Fin 2) :
    let w := memOf (sizes n) 0 0 0
    let s := constWorld
    let g := sampleGroup .vector
    selectedFlag g w.head.fs = some 0 ∧ guardMask g w.head ≠ 0 ∧ memFree s g w.head w.sem.toNat w.scope.toNat ∧
    s.issues w.head (memCheck ruleLdc [.vector] false false w) g ∧
    s.judgeLanes (judgedAddrs s g w.head .priv needR false w.a w.off (2 ^ w.sz.toNat)) 0 (2 ^ w.sz.toNat) = none := by
  fin_cases n <;> exact ⟨by decide +kernel, by decide +kernel, memFree_of (by decide +kernel), (issues_of rfl (by decide +kernel)).1, by decide +kernel⟩

theorem witness_lds (n : Fin 2) :
    let w := memOf (sizes n) 0 0 0
    let s := sample .vector
    let g := sampleGroup .vector
    selectedFlag g w.head.fs = some 0 ∧ guardMask g w.head ≠ 0 ∧ memFree s g w.head w.sem.toNat w.scope.toNat ∧ banksStill s ∧
    (s.teams[s.viewTeam s.issuer]?).isSome ∧ s.issues w.head (memCheck ruleLds [.vector] false false w) g ∧
    s.judgeLanes (judgedAddrs s g w.head .scratch needR false w.a w.off (2 ^ w.sz.toNat)) 0 (2 ^ w.sz.toNat) = none := by
  fin_cases n <;> exact ⟨by decide +kernel, by decide +kernel, memFree_of (by decide +kernel), banksStill_of rfl, rfl,
    (issues_of rfl (by decide +kernel)).1, by decide +kernel⟩

theorem witness_ldc (n : Fin 2) :
    let w := memOf (sizes n) 0 0 0
    let s := constWorld
    let g := sampleGroup .vector
    selectedFlag g w.head.fs = some 0 ∧ guardMask g w.head ≠ 0 ∧ memFree s g w.head w.sem.toNat w.scope.toNat ∧ banksStill s ∧
    (s.teams[s.viewTeam s.issuer]?).isSome ∧ s.issues w.head (memCheck ruleLdc groupRoles false false w) g ∧
    s.judgeLanes (judgedAddrs s g w.head .const needR false w.a w.off (2 ^ w.sz.toNat)) 0 (2 ^ w.sz.toNat) = none := by
  fin_cases n <;> exact ⟨by decide +kernel, by decide +kernel, memFree_of (by decide +kernel), banksStill_of rfl, rfl,
    (issues_of rfl (by decide +kernel)).1, by decide +kernel⟩

theorem witness_st (tagged : Bool) :
    let w := { memOf (if tagged then 3 else 4) 0 0 0 with q := if tagged then 1 else 0 }
    let s := sample .vector
    let g := sampleGroup .vector
    selectedFlag g w.head.fs = some 0 ∧ guardMask g w.head ≠ 0 ∧ memFree s g w.head w.sem.toNat w.scope.toNat ∧
    s.issues w.head (memCheck ruleSt allRoles true true w) g ∧
    s.judgeLanes (judgedAddrs s g w.head .global needW true w.a w.off (2 ^ w.sz.toNat)) 1 (2 ^ w.sz.toNat) = none := by
  cases tagged <;> exact ⟨by decide +kernel, by decide +kernel, memFree_of (by decide +kernel), (issues_of rfl (by decide +kernel)).1, by decide +kernel⟩

theorem witness_stx (n : Fin 2) :
    let w := memOf (sizes n) 0 0 0
    let s := constWorld
    let g := sampleGroup .vector
    selectedFlag g w.head.fs = some 0 ∧ guardMask g w.head ≠ 0 ∧ memFree s g w.head w.sem.toNat w.scope.toNat ∧
    s.issues w.head (memCheck ruleStx [.vector] false true w) g ∧
    s.judgeLanes (judgedAddrs s g w.head .priv needW false w.a w.off (2 ^ w.sz.toNat)) 1 (2 ^ w.sz.toNat) = none := by
  fin_cases n <;> exact ⟨by decide +kernel, by decide +kernel, memFree_of (by decide +kernel), (issues_of rfl (by decide +kernel)).1, by decide +kernel⟩

theorem witness_sts (n : Fin 2) :
    let w := memOf (sizes n) 0 0 0
    let s := sample .vector
    let g := sampleGroup .vector
    selectedFlag g w.head.fs = some 0 ∧ guardMask g w.head ≠ 0 ∧ memFree s g w.head w.sem.toNat w.scope.toNat ∧ banksStill s ∧
    (s.teams[s.viewTeam s.issuer]?).isSome ∧ s.issues w.head (memCheck ruleSts [.vector] false true w) g ∧
    s.judgeLanes (judgedAddrs s g w.head .scratch needW false w.a w.off (2 ^ w.sz.toNat)) 0 (2 ^ w.sz.toNat) = none := by
  fin_cases n <;> exact ⟨by decide +kernel, by decide +kernel, memFree_of (by decide +kernel), banksStill_of rfl, rfl,
    (issues_of rfl (by decide +kernel)).1, by decide +kernel⟩

def atomOf (d : Spec) (aop : BitVec 4) (wide : Bool) : AtomW :=
  { head := flagHead, d := d, a := 2, b := 6, aop := aop, sz := if wide then 1 else 0, sem := 0, scope := 0, q := 0, rsv := 0 }

theorem witness_atom (wide : Bool) :
    let w := atomOf 0x010 12 wide
    let s := sample .vector
    let g := sampleGroup .vector
    let n := 4 * if w.sz = 1 then 2 else 1
    selectedFlag g w.head.fs = some 0 ∧ guardMask g w.head ≠ 0 ∧ memFree s g w.head w.sem.toNat w.scope.toNat ∧
    s.issues w.head (atomCheck ruleAtom w) g ∧
    s.judgeLanes (judgedAddrs s g w.head .global { needRW with aop := some w.aop.toNat } true w.a 0 n) 1 n = none := by
  cases wide <;> exact ⟨by decide +kernel, by decide +kernel, memFree_of (by decide +kernel), (issues_of rfl (by decide +kernel)).1, by decide +kernel⟩

theorem witness_red (wide : Bool) :
    let w := atomOf specZero 0 wide
    let s := sample .vector
    let g := sampleGroup .vector
    let n := 4 * if w.sz = 1 then 2 else 1
    selectedFlag g w.head.fs = some 0 ∧ guardMask g w.head ≠ 0 ∧ memFree s g w.head w.sem.toNat w.scope.toNat ∧
    s.issues w.head (atomCheck ruleRed w) g ∧
    s.judgeLanes (judgedAddrs s g w.head .global { needRW with aop := some w.aop.toNat } true w.a 0 n) 2 n = none := by
  cases wide <;> exact ⟨by decide +kernel, by decide +kernel, memFree_of (by decide +kernel), (issues_of rfl (by decide +kernel)).1, by decide +kernel⟩

/-- A group of which one lane issues. -/
def laneGroup (l : Nat) : Group := { sampleGroup .vector with clause := some (sampleClause ((1 : BitVec 32) <<< l)) }

theorem witness_atoms (last : Bool) :
    let l := if last then 31 else 0
    let w := atomOf 0x010 9 last
    let g := laneGroup l
    let s := sampleWorld [g]
    let n := if w.sz = 1 then 8 else 4
    selectedFlag g w.head.fs = some 0 ∧ guardMask g w.head = (1 : BitVec 32) <<< l ∧ memFree s g w.head w.sem.toNat w.scope.toNat ∧
    banksStill s ∧ (s.teams[s.viewTeam s.issuer]?).isSome ∧ s.issues w.head (atomCheck ruleAtoms w) g ∧
    s.judgeLanes (judgedAddrs s g w.head .scratch { needRW with aop := some w.aop.toNat } false w.a 0 n) 0 n = none := by
  cases last <;> exact ⟨by decide +kernel, by decide +kernel, memFree_of (by decide +kernel), banksStill_of rfl, rfl,
    (issues_of rfl (by decide +kernel)).1, by decide +kernel⟩

def bareMem (sem : BitVec 2) (scope : BitVec 3) : MemW :=
  { memOf 0 sem scope 0 with head := bareHead, d := specZero, a := specZero }

theorem witness_fence (full : Bool) :
    let w := if full then bareMem 3 4 else bareMem 1 0
    let s := sample .vector
    let g := sampleGroup .vector
    (s.issues w.head (fenceCheck w) g ∧ flagFree g w.head) ∧ s.fenceHolds w.sem.toNat w.scope.toNat = false := by
  cases full <;> exact ⟨issues_of rfl (by decide +kernel), by decide +kernel⟩

/-- LDT and STT of 32 bytes, and of 4096 bytes under .AON with its predicate. -/
def tileMem (aon store : Bool) : MemW :=
  { memOf 0 0 0 (if aon then 1 else 0) with d := 0x104, a := 0x102, off := if aon then (if store then 254 else 3 * 256 + 254) else 0 }
def tileGroup : Group := { sampleGroup .vector with k := [(2, 0x20040), (4, 0x120)] }
theorem witness_ldt (aon : Bool) :
    let w := tileMem aon false
    let g := tileGroup
    let s := sampleWorld [g]
    let len := 32 * (w.off.toNat / 2 % 128 + 1)
    selectedFlag g w.head.fs = some 0 ∧ memFree s g w.head w.sem.toNat w.scope.toNat ∧ banksStill s ∧
    (s.teams[s.viewTeam s.issuer]?).isSome ∧ s.issues w.head (tileCheck false w) g ∧
    s.tileVerdict false (readSrc g 0 false w.d).toNat (readSrc g 0 true w.a).toNat len (w.sub.toNat % 2 = 1) = none := by
  cases aon <;> exact ⟨by decide +kernel, memFree_of (by decide +kernel), banksStill_of rfl, rfl,
    (issues_of rfl (by decide +kernel)).1, by decide +kernel⟩
theorem witness_stt (aon : Bool) :
    let w := tileMem aon true
    let g := tileGroup
    let s := sampleWorld [g]
    let len := 32 * (w.off.toNat / 2 % 128 + 1)
    selectedFlag g w.head.fs = some 0 ∧ memFree s g w.head w.sem.toNat w.scope.toNat ∧ banksStill s ∧
    (s.teams[s.viewTeam s.issuer]?).isSome ∧ s.issues w.head (tileCheck true w) g ∧
    s.tileVerdict true (readSrc g 0 false w.d).toNat (readSrc g 0 true w.a).toNat len (w.sub.toNat % 2 = 1) = none ∧
    s.rowsLog 1 (((readSrc g 0 true w.a).toNat + 32, len) :: if w.sub.toNat % 2 = 1 then [((readSrc g 0 true w.a).toNat, 8)] else []) = none ∧ s.padWrites s.issuer = false := by
  cases aon <;> exact ⟨by decide +kernel, memFree_of (by decide +kernel), banksStill_of rfl, rfl,
    (issues_of rfl (by decide +kernel)).1, by decide +kernel⟩

theorem witness_pref (sub : Fin 2) :
    let w := { memOf 0 0 0 (BitVec.ofNat 3 sub) with d := specZero, head := bareHead }
    let s := sample .vector
    let g := sampleGroup .vector
    s.issues w.head (lineCheck false w (fun n => n < 2) []) g ∧ flagFree g w.head := by
  fin_cases sub <;> exact issues_of rfl (by decide +kernel)

theorem witness_cmaint (sub : Fin 5) :
    let w := { memOf 0 0 0 (BitVec.ofNat 3 sub) with d := specZero, a := if sub = 1 then specZero else 2 }
    let s := sample .vector
    let g := sampleGroup .vector
    selectedFlag g w.head.fs = some 0 ∧ guardMask g w.head ≠ 0 ∧ memFree s g w.head 0 0 ∧
    s.issues w.head (lineCheck true w (fun n => n < 5) (if w.sub = 1 && (w.a ≠ specZero || w.off ≠ 0) then [0x04] else [])) g ∧
    (w.sub ≠ 1 → s.judgeLanes ((lanesOf (guardMask g w.head)).map fun l =>
      s.cmaintAddr (w.sub = 4) l ((readSrc g l true w.a).toNat + w.off.toInt)) (if w.sub = 4 then 1 else 0) 128 = none) := by
  fin_cases sub <;> exact ⟨by decide +kernel, by decide +kernel, memFree_of (by decide +kernel),
    (issues_of rfl (by decide +kernel)).1, by decide +kernel⟩

/-- A bank in FIFO mode with room for exactly 32 more entries, and with 32 entries. -/
def fifoBank (n : Nat) : Bank := ⟨.fifo, [], List.replicate n (List.replicate 8 5)⟩
def fifoWorld (n : Nat) : State := (sample .vector).modTeam 0 fun tm => { tm with banks := [fifoBank n] }
def fifoMem : MemW := { memOf 0 0 0 0 with a := specZero, d := 8 }

theorem witness_fifopush :
    let w := fifoMem
    let s := fifoWorld 992
    let g := sampleGroup .vector
    selectedFlag g w.head.fs = some 0 ∧ guardMask g w.head ≠ 0 ∧ memFree s g w.head 0 0 ∧ banksStill s ∧
    (∃ tm, s.teams[s.viewTeam s.issuer]? = some tm ∧ tm.banks[w.off.toNat % 16]? = some (fifoBank 992)) ∧ (fifoBank 992).mode = .fifo ∧
    s.issues w.head (fifoCheck true w) g ∧ (fifoBank 992).fifo.length + (lanesOf (guardMask g w.head)).length ≤ 1024 ∧
    ∀ tm, s.teams[s.viewTeam s.issuer]? = some tm → fifoBehind tm (w.off.toNat % 16) true (fifoSince s.nextId g (w.off.toNat % 16) true) = false :=
  ⟨by decide +kernel, by decide +kernel, memFree_of (by decide +kernel), banksStill_of rfl, ⟨_, rfl, rfl⟩, rfl,
    (issues_of rfl (by decide +kernel)).1, by decide +kernel, fun tm h => by cases h; decide +kernel⟩

theorem witness_fifopop :
    let w := fifoMem
    let s := fifoWorld 32
    let g := sampleGroup .vector
    selectedFlag g w.head.fs = some 0 ∧ guardMask g w.head ≠ 0 ∧ memFree s g w.head 0 0 ∧ banksStill s ∧
    (∃ tm, s.teams[s.viewTeam s.issuer]? = some tm ∧ tm.banks[w.off.toNat % 16]? = some (fifoBank 32)) ∧ (fifoBank 32).mode = .fifo ∧
    s.issues w.head (fifoCheck false w) g ∧ (lanesOf (guardMask g w.head)).length ≤ (fifoBank 32).fifo.length ∧
    ∀ tm, s.teams[s.viewTeam s.issuer]? = some tm → fifoBehind tm (w.off.toNat % 16) false (fifoSince s.nextId g (w.off.toNat % 16) false) = false :=
  ⟨by decide +kernel, by decide +kernel, memFree_of (by decide +kernel), banksStill_of rfl, ⟨_, rfl, rfl⟩, rfl,
    (issues_of rfl (by decide +kernel)).1, by decide +kernel, fun tm h => by cases h; decide +kernel⟩

theorem witness_bankcfg (mode : Fin 3) :
    let w := { fifoMem with d := specZero, sub := BitVec.ofNat 3 mode }
    let s := fifoWorld 0
    let g := sampleGroup .vector
    selectedFlag g w.head.fs = some 0 ∧ memFree s g w.head w.sem.toNat w.scope.toNat ∧
    (∃ tm, s.teams[s.viewTeam s.issuer]? = some tm ∧ w.off.toNat % 16 < tm.banks.length) ∧ s.issues w.head (bankCheck w) g := by
  fin_cases mode <;> exact ⟨by decide +kernel, memFree_of (by decide +kernel), ⟨_, rfl, by decide +kernel⟩,
    (issues_of rfl (by decide +kernel)).1⟩

/-! ### Gangs, ranges, tiles -/

def kRegs (l : List (Nat × Nat)) : Cells Reg32 := l.map fun e => (e.1, BitVec.ofNat 32 e.2)
def matrixGroup (k : List (Nat × Nat)) : Group := { sampleGroup .matrix with k := kRegs k }
def rangeRec : CBlock := ⟨BitVec.ofNat 64 (31 * 2 ^ 9 + 5 * 2 ^ 18 + 31 * 2 ^ 24 + 3 * 2 ^ 32), 0, 0, 0⟩

/-- A team with an operand buffer of 256 units, range 3 of 32 rows of FP32, and twelve tiles. -/
def matrixTeam (reserved : Bool) (tm : Team) : Team :=
  { tm with obufUnits := 256, ranges := [⟨3, rangeRec⟩], tiles := List.replicate 12 ⟨reserved, []⟩ }
def matrixWorld (gs : List Group) (reserved : Bool) : State := (sampleWorld gs).modTeam 0 (matrixTeam reserved)
def tileWord (h : Head) (mt ob : Nat) (v w : Spec) (sub : BitVec 7) : TileW :=
  { head := h, mt := BitVec.ofNat 6 mt, ob := BitVec.ofNat 5 ob, v := v, w := w, sg := 0, slot := 0, arr := 0, sub := sub }

/-- Gang lists of n members in n groups. -/
def gangMask (n : Nat) : Nat := ((List.range n).map fun i => i * 32 ^ i).sum
def gangWorld (n : Nat) : State := matrixWorld (List.replicate n (matrixGroup [(4, gangMask n % 2 ^ 32)])) true

theorem witness_gang_none : ∃ w tm, let s := gangWorld 2; let g := matrixGroup [(4, gangMask 2)]
    s.issuer = .group 0 0 ∧ s.teams[0]? = some tm ∧ (s.issues w.head (tileFormCheck (formGang w) w [(w.v, 1)] noBound) g ∧ flagFree g w.head) ∧
    s.outstanding s.issuer classX = false ∧ (∀ r ∈ tm.riddles, 0 ∉ r.members) ∧ w.sub.toNat = 0 :=
  ⟨tileWord bareHead 0 0 specZero specZero 0, _, rfl, rfl, issues_of rfl (by decide +kernel), by decide +kernel, by decide +kernel, rfl⟩

/-- Gangs of two and of six members. -/
theorem witness_gang (big : Bool) : ∃ w tm, let n := if big then 6 else 2; let s := gangWorld n; let g := matrixGroup [(4, gangMask n % 2 ^ 32)]
    let ka := (readOpd g 0 w.v 0).toNat
    let entry (q : Nat) : Nat := ka / 32 ^ q % 32
    s.issuer = .group 0 0 ∧ s.teams[0]? = some tm ∧ (s.issues w.head (tileFormCheck (formGang w) w [(w.v, 1)] noBound) g ∧ flagFree g w.head) ∧
    s.outstanding s.issuer classX = false ∧ (∀ r ∈ tm.riddles, 0 ∉ r.members) ∧ w.sub.toNat = n ∧ ka < 32 ^ n ∧
    (∀ q < n, ∀ p < q, entry p % 8 ≠ entry q % 8) ∧
    (∀ p < n, (tm.groups[entry p]?).any fun x => x.role = .matrix && x.cohort = BitVec.allOnes 32) ∧ entry 0 = 0 := by
  refine ⟨tileWord bareHead 0 0 0x104 specZero (if big then 6 else 2), _, rfl, rfl, ?_⟩
  cases big <;> exact ⟨issues_of rfl (by decide +kernel), by decide +kernel⟩

theorem witness_obres : ∃ w c tm, let g := matrixGroup []; let s := matrixWorld [g] true
    s.teams[s.viewTeam s.issuer]? = some tm ∧ s.nameBusy (s.viewTeam s.issuer) w.ob.toNat = false ∧
    (s.issues w.head (obresCheck w c) g ∧ flagFree g w.head) ∧ s.coreRecords tm.core < 32 ∧ recordBad (blockValue g c) = false ∧
    recordOutside (recordOf (blockValue g c)) tm.obufUnits = false :=
  ⟨tileWord bareHead 0 31 specZero specZero 0, ⟨BitVec.ofNat 64 (3 * 2 ^ 62 + 31 * 2 ^ 9 + 5 * 2 ^ 18 + 15 * 2 ^ 24 + 2 ^ 32), 0xC000000000000000, 0xC000000000000000,
    0xC000000000000000⟩, _, rfl, by decide +kernel, issues_of rfl (by decide +kernel), by decide +kernel⟩

theorem witness_obrel : ∃ w tm, let g := matrixGroup []; let s := matrixWorld [g] true
    s.teams[s.viewTeam s.issuer]? = some tm ∧ s.nameBusy (s.viewTeam s.issuer) w.ob.toNat = false ∧
    (s.issues w.head (tileFormCheck (formRange 1) w [] noBound) g ∧ flagFree g w.head) ∧ ∃ r ∈ tm.ranges, r.name = w.ob.toNat :=
  ⟨tileWord bareHead 0 3 specZero specZero 0, _, rfl, by decide +kernel, issues_of rfl (by decide +kernel), by decide +kernel⟩

/-- A span of the first tile, and of all twelve. -/
theorem witness_tres (all : Bool) : ∃ w tm, let g := matrixGroup []; let s := matrixWorld [g] false
    s.teams[s.viewTeam s.issuer]? = some tm ∧ (s.issues w.head (tileFormCheck (formSpan w) w [] noBound) g ∧ flagFree g w.head) ∧
    w.sub.toNat = (if all then 11 else 0) ∧ ∀ m ≤ w.sub.toNat, (tm.tiles[w.mt.toNat + m]?).any fun x => x.reserved = false := by
  refine ⟨tileWord bareHead 0 0 specZero specZero (if all then 11 else 0), _, rfl, ?_⟩
  cases all <;> exact ⟨issues_of rfl (by decide +kernel), rfl, by decide +kernel⟩

theorem witness_trel : ∃ w tm, let g := matrixGroup []; let s := matrixWorld [g] true
    s.teams[s.viewTeam s.issuer]? = some tm ∧ (s.issues w.head (tileFormCheck (formSpan w) w [] noBound) g ∧ flagFree g w.head) ∧
    (∀ m ≤ w.sub.toNat, (tm.tiles[w.mt.toNat + m]?).any fun x => x.reserved) ∧ s.tileBusy (s.viewTeam s.issuer) (spanOf w) = false :=
  ⟨tileWord bareHead 4 0 specZero specZero 7, _, rfl, issues_of rfl (by decide +kernel), by decide +kernel, by decide +kernel⟩

theorem witness_tzero : ∃ w tm, let g := matrixGroup []; let s := matrixWorld [g] true
    s.teams[s.viewTeam s.issuer]? = some tm ∧
    (s.issues w.head (tileFormCheck (formTile false false false unusedSpec unusedSpec subZero) w [] noBound) g ∧ flagFree g w.head) ∧
    ((tm.tiles[w.mt.toNat]?).any fun x => x.reserved) ∧ s.tileBusy (s.viewTeam s.issuer) [w.mt.toNat] = false :=
  ⟨tileWord bareHead 11 0 specZero specZero 0, _, rfl, issues_of rfl (by decide +kernel), by decide +kernel, by decide +kernel⟩

/-- OBLD of 64 bytes into range 3 at byte 32, from memory and from the scratchpad. -/
def loadGroup : Group := matrixGroup [(2, 0x20040), (4, 0x120), (6, 1 + 4096 * 2), (8, 64), (10, 0x20060)]
theorem witness_obld (pad : Bool) : ∃ w tm r, let g := loadGroup; let s := matrixWorld [g] true
    let kb := (readOpd g 0 w.w 0).toNat
    let off := 32 * (kb % 4096)
    let len := 32 * (kb / 4096 % 8192)
    let a := (readSrc g 0 (!isPad w) w.v).toNat
    s.teams[s.viewTeam s.issuer]? = some tm ∧ rangeOf tm w.ob.toNat = some r ∧ selectedFlag g w.head.fs = some 0 ∧
    (s.issues w.head (tileFormCheck (formObld w) w [(w.v, if isPad w then 1 else 2), (w.w, 1)] noBound) g ∧ flagFree g w.head) ∧
    isPad w = pad ∧ len ≠ 0 ∧ len ≤ 131072 ∧ off + len ≤ r.len ∧ s.srcVerdict (isPad w) a len w = none ∧
    s.obBusy (s.viewTeam s.issuer) (r.base + off) len = false ∧ (isPad w = true → s.padBusy a len = false) ∧ s.acquiring s.issuer = false := by
  refine ⟨tileWord flagHead 0 3 (if pad then 0x104 else 0x102) 0x106 (if pad then 1 else 0), _, recordOf rangeRec, rfl, ?_⟩
  cases pad <;> exact ⟨by decide +kernel, by decide +kernel, issues_of rfl (by decide +kernel), by decide +kernel⟩

theorem witness_obldB (pad : Bool) : ∃ w tm, let g := loadGroup; let s := matrixWorld [g] true
    let a := (readSrc g 0 (!isPad w) w.v).toNat
    s.teams[s.viewTeam s.issuer]? = some tm ∧ selectedFlag g w.head.fs = some 0 ∧
    (s.issues w.head (tileFormCheck (formObldB w) w [(w.v, if isPad w then 1 else 2)] fun g l => boundFails g l 1 13 w.w) g ∧ flagFree g w.head) ∧
    guardMask g w.head ≠ 0 ∧ isPad w = pad ∧ s.srcVerdict (isPad w) a 1664 w = none ∧
    (isPad w = true → s.padBusy a 1664 = false) ∧ s.acquiring s.issuer = false := by
  refine ⟨tileWord flagHead 0 0 (if pad then 0x104 else 0x102) 0x010 (if pad then 3 else 2), _, rfl, ?_⟩
  cases pad <;> exact ⟨by decide +kernel, issues_of rfl (by decide +kernel), by decide +kernel⟩

theorem tileFree_of {s : State} {tm : Team} {m : Nat} (h : s.teams[s.viewTeam s.issuer]? = some tm)
    (ht : ((tm.tiles[m]?).any fun x => x.reserved) = true) (hb : s.tileBusy (s.viewTeam s.issuer) [m] = false) : tileFree s tm m := by
  refine ⟨h, ?_, hb⟩
  rcases hm : tm.tiles[m]? with _ | x
  · simp [hm] at ht
  · exact ⟨x, rfl, by simpa [hm] using ht⟩

theorem witness_trd : ∃ w tm, let g := loadGroup; let s := matrixWorld [g] true
    tileFree s tm w.mt.toNat ∧ selectedFlag g w.head.fs = some 0 ∧
    (s.issues w.head (tileFormCheck (formTile true true false (vRun true) unusedSpec subZero) w [] fun g l => boundFails g l 1 8 w.v) g ∧
      flagFree g w.head) ∧ guardMask g w.head ≠ 0 :=
  ⟨tileWord flagHead 11 0 0x010 specZero 0, matrixTeam true _, tileFree_of rfl (by decide +kernel) (by decide +kernel), by decide +kernel, issues_of rfl (by decide +kernel),
    by decide +kernel⟩

theorem witness_twr : ∃ w tm, let g := loadGroup; let s := matrixWorld [g] true
    tileFree s tm w.mt.toNat ∧ selectedFlag g w.head.fs = some 0 ∧
    (s.issues w.head (tileFormCheck (formTile true true false (vRun false) unusedSpec subZero) w [(w.v, 8)] fun g l => boundFails g l 1 8 w.v) g ∧
      flagFree g w.head) ∧ guardMask g w.head ≠ 0 :=
  ⟨tileWord flagHead 11 0 0x010 specZero 0, matrixTeam true _, tileFree_of rfl (by decide +kernel) (by decide +kernel), by decide +kernel, issues_of rfl (by decide +kernel),
    by decide +kernel⟩

/-- TSCL of FP32 tiles, and of integer ones wrapped and saturated. -/
theorem witness_tscl (n : Fin 3) : ∃ w tm, let g := loadGroup; let s := matrixWorld [g] true
    tileFree s tm w.mt.toNat ∧ selectedFlag g w.head.fs = some 0 ∧
    (s.issues w.head (tileFormCheck (formTile true false false (kOnlyDetails false) unusedSpec fun n => n < 4 && n ≠ 2) w [(w.v, 1)] noBound) g ∧
      flagFree g w.head) ∧ w.sub.toNat = [0, 1, 3].getD n 0 := by
  refine ⟨tileWord flagHead 0 0 0x104 specZero ([0, 1, 3].getD n 0), worldTeam (matrixWorld [loadGroup] true) rfl, ?_⟩
  fin_cases n <;> exact ⟨tileFree_of rfl (by decide +kernel) (by decide +kernel), by decide +kernel, issues_of rfl (by decide +kernel), rfl⟩

/-- TST of FP32, bfloat16 and half rows, packed and at a stride. -/
theorem witness_tst (n : Fin 3) : ∃ w tm, let g := loadGroup; let s := matrixWorld [g] true
    let a := (readOpd g 0 w.v 0).toNat
    let width := if w.sub = 0 then 64 else 32
    let stride := if w.w = specZero then width else (readOpd g 0 w.w 0).toNat
    tileFree s tm w.mt.toNat ∧ selectedFlag g w.head.fs = some 0 ∧
    (s.issues w.head (tileFormCheck (formTile true false true (kOnlyDetails false) kOrZero fun n => n < 3) w [(w.v, 1), (w.w, 1)] noBound) g ∧
      flagFree g w.head) ∧ w.sub.toNat = n ∧ a % 32 = 0 ∧ stride % 32 = 0 ∧ width ≤ stride ∧
    (∀ r < 16, scratchVerdict tm (a + r * stride : Nat) width = none) ∧ s.ringVerdict (w.arr = 1) w.sg.toNat w.slot.toNat = none ∧
    s.padBusy a (15 * stride + width) = false ∧ s.acquiring s.issuer = false := by
  refine ⟨tileWord flagHead 0 0 0x104 (if n = 0 then specZero else 0x108) (BitVec.ofNat 7 n), worldTeam (matrixWorld [loadGroup] true) rfl, ?_⟩
  fin_cases n <;> exact ⟨tileFree_of rfl (by decide +kernel) (by decide +kernel), by decide +kernel, issues_of rfl (by decide +kernel), by decide +kernel⟩

theorem witness_images : ∃ w tm, let g := loadGroup; let s := matrixWorld [g] true
    let a := (readSrc g 0 true w.v).toNat
    tileFree s tm w.mt.toNat ∧ selectedFlag g w.head.fs = some 0 ∧
    (s.issues w.head (tileFormCheck formImage w [(w.v, 2)] noBound) g ∧ flagFree g w.head) ∧ a % 32 = 0 ∧ a + 1024 ≤ 2 ^ 48 ∧
    s.acquiring s.issuer = false ∧ s.ringVerdict (w.arr = 1) w.sg.toNat w.slot.toNat = none ∧ s.spanVerdict needW a 1024 = none ∧
    s.rowsLog 1 [(a, 1024)] = none ∧ s.spanVerdict needR a 1024 = none :=
  ⟨tileWord flagHead 0 0 0x102 specZero 0, matrixTeam true _, tileFree_of rfl (by decide +kernel) (by decide +kernel), by decide +kernel, issues_of rfl (by decide +kernel),
    by decide +kernel⟩

/-- RMAP of one tile and of six: every third row follows row 0. -/
def mapWorld (n : Nat) : State := (matrixWorld [matrixGroup [(8, 0x200)]] true).modTeam 0 fun tm =>
  scratchWrite tm 0x200 ((List.range (16 * n)).map fun x => BitVec.ofNat 8 (if x % 3 = 0 then 0 else x))
theorem witness_rmap (big : Bool) : ∃ w tm, let g := matrixGroup [(8, 0x200)]; let s := mapWorld (if big then 6 else 1)
    let a := (readOpd g 0 w.v 0).toNat
    let parts := w.sub.toNat % 8 + 1
    let dest (x : Nat) : Nat := (scratchByte tm (a + x)).toNat
    s.teams[s.viewTeam s.issuer]? = some tm ∧ selectedFlag g w.head.fs = some 0 ∧
    (s.issues w.head (tileFormCheck (formRmap w) w [(w.v, 1)] noBound) g ∧ flagFree g w.head) ∧
    notReserved tm (rmapTiles w) = false ∧ a % 32 = 0 ∧ scratchVerdict tm a (16 * parts) = none ∧ s.padBusy a (16 * parts) = false ∧
    s.outstanding s.issuer classX = false ∧ s.tileBusy (s.viewTeam s.issuer) (rmapTiles w) = false ∧ s.acquiring s.issuer = false ∧
    ∀ x < 16 * parts, dest x < 16 * parts ∧ dest (dest x) = dest x := by
  refine ⟨tileWord flagHead 0 0 0x108 specZero (if big then 5 + 32 else 0), _, rfl, ?_⟩
  cases big <;> exact ⟨by decide +kernel, issues_of rfl (by decide +kernel), by decide +kernel⟩

/-- TEPI with the plain flue: FP32 rows, no version header and with one. -/
def flueBlock (aon : Bool) : CBlock := ⟨BitVec.ofNat 64 (3 * 2 ^ 62 + (if aon then 2 ^ 20 else 0) + 2 ^ 22), 0xC000000000000000, 0xC000000000000000, 0xC000000000000000⟩
theorem witness_tepi (aon : Bool) : ∃ w tm, let c := flueBlock aon; let g := loadGroup; let s := matrixWorld [g] true
    let f := flueOf (blockValue g c)
    let a := (readSrc g 0 true w.v).toNat
    let stride := if w.w = specZero then flueRow f else (readOpd g 0 w.w 0).toNat
    let out := flueRows f (flueIn f tm) tm w.mt.toNat (if f.aon then a + 32 else a) stride
    tileFree s tm w.mt.toNat ∧ selectedFlag g w.head.fs = some 0 ∧ (s.issues w.head (tepiCheck w c) g ∧ flagFree g w.head) ∧ f.aon = aon ∧
    flueBad (blockValue g c) = false ∧ s.tepiFault w f a (if f.aon then a + 32 else a) stride out.1 = none ∧
    (∀ p ∈ flueReads f, s.padBusy p.1 p.2 = false) ∧ s.acquiring s.issuer = false := by
  refine ⟨tileWord flagHead 0 0 (if aon then 0x10A else 0x102) specZero 0, worldTeam (matrixWorld [loadGroup] true) rfl, ?_⟩
  cases aon <;> exact ⟨tileFree_of rfl (by decide +kernel) (by decide +kernel), by decide +kernel, issues_of rfl (by decide +kernel), by decide +kernel⟩

/-! ### Gang-collective words -/

theorem some_all {α : Type} {o : Option α} {p : α → Prop} [DecidablePred p] (h : (o.all fun x => decide (p x)) = true) :
    ∀ x, o = some x → p x := by rintro x rfl; simpa using h

/-- A gang of groups 0 and 1 over two ranges of 128 rows and twelve tiles; sparse, each half of a chunk keeps its first elements. -/
def gangMember (gi : Nat) : Group := { sampleGroup .matrix with gang := BitVec.ofNat 64 (2 + 16 * gi + 256 * 32) }
def gangRec (base sp : Nat) : CBlock :=
  ⟨BitVec.ofNat 64 (base + 2 ^ 9 * 127 + 2 ^ 18 * 7 + 2 ^ 22 * sp + 2 ^ 24 * 31), BitVec.ofNat 64 (if sp = 0 then 0 else 2 ^ 34 * 8192), 0, 0⟩
def gangBytes (sp : Nat) : Cells Byte := if sp = 0 then [] else (List.range 1024).map fun i => (8192 + i, 0x44)
def gangPair (gs : List Group) (sp : Nat) (zs : List Riddle) : State := (sampleWorld gs).modTeam 0 fun tm =>
  { tm with obufUnits := 512, ob := gangBytes sp, ranges := [⟨3, gangRec 0 sp⟩, ⟨4, gangRec 128 0⟩], tiles := List.replicate 12 ⟨true, []⟩, riddles := zs }
def mulWord (b e : BitVec 1) : MulW :=
  { head := flagHead, mt := 0, oba := 3, bsrc := 128, aoff := 0, bfmt := 0, st := 0, bs := 1, ac := 0, sc := 0, ng := 0, gk := 0, b := b, e := e, rsv := 0 }

theorem latchesAlone_of (w : Clause) {s : State} {tm : Team} (hs : s.issuer = .group 0 0) (ht : s.teams[0]? = some tm)
    (hg : tm.groups = [gangMember 0, gangMember 1]) (hw : w = sampleClause (BitVec.allOnes 32)) : latchesAlone s (gangMember 0) w 0 0 tm := by
  subst hw
  refine ⟨hs, ht, rfl, rfl, rfl, by decide +kernel, lanes_all (g := gangMember 0) (by decide +kernel), none_held (by decide +kernel),
    by decide +kernel, ?_, ?_⟩
  · intro m hm
    have : m = 0 ∨ m = 1 := by simpa [show gangList (gangMember 0) = [0, 1] by decide +kernel] using hm
    rcases this with rfl | rfl <;> rw [hg] <;> exact some_all (by decide +kernel)
  · rw [hg]
    intro x hx _ _
    refine ⟨1, ?_, by decide, by exact some_all (by decide +kernel)⟩
    rcases List.mem_cons.1 hx with rfl | hx
    · decide +kernel
    · rw [List.mem_singleton.1 hx]; decide +kernel

def gangWaiting : State := gangPair [gangMember 0, gangMember 1] 0 []
def mapBlock : CBlock := ⟨BitVec.ofNat 64 (3 * 2 ^ 62 + 2 * 2 ^ 4), 0xC000000000000000, BitVec.ofNat 64 (3 * 2 ^ 62 + 0x200), 0xC000000000000000⟩

theorem witness_latch : ∃ w b tm, latchesAlone gangWaiting (gangMember 0) (sampleClause (BitVec.allOnes 32)) 0 0 tm ∧
    gangWaiting.issues w.head (mulCheck false w) (gangMember 0) ∧ gangWaiting.issues w.head (mmarCheck w b) (gangMember 0) :=
  ⟨mulWord 0 0, mapBlock, worldTeam gangWaiting rfl, latchesAlone_of _ rfl rfl rfl rfl, (issues_of rfl (by decide +kernel)).1, (issues_of rfl (by decide +kernel)).1⟩

/-- Both members have latched a word; group 1's own turn issues it. -/
def gangLatched (i : Instr) (vs : List Word64) (gi : Nat) : Group :=
  { gangMember gi with
    latch := some ⟨i, [], 0, vs, some 0, none⟩, hold := .latch
    clause := some { sampleClause (BitVec.allOnes 32) with gathered := true } }
def gangReady (i : Instr) (vs : List Word64) (sp : Nat) (zs : List Riddle) : State :=
  { gangPair [gangLatched i vs 0, gangLatched i vs 1] sp zs with issuer := .group 0 1 }

theorem gangMet_of {i : Instr} {s : State} {g : Group} {tm : Team} (hs : s.issuer = .group 0 1) (ht : s.teams[0]? = some tm)
    (hu : s.unitOf s.issuer = some g)
    (h : (gatheredNow g && g.latch.isSome && decide (gangN g ≠ 0) && ((gangList g).all fun m => (tm.groups[m]?).all fun x => decide (x.run ≠ .ended)) &&
      decide (s.meeting 0 1 = some [0, 1]) && ((s.latches 0 [0, 1]).all fun l => decide (l.instr = i)) && ([0, 1].all fun m => (tm.groups[m]?).any fun x =>
        decide (gangLists x = gangLists g) && !flagBlocked x (selectedFlag x flagHead.fs))) = true) : gangMet s i flagHead g 0 1 [0, 1] tm := by
  simp only [Bool.and_eq_true, decide_eq_true_eq, List.all_eq_true, Option.any_eq_true, Bool.not_eq_true'] at h
  obtain ⟨⟨⟨⟨⟨⟨h1, h2⟩, h3⟩, h4⟩, h5⟩, h6⟩, h7⟩ := h
  exact ⟨hs, ht, hu, h1, h2, h3, fun m hm x hx => by simpa [hx] using h4 m hm, h5, by decide, h6, h7⟩

theorem witness_multiply (sparse : Bool) : ∃ tm a, let w := mulWord 0 0; let i := if sparse then Instr.mmas w else Instr.mma w
    let s := gangReady i [] (if sparse then 1 else 0) []
    gangMet s i w.head (gangLatched i [] 1) 0 1 [0, 1] tm ∧ notReserved tm (mulTiles w 2) = false ∧
    mulRangeDetails w sparse 2 tm = [] ∧ rangeOf tm w.oba.toNat = some a ∧ s.mulBusy 0 (mulNames w) (mulTiles w 2) = false ∧
    mulDataDetails tm a (List.range 32) w.aoff.toNat = [] := by
  cases sparse
  · exact ⟨_, recordOf (gangRec 0 0), gangMet_of rfl rfl rfl (by decide +kernel), by decide +kernel⟩
  · exact ⟨_, recordOf (gangRec 0 1), gangMet_of rfl rfl rfl (by decide +kernel), by decide +kernel⟩

/-- A sequence under way with a map of 32 rows that all follow row 0. -/
theorem witness_riddle (ends : Bool) : ∃ tm a z, let w := mulWord 0 (if ends then 1 else 0); let i := Instr.mmar w mapBlock
    let vs := blockWords (blockValue (gangMember 0) mapBlock)
    let s := gangReady i vs 0 [⟨[0, 1], 2, 0, List.replicate 32 0⟩]
    gangMet s i w.head (gangLatched i vs 1) 0 1 [0, 1] tm ∧ w.b = 0 ∧ (tm.riddles.find? fun r => r.members = [0, 1]) = some z ∧
    notReserved tm (mulTiles w 2) = false ∧ rangeOf tm w.oba.toNat = some a ∧ mulRangeDetails w false 2 tm = [] ∧
    (z.rep = 1 → rrobDetails tm w 2 z.rrob = []) ∧
    s.mulBusy 0 (mulNames w ++ if z.rep = 1 then [z.rrob] else []) (mulTiles w 2) = false ∧
    (z.rep ≠ 1 → ∀ r ∈ z.rows, sideBeyond tm a r w.aoff.toNat = false) := by
  cases ends <;> exact ⟨_, recordOf (gangRec 0 0), ⟨[0, 1], 2, 0, List.replicate 32 0⟩, gangMet_of rfl rfl rfl (by decide +kernel), by decide +kernel, rfl, by decide +kernel⟩

theorem witness_riddle_opens : ∃ tm a, let w := mulWord 1 0; let i := Instr.mmar w mapBlock
    let vs := blockWords (blockValue (gangMember 0) mapBlock)
    let s := gangReady i vs 0 []
    let k := riddleOf vs
    let map := (List.range 32).map fun i => (scratchByte tm (k.map + i)).toNat
    gangMet s i w.head (gangLatched i vs 1) 0 1 [0, 1] tm ∧ w.b = 1 ∧ (tm.riddles.find? fun r => r.members = [0, 1]) = none ∧
    (((s.latches 0 [0, 1]).head?).map Latch.values).getD [] = vs ∧ k.rep = 2 ∧ riddleBad vs a.fmt = false ∧
    notReserved tm (mulTiles w 2) = false ∧ rangeOf tm w.oba.toNat = some a ∧ mulRangeDetails w false 2 tm = [] ∧
    s.mulBusy 0 (mulNames w) (mulTiles w 2) = false ∧ s.padBusy k.map 32 = false ∧ (∀ m ∈ [0, 1], s.acquiring (.group 0 m) = false) ∧ k.map % 32 = 0 ∧ s.padVerdict k.map 32 = none ∧
    (∀ q ∈ map, q < 32 ∧ map.getD q 0 = q) ∧ ∀ r ∈ map, sideBeyond tm a r w.aoff.toNat = false :=
  ⟨_, recordOf (gangRec 0 0), gangMet_of rfl rfl rfl (by decide +kernel), by decide +kernel, rfl, rfl, by decide +kernel⟩

theorem witness_integer : ∃ w : MulW, w.sc = 0 ∧ w.st = 0 := ⟨mulWord 0 0, rfl, rfl⟩

/-! ### Engines and subscriptions -/

theorem wholly_of {s : State} {h : Head} {k : Group → WordCheck} {g : Group} (c : Clause) (hu : s.unitOf s.issuer = some g)
    (hc : g.clause = some c)
    (hb : (!flagBlocked g (selectedFlag g h.fs) && (firstFault g h (k g)).isNone && !c.gathered && decide (activeMask g ≠ 0) &&
      (g.threads.all fun t => t.held.isNone)) = true)
    (hl : ∀ l : Fin 32, (activeMask g).getLsbD l = true → c.lanes.getLsbD l = true ∧ l < g.threads.length) : s.wholly h k g := by
  simp only [Bool.and_eq_true, Bool.not_eq_true', Option.isNone_iff_eq_none, decide_eq_true_eq] at hb
  obtain ⟨⟨⟨⟨h1, h2⟩, h3⟩, h4⟩, h5⟩ := hb
  exact ⟨hu, h1, .inr ⟨h2, c, hc, h3, h4, none_held h5, lanes_all (g := g) hl⟩⟩

def fullClause : Clause := sampleClause (BitVec.allOnes 32)
def engWord (d a : Spec) (sub : BitVec 12) : EngW :=
  { head := flagHead, d := d, a := a, sg := 0, slot := 0, arr := 0, acq := 0, rel := 0, scope := 0, ord := 0, sub := sub }
def blockOf (a b c d : Nat) : CBlock := ⟨BitVec.ofNat 64 (3 * 2 ^ 62 + a), BitVec.ofNat 64 (3 * 2 ^ 62 + b), BitVec.ofNat 64 (3 * 2 ^ 62 + c), BitVec.ofNat 64 (3 * 2 ^ 62 + d)⟩
def kGroup (k : List (Nat × Nat)) : Group := { sampleGroup .vector with k := kRegs k }

/-- CPY of one row of 32 bytes from memory to the scratchpad, and of 512 rows to a range. -/
theorem witness_cpy (range : Bool) : ∃ w c, let g := kGroup []; let s := (sampleWorld [g]).modTeam 0 (matrixTeam true)
    selectedFlag g w.head.fs = some 0 ∧ (s.issues w.head (cpyCheck w c) g ∧ flagFree g w.head) ∧ s.copyVerdict w (blockValue g c) = none ∧
    s.copiesAt (s.coreOf s.issuer / 8) < 64 ∧ s.acquiring s.issuer = false ∧ s.padSwitching (blockValue g c) (w.sub.toNat % 4) = false := by
  cases range
  · exact ⟨engWord specZero specZero 0, blockOf 0x20000 0x100 32 1, by decide +kernel, issues_of rfl (by decide +kernel), by decide +kernel⟩
  · exact ⟨engWord specZero specZero (3 + 4 * 3), blockOf 0 0x200 (32 + 2 ^ 16 * 1) (1 + 2 ^ 15 + 2 ^ 30 + 2 ^ 45), by decide +kernel, issues_of rfl (by decide +kernel), by decide +kernel⟩

/-- TGMS: the members latch, and the last one starts a command over a map of one offset with one pair. -/
theorem witness_tgms_latch : ∃ w c tm, latchesAlone gangWaiting (gangMember 0) fullClause 0 0 tm ∧
    gangWaiting.issues w.head (tgmsCheck w c) (gangMember 0) :=
  ⟨engWord 0x102 0x104 0, mapBlock, worldTeam gangWaiting rfl, latchesAlone_of _ rfl rfl rfl rfl, (issues_of rfl (by decide +kernel)).1⟩

def tgmsWord : EngW := engWord 0x102 0x104 0
def tgmsValues : List Word64 := [1 + 2 ^ 16, 5 + 3 * 2 ^ 16 + 4 * 2 ^ 21, 0x20000, 0x30000, 0x40000]
def oneMap : CeHandle := ⟨9, 0, 5, false, none, .map 0x50000 1 [1]⟩
def tgmsWorld : State := (gangReady (.tgms tgmsWord mapBlock) tgmsValues 0 []).modDie 0 fun d => { d with handles := [oneMap] }
theorem witness_tgms : ∃ tm a b, let s := tgmsWorld; let w := tgmsWord
    let vs := (((s.latches 0 [0, 1]).head?).map Latch.values).getD []
    let k := tileCmdOf vs
    gangMet s (.tgms w mapBlock) w.head (gangLatched (.tgms tgmsWord mapBlock) tgmsValues 1) 0 1 [0, 1] tm ∧
    notReserved tm ((List.range 4).map (k.mt + ·)) = false ∧ rangeOf tm k.obg = some a ∧ rangeOf tm k.obw = some b ∧ 32 ≤ a.rows ∧ 32 ≤ b.rows ∧
    (match (s.latches 0 [0, 1]).findSome? Latch.map with | some i => s.mapById i | none => s.ceHandle s.dieCtx.1 s.dieCtx.2 k.handle) = some oneMap ∧ oneMap.isTable = false ∧ oneMap.holder = none ∧ mapOf oneMap = some (0x50000, 1, [1]) ∧
    s.tgmsVerdict w k vs a b 2 (some (0x50000, 1, [1])) = none ∧ s.mulBusy 0 [k.obg, k.obw] ((List.range 4).map (k.mt + ·)) = false ∧
    (∀ x ∈ [0, 1], s.acquiring (.group 0 x) = false) :=
  ⟨_, recordOf (gangRec 0 0), recordOf (gangRec 128 0), gangMet_of rfl rfl rfl (by decide +kernel), by decide +kernel, by decide +kernel, by decide +kernel,
    by decide +kernel, by decide +kernel, by decide +kernel, rfl, rfl, rfl, by decide +kernel⟩

def engGroup : Group := kGroup [(5, 3)]
def engWorld : State := (sampleWorld [engGroup]).modDie 0 fun d => { d with handles := [⟨9, 0, 5, true, none, .table 16 []⟩] }

/-- CEBLD of the smallest table and of the largest. -/
theorem witness_cebld (big : Bool) : ∃ w c, let g := engGroup; let s := engWorld; let v := blockValue g c
    let cc := v.c0.toNat / 16 % 32
    let len := v.c2.toNat % 2 ^ 24
    let addr (x : Word64) : Nat := x.toNat % 2 ^ 48
    selectedFlag g w.head.fs = some 0 ∧ s.acquiring s.issuer = false ∧ s.ringVerdict (w.arr = 1) w.sg.toNat w.slot.toNat = none ∧
    s.wholly w.head (ceCheck w c) g ∧ s.ceHandle (s.coreOf s.issuer / 48) (s.ctxOf s.issuer) (v.c0.toNat % 16) = none ∧
    v.c0.toNat / 2 ^ 9 % 2 ^ 52 = 0 ∧ v.c1.toNat / 2 ^ 48 % 2 ^ 13 = 0 ∧ v.c2.toNat / 2 ^ 24 % 2 ^ 37 = 0 ∧ v.c3.toNat % 2 ^ 61 = 0 ∧
    4 ≤ cc ∧ cc ≤ 19 ∧ cc = (if big then 19 else 4) ∧ 0 < len ∧ len < 2 ^ cc ∧ addr v.c1 % 32 = 0 ∧ s.spanVerdict needR (addr v.c1) (8 * len) = none := by
  cases big
  · exact ⟨engWord 0x102 specZero 0, blockOf (3 + 16 * 4) 0x20000 15 0, by decide +kernel, by decide +kernel, by decide +kernel,
      wholly_of fullClause rfl rfl (by decide +kernel) (by decide +kernel), by decide +kernel⟩
  · exact ⟨engWord specZero specZero 0, blockOf (3 + 16 * 19) 0x20000 1 0, by decide +kernel, by decide +kernel, by decide +kernel,
      wholly_of fullClause rfl rfl (by decide +kernel) (by decide +kernel), by decide +kernel⟩

/-- CENBR over the cube and over a list of offsets. -/
theorem witness_cenbr (km : Bool) : ∃ w c, let g := engGroup; let s := engWorld; let v := blockValue g c
    let noff := v.c0.toNat / 2 ^ 9 % 64 + 1
    let nout := v.c0.toNat / 2 ^ 16 % 2 ^ 24
    let extent := mapHead noff + 8 * noff * nout
    let addr (x : Word64) : Nat := x.toNat % 2 ^ 48
    selectedFlag g w.head.fs = some 0 ∧ s.acquiring s.issuer = false ∧ s.ringVerdict (w.arr = 1) w.sg.toNat w.slot.toNat = none ∧
    s.wholly w.head (ceCheck w c) g ∧ s.ceHandle (s.coreOf s.issuer / 48) (s.ctxOf s.issuer) (v.c0.toNat % 16) = none ∧
    ((s.ceHandle (s.coreOf s.issuer / 48) (s.ctxOf s.issuer) (v.c0.toNat / 16 % 16)).any fun h => h.isTable) ∧
    v.c0.getLsbD 8 = km ∧ v.c0.getLsbD 15 = false ∧ v.c0.toNat / 2 ^ 40 % 2 ^ 21 = 0 ∧ v.c1.toNat / 2 ^ 48 % 2 ^ 13 = 0 ∧
    v.c2.toNat / 2 ^ 48 % 2 ^ 13 = 0 ∧ v.c3.toNat / 2 ^ 48 % 2 ^ 13 = 0 ∧ nout ≠ 0 ∧ (km = false → addr v.c3 = 0 ∧ noff = 27) ∧
    s.ordDest (addr v.c2) extent = false ∧ addr v.c1 % 32 = 0 ∧ addr v.c2 % 32 = 0 ∧ addr v.c3 % 32 = 0 ∧
    s.spanVerdict needW (addr v.c2) extent = none ∧ s.spanVerdict needR (addr v.c1) (8 * nout) = none ∧
    (km = true → s.spanVerdict needR (addr v.c3) (8 * noff) = none) := by
  cases km
  · exact ⟨engWord 0x102 specZero 0, blockOf (3 + 16 * 5 + 512 * 26 + 2 ^ 16 * 9) 0x20000 0x30000 0, by decide +kernel, by decide +kernel, by decide +kernel,
      wholly_of fullClause rfl rfl (by decide +kernel) (by decide +kernel), by decide +kernel⟩
  · exact ⟨engWord 0x102 specZero 0, blockOf (3 + 16 * 5 + 256 + 512 * 63 + 2 ^ 16 * 1) 0x20000 0x30000 0x40000, by decide +kernel, by decide +kernel, by decide +kernel,
      wholly_of fullClause rfl rfl (by decide +kernel) (by decide +kernel), by decide +kernel⟩

/-- CEWALK for one party and for 256. -/
theorem witness_cewalk (many : Bool) : ∃ w c, let g := engGroup; let s := engWorld; let v := blockValue g c
    let len := v.c2.toNat % 2 ^ 24
    let parties := v.c2.toNat / 2 ^ 24 % 256 + 1
    let extent := walkHead parties + 2 * walkRow len
    let addr (x : Word64) : Nat := x.toNat % 2 ^ 48
    selectedFlag g w.head.fs = some 0 ∧ s.acquiring s.issuer = false ∧ s.ringVerdict (w.arr = 1) w.sg.toNat w.slot.toNat = none ∧
    s.wholly w.head (ceCheck w c) g ∧ v.c0.toNat / 2 ^ 48 % 2 ^ 13 = 0 ∧ v.c1.toNat / 2 ^ 48 % 2 ^ 13 = 0 ∧ v.c2.toNat / 2 ^ 32 % 2 ^ 29 = 0 ∧
    v.c3.toNat % 2 ^ 61 = 0 ∧ len ≠ 0 ∧ parties = (if many then 256 else 1) ∧ s.ordDest (addr v.c1) extent = false ∧ addr v.c0 % 32 = 0 ∧ addr v.c1 % 32 = 0 ∧
    s.spanVerdict needR (addr v.c0) (8 * len) = none ∧ s.spanVerdict needW (addr v.c1) extent = none := by
  refine ⟨engWord 0x102 specZero 0, blockOf 0x20000 0x30000 (9 + if many then 2 ^ 24 * 255 else 0) 0, ?_⟩
  cases many <;> exact ⟨by decide +kernel, by decide +kernel, by decide +kernel,
      wholly_of fullClause rfl rfl (by decide +kernel) (by decide +kernel), by decide +kernel⟩

theorem witness_cerel : ∃ w, let g := kGroup [(5, 5)]; let s := (sampleWorld [g]).modDie 0 fun d => { d with handles := [⟨9, 0, 5, true, none, .table 16 []⟩] }
    selectedFlag g w.head.fs = some 0 ∧ s.acquiring s.issuer = false ∧ s.ringVerdict (w.arr = 1) w.sg.toNat w.slot.toNat = none ∧
    s.wholly w.head (cerelCheck w) g ∧
    (s.ceHandle (s.coreOf s.issuer / 48) (s.ctxOf s.issuer) ((readOpd g 0 w.a 0).toNat % 16)).isSome = true :=
  ⟨engWord 0x102 0x105 0, by decide +kernel, by decide +kernel, by decide +kernel,
      wholly_of fullClause rfl rfl (by decide +kernel) (by decide +kernel), by decide +kernel⟩

/-- Two teams of a cluster-team, the second with scratchpad to subscribe to; SBS names team 1, bytes 32 to 127, for 64. -/
def pairWorld (k : List (Nat × Nat)) : State :=
  let s := sampleWorld [kGroup k]
  { s with
    teams := s.teams.flatMap fun tm => [{ tm with scratch := 65536 }, { tm with tidx := 1, rank := 1, scratch := 65536 }]
    launches := s.launches.map fun (l : Launch) => { l with slot := { l.slot with low := { l.slot.low with w3 := 2 + 2 ^ 24 + 2 ^ 36 + 2 ^ 48 * 2 + 2 ^ 52 * 8 } } } }

theorem witness_sbs : ∃ w tm l p, let g := kGroup [(4, 1), (5, 32), (6, 64), (7, 96)]; let s := pairWorld [(4, 1), (5, 32), (6, 64), (7, 96)]
    let r (j : Nat) : Nat := (readOpd g 0 w.a j).toNat
    selectedFlag g w.head.fs = some 0 ∧ s.acquiring s.issuer = false ∧ 0 = s.viewTeam s.issuer ∧ s.teams[0]? = some tm ∧ s.launchOf 0 = some l ∧
    s.wholly w.head (subCheck true w) g ∧ s.sbsStatus 0 tm l (r 0) (r 1) (r 2) (r 3) = 0 ∧ s.subs = [] ∧ s.teamAt tm.launch (r 0) = some p :=
  ⟨engWord 0x102 0x104 0, _, _, 1, by decide +kernel, by decide +kernel, by decide +kernel, rfl, rfl,
    wholly_of fullClause rfl rfl (by decide +kernel) (by decide +kernel), by decide +kernel, rfl, by decide +kernel⟩

/-- SBS that names a team the launch does not have is refused. -/
theorem witness_sbs_refused : ∃ w tm l, let g := kGroup [(4, 9), (5, 32), (6, 64), (7, 96)]; let s := pairWorld [(4, 9), (5, 32), (6, 64), (7, 96)]
    let r (j : Nat) : Nat := (readOpd g 0 w.a j).toNat
    selectedFlag g w.head.fs = some 0 ∧ s.acquiring s.issuer = false ∧ 0 = s.viewTeam s.issuer ∧ s.teams[0]? = some tm ∧ s.launchOf 0 = some l ∧
    s.wholly w.head (subCheck true w) g ∧ s.sbsStatus 0 tm l (r 0) (r 1) (r 2) (r 3) ≠ 0 :=
  ⟨engWord 0x102 0x104 0, _, _, by decide +kernel, by decide +kernel, by decide +kernel, rfl, rfl,
    wholly_of fullClause rfl rfl (by decide +kernel) (by decide +kernel), by decide +kernel⟩

theorem witness_sbsx_pubf : ∃ w v tm l, let g := kGroup [(4, 5)]; let s := pairWorld [(4, 5)]
    selectedFlag g w.head.fs = some 0 ∧ selectedFlag g v.head.fs = some 0 ∧ s.acquiring s.issuer = false ∧ 0 = s.viewTeam s.issuer ∧ s.teams[0]? = some tm ∧
    s.launchOf 0 = some l ∧ s.wholly w.head (subCheck false w) g ∧ s.wholly v.head (pubfCheck v) g ∧
    s.ringVerdict (v.arr = 1) v.sg.toNat v.slot.toNat = none :=
  ⟨engWord 0x102 0x104 0, engWord specZero specZero 0, _, _, by decide +kernel, by decide +kernel, by decide +kernel, by decide +kernel, rfl, rfl,
    wholly_of fullClause rfl rfl (by decide +kernel) (by decide +kernel), wholly_of fullClause rfl rfl (by decide +kernel) (by decide +kernel), by decide +kernel⟩

/-! ### Traps, handlers, tasks, rings, barriers, steps -/

def sysWord (h : Head) (d a b : Spec) (sub : BitVec 5) : SysW := { head := h, d := d, a := a, b := b, sg := 0, slot := 0, ph := 0, lvl := 0, sub := sub }
def oneClause : Clause := ⟨0, 0, 0, 1, 1, false, 1, BitVec.allOnes 32, false⟩

theorem witness_trap (acts : Bool) : ∃ w tm, branch.issuer = .group 0 0 ∧ branch.teams[0]? = some tm ∧
    (branch.issues w.head (trapCheck w) branchGroup ∧ flagFree branchGroup w.head) ∧ branchGroup.clause = some oneClause ∧
    (if acts then guardMask branchGroup w.head ≠ 0 else guardMask branchGroup w.head = 0) := by
  refine ⟨{ sysWord (if acts then bareHead else guardHead) specZero specZero specZero 0 with sg := 15, slot := 7 }, _, rfl, rfl, ?_⟩
  cases acts <;> exact ⟨issues_of rfl (by decide +kernel), rfl, by decide +kernel⟩

theorem witness_handler : ∃ cl, handling.issuer = .handler 0 ∧ handling.clusters[0]? = some cl ∧ cl.handler = some stopHandler ∧
    ∀ o ∈ handling.ops, o.issuer ≠ handling.issuer := ⟨_, rfl, rfl, rfl, by simp [show handling.ops = [] from rfl]⟩

theorem witness_halt (acts : Bool) : ∃ w : SysW, (handling.issues w.head (haltCheck w) handlerCpu ∧ flagFree handlerCpu w.head) ∧
    (if acts then guardMask handlerCpu w.head ≠ 0 else guardMask handlerCpu w.head = 0) := by
  refine ⟨sysWord (if acts then bareHead else guardHead) specZero specZero specZero 0, ?_⟩
  cases acts <;> exact ⟨issues_of rfl (by decide +kernel), by decide +kernel⟩

theorem witness_handler_exit : ∃ w : BareW, (handling.issues w.head (bareCheck w) handlerCpu ∧ flagFree handlerCpu w.head) ∧
    (guardMask handlerCpu w.head).getLsbD 0 = true ∧ handlerCpu.cohort = 1 ∧ handlerCpu.threads.length = 1 ∧ (threadAt handlerCpu 0).joins = [] :=
  ⟨⟨bareHead, 0, 0⟩, issues_of rfl (by decide +kernel), by decide +kernel⟩

theorem witness_tret : ∃ w : SysW, (handling.issues w.head (tretCheck w) handlerCpu ∧ flagFree handlerCpu w.head) ∧ guardMask handlerCpu w.head ≠ 0 ∧
    readOpd handlerCpu 0 w.a 0 = stopHandler.handle ∧ handling.group? stopHandler.stop.team stopHandler.stop.grp = some parkedGroup ∧
    sswReserved parkedGroup = false ∧ posBeyond (handling.codeOf (.group 0 0)).1 parkedGroup = false :=
  ⟨sysWord bareHead specZero 0x100 specZero 0, issues_of rfl (by decide +kernel), by decide +kernel, by decide +kernel, rfl, by decide +kernel, by decide +kernel⟩

theorem witness_windows : ∃ w v : SysW, ((handling.clusters[0]?).bind Cluster.handler) = some stopHandler ∧ selectedFlag handlerCpu w.head.fs = some 0 ∧
    (handling.issues w.head (windowCheck true w) handlerCpu ∧ flagFree handlerCpu w.head) ∧ guardMask handlerCpu w.head ≠ 0 ∧
    readOpd handlerCpu 0 w.a 0 = stopHandler.handle ∧ selectorOk (readOpd handlerCpu 0 w.b 0) = true ∧
    (handling.issues v.head (windowCheck false v) handlerCpu ∧ flagFree handlerCpu v.head) ∧ readOpd handlerCpu 0 v.a 0 = stopHandler.handle ∧
    selectorOk (readOpd handlerCpu 0 v.b 0) = true :=
  ⟨sysWord flagHead 0x107 0x100 0x105 0, sysWord flagHead 0x106 0x100 0x105 0, rfl, by decide +kernel, issues_of rfl (by decide +kernel), by decide +kernel,
    by decide +kernel, by decide +kernel, issues_of rfl (by decide +kernel), by decide +kernel, by decide +kernel⟩

theorem witness_leave : ∃ w : BareW, branch.issuer = .group 0 0 ∧ branch.issues w.head (bareCheck w) branchGroup ∧ flagFree branchGroup w.head :=
  ⟨⟨bareHead, 0, 0⟩, rfl, issues_of rfl (by decide +kernel)⟩

/-- A task whose scratchpad holds a billet at 0x140. -/
def spawnGroup : Group := kGroup [(4, 0x140)]
def spawnWorld : State := (pairWorld [(4, 0x140)]).modTeam 0 fun tm => scratchWrite { tm with ordinals := [9], spawns := 4 } 0x140 (bytesOfNat 64 (5 * 2 ^ 16))
theorem witness_spawn : ∃ w tm l, let s := spawnWorld; let g := spawnGroup
    let off := (readOpd g 0 w.a 0).toNat
    let bytes := (List.range 64).map fun i => scratchByte tm (off + i)
    0 = s.viewTeam s.issuer ∧ s.teams[0]? = some tm ∧ s.launchOf 0 = some l ∧ s.acquiring s.issuer = false ∧ l.ordered = false ∧
    selectedFlag g w.head.fs = some 0 ∧ s.wholly w.head (spawnCheck w) g ∧ s.padBusy off 64 = false ∧ s.padWrites s.issuer = false ∧ off % 64 = 0 ∧ scratchVerdict tm off 64 = none ∧
    s.spawnDetails tm l (natOfBytes bytes) = [] :=
  ⟨sysWord flagHead 0x102 0x104 specZero 0, _, _, by decide +kernel, rfl, rfl, by decide +kernel, by decide +kernel, by decide +kernel,
    wholly_of fullClause rfl rfl (by decide +kernel) (by decide +kernel), by decide +kernel⟩

/-- A group with two children, one done and one killed. -/
def waitGroup : Group := { kGroup [] with children := [0x500, 0x600] }
def waitWorld : State :=
  let s := sampleWorld [waitGroup]
  { s with teams := s.teams ++ s.teams.flatMap fun tm =>
      [{ tm with taskId := 0x500, parent := some 0, ended := some .done }, { tm with taskId := 0x600, parent := some 0, ended := some .killed }] }
theorem witness_twait : ∃ w tm l, let s := waitWorld; let g := waitGroup
    0 = s.viewTeam s.issuer ∧ s.issuer = .group 0 0 ∧ s.teams[0]? = some tm ∧ s.launchOf 0 = some l ∧ s.acquiring s.issuer = false ∧ l.ordered = false ∧
    s.wholly w.head (twaitCheck w) g ∧ g.children.length ≤ (s.endedChildren 0 g.children).length :=
  ⟨sysWord bareHead 0x102 specZero specZero (16 + 3), _, _, by decide +kernel, rfl, rfl, rfl, by decide +kernel, by decide +kernel,
    wholly_of fullClause rfl rfl (by decide +kernel) (by decide +kernel), by decide +kernel⟩

/-- A ring of four slots whose slots 0 and 2 are in phase 1. -/
def ringWorld : State := (sample .vector).modTeam 0 fun tm => { tm with rings := [⟨5, 4, 5⟩] }
theorem witness_arrv (last : Bool) : ∃ w tm r, let s := ringWorld; let g := sampleGroup .vector
    s.teams[s.viewTeam s.issuer]? = some tm ∧ (tm.rings.find? fun x => x.name = w.sg.toNat) = some r ∧ w.slot.toNat < r.slots ∧
    w.slot.toNat = (if last then 3 else 0) ∧ s.wholly w.head (ringStepCheck true w) g := by
  refine ⟨{ sysWord bareHead specZero specZero specZero 0 with sg := 5, slot := if last then 3 else 0 }, _, ⟨5, 4, 5⟩, rfl, ?_⟩
  cases last <;> exact ⟨rfl, by decide +kernel, by decide +kernel, wholly_of fullClause rfl rfl (by decide +kernel) (by decide +kernel)⟩
theorem witness_waitr (phase : Bool) : ∃ w tm r, let s := ringWorld; let g := sampleGroup .vector
    s.teams[s.viewTeam s.issuer]? = some tm ∧ (tm.rings.find? fun x => x.name = w.sg.toNat) = some r ∧ w.slot.toNat < r.slots ∧
    s.wholly w.head (ringStepCheck false w) g ∧
    (r.phases.getLsbD ((w.slot.toNat + (readOpd g 0 w.a 0).toNat) % r.slots) = true ↔ ¬ (w.ph = 1 ↔ (readOpd g 0 w.b 0).getLsbD 0 = true)) := by
  refine ⟨{ sysWord bareHead specZero specZero specZero 0 with sg := 5, slot := if phase then 0 else 3, ph := if phase then 1 else 0 }, _, ⟨5, 4, 5⟩, rfl, ?_⟩
  cases phase <;> exact ⟨rfl, by decide +kernel, wholly_of fullClause rfl rfl (by decide +kernel) (by decide +kernel), by decide +kernel⟩

/-- The last group of two teams of a cooperative launch arrives at a barrier of a level; the others wait there, or one does not yet. -/
def meetIndex (level : Nat) : Nat := [3, 7, 0, 0].getD level 0
def barOther (level : Nat) (here : Bool) : Group :=
  { sampleGroup .vector with
    hold := if here then .bar level (meetIndex level) else .none
    clause := some { sampleClause (BitVec.allOnes 32) with gathered := true } }
def barWorld (level : Nat) (here : Bool) : State :=
  let s := pairWorld []
  { s with
    teams := s.teams.map fun tm => if tm.tidx = 0 then { tm with groups := [kGroup [], barOther level here] } else { tm with groups := [barOther level true] }
    launches := s.launches.map fun (l : Launch) => { l with slot := { l.slot with low := { l.slot.low with w0 := l.slot.low.w0 ||| 1024 } } } }
def meetWord (level : Nat) : SysW := { sysWord bareHead specZero specZero specZero (BitVec.ofNat 5 (meetIndex level)) with lvl := BitVec.ofNat 3 level }

theorem witness_bar (level : Fin 4) (here : Bool) : ∃ tm, let w := meetWord level; let s := barWorld level here; let g := kGroup []
    let all := s.barGroups level (meetIndex level) 0
    s.issuer = .group 0 0 ∧ s.teams[0]? = some tm ∧ s.wholly w.head (barCheck w) g ∧ s.barFault w = none ∧ w.lvl.toNat = level ∧
    s.fenceHolds 3 (level + 1) = false ∧ (0, 0) ∈ all ∧ (∀ p ∈ all, (s.group? p.1 p.2).all fun x => x.clause.isSome) ∧
    (if here then ∀ p ∈ all, p ≠ (0, 0) → ((s.group? p.1 p.2).map Group.hold) = some (.bar level (meetIndex level))
     else ∃ p ∈ all, p ≠ (0, 0) ∧ ((s.group? p.1 p.2).map Group.hold) ≠ some (.bar level (meetIndex level))) ∧
    s.barAssembled level 0 = true ∧ s.orderedOf s.issuer = false ∧ s.updates = [] ∧ s.subs = [] := by
  refine ⟨_, rfl, rfl, ?_⟩
  fin_cases level <;> cases here <;> exact ⟨wholly_of fullClause rfl rfl (by decide +kernel) (by decide +kernel), by decide +kernel, rfl, by decide +kernel,
    by decide +kernel, by decide +kernel, by decide +kernel,
    by decide +kernel, by decide +kernel, rfl, rfl⟩

/-- A task that declares step 0, step 7, which is new, known, or one too many, with the longest budget. -/
def stepWorld (n id : Nat) : State := { sampleWorld [kGroup [(4, id), (5, 2000000)]] with steps := (List.range n).map fun i => ⟨7 + i, 0, 3000, none, false, false, false⟩ }
theorem witness_dln (n : Fin 4) : ∃ w tm l, let s := stepWorld ([0, 0, 1, 16].getD n 0) ([0, 7, 7, 99].getD n 0); let g := kGroup [(4, [0, 7, 7, 99].getD n 0), (5, 2000000)]
    let id := (readOpd g 0 w.a 0).toNat
    0 = s.viewTeam s.issuer ∧ s.teams[0]? = some tm ∧ s.launchOf 0 = some l ∧ s.wholly w.head (stepCheck true w) g ∧ (id = 0 ↔ n = 0) ∧
    ((∃ x ∈ s.steps, x.id = id) ↔ n = 2) ∧ (s.steps.length < 16 ↔ n ≠ 3) := by
  refine ⟨sysWord bareHead specZero 0x104 0x105 0, _, _, ?_, rfl, rfl, ?_⟩
  · fin_cases n <;> decide +kernel
  · fin_cases n <;> exact ⟨wholly_of fullClause rfl rfl (by decide +kernel) (by decide +kernel), by decide +kernel⟩
theorem witness_prog : ∃ w tm l, let s := stepWorld 0 7; let g := kGroup [(4, 7), (5, 2000000)]
    0 = s.viewTeam s.issuer ∧ s.teams[0]? = some tm ∧ s.launchOf 0 = some l ∧ s.wholly w.head (stepCheck false w) g :=
  ⟨sysWord bareHead specZero 0x104 specZero 0, _, _, by decide +kernel, rfl, rfl, wholly_of fullClause rfl rfl (by decide +kernel) (by decide +kernel)⟩

/-! ### Words that are turned away -/

theorem witness_roles (n : Fin 3) : ∃ tm, let g := sampleGroup ([.copy, .matrix, .vector].getD n .copy); let s := sampleWorld [g]
    s.issuer = .group 0 0 ∧ s.teams[0]? = some tm ∧ s.unitOf s.issuer = some g ∧ g.clause = some fullClause ∧ fullClause.gathered = false ∧
    g.role ≠ .control ∧ (n ≠ 1 → g.role ≠ .matrix) ∧ (n ≠ 2 → g.role ≠ .vector) := by
  fin_cases n <;> exact ⟨_, rfl, rfl, rfl, rfl, rfl, by decide, by decide, by decide⟩

/-- Lanes 30 and 31 of an access of eight bytes are misaligned. -/
def oddGroup : Group :=
  let g := sampleGroup .vector
  { g with threads := g.threads.mapIdx fun l t => if 30 ≤ l then writeV t 2 (BitVec.ofNat 32 l) else t }
theorem witness_misaligned : ∃ w : MemW, let g := oddGroup; let s := { sampleWorld [g] with launches := constWorld.launches }
    s.issuer = .group 0 0 ∧ (s.teams[0]?).isSome ∧ g.clause = some fullClause ∧ banksStill s ∧
    s.issues w.head (memCheck ruleLd allRoles true false w) g ∧ s.issues w.head (memCheck ruleSt allRoles true true w) g ∧
    s.issues w.head (memCheck ruleLds [.vector] false false w) g ∧ s.issues w.head (memCheck ruleSts [.vector] false true w) g ∧
    s.issues w.head (memCheck ruleLdc groupRoles false false w) g ∧ s.issues w.head (memCheck ruleLdc [.vector] false false w) g ∧
    s.issues w.head (memCheck ruleStx [.vector] false true w) g ∧ (guardMask g w.head).getLsbD 30 = true ∧
    (∀ wide, addressOf g wide w.a w.off 8 30 % 8 ≠ 0) ∧ ∀ wide, ∀ l < 30, (guardMask g w.head).getLsbD l = true → addressOf g wide w.a w.off 8 l % 8 = 0 :=
  ⟨memOf 3 0 0 0, rfl, rfl, rfl, banksStill_of rfl, (issues_of rfl (by decide +kernel)).1, (issues_of rfl (by decide +kernel)).1,
    (issues_of rfl (by decide +kernel)).1, (issues_of rfl (by decide +kernel)).1, (issues_of rfl (by decide +kernel)).1, (issues_of rfl (by decide +kernel)).1,
    (issues_of rfl (by decide +kernel)).1, by decide +kernel⟩

theorem witness_strays : ∃ tm, let s := sample .vector
    s.issuer = .group 0 0 ∧ s.teams[0]? = some tm ∧ s.unitOf s.issuer = some (sampleGroup .vector) ∧ (sampleGroup .vector).clause = some fullClause :=
  ⟨_, rfl, rfl, rfl, rfl⟩

/-! ### Operations that complete -/

def anOp (id : Nat) (k : OpKind) (e : Effect) : Op := { Op.blank id (.group 0 0) k (some 0) with effect := e }
/-- A part with some pending operations, the first of which the next event completes, and a line at home that is full. -/
def opWorld (os : List Op) : State :=
  { sample .vector with
    ops := os, subject := ((os.head?).map Op.id).getD 0, lines := [{ Line.fresh 0x400 1 true with valid := BitVec.allOnes 128 }] }

theorem witness_results (n : Fin 6) : ∃ o, let k := [OpKind.division, .fpLong, .mma, .tileReg, .rmap, .arrv].getD n .arrv
    (opWorld [o]).opOf [k] = some o ∧ ∀ p ∈ (opWorld [o]).ops, p.id < o.id → p.issuer = o.issuer → beforeArrival p = false := by
  refine ⟨anOp 4 ([OpKind.division, .fpLong, .mma, .tileReg, .rmap, .arrv].getD n .arrv) .none, ?_⟩
  fin_cases n <;> exact ⟨rfl, by decide +kernel⟩

/-- HRD, and HWR of the last item of the last space. -/
theorem witness_windows_delivered (write : Bool) : ∃ o, let s : State := { handling with ops := [o], subject := 4 }
    s.opOf [.debug] = some o ∧ o.issuer = .handler 0 ∧ ((s.clusters[0]?).bind Cluster.handler) = some stopHandler ∧
    o.effect = (if write then .debugWrite 15 255 31 7 else .none) ∧ 15 < 16 ∧ 255 < 256 ∧ 31 < 32 := by
  refine ⟨{ anOp 4 .debug (if write then .debugWrite 15 255 31 7 else .none) with issuer := .handler 0 }, ?_⟩
  cases write <;> exact ⟨rfl, rfl, rfl, rfl, by decide, by decide, by decide⟩

theorem witness_items : ∃ g : Group, 31 < g.threads.length ∧ g.threads.length = 32 := ⟨sampleGroup .vector, by decide +kernel, by decide +kernel⟩

/-- An answered request of operation 4. -/
def answeredReq (lane size : Nat) : Req :=
  { id := 1, op := some 4, lane := lane, team := 0, grp := 0, core := 0, ctx := 0, kind := .read, va := 0x20000, pa := 0x20000, leaf := 1, size := size, data := []
    compare := 0, aop := 0, ord := false, hops := [], place := .core 0 0, order := 0, dated := false, sends := 0, incarnation := 0, performed := true
    waitingFill := false, acked := true, plain := true, result := List.replicate size 0x80, tag := 3 }
/-- A sign-extended byte, and a word of an atomic with its tag. -/
def loadOp (atomic : Bool) : Op :=
  if atomic then { anOp 4 .mem (.atomic [(31, ⟨.v 16, some 31, 4, false, some (.v 17)⟩)]) with dests := [(.v 16, some 31), (.v 17, some 31)] }
  else { anOp 4 .mem (.load [(0, ⟨.v 16, some 0, 1, true, none⟩)]) with dests := [(.v 16, some 0)] }
theorem witness_loads_return (atomic : Bool) : ∃ dests r d, let o := loadOp atomic
    let s : State := { opWorld [o] with reqs := [answeredReq (if atomic then 31 else 0) (if atomic then 4 else 1)] }
    let rs := s.reqs.filter fun r => r.op = some o.id
    s.opOf [.mem, .cmaint, .fifoPush, .fifoPop] = some o ∧ (o.effect = .load dests ∨ o.effect = .atomic dests) ∧
    o.todo = [] ∧ (∀ r ∈ rs, r.performed = true ∧ r.waitingFill = false ∧ r.hops = []) ∧ d ∈ dests ∧ (rs.find? fun r => r.lane = d.1) = some r ∧ r.result.length = d.2.size ∧ 1 ≤ d.2.size ∧
    (d.2.reg, d.2.lane) ∈ o.dests := by
  cases atomic
  · exact ⟨_, answeredReq 0 1, _, rfl, .inl rfl, rfl, by decide +kernel, List.mem_singleton_self _, by decide +kernel, rfl, by decide, by decide +kernel⟩
  · exact ⟨_, answeredReq 31 4, _, rfl, .inr rfl, rfl, by decide +kernel, List.mem_singleton_self _, by decide +kernel, rfl, by decide, by decide +kernel⟩

theorem witness_stores_return : ∃ o p : Op, (opWorld [o]).opOf [.mem, .cmaint, .fifoPush, .fifoPop] = some o ∧ o.kind = .cmaint ∧ o.effect = .none ∧
    (opWorld [p]).opOf [.mem, .cmaint, .fifoPush, .fifoPop] = some p ∧ p.kind ≠ .cmaint ∧ p.effect = .none ∧ (opWorld [p]).reqs = [] ∧ (opWorld [o]).reqs = [] ∧ o.todo = [] ∧ p.todo = [] :=
  ⟨anOp 4 .cmaint .none, { anOp 4 .mem .none with release := some 2 }, rfl, rfl, rfl, rfl, by decide, rfl, rfl, rfl, rfl, rfl⟩

/-- A tile whose version is odd, or even, under a copy. -/
def versionWorld (o : Op) (odd : Bool) : State :=
  let s := opWorld [o]
  if odd then s.writeVa 0 0 (s.ctxOf (.group 0 0)) 0x20000 [1, 0, 0, 0, 0, 0, 0, 0] else s
def tries (n : Fin 3) : Nat := [0, 14, 15].getD n 0
def memKinds : List OpKind := [.mem, .cmaint, .fifoPush, .fifoPop]
theorem witness_tile_load (n : Fin 3) (odd : Bool) (first : Bool) : ∃ o, let s := versionWorld o odd
    s.opOf memKinds = some o ∧ o.todo = [] ∧ o.effect = .tileLoad 0 0x20000 32 (tries n) (if first then none else some 1) ∧
    s.movable o (.padFill 0x20000 0 8) ∧ natOfBytes (s.opRead o 0x20000 8) = if odd then 1 else 0 := by
  refine ⟨anOp 4 .mem (.tileLoad 0 0x20000 32 (tries n) (if first then none else some 1)), ?_⟩
  fin_cases n <;> cases odd <;> cases first <;> exact ⟨by decide +kernel, rfl, rfl, by decide +kernel, by decide +kernel⟩
theorem witness_tile_load_even : ∃ o, let s := versionWorld o false
    s.opOf memKinds = some o ∧ o.todo = [] ∧ o.effect = .tileLoad 0 0x20000 32 15 (some 0) ∧
    s.movable o (.padFill 0x20000 0 8) ∧ natOfBytes (s.opRead o 0x20000 8) = 0 :=
  ⟨anOp 4 .mem (.tileLoad 0 0x20000 32 15 (some 0)), by decide +kernel, rfl, rfl, by decide +kernel, by decide +kernel⟩
theorem witness_tile_store (last : Bool) : ∃ o, let s := opWorld [o]
    s.opOf memKinds = some o ∧ o.todo = [] ∧ o.effect = .tileStore 0x20000 [5] (if last then 1 else 0) ∧ s.movable o (.bufFill false 0x20000 0 8) := by
  refine ⟨anOp 4 .mem (.tileStore 0x20000 [5] (if last then 1 else 0)), ?_⟩
  cases last <;> exact ⟨rfl, rfl, rfl, by decide +kernel⟩

/-- One move of each kind under an event that performs it. -/
def moveCases : List ((Instr × List OpKind) × OpKind × Move) :=
  [((.memoryAccessComplete, memKinds), .mem, .padRead 32764 ⟨.v 16, some 31, 4, true, none⟩), ((.memoryAccessComplete, memKinds), .mem, .padWrite 32767 [1]),
   ((.memoryAccessComplete, memKinds), .mem, .padAtomic 32760 9 true 1 0 (some ⟨.v 16, some 31, 8, false, none⟩)), ((.memoryAccessComplete, memKinds), .mem, .padFill 0x20020 0 32),
   ((.memoryAccessComplete, memKinds), .mem, .store 0x20020 [1]), ((.obldComplete, [.obld]), .obld, .word 0x20000 (.v 16) 31),
   ((.obldComplete, [.obld]), .obld, .bufFill true 0 32 32), ((.obldComplete, [.obld]), .obld, .bufFill false 0x20000 32 32),
   ((.tstComplete, [.tst]), .tst, .padWrite 0 (List.replicate 32 1)), ((.tsaveTloadComplete, [.tileImage]), .tileImage, .tileFill 0 0x1FC20 31),
   ((.tepiComplete, [.tepi]), .tepi, .store 0x20000 (List.replicate 32 1)), ((.cpyChunk, [.cpy]), .cpy, .copyRead 0 0x20000 1 0 32),
   ((.cpyChunk, [.cpy]), .cpy, .copyWrite 2 0 [1]), ((.tgmsComplete, [.tgms]), .tgms, .scatter 0x20000 0 10 [1, 5]), ((.tgmsComplete, [.tgms]), .tgms, .pause),
   ((.ceCommandComplete, [.ce]), .ce, .fetch 0x20000 32)]
theorem witness_moves : ∀ x ∈ moveCases, x.1 ∈ moveEvents ∧ let o := { anOp 4 x.2.1 .none with todo := [x.2.2] }; let s := opWorld [o]
    s.opOf x.1.2 = some o ∧ o.todo = x.2.2 :: [] ∧ s.movable o x.2.2 := by decide +kernel
/-- A read at home of a line that nothing has filled. -/
theorem witness_move_fills : ∃ o m, let s := opWorld [o]
    s.opOf [.obld] = some o ∧ o.todo = m :: [] ∧ s.moveHeld o m = false ∧ s.moveFills o m ≠ [] :=
  ⟨{ anOp 4 .obld .none with todo := [.word 0x21000 (.v 16) 31] }, .word 0x21000 (.v 16) 31, by decide +kernel, rfl, by decide +kernel, by decide +kernel⟩
/-- A scratchpad read waits for an earlier write of its own group to the same bytes. -/
theorem witness_move_waits : ∃ o m, let s : State := { opWorld [] with ops := [{ anOp 3 .mem .none with todo := [.padWrite 4 [1]] }, o], subject := 4 }
    s.opOf memKinds = some o ∧ o.todo = m :: [] ∧ s.moveHeld o m = true :=
  ⟨{ anOp 4 .mem .none with todo := [.padRead 1 ⟨.v 16, some 0, 4, false, none⟩] }, .padRead 1 ⟨.v 16, some 0, 4, false, none⟩, by decide +kernel, rfl, by decide +kernel⟩

theorem witness_bank : ∃ o b m, (opWorld [o]).opOf [.bankSwitch] = some o ∧ o.effect = .bank b m ∧ (opWorld [o]).bankInFlight o b = false :=
  ⟨anOp 4 .bankSwitch (.bank 0 .fifo), _, _, rfl, rfl, by decide +kernel⟩

/-- A group that waits at a FIFO, at its word. -/
def fifoGroup (push : Bool) : Group := { sampleGroup .vector with hold := .fifo 0 push 7 }
def fifoWait (push : Bool) (i : Instr) : State :=
  let s := sampleWorld [fifoGroup push]
  { s with launches := s.launches.map fun (l : Launch) => { l with code := 0 :: encode i } }
theorem witness_fifo_wait (push : Bool) : ∃ w, let i := if push then Instr.fifopush w else Instr.fifopop w
    (fifoWait push i).group? 0 0 = some (fifoGroup push) ∧ (fifoGroup push).hold = .fifo 0 push 7 ∧ (fifoGroup push).run = .running ∧
    (fifoWait push i).currentWord (.group 0 0) = some i := by
  refine ⟨{ memOf 0 0 0 0 with a := specZero, d := 8 }, ?_⟩
  cases push <;> exact ⟨rfl, rfl, rfl, by decide +kernel⟩

/-- Matrix loads and stores with nothing left to move, and the steps of a flue write under .AON. -/
def matrixEffects : List (OpKind × Effect) :=
  [(.obld, .obLoad 3 32 64), (.obld, .none), (.tst, .none), (.tileImage, .tileImage 0), (.tileImage, .none),
   (.tepi, .flueRows 0x20000 [(0x20020, [1, 2])] 0), (.tepi, .flueRows 0x20000 [(0x20020, [1, 2])] 1), (.tepi, .none)]
theorem witness_matrix_moves : ∀ e ∈ matrixEffects, let o := { anOp 4 e.1 e.2 with release := some 2 }
    (opWorld [o]).opOf [e.1] = some o ∧ o.effect = e.2 ∧ o.todo = [] ∧ (opWorld [o]).readsBefore o = false ∧ (opWorld [o]).writesDone o true = true ∧
    (opWorld [o]).movable o (.bufFill false 0x20000 0 8) := by decide +kernel
/-- A tile store that arrives, behind no earlier write. -/
theorem witness_tst_arrives : ∃ o, (opWorld [o]).opOf [.tst] = some o ∧ o.arrive.isSome = true ∧ (opWorld [o]).writesDone o false = true :=
  ⟨{ anOp 4 .tst .none with arrive := some (0, 0) }, rfl, rfl, by decide +kernel⟩

def copyBlock : CBlock := blockOf 0x20000 0x100 (64 + 2 ^ 16 * 255) 1
/-- A copy before its first chunk, and after its last. -/
theorem witness_copies (last : Bool) : ∃ o chunk, (opWorld [o]).opOf [.cpy] = some o ∧ o.todo = [] ∧ o.effect = .copy copyBlock 0 0 chunk ∧ (opWorld [o]).engineRuns o = true ∧
    (if last then (copyOf copyBlock).total ≤ 4096 * chunk ∧ (opWorld [o]).mayEnd o = true ∧ ∀ p ∈ (opWorld [o]).ops, p.kind = .cpy → p.issuer = o.issuer → o.id ≤ p.id
     else 4096 * chunk < (copyOf copyBlock).total ∧ (opWorld [o]).mayRead o = true) := by
  cases last
  · exact ⟨anOp 4 .cpy (.copy copyBlock 0 0 0), 0, rfl, rfl, rfl, by decide +kernel, by decide +kernel⟩
  · exact ⟨anOp 4 .cpy (.copy copyBlock 0 0 99), 99, rfl, rfl, rfl, by decide +kernel, by decide +kernel⟩
/-- A copy whose team is being saved does not go on. -/
theorem witness_copy_stops : ∃ o, let s := (opWorld [o]).modTeam 0 fun tm => { tm with residency := .saving, preempt := .save }
    s.opOf [.cpy] = some o ∧ o.todo = [] ∧ o.effect = .copy copyBlock 0 0 1 ∧ s.engineRuns o = false :=
  ⟨anOp 4 .cpy (.copy copyBlock 0 0 1), rfl, rfl, rfl, by decide +kernel⟩
theorem witness_chunks : ∃ c : CBlock, copyBad c = false ∧ 0 < (copyOf c).rows ∧ 0 < (copyOf c).xb := ⟨copyBlock, by decide +kernel⟩

/-- One operation for each of two members; the first carries the contributions. -/
def tileHeld (held : Bool) : List Move := if held then [.pause, .scatter 0x20000 1 10 [1, 5]] else []
theorem witness_tgms_completes (held : Bool) : ∃ o p, let s := opWorld [o, p]
    s.opOf [.tgms] = some o ∧ o.todo = [] ∧ o.effect = .tile copyBlock 2 9 (tileHeld held) ∧ s.mayEnd o = true ∧ (∀ p ∈ s.ops, ¬ p.id < o.id) ∧
    (∀ i < 2, (s.ops.find? fun p => p.id = o.id + i).isSome) ∧
    ((s.ops.find? fun x => x.id = o.id + 0).map Op.issuer) ≠ ((s.ops.find? fun x => x.id = o.id + 1).map Op.issuer) :=
  ⟨anOp 4 .tgms (.tile copyBlock 2 9 (tileHeld held)), { anOp 5 .tgms .none with issuer := .group 0 1 }, rfl, rfl, rfl, by cases held <;> decide +kernel⟩
/-- An earlier command of one of its members. -/
theorem witness_tgms_waits : ∃ o p q, let s : State := { opWorld [p, o, q] with subject := 4 }
    s.opOf [.tgms] = some o ∧ o.todo = [] ∧ o.effect = .tile copyBlock 2 9 [] ∧ p ∈ s.ops ∧ p.kind = .tgms ∧ p.id < o.id ∧ q ∈ s.ops ∧ o.id ≤ q.id ∧
    q.id < o.id + 2 ∧ q.issuer = p.issuer :=
  ⟨anOp 4 .tgms (.tile copyBlock 2 9 []), { anOp 3 .tgms .none with issuer := .group 0 1 }, { anOp 5 .tgms .none with issuer := .group 0 1 }, by decide +kernel⟩

def ceEffects : List Effect := [.build 3 (2 ^ 4) 0x20000 15, .neighbours 3 5 false 27 1 0x20000 0x30000 0, .walk 0x20000 0x30000 9 1,
  .listed [3, 5] (some (.map 0x30000 27 [1])) 1, .listed [] none 9, .free 5]
def ceOpWorld (e : Effect) (fetched : Bool) : State :=
  (opWorld [{ anOp 4 .ce e with data := if fetched then [1] else [] }]).modDie 0 fun d => { d with handles := [⟨8, 0, 5, true, none, .table 16 []⟩, ⟨9, 0, 3, true, some 4, .table 16 []⟩] }
theorem witness_engine_commands : ∀ e ∈ ceEffects, ∀ fetched : Bool,
    let s := ceOpWorld e fetched; let o : Op := { anOp 4 .ce e with data := if fetched then [1] else [] }
    s.opOf [.ce] = some o ∧ o.todo = [] ∧ ((o.data = [] ∧ o.ceReads ≠ []) ↔ fetched = false ∧ e ∈ ceEffects.take 3) ∧ s.mayEnd o = true ∧ s.ceReady (s.coreOf o.issuer / 48) o = true ∧ s.handleUsers (s.coreOf o.issuer / 48) (s.ctxOf o.issuer) o 5 = false ∧
    (s.tableFor (s.coreOf o.issuer / 48) (s.ctxOf o.issuer) 5 o.id).isSome ∧
    ∀ h ∈ ((s.dies[s.coreOf o.issuer / 48]?).map Die.handles).getD [], h.name = 16 + o.id → h.holder = none := by decide +kernel
/-- A release of a handle behind an earlier command of its engine. -/
theorem witness_ce_waits : ∃ o p, let s : State := { opWorld [p, o] with subject := 4 }
    s.opOf [.ce] = some o ∧ o.todo = [] ∧ o.effect = .free 5 ∧ s.ceReady (s.coreOf o.issuer / 48) o = false :=
  ⟨anOp 4 .ce (.free 5), anOp 3 .ce (.walk 0x20000 0x30000 9 1), by decide +kernel⟩
/-- A build that waits for room in the hash SRAM, which a table of another holds, or does not. -/
theorem witness_grant (fits : Bool) : ∃ b d, let s := (opWorld [anOp 4 .ce (.build 3 (2 ^ 19) 0x20000 9)]).modDie 0 fun d =>
      { d with handles := ⟨9, 0, 3, true, some 4, .map 0 0 []⟩ :: if fits then [] else [⟨8, 0, 5, true, none, .table 16 []⟩] }
    s.opOf [.ce] = some b ∧ ((s.ceOps 0).find? (s.ungranted 0)) = some b ∧ s.dies[0]? = some d ∧ b.effect = .build 3 (2 ^ 19) 0x20000 9 ∧
    decide (d.hashUsed + 2 ^ 19 ≤ 2 ^ 19) = fits := by
  cases fits <;> exact ⟨anOp 4 .ce (.build 3 (2 ^ 19) 0x20000 9), _, by decide +kernel, by decide +kernel, rfl, rfl, by decide +kernel⟩
theorem witness_no_grant : ((ceOpWorld (.free 5) true).ceOps 0).find? ((ceOpWorld (.free 5) true).ungranted 0) = none := by decide +kernel

def sampleBillet : Billet := ⟨0, 0x500, 0, some 0, 0, 0, List.replicate 64 0, false, [], 0⟩
/-- A queue of billets with room, or full beside an overflow area of one. -/
def childWorld (full : Bool) (o : Op) : State :=
  let s := (opWorld [o]).modCluster 0 fun c =>
    { c with billets := List.replicate (if full then 256 else 255) sampleBillet, overflow := if full then [sampleBillet] else [] }
  { s with launches := s.launches.map fun (l : Launch) => { l with slot := { l.slot with high := { l.slot.high with w1 := 1 } } } }
theorem witness_child (full : Bool) : ∃ o c l, let s := childWorld full o
    s.opOf [.spawn] = some o ∧ o.effect = .child sampleBillet ∧ s.mayEnd o = true ∧ s.readsBefore o = false ∧ s.publishing o.issuer = false ∧
    s.clusters[s.coreOf o.issuer / 8]? = some c ∧ (c.billets.length < 256 ↔ full = false) ∧ s.launches[sampleBillet.launch]? = some l ∧
    let used (i : Nat) : Bool := s.clusters.any fun c => c.overflow.any fun x => x.launch = sampleBillet.launch && x.place = i
    ∃ n, (∀ i < n, used i = true) ∧ used n = false := by
  cases full
  · exact ⟨anOp 4 .spawn (.child sampleBillet), _, _, rfl, rfl, by decide +kernel, by decide +kernel, by decide +kernel, rfl, by decide +kernel, rfl,
      0, by decide +kernel, by decide +kernel⟩
  · exact ⟨anOp 4 .spawn (.child sampleBillet), _, _, rfl, rfl, by decide +kernel, by decide +kernel, by decide +kernel, rfl, by decide +kernel, rfl,
      1, by decide +kernel, by decide +kernel⟩

/-- A subscription of team 0 to its own scratchpad, whose sync has read some of its 32 bytes. -/
def sampleSub (st : SubState) (synced : Nat) (full : Bool) : Subscription :=
  ⟨0, 0, 0, 0, 64, 32, st, synced, if full then List.replicate 1024 ⟨0, []⟩ else [], false, []⟩
theorem witness_sbs_completes (synced : Bool) : ∃ o b, let s : State := { opWorld [o] with subs := [b] }
    s.opOf [.sbs] = some o ∧ o.effect = .sync 0 ∧ (s.subs.find? fun b => b.subscriber = issuerTeam o.issuer && b.handle = 0) = some b ∧
    (b.synced < b.len ↔ synced = false) ∧ (s.teams[b.publisher]?).isSome ∧ s.updates = [] := by
  refine ⟨anOp 4 .sbs (.sync 0), sampleSub .active (if synced then 32 else 0) false, ?_⟩
  cases synced <;> exact ⟨rfl, rfl, by decide +kernel, by decide +kernel, rfl, rfl⟩
theorem witness_subscriptions_complete : ∃ b c d e,
    (opWorld [b]).opOf [.sbs] = some b ∧ b.effect = .none ∧ (opWorld [c]).opOf [.sbsx] = some c ∧ c.effect = .unsubscribe 0 ∧
    (opWorld [d]).opOf [.pubf] = some d ∧ d.effect = .flush [3] [] ∧ (∀ u ∈ (opWorld [d]).updates, u.id ∉ [3]) ∧
    (opWorld [e]).opOf [.pubf] = some e ∧ e.effect = .flush [3] [2] ∧ ∀ p ∈ (opWorld [e]).ops, p.id ∉ [2] :=
  ⟨anOp 4 .sbs .none, anOp 4 .sbsx (.unsubscribe 0), anOp 4 .pubf (.flush [3] []), anOp 4 .pubf (.flush [3] [2]), rfl, rfl, rfl, rfl, rfl, rfl, by decide +kernel, rfl, rfl, by decide +kernel⟩

/-- An update for that subscription. -/
def sampleUpdate (late : Bool) : Update := ⟨4, 0, 0, 0, [0], ⟨0, [1, 2]⟩, false, false, late⟩
def updateWorld (b : Subscription) (ordered late : Bool) : State :=
  let s := opWorld []
  { s with
    subs := [b], updates := [sampleUpdate late], subject := 4
    launches := s.launches.map fun (l : Launch) => if ordered then { l with slot := { l.slot with low := { l.slot.low with w0 := l.slot.low.w0 ||| 512 } } } else l }
def updateCases : List (SubState × Nat × Bool × Bool) :=
  [(.ended, 32, false, false), (.dormant, 32, false, false), (.dormant, 32, true, false), (.active, 31, false, false), (.dormant, 0, false, true),
   (.active, 32, false, false), (.active, 32, false, true), (.dormant, 32, false, true)]
theorem witness_updates : ∀ c ∈ updateCases, ∀ late : Bool, let b := sampleSub c.1 c.2.1 c.2.2.1; let u := sampleUpdate late
    let s := updateWorld b c.2.2.2 late
    (s.updates.find? fun x => x.id = s.subject) = some u ∧ (∀ x ∈ s.updates, u.id ≤ x.id) ∧ b ∈ s.subs ∧
    b.subscriber = u.subscriber ∧ b.handle = u.handle ∧ (∀ x ∈ s.subs, x = b) ∧
    (((s.launchOf u.subscriber).map Launch.ordered) = some true ↔ c.2.2.2 = true) ∧ (1024 ≤ b.log.length ↔ c.2.2.1 = true) := by decide +kernel
theorem witness_mma_member : ∃ o, (opWorld [o]).opOf [.mma] = some o ∧ o.effect = .member [4] := ⟨anOp 4 .mma (.member [4]), rfl, rfl⟩
theorem test_sectors_split : sectors 30 35 = [(30, 2), (32, 32), (64, 1)] := by decide

/-! ### Requests, routers, stops -/

/-- A request of core 0 at its slice. -/
def sliceReq (k : ReqKind) (pa size : Nat) : Req :=
  { id := 1, op := some 4, lane := 0, team := 0, grp := 0, core := 0, ctx := 0, kind := k, va := pa, pa := pa, leaf := 31, size := size
    data := List.replicate size 0xAA, compare := 0, aop := 0, ord := false, hops := [], place := .core 0 0, order := 1, dated := false
    sends := 0, incarnation := 0, performed := false, waitingFill := false, acked := false, plain := false, result := [], tag := 0 }
/-- The same on an ORD page. -/
def Req.onOrd (r : Req) : Req := { r with ord := true, leaf := 63 }
/-- Requests and lines of a part with its dies in service, in an ordered launch or a free one. -/
def reqWorld (ordered : Bool) (rs : List Req) (ls : List Line) : State :=
  let s := sample .vector
  { s with
    reqs := rs, lines := ls, subject := 1
    dies := s.dies.map fun (d : Die) => { d with state := .live }
    launches := s.launches.map fun (l : Launch) => if ordered then { l with slot := { l.slot with low := { l.slot.low with w0 := l.slot.low.w0 ||| 512 } } } else l }
/-- The line of 0x20000, with every byte or being filled, its count at its last value. -/
def fullLine (full : Bool) : Line :=
  { Line.fresh 0x400 1 true with
    valid := if full then BitVec.allOnes 128 else 1, dirty := 1, data := [(0, 0x80)], count := 65535, filling := !full
    fillData := if full then [] else List.replicate 128 7 }

theorem atSlice_of {s : State} {r : Req}
    (h : (decide (s.req? s.subject = some r) && !r.performed && decide (r.hops = []) && s.homeLive r && !s.sliceGate r) = true) : s.atSlice r := by
  simp only [Bool.and_eq_true, Bool.not_eq_true', decide_eq_true_eq] at h
  exact ⟨h.1.1.1.1, h.1.1.1.2, h.1.1.2, h.1.2, h.2⟩

/-- Reads of the last byte a line has: beyond the endpoint, of known bytes, and of bytes a fill supplies. -/
theorem witness_reads (plain : Bool) (l1 : Bool) :
    let r : Req := { sliceReq .read (hostBase + 0x100) 8 with plain := plain }
    let q : Req := { sliceReq .read 0x20078 8 with plain := plain }
    let fill (s : State) := ((List.range q.size).map fun i => canonPa q.pa + i).any fun a => !s.byteAt q l1 a
    ((reqWorld false [r] []).atSlice r ∧ hostBase ≤ r.pa) ∧ q.pa < hostBase ∧
    ((reqWorld false [q] [fullLine true]).atSlice q ∧ fill (reqWorld false [q] [fullLine true]) = false) ∧
    ((reqWorld false [q] []).atSlice q ∧ fill (reqWorld false [q] []) = true) := by
  cases plain <;> cases l1 <;>
    exact ⟨⟨atSlice_of (by decide +kernel), by decide⟩, by decide, ⟨atSlice_of (by decide +kernel), by decide +kernel⟩, atSlice_of (by decide +kernel), by decide +kernel⟩

/-- Where a read finds a byte: a store, a sector copy, a write set, a base, or none of them; a line that is whole, or being filled. -/
def seenReq (plain ord : Bool) : Req := { sliceReq .read 0x2001F 1 with id := 5, plain := plain, ord := ord }
def seenStore : Req := { sliceReq .write 0x2001C 4 with id := 3 }
theorem witness_sees :
    ((reqWorld false [seenStore, seenReq true false] []).reqs.filter fun q => (q.kind = .write || q.kind = .zero) && !q.performed && q.core = 0 && decide (q.id < 5) && q.ord = false &&
      (!false || q.team = 0) && decide (canonPa q.pa ≤ 0x2001F) && decide (0x2001F < canonPa q.pa + q.data.length)).getLast? = some seenStore ∧
    (∃ x : L1Sector, let s : State := { reqWorld false [] [] with l1 := [x] }
      (s.l1.find? fun x => x.core = 0 && x.sector = 0x2001F / 32) = some x ∧ x.data.length = 32) ∧
    (∀ n : Fin 3, ∃ tm : Team, ∃ e : Nat × SetByte, let s := (reqWorld true [seenReq true true] []).modTeam 0 fun _ => tm
      s.teams[(seenReq true true).team]? = some tm ∧ s.l1 = [] ∧
      (if n = 0 then (tm.writeSet.find? fun e => e.1 = 0x2001F) = some e else tm.writeSet = []) ∧
      (if n = 1 then (tm.base.find? fun e => e.1 = 0x2001F) = some e else tm.base = [])) ∧
    (∀ full : Bool, (reqWorld false [] [fullLine full]).line? (0x2001F / 128) = some (fullLine full) ∧ (fullLine full).key ≠ 513) := by
  refine ⟨by decide +kernel, ⟨⟨0, 0x1000, List.replicate 32 9⟩, by decide +kernel, by decide +kernel⟩, fun n => ?_, fun full => ⟨by cases full <;> decide +kernel, by cases full <;> decide⟩⟩
  let t := worldTeam (reqWorld true [] []) rfl
  fin_cases n
  · exact ⟨{ t with writeSet := [(0x2001F, ⟨7, 0, 0⟩)] }, (0x2001F, ⟨7, 0, 0⟩), by decide +kernel⟩
  · exact ⟨{ t with base := [(0x2001F, ⟨7, 0, 0⟩)] }, (0x2001F, ⟨7, 0, 0⟩), by decide +kernel⟩
  · exact ⟨t, (0, ⟨0, 0, 0⟩), by decide +kernel⟩

/-- A plain load at its core whose bytes a store on its way holds, and one whose bytes the L1 holds. -/
theorem witness_core_answers (path : Bool) : ∃ r : Req,
    let s : State := if path then { reqWorld false [{ seenStore with hops := [.slice 0 2] }, r] [] with subject := 5 }
      else { reqWorld false [r] [] with subject := 5, l1 := [⟨0, 0x1000, List.replicate 32 9⟩] }
    s.req? s.subject = some r ∧ r.kind = .read ∧ r.plain = true ∧ r.pa < hostBase ∧ r.performed = false ∧ r.place = coreStop r.core ∧ r.hops ≠ [] ∧
    s.ownBefore r = false ∧ ∀ a ∈ (List.range r.size).map fun i => canonPa r.pa + i, s.coreByte r (!r.ord) a = true :=
  ⟨{ seenReq true false with hops := [.slice 0 2] }, by cases path <;> decide +kernel⟩

/-- Writes at the end of a line: to the line, with room for it, to a task's view, and beyond the endpoint. -/
theorem witness_writes (zero : Bool) :
    let k : ReqKind := if zero then .zero else .write
    let r := sliceReq k 0x2007C 4
    let o := r.onOrd
    let h := sliceReq k (hostBase + 4) 4
    ((reqWorld false [r] []).atSlice r ∧ (reqWorld false [r] []).toView r.team r.leaf = false ∧ (reqWorld false [r] []).roomAt (canonPa r.pa / 128) ∧
      ∀ l, (reqWorld false [r] []).line? (lineOf r.pa) = some l → l.key ≠ 513) ∧
    ((reqWorld true [o] []).atSlice o ∧ (reqWorld true [o] []).toView o.team o.leaf = true ∧
      o.team < (reqWorld true [o] []).teams.length) ∧
    (reqWorld false [h] []).atSlice h ∧ (r.pa < hostBase ∧ 0 < r.data.length ∧ r.pa % 128 + r.data.length ≤ 128 ∧ hostBase ≤ h.pa) := by
  cases zero <;> exact ⟨⟨atSlice_of (by decide +kernel), by decide +kernel, ⟨Or.inr (by decide +kernel), by decide +kernel⟩, fun _ h => nomatch h⟩,
    ⟨atSlice_of (by decide +kernel), by decide +kernel, by decide +kernel⟩, atSlice_of (by decide +kernel), by decide +kernel⟩

/-- Atomics of either size at the end of a line whose bytes the slice holds or a fill supplies, in a task's view, and beyond the
endpoint. -/
theorem witness_atomics (red wide full : Bool) :
    let k : ReqKind := if red then .red else .atomic
    let n := if wide then 8 else 4
    let r := sliceReq k (0x20080 - n) n
    let o := (sliceReq .atomic (0x20080 - n) n).onOrd
    let h := sliceReq k (hostBase + 8) n
    let s := reqWorld false [r] [fullLine full]
    let v := reqWorld true [o] (if full then [fullLine true] else [])
    let p := reqWorld false [h] []
    let fill (s : State) (r : Req) := (reqAddrs r).any fun x => !s.byteAt { r with plain := false } false x
    (s.atSlice r ∧ fill s r = !full ∧ s.toView r.team r.leaf = false ∧ ∀ l, s.line? (lineOf r.pa) = some l → l.key ≠ 513) ∧
    (v.atSlice o ∧ fill v o = !full ∧ v.toView o.team o.leaf = true ∧ o.team < v.teams.length ∧
      ∀ l, v.line? (lineOf o.pa) = some l → l.key ≠ 513) ∧
    p.atSlice h ∧ (0 < r.size ∧ r.pa % 128 + r.size ≤ 128 ∧ r.pa < hostBase ∧ hostBase ≤ h.pa) := by
  have w (full : Bool) (b : Bool) (rs : List Req) : ∀ l, (reqWorld b rs [fullLine full]).line? 0x400 = some l → l.key ≠ 513 := by
    intro l h
    rw [show (reqWorld b rs [fullLine full]).line? 0x400 = some (fullLine full) from rfl] at h
    cases h; cases full <;> decide
  cases red <;> cases wide <;> cases full <;> exact ⟨⟨atSlice_of (by decide +kernel), by decide +kernel, by decide +kernel, w _ _ _⟩,
    ⟨atSlice_of (by decide +kernel), by decide +kernel, by decide +kernel, by decide +kernel, by first | exact w _ _ _ | exact fun _ h => nomatch h⟩,
    atSlice_of (by decide +kernel), by decide +kernel⟩

/-- A reduction of an ordered launch on an ORD page, which is held. -/
theorem witness_held : let o := (sliceReq .red 0x20000 4).onOrd
    (reqWorld true [o] []).atSlice o ∧ (reqWorld true [o] []).toView o.team o.leaf = true ∧ o.pa < hostBase :=
  ⟨atSlice_of (by decide +kernel), by decide +kernel, by decide +kernel⟩

theorem witness_atomic_values : ∀ wide : Bool, (2 ^ (if wide then 64 else 32) - 1) < 2 ^ (if wide then 64 else 32) := by decide

/-- Prefetches of a line that is whole, and of none. -/
theorem witness_prefetches (full : Bool) : let r := sliceReq .pref 0x20000 32
    let s := reqWorld false [r] (if full then [fullLine true] else [])
    s.atSlice r ∧ s.needsFill r.pa 128 = !full ∧ s.roomAt (lineOf r.pa) := by
  cases full <;> exact ⟨atSlice_of (by decide +kernel), by decide +kernel, Or.inr (by decide +kernel), by decide +kernel⟩

/-- CLEAN and CLINV of a line that is whole, of one being filled, and of none. -/
theorem witness_cleans (inv full : Bool) :
    let r := sliceReq (if inv then .clinv else .clean) 0x20000 128
    let s := reqWorld false [r] [fullLine full]
    (s.atSlice r ∧ s.line? (lineOf r.pa) = some (fullLine full)) ∧ (reqWorld false [r] []).atSlice r ∧ (reqWorld false [r] []).line? (lineOf r.pa) = none := by
  cases inv <;> cases full <;> exact ⟨⟨atSlice_of (by decide +kernel), by decide +kernel⟩, atSlice_of (by decide +kernel), by decide +kernel⟩

/-- A fill for which a read and an atomic wait that took their places, and a request of another line that does not. -/
def waitingReq (k : ReqKind) (id : Nat) : Req := { sliceReq k 0x2007C 4 with id := id, performed := true, waitingFill := true, result := [1, 2, 3, 4] }
theorem witness_fills :
    let s : State := { reqWorld false [waitingReq .read 1, waitingReq .atomic 2, { sliceReq .read 0x20080 1 with id := 3 }] [fullLine false, { fullLine true with addr := 0x401 }] with subject := 0x400 }
    let waits (r : Req) : Prop := r.waitingFill = true ∧ lineOf r.pa = (fullLine false).addr
    s.line? s.subject = some (fullLine false) ∧ (fullLine false).filling = true ∧ (s.reqs.Pairwise fun p q => p.id ≠ q.id) ∧
      waits (waitingReq .read 1) ∧ waits (waitingReq .atomic 2) ∧ ¬ waits (sliceReq .read 0x20080 1) ∧
      (s.lines.filter fun x => sameSlice x.addr (fullLine false).addr).length ≤ 16384 :=
  by decide +kernel

/-- A request on its way to a router that sleeps, wakes, or is awake, after a number of failed sends. -/
def movingReq (sends : Nat) : Req := { sliceReq .read 0x20000 4 with hops := [.slice 0 3, .slice 0 2], sends := sends }
def flitWorld (asleep waking : List Nat) (sends : Nat) : State := (reqWorld false [movingReq sends] []).modDie 0 fun d => { d with asleep := asleep, waking := waking }
theorem witness_flits : ∀ sends ∈ [0, 2, 3], 
    ((flitWorld [67] [] sends).routerAsleep (.slice 0 3) = true) ∧
    ((flitWorld [] [67] sends).routerAsleep (.slice 0 3) = false ∧ (flitWorld [] [67] sends).routerWaking (.slice 0 3) = true) ∧
    ((flitWorld [66] [] sends).routerAsleep (.slice 0 3) = false ∧ (flitWorld [66] [] sends).routerWaking (.slice 0 3) = false ∧
      (flitWorld [66] [] sends).flowWaits (movingReq sends) = false ∧
      (flitWorld [66] [] sends).stationFull (movingReq sends) (.slice 0 3) [.slice 0 2] = false) ∧
    (flitWorld [66] [] sends).coreGate (movingReq sends) = false ∧ (flitWorld [66] [] sends).req? (movingReq sends).id = some (movingReq sends) ∧ (movingReq sends).hops = .slice 0 3 :: [.slice 0 2] ∧
    (sends < 3 ∨ 3 ≤ (movingReq sends).sends) := by decide +kernel
theorem witness_flit_hop : ∀ d p, RingStop.slice 0 3 ≠ .edge d p := by intro d p h; cases h
/-- Two flits of one flow, the later behind the earlier. -/
theorem witness_flows : let q : Req := { movingReq 0 with place := .slice 0 4 }; let r : Req := { movingReq 0 with id := 2, order := 2, place := .slice 0 4 }
    let s : State := { reqWorld false [q, r] [] with subject := 2 }
    s.req? r.id = some r ∧ r.hops = .slice 0 3 :: [.slice 0 2] ∧ q ∈ s.reqs ∧ r.atCore = false ∧ q.atCore = false ∧ q.order < r.order ∧ q.performed = r.performed ∧ q.core = r.core ∧
    q.waitingFill = false ∧ q.hops ≠ [] ∧ s.homeStop q.core q.pa = s.homeStop r.core r.pa ∧ s.reqClassA q = s.reqClassA r ∧
    r.hops.length ≤ q.hops.length ∧ s.routerAsleep (.slice 0 3) = false ∧ s.flowWaits r = true ∧ s.subject = r.id := by decide +kernel
theorem stationShares_le : ∀ (es : List Nat) (left i : Nat), (stationShares es left).getD i 4 ≤ 4 + left
  | [], _, _ => Nat.le_add_right _ _
  | e :: _, left, 0 => Nat.add_le_add_left (Nat.min_le_right e left) 4
  | _ :: r, left, i + 1 => Nat.le_trans (stationShares_le r _ i) (Nat.add_le_add_left (Nat.sub_le _ _) 4)
theorem stationFull_of {s : State} {r : Req} {h : RingStop} {rest : List RingStop} (hc : crosses h rest = true)
    (hf : 44 ≤ (s.reqs.filter fun x => x.place = h && x.performed = r.performed && crosses x.place x.hops && x.dated = (r.reach h rest).dated &&
      s.reqClassA x = s.reqClassA r).length) : s.stationFull r h rest = true := by
  simp only [State.stationFull, hc, Bool.true_and, decide_eq_true_eq]
  exact Nat.le_trans (stationShares_le _ 40 _) hf
/-- A station without room: it holds 64 flits that go on to another quadrant. -/
theorem witness_station : let r : Req := { movingReq 0 with hops := [.station 0 0 0, .station 0 0 1] }
    let w : Req := { sliceReq .read 0x20000 4 with place := .station 0 0 0, hops := [.station 0 0 1] }
    let s := reqWorld false (r :: (List.range 64).map fun i => { w with id := 10 + i, order := 10 + i }) []
    s.req? r.id = some r ∧ s.routerAsleep (.station 0 0 0) = false ∧ s.stationFull r (.station 0 0 0) [.station 0 0 1] = true :=
  ⟨by decide +kernel, by decide +kernel, stationFull_of (by decide +kernel) (by decide +kernel)⟩

/-- A request that enters die 1 from die 0, and a response that enters die 0 from die 1, of this incarnation or of an older one; the
die in service, or in reset. -/
def edgeReq (back : Bool) (inc : BitVec 4) : Req :=
  { sliceReq .read (if back then 0x20000 else dieBytes) 4 with hops := [.edge (if back then 0 else 1) 2, .slice 1 0], performed := back, incarnation := inc }
theorem witness_edges (back live : Bool) : ∃ die, 
    let world (i : BitVec 4) : State := let s := reqWorld false [edgeReq back i] []; { s with dies := s.dies.map fun (d : Die) => { d with state := if live then .live else .inReset } }
    let s := world 0; let t := world 15
    let d := if back then 0 else 1
    let current (r : Req) := if r.performed then (if d = r.core / 48 then die.inc else r.incarnation) else die.incTable.getD (r.core / 48) 0
    s.req? s.subject = some (edgeReq back 0) ∧ (edgeReq back 0).hops = .edge d 2 :: [.slice 1 0] ∧ s.dies[d]? = some die ∧ s.flowWaits (edgeReq back 0) = false ∧
    s.routerAsleep (.edge d 2) = false ∧ s.routerWaking (.edge d 2) = false ∧ (edgeReq back 0).incarnation = current (edgeReq back 0) ∧ (die.state = .live ↔ live = true) ∧
    t.req? t.subject = some (edgeReq back 15) ∧ t.dies[d]? = some die ∧ t.flowWaits (edgeReq back 15) = false ∧
    (edgeReq back 15).incarnation ≠ current (edgeReq back 15) := by
  cases back <;> cases live <;> exact ⟨_, by decide +kernel, rfl, rfl, by decide +kernel, by decide +kernel, by decide +kernel, by decide +kernel, by decide +kernel, by decide +kernel, rfl,
    by decide +kernel, by decide +kernel⟩

theorem witness_edge_sleeps (waking : Bool) :
    let s := (reqWorld false [edgeReq false 0] []).modDie 1 fun d => if waking then { d with waking := [routerOf (.edge 1 2)] } else { d with asleep := [routerOf (.edge 1 2)] }
    s.req? s.subject = some (edgeReq false 0) ∧ (s.routerAsleep (.edge 1 2) = !waking) ∧ (s.routerWaking (.edge 1 2) = waking) := by
  cases waking <;> decide +kernel

/-- The router of slice 3 with a flit on its way, and the router of slice 31 with none; a walk of a page; an acknowledgement. -/
theorem witness_network : ∃ d, let s := flitWorld [] [] 0
    let r : Req := { sliceReq .write 0x20000 4 with performed := true }
    (∃ r ∈ s.reqs, (67 / 256, 67) ∈ nextRouters r) ∧ (∀ r ∈ s.reqs, (95 / 256, 95) ∉ nextRouters r) ∧
    (s.dies[0]? = some d ∧ d.state = .live ∧ s.translate 0 0 0x20000 = .ok 0x20000 31 0 (2 ^ 30)) ∧
    ((reqWorld false [r] []).req? (reqWorld false [r] []).subject = some r ∧ r.performed = true ∧ r.waitingFill = false ∧ r.hops = [] ∧ isWrite r.kind = true) := 
  ⟨_, by decide +kernel, by decide +kernel, ⟨rfl, by decide +kernel, by decide +kernel⟩, by decide +kernel⟩

/-- A handler object of one code word and one resource record, and a handler table with an entry of a kind for the last cause. -/
def objectHeader : Nat := 0x304F5A4B + 2 * 2 ^ 32 + 2 ^ 64 + 128 * 2 ^ 96 + 8 * 2 ^ 128 + 256 * 2 ^ 224 + 64 * 2 ^ 288
def freshStop : Stop := ⟨0, 0, 0x0B⟩
def stoppedGroup : Group := { parkedGroup with ssw0 := 0x0B }
def deliveryWorld (kind : Nat) (object : Bool) : State :=
  let s := sampleWorld [stoppedGroup]
  { s.modCluster 0 (fun c => { c with stops := [freshStop] }) with
    subject := 0
    mem := if object then putBytes (putBytes s.mem (0x30000 + 8 * 0x0B) (bytesOfNat 8 (kind * 2 ^ 32 + 5))) 0x20000 (bytesOfNat 64 objectHeader)
      else putBytes s.mem (0x30000 + 8 * 0x0B) (bytesOfNat 8 (kind * 2 ^ 32 + 5))
    contexts := modAt s.contexts 0 fun (c : Context) => { c with htab := 0x30000, hobj := 0x20000 } }
theorem witness_delivery : ∃ cl o, let a := deliveryWorld 1 true; let b := deliveryWorld 2 true; let c := deliveryWorld 1 false
    let d : State := { a with contexts := modAt a.contexts 0 fun (c : Context) => { c with htab := 2 ^ 31 } }
    (∀ s ∈ [a, b, c, d], s.nextStop s.subject = some freshStop ∧ s.group? freshStop.team freshStop.grp = some stoppedGroup ∧ s.clusters[s.subject]? = some cl) ∧
    ((a.ctxRead 0 (0x30000 + 8 * freshStop.cause) 8).map natOfBytes = some (2 ^ 32 + 5) ∧ a.objectAt 0 0x20000 = some o) ∧
    ((b.ctxRead 0 (0x30000 + 8 * freshStop.cause) 8).map natOfBytes = some (2 * 2 ^ 32 + 5)) ∧
    ((c.ctxRead 0 (0x30000 + 8 * freshStop.cause) 8).map natOfBytes = some (2 ^ 32 + 5) ∧ c.objectAt 0 0x20000 = none) ∧
    d.ctxRead 0 (2 ^ 31 + 8 * freshStop.cause) 8 = none := by
  refine ⟨(deliveryWorld 1 true).clusters.headD Cluster.reset, ((deliveryWorld 1 true).objectAt 0 0x20000).getD ⟨[], [], 0, [], 0⟩, ?_⟩
  decide +kernel

/-- A team of the context that ends, and a team of another. -/
theorem witness_ends : ∃ tm l, (sample .vector).teams[0]? = some tm ∧ (sample .vector).launches[tm.launch]? = some l ∧ l.ctx = 0 ∧ l.ctx ≠ 63 ∧
    (l.state = .waiting ∨ l.state = .running) ∧ tm.ended = none := ⟨_, _, rfl, rfl, rfl, by decide +kernel, .inr rfl, rfl⟩

/-- Nine active groups of one team at a word of theirs: groups 0 and 8 share a partition, and group 8 has been passed over some times,
or has precedence. -/
def slotWorld (word : Word64) (passed : Nat) (ahead : Bool) : State :=
  let g : Group := { sampleGroup .matrix with seat := .active }
  let s := sampleWorld ((List.range 8).map (fun _ => g) ++ [{ g with passed := passed, precedence := ahead }])
  { s with launches := s.launches.map fun (l : Launch) => { l with code := [0, word] } }
theorem witness_starving : ∃ tm x, (8, tm, x) ∈ ((slotWorld (0x80 * 2 ^ 54) 3 false).mReadyOf 0 0).map (fun p => (p.2.1, p.2.2.1, p.2.2.2)) ∧
    3 ≤ x.passed ∧ x.role ≠ .control := by
  let s := slotWorld (0x80 * 2 ^ 54) 3 false
  exact ⟨worldTeam s rfl, { sampleGroup .matrix with seat := .active, passed := 3 }, by decide +kernel, by decide, by decide⟩
theorem witness_slots (m : Bool) (n : Fin 3) : ∃ tm g,
    let s := slotWorld (if m then 0x80 * 2 ^ 54 else 0x40 * 2 ^ 54) (if n = 1 then 3 else 2) (decide (n = 2))
    s.teams[0]? = some tm ∧ s.group? 0 0 = some g ∧ (nextBits (s.codeOf (.group 0 0)).1 g).any inMSlot = m ∧
    s.pairNext 0 0 = false ∧ s.outranked 0 0 = (m && decide (n ≠ 0)) := by
  cases m <;> fin_cases n <;> exact ⟨_, _, rfl, rfl, by decide +kernel, by decide +kernel, by decide +kernel⟩
/-- A group at a P word, which fills both slots. -/
theorem witness_pair_slots : ∃ tm g, let s := slotWorld (1 * 2 ^ 62) 0 false
    s.teams[0]? = some tm ∧ s.group? 0 0 = some g ∧ s.pairNext 0 0 = true ∧ ∃ p r, s.slotChoices 0 0 = p :: r ∧ s.pairNext p.1 p.2 = true :=
  ⟨_, _, rfl, rfl, by decide +kernel, (0, 0), [], by decide +kernel, by decide +kernel⟩

/-! ### Teams, dies, errors, boot, the bellows -/

/-- A part whose dies live, under a changed launch; every page and register as in the sample. -/
def liveWorld (f : Launch → Launch) (c : Cluster → Cluster) : State :=
  let s := sample .vector
  { s with dies := s.dies.map fun (d : Die) => { d with state := .live }, launches := s.launches.map f, clusters := modAt s.clusters 0 c, subject := 0 }
def slotWith (w0 w3 w7 : Word64) (l : Launch) : Launch :=
  { l with slot := { l.slot with low := { l.slot.low with w0 := w0, w3 := w3, w7 := w7 } } }

/-- Which cores serve on a part whose fuses retire none; the manual leaves to each part which are retired. -/
theorem serves_of {s : State} {c : Nat} {a : Bool} (h : ∀ d c, Config.clusterRetired d c = false) :
    s.clusterServes c a = (((s.dies[c / 6]?).any fun d => d.state = .live) && decide (s.regs.classa.getLsbD c = a)) := by
  simp [State.clusterServes, h]
theorem cores_of {s : State} {c : Nat} {l : Launch} {k : Kernel} (h : ∀ d c, Config.clusterRetired d c = false) (h' : ∀ d c k, Config.coreRetired d c k = false) :
    s.coresFor c l k = ((List.range 8).map (8 * c + ·)).filter fun x =>
      (((s.dies[x / 8 / 6]?).any fun d => d.state = .live) && decide (s.regs.classa.getLsbD (x / 8) = l.classA)) && (s.offsetFor x k).isSome := by
  simp only [State.coresFor, State.coreServes, serves_of h, h', Bool.not_false, Bool.and_true]
theorem room_of {s : State} {c : Nat} (h : ∀ d c, Config.clusterRetired d c = false) (h' : ∀ d c k, Config.coreRetired d c k = false) :
    s.roomOn c = (List.range 8).any fun i => (((s.dies[(8 * c + i) / 8 / 6]?).any fun d => d.state = .live) &&
      decide (s.regs.classa.getLsbD ((8 * c + i) / 8) = s.regs.classa.getLsbD c)) && (s.coreTeams (8 * c + i)).length < 8 := by
  simp only [State.roomOn, State.coreServes, serves_of h, h', Bool.not_false, Bool.and_true]
theorem moves_of {s : State} (h : ∀ d c, Config.clusterRetired d c = false) (h' : ∀ d c k, Config.coreRetired d c k = false) :
    s.mayMove = fun c n => (s.launches[n]?).any fun l => !l.ordered && (((s.dies[c / 6]?).any fun d => d.state = .live) && decide (s.regs.classa.getLsbD c = l.classA)) &&
      (if l.isTask then (List.range 8).any fun i => (((s.dies[(8 * c + i) / 8 / 6]?).any fun d => d.state = .live) &&
          decide (s.regs.classa.getLsbD ((8 * c + i) / 8) = s.regs.classa.getLsbD c)) && (s.coreTeams (8 * c + i)).length < 8
        else decide ((((List.range 8).map (8 * c + ·)).filter fun x =>
      (((s.dies[x / 8 / 6]?).any fun d => d.state = .live) && decide (s.regs.classa.getLsbD (x / 8) = l.classA)) && (s.offsetFor x l.kernel).isSome) ≠ [])) := by
  funext c n
  unfold State.mayMove; cases s.launches[n]? <;> simp [serves_of h, cores_of h h', room_of h h']

theorem witness_groups : ∃ k : Kernel, 31 < (k.threads + 31) / 32 ∧ 3 < (k.threads + 31) / 32 ∧ k.threads = 993 :=
  ⟨{ placedKernel false with threads := 993, cgrp := 1, mgrp := 1, vgrp := 1 }, by decide⟩

/-- A share whose last cluster-team starts, on a part with no retired core. -/
theorem witness_stokers (h : ∀ d c, Config.clusterRetired d c = false) (h' : ∀ d c k, Config.coreRetired d c k = false) : ∃ cl l,
    let s := liveWorld id fun c => { c with shares := [⟨0, 0, 1⟩, ⟨0, 3, 5⟩] }
    s.clusters[s.subject]? = some cl ∧ cl.shares = ⟨0, 0, 1⟩ :: [⟨0, 3, 5⟩] ∧ s.launches[0]? = some l ∧ l.state = .running ∧
    (∀ x ∈ [(⟨0, 3, 5⟩ : Share)], x ≠ ⟨0, 0, 1⟩ ∧ (x.launch = 0 → 0 ≤ x.next)) ∧ l.isTask = false ∧ min l.cts (l.teamCount - 0 * l.cts) = 1 ∧
    1 ≤ (s.coresFor s.subject l l.kernel).length ∧ s.barriersUsed s.subject 0 0 + l.cbar ≤ 16 := by
  refine ⟨_, _, rfl, rfl, rfl, rfl, by decide, by decide +kernel, by decide +kernel, ?_, by decide +kernel⟩
  rw [cores_of h h']; decide +kernel

/-- An array billet that is good, one that names a kernel its object does not have, and one that cannot be read. -/
def arrayWorld (n : Nat) : State :=
  liveWorld (slotWith 257 (2 + 2 ^ 24 + 2 ^ 36 + 2 ^ 48) (if n = 2 then 2 ^ 31 else if n = 1 then 0xFFC0 else 0x40000)) fun c => { c with shares := [⟨0, 1, 2⟩] }
theorem none_with {α : Type} {o : Option α} {p : α → Bool} (h : (o.all fun x => !p x) = true) : ¬ ∃ x, o = some x ∧ p x = true := by
  rintro ⟨x, rfl, hp⟩; simp [hp] at h
theorem witness_array (n : Fin 3) : ∃ cl l, let s := arrayWorld n
    s.clusters[s.subject]? = some cl ∧ cl.shares = [⟨0, 1, 2⟩] ∧ s.launches[0]? = some l ∧ l.state = .running ∧ l.isTask = true ∧ s.queueRoom s.subject = true ∧
    ((∃ bs, s.arrayBillet l 1 = some bs ∧ decide (billetDetails l.kernels l.ordered (natOfBytes bs) = []) = true) ↔ n = 0) := by
  refine ⟨(arrayWorld n).clusters.headD Cluster.reset, ((arrayWorld n).launches.head?).getD (placedLaunch (placedKernel false) []), ?_⟩
  fin_cases n
  · exact ⟨by decide +kernel, by decide +kernel, by decide +kernel, by decide +kernel, by decide +kernel, by decide +kernel, fun _ => rfl,
      fun _ => ⟨List.replicate 64 0, by decide +kernel, by decide +kernel⟩⟩
  all_goals exact ⟨by decide +kernel, by decide +kernel, by decide +kernel, by decide +kernel, by decide +kernel, by decide +kernel,
    fun h => absurd h (none_with (by decide +kernel)), by simp⟩

/-- The second team of an ordered launch, where every logical core is core 0 of a part with no retired cluster. -/
theorem witness_grids (h : ∀ d c, Config.clusterRetired d c = false) : ∃ cl l,
    let s : State := { liveWorld (slotWith 513 (2 + 2 ^ 24 + 2 ^ 36 + 2 ^ 48) 0) id with remap := List.replicate 144 0 }
    s.clusters[s.subject]? = some cl ∧ cl.shares = [] ∧ s.launches = [l] ∧ l.state = .running ∧ l.ordered = true ∧ l.isTask = false ∧ l.cts = 1 ∧ l.cbar = 0 ∧
    s.clusterServes s.subject l.classA = true ∧ s.barriersUsed s.subject 0 1 ≤ 16 ∧ 1 < l.teamCount ∧ s.remapCore (1 % 144) / 8 = s.subject ∧
    s.taken 0 1 = false ∧ (∀ t, t < 1 → s.remapCore (t % 144) / 8 = s.subject → s.taken 0 t = true) ∧
    (∀ v, v < 1 → ((s.teamAt 0 v).bind fun i => s.teams[i]?).any (fun tm => tm.begun) = true) ∧ (s.offsetFor (s.remapCore (1 % 144)) l.kernel).isSome = true := by
  refine ⟨_, _, rfl, rfl, rfl, rfl, by decide +kernel, by decide +kernel, by decide +kernel, by decide +kernel, ?_, by decide +kernel⟩
  rw [serves_of h]; decide +kernel

/-- A billet that starts behind one that fits nowhere: of no kernel; or first in its queue, of a task kernel, on a part with no retired core. -/
def queuedBillet (kidx : Byte) : Billet := ⟨0, 0x500, 0, some 0, 0, 0, kidx :: List.replicate 63 0, false, [], 0⟩
theorem witness_billets : ∃ c l, let s : State := { liveWorld (slotWith 257 (1 + 2 ^ 24 + 2 ^ 36 + 2 ^ 48) 0) fun c => { c with billets := [queuedBillet 0, queuedBillet 1] } with
      dies := State.reset.dies }
    s.clusters[0]? = some c ∧ c.billets[1]? = some (queuedBillet 1) ∧ s.billetFits (queuedBillet 1) 7 = true ∧ s.launches[(queuedBillet 1).launch]? = some l ∧
    (∀ x ∈ c.billets.take 1, ∀ n, n < 8 → s.billetFits x (8 * 0 + n) = false) ∧ taskKernel l.kernels l.ordered (natOfBytes (queuedBillet 1).bytes) = none := by
  exact ⟨_, _, rfl, rfl, by decide +kernel, rfl, by decide +kernel, by decide +kernel⟩
theorem witness_billet_task (h : ∀ d c, Config.clusterRetired d c = false) (h' : ∀ d c k, Config.coreRetired d c k = false) : ∃ c l k,
    let s := liveWorld (slotWith 257 (1 + 2 ^ 24 + 2 ^ 36 + 2 ^ 48) 0) fun c => { c with billets := [queuedBillet 0] }
    s.clusters[0]? = some c ∧ c.billets[0]? = some (queuedBillet 0) ∧ s.billetFits (queuedBillet 0) 7 = true ∧ s.launches[(queuedBillet 0).launch]? = some l ∧
    taskKernel l.kernels l.ordered (natOfBytes (queuedBillet 0).bytes) = some k := by
  refine ⟨_, _, placedKernel false, rfl, rfl, ?_, rfl, by decide +kernel⟩
  have e : ∀ c a, (liveWorld (slotWith 257 (1 + 2 ^ 24 + 2 ^ 36 + 2 ^ 48) 0) fun c => { c with billets := [queuedBillet 0] }).coreServes c a =
      (((liveWorld (slotWith 257 (1 + 2 ^ 24 + 2 ^ 36 + 2 ^ 48) 0) fun c => { c with billets := [queuedBillet 0] }).dies[c / 8 / 6]?).any (fun d => d.state = .live) &&
      decide ((liveWorld (slotWith 257 (1 + 2 ^ 24 + 2 ^ 36 + 2 ^ 48) 0) fun c => { c with billets := [queuedBillet 0] }).regs.classa.getLsbD (c / 8) = a)) := by
    intro c a; simp only [State.coreServes, serves_of h, h', Bool.not_false, Bool.and_true]
  simp only [State.billetFits, e]; decide +kernel

/-- A task that stages one row of one tile, which can be read or not; overflowed billets and a queue with room, or full. -/
def tileBillet (addr : Nat) : List Byte := bytesOfNat 64 (2 ^ 24 + (addr + 32 * 2 ^ 64 + 32 * 2 ^ 80) * 2 ^ 128)
def stagingWorld (addr : Nat) (ls : List Line) : State :=
  ({ liveWorld id id with lines := ls } : State).modTeam 0 fun t => { t with residency := .staging, billet := tileBillet addr }
def rowBad (s : State) (r : Nat × Nat × Nat) : Bool := decide (2 ^ 48 < r.1 + r.2.2) || (s.extentVerdict 0 0 needR r.1 r.2.2).isSome
theorem witness_staging (bad filled : Bool) : ∃ t,
    let s := stagingWorld (if bad then 2 ^ 48 - 32 else 0x20000) (if filled then [{ Line.fresh 0x400 1 true with valid := BitVec.allOnes 128 }] else [])
    s.teams[s.subject]? = some t ∧ t.residency = .staging ∧ (s.dies[t.core / 48]?).map Die.state = some .live ∧ t.core / 48 = 0 ∧ s.ctxOf (.group s.subject 0) = 0 ∧ (stageRows t.billet).length = 1 ∧
    (if bad then ∃ r ∈ stageRows t.billet, rowBad s r = true else ∀ r ∈ stageRows t.billet, rowBad s r = false) ∧
    (bad = false → s.anyDown (s.translate 0 0) ((stageRows t.billet).map fun r => (r.1, r.2.2)) = false ∧
      (s.lackFills (s.translate 0 0) s.subject ((stageRows t.billet).map fun r => (r.1, r.2.2)) = [] ↔ filled = true)) := by
  cases bad <;> cases filled <;> exact ⟨_, rfl, rfl, by decide +kernel⟩
/-- A task whose bytes are homed on a die held in reset. -/
theorem witness_staging_waits : ∃ t, let s := (stagingWorld 0x20000 []).modDie 0 fun d => { d with state := .inReset }
    s.anyDown (s.translate 1 0) ((stageRows t).map fun r => (r.1, r.2.2)) = true := ⟨tileBillet 0x20000, by decide +kernel⟩
theorem witness_overflow (room : Bool) : ∃ c, let s := liveWorld id fun c => { c with overflow := [sampleBillet], billets := List.replicate (if room then 255 else 256) sampleBillet }
    s.clusters[s.subject]? = some c ∧ c.overflow = sampleBillet :: [] ∧ s.queueRoom s.subject = room := by
  cases room <;> exact ⟨_, rfl, rfl, by decide +kernel⟩

/-- An idle cluster 0 beside a sibling, or a cluster of another die, with two indices left, or beside none; beside a cluster with billets, or none. -/
def stealWorld (v : Nat) (ss : List Share) (bs : List Billet) : State :=
  let s := liveWorld id id
  { s with clusters := modAt s.clusters v fun c => { c with shares := ss, billets := bs } }
theorem ships_of {s : State} (h : ∀ d c, Config.clusterRetired d c = false) (h' : ∀ d c k, Config.coreRetired d c k = false) :
    s.mayShip = fun c b => s.mayMove c b.launch && (s.billetKernel b).all fun k => decide ((((List.range 8).map (8 * c + ·)).filter fun x =>
      (((s.dies[x / 8 / 6]?).any fun d => d.state = .live) && decide (s.regs.classa.getLsbD (x / 8) = k.1.classA)) && (s.offsetFor x k.2).isSome) ≠ []) := by
  funext c b; simp only [State.mayShip, cores_of h h']
theorem movableOf_eq (s : State) (me : Nat) :
    s.movableOf me = fun c => ((s.clusters[c]?).map fun x => sharesLeft (x.shares.filter fun y => s.mayMove me y.launch)).getD 0 := rfl
theorem movableOn_eq (s : State) (me : Nat) : s.movableOn me = fun d => ((dieClusters d).map (s.movableOf me)).sum := rfl
def siblings : List Nat := dieClusters (0 / 6)
def otherDies : List Nat := (List.range 3).filter fun d => d ≠ 0 / 6
def nextAround : List Nat := (List.range 5).map fun i => 6 * (0 / 6) + (0 % 6 + 1 + i) % 6
theorem witness_steals (h : ∀ d c, Config.clusterRetired d c = false) (h' : ∀ d c k, Config.coreRetired d c k = false) :
    (let s := stealWorld 5 [⟨0, 3, 5⟩] []; s.idleCluster 0 = true ∧ richest (s.movableOf 0) siblings = some 5) ∧
    (let s := stealWorld 17 [⟨0, 3, 5⟩] []; s.idleCluster 0 = true ∧ richest (s.movableOf 0) siblings = none ∧ richest (s.movableOn 0) otherDies = some 2) ∧
    (let s := stealWorld 5 [] [sampleBillet, { sampleBillet with tidx := 1 }]; s.idleCluster 0 = true ∧ richest (s.movableOf 0) siblings = none ∧
      nextAround.find? (fun x => (s.clusters[x]?).any fun k => k.billets.any (s.mayShip 0)) = some 5) := by
  refine ⟨⟨?_, ?_⟩, ⟨?_, ?_, ?_⟩, ?_, ?_, ?_⟩
  all_goals simp only [State.idleCluster, room_of h h', movableOn_eq, movableOf_eq, ships_of h h', moves_of h h']; decide +kernel
theorem witness_no_steal (h : ∀ d c, Config.clusterRetired d c = false) (h' : ∀ d c k, Config.coreRetired d c k = false) : let s := stealWorld 5 [] []
    s.idleCluster 0 = true ∧ richest (s.movableOf 0) siblings = none ∧ richest (s.movableOn 0) otherDies = none ∧
    nextAround.find? (fun x => (s.clusters[x]?).any fun k => k.billets.any (s.mayShip 0)) = none := by
  refine ⟨?_, ?_, ?_, ?_⟩
  all_goals simp only [State.idleCluster, room_of h h', movableOn_eq, movableOf_eq, ships_of h h', moves_of h h']; decide +kernel

/-- A team that drains, is flushed, or is saved. -/
def leaveWorld (m : PreemptMode) : State :=
  let s := (liveWorld id id).modTeam 0 fun t => { t with estimate := if m = .drain then some 0 else some (2 ^ 30), kernel := { t.kernel with idem := m = .flush } }
  { s with contexts := s.contexts.map fun (c : Context) => { c with saveSz := 4096 } }
theorem witness_preempts (m : PreemptMode) (h : m ≠ .none ∧ m ≠ .turn) : ∃ tm l, let s := leaveWorld m
    s.teams[0]? = some tm ∧ s.launches[tm.launch]? = some l ∧ l.queue = s.subject ∧ tm.residency = .resident ∧ tm.preempt = .none ∧ preemptWay s 0 = m := by
  cases m
  case none => exact absurd rfl h.1
  case turn => exact absurd rfl h.2
  all_goals exact ⟨_, _, rfl, rfl, rfl, rfl, rfl, by decide +kernel⟩
/-- A team that leaves its core, to be flushed or saved, with an operation that holds it, or with none. -/
def leavingWorld (flush busy : Bool) : State :=
  let s := (leaveWorld .save).modTeam 0 fun t => { t with residency := .saving, preempt := if flush then .flush else .save }
  { s with ops := if busy then [anOp 4 .tgms .none] else [] }
theorem witness_leaves (flush busy : Bool) : ∃ t, let s := leavingWorld flush busy
    s.teams[s.subject]? = some t ∧ t.residency = .saving ∧ (t.preempt = .flush ↔ flush = true) ∧ (t.preempt ≠ .flush ↔ flush = false) ∧
    s.saveBlocked s.subject = busy ∧ s.flushBlocked s.subject = busy ∧ (∃ g, t.groups[0]? = some g ∧ g.run = .running) := by
  cases flush <;> cases busy <;> exact ⟨_, rfl, rfl, by decide +kernel, by decide +kernel, by decide +kernel, by decide +kernel, _, rfl, rfl⟩

/-- A switched-out team of an ordered launch, and of a free one, on a part with no retired core. -/
def backWorld (ordered flush : Bool) : State :=
  let s := (liveWorld (if ordered then slotWith 513 (1 + 2 ^ 24 + 2 ^ 36 + 2 ^ 48) 0 else id) id).modTeam 0 fun t => { t with residency := .switchedOut, preempt := if flush then .flush else .save }
  { s with remap := List.replicate 144 0 }
def backCore (ordered flush : Bool) : Nat := if ordered then 0 else if flush then 143 else 47
theorem witness_returns (ordered flush : Bool) (h : ∀ d c, Config.clusterRetired d c = false) (h' : ∀ d c k, Config.coreRetired d c k = false) : ∃ tm l,
    let s := backWorld ordered flush; let core := backCore ordered flush
    s.teams[0]? = some tm ∧ s.launchOf 0 = some l ∧ l.state = .running ∧ l.ordered = ordered ∧ mayReturn tm = true ∧ l.coop = false ∧ (tm.preempt ≠ .flush → core / 48 = tm.core / 48) ∧
    (tm.parent = none → s.barriersUsed (core / 8) tm.launch tm.cteam + l.cbar ≤ 16) ∧
    s.returnSet 0 = [0] ∧ s.returnPlan 0 core l [0] = [(0, core)] ∧ (∀ p ∈ [(0, core)], s.returnFits p.1 p.2 = true) := by
  have e : ∀ c a, (backWorld ordered flush).coreServes c a = (((backWorld ordered flush).dies[c / 8 / 6]?).any (fun d => d.state = .live) &&
      decide ((backWorld ordered flush).regs.classa.getLsbD (c / 8) = a)) := by
    intro c a; simp only [State.coreServes, serves_of h, h', Bool.not_false, Bool.and_true]
  have f : (backWorld ordered flush).returnFits 0 (backCore ordered flush) = true := by
    simp only [State.returnFits, e]; cases ordered <;> cases flush <;> decide +kernel
  cases ordered <;> cases flush <;> exact ⟨_, _, rfl, rfl, rfl, by decide +kernel, by decide +kernel, by decide +kernel, by decide +kernel, by decide +kernel, by decide +kernel,
    by decide +kernel, by simpa using f⟩

/-- A resident team of a queue; one that leaves with nothing outstanding; one that has left and may come back. -/
theorem witness_teams_move (m : PreemptMode) (hm : m ≠ .none) (flush : Bool) (h : ∀ d c, Config.clusterRetired d c = false) (h' : ∀ d c k, Config.coreRetired d c k = false) :
    (∃ tm l, let s := leaveWorld m
      s.teams[0]? = some tm ∧ s.launches[tm.launch]? = some l ∧ s.subject = l.queue ∧ tm.residency = .resident ∧ tm.preempt = .none) ∧
    (∃ tm l, let s := leavingWorld flush false
      s.teams[0]? = some tm ∧ s.launches[tm.launch]? = some l ∧ s.subject = 0 ∧ tm.residency = .saving ∧ s.ops = [] ∧ s.reqs = []) ∧
    ∃ tm l, let s := backWorld false flush; let core := backCore false flush
      s.teams[0]? = some tm ∧ s.launches[tm.launch]? = some l ∧ mayReturn tm = true ∧ l.state = .running ∧ l.ordered = false ∧ l.coop = false ∧
      s.clusterTeam 0 = [0] ∧ (tm.parent = none → s.barriersUsed (core / 8) tm.launch tm.cteam + l.cbar ≤ 16) ∧ tm.ranges = [] ∧ tm.begun = true ∧ (tm.preempt ≠ .flush → core / 48 = tm.core / 48) ∧
      s.subs = [] ∧ s.reqs = [] ∧ s.coreServes core l.classA = true ∧ (s.offsetFor core tm.kernel).isSome = true ∧ s.coreRecords core ≤ 32 ∧
      s.subsOnCore core ≤ 16 ∧ (s.publications core).length ≤ 8 := by
  refine ⟨?_, ?_, ?_⟩
  · cases m
    · exact absurd rfl hm
    all_goals exact ⟨_, _, rfl, rfl, rfl, rfl, rfl⟩
  · cases flush <;> exact ⟨_, _, rfl, rfl, rfl, rfl, rfl, rfl⟩
  · cases flush <;> refine ⟨_, _, rfl, rfl, by decide +kernel, by decide +kernel, by decide +kernel, by decide +kernel, by decide +kernel, by decide +kernel,
      by decide +kernel, rfl, by decide +kernel, rfl, rfl, ?_, by decide +kernel⟩ <;>
      (simp only [State.coreServes, serves_of h, h', Bool.not_false, Bool.and_true]; decide +kernel)

theorem witness_die : ∃ die, State.reset.dies[2]? = some die ∧ 2 < die.incTable.length := ⟨_, rfl, by decide⟩

/-- A link between C dies or to the host after no failed send, fourteen and fifteen; a die that lives, and one held in reset with no
request outstanding; a part that has booted, and one that has not. -/
theorem witness_errors : (∀ link ∈ [0, 5, 6, 7], ∀ n ∈ [0, 14, 15], ∃ die,
      let s := (liveWorld id id).modDie (linkDie 1 link) fun d => { d with linkFails := Cells.put 0 d.linkFails link n }
      s.dies[linkDie 1 link]? = some die ∧ die.state = .live ∧ Cells.get 0 die.linkFails link = n) ∧
    (∃ d, State.reset.dies[linkDie 1 0]? = some d ∧ d.state ≠ .live) ∧ (∃ d, (liveWorld id id).dies[(liveWorld id id).subject]? = some d ∧ d.state = .live) ∧
    (∃ d, let s := (liveWorld id id).modDie 0 fun d => { d with state := .inReset }
      s.dies[s.subject]? = some d ∧ d.state = .inReset ∧ s.reqs = []) ∧
    ∀ b : Bool, ({ liveWorld id id with tdie := { State.reset.tdie with done := b } } : State).tdie.done = b := by
  refine ⟨fun k hk n hn => ?_, ⟨_, rfl, by decide⟩, ⟨_, rfl, rfl⟩, ⟨_, rfl, rfl, rfl⟩, fun _ => rfl⟩
  simp only [List.mem_cons, List.not_mem_nil, or_false] at hk hn
  rcases hk with rfl | rfl | rfl | rfl <;> rcases hn with rfl | rfl | rfl <;> exact ⟨_, rfl, rfl, by decide +kernel⟩

/-- A context with an undo record of its open interval; on a part that has not lost it; and one that is unprotected, or past the bound. -/
def undoWorld (f : Context → Context) : State :=
  let s := (liveWorld id id).modDie 1 fun d => { d with undoLog := [⟨0x400, 0, 0, List.replicate 128 0x5A, 1⟩] }
  { s with contexts := modAt s.contexts 0 f }
theorem witness_rolls (h : Config.undoLost ((undoWorld id).fresh + 0) = false) : ∃ c, let s := undoWorld id
    s.contexts[0]? = some c ∧ c.created = true ∧ s.rollbackSet 64 [0] = [0] ∧ c.unprotected = false ∧ c.attempts < s.regs.rbmax.toNat ∧
    Config.undoLost (s.fresh + 0) = false ∧ (s.openUndo 0).length = 1 ∧ ((s.openUndo 0).map UndoRec.line).Nodup ∧ (∀ r ∈ s.openUndo 0, r.data.length = 128) ∧
    (∃ l ∈ s.launches, l.ctx = 0 ∧ (l.state = .waiting ∨ l.state = .running)) ∧ ∀ r ∈ s.openUndo 0, 0x20080 / 128 ≠ r.line :=
  ⟨_, rfl, rfl, by decide +kernel, rfl, by decide +kernel, h, by decide +kernel⟩
theorem witness_unprotected (bound : Bool) : ∃ c, let s := undoWorld fun c => if bound then { c with attempts := 3 } else { c with unprotected := true }
    s.contexts[0]? = some c ∧ c.created = true ∧ s.rollbackSet 64 [0] = [0] ∧ (if bound then s.regs.rbmax.toNat ≤ c.attempts else c.unprotected = true) := by
  cases bound <;> exact ⟨_, rfl, rfl, by decide +kernel, by decide +kernel⟩

/-- An interval whose period has passed, one short of it, and one whose close is due; an entry to be signed. -/
theorem witness_intervals (due : Bool) : ∃ c, let s : State := { undoWorld (fun c => { c with closeDue := due, opened := 5 }) with
      timer := if due then 100005 else 100004, signDue := [(1023, 0)], launches := [] }
    s.contexts[s.subject]? = some c ∧ c.created = true ∧ (if due then c.opened + 100000 * s.regs.ckptiv.toNat ≤ s.timer.toNat ∧ c.closeDue = true
      else s.timer.toNat < c.opened + 100000 * s.regs.ckptiv.toNat) ∧ c.replay = [] ∧ s.launches = [] ∧ s.signDue = (1023, 0) :: [] := by
  cases due <;> exact ⟨_, rfl, rfl, by decide +kernel, rfl, rfl, rfl⟩

/-- The part right after reset has not booted; which position is dead is fused in each part: one may be, two, or none. -/
theorem witness_boot : State.reset.tdie.done = false ∧ State.reset.tdie.fail = 0 ∧ (Config.deadPositions = 8 → deadPosition = some 3) ∧
    (Config.deadPositions = 5 → deadPosition = none) ∧ (Config.deadPositions = 0 → deadPosition = none) :=
  ⟨rfl, rfl, fun h => by rw [deadPosition, h]; decide, fun h => by rw [deadPosition, h]; decide, fun h => by rw [deadPosition, h]; decide⟩
/-- Cores of a part that retires cluster 5 of die 2 and core 7 of the others: the last logical core has another home. -/
theorem witness_remap (h : ∀ d c, Config.clusterRetired d c = decide (d = 2 ∧ c = 5)) (h' : ∀ d c k, Config.coreRetired d c k = decide (k = 7)) :
    (∃ c, c < 6 ∧ Config.clusterRetired (143 / 48) c = false) ∧ (∃ k, k < 8 ∧ Config.coreRetired (143 / 48) (remapOf 143 / 8 % 6) k = false) ∧
    Config.clusterRetired (0 / 48) (0 / 8 % 6) = false ∧ Config.coreRetired (0 / 48) (0 / 8 % 6) (0 % 8) = false := by
  simp only [h, h']; exact ⟨⟨0, by decide, by decide⟩, ⟨0, by decide, by decide⟩, by decide, by decide⟩

/-- The bellows at their start, with temperatures in each range and powers in each, before and at the end of a period. -/
theorem witness_bellows : State.reset.domains.length = 9 ∧ (State.reset.steps.map StepRec.id).Nodup ∧ State.reset.regs.plim.toNat = 400 ∧
    (Config.automotive = false → State.reset.regs.tthr.toNat = 100) ∧
    (({ State.reset with timer := 4999 } : State).timer.toNat < State.reset.bellowsAt + 5000) ∧
    State.reset.bellowsAt + 5000 ≤ ({ State.reset with timer := 5000 } : State).timer.toNat := by
  refine ⟨by decide, by decide, by decide, fun h => ?_, by decide, by decide⟩
  simp [State.reset, DevRegs.reset, h]

/-! ### The command processor, registers, BAR4, SPDM -/

/-- A part whose last queue, of 256 slots, has one command in its last slot. -/
def ringWith (slot : QSlot) (s : State) : State :=
  { s with
    queues := modAt s.queues 63 fun _ => { Queue.reset with cfg := BitVec.ofNat 64 (2 ^ 63 + 7 * 2 ^ 48 + 0x1000), consumer := 255, producer := 256, cons := 0x800 }
    hostMem := putBytes [] (0x1000 + 128 * 255) (slotBytes slot), subject := 63 }
def headOf (s : State) (slot : QSlot) : QHead := ⟨63, slot, s.queues.getD 63 Queue.reset, s.contexts.getD 0 Context.reset⟩
theorem parsing_of {s : State} {h : QHead}
    (e : (decide (s.nextCommand = some (h.q, h.slot)) && decide (s.queues[h.q]? = some h.qu) && decide (s.contexts[h.qu.ctx]? = some h.c)) = true) : s.parsing h := by
  simp only [Bool.and_eq_true, decide_eq_true_eq] at e; exact ⟨e.1.1, e.1.2, e.2⟩
/-- The sample part with its launch done or running, a handle that it writes, and some steps. -/
def commandWorld (done : Bool) (steps : List StepRec) (slot : QSlot) : State :=
  let s := sample .vector
  ringWith slot { s with
    launches := s.launches.map fun (l : Launch) => { l with state := if done then .done else .running, reads := [4095], steps := steps.map StepRec.id }
    handles := [(4095, { BufHandle.none with base := 128, len := 128, writer := some 0 })], steps := steps }
def headFound (s : State) (slot : QSlot) : Bool := let h := headOf s slot
  (decide (s.nextCommand = some (h.q, h.slot)) && decide (s.queues[h.q]? = some h.qu) && decide (s.contexts[h.qu.ctx]? = some h.c)) && decide (h.qu.ctx = 0)
theorem witness_head {s : State} {slot : QSlot} (e : headFound s slot = true) : ∃ h : QHead, s.parsing h ∧ h.slot = slot ∧ h.q = 63 ∧ h.qu.ctx = 0 := by
  have e' := Bool.and_eq_true_iff.1 e
  exact ⟨headOf s slot, parsing_of e'.1, rfl, rfl, of_decide_eq_true e'.2⟩

/-- Commands with the greatest operands. -/
def someCommands : List QSlot := [plainSlot 3 (BitVec.allOnes 64) 0, plainSlot (BitVec.ofNat 64 (4 + 2 ^ 16 * 4095)) 0 0, plainSlot 0x105 0xFFFFFFFFFFFFFFF8 7, plainSlot 5 0 0,
  plainSlot 6 0 0, plainSlot (BitVec.ofNat 64 (7 + 2 ^ 16 * 4095 + 2 ^ 28)) 0xFFFFFFFFFF80 128, plainSlot (BitVec.ofNat 64 (7 + 2 ^ 16 * 4095)) 0 0,
  plainSlot 8 0xFFFFFFFF0000 65536, plainSlot (BitVec.ofNat 64 (2 + 2 ^ 32 * 0xFFFFFFFF)) 1000000 0]
theorem witness_commands (done : Bool) : ∀ slot ∈ someCommands, (∃ h, (commandWorld done [] slot).parsing h ∧ h.slot = slot ∧ h.q = 63 ∧ h.qu.ctx = 0) ∧
    (commandWorld done [] slot).listed 4095 = (!done) ∧ (commandWorld done [] slot).enginesBusy 0 = false ∧
    (((commandWorld done [] slot).bufHandle? 4094).bind BufHandle.writer) = none ∧
    (∃ b, (commandWorld done [] slot).bufHandle? 4095 = some b ∧ b.writer = some 0 ∧ ∃ l, (commandWorld done [] slot).launches[0]? = some l ∧ launchEnded l = done ∧ l.ctx = 0) := by
  have e : ∀ slot ∈ someCommands, headFound (commandWorld done [] slot) slot = true := by cases done <;> decide +kernel
  intro slot hs
  exact ⟨witness_head (e slot hs), by cases done <;> rfl, by cases done <;> rfl, by cases done <;> rfl, _, rfl, rfl, _, rfl, by cases done <;> rfl, by cases done <;> rfl⟩

/-- A copy under way in the context whose translations INVTLB drops. -/
def busyWorld : State := { commandWorld true [] (plainSlot 8 0 0) with ops := [Op.blank 4 (.group 0 0) .cpy (some 0)] }
theorem witness_invtlb_busy : (∃ h, busyWorld.parsing h ∧ h.slot = plainSlot 8 0 0 ∧ h.q = 63 ∧ h.qu.ctx = 0) ∧ busyWorld.enginesBusy 0 = true :=
  ⟨witness_head (by decide +kernel), by decide +kernel⟩

/-- STEP of a step that is open, and of a seventeenth. -/
def sixteen : List StepRec := (List.range 16).map fun i => ⟨i + 1, 0, 5, some 63, false, false, false⟩
theorem witness_steps_open (id : Nat) (hi : id = 16 ∨ id = 17) : let slot := plainSlot (BitVec.ofNat 64 (2 + 2 ^ 32 * id)) 1 0; let s := commandWorld false sixteen slot
    (∃ h, s.parsing h ∧ h.slot = slot ∧ h.q = 63 ∧ h.qu.ctx = 0) ∧
    (let open_ := ((s.steps.map fun x => if x.queue = some 63 ∧ x.id ≠ id then { x with queue := none } else x).filter fun x =>
      x.queue.isSome || s.launches.any fun l => !launchEnded l && l.steps.contains x.id)
     if id = 16 then ∃ x ∈ open_, x.id = id else (∀ x ∈ open_, x.id ≠ id) ∧ 16 ≤ open_.length) := by
  rcases hi with rfl | rfl <;> exact ⟨witness_head (by decide +kernel), by decide +kernel⟩

theorem witness_translations : ∃ (die : Die) (e : TlbEntry), ((sample .vector).modDie 2 fun d => { d with tlb := [⟨1, 63, 0x10000, 65536, 0⟩] }).dies[2]? = some die ∧ e ∈ die.tlb ∧
    e.ctx = 63 := ⟨_, ⟨1, 63, 0x10000, 65536, 0⟩, rfl, List.mem_singleton_self _, rfl⟩

/-- A malformed slot of each code, and launch records with the first and the last status. -/
def badSlot (code : Nat) : QSlot := { plainSlot (BitVec.ofNat 64 code) 0 0 with high := ⟨1, 0, 0, 0, 0, 0, 0, 0⟩ }
theorem witness_refused : ∀ code ∈ [2, 3, 4, 5, 6, 7, 8, 1], (∃ h, (commandWorld true [] (badSlot code)).parsing h ∧ h.slot = badSlot code ∧ h.q = 63 ∧ h.qu.ctx = 0) ∧
    (badSlot code).low.w0.toNat % 256 = code := by
  have e : ∀ code ∈ [2, 3, 4, 5, 6, 7, 8, 1], headFound (commandWorld true [] (badSlot code)) (badSlot code) = true ∧ (badSlot code).low.w0.toNat % 256 = code := by
    decide +kernel
  exact fun code hc => ⟨witness_head (e code hc).1, (e code hc).2⟩
theorem witness_bad (code : Nat) : ¬ goodCommand (badSlot code) := by
  have no (a b c : Word64) : badSlot code ≠ plainSlot a b c := fun h => by simpa [badSlot, plainSlot] using congrArg (fun q => q.high.w0) h
  rintro (⟨v, h⟩ | ⟨n, -, h⟩ | ⟨i, a, v, -, h⟩ | h | ⟨n, v, b, l, -, -, -, -, h⟩ | ⟨b, l, -, -, -, h⟩ | ⟨i, b, -, -, -, -, h⟩)
  all_goals exact no _ _ _ h
theorem witness_status : slotCode (badSlot 1) = 1 ∧ (commandWorld true [] (badSlot 1)).launchHeld 0 = false ∧ (commandWorld true [] (badSlot 1)).launchStatus 0 false (slotNat (badSlot 1)) = 1 := by decide +kernel
/-- A launch record whose context's interval is about to close. -/
def closingWorld : State :=
  let s := commandWorld true [] (badSlot 1)
  { s with contexts := modAt s.contexts 0 fun (c : Context) => { c with closeDue := true } }
theorem witness_launch_held : (∃ h, closingWorld.parsing h ∧ h.slot = badSlot 1 ∧ h.q = 63 ∧ h.qu.ctx = 0) ∧ closingWorld.launchHeld 0 = true :=
  ⟨witness_head (by decide +kernel), by decide +kernel⟩
theorem witness_records : field 2 0 8 ≠ 1 ∧ field (2 ^ 15) 12 4 ≠ 0 ∧ field (2 ^ 127) 112 16 ≠ 0 ∧ field 0 192 24 = 0 ∧ 8 < field (9 * 2 ^ 240) 240 4 ∧ 16 < field (17 * 2 ^ 244) 244 5 ∧
    2 ^ 24 ≤ field (2 ^ 204 + 2 ^ 227 + 2 ^ 228) 192 24 * field (2 ^ 204 + 2 ^ 227 + 2 ^ 228) 216 12 * field (2 ^ 204 + 2 ^ 227 + 2 ^ 228) 228 12 * 2 := by decide +kernel

/-- A launch record of one team and one handle, and the object it names. -/
def launchSlot : QSlot := { low := ⟨1, 0x20000, 0, BitVec.ofNat 64 (1 + 2 ^ 24 + 2 ^ 36 + 2 ^ 48), 0, 0, 0, 0⟩, high := ⟨0, 0, BitVec.ofNat 64 (0x40000 + 2 ^ 48), 0, 0, 0, 0, 0⟩ }
def launchWorld : State :=
  let s := commandWorld true [] launchSlot
  { s with mem := putBytes (putBytes (putBytes s.mem 0x20000 (bytesOfNat 64 objectHeader)) 0x20040 (bytesOfNat 64 (32 * 2 ^ 160 + 32 * 2 ^ 176))) 0x40000 (bytesOfNat 2 (4095 + 3 * 2 ^ 12)) }
theorem witness_launch : ∃ h p es, launchWorld.parsing h ∧ slotCode h.slot = 1 ∧ launchWorld.launchHeld h.qu.ctx = false ∧ launchWorld.launchStatus h.qu.ctx (h.qu.cfg.getLsbD 52) (slotNat h.slot) = 0 ∧
    launchWorld.launchPlan h.qu.ctx (slotNat h.slot) = some p ∧ launchWorld.handleList h.qu.ctx (slotNat h.slot) = some es ∧ p.fallback = none ∧
    es = [(4095, true, true)] ∧ (launchWorld.bufHandle? 4095).isSome = true := by
  refine ⟨headOf launchWorld launchSlot, (launchWorld.launchPlan 0 (slotNat launchSlot)).getD ⟨⟨[], [], 0, [], 0⟩, placedKernel false, none⟩, [(4095, true, true)], parsing_of (by decide +kernel), ?_⟩
  exact ⟨by decide +kernel, by decide +kernel, by decide +kernel, by decide +kernel, by decide +kernel, by decide +kernel, rfl, by decide +kernel⟩

/-- Queues that wait for a launch that has ended, or has not. -/
def queueWaits (done : Bool) (w : QueueWait) : State :=
  let s := commandWorld done [] (plainSlot 8 0 0)
  { s with queues := modAt s.queues 63 fun q => { q with held := some (plainSlot 8 0 0), wait := w, signals := [(true, 8, 9, 1)] }, launches := s.launches.map fun (l : Launch) => { l with queue := 63 } }
theorem witness_waits (done : Bool) : ∀ w ∈ [QueueWait.writer 0, .register 4095 true 128 128, .register 4095 false 0 0, .inval 65536 65536 1], ∃ h : QHead, let s := queueWaits done w
    h.q = s.subject ∧ s.queues[h.q]? = some h.qu ∧ s.contexts[h.qu.ctx]? = some h.c ∧ h.qu.held = some h.slot ∧ s.enginesBusy h.qu.ctx = false ∧ h.qu.wait = w ∧ s.ended 0 = done ∧ s.listed 4095 = (!done) ∧
    (if done then ∀ l ∈ s.launches.take 1, l.ctx = h.qu.ctx → launchEnded l = true else ∃ l ∈ s.launches.take 1, l.ctx = h.qu.ctx ∧ launchEnded l = false) ∧
    h.qu.signals = (true, 8, 9, 1) :: [] ∧ (if done then ∀ l ∈ s.launches.take 1, l.queue = h.q → launchEnded l = true else ∃ l ∈ s.launches.take 1, l.queue = h.q ∧ launchEnded l = false) := by
  intro w hw
  refine ⟨headOf (queueWaits done w) (plainSlot 8 0 0), ?_⟩
  revert w; cases done <;> decide +kernel

/-- A launch that may start on a part with no retired cluster, and, with every die off, may not. -/
def startWorld (live coop : Bool) : State :=
  let s := if live then liveWorld (slotWith (if coop then 1025 else 1) (1 + 2 ^ 24 + 2 ^ 36 + 2 ^ 48) 0) id else sample .vector
  { s with launches := s.launches.map fun (l : Launch) => { l with state := .waiting }, subject := 0 }
theorem witness_launch_starts (h : ∀ d c, Config.clusterRetired d c = false) (coop : Bool) : ∃ l, (startWorld true coop).launches[(startWorld true coop).subject]? = some l ∧
    (startWorld true coop).mayStart l = true ∧ l.ordered = false ∧ l.coop = coop ∧ ((startWorld true coop).ctxRead l.ctx l.codeVa (8 * l.code.length)).isSome := by
  cases coop <;> refine ⟨_, rfl, ?_, by decide +kernel⟩ <;> (simp only [State.mayStart, serves_of h]; decide +kernel)
theorem witness_no_start : ∃ l, (startWorld false false).launches[(startWorld false false).subject]? = some l ∧ (startWorld false false).mayStart l = false :=
  ⟨_, rfl, by decide +kernel⟩
theorem witness_divides (h : ∀ d c, Config.clusterRetired d c = false) : (liveWorld id id).clusters.length = 6 * (liveWorld id id).dies.length ∧
    ∃ c, c < (liveWorld id id).clusters.length ∧ (liveWorld id id).clusterServes c false = true := by
  refine ⟨by decide +kernel, 17, by decide +kernel, ?_⟩
  rw [serves_of h]; decide +kernel

/-- A queue that is halted or not, with a command ahead, with none, and under a replay; `KILL` finds a running team of its queue. -/
def haltWorld (halted : Bool) (n : Nat) : State :=
  let s := commandWorld false [] (plainSlot 8 0 0)
  { s with
    queues := modAt s.queues 63 fun q => { q with halted := halted, producer := if n = 0 then 255 else 256 }
    contexts := modAt s.contexts 0 fun (c : Context) => { c with replay := if n = 2 then [⟨63, plainSlot 6 0 0, 0, none⟩] else [] }
    launches := s.launches.map fun (l : Launch) => { l with queue := 63 } }
theorem witness_controls (halted : Bool) (n : Fin 3) : ∃ qu c, let s := haltWorld halted n
    s.queues[s.subject]? = some qu ∧ s.contexts[qu.ctx]? = some c ∧ qu.halted = halted ∧ (c.replay = [] ↔ n ≠ 2) ∧ (qu.ahead = 0 ↔ n = 0) ∧
    ∃ tm l, s.teams[0]? = some tm ∧ s.launches[tm.launch]? = some l ∧ l.queue = s.subject ∧ (l.state = .waiting ∨ l.state = .running) ∧ tm.ended = none := by
  fin_cases n <;> cases halted <;>
    exact ⟨_, _, rfl, rfl, rfl, by decide +kernel, by decide +kernel, worldTeam (sample .vector) rfl, _, rfl, rfl, rfl, .inr rfl, rfl⟩

/-- A context that is not created, one that is, one that a stop holds, and one that none does; an invalidation beside an engine command or alone. -/
def heldWorld (held : Bool) : State :=
  let s := (sampleWorld [parkedGroup]).modCluster 0 fun c => { c with stops := if held then [freshStop] else [] }
  { s with contexts := modAt s.contexts 0 fun (c : Context) => { c with stopped := true } }
theorem witness_contexts : (∃ c, let s : State := { sample .vector with subject := 63 }; s.contexts[s.subject]? = some c ∧ c.created = false ∧ s.tdie.done = false ∧ ({ s with tdie := { s.tdie with done := true } } : State).tdie.done = true) ∧
    (∃ c, let s := heldWorld false; s.contexts[s.subject]? = some c ∧ c.created = true ∧ c.stopped = true ∧ s.halted s.subject = []) ∧
    (∃ c, let s := heldWorld true; s.contexts[s.subject]? = some c ∧ c.stopped = true ∧ s.halted s.subject = (0, freshStop) :: []) ∧
    (0x80000001 : Word64).getLsbD 0 = true ∧ (sample .vector).enginesBusy ((0x80000001 : Word64).toNat / 2 ^ 8 % 64) = false ∧
    ({ sample .vector with ops := [{ Op.blank 4 (.group 0 0) .cpy (some 0) with effect := .none }] } : State).enginesBusy ((0x80000001 : Word64).toNat / 2 ^ 8 % 64) = true :=
  ⟨⟨_, rfl, rfl, rfl, rfl⟩, ⟨_, rfl, rfl, rfl, by decide +kernel⟩, ⟨_, rfl, rfl, by decide +kernel⟩, by decide, by decide +kernel, by decide +kernel⟩

/-- A stopped group whose saved status may be restored, and ones with a reserved bit or a position past their clause. -/
def sswWorld (a b : Word64) : State := branchWorld { parkedGroup with ssw0 := a, ssw1 := b }
def sswCases : List (Word64 × Word64 × Bool) := [(0x10B, 0, false), (0x30B, 0, false), (0x50B, 0, true), (0x100000000010B, 0, true), (0x10B, 0x10000, true)]
def sswGroup (x : Word64 × Word64 × Bool) : Group := { parkedGroup with ssw0 := x.1, ssw1 := x.2.1 }
theorem witness_stops_return : ∀ x ∈ sswCases, (sswWorld x.1 x.2.1).group? 0 0 = some (sswGroup x) ∧
    decide ((sswGroup x).ssw0.toNat / 2 ^ 48 ≠ 0 ∨ (sswGroup x).ssw1.toNat / 2 ^ 16 ≠ 0 ∨
      posBeyond ((sswWorld x.1 x.2.1).codeOf (.group 0 0)).1 (sswGroup x) = true) = x.2.2 := by
  intro x hx
  simp only [sswCases, List.mem_cons, List.not_mem_nil, or_false] at hx
  rcases hx with rfl | rfl | rfl | rfl | rfl <;> exact ⟨by decide +kernel, by decide +kernel⟩

/-- A doorbell that fills the last queue, and one that runs past it. -/
theorem witness_doorbells : ∃ qu, (commandWorld true [] (plainSlot 6 0 0)).queues[63]? = some qu ∧ (((511 : BitVec 64).toNat + 2 ^ 64 - qu.consumer) % 2 ^ 64 ≤ qu.slots) ∧
    qu.slots < ((512 : BitVec 64).toNat + 2 ^ 64 - qu.consumer) % 2 ^ 64 := ⟨_, rfl, by decide +kernel, by decide +kernel⟩

/-- Values at the bounds of the registers' fields. -/
theorem witness_registers : (100 : Word64).toNat % 128 ≤ 100 ∧ (1 ≤ (1000 : Word64).toNat % 1024 ∧ (1000 : Word64).toNat % 1024 ≤ 1000) ∧ 1 ≤ (15 : Word64).toNat % 16 ∧
    (64 ≤ (16384 : Word64).toNat % 65536 ∧ (16384 : Word64).toNat % 65536 ≤ 16384) ∧ (200 ≤ (480 : Word64).toNat % 512 ∧ (480 : Word64).toNat % 512 ≤ 480) ∧
    (9 : Word64).toNat % 16 ≤ 9 ∧ (60 ≤ (125 : Word64).toNat % 256 ∧ (125 : Word64).toNat % 256 ≤ 125) ∧ (256 ≤ (8192 : Word64).toNat % 65536 ∧ (8192 : Word64).toNat % 65536 ≤ 8192) ∧
    1 ≤ (255 : Word64).toNat % 256 ∧ (9 : Word64).toNat % 256 ≤ 9 ∧ (BitVec.ofNat 64 (3 * 2 ^ 48)).toNat / 2 ^ 48 % 16 = 3 ∧ (BitVec.ofNat 64 (2 * 2 ^ 48)).toNat / 2 ^ 48 % 16 < 3 ∧
    ∃ qu, State.reset.queues[63]? = some qu ∧ qu.ahead = 0 := ⟨by decide, by decide, by decide, by decide, by decide, by decide, by decide, by decide, by decide, by decide, by decide, by decide, _, rfl, by decide⟩

/-- Requests at BAR4 inside device memory, at its end, and beyond it. -/
theorem witness_inbound : let base := (State.reset.regs.ibmap.toNat % 2 ^ 48); let o := 3 * dieBytes - 8
    o + 8 ≤ 2 ^ (30 + State.reset.regs.bar4) ∧ (∀ i, i < 8 → inDevice (base + o + i) = true) ∧ (¬ ∀ i, i < 9 → inDevice (base + o + i) = true) ∧ ((base + o) % 32 + 8 ≤ 32 ∧ (base + o) % 8 = 0) := by
  refine ⟨by decide +kernel, by decide +kernel, fun h => absurd (h 8 (by decide)) (by decide +kernel), by decide +kernel⟩

/-- A booted part whose dies live serves a read of eight bytes; one that has not booted, none. -/
theorem witness_inbound_open : let s : State := { liveWorld id id with tdie := { State.reset.tdie with done := true, dead := 3 } }
    let base := (s.regs.ibmap.toNat % 2 ^ 48)
    (s.tdie.done = true ∧ ∀ i, i < 8 → inDevice (base + i) = true → ∀ d ∈ s.inboundDies (base + i), ((s.dies[d]?).map Die.state) = some .live) ∧
    State.reset.tdie.done = false := by
  refine ⟨⟨rfl, fun i hi _ => ?_⟩, rfl⟩
  have e : ∀ i < 8, ∀ d ∈ ({ liveWorld id id with tdie := { State.reset.tdie with done := true, dead := 3 } } : State).inboundDies
      ((State.reset.regs.ibmap.toNat % 2 ^ 48) + i), (((liveWorld id id).dies[d]?).map Die.state) = some .live := by decide +kernel
  exact e i hi

/-- A connection in each phase, with a requester that offers what the part takes. -/
theorem witness_spdm (p : SpdmPhase) : ∃ s : State, s.spdm = p ∧ ∃ a : List SpdmAlgorithm, SpdmAlgorithm.ecdsaP384 ∈ a ∧ SpdmAlgorithm.sha384 ∈ a :=
  ⟨{ State.reset with spdm := p }, rfl, [.ecdsaP384, .sha384], by decide, by decide⟩

/-! ### Words of the manual -/

/-- The word of an opcode with every other field zero, and what each layout reads from it. -/
def opcodeWord (op : Nat) : Word64 := BitVec.ofNat 64 (op * 2 ^ 54)
def opcodeRow (base : Nat) (c : CBlock) : List Instr := (List.range 8).map fun i => decodeWord (opcodeWord (base + i)) c
def zAluW : AluW := ⟨bareHead, 0, 0, 0, 0, 0⟩
def zBraW : BraW := ⟨bareHead, 0, 0, 0⟩
def zBrxW : BrxW := ⟨bareHead, 0, 0, 0, 0, 0⟩
def zBareW : BareW := ⟨bareHead, 0, 0⟩
def zMemW : MemW := ⟨bareHead, 0, 0, 0, 0, 0, 0, 0, 0, 0, 0⟩
def zAtomW : AtomW := ⟨bareHead, 0, 0, 0, 0, 0, 0, 0, 0, 0⟩
def zMulW : MulW := ⟨bareHead, 0, 0, 0, 0, 0, 0, 0, 0, 0, 0, 0, 0, 0, 0⟩
def zTileW : TileW := ⟨bareHead, 0, 0, 0, 0, 0, 0, 0, 0⟩
def zEngW : EngW := ⟨bareHead, 0, 0, 0, 0, 0, 0, 0, 0, 0, 0⟩
def zSysW : SysW := ⟨bareHead, 0, 0, 0, 0, 0, 0, 0, 0⟩

/-- Class I of the opcode map, row by row (R42). -/
theorem test_class_i (c : CBlock) :
    opcodeRow 0x00 c = [.nop zAluW, .mov zAluW, .movi zAluW, .movh zAluW, .iadd zAluW, .isub zAluW, .iaddc zAluW, .imul zAluW] ∧
    opcodeRow 0x08 c = [.imulh zAluW, .imulhu zAluW, .imad zAluW, .imadw zAluW, .idiv zAluW, .idivu zAluW, .irem zAluW, .iremu zAluW] ∧
    opcodeRow 0x10 c = [.imin zAluW, .imax zAluW, .iminu zAluW, .imaxu zAluW, .iabs zAluW, .isad zAluW, .iadds zAluW, .isubs zAluW] ∧
    opcodeRow 0x18 c = [.and zAluW, .or zAluW, .xor zAluW, .andn zAluW, .lop3 zAluW, .shl zAluW, .shr zAluW, .sar zAluW] ∧
    opcodeRow 0x20 c = [.rot zAluW, .funl zAluW, .bfx zAluW, .bfxu zAluW, .bfi zAluW, .popc zAluW, .clz zAluW, .brev zAluW] ∧
    opcodeRow 0x28 c = [.ffs zAluW, .iset zAluW, .isetu zAluW, .pset zAluW, .sel zAluW, .pmov zAluW, .xset zAluW, .xadd zAluW] ∧
    opcodeRow 0x30 c = [.xget zAluW, .lea zAluW, .lea64 zAluW, .iadd64 zAluW, .isub64 zAluW, .iset64 zAluW, .sread zAluW, .swr zAluW] ∧
    opcodeRow 0x38 c = [.kread zAluW, .unallocatedOpcode (opcodeWord 0x39), .unallocatedOpcode (opcodeWord 0x3A), .unallocatedOpcode (opcodeWord 0x3B), .unallocatedOpcode (opcodeWord 0x3C), .unallocatedOpcode (opcodeWord 0x3D), .unallocatedOpcode (opcodeWord 0x3E), .unallocatedOpcode (opcodeWord 0x3F)] := by
  refine ⟨?_, ?_, ?_, ?_, ?_, ?_, ?_, ?_⟩ <;> rfl
/-- Class F of the opcode map, row by row (R42). -/
theorem test_class_f (c : CBlock) :
    opcodeRow 0x40 c = [.fadd zAluW, .fsub zAluW, .fmul zAluW, .ffma zAluW, .fmin zAluW, .fmax zAluW, .fminn zAluW, .fmaxn zAluW] ∧
    opcodeRow 0x48 c = [.fset zAluW, .fclass zAluW, .frnd zAluW, .frcp zAluW, .frsq zAluW, .fsqrt zAluW, .fdiv zAluW, .fex2 zAluW] ∧
    opcodeRow 0x50 c = [.flg2 zAluW, .fsin zAluW, .fcos zAluW, .ftanh zAluW, .fsigm zAluW, .hadd2 zAluW, .hmul2 zAluW, .hfma2 zAluW] ∧
    opcodeRow 0x58 c = [.badd2 zAluW, .bmul2 zAluW, .bfma2 zAluW, .hmax2 zAluW, .hmin2 zAluW, .idp4 zAluW, .fdp2h zAluW, .dadd zAluW] ∧
    opcodeRow 0x60 c = [.dmul zAluW, .dfma zAluW, .dset zAluW, .unallocatedOpcode (opcodeWord 0x63), .unallocatedOpcode (opcodeWord 0x64), .unallocatedOpcode (opcodeWord 0x65), .unallocatedOpcode (opcodeWord 0x66), .unallocatedOpcode (opcodeWord 0x67)] := by
  refine ⟨?_, ?_, ?_, ?_, ?_⟩ <;> rfl
/-- Class C of the opcode map, row by row (R42). -/
theorem test_class_c (c : CBlock) :
    opcodeRow 0x70 c = [.cvt zAluW, .cvtp zAluW, .cvt64 zAluW, .qnt zAluW, .dqnt zAluW, .sclx zAluW, .prmt zAluW, .pack4 zAluW] := by
  exact rfl
/-- Class B of the opcode map, row by row (R42). -/
theorem test_class_b (c : CBlock) :
    opcodeRow 0x80 c = [.bra zBraW, .brx zBrxW, .join zBareW, .call zBraW, .ret zBareW, .exit zBareW, .form zBareW, .brc zBraW] ∧
    opcodeRow 0x88 c = [.yield zBareW, .vote zAluW, .shfl zAluW, .matchKey zAluW, .redux zAluW, .scan zAluW, .elect zAluW, .gsync zAluW] := by
  refine ⟨?_, ?_⟩ <;> rfl
/-- Class M of the opcode map, row by row (R42). -/
theorem test_class_m (c : CBlock) :
    opcodeRow 0xA0 c = [.ld zMemW, .st zMemW, .lds zMemW, .sts zMemW, .ldc zMemW, .ldx zMemW, .stx zMemW, .atom zAtomW] ∧
    opcodeRow 0xA8 c = [.atoms zAtomW, .red zAtomW, .fence zMemW, .ldt zMemW, .stt zMemW, .pref zMemW, .cmaint zMemW, .fifopush zMemW] ∧
    opcodeRow 0xB0 c = [.fifopop zMemW, .bankcfg zMemW, .unallocatedOpcode (opcodeWord 0xB2), .unallocatedOpcode (opcodeWord 0xB3), .unallocatedOpcode (opcodeWord 0xB4), .unallocatedOpcode (opcodeWord 0xB5), .unallocatedOpcode (opcodeWord 0xB6), .unallocatedOpcode (opcodeWord 0xB7)] := by
  refine ⟨?_, ?_, ?_⟩ <;> rfl
/-- Class X of the opcode map, row by row (R42). -/
theorem test_class_x (c : CBlock) :
    opcodeRow 0xC0 c = [.gang zTileW, .obres zTileW c, .obrel zTileW, .obld zTileW, .mma zMulW, .mmas zMulW, .mmar zMulW c, .tres zTileW] ∧
    opcodeRow 0xC8 c = [.trel zTileW, .tzero zTileW, .trd zTileW, .twr zTileW, .tst zTileW, .tepi zTileW c, .tscl zTileW, .rmap zTileW] ∧
    opcodeRow 0xD0 c = [.tsave zTileW, .tload zTileW, .unallocatedOpcode (opcodeWord 0xD2), .unallocatedOpcode (opcodeWord 0xD3), .unallocatedOpcode (opcodeWord 0xD4), .unallocatedOpcode (opcodeWord 0xD5), .unallocatedOpcode (opcodeWord 0xD6), .unallocatedOpcode (opcodeWord 0xD7)] := by
  refine ⟨?_, ?_, ?_⟩ <;> rfl
/-- Class E of the opcode map, row by row (R42). -/
theorem test_class_e (c : CBlock) :
    opcodeRow 0xE0 c = [.cpy zEngW c, .tgms zEngW c, .cebld zEngW c, .cenbr zEngW c, .cewalk zEngW c, .cerel zEngW, .sbs zEngW, .sbsx zEngW] ∧
    opcodeRow 0xE8 c = [.pubf zEngW, .unallocatedOpcode (opcodeWord 0xE9), .unallocatedOpcode (opcodeWord 0xEA), .unallocatedOpcode (opcodeWord 0xEB), .unallocatedOpcode (opcodeWord 0xEC), .unallocatedOpcode (opcodeWord 0xED), .unallocatedOpcode (opcodeWord 0xEE), .unallocatedOpcode (opcodeWord 0xEF)] := by
  refine ⟨?_, ?_⟩ <;> rfl
/-- Class S of the opcode map, row by row (R42). -/
theorem test_class_s (c : CBlock) :
    opcodeRow 0xF0 c = [.trap zSysW, .tret zSysW, .spawn zSysW, .twait zSysW, .arrv zSysW, .waitr zSysW, .barTeam zSysW, .dln zSysW] ∧
    opcodeRow 0xF8 c = [.prog zSysW, .hrd zSysW, .hwr zSysW, .halt zSysW, .unallocatedOpcode (opcodeWord 0xFC), .unallocatedOpcode (opcodeWord 0xFD), .unallocatedOpcode (opcodeWord 0xFE), .unallocatedOpcode (opcodeWord 0xFF)] := by
  refine ⟨?_, ?_⟩ <;> rfl
/-- Rows of the map that hold no opcode. -/
theorem test_no_opcode (c : CBlock) : ∀ op ∈ [0x3F, 0x63, 0x6F, 0x78, 0x90, 0x9F, 0xB2, 0xBF, 0xD2, 0xDF, 0xE9, 0xEF, 0xFC, 0xFF],
    decodeWord (opcodeWord op) c = .unallocatedOpcode (opcodeWord op) := by
  intro op h
  simp only [List.mem_cons, List.not_mem_nil, or_false] at h
  rcases h with rfl | rfl | rfl | rfl | rfl | rfl | rfl | rfl | rfl | rfl | rfl | rfl | rfl | rfl <;> rfl

theorem test_words : wordsDecode := by
  intro c; simp only []; repeat' apply And.intro
  all_goals rfl

/-- More of the manual's words: R36, R25, R188, R189, R165, R219, R220, R232, R243, R257, R266, R277, R282, R294, R302, R311, R348, R364, R435, R442. -/
theorem test_listed (c : CBlock) :
    decodeWord 0x4C00810003060100 c = .pWord ⟨0x0C, 0, 1, 2, 0, 0, 0, 0⟩ ⟨0x01, 1, 6, 1, 0, 0, 0, 0⟩ ∧
    decodeWord 0x0100009021FF0040 c = .iadd ⟨bareHead, 0x009, 0x008, 0x1FF, 1, 0⟩ ∧
    decodeWord 0x2800408008041010 c = .ld ⟨flagHead, 0x008, 0x002, 0x010, 2, 0, 0, 0, 1, 0, 0⟩ ∧
    decodeWord 0x29C080A010068000 c = .atom ⟨⟨0, 0, 0, 2⟩, 0x00A, 0x004, 0x006, 8, 0, 0, 0, 0, 0⟩ ∧
    decodeWord 0x21C03FFFF6000005 c = .brc ⟨bareHead, 0x3FFFF6, 0, 5⟩ ∧
    decodeWord 0x3D00150541500000 c = .arrv ⟨bareHead, 0x150, 0x150, 0x150, 0, 0, 0, 0, 0⟩ ∧
    decodeWord 0x3D40150541501100 c = .waitr ⟨bareHead, 0x150, 0x150, 0x150, 1, 0, 1, 0, 0⟩ ∧
    decodeWord 0x3000000210A80002 c = .gang ⟨bareHead, 0, 0, 0x108, 0x150, 0, 0, 0, 2⟩ ∧
    decodeWord 0x3100400020050000 c = .mma ⟨flagHead, 0, 0, 0x010, 0, 5, 0, 0, 0, 0, 0, 0, 0, 0, 0⟩ ∧
    decodeWord 0x3100401040007280 c = .mma ⟨flagHead, 0, 2, 0x020, 0, 0, 0, 1, 1, 1, 0, 20, 0, 0, 0⟩ ∧
    decodeWord 0x3180400040004018 c = .mmar ⟨flagHead, 0, 0, 0x020, 0, 0, 0, 1, 0, 0, 0, 0, 1, 1, 0⟩ c ∧
    decodeWord 0x334040020CA80880 c = .tepi ⟨flagHead, 0, 0, 0x106, 0x150, 1, 0, 1, 0⟩ c ∧
    decodeWord 0x38005505400F8000 c = .cpy ⟨flagHead, 0x150, 0x150, 0, 1, 1, 1, 1, 4, 0, 0⟩ c ∧
    decodeWord 0x38C05155408D8000 c = .cenbr ⟨flagHead, 0x115, 0x150, 2, 1, 1, 0, 1, 4, 0, 0⟩ c ∧
    decodeWord 0x3A00950540000000 c = .pubf ⟨⟨0, 0, 0, 2⟩, 0x150, 0x150, 0, 0, 0, 0, 0, 0, 0, 0⟩ ∧
    decodeWord 0x3C00150541500A00 c = .trap ⟨bareHead, 0x150, 0x150, 0x150, 0, 5, 0, 0, 0⟩ ∧
    decodeWord 0x3EC0150541500000 c = .halt ⟨bareHead, 0x150, 0x150, 0x150, 0, 0, 0, 0, 0⟩ ∧
    decodeWord 0x3CC0114541500012 c = .twait ⟨bareHead, 0x114, 0x150, 0x150, 0, 0, 0, 0, 0x12⟩ ∧
    decodeWord 0x3D80150541500023 c = .barCluster ⟨bareHead, 0x150, 0x150, 0x150, 0, 0, 0, 1, 3⟩ ∧
    decodeWord 0x3D80150541500040 c = .barDie ⟨bareHead, 0x150, 0x150, 0x150, 0, 0, 0, 2, 0⟩ ∧
    decodeWord 0x3D80150541500060 c = .barGrid ⟨bareHead, 0x150, 0x150, 0x150, 0, 0, 0, 3, 0⟩ ∧
    decodeWord 0x3E00150419500000 c = .prog ⟨bareHead, 0x150, 0x106, 0x150, 0, 0, 0, 0, 0⟩ := by
  repeat' apply And.intro
  all_goals rfl

/-- Bit 1 of the subfield of an OBLD word names its second form (R239). -/
theorem test_obld (c : CBlock) : decodeWord (opcodeWord 0xC3 + 2) c = .obldB ⟨bareHead, 0, 0, 0, 0, 0, 0, 0, 2⟩ := rfl

/-- The command of each code, and a code that is none (R446). -/
theorem test_slots (q : Nat) (a b : Word64) :
    decodeSlot q (plainSlot 1 a b) = .ok (.launch q (plainSlot 1 a b)) ∧ decodeSlot q (plainSlot 2 a b) = .ok (.step q (plainSlot 2 a b)) ∧
    decodeSlot q (plainSlot 3 a b) = .ok (.seed q (plainSlot 3 a b)) ∧ decodeSlot q (plainSlot 4 a b) = .ok (.waith q (plainSlot 4 a b)) ∧
    decodeSlot q (plainSlot 0x105 a b) = .ok (.signal q (plainSlot 0x105 a b)) ∧ decodeSlot q (plainSlot 6 a b) = .ok (.ckpt q (plainSlot 6 a b)) ∧
    decodeSlot q (plainSlot 7 a b) = .ok (.handle q (plainSlot 7 a b)) ∧ decodeSlot q (plainSlot 8 a b) = .ok (.invtlb q (plainSlot 8 a b)) ∧
    decodeSlot q (plainSlot 9 a b) = .error .noCommand := by
  have h : (bits (0x105 : Word64) 0 8).toNat = 5 := by decide
  refine ⟨rfl, rfl, rfl, rfl, ?_, rfl, rfl, rfl, rfl⟩
  simp only [decodeSlot, plainSlot, h]

/-! ### Ill-formed terms, one for each check -/

theorem test_ill_formed : ∀ i ∈ [
    Instr.pWord ⟨0x12, 0, 0, 0, 0, 0, 0, 0⟩ ⟨0x11, 0, 0, 0, 0, 0, 0, 0⟩, .pWord ⟨0x11, 0, 0, 0, 0, 0, 0, 0⟩ ⟨0x3F, 0, 0, 0, 0, 0, 0, 0⟩,
    .barTeam { zSysW with lvl := 3 }, .barCluster { zSysW with lvl := 2 }, .barDie zSysW, .barGrid { zSysW with lvl := 7 },
    .obld { zTileW with sub := 2 }, .obldB zTileW, .unallocatedOpcode (opcodeWord 0x38), .unallocatedOpcode 0x4C00810003060100,
    .launch 64 (plainSlot 1 0 0), .launch 0 (plainSlot 2 0 0), .step 0 (plainSlot 1 0 0), .seed 0 (plainSlot 4 0 0), .waith 0 (plainSlot 3 0 0), .signal 0 (plainSlot 6 0 0),
    .ckpt 0 (plainSlot 5 0 0), .handle 0 (plainSlot 8 0 0), .invtlb 0 (plainSlot 7 0 0), .doorbell 64 0, .starvationGuard 144 0, .starvationGuard 0 8, .teamSwitchBack 0 144,
    .stokerBilletStart 18 0 0, .stokerBilletStart 0 0 144, .pageWalkComplete 3 0 0, .pageWalkComplete 0 64 0, .linkReplay 6 true, .uncorrRollback 64 0, .uncorrRollback 0 3,
    .patrolScrub 3 0, .bellowsPeriod [50, 50] 100, .registerWrite (.qcfg 64) 0, .registerWrite (.scrub 3) 0], wellFormed i = false := by decide +kernel

/-! ### The values QNT is shown with (R152) -/

/-- Lanes 0 to 3 hold 10.0, 3.0, 1.0 and 0.625, the others 0, in v1. -/
def quantGroup : Group :=
  let g := sampleGroup .vector
  { g with threads := g.threads.mapIdx fun l (t : Thread) => { t with v := match ([0x41200000, 0x40400000, 0x3F800000, 0x3F200000] : List Reg32)[l]? with | some b => [(1, b)] | none => [] } }
/-- `QNT v2, v1, 1 !a` of those values. -/
def quantized : Option Op := match Sys2Proof.Machine.exec (decodeWord 0x1CC0402005FF0001 ⟨0, 0, 0, 0⟩) (sampleWorld [quantGroup]) with
  | .next t => t.ops.head?
  | _ => none
theorem test_qnt : ((quantized.map Op.writes).getD []).map RegWrite.value = [0x1258, 0, 0, 0, 0x17F, 0x41200000] ++ List.replicate 26 0 ∧
    ((quantized.map Op.fstat).getD []).filter (fun x => x.2 ≠ 0) = [(3, 1)] := by decide +kernel

/-! ### More of the manual's values, one word each -/

/-- A group whose registers v4, v5 and v6 hold these values in every lane, and v3 of the group that a word has been executed in. -/
def valueGroup (a b c : Reg32) : Group :=
  let g := sampleGroup .vector
  { g with threads := g.threads.map fun (t : Thread) => { t with v := [(4, a), (5, b), (6, c)].filter fun e => e.2 ≠ 0 } }
def resultOf (i : Instr) (a b c : Reg32) : Option Reg32 :=
  match Sys2Proof.Machine.exec i (sampleWorld [valueGroup a b c]) with
  | .next t => (t.group? 0 0).map fun g => readV (threadAt g 31) 3
  | _ => none
/-- v3 := op (v4, v5, v6). -/
def triple (opc : Spec) (mod : BitVec 6) : AluW := ⟨bareHead, 3, 4, 5, opc, mod⟩
/-- `IABS` of the most negative number, a wrapping sum, a shift by the width, `FFS` of zero, and `FMIN` and `FMINN` of a NaN (R113, R115, R117, R119, R138). -/
theorem test_values :
    resultOf (.iabs { triple 0x150 0 with opb := 0x150 }) 0x80000000 0 0 = some 0x80000000 ∧
    resultOf (.iadd (triple 0x150 0)) 0xFFFFFFFF 2 0 = some 1 ∧
    resultOf (.sar (triple 0x150 0)) 0x80000000 32 0 = some 0xFFFFFFFF ∧ resultOf (.shr (triple 0x150 0)) 0x80000000 32 0 = some 0 ∧
    resultOf (.ffs { triple 0x150 0 with opb := 0x150 }) 0 0 0 = some 0xFFFFFFFF ∧
    resultOf (.fminn (triple 0x150 0)) 0x40000000 0x7F800001 0 = some 0x40000000 ∧ resultOf (.fmin (triple 0x150 0)) 0x40000000 0x7F800001 0 = some 0x7FC00000 ∧
    resultOf (.bfx { triple 0 0 with opb := 0x1FF, opc := 0x030, mod := 0x1C }) 0xA0000000 0 0 = some 0xFFFFFFFA := by decide +kernel

/-! ### Encodings, steps, memories -/

/-- Words with and without a block, and a slot, that are well formed; bytes that decode. -/
theorem witness_round_trip : (∀ i ∈ [Instr.exit zBareW, .cpy zEngW ⟨1, 2, 3, 4⟩, .pWord ⟨0x11, 0, 0, 0, 0, 0, 0, 0⟩ ⟨0x0C, 1, 2, 3, 0, 0, 0, 0⟩, .unallocatedOpcode (opcodeWord 0xFF)],
      wellFormed i = true ∧ encode i ≠ [] ∧ commandSlot i = none) ∧
    (wellFormed (.seed 63 (plainSlot 3 7 0)) = true ∧ encode (.seed 63 (plainSlot 3 7 0)) ≠ [] ∧ commandSlot (.seed 63 (plainSlot 3 7 0)) = some (63, plainSlot 3 7 0)) ∧
    decode [0, 0, 0, 0, 0, 0, 0x40, 0x21, 9] = .ok (.exit zBareW, [9]) ∧ decodeSlot 63 (plainSlot 3 7 0) = .ok (.seed 63 (plainSlot 3 7 0)) :=
  ⟨by decide +kernel, by decide +kernel, rfl, rfl⟩

/-- A unit inside a clause whose next bytes are an EXIT, in its turn; and one between clauses, before its first. -/
def seatedGroup : Group := { branchGroup with seat := .active }
def turnWorld : State := { branchWorld seatedGroup with sched := [.group 0 0] }
def firstWorld : State := State.reset.withFetchWord 64 0x2140000000000000
theorem witness_step : ∃ g c, turnWorld.needsReset = false ∧ turnWorld.nextTurn = some (.group 0 0) ∧ turnWorld.beginTurn.mayRun (.group 0 0) = true ∧
    turnWorld.beginTurn.unitOf (.group 0 0) = some g ∧ g.clause = some c ∧ g.hold ≠ .resumeWait ∧
    ((decode (turnWorld.beginTurn.bytesAt (.group 0 0) c)).toOption.map Prod.fst) = some (.exit zBareW) :=
  ⟨seatedGroup, oneClause, rfl, rfl, by decide +kernel, rfl, rfl, by decide, by decide +kernel⟩
theorem witness_first_step : let b := firstWorld.beginTurn
    ∃ g lanes, firstWorld.needsReset = false ∧ firstWorld.nextTurn = some (.group 0 0) ∧ firstWorld.beginTurn.mayRun (.group 0 0) = true ∧
    b.unitOf (.group 0 0) = some g ∧ g.clause = none ∧ (∀ l, (threadAt g l).held = none) ∧ nextClause g = some (0, lanes) ∧ b.clauseFault (.group 0 0) 0 = none ∧
    flagsZero g ((clauseOf ((b.codeOf (.group 0 0)).1.getD 0 0) 0 lanes).wait ||| snapAt g 0) = true ∧
    ((decode (b.bytesAt (.group 0 0) (clauseOf ((b.codeOf (.group 0 0)).1.getD 0 0) 0 lanes))).toOption.map Prod.fst) = some (.exit zBareW) := by
  refine ⟨{ Group.start .vector 256 0 32 with seat := .active }, BitVec.allOnes 32, rfl, rfl, by decide +kernel, rfl, rfl, none_held ?_, by decide +kernel⟩
  decide +kernel

theorem witness_turns : (∃ slot, let s : State := { commandWorld true [] (plainSlot 6 0 0) with sched := [.parse] }
      s.needsReset = false ∧ s.nextTurn = some .parse ∧ s.beginTurn.nextCommand = some (63, slot) ∧ decodeSlot 63 slot = .ok (.ckpt 63 slot)) ∧
    (let s : State := { sample .vector with sched := [.event .checkpointTimer 63] }; s.needsReset = false ∧ s.nextTurn = some (.event .checkpointTimer 63) ∧ encode .checkpointTimer = []) ∧
    (let s : State := { State.reset with tdie := { State.reset.tdie with done := true } }; s.sched = [] ∧ s.tdie.done = true ∧ s.needsReset = false) :=
  ⟨⟨plainSlot 6 0 0, rfl, rfl, by decide +kernel, rfl⟩, ⟨rfl, rfl, rfl⟩, rfl, rfl, rfl⟩

/-- A safe state with a step, and one in which a part that needs a reset stays. -/
theorem witness_settle : ∃ t, State.reset.settled = true ∧ ({ State.reset with sched := [.event .correctedError 0] } : State).needsReset = false ∧
    step { State.reset with sched := [.event .correctedError 0] } = .next t := ⟨_, by decide +kernel, rfl, rfl⟩
theorem witness_reset : ({ State.reset with needsReset := true } : State).needsReset = true := rfl
theorem witness_memories : (sample .vector).memoriesCanonical = true ∧ (sample .vector).mem ≠ [] := ⟨by decide +kernel, by decide +kernel⟩

end Sys2Proof.Machine
end

section
/-!
SUPPORT. A home slice after a write: what it reads back, and what stays beyond the slices (R333, R334, R337, R339).
-/
namespace Sys2Proof.Machine

/-! ### What a slice's own work leaves alone -/

/-- Two parts that differ at most in their home slices and the memory behind these. -/
def State.homesOnly (s t : State) : Prop := { t with lines := s.lines, mem := s.mem, lineKeys := s.lineKeys } = s

theorem State.homesOnly_trans {s t u : State} (h : s.homesOnly t) (k : t.homesOnly u) : s.homesOnly u := by
  unfold State.homesOnly at *
  rw [← h, ← k]

theorem State.homesOnly.teams {s t : State} (h : s.homesOnly t) : t.teams = s.teams := by
  unfold State.homesOnly at h; rw [← h]
theorem State.homesOnly.hostMem {s t : State} (h : s.homesOnly t) : t.hostMem = s.hostMem := by
  unfold State.homesOnly at h; rw [← h]
theorem State.homesOnly.reqs {s t : State} (h : s.homesOnly t) : t.reqs = s.reqs := by
  unfold State.homesOnly at h; rw [← h]
theorem State.homesOnly.inbound {s t : State} (h : s.homesOnly t) : t.inbound = s.inbound := by
  unfold State.homesOnly at h; rw [← h]

theorem State.writeBack_homesOnly (s : State) (l : Line) : s.homesOnly (s.writeBack l) := by
  unfold State.writeBack; split <;> rfl
theorem State.evict_homesOnly (s : State) (l : Line) : s.homesOnly (s.evict l) :=
  State.homesOnly_trans (s.writeBack_homesOnly l) rfl
theorem State.makeRoom_homesOnly (s : State) (a : Nat) (classA : Bool) : s.homesOnly (s.makeRoom a classA) := by
  unfold State.makeRoom
  dsimp only
  split
  · rfl
  · split
    · rfl
    · exact s.evict_homesOnly _
theorem State.fitEntries_homesOnly (a n : Nat) (s : State) : s.homesOnly (s.fitEntries a n) := by
  induction n generalizing s with
  | zero => rfl
  | succ n ih =>
    unfold State.fitEntries
    split
    · rfl
    · split
      · rfl
      · exact State.homesOnly_trans (s.evict_homesOnly _) (ih _)

/-! ### Finding a line -/

@[simp] theorem State.writeBack_lines (s : State) (l : Line) : (s.writeBack l).lines = s.lines := by
  unfold State.writeBack; split <;> rfl

theorem State.line?_addr {s : State} {a : Nat} {l : Line} (h : s.line? a = some l) : l.addr = a := by
  simpa using List.find?_some h

/-- An eviction takes the lines of its address and no other. -/
theorem State.line?_evict (s : State) (l : Line) (a : Nat) :
    (s.evict l).line? a = if l.addr = a then none else s.line? a := by
  simp only [State.evict, State.line?, List.find?_filter]
  split
  · next h => simp [h]
  · next h =>
    congr 1
    funext x
    by_cases hx : x.addr = a
    · simp [hx, Ne.symm h]
    · simp [hx]

theorem victim_mem {ls : List Line} {l : Line} (h : victim ls = some l) : l ∈ ls := by
  unfold victim at h
  split at h
  · next k hk => exact Option.some.inj h ▸ List.mem_of_find?_eq_some hk
  · exact List.mem_of_mem_head? h

/-- Room made in a set brings no line. -/
theorem State.line?_makeRoom {s : State} {a : Nat} (classA : Bool) (h : s.line? a = none) :
    (s.makeRoom a classA).line? a = none := by
  unfold State.makeRoom
  dsimp only
  split
  · exact h
  · split
    · exact h
    · simp [State.line?_evict, h]

/-- A slice kept within its entries keeps the line it makes room for. -/
theorem State.line?_fitEntries (a n : Nat) (s : State) : (s.fitEntries a n).line? a = s.line? a := by
  induction n generalizing s with
  | zero => rfl
  | succ n ih =>
    unfold State.fitEntries
    split
    · rfl
    · split
      · rfl
      · next l hl =>
        have hne : l.addr ≠ a := by
          have := (List.mem_filter.1 (victim_mem hl)).2
          simp only [Bool.and_eq_true, decide_eq_true_eq, ne_eq] at this
          exact this.1.2
        rw [ih, State.line?_evict, if_neg hne]

/-! ### A line changed -/

/-- A slice without the line of an ended context where a request of another key comes for it (R408). -/
def State.withoutEnded (s : State) (a key : Nat) : State :=
  match s.line? a with
  | some l => if l.key = endedKey && key ≠ endedKey then s.evict l else s
  | none => s
/-- A slice with a line allocated where none is resident. -/
def State.withLine (s : State) (a key : Nat) (classA : Bool) : State :=
  match s.line? a with
  | some _ => s
  | none => { s.makeRoom a classA with lines := (s.makeRoom a classA).lines ++ [Line.fresh a key classA] }
/-- A slice with the lines of an address changed. -/
def State.mapLine (s : State) (a : Nat) (f : Line → Line) : State :=
  { s with lines := s.lines.map fun x => if x.addr = a then f x else x }

theorem State.modLine_eq (s : State) (a key : Nat) (classA : Bool) (f : Line → Line) :
    s.modLine a key classA f = (((s.withoutEnded a key).withLine a key classA).mapLine a f).fitEntries a 2 := rfl

theorem State.withoutEnded_homesOnly (s : State) (a key : Nat) : s.homesOnly (s.withoutEnded a key) := by
  unfold State.withoutEnded
  split
  · split
    · exact s.evict_homesOnly _
    · rfl
  · rfl
theorem State.withLine_homesOnly (s : State) (a key : Nat) (classA : Bool) : s.homesOnly (s.withLine a key classA) := by
  unfold State.withLine
  split
  · rfl
  · exact State.homesOnly_trans (s.makeRoom_homesOnly a classA) rfl
theorem State.modLine_homesOnly (s : State) (a key : Nat) (classA : Bool) (f : Line → Line) :
    s.homesOnly (s.modLine a key classA f) := by
  have hready := State.homesOnly_trans (s.withoutEnded_homesOnly a key) (State.withLine_homesOnly _ a key classA)
  have hmapped : s.homesOnly (((s.withoutEnded a key).withLine a key classA).mapLine a f) := State.homesOnly_trans hready rfl
  exact State.homesOnly_trans hmapped (State.fitEntries_homesOnly a 2 _)

theorem State.line?_withLine (s : State) (a key : Nat) (classA : Bool) : ∃ l, (s.withLine a key classA).line? a = some l := by
  unfold State.withLine
  split
  · next l hl => exact ⟨l, hl⟩
  · next hn =>
    have hr : (s.makeRoom a classA).lines.find? (fun x => decide (x.addr = a)) = none := State.line?_makeRoom classA hn
    exact ⟨Line.fresh a key classA, by simp [State.line?, List.find?_append, hr, Line.fresh]⟩

theorem State.line?_mapLine {s : State} {a : Nat} {f : Line → Line} {l : Line} (hf : ∀ l, (f l).addr = l.addr) (hl : s.line? a = some l) :
    (s.mapLine a f).line? a = some (f l) := by
  have hp : (fun x : Line => decide (x.addr = a)) ∘ (fun x => if x.addr = a then f x else x) = fun x => decide (x.addr = a) := by
    funext x
    by_cases hx : x.addr = a <;> simp [hx, hf]
  have hfind : s.lines.find? (fun x => decide (x.addr = a)) = some l := hl
  simp only [State.line?, State.mapLine, List.find?_map, hp, hfind, Option.map_some, State.line?_addr hl, if_true]

/-- A line changed is resident afterwards, as the change left it. -/
theorem State.line?_modLine (s : State) (a key : Nat) (classA : Bool) {f : Line → Line} (hf : ∀ l, (f l).addr = l.addr) :
    ∃ l, (s.modLine a key classA f).line? a = some (f l) := by
  obtain ⟨l, hl⟩ := (s.withoutEnded a key).line?_withLine a key classA
  exact ⟨l, by rw [State.modLine_eq, State.line?_fitEntries, State.line?_mapLine hf hl]⟩

/-! ### Bytes written and read back -/

/-- The written mask holds the bytes of the request. -/
theorem getLsbD_writtenMask {off i : Nat} (n : Nat) (hi : i < n) (hfit : off + n ≤ 128) :
    ((List.range n).foldl (fun (m : BitVec 128) i => m ||| ((1 : BitVec 128) <<< (off + i))) 0).getLsbD (off + i) = true := by
  induction n with
  | zero => omega
  | succ n ih =>
    simp only [List.range_succ, List.foldl_append, List.foldl_cons, List.foldl_nil, BitVec.getLsbD_or, Bool.or_eq_true]
    by_cases h : i < n
    · exact .inl (ih h (by omega))
    · obtain rfl : i = n := by omega
      have : off + i < 128 := by omega
      right
      simp [this]

/-- The bytes of a line after a request hold the bytes of the request. -/
theorem get_putRow (c : Cells Byte) (bs : List Byte) {off i : Nat} (n : Nat) (hi : i < n) :
    Cells.get 0 ((List.range n).foldl (fun c i => Cells.put 0 c (off + i) (bs.getD i 0)) c) (off + i) = bs.getD i 0 := by
  induction n with
  | zero => omega
  | succ n ih =>
    simp only [List.range_succ, List.foldl_append, List.foldl_cons, List.foldl_nil]
    by_cases h : i < n
    · rw [Cells.get_put_other _ _ (by omega), ih h]
    · obtain rfl : i = n := by omega
      rw [Cells.get_put_same]

@[simp] theorem lineWrite_addr (off : Nat) (bs : List Byte) (key adds : Nat) (l : Line) :
    (lineWrite off bs key adds l).addr = l.addr := rfl

/-- A line that a request has written yields the request's bytes, under whatever key it is read. -/
theorem State.lineByte_lineWrite (s : State) (l : Line) (bs : List Byte) {off key adds i : Nat} (reader : Nat) (hk : key ≠ endedKey)
    (hi : i < bs.length) (hfit : off + bs.length ≤ 128) :
    s.lineByte reader (lineWrite off bs key adds l) (off + i) = bs.getD i 0 := by
  have hkey : (lineWrite off bs key adds l).key = key := rfl
  have hvalid : (lineWrite off bs key adds l).valid.getLsbD (off + i) = true := by
    simp only [lineWrite, BitVec.getLsbD_or, getLsbD_writtenMask _ hi hfit, Bool.or_true]
  have hdata : Cells.get 0 (lineWrite off bs key adds l).data (off + i) = bs.getD i 0 := get_putRow l.data bs _ hi
  unfold State.lineByte
  rw [hkey, if_neg (by simp [hk]), if_pos hvalid, hdata]

theorem canonPa_window {pa : Nat} (h : 0x4000000000 ≤ pa ∧ pa < 0x5800000000) :
    canonPa pa = (pa - 0x4000000000) / 4096 % 3 * 0x800000000 + (pa - 0x4000000000) / 4096 / 3 * 4096 + pa % 4096 := by
  have hw : (decide (windowBase ≤ pa) && decide (pa < hostBase)) = true := by rw [Bool.and_eq_true, decide_eq_true_eq, decide_eq_true_eq]; exact h
  unfold canonPa
  rw [if_pos hw]
  rfl
theorem canonPa_outside {pa : Nat} (h : ¬ (0x4000000000 ≤ pa ∧ pa < 0x5800000000)) : canonPa pa = pa := by
  have hw : ¬ (decide (windowBase ≤ pa) && decide (pa < hostBase)) = true := by rw [Bool.and_eq_true, decide_eq_true_eq, decide_eq_true_eq]; exact h
  unfold canonPa
  rw [if_neg hw]

/-- Neighbours within a sector stay neighbours when the window is taken off their addresses (R410). -/
theorem canonPa_add {pa i : Nat} (h : pa % 32 + i < 32) : canonPa (pa + i) = canonPa pa + i := by
  by_cases hw : 0x4000000000 ≤ pa ∧ pa < 0x5800000000
  · have hpage : (pa + i - 0x4000000000) / 4096 = (pa - 0x4000000000) / 4096 := by omega
    rw [canonPa_window hw, canonPa_window (by omega), hpage]
    omega
  · rw [canonPa_outside hw, canonPa_outside (by omega)]
theorem canonPa_mod (pa : Nat) : canonPa pa % 32 = pa % 32 := by
  by_cases hw : 0x4000000000 ≤ pa ∧ pa < 0x5800000000
  · rw [canonPa_window hw]; omega
  · rw [canonPa_outside hw]

theorem State.sliceWrite_homesOnly (s : State) (ctx key pa : Nat) (classA : Bool) (adds : Nat) (bs : List Byte) :
    s.homesOnly (s.sliceWrite ctx key pa classA false adds bs) := by
  unfold State.sliceWrite
  split
  · rfl
  · exact s.modLine_homesOnly _ _ _ _

/-- A request of one sector reads back at home as it was written. -/
theorem State.homeByte_sliceWrite (s : State) (ctx key pa : Nat) (classA undo : Bool) (adds : Nat) (bs : List Byte) {i : Nat} (reader : Nat)
    (hk : key ≠ endedKey) (hfit : pa % 32 + bs.length ≤ 32) (hi : i < bs.length) :
    (s.sliceWrite ctx key pa classA undo adds bs).homeByte reader (canonPa (pa + i)) = bs.getD i 0 := by
  have hne : bs ≠ [] := by rintro rfl; simp at hi
  have hmod := canonPa_mod pa
  rw [canonPa_add (by omega)]
  simp only [State.sliceWrite, if_neg hne]
  obtain ⟨l, hl⟩ := State.line?_modLine (if undo then s.takeUndo ctx (canonPa pa / 128) else s) (canonPa pa / 128) key classA
    (f := lineWrite (canonPa pa % 128) bs key adds) (fun _ => rfl)
  have hline : (canonPa pa + i) / 128 = canonPa pa / 128 := by omega
  have hoff : (canonPa pa + i) % 128 = canonPa pa % 128 + i := by omega
  simp only [State.homeByte, hline, hoff, hl]
  exact State.lineByte_lineWrite _ l bs reader hk hi (by omega)

end Sys2Proof.Machine
end

section
/-!
What the host and peers do to the part: doorbells, register writes, BAR4 requests and SPDM messages.
-/
namespace Sys2Proof.Machine

/-! ### What the function offers once it has booted (R406) -/

theorem State.whenBooted_done {s : State} (t : State) (h : s.tdie.done = true) : s.whenBooted t = .next t := by
  simp [State.whenBooted, h]
theorem State.whenBooted_waits {s : State} (t : State) (h : s.tdie.done = false) : s.whenBooted t = .next s := by
  simp [State.whenBooted, h]

/-! ### Doorbells and halts (R444) -/

theorem modAt_modAt {α : Type} (l : List α) (n : Nat) (f g : α → α) : modAt (modAt l n f) n g = modAt l n (g ∘ f) :=
  List.modify_modify_eq f g n l

theorem modAt_eq_set {α : Type} {l : List α} {n : Nat} {a : α} (f : α → α) (h : l[n]? = some a) : modAt l n f = l.set n (f a) := by
  rw [modAt, List.modify_eq_set_getElem?, h]; rfl

/-- A queue halted right after a change. -/
theorem State.halt_modQueue {s : State} {q : Nat} {qu : Queue} (status : Nat) (f : Queue → Queue) (hq : s.queues[q]? = some qu) :
    (s.modQueue q f).halt q status = { s with
      queues := modAt s.queues q fun x =>
        { f x with halted := true, status := BitVec.ofNat 8 status, refused := (f x).consumer % (f x).slots }
      interrupts := s.interrupts ++ [⟨3 + q, (f qu).ctx, 0, 0⟩] } := by
  have hc : (s.modQueue q f).ctxOfQueue q = (f qu).ctx := by
    simp [State.ctxOfQueue, State.modQueue, getElem?_modAt, hq]
  unfold State.halt
  rw [hc]
  simp only [State.modQueue, modAt_modAt]
  rfl

theorem exec_doorbell {s : State} {q : Nat} {qu : Queue} (index : BitVec 64) (hq : s.queues[q]? = some qu) :
    exec (.doorbell q index) s = s.whenBooted
      (if qu.slots < (index.toNat + 2 ^ 64 - qu.consumer) % 2 ^ 64
        then (s.modQueue q fun x => { x with producer := index.toNat }).halt q 1
        else s.modQueue q fun x => { x with producer := index.toNat }) := by
  show execDoorbell q index s = _
  unfold execDoorbell
  rw [hq]
  rfl

theorem doorbell_answers : doorbellsRing := by
  intro s q index qu hq ahead
  rw [exec_doorbell index hq]
  refine ⟨fun h => State.whenBooted_waits _ h, fun h => ⟨fun hle => ?_, fun hlt => ?_⟩⟩
  · rw [State.whenBooted_done _ h, if_neg (Nat.not_lt.2 hle)]
    rfl
  · rw [State.whenBooted_done _ h, if_pos hlt, State.halt_modQueue 1 _ hq]
    rfl

/-! ### Register writes (R5) -/

theorem field_zero (x len : Nat) : field x 0 len = x % 2 ^ len := by simp [field]

theorem State.written_of {s : State} {ok : Bool} (v : Word64) (h : ok = true) : s.written ok v = v := by
  simp [State.written, h]

/-- A register of the command processor that is written holds what `writeDev` leaves there, and nothing else changes. -/
theorem registerWrite_sets {s : State} {r : DevReg} {v : Word64} {regs : DevRegs} (hb : s.tdie.done = true)
    (hx : exec (.registerWrite r v) s = s.whenBooted { s.draw with regs := writeDev s r v s.regs })
    (hr : writeDev s r v s.regs = regs) :
    ∃ u, exec (.registerWrite r v) s = .next u ∧ { u with fresh := s.fresh } = { s with regs := regs } :=
  ⟨_, hx.trans (State.whenBooted_done _ hb), by rw [hr]; rfl⟩

/-- A register of a die that is written holds what `writeDie` leaves there, and nothing else changes. -/
theorem registerWrite_dies {s : State} {r : DevReg} {v : Word64} {d : Nat} {f : Die → Die} (hb : s.tdie.done = true)
    (hx : exec (.registerWrite r v) s = s.whenBooted (s.draw.modDie d (writeDie s r v)))
    (hf : ∀ x, writeDie s r v x = f x) :
    ∃ u, exec (.registerWrite r v) s = .next u ∧ { u with fresh := s.fresh } = { s with dies := modAt s.dies d f } :=
  ⟨_, hx.trans (State.whenBooted_done _ hb), by rw [funext hf]; rfl⟩

/-- Bits of a bit vector with a field replaced. -/
theorem getLsbD_setField {n : Nat} (w : BitVec n) (lo len x i : Nat) (hi : i < n) :
    (setField w lo len x).getLsbD i = if lo ≤ i ∧ i < lo + len then x.testBit (i - lo) else w.getLsbD i := by
  simp only [setField, BitVec.getLsbD_or, BitVec.getLsbD_and, BitVec.getLsbD_not, BitVec.getLsbD_ofNat, Nat.testBit_mul_two_pow,
    Nat.testBit_two_pow_sub_one, Nat.testBit_mod_two_pow, hi, decide_true, Bool.true_and]
  by_cases hlo : lo ≤ i
  · by_cases hlen : i < lo + len
    · have : i - lo < len := by omega
      simp [hlo, hlen, this]
    · have : ¬ i - lo < len := by omega
      simp [hlen, this]
  · simp [hlo]

/-- The bits of `CMDP_QCFG` that a write takes as they stand. -/
theorem qcfgMask_bits : ∀ i < 63, (0x9FFFFFFFFFFFFF80 : Word64).getLsbD i = (decide (7 ≤ i) && decide (i ≠ 61) && decide (i ≠ 62)) := by
  decide

theorem testBit_ofBool (b : Bool) : (if b then 1 else 0 : Nat).testBit 0 = b := by cases b <;> rfl

/-- The enable bit that a write of `CMDP_QCFG` leaves. -/
theorem writeQcfg_enabled (v : Word64) (q : Queue) :
    (writeQcfg v q).cfg.getLsbD 63 = if q.ahead = 0 then v.getLsbD 63 else q.cfg.getLsbD 63 := by
  simp only [writeQcfg]
  rw [getLsbD_setField _ _ _ _ _ (by decide), if_pos ⟨le_refl 63, by decide⟩, testBit_ofBool]
  simp [Queue.enabled]

theorem writeQcfg_bits (v : Word64) (q : Queue) {i : Nat} (hi : i < 63) :
    (writeQcfg v q).cfg.getLsbD i = (v.getLsbD i && decide (7 ≤ i) && decide (i ≠ 61) && decide (i ≠ 62)) := by
  simp only [writeQcfg]
  rw [getLsbD_setField _ _ _ _ _ (by omega), if_neg (by omega), BitVec.getLsbD_and, qcfgMask_bits i hi]
  simp only [Bool.and_assoc]

/-- Enabling a queue clears its seed. -/
theorem writeQcfg_seed (v : Word64) (q : Queue) :
    (writeQcfg v q).seed = if (writeQcfg v q).cfg.getLsbD 63 = true ∧ q.cfg.getLsbD 63 = false then 0 else q.seed := by
  rw [writeQcfg_enabled]
  simp [writeQcfg, Queue.enabled]

/-- `CMDP_QCFG` written: the queue configured, and halted where its log of slots is too small. -/
theorem State.configQueue_answers {s : State} {q : Nat} {qu : Queue} (v : Word64) (hq : s.queues[q]? = some qu) :
    ∃ y, (s.configQueue q v).queues = s.queues.set q y ∧ y.cfg = (writeQcfg v qu).cfg ∧ y.seed = (writeQcfg v qu).seed ∧
      (v.toNat / 2 ^ 48 % 16 < 3 → y.halted = true ∧ y.status = 1) ∧
      (3 ≤ v.toNat / 2 ^ 48 % 16 → y.halted = qu.halted ∧ y.status = qu.status) ∧
      { s.configQueue q v with queues := [], interrupts := [] } = { s with queues := [], interrupts := [] } := by
  have hlen : q < s.queues.length := (List.getElem?_eq_some_iff.1 hq).1
  by_cases hlog : v.toNat / 2 ^ 48 % 16 < 3
  · have hcond : (decide (getField v 48 4 < 3) && decide (q < s.queues.length)) = true := by
      rw [Bool.and_eq_true, decide_eq_true_eq, decide_eq_true_eq]; exact ⟨hlog, hlen⟩
    have hconf : s.configQueue q v = (s.modQueue q (writeQcfg v)).halt q 1 := if_pos hcond
    rw [hconf, State.halt_modQueue 1 _ hq]
    exact ⟨_, modAt_eq_set _ hq, rfl, rfl, fun _ => ⟨rfl, rfl⟩, fun h => absurd hlog (Nat.not_lt.2 h), rfl⟩
  · have hcond : ¬ (decide (getField v 48 4 < 3) && decide (q < s.queues.length)) = true := by
      rw [Bool.and_eq_true, decide_eq_true_eq]; exact fun h => hlog h.1
    have hconf : s.configQueue q v = s.modQueue q (writeQcfg v) := if_neg hcond
    rw [hconf]
    exact ⟨_, modAt_eq_set _ hq, rfl, rfl, fun h => absurd h hlog, fun _ => ⟨rfl, rfl⟩, rfl⟩

theorem registerWrite_qcons {s : State} (q : Nat) (v : Word64) (hb : s.tdie.done = true) :
    exec (.registerWrite (.qcons q) v) s = .next { s with queues := modAt s.queues q fun x =>
      { x with cons := BitVec.ofNat 48 (v.toNat % 2 ^ 48 / 8 * 8) } } := by
  have hx : exec (.registerWrite (.qcons q) v) s = s.whenBooted (s.modQueue q fun x =>
      { x with cons := BitVec.ofNat 48 (field v.toNat 0 48 / 8 * 8) }) := rfl
  rw [hx, State.whenBooted_done _ hb, field_zero]
  rfl

theorem registerWrite_qstat {s : State} (q : Nat) {v : Word64} (hb : s.tdie.done = true) (hv : v.toNat % 256 ≤ 9) :
    exec (.registerWrite (.qstat q) v) s = .next { s with queues := modAt s.queues q fun x =>
      { x with status := v.truncate 8, refused := v.toNat / 2 ^ 16 % 2 ^ 16 } } := by
  have hx : exec (.registerWrite (.qstat q) v) s = s.whenBooted (s.modQueue q fun x =>
      { x with status := (s.written (field v.toNat 0 8 ≤ 9) v).truncate 8, refused := field v.toNat 16 16 }) := rfl
  rw [hx, State.whenBooted_done _ hb, State.written_of v (by simpa [field] using hv)]
  rfl

theorem registerWrite_qcfg {s : State} (q : Nat) (v : Word64) (hb : s.tdie.done = true) :
    exec (.registerWrite (.qcfg q) v) s = .next (s.configQueue q v) := State.whenBooted_done _ hb

theorem registerWrite_answers : registersTake := by
  intro s v n sets dies
  refine ⟨fun x => ?_, fun h r => State.whenBooted_waits _ h, fun hb => ?_⟩
  · show s.whenBooted s = _
    simp [State.whenBooted]
  refine ⟨registerWrite_sets hb rfl rfl, registerWrite_sets hb rfl rfl, registerWrite_sets hb rfl rfl, registerWrite_sets hb rfl rfl,
    fun h => registerWrite_sets hb rfl ?_, registerWrite_sets hb rfl rfl, registerWrite_sets hb rfl rfl,
    fun h h' => registerWrite_sets hb rfl ?_, fun h => registerWrite_sets hb rfl ?_, fun h h' => registerWrite_sets hb rfl ?_,
    registerWrite_sets hb rfl rfl, fun h h' => registerWrite_sets hb rfl ?_,
    fun h => ⟨registerWrite_sets hb rfl ?_, registerWrite_sets hb rfl ?_⟩, fun h h' => registerWrite_sets hb rfl ?_,
    registerWrite_sets hb rfl rfl,
    fun d => ⟨fun h h' => registerWrite_dies hb rfl fun x => ?_, registerWrite_dies hb rfl fun x => rfl,
      fun h => registerWrite_dies hb rfl fun x => ?_⟩, fun q qu hq => ?_⟩
  case refine_11 =>
    obtain ⟨y, hy, hc, hs, hsmall, hlarge, hrest⟩ := s.configQueue_answers v hq
    refine ⟨registerWrite_qcons q v hb, registerWrite_qstat q hb, _, y, registerWrite_qcfg q v hb, hy, fun i hi => ?_, ?_, ?_, hsmall, hlarge, hrest⟩
    · rw [hc, writeQcfg_bits v qu hi]
    · rw [hc, writeQcfg_enabled]
    · rw [hs, hc, writeQcfg_seed]
  all_goals
    simp only [writeDev, writeDie]
    rw [State.written_of v (by simp only [field_zero, Bool.and_eq_true, decide_eq_true_eq]; omega)]

end Sys2Proof.Machine
end

section
/-!
Requests of the host and peers at BAR4: when one is offered, which is refused, and what the others read and leave at home.
-/
namespace Sys2Proof.Machine

/-! ### The window that `BAR4` opens (R443, R459) -/

/-- The key slot, and the first byte, that `CMDP_IBMAP` maps BAR4 to. -/
def State.barKey (s : State) : Nat := 1 + 8 * (s.regs.ibmap.toNat / 2 ^ 48 % 64) + s.regs.ibmap.toNat / 2 ^ 54 % 8
def State.barBase (s : State) : Nat := s.regs.ibmap.toNat % 2 ^ 48

/-- An extent of BAR4 that leaves neither it nor device memory. -/
def State.barInside (s : State) (o n : Nat) : Prop :=
  o + n ≤ 2 ^ (30 + s.regs.bar4) ∧ ∀ i, i < n → inDevice (s.barBase + o + i) = true

/-- The part has booted and every die on the way of an extent's device bytes lives (R399, R405). -/
def State.barOpen (s : State) (o n : Nat) : Prop := s.tdie.done = true ∧ ∀ i, i < n → inDevice (s.barBase + o + i) = true →
  ∀ d ∈ s.inboundDies (s.barBase + o + i), ∃ e : Die, s.dies[d]? = some e ∧ e.state = .live

/-- A request served, its extent inside. -/
def State.barServe (s : State) (req : Inbound) : State :=
  match req with
  | .read o n => s.reply (.data (s.homeBytes s.barKey (s.barBase + o) n))
  | .write o bs => (s.inboundWrite s.barKey (s.barBase + o) bs).reply .written
  | .fetchAdd o wide v => s.inboundAtomic s.barKey (s.barBase + o) wide 0 v 0
  | .swap o wide v => s.inboundAtomic s.barKey (s.barBase + o) wide 8 v 0
  | .cas o wide cmp v => s.inboundAtomic s.barKey (s.barBase + o) wide 9 v cmp

/-- What an extent is checked against, and whether its way is live, as `execInboundRequest` computes them. -/
def State.barOk (s : State) (o n : Nat) : Bool :=
  o + n ≤ 2 ^ (30 + s.regs.bar4) && (List.range n).all fun i => inDevice (s.barBase + o + i)
def State.barLive (s : State) (o n : Nat) : Bool :=
  (List.range n).all fun i => !inDevice (s.barBase + o + i) || (s.inboundDies (s.barBase + o + i)).all fun d =>
    (s.dies[d]?).any fun e => e.state = .live

theorem State.barOk_iff (s : State) (o n : Nat) : s.barOk o n = true ↔ s.barInside o n := by
  simp [State.barOk, State.barInside]
theorem State.barOpen_iff (s : State) (o n : Nat) : s.barOpen o n ↔ s.tdie.done = true ∧ s.barLive o n = true := by
  simp only [State.barOpen, State.barLive, List.all_eq_true, List.mem_range, Bool.or_eq_true, Bool.not_eq_true', ← Bool.not_eq_true,
    ← imp_iff_not_or, Option.any_eq_true, decide_eq_true_eq]

theorem exec_inbound (s : State) (i : Inbound) : exec (.inboundRequest i) s =
    if !s.barLive (inboundExtent i).1 (inboundExtent i).2 then .next s
    else s.whenBooted (if s.barOk (inboundExtent i).1 (inboundExtent i).2 then s.barServe i else s.reply .unsupported) := by
  have hbase : getField s.regs.ibmap 0 48 = s.barBase := field_zero _ _
  show execInboundRequest i s = _
  unfold execInboundRequest
  dsimp only
  rw [hbase]
  cases i <;> rfl

/-- A request waits while the part has not booted or a die of its way is not live. -/
theorem exec_inbound_closed {s : State} {i : Inbound} (h : ¬ s.barOpen (inboundExtent i).1 (inboundExtent i).2) :
    exec (.inboundRequest i) s = .next s := by
  rw [exec_inbound]
  cases hl : s.barLive (inboundExtent i).1 (inboundExtent i).2
  · rfl
  · rw [State.barOpen_iff] at h
    exact State.whenBooted_waits _ (by simpa [hl] using h)

/-- A request that is offered is served or refused. -/
theorem exec_inbound_open {s : State} {i : Inbound} (h : s.barOpen (inboundExtent i).1 (inboundExtent i).2) :
    (s.barInside (inboundExtent i).1 (inboundExtent i).2 → exec (.inboundRequest i) s = .next (s.barServe i)) ∧
    (¬ s.barInside (inboundExtent i).1 (inboundExtent i).2 → exec (.inboundRequest i) s = .next (s.reply .unsupported)) := by
  obtain ⟨hb, hl⟩ := (s.barOpen_iff _ _).1 h
  rw [exec_inbound, hl, State.whenBooted_done _ hb, ← State.barOk_iff]
  exact ⟨fun hi => by rw [if_pos hi]; rfl, fun hi => by rw [if_neg hi]; rfl⟩

/-! ### Bytes written from outside -/

/-- A run of steps of which only the first acts. -/
theorem foldl_range_first {α : Type} {f : α → Nat → α} (hf : ∀ a i, f a (i + 1) = a) (k : Nat) (a : α) :
    (List.range (k + 1)).foldl f a = f a 0 := by
  rw [List.range_succ_eq_map, List.foldl_cons, List.foldl_map]
  simp only [Nat.succ_eq_add_one, hf, List.foldl_fixed]

/-- A write of one sector is one request at its home slice. -/
theorem State.inboundWrite_sector (s : State) (key pa : Nat) (bs : List Byte) (hfit : pa % 32 + bs.length ≤ 32) :
    s.inboundWrite key pa bs = (s.sliceWrite 0 key pa false false 1 bs).dirtyHandles pa bs.length := by
  have hend : min ((pa / 32 + 0 + 1) * 32) (pa + bs.length) = pa + bs.length := by omega
  unfold State.inboundWrite
  dsimp only
  rw [foldl_range_first]
  · rw [if_pos rfl, hend]
    congr 1
    split
    · simp
    · next h => rw [List.length_eq_zero_iff.1 (by omega : bs.length = 0)]; rfl
  · intro t i
    rw [if_neg (Nat.succ_ne_zero i), if_neg (by omega)]

/-- The answer `r` joins those given, the teams, the host's memory and the requests stay, and the home slices obey `p`. -/
def State.inboundGives (s : State) (r : InboundReply) (p : State → Prop) (u : State) : Prop :=
  u.inbound = s.inbound ++ [r] ∧ u.teams = s.teams ∧ u.hostMem = s.hostMem ∧ u.reqs = s.reqs ∧ p u
def State.inboundAnswers (s : State) (i : Inbound) (r : InboundReply) (p : State → Prop) : Prop :=
  ∃ u, exec (.inboundRequest i) s = .next u ∧ s.inboundGives r p u

/-- Home slices and memory as they were, and bytes read at home under a key. -/
def State.sameHomes (s u : State) : Prop := u.lines = s.lines ∧ u.mem = s.mem
def holdsAt (key pa : Nat) (bs : List Byte) (u : State) : Prop := ∀ i, i < bs.length → u.homeByte key (canonPa (pa + i)) = bs.getD i 0

theorem State.reply_gives (s : State) (r : InboundReply) : s.inboundGives r s.sameHomes (s.reply r) := ⟨rfl, rfl, rfl, rfl, rfl, rfl⟩

/-- A write of one sector from outside reads back at home and changes nothing but home slices and handles. -/
theorem State.inboundWrite_gives (s : State) (r : InboundReply) {key pa : Nat} (reader : Nat) {bs : List Byte} (hk : key ≠ endedKey)
    (hfit : pa % 32 + bs.length ≤ 32) : s.inboundGives r (holdsAt reader pa bs) ((s.inboundWrite key pa bs).reply r) := by
  rw [s.inboundWrite_sector key pa bs hfit]
  have h := s.sliceWrite_homesOnly 0 key pa false 1 bs
  exact ⟨congrArg (· ++ [r]) h.inbound, h.teams, h.hostMem, h.reqs,
    fun i hi => s.homeByte_sliceWrite 0 key pa false false 1 bs reader hk hfit hi⟩

/-- No key of BAR4 is that of an ended context's lines. -/
theorem State.barKey_ne (s : State) : s.barKey ≠ endedKey := by
  unfold State.barKey endedKey; omega

theorem length_bytesOfNat (n x : Nat) : (bytesOfNat n x).length = n := by
  induction n generalizing x with
  | zero => rfl
  | succ n ih => simp [bytesOfNat, ih]

/-- How many bytes an AtomicOp takes, and the value it leaves over the old one (R189). -/
def atomicBytes (wide : Bool) : Nat := if wide then 8 else 4
def State.atomicLeaves (s : State) (key pa : Nat) (wide : Bool) (aop : Nat) (v cmp : Word64) : Nat :=
  atomicNew aop wide (natOfBytes (s.homeBytes key pa (atomicBytes wide))) (v.toNat % 2 ^ (8 * atomicBytes wide))
    (cmp.toNat % 2 ^ (8 * atomicBytes wide))

/-- An aligned AtomicOp from outside answers with the old bytes and leaves the new ones. -/
theorem State.inboundAtomic_gives (s : State) {key pa : Nat} (reader : Nat) (wide : Bool) (aop : Nat) (v cmp : Word64) (hk : key ≠ endedKey)
    (ha : pa % atomicBytes wide = 0) :
    s.inboundGives (.data (bytesOfNat (atomicBytes wide) (natOfBytes (s.homeBytes key pa (atomicBytes wide)))))
      (holdsAt reader pa (bytesOfNat (atomicBytes wide) (s.atomicLeaves key pa wide aop v cmp)))
      (s.inboundAtomic key pa wide aop v cmp) := by
  refine s.inboundWrite_gives _ reader hk ?_
  rw [length_bytesOfNat]
  cases wide <;> simp only [atomicBytes, if_true, Bool.false_eq_true, if_false] at ha ⊢ <;> omega

theorem atomicNew_add (wide : Bool) (old b cmp : Nat) : atomicNew 0 wide old b cmp = (old + b) % 2 ^ (8 * atomicBytes wide) := by
  cases wide <;> rfl

/-- A request that is an AtomicOp is refused outside BAR4, and served where it is aligned. -/
theorem exec_inbound_atomic {s : State} {i : Inbound} {o : Nat} {wide : Bool} {aop : Nat} {v cmp : Word64}
    (hi : inboundExtent i = (o, atomicBytes wide)) (hs : s.barServe i = s.inboundAtomic s.barKey (s.barBase + o) wide aop v cmp)
    (ho : s.barOpen o (atomicBytes wide)) :
    (¬ s.barInside o (atomicBytes wide) → s.inboundAnswers i .unsupported s.sameHomes) ∧
    (s.barInside o (atomicBytes wide) → (s.barBase + o) % atomicBytes wide = 0 →
      s.inboundAnswers i (.data (bytesOfNat (atomicBytes wide) (natOfBytes (s.homeBytes s.barKey (s.barBase + o) (atomicBytes wide)))))
        (holdsAt s.barKey (s.barBase + o) (bytesOfNat (atomicBytes wide) (s.atomicLeaves s.barKey (s.barBase + o) wide aop v cmp)))) := by
  have hx := exec_inbound_open (s := s) (i := i) (by rw [hi]; exact ho)
  rw [hi, hs] at hx
  exact ⟨fun h => ⟨_, hx.2 h, s.reply_gives _⟩, fun h ha => ⟨_, hx.1 h, s.inboundAtomic_gives _ wide aop v cmp s.barKey_ne ha⟩⟩

theorem inbound_answers : inboundServed := by
  intro s o n m key base inside open_ answers same holds
  refine ⟨fun i hc hi => exec_inbound_closed (by rw [hi]; exact hc), fun ho => ?_, fun bs ho => ?_, fun wide v cmp => ?_⟩
  case refine_1 =>
    have hx := exec_inbound_open (i := .read o n) ho
    exact ⟨fun h => ⟨_, hx.1 h, s.reply_gives _⟩, fun h => ⟨_, hx.2 h, s.reply_gives _⟩⟩
  case refine_2 =>
    have hx := exec_inbound_open (i := .write o bs) ho
    exact ⟨fun h => ⟨_, hx.2 h, s.reply_gives _⟩, fun h hfit => ⟨_, hx.1 h, s.inboundWrite_gives _ key s.barKey_ne hfit⟩⟩
  case refine_3 =>
    intro size ho old cut atomic
    have hadd : atomicNew 0 wide old (cut v) 0 = (old + cut v) % 2 ^ (8 * size) := atomicNew_add wide old (cut v) 0
    refine ⟨?_, exec_inbound_atomic (i := .swap o wide v) rfl rfl ho, exec_inbound_atomic (i := .cas o wide cmp v) rfl rfl ho⟩
    rw [← hadd]
    exact exec_inbound_atomic (i := .fetchAdd o wide v) rfl rfl ho

end Sys2Proof.Machine
end

section
/-!
Messages of an SPDM requester, phase by phase. The order of the phases is PRESUMED (assumption log, entry 44).
-/
namespace Sys2Proof.Machine

/-- A message answered with `r` that leaves phase `p`, and one answered with an error; nothing else changes but the free value drawn. -/
def State.spdmGives (s : State) (i : Instr) (p : SpdmPhase) (r : SpdmReply) : Prop :=
  ∃ u, exec i s = .next u ∧ u.spdm = p ∧ u.spdmReplies = s.spdmReplies ++ [r] ∧
    { u with spdm := s.spdm, spdmReplies := [], fresh := 0 } = { s with spdmReplies := [], fresh := 0 }
def State.spdmErrs (s : State) (i : Instr) : Prop := exec i s = .next { s with spdmReplies := s.spdmReplies ++ [.error] }

theorem spdmGives_of_exec {s : State} {i : Instr} {p : SpdmPhase} {r : SpdmReply} (hx : exec i s = .next (s.spdmReply p r)) :
    s.spdmGives i p r := ⟨_, hx, rfl, rfl, rfl⟩

/-- A message is taken where its condition holds, and answered with an error elsewhere. -/
theorem spdm_guarded {s : State} {i : Instr} {p : SpdmPhase} {r : SpdmReply} {c : Prop} [Decidable c] (d : Prop)
    (hx : exec i s = .next (if c then s.spdmReply p r else s.spdmError)) (hd : c ↔ d) :
    (d → s.spdmGives i p r) ∧ (¬ d → s.spdmErrs i) :=
  ⟨fun h => spdmGives_of_exec (hx.trans (by rw [if_pos (hd.2 h)])), fun h => hx.trans (by rw [if_neg fun c => h (hd.1 c)]; rfl)⟩

/-- The phases in which algorithms stand negotiated. -/
def SpdmPhase.agreed (p : SpdmPhase) : Prop := (∃ b, p = .negotiated b) ∨ p = .keyExchanged ∨ p = .session
theorem SpdmPhase.ready_iff (p : SpdmPhase) : p.ready = true ↔ p.agreed := by
  cases p <;> simp [SpdmPhase.ready, SpdmPhase.agreed]

theorem spdm_negotiate (s : State) (a : List SpdmAlgorithm) :
    let ok : Prop := s.spdm = .capabilities ∧ SpdmAlgorithm.ecdsaP384 ∈ a ∧ SpdmAlgorithm.sha384 ∈ a
    (ok → s.spdmGives (.spdmNegotiateAlgorithms a) (.negotiated (decide (SpdmAlgorithm.aes256Gcm ∈ a))) .algorithms) ∧
    (¬ ok → s.spdmErrs (.spdmNegotiateAlgorithms a)) := by
  have haead : a.contains SpdmAlgorithm.aes256Gcm = decide (SpdmAlgorithm.aes256Gcm ∈ a) := by simp
  rw [← haead]
  exact spdm_guarded _ rfl (by simp [and_assoc])

theorem spdm_measurements (s : State) (i : Nat) (x : BitVec 256) :
    (s.spdm.agreed ∧ 1 ≤ i ∧ i ≤ 6 → s.spdmGives (.spdmGetMeasurements i x) s.spdm
      (.measurements i (Config.spdmMeasurement i (s.measured i)) (Config.spdmSignature s.fresh))) ∧
    (¬ (s.spdm.agreed ∧ 1 ≤ i ∧ i ≤ 6) → s.spdmErrs (.spdmGetMeasurements i x)) :=
  spdm_guarded _ rfl (by simp [SpdmPhase.ready_iff, and_assoc])

theorem spdm_digests (s : State) :
    (s.spdm.agreed → s.spdmGives .spdmGetDigests s.spdm (.digests (Config.spdmDigest s.fresh))) ∧
    (¬ s.spdm.agreed → s.spdmErrs .spdmGetDigests) := spdm_guarded _ rfl s.spdm.ready_iff
theorem spdm_certificate (s : State) :
    (s.spdm.agreed → s.spdmGives .spdmGetCertificate s.spdm (.certificate (Config.spdmBytes s.subject))) ∧
    (¬ s.spdm.agreed → s.spdmErrs .spdmGetCertificate) := spdm_guarded _ rfl s.spdm.ready_iff
theorem spdm_challenge (s : State) (n : Nat) (x : BitVec 256) :
    (s.spdm.agreed → s.spdmGives (.spdmChallenge n x) s.spdm (.challengeAuth (Config.spdmSignature s.fresh))) ∧
    (¬ s.spdm.agreed → s.spdmErrs (.spdmChallenge n x)) := spdm_guarded _ rfl s.spdm.ready_iff

theorem spdm_keyExchange (s : State) (x : BitVec 256) :
    (s.spdm = .negotiated true → s.spdmGives (.spdmKeyExchange x) .keyExchanged (.keyExchange (Config.spdmSignature s.fresh))) ∧
    (s.spdm ≠ .negotiated true → s.spdmErrs (.spdmKeyExchange x)) := spdm_guarded _ rfl Iff.rfl
theorem spdm_finish (s : State) (verified : Bool) :
    (s.spdm = .keyExchanged ∧ verified = true → s.spdmGives (.spdmFinish verified) .session .finish) ∧
    (¬ (s.spdm = .keyExchanged ∧ verified = true) → s.spdmErrs (.spdmFinish verified)) := spdm_guarded _ rfl (by simp)

theorem spdm_answers : spdmAnswers := by
  intro s answers errs open_
  obtain ⟨capTaken, capRefused⟩ : (s.spdm = .version → s.spdmGives .spdmGetCapabilities .capabilities .capabilities) ∧
      (s.spdm ≠ .version → s.spdmErrs .spdmGetCapabilities) := spdm_guarded _ rfl Iff.rfl
  obtain ⟨endTaken, endRefused⟩ : (s.spdm = .session → s.spdmGives .spdmEndSession (.negotiated true) .ended) ∧
      (s.spdm ≠ .session → s.spdmErrs .spdmEndSession) := spdm_guarded _ rfl Iff.rfl
  refine ⟨spdmGives_of_exec rfl, capTaken, capRefused, spdm_negotiate s, fun ho => ?_, fun ho => ?_, fun i x => ?_, fun x => ?_,
    fun h => (spdm_finish s true).1 ⟨h, rfl⟩, fun h => (spdm_finish s true).2 fun c => h c.1, (spdm_finish s false).2 (by simp),
    endTaken, endRefused⟩
  · exact ⟨(spdm_digests s).1 ho, ⟨_, (spdm_certificate s).1 ho⟩, fun n x => ⟨_, (spdm_challenge s n x).1 ho⟩⟩
  · exact ⟨(spdm_digests s).2 ho, (spdm_certificate s).2 ho, fun n x => (spdm_challenge s n x).2 ho⟩
  · exact ⟨fun h => ⟨_, (spdm_measurements s i x).1 h⟩, (spdm_measurements s i x).2⟩
  · exact ⟨fun h => ⟨_, (spdm_keyExchange s x).1 h⟩, (spdm_keyExchange s x).2⟩

/-- Settles O52: each of the four interfaces answers by its own rule; a request of BAR4 that writes goes through the home slice's write. -/
theorem hostInterfaceAnswers : Obligations.HostInterfaceAnswers :=
  ⟨doorbell_answers, registerWrite_answers, inbound_answers, spdm_answers⟩

end Sys2Proof.Machine
end

section
/-!
The decoder and the encoder undo one another: layout by layout, then opcode by opcode, then for rows of bytes (R7, R19, R27-R36,
R40-R43, R446).
-/
namespace Sys2Proof
open BitVec (extractLsb'_append_eq_of_le extractLsb'_append_eq_of_add_le extractLsb'_eq_self extractLsb'_append_extractLsb'_eq_extractLsb'
  extractLsb'_extractLsb'_of_le)

/-! ### Layouts of F words (R19, R28-R34) -/

/-- The ten layouts of an F word, with their fields, their encoder and their decoder. -/
inductive Layout where
  | alu | bra | brx | bare | mem | atom | mul | tile | eng | sys

abbrev Layout.Fields : Layout → Type
  | .alu => AluW | .bra => BraW | .brx => BrxW | .bare => BareW | .mem => MemW | .atom => AtomW
  | .mul => MulW | .tile => TileW | .eng => EngW | .sys => SysW

def Layout.enc : (l : Layout) → BitVec 8 → l.Fields → Word64
  | .alu => encodeAluW | .bra => encodeBraW | .brx => encodeBrxW | .bare => encodeBareW | .mem => encodeMemW | .atom => encodeAtomW
  | .mul => encodeMulW | .tile => encodeTileW | .eng => encodeEngW | .sys => encodeSysW

def Layout.dec : (l : Layout) → Word64 → l.Fields
  | .alu => decodeAluW | .bra => decodeBraW | .brx => decodeBrxW | .bare => decodeBareW | .mem => decodeMemW | .atom => decodeAtomW
  | .mul => decodeMulW | .tile => decodeTileW | .eng => decodeEngW | .sys => decodeSysW

/-- The type, opcode, guard and flag select of an encoded word, whatever its layout. -/
theorem Layout.head_enc (l : Layout) (op : BitVec 8) (x : l.Fields) : ∃ h, bits (l.enc op x) 46 18 = encodeHead op h := by
  cases l <;> refine ⟨x.head, ?_⟩ <;>
    simp (disch := omega) only [Layout.enc, encodeAluW, encodeBraW, encodeBrxW, encodeBareW, encodeMemW, encodeAtomW, encodeMulW,
      encodeTileW, encodeEngW, encodeSysW, bits, extractLsb'_append_eq_of_le, extractLsb'_eq_self, Nat.sub_self, Nat.reduceSub]

theorem bits_bits (w : Word64) (lo len a n : Nat) (h : a + n ≤ len) : (bits w lo len).extractLsb' a n = bits w (lo + a) n := by
  ext i hi
  simp [bits, show a + i < len by omega, Nat.add_assoc]

theorem Layout.tag_enc (l : Layout) (op : BitVec 8) (x : l.Fields) : bits (l.enc op x) 62 2 = 0 := by
  obtain ⟨h, hx⟩ := l.head_enc op x
  rw [← bits_bits _ 46 18 16 2 (by omega), hx]
  simp (disch := omega) only [encodeHead, extractLsb'_append_eq_of_le, extractLsb'_eq_self, Nat.sub_self, Nat.reduceSub]
theorem Layout.opcode_enc (l : Layout) (op : BitVec 8) (x : l.Fields) : bits (l.enc op x) 54 8 = op := by
  obtain ⟨h, hx⟩ := l.head_enc op x
  rw [← bits_bits _ 46 18 8 8 (by omega), hx]
  simp (disch := omega) only [encodeHead, extractLsb'_append_eq_of_le, extractLsb'_append_eq_of_add_le, extractLsb'_eq_self, Nat.sub_self,
    Nat.reduceSub]

/-- Every field of an encoded word reads back. -/
theorem Layout.dec_enc (l : Layout) (op : BitVec 8) (x : l.Fields) : l.dec (l.enc op x) = x := by
  cases l <;>
    simp (disch := omega) only [Layout.enc, encodeAluW, encodeBraW, encodeBrxW, encodeBareW, encodeMemW, encodeAtomW, encodeMulW,
      encodeTileW, encodeEngW, encodeSysW, encodeHead, Layout.dec, decodeAluW, decodeBraW, decodeBrxW, decodeBareW, decodeMemW,
      decodeAtomW, decodeMulW, decodeTileW, decodeEngW, decodeSysW, decodeHead, bits, extractLsb'_append_eq_of_le,
      extractLsb'_append_eq_of_add_le, extractLsb'_eq_self, Nat.sub_self, Nat.reduceSub]

/-- The fields of an F word, encoded again, are the word. -/
theorem Layout.enc_dec (l : Layout) (w : Word64) (h : bits w 62 2 = 0) : l.enc (bits w 54 8) (l.dec w) = w := by
  cases l <;>
    simp only [Layout.enc, encodeAluW, encodeBraW, encodeBrxW, encodeBareW, encodeMemW, encodeAtomW, encodeMulW,
      encodeTileW, encodeEngW, encodeSysW, encodeHead, Layout.dec, decodeAluW, decodeBraW, decodeBrxW, decodeBareW, decodeMemW,
      decodeAtomW, decodeMulW, decodeTileW, decodeEngW, decodeSysW, decodeHead, ← h] <;>
    simp (disch := omega) only [bits, extractLsb'_append_extractLsb'_eq_extractLsb', extractLsb'_eq_self]

/-! ### Halves of a P word (R36) -/

theorem decodeHalf_encodeHalf (h : Half) : decodeHalf (encodeHalf h) = h := by
  simp (disch := omega) only [decodeHalf, encodeHalf, extractLsb'_append_eq_of_le, extractLsb'_append_eq_of_add_le, extractLsb'_eq_self,
    Nat.sub_self, Nat.reduceSub]
theorem encodeHalf_decodeHalf (x : BitVec 31) : encodeHalf (decodeHalf x) = x := by
  simp (disch := omega) only [decodeHalf, encodeHalf, extractLsb'_append_extractLsb'_eq_extractLsb', extractLsb'_eq_self]

theorem decodeP_of_halves {w : Word64} {u l : Half} (hu : bits w 31 31 = encodeHalf u) (hl : bits w 0 31 = encodeHalf l)
    (h : halfAllocated u = true ∧ halfAllocated l = true) : decodeP w = .pWord u l := by
  simp only [halfAllocated, decide_eq_true_eq] at h
  simp only [decodeP, hu, hl, decodeHalf_encodeHalf, if_pos h]

/-! ### Opcodes of F words (R42, R43) -/

/-- The instruction of an F word by its opcode. -/
def decodeOp (op : Nat) (w : Word64) (c : CBlock) : Instr :=
  if op < 0x40 then decodeClassI op w
  else if op < 0x70 then decodeClassF op w
  else if op < 0x80 then decodeClassC op w
  else if op < 0xA0 then decodeClassB op w
  else if op < 0xC0 then decodeClassM op w
  else if op < 0xE0 then decodeClassX op w c
  else if op < 0xF0 then decodeClassE op w c
  else decodeClassS op w

theorem decodeWord_F {w : Word64} (c : CBlock) (h : bits w 62 2 = 0) : decodeWord w c = decodeOp (bits w 54 8).toNat w c := by
  unfold decodeWord
  rw [h]
  rfl
theorem decodeWord_P {w : Word64} (c : CBlock) (h : bits w 62 2 = 1) : decodeWord w c = decodeP w := by
  unfold decodeWord
  rw [h]
  rfl

/-- An encoded word decodes by its opcode to what that opcode makes of its fields. -/
theorem Layout.decodeWord_enc (l : Layout) {op : BitVec 8} {x : l.Fields} {c : CBlock} (con : l.Fields → Instr)
    (h : decodeOp op.toNat (l.enc op x) c = con (l.dec (l.enc op x))) : decodeWord (l.enc op x) c = con x := by
  rw [decodeWord_F c (l.tag_enc op x), l.opcode_enc, h, l.dec_enc]

theorem Layout.decodeWord_block (l : Layout) {op : BitVec 8} {x : l.Fields} {c : CBlock} (con : l.Fields → CBlock → Instr)
    (h : decodeOp op.toNat (l.enc op x) c = con (l.dec (l.enc op x)) c) : decodeWord (l.enc op x) c = con x c :=
  l.decodeWord_enc (con · c) h

/-- No class allocates a free opcode. -/
theorem decodeOp_free {n : Nat} (h : opcodeFree n = true) (hn : n < 256) (w : Word64) (c : CBlock) : decodeOp n w c = .unallocatedOpcode w := by
  simp only [opcodeFree, Bool.or_eq_true, Bool.and_eq_true, decide_eq_true_eq] at h
  rcases h with ((((((⟨_, _⟩ | ⟨_, _⟩) | ⟨_, _⟩) | ⟨_, _⟩) | ⟨_, _⟩) | ⟨_, _⟩) | ⟨_, _⟩) | _ <;> interval_cases n <;> rfl

/-! ### Words read back (R40-R43) -/

/-- The words of an instruction after its first: its parameter block, where it has one (R41). -/
def CBlock.follows (c : CBlock) (i : Instr) : List Word64 := if hasBlock i then [c.c0, c.c1, c.c2, c.c3] else []

/-- An instruction stands for something and is encoded by the words it was decoded from. -/
def readBack (w : Word64) (c : CBlock) (i : Instr) : Prop := wellFormed i = true ∧ encode i = w :: c.follows i

/-- The layout of an allocated opcode (R28-R34, R42). -/
def layoutOf (n : Nat) : Layout :=
  if n = 0x80 || n = 0x83 || n = 0x87 then .bra
  else if n = 0x81 then .brx
  else if 0x82 ≤ n && n ≤ 0x88 then .bare
  else if 0xA7 ≤ n && n ≤ 0xA9 then .atom
  else if 0xC4 ≤ n && n ≤ 0xC6 then .mul
  else if n < 0xA0 then .alu
  else if n < 0xC0 then .mem
  else if n < 0xE0 then .tile
  else if n < 0xF0 then .eng
  else .sys

/-- An opcode whose instruction carries the fields of its word as they stand. -/
theorem readBack_of_layout {n : Nat} {w : Word64} {c : CBlock} (hw : bits w 62 2 = 0) (hn : bits w 54 8 = BitVec.ofNat 8 n)
    (hf : wellFormed (decodeOp n w c) = true)
    (he : encode (decodeOp n w c) = (layoutOf n).enc (BitVec.ofNat 8 n) ((layoutOf n).dec w) :: c.follows (decodeOp n w c)) :
    readBack w c (decodeOp n w c) := by
  refine ⟨hf, he.trans ?_⟩
  rw [← hn, (layoutOf n).enc_dec w hw]

/-- Bit 1 of the subfield of an OBLD word (R238, R239). -/
theorem bits_one_iff (w : Word64) : bits w 1 1 = 1 ↔ (decodeTileW w).sub.getLsbD 1 = true := by
  have hb : bits w 1 1 = BitVec.ofBool (w.getLsbD 1) := by ext i hi; simp [bits, show i = 0 by omega]
  have hs : (decodeTileW w).sub.getLsbD 1 = w.getLsbD 1 := by simp only [decodeTileW, bits, BitVec.getLsbD_extractLsb']; rfl
  rw [hb, hs]
  cases w.getLsbD 1 <;> decide

theorem decodeOp_obld (w : Word64) (c : CBlock) : decodeOp 0xC3 w c =
    if (decodeTileW w).sub.getLsbD 1 then .obldB (decodeTileW w) else .obld (decodeTileW w) := by
  simp only [← bits_one_iff]
  rfl
theorem decodeOp_bar (w : Word64) (c : CBlock) : decodeOp 0xF6 w c =
    if (decodeSysW w).lvl = 1 then .barCluster (decodeSysW w) else if (decodeSysW w).lvl = 2 then .barDie (decodeSysW w)
    else if (decodeSysW w).lvl = 3 then .barGrid (decodeSysW w) else .barTeam (decodeSysW w) := rfl

section
variable {w : Word64} {c : CBlock} (hw : bits w 62 2 = 0)
include hw

theorem readBack_obld (hn : bits w 54 8 = BitVec.ofNat 8 0xC3) : readBack w c (decodeOp 0xC3 w c) := by
  have he : encodeTileW 0xC3 (decodeTileW w) = w := (congrArg (encodeTileW · _) hn).symm.trans (Layout.enc_dec .tile w hw)
  rw [decodeOp_obld]
  split
  · next h => exact ⟨by simpa [wellFormed, wfObld] using h, congrArg (· :: _) he⟩
  · next h => exact ⟨by simpa [wellFormed, wfObld] using h, congrArg (· :: _) he⟩

theorem readBack_bar (hn : bits w 54 8 = BitVec.ofNat 8 0xF6) : readBack w c (decodeOp 0xF6 w c) := by
  have he : encodeSysW 0xF6 (decodeSysW w) = w := (congrArg (encodeSysW · _) hn).symm.trans (Layout.enc_dec .sys w hw)
  rw [decodeOp_bar]
  split
  · next h => exact ⟨by simp [wellFormed, wfBar, h], congrArg (· :: _) he⟩
  split
  · next h => exact ⟨by simp [wellFormed, wfBar, h], congrArg (· :: _) he⟩
  split
  · next h => exact ⟨by simp [wellFormed, wfBar, h], congrArg (· :: _) he⟩
  · next h1 h2 h3 => exact ⟨by simpa [wellFormed, wfBar, and_assoc] using ⟨h1, h2, h3⟩, congrArg (· :: _) he⟩

/-- An opcode that names one instruction: all but those of OBLD and BAR (R42). -/
theorem readBack_allocated {n : Nat} (hn : bits w 54 8 = BitVec.ofNat 8 n) (h : n < 256) (hf : opcodeFree n = false) (ho : n ≠ 0xC3)
    (hb : n ≠ 0xF6) : readBack w c (decodeOp n w c) := by
  simp only [opcodeFree, Bool.or_eq_false_iff, Bool.and_eq_false_iff, decide_eq_false_iff_not] at hf
  have hcase : n < 0x39 ∨ (0x40 ≤ n ∧ n < 0x63) ∨ (0x70 ≤ n ∧ n < 0x78) ∨ (0x80 ≤ n ∧ n < 0x90) ∨ (0xA0 ≤ n ∧ n < 0xB2) ∨
      (0xC0 ≤ n ∧ n < 0xC3) ∨ (0xC4 ≤ n ∧ n < 0xD2) ∨ (0xE0 ≤ n ∧ n < 0xE9) ∨ (0xF0 ≤ n ∧ n < 0xF6) ∨ (0xF7 ≤ n ∧ n < 0xFC) := by omega
  clear hf ho hb
  rcases hcase with _ | ⟨_, _⟩ | ⟨_, _⟩ | ⟨_, _⟩ | ⟨_, _⟩ | ⟨_, _⟩ | ⟨_, _⟩ | ⟨_, _⟩ | ⟨_, _⟩ | ⟨_, _⟩ <;> interval_cases n <;>
    exact readBack_of_layout hw hn rfl rfl

theorem readBack_F : readBack w c (decodeWord w c) := by
  rw [decodeWord_F c hw]
  obtain ⟨n, hn⟩ : ∃ n, n = (bits w 54 8).toNat := ⟨_, rfl⟩
  have hlt : n < 256 := hn ▸ (bits w 54 8).isLt
  have hop : bits w 54 8 = BitVec.ofNat 8 n := by rw [hn, BitVec.ofNat_toNat, BitVec.setWidth_eq]
  rw [← hn]
  cases hfree : opcodeFree n with
  | true =>
    rw [decodeOp_free hfree hlt]
    have htag : (w.extractLsb' 62 2).toNat = 0 := congrArg BitVec.toNat hw
    refine ⟨?_, rfl⟩
    simp only [wellFormed, wfUnallocated, htag]
    exact (congrArg opcodeFree hn).symm.trans hfree
  | false =>
    by_cases ho : n = 0xC3
    · rw [ho] at hop ⊢; exact readBack_obld hw hop
    · by_cases hb : n = 0xF6
      · rw [hb] at hop ⊢; exact readBack_bar hw hop
      · exact readBack_allocated hw hop hlt hfree ho hb
end

/-- A P word's halves, and the places of their opcodes (R36). -/
theorem halves_of_P (w : Word64) (h : bits w 62 2 = 1) :
    (1 : BitVec 2) ++ encodeHalf (decodeHalf (bits w 31 31)) ++ encodeHalf (decodeHalf (bits w 0 31)) = w := by
  rw [encodeHalf_decodeHalf, encodeHalf_decodeHalf, ← h]
  simp (disch := omega) only [bits, extractLsb'_append_extractLsb'_eq_extractLsb', extractLsb'_eq_self]
theorem upper_op (w : Word64) : (decodeHalf (bits w 31 31)).op = w.extractLsb' 56 6 := bits_bits w 31 31 25 6 (by omega)
theorem lower_op (w : Word64) : (decodeHalf (bits w 0 31)).op = w.extractLsb' 25 6 := bits_bits w 0 31 25 6 (by omega)

theorem wfUnallocated_P {w : Word64} (h : bits w 62 2 = 1) : wfUnallocated w = !(halfAllocated (decodeHalf (bits w 31 31)) &&
    halfAllocated (decodeHalf (bits w 0 31))) := by
  have htag : (w.extractLsb' 62 2).toNat = 1 := congrArg BitVec.toNat h
  simp only [wfUnallocated, htag, halfAllocated, upper_op, lower_op, Bool.not_and, ← decide_not, Nat.not_le]

theorem readBack_P {w : Word64} {c : CBlock} (h : bits w 62 2 = 1) : readBack w c (decodeWord w c) := by
  rw [decodeWord_P c h]
  cases ha : halfAllocated (decodeHalf (bits w 31 31)) && halfAllocated (decodeHalf (bits w 0 31)) with
  | true =>
    rw [decodeP_of_halves (encodeHalf_decodeHalf _).symm (encodeHalf_decodeHalf _).symm (Bool.and_eq_true_iff.1 ha)]
    exact ⟨ha, congrArg (· :: _) (halves_of_P w h)⟩
  | false => 
    have hd : decodeP w = .unallocatedOpcode w := by
      refine if_neg fun hh => ?_
      simp only [halfAllocated, ← Bool.decide_and, decide_eq_false_iff_not] at ha
      exact ha hh
    rw [hd]
    exact ⟨(wfUnallocated_P h).trans (by rw [ha]; rfl), rfl⟩

theorem tag_cases (w : Word64) : bits w 62 2 = 0 ∨ bits w 62 2 = 1 ∨ bits w 62 2 = 2 ∨ bits w 62 2 = 3 := by
  generalize bits w 62 2 = x
  revert x
  decide

/-- Whatever stands at an issue position reads back. -/
theorem readBack_decodeWord (w : Word64) (c : CBlock) : readBack w c (decodeWord w c) := by
  rcases tag_cases w with h | h | h | h
  · exact readBack_F h
  · exact readBack_P h
  · have htag : (w.extractLsb' 62 2).toNat = 2 := congrArg BitVec.toNat h
    rw [show decodeWord w c = .unallocatedOpcode w by unfold decodeWord; rw [h]; rfl]
    exact ⟨by simp only [wellFormed, wfUnallocated, htag], rfl⟩
  · have htag : (w.extractLsb' 62 2).toNat = 3 := congrArg BitVec.toNat h
    rw [show decodeWord w c = .unallocatedOpcode w by unfold decodeWord; rw [h]; rfl]
    exact ⟨by simp only [wellFormed, wfUnallocated, htag], rfl⟩

/-- A word that is no instruction decodes to itself. -/
theorem decodeWord_unallocated {w : Word64} (c : CBlock) (h : wfUnallocated w = true) : decodeWord w c = .unallocatedOpcode w := by
  rcases tag_cases w with ht | ht | ht | ht
  · have htag : (w.extractLsb' 62 2).toNat = 0 := congrArg BitVec.toNat ht
    simp only [wfUnallocated, htag] at h
    exact (decodeWord_F c ht).trans (decodeOp_free h (bits w 54 8).isLt w c)
  · rw [wfUnallocated_P ht, Bool.not_eq_true', halfAllocated, halfAllocated, ← Bool.decide_and, decide_eq_false_iff_not] at h
    exact (decodeWord_P c ht).trans (if_neg h)
  · unfold decodeWord; rw [ht]; rfl
  · unfold decodeWord; rw [ht]; rfl

/-! ### Rows of bytes (R7) -/

theorem wordOfBytes_bytesOfWord (w : Word64) (rest : List Byte) : wordOfBytes (bytesOfWord w ++ rest) = w := by
  simp (disch := omega) only [bytesOfWord, List.cons_append, wordOfBytes, bits, extractLsb'_append_extractLsb'_eq_extractLsb',
    extractLsb'_eq_self]

theorem bytesOfWord_wordOfBytes {bs : List Byte} (h : 8 ≤ bs.length) : bytesOfWord (wordOfBytes bs) = bs.take 8 := by
  match bs with
  | b0 :: b1 :: b2 :: b3 :: b4 :: b5 :: b6 :: b7 :: r =>
    simp (disch := omega) only [wordOfBytes, bytesOfWord, bits, extractLsb'_append_eq_of_le, extractLsb'_append_eq_of_add_le,
      extractLsb'_eq_self, Nat.sub_self, Nat.reduceSub, List.take_succ_cons, List.take_zero]

@[simp] theorem length_bytesOfWord (w : Word64) : (bytesOfWord w).length = 8 := rfl
theorem drop_bytesOfWord (w : Word64) (rest : List Byte) : (bytesOfWord w ++ rest).drop 8 = rest := List.drop_left' (length_bytesOfWord w)

theorem blockOfBytes_bytes (c : CBlock) (rest : List Byte) :
    blockOfBytes (bytesOfWord c.c0 ++ (bytesOfWord c.c1 ++ (bytesOfWord c.c2 ++ (bytesOfWord c.c3 ++ rest)))) = c := by
  have hdrop (a b : Nat) (xs : List Byte) : xs.drop (a + b) = (xs.drop a).drop b := (List.drop_drop ..).symm
  rw [blockOfBytes, hdrop 8 8, hdrop 8 16, hdrop 8 8]
  simp only [drop_bytesOfWord, wordOfBytes_bytesOfWord]

/-- The bytes of an instruction without a block, and of one with its block, decode to it and leave what follows. -/
theorem decode_encode_word {i : Instr} {w : Word64} (he : encode i = [w]) (hd : ∀ c, decodeWord w c = i) (hb : hasBlock i = false)
    (rest : List Byte) : decode (encodeBytes i ++ rest) = .ok (i, rest) := by
  have hbytes : encodeBytes i ++ rest = bytesOfWord w ++ rest := by simp [encodeBytes, he]
  have hlen : ¬ (bytesOfWord w ++ rest).length < 8 := by simp
  rw [hbytes, decode, if_neg hlen]
  simp only [wordOfBytes_bytesOfWord, hd, hb, drop_bytesOfWord]
  rfl

theorem decode_encode_block {i : Instr} {w : Word64} {c : CBlock} (he : encode i = [w, c.c0, c.c1, c.c2, c.c3])
    (hd : decodeWord w c = i) (hb : hasBlock i = true) (rest : List Byte) : decode (encodeBytes i ++ rest) = .ok (i, rest) := by
  have hbytes : encodeBytes i ++ rest = bytesOfWord w ++ (bytesOfWord c.c0 ++ (bytesOfWord c.c1 ++ (bytesOfWord c.c2 ++
      (bytesOfWord c.c3 ++ rest)))) := by simp [encodeBytes, he]
  have hdrop (a b : Nat) (xs : List Byte) : xs.drop (a + b) = (xs.drop a).drop b := (List.drop_drop ..).symm
  have hlen : 40 ≤ (encodeBytes i ++ rest).length := by simp [hbytes]; omega
  rw [decode, if_neg (by omega : ¬ (encodeBytes i ++ rest).length < 8)]
  simp only [if_neg (by omega : ¬ (encodeBytes i ++ rest).length < 40)]
  rw [hbytes]
  simp only [wordOfBytes_bytesOfWord, drop_bytesOfWord, blockOfBytes_bytes, hd, hb, if_true]
  rw [hdrop 8 32, hdrop 8 24, hdrop 8 16, hdrop 8 8]
  simp only [drop_bytesOfWord]

/-- The bytes of a word and of its block, where it has one, in front of what follows. -/
theorem encodeBytes_append {bs : List Byte} {i : Instr} (h8 : 8 ≤ bs.length)
    (he : encode i = wordOfBytes bs :: (blockOfBytes (bs.drop 8)).follows i) :
    (hasBlock i = false → encodeBytes i ++ bs.drop 8 = bs) ∧
    (hasBlock i = true → 40 ≤ bs.length → encodeBytes i ++ bs.drop 40 = bs) := by
  refine ⟨fun hb => ?_, fun hb h40 => ?_⟩
  · simp [encodeBytes, he, CBlock.follows, hb, bytesOfWord_wordOfBytes h8]
  · have hb8 : ∀ n, n + 8 ≤ 40 → bytesOfWord (wordOfBytes (bs.drop n)) = (bs.drop n).take 8 := fun n hn =>
      bytesOfWord_wordOfBytes (by rw [List.length_drop]; omega)
    have hcut : ∀ n, (bs.drop n).take 8 ++ bs.drop (n + 8) = bs.drop n := fun n => by rw [← List.drop_drop, List.take_append_drop]
    simp only [encodeBytes, he, CBlock.follows, hb, if_true, blockOfBytes, List.drop_drop, Nat.reduceAdd, List.flatMap_cons, List.flatMap_nil,
      List.append_nil, List.append_assoc, bytesOfWord_wordOfBytes h8, hb8, Nat.reduceLeDiff]
    rw [hcut 32, hcut 24, hcut 16, hcut 8, List.take_append_drop]

/-- What the decoder reads of a row of bytes encodes to those bytes. -/
theorem encode_decode {bs rest : List Byte} {i : Instr} (h : decode bs = .ok (i, rest)) : wellFormed i = true ∧ encodeBytes i ++ rest = bs := by
  unfold decode at h
  split at h
  · simp at h
  · next h8 =>
    obtain ⟨hwf, he⟩ := readBack_decodeWord (wordOfBytes bs) (blockOfBytes (bs.drop 8))
    obtain ⟨hplain, hblock⟩ := encodeBytes_append (Nat.not_lt.1 h8) he
    dsimp only at h
    split at h
    · next hb =>
      split at h
      · simp at h
      · next h40 =>
        obtain ⟨rfl, rfl⟩ : _ ∧ _ := by simpa using h
        exact ⟨hwf, hblock hb (Nat.not_lt.1 h40)⟩
    · next hb =>
      obtain ⟨rfl, rfl⟩ : _ ∧ _ := by simpa using h
      exact ⟨hwf, hplain (by simpa using hb)⟩

/-! ### Queue slots (R446) -/

theorem slot_decodes {q : Nat} {s : QSlot} {i : Instr} (hq : q < 64) (h : decodeSlot q s = .ok i) : wellFormed i = true ∧ encode i = slotWords s := by
  have hwf (n : Nat) (hn : (bits s.low.w0 0 8).toNat = n) : wfCommand n q s = true := by
    simp only [wfCommand, Bool.and_eq_true, decide_eq_true_eq]
    exact ⟨hq, hn⟩
  unfold decodeSlot at h
  split at h <;> cases h <;> exact ⟨hwf _ ‹_›, rfl⟩

/-! ### Every instruction and command -/

theorem decodeWord_obld (x : TileW) (c : CBlock) :
    decodeWord (encodeTileW 0xC3 x) c = if x.sub.getLsbD 1 then .obldB x else .obld x :=
  Layout.decodeWord_enc .tile (fun x : TileW => if x.sub.getLsbD 1 then .obldB x else .obld x) (decodeOp_obld _ c)
theorem decodeWord_bar (x : SysW) (c : CBlock) : decodeWord (encodeSysW 0xF6 x) c =
    if x.lvl = 1 then .barCluster x else if x.lvl = 2 then .barDie x else if x.lvl = 3 then .barGrid x else .barTeam x :=
  Layout.decodeWord_enc .sys
    (fun x : SysW => if x.lvl = 1 then .barCluster x else if x.lvl = 2 then .barDie x else if x.lvl = 3 then .barGrid x else .barTeam x)
    (decodeOp_bar _ c)
theorem wfBar_level {n : Nat} {w : SysW} (hn : 0 < n ∧ n < 8) (h : wfBar n w = true) : w.lvl = BitVec.ofNat 3 n := by
  simp only [wfBar, if_neg hn.1.ne', decide_eq_true_eq] at h
  exact BitVec.eq_of_toNat_eq (h.trans (by simp [Nat.mod_eq_of_lt hn.2]))

theorem decodeWord_halves {u l : Half} (c : CBlock) (h : halfAllocated u = true ∧ halfAllocated l = true) :
    decodeWord ((1 : BitVec 2) ++ encodeHalf u ++ encodeHalf l) c = .pWord u l := by
  have htag : bits ((1 : BitVec 2) ++ encodeHalf u ++ encodeHalf l) 62 2 = 1 := by
    simp (disch := omega) only [bits, extractLsb'_append_eq_of_le, extractLsb'_eq_self, Nat.sub_self, Nat.reduceSub]
  rw [decodeWord_P c htag]
  refine decodeP_of_halves ?_ ?_ h
  · simp (disch := omega) only [bits, extractLsb'_append_eq_of_le, extractLsb'_append_eq_of_add_le, extractLsb'_eq_self, Nat.sub_self]
  · simp (disch := omega) only [bits, extractLsb'_append_eq_of_add_le, extractLsb'_eq_self]

/-- The command code of a slot that holds a command. -/
theorem slot_code {n q : Nat} {s : QSlot} (h : wfCommand n q s = true) : (bits s.low.w0 0 8).toNat = n :=
  of_decide_eq_true (Bool.and_eq_true_iff.1 h).2

/-- What encode writes of an instruction or command, the decoder reads back. -/
theorem decode_encode : Machine.roundTrip := by
  intro i hwf hne
  cases i
  case nop w | mov w | movi w | movh w | iadd w | isub w | iaddc w | imul w | imulh w | imulhu w | imad w | imadw w | idiv w |
    idivu w | irem w | iremu w | imin w | imax w | iminu w | imaxu w | iabs w | isad w | iadds w | isubs w | and w | or w | xor w |
    andn w | lop3 w | shl w | shr w | sar w | rot w | funl w | bfx w | bfxu w | bfi w | popc w | clz w | brev w | ffs w | iset w |
    isetu w | pset w | sel w | pmov w | xset w | xadd w | xget w | lea w | lea64 w | iadd64 w | isub64 w | iset64 w | sread w | swr w
    | kread w | fadd w | fsub w | fmul w | ffma w | fmin w | fmax w | fminn w | fmaxn w | fset w | fclass w | frnd w | frcp w | frsq w
    | fsqrt w | fdiv w | fex2 w | flg2 w | fsin w | fcos w | ftanh w | fsigm w | hadd2 w | hmul2 w | hfma2 w | badd2 w | bmul2 w |
    bfma2 w | hmax2 w | hmin2 w | idp4 w | fdp2h w | dadd w | dmul w | dfma w | dset w | cvt w | cvtp w | cvt64 w | qnt w | dqnt w |
    sclx w | prmt w | pack4 w | vote w | shfl w | matchKey w | redux w | scan w | elect w | gsync w =>
    exact decode_encode_word rfl (fun _ => Layout.decodeWord_enc .alu _ rfl) rfl
  case bra w | call w | brc w =>
    exact decode_encode_word rfl (fun _ => Layout.decodeWord_enc .bra _ rfl) rfl
  case brx w =>
    exact decode_encode_word rfl (fun _ => Layout.decodeWord_enc .brx _ rfl) rfl
  case join w | ret w | exit w | form w | yield w =>
    exact decode_encode_word rfl (fun _ => Layout.decodeWord_enc .bare _ rfl) rfl
  case ld w | st w | lds w | sts w | ldc w | ldx w | stx w | fence w | ldt w | stt w | pref w | cmaint w | fifopush w | fifopop w
    | bankcfg w =>
    exact decode_encode_word rfl (fun _ => Layout.decodeWord_enc .mem _ rfl) rfl
  case atom w | atoms w | red w =>
    exact decode_encode_word rfl (fun _ => Layout.decodeWord_enc .atom _ rfl) rfl
  case gang w | obrel w | tres w | trel w | tzero w | trd w | twr w | tst w | tscl w | rmap w | tsave w | tload w =>
    exact decode_encode_word rfl (fun _ => Layout.decodeWord_enc .tile _ rfl) rfl
  case obres w c | tepi w c =>
    exact decode_encode_block rfl (Layout.decodeWord_block .tile _ rfl) rfl
  case mma w | mmas w =>
    exact decode_encode_word rfl (fun _ => Layout.decodeWord_enc .mul _ rfl) rfl
  case mmar w c =>
    exact decode_encode_block rfl (Layout.decodeWord_block .mul _ rfl) rfl
  case cpy w c | tgms w c | cebld w c | cenbr w c | cewalk w c =>
    exact decode_encode_block rfl (Layout.decodeWord_block .eng _ rfl) rfl
  case cerel w | sbs w | sbsx w | pubf w =>
    exact decode_encode_word rfl (fun _ => Layout.decodeWord_enc .eng _ rfl) rfl
  case trap w | tret w | spawn w | twait w | arrv w | waitr w | dln w | prog w | hrd w | hwr w | halt w =>
    exact decode_encode_word rfl (fun _ => Layout.decodeWord_enc .sys _ rfl) rfl
  case obld w =>
    exact decode_encode_word rfl (fun c => (decodeWord_obld w c).trans (if_neg (by simpa [wellFormed, wfObld] using hwf))) rfl
  case obldB w =>
    exact decode_encode_word rfl (fun c => (decodeWord_obld w c).trans (if_pos (by simpa [wellFormed, wfObld] using hwf))) rfl
  case barTeam w =>
    simp only [wellFormed, wfBar, if_true, Bool.and_eq_true, decide_eq_true_eq] at hwf
    obtain ⟨⟨h1, h2⟩, h3⟩ := hwf
    exact decode_encode_word rfl (fun c => by rw [decodeWord_bar, if_neg h1, if_neg h2, if_neg h3]) rfl
  case barCluster w =>
    have h : w.lvl = 1 := wfBar_level (n := 1) (by decide) hwf
    exact decode_encode_word rfl (fun c => by rw [decodeWord_bar, h]; rfl) rfl
  case barDie w =>
    have h : w.lvl = 2 := wfBar_level (n := 2) (by decide) hwf
    exact decode_encode_word rfl (fun c => by rw [decodeWord_bar, h]; rfl) rfl
  case barGrid w =>
    have h : w.lvl = 3 := wfBar_level (n := 3) (by decide) hwf
    exact decode_encode_word rfl (fun c => by rw [decodeWord_bar, h]; rfl) rfl
  case pWord u l => exact decode_encode_word rfl (fun c => decodeWord_halves c (Bool.and_eq_true_iff.1 hwf)) rfl
  case unallocatedOpcode w => exact decode_encode_word rfl (fun c => decodeWord_unallocated c hwf) rfl
  case launch q s | step q s | seed q s | waith q s | signal q s | ckpt q s | handle q s | invtlb q s =>
    exact ⟨rfl, by rw [decodeSlot, slot_code hwf]; rfl⟩
  -- What is left is events of the part: no words stand for them.
  all_goals exact absurd rfl hne

/-- Settles O54: opcode by opcode, a word's layout inverts on both sides; a word that names no instruction stands for itself. -/
theorem decodeInvertsEncode : Obligations.DecodeInvertsEncode :=
  ⟨decode_encode, fun _ _ _ => encode_decode, fun _ _ _ => slot_decodes⟩

/-- Settles O53: each word is evaluated field by field, whatever stands after it. -/
theorem wordsDecode : Obligations.WordsDecode := fun _ =>
  ⟨rfl, rfl, rfl, rfl, rfl, rfl, rfl, rfl, rfl, rfl, rfl, rfl, rfl⟩

end Sys2Proof
end

section
/-!
A turn: the word at a unit's place is the one its bytes decode to, and the turn runs it (R8, R12, R14, R206, R445, R446).
-/
namespace Sys2Proof.Machine

/-! ### The word at a unit's place -/

theorem wordOfBytes_flatMap (ws : List Word64) : wordOfBytes (ws.flatMap bytesOfWord) = ws.getD 0 0 := by
  cases ws with
  | nil => rfl
  | cons w ws => exact wordOfBytes_bytesOfWord w _

theorem drop_flatMap_bytesOfWord (n : Nat) (ws : List Word64) : (ws.flatMap bytesOfWord).drop (8 * n) = (ws.drop n).flatMap bytesOfWord := by
  induction n generalizing ws with
  | zero => rfl
  | succ n ih =>
    cases ws with
    | nil => simp
    | cons w ws => rw [List.drop_succ_cons, ← ih, List.flatMap_cons, Nat.mul_succ, Nat.add_comm, ← List.drop_drop, drop_bytesOfWord]

theorem wordOfBytes_drop_flatMap (n : Nat) (ws : List Word64) : wordOfBytes ((ws.flatMap bytesOfWord).drop (8 * n)) = ws.getD n 0 := by
  rw [drop_flatMap_bytesOfWord, wordOfBytes_flatMap]
  simp [List.getD_eq_getElem?_getD]

/-- The instruction that a row of bytes decodes to is that of its first word and the four behind it. -/
theorem decodeWord_of_decode {bs rest : List Byte} {i : Instr} (h : decode bs = .ok (i, rest)) :
    decodeWord (wordOfBytes bs) (blockOfBytes (bs.drop 8)) = i := by
  unfold decode at h
  dsimp only at h
  split at h
  · cases h
  · split at h
    · split at h <;> cases h
      rfl
    · cases h
      rfl

/-- A unit issues the instruction that the bytes at its place decode to. -/
theorem currentWord_of_decode {s : State} {i : Issuer} {g : Group} {c : Clause} {ins : Instr} {rest : List Byte}
    (hu : s.unitOf i = some g) (hc : g.clause = some c) (hd : decode (s.bytesAt i c) = .ok (ins, rest)) : s.currentWord i = some ins := by
  have hword (n : Nat) : wordOfBytes ((s.bytesAt i c).drop (8 * n)) = (s.codeOf i).1.getD (c.h + c.pos + n) 0 := by
    simp only [State.bytesAt, wordOfBytes_drop_flatMap, List.getD_eq_getElem?_getD, List.getElem?_drop]
  have hblock : blockOfBytes ((s.bytesAt i c).drop 8) = ⟨(s.codeOf i).1.getD (c.h + c.pos + 1) 0, (s.codeOf i).1.getD (c.h + c.pos + 2) 0,
      (s.codeOf i).1.getD (c.h + c.pos + 3) 0, (s.codeOf i).1.getD (c.h + c.pos + 4) 0⟩ := by
    simp only [blockOfBytes, List.drop_drop, ← hword]
  rw [← decodeWord_of_decode hd, hblock, ← List.drop_zero (l := s.bytesAt i c), hword 0]
  simp only [State.currentWord, hu, hc, Option.bind_some, Option.map_some]

/-! ### A unit's turn -/

theorem modAt_eq_self {α : Type} {l : List α} {n : Nat} {f : α → α} (h : ∀ a, l[n]? = some a → f a = a) : modAt l n f = l := by
  apply List.ext_getElem?
  intro m
  rw [getElem?_modAt]
  split
  · next hm =>
    subst hm
    cases ha : l[n]? with
    | none => rfl
    | some a => rw [Option.map_some, h a ha]
  · rfl

/-- A change that leaves a unit as it is leaves the part as it is. -/
theorem State.modUnit_eq_self {s : State} {i : Issuer} {g : Group} {f : Group → Group} (hu : s.unitOf i = some g) (hf : f g = g) :
    s.modUnit i f = s := by
  cases i with
  | none => rfl
  | group t n =>
    have hteam : modAt s.teams t (fun tm => { tm with groups := modAt tm.groups n f }) = s.teams := by
      refine modAt_eq_self fun tm htm => ?_
      have hgroups : modAt tm.groups n f = tm.groups := by
        refine modAt_eq_self fun x hx => ?_
        simp only [State.unitOf, State.group?, htm, Option.bind_some, hx, Option.some.injEq] at hu
        rw [hu, hf]
      rw [hgroups]
    simp only [State.modUnit, State.modGroup, State.modTeam, hteam]
  | handler c =>
    have hcluster : modAt s.clusters c (fun cl => { cl with handler := cl.handler.map fun h => { h with cpu := f h.cpu } }) = s.clusters := by
      refine modAt_eq_self fun cl hcl => ?_
      have hhandler : cl.handler.map (fun h => { h with cpu := f h.cpu }) = cl.handler := by
        cases hh : cl.handler with
        | none => rfl
        | some h =>
          simp only [State.unitOf, hcl, hh, Option.bind_some, Option.map_some, Option.some.injEq] at hu
          simp only [Option.map_some, hu, hf]
          rw [← hu]
      rw [hhandler]
    simp only [State.modUnit, State.modCluster, hcluster]

theorem threads_held {g : Group} (h : ∀ l, (threadAt g l).held = none) {t : Thread} (ht : t ∈ g.threads) : t.held = none := by
  obtain ⟨l, hl, rfl⟩ := List.mem_iff_getElem.1 ht
  have := h l
  rwa [threadAt, List.getD_eq_getElem?_getD, List.getElem?_eq_getElem hl, Option.getD_some] at this

/-- With no thread held, nothing is dropped, complete or issued again (R169, R170). -/
theorem dropMoved_unheld {g : Group} (h : ∀ l, (threadAt g l).held = none) : dropMoved g = g := by
  have hmap : (g.threads.map fun (t : Thread) => match t.held with
      | some h => if h.stale && t.pc.toNat ≠ h.clause.h then { t with held := none } else t
      | none => t) = g.threads := by
    refine (List.map_congr_left fun t ht => ?_).trans (List.map_id _)
    rw [threads_held h ht]
    rfl
  unfold dropMoved
  exact congrArg (fun ts => { g with threads := ts }) hmap
theorem completeHeld_unheld {g : Group} (h : ∀ l, (threadAt g l).held = none) : completeHeld g = none := by
  simp [completeHeld, h]
theorem staleHeld_unheld {g : Group} (h : ∀ l, (threadAt g l).held = none) : staleHeld g = none := by
  simp [staleHeld, h]

/-- A unit inside a clause issues the word at its place. -/
theorem State.prepare_inside {s : State} {i : Issuer} {g : Group} {c : Clause} {ins : Instr} (hu : s.unitOf i = some g)
    (hc : g.clause = some c) (hr : g.hold ≠ .resumeWait) (hw : s.currentWord i = some ins) : s.prepare i = .word s ins := by
  simp only [State.prepare, hu, hc, if_neg hr, State.ready, hw]

/-- A unit as it starts a clause (R12, R17, R280). -/
def startedClause (c : Clause) (pc : Nat) (g : Group) : Group :=
  { clearWaited g c.wait with
    clause := some c, hold := .none, resumeAt := if (g.resumeAt.map Prod.fst) = some pc then none else g.resumeAt }

theorem State.startClause_starts {s : State} {i : Issuer} {g : Group} {pc : Nat} {lanes : BitVec 32} (hf : s.clauseFault i pc = none)
    (hz : flagsZero g ((clauseOf ((s.codeOf i).1.getD pc 0) pc lanes).wait ||| snapAt g pc) = true) :
    s.startClause i g pc lanes = (s.modUnit i (startedClause (clauseOf ((s.codeOf i).1.getD pc 0) pc lanes) pc)).ready i := by
  have hstart (c : Clause) : startedClause c pc = fun g => { clearWaited g c.wait with
      clause := some c, hold := .none
      resumeAt := match g.resumeAt with | some r => if r.1 = pc then none else some r | none => none } := by
    funext g
    unfold startedClause
    cases g.resumeAt with
    | none => rfl
    | some r => by_cases h : r.1 = pc <;> simp [h]
  simp only [State.startClause, hf, hz, if_true]
  exact congrArg (fun f => (s.modUnit i f).ready i) (hstart _).symm

/-- A change of a unit keeps every agent's code. -/
theorem State.codeOf_modUnit (s : State) (i j : Issuer) (f : Group → Group) : (s.modUnit i f).codeOf j = s.codeOf j := by
  cases i with
  | none => rfl
  | group t n =>
    cases j with
    | none => rfl
    | handler c => rfl
    | group u m =>
      simp only [State.codeOf, State.launchOf, State.modUnit, State.modGroup, State.modTeam, getElem?_modAt]
      split
      · cases s.teams[u]? <;> rfl
      · rfl
  | handler c =>
    cases j with
    | none => rfl
    | group u m => rfl
    | handler d =>
      simp only [State.codeOf, State.modUnit, State.modCluster, getElem?_modAt]
      split
      · cases s.clusters[d]? with
        | none => rfl
        | some cl => cases h : cl.handler <;> simp [h]
      · rfl

theorem State.bytesAt_modUnit (s : State) (i j : Issuer) (f : Group → Group) (c : Clause) : (s.modUnit i f).bytesAt j c = s.bytesAt j c := by
  rw [State.bytesAt, State.codeOf_modUnit, State.bytesAt]

/-- A unit between clauses starts the clause at its PC, and its first word issues. -/
theorem State.prepare_between {s : State} {i : Issuer} {g : Group} {pc : Nat} {lanes : BitVec 32} {ins : Instr} {rest : List Byte}
    (hu : s.unitOf i = some g) (hc : g.clause = none) (hh : ∀ l, (threadAt g l).held = none) (hn : nextClause g = some (pc, lanes))
    (hf : s.clauseFault i pc = none) (hz : flagsZero g ((clauseOf ((s.codeOf i).1.getD pc 0) pc lanes).wait ||| snapAt g pc) = true)
    (hd : decode (s.bytesAt i (clauseOf ((s.codeOf i).1.getD pc 0) pc lanes)) = .ok (ins, rest)) :
    s.prepare i = .word (s.modUnit i (startedClause (clauseOf ((s.codeOf i).1.getD pc 0) pc lanes) pc)) ins := by
  have hdrop := dropMoved_unheld hh
  have hword : (s.modUnit i (startedClause (clauseOf ((s.codeOf i).1.getD pc 0) pc lanes) pc)).currentWord i = some ins :=
    currentWord_of_decode (State.unitOf_modUnit_same _ hu) rfl (by rw [State.bytesAt_modUnit]; exact hd)
  simp only [State.prepare, hu, hc, hdrop, State.modUnit_eq_self hu hdrop, State.nextOf, completeHeld_unheld hh, staleHeld_unheld hh, hn,
    State.startClause_starts hf hz, State.ready, hword]

/-- The turn of a unit that has a word ready runs it. -/
theorem State.issueTurn_word {s t : State} {i : Issuer} {ins : Instr} (hr : s.mayRun i = true) (hp : s.prepare i = .word t ins) :
    s.issueTurn i = slotted { t with issuer := i } i (exec ins { t with issuer := i }) := by
  rw [State.issueTurn, if_pos hr, hp]

/-! ### A step -/

theorem step_of_turn {s : State} {u : Turn} (h : s.needsReset = false) (hu : s.nextTurn = some u) :
    step s = concluded s.beginTurn (s.beginTurn.take u) := by
  simp [step, State.advanceTurn, h, hu]

theorem step_runs : stepRuns := by
  intro s i u rest ins hs hu hi hr b g hg
  have hstep : step s = concluded b (b.issueTurn i) := by
    rw [step_of_turn hs hu]
    rcases hi with ⟨t, g, rfl, rfl⟩ | ⟨c, rfl, rfl⟩ <;> rfl
  refine ⟨fun c hc hh hd => ?_, fun pc lanes hc hh hn hf hz hd => ?_⟩
  · exact hstep.trans (congrArg _ (State.issueTurn_word hr (State.prepare_inside hg hc hh (currentWord_of_decode hg hc hd))))
  · exact hstep.trans (congrArg _ (State.issueTurn_word hr (State.prepare_between hg hc hh hn hf hz hd)))

theorem commandAt_of_decodeSlot {q : Nat} {slot : QSlot} {ins : Instr} (h : decodeSlot q slot = .ok ins) : commandAt q slot = ins := by
  have hcode (n : Nat) (hn : (bits slot.low.w0 0 8).toNat = n) : slotCode slot = if 2 ≤ n && n ≤ 8 then n else 1 := by
    have hfield : getField slot.low.w0 0 8 = n := by rw [← hn]; simp [getField, field, bits]
    simp only [slotCode, hfield]
  unfold decodeSlot at h
  split at h <;> cases h
  all_goals
    next hn => unfold commandAt; rw [hcode _ hn]; rfl

theorem turns_run : turnsRun := by
  intro s hs
  refine ⟨fun q slot ins ht hn hd => ?_, fun ins n ht he => ?_, fun h0 hb => ?_⟩
  · rw [step_of_turn hs ht]
    simp only [State.take, State.parseTurn, hn, commandAt_of_decodeSlot hd]
  · rw [step_of_turn hs ht]
    simp only [State.take, isEvent, he, decide_true, if_true]
  · have hnext : s.nextTurn = s.waiting.head? := by simp [State.nextTurn, h0, State.defaultTurn, hb]
    have hround : s.beginTurn.round = s.waiting.tail := by simp [State.beginTurn, State.roundAfter, h0, hb]
    rw [hnext, hround]
    exact ⟨rfl, by cases s.waiting <;> rfl⟩

/-- Settles O55: the word a unit's place holds is the one its bytes decode to, and its turn is that word's `exec`. -/
theorem stepRunsDecodedWord : Obligations.StepRunsDecodedWord := ⟨step_runs, turns_run⟩

end Sys2Proof.Machine
end

section
/-!
The address kept of a misaligned access of a thread's window is the virtual address (R187), not the address in the window that
`misalignedStop` names: the statement of the checks fails at LDX.
-/
namespace Sys2Proof.Machine

/-- A vector group of 32 threads inside a clause, with k0 = 1. -/
def windowedGroup : Group :=
  { Group.start .vector 256 0 32 with k := [(0, 1)], clause := some ⟨0, 0, 0, 1, 15, false, 1, BitVec.allOnes 32, false⟩ }

/-- Its team alone on core 0; its launch keeps the threads' own windows from 0x40000 on (R449). -/
def windowedWorld : State :=
  let s := State.reset.placed (.nop ⟨⟨0, 0, 0, 0⟩, 0, 0, 0, 0, 0⟩) []
  { s with
    teams := s.teams.map fun (t : Team) => { t with groups := [windowedGroup] }
    launches := s.launches.map fun (l : Launch) => { l with slot := { l.slot with low := { l.slot.low with w5 := 0x40000 } } }
    issuer := .group 0 0 }

/-- `LDX` of two bytes to v8 from the address in k0, of the thread's window. -/
def oddLdx : MemW := ⟨⟨0, 0, 0, 1⟩, 8, 0x100, 0, 1, 0, 0, 0, 0, 0, 0⟩

/-- The fault address that a word leaves in the group. -/
def faultAddrAfter (i : Instr) (s : State) : Option (BitVec 48) :=
  match Sys2Proof.Machine.exec i s with
  | .next u => (u.unitOf (.group 0 0)).map Group.faultAddr
  | _ => none

theorem windowedWorld_issues : windowedWorld.issues oddLdx.head (memCheck ruleLdc [.vector] false false oddLdx) windowedGroup :=
  ⟨rfl, rfl, by decide +kernel⟩

theorem oddLdx_faultAddr : faultAddrAfter (.ldx oddLdx) windowedWorld = some 0x40001 := by decide +kernel

/-- Refutes O25: an LDX at the odd address 1 of a window, in windows that begin at 0x40000, keeps its virtual address 0x40001; the statement
asks for 1. -/
theorem not_checksStop : ¬ Obligations.ChecksStop := by
  rintro ⟨_, _, hmisaligned⟩
  obtain ⟨tm, htm⟩ : ∃ tm, windowedWorld.teams[0]? = some tm := ⟨_, rfl⟩
  obtain ⟨-, -, -, -, -, hldx, -⟩ := hmisaligned windowedWorld 0 0 tm windowedGroup _ oddLdx rfl htm rfl (fun o ho => by cases ho)
  obtain ⟨u, bad, hexec, ⟨⟨g', hu, hg⟩, -⟩, -⟩ := hldx windowedWorld_issues 0 (by decide) (by decide) (by decide) (fun l hl => absurd hl (by omega))
  obtain ⟨-, -, -, -, -, -, -, -, -, -, haddr, -⟩ := hg
  have hkept := oddLdx_faultAddr
  simp only [faultAddrAfter, hexec, hu, Option.map_some, haddr] at hkept
  exact absurd hkept (by decide)

end Sys2Proof.Machine
end

section
/-!
Stops: what taking one leaves of the group, of the other units and of the part (R269-R273, R283, R285), for TRAP and for words that are
no instruction (R43, R276).
-/
namespace Sys2Proof.Machine

/-! ### The group that stops -/

theorem Group.still_of_sameRegs {g g' : Group} (h : sameRegs g g') : g.still g' :=
  ⟨keeps_same (by simp [Group.keeps]) h, fun l => (h.2.2.1 l).2.2.2.1⟩

theorem threadAt_of_mapIdx {g g' : Group} {f : Nat → Thread → Thread} (h : g'.threads = g.threads.mapIdx f) {l : Nat}
    (hl : l < g.threads.length) : threadAt g' l = f l (threadAt g l) := by
  simp [threadAt, h, List.getD_eq_getElem?_getD, List.getElem?_mapIdx, List.getElem?_eq_getElem hl]

/-- The number of a saved status word, field by field (R270). -/
theorem toNat_sswOf (cause pos : Nat) (wait : BitVec 12) (detail : Nat) (mask : BitVec 32) :
    (sswOf cause pos wait detail mask).toNat =
      cause % 256 + pos % 16 * 2 ^ 9 + wait.toNat * 2 ^ 13 + detail % 128 * 2 ^ 25 + mask.toNat % 2 ^ 16 * 2 ^ 32 := by
  have hwait := wait.isLt
  simp only [sswOf, field, BitVec.toNat_ofNat]
  omega

theorem sameRegs_stopGroup (g : Group) (cause pos detail : Nat) (wait : BitVec 12) (mask : BitVec 32) (addr : Nat) :
    sameRegs g { stopGroup g cause pos detail wait mask addr with ssw0 := g.ssw0, ssw1 := g.ssw1, faultAddr := g.faultAddr } := by
  refine (sameRegs_mapIdx g (fun l t => match g.clause with
      | some c => if c.lanes.getLsbD l then { t with pc := BitVec.ofNat 32 c.h, held := none } else stale t
      | none => stale t) fun l t => ?_).trans (sameRegs.refl _)
  cases g.clause with
  | none => simp [stale]
  | some c => dsimp only; split <;> simp [stale]

/-- The PC of a thread of a group that has stopped. -/
def stoppedPc (g : Group) (l : Nat) : BitVec 32 :=
  match g.clause with
  | some c => if c.lanes.getLsbD l then BitVec.ofNat 32 c.h else (threadAt g l).pc
  | none => (threadAt g l).pc

theorem pc_stopGroup (g : Group) (cause pos detail : Nat) (wait : BitVec 12) (mask : BitVec 32) (addr l : Nat) (hl : l < g.threads.length) :
    (threadAt (stopGroup g cause pos detail wait mask addr) l).pc = stoppedPc g l := by
  rw [threadAt_of_mapIdx (g := g) (g' := stopGroup g cause pos detail wait mask addr) rfl hl, stoppedPc]
  cases g.clause with
  | none => rfl
  | some c => dsimp only; split <;> rfl

/-! ### A word that ends its clause -/

theorem pc_settleJoins (n : Nat) (g : Group) (l : Nat) : (threadAt (settleJoins n g) l).pc = (threadAt g l).pc := by
  induction n generalizing g with
  | zero => rfl
  | succ n ih =>
    simp only [settleJoins]
    split
    · rfl
    · rw [ih]
      simp only [threadAt, popRecord, List.getD_eq_getElem?_getD, List.getElem?_mapIdx]
      cases g.threads[l]? with
      | none => rfl
      | some t => simp only [Option.map_some, Option.getD_some]; split <;> rfl

theorem clause_settleJoins (n : Nat) (g : Group) : (settleJoins n g).clause = g.clause := by
  induction n generalizing g with
  | zero => rfl
  | succ n ih =>
    simp only [settleJoins]
    split
    · rfl
    · rw [ih]; rfl

/-- A group past the last word of its clause: between clauses, the threads of the clause at the word behind it (R9). -/
theorem advance_last {g : Group} {c : Clause} (hc : g.clause = some c) (hlast : c.pos = c.len) :
    (advance 1 g).clause = none ∧ ∀ l, l < g.threads.length →
      (threadAt (advance 1 g) l).pc = if c.lanes.getLsbD l then BitVec.ofNat 32 (c.h + 1 + c.len) else (threadAt g l).pc := by
  have hend : advance 1 g = { endClause { g with hold := .none } c with hold := .none } := by
    simp [advance, hc, hlast]
  rw [hend]
  refine ⟨clause_settleJoins _ _, fun l hl => ?_⟩
  refine (pc_settleJoins _ _ l).trans ?_
  refine (congrArg Thread.pc (threadAt_of_mapIdx (g := g) rfl hl)).trans ?_
  split <;> rfl

/-! ### The part, while a stop is taken -/

/-- Teams may have changed, but not their groups. -/
def State.keepsGroups (s u : State) : Prop :=
  s.teamsOnly u ∧ ∀ t : Nat, (u.teams[t]?).map Team.groups = (s.teams[t]?).map Team.groups

theorem State.keepsGroups_mapIdx (s : State) (f : Nat → Team → Team) (hf : ∀ t tm, (f t tm).groups = tm.groups) :
    s.keepsGroups { s with teams := s.teams.mapIdx f } := by
  refine ⟨rfl, fun t => ?_⟩
  simp only [List.getElem?_mapIdx]
  cases s.teams[t]? with
  | none => rfl
  | some tm => simp [hf]

theorem State.keepsGroups_refl (s : State) : s.keepsGroups s := ⟨s.teamsOnly_refl, fun _ => rfl⟩

theorem State.keepsGroups_trans {s t u : State} (h : s.keepsGroups t) (k : t.keepsGroups u) : s.keepsGroups u :=
  ⟨State.teamsOnly_trans h.1 k.1, fun n => (k.2 n).trans (h.2 n)⟩

theorem State.switchOutCore_keepsGroups (s : State) (core : Nat) : s.keepsGroups (s.switchOutCore core) :=
  s.keepsGroups_mapIdx _ fun t tm => by split <;> rfl

theorem State.undrain_keepsGroups (s : State) (t : Nat) : s.keepsGroups (s.undrain t) := by
  unfold State.undrain
  split
  · exact s.keepsGroups_refl
  · split
    · exact s.keepsGroups_refl
    · exact s.keepsGroups_mapIdx _ fun u o => by split <;> rfl

theorem State.keepsGroups_unitOf {s u : State} (h : s.keepsGroups u) (j : Issuer) : u.unitOf j = s.unitOf j := by
  obtain ⟨honly, hgroups⟩ := h
  cases j with
  | none => rfl
  | handler c => rw [← honly]; rfl
  | group t gi =>
    have hat (x : State) : x.unitOf (.group t gi) = ((x.teams[t]?).map Team.groups).bind fun gs => gs[gi]? := by
      simp only [State.unitOf, State.group?]
      cases x.teams[t]? <;> rfl
    rw [hat, hat, hgroups]

/-- Taking a stop: the group is stopped, its stop stands at the end of its cluster's queue, and the groups of no team but it change. -/
theorem State.takeStop_keepsGroups (s : State) (t gi cause pos detail : Nat) (wait : BitVec 12) (mask : BitVec 32) (addr : Nat) :
    State.keepsGroups ((s.modGroup t gi fun g => stopGroup g cause pos detail wait mask addr).modCluster
      (((s.teams[t]?).map Team.core).getD 0 / 8) fun c => { c with stops := c.stops ++ [⟨t, gi, cause⟩] })
      (s.takeStop t gi cause pos detail wait mask addr) := by
  unfold State.takeStop
  dsimp only
  split
  · exact State.keepsGroups_trans (State.undrain_keepsGroups _ _) (State.switchOutCore_keepsGroups _ _)
  · exact State.undrain_keepsGroups _ _

theorem State.unitOf_queued (s : State) (c : Nat) (st : Stop) (j : Issuer) :
    (s.modCluster c fun x => { x with stops := x.stops ++ [st] }).unitOf j = s.unitOf j := by
  cases j with
  | none => rfl
  | group t gi => rfl
  | handler d =>
    simp only [State.unitOf, State.modCluster, getElem?_modAt]
    split
    · cases s.clusters[d]? <;> rfl
    · rfl

theorem State.takeStop_unit {s : State} {t gi : Nat} {g : Group} (hu : s.unitOf (.group t gi) = some g) (cause pos detail : Nat)
    (wait : BitVec 12) (mask : BitVec 32) (addr : Nat) :
    (s.takeStop t gi cause pos detail wait mask addr).unitOf (.group t gi) = some (stopGroup g cause pos detail wait mask addr) := by
  rw [State.keepsGroups_unitOf (s.takeStop_keepsGroups ..), State.unitOf_queued]
  exact State.unitOf_modUnit_same (i := .group t gi) _ hu

theorem State.takeStop_other {s : State} {t gi : Nat} {j : Issuer} (hj : j ≠ .group t gi) (cause pos detail : Nat)
    (wait : BitVec 12) (mask : BitVec 32) (addr : Nat) : (s.takeStop t gi cause pos detail wait mask addr).unitOf j = s.unitOf j := by
  rw [State.keepsGroups_unitOf (s.takeStop_keepsGroups ..), State.unitOf_queued]
  exact State.unitOf_modUnit_other (i := .group t gi) _ hj

theorem State.takeStop_clusters (s : State) (t gi cause pos detail : Nat) (wait : BitVec 12) (mask : BitVec 32) (addr : Nat) :
    (s.takeStop t gi cause pos detail wait mask addr).clusters =
      modAt s.clusters (((s.teams[t]?).map Team.core).getD 0 / 8) fun c => { c with stops := c.stops ++ [⟨t, gi, cause⟩] } :=
  congrArg State.clusters (s.takeStop_keepsGroups t gi cause pos detail wait mask addr).1

/-- A state's part but for teams and clusters. -/
def State.base (s : State) : State := { s.bare with teams := [], clusters := [] }

theorem State.takeStop_base (s : State) (t gi cause pos detail : Nat) (wait : BitVec 12) (mask : BitVec 32) (addr : Nat) :
    (s.takeStop t gi cause pos detail wait mask addr).base = s.base := by
  obtain ⟨honly, -⟩ := s.takeStop_keepsGroups t gi cause pos detail wait mask addr
  have hbase := congrArg State.base honly
  exact hbase

theorem map_modAt_comm {α β : Type} (l : List α) (n : Nat) (f : α → α) (f' : β → β) (h : α → β) (hf : ∀ a, h (f a) = f' (h a)) :
    (modAt l n f).map h = modAt (l.map h) n f' := by
  apply List.ext_getElem?
  intro m
  simp only [List.getElem?_map, getElem?_modAt]
  split
  · cases l[m]? <;> simp [hf]
  · rfl

/-- Two states with the same part have the same cores under their teams. -/
theorem State.core_of_bare {s v : State} (h : v.bare = s.bare) (t : Nat) : (v.teams[t]?).map Team.core = (s.teams[t]?).map Team.core := by
  have hat (x : State) : (x.teams[t]?).map Team.core = (x.bare.teams[t]?).map Team.core := by
    simp only [State.bare, List.getElem?_map]
    cases x.teams[t]? <;> rfl
  rw [hat v, hat s, h]

/-- A stop that a word takes after changing no more than its own unit, whose registers it kept. -/
theorem State.takeStop_stopsAt {s v : State} {t gi : Nat} {g g1 : Group} {tm : Team} (htm : s.teams[t]? = some tm)
    (hu : v.unitOf (.group t gi) = some g1) (hregs : sameRegs g g1) (hother : ∀ j, j ≠ .group t gi → v.unitOf j = s.unitOf j)
    (hbare : v.bare = s.bare) (cause detail pos : Nat) (wait : BitVec 12) (mask : BitVec 32) (addr : Nat) :
    s.stopsAt (v.takeStop t gi cause pos detail wait mask addr) t gi g tm cause detail pos wait mask addr := by
  have hwait := wait.isLt
  refine ⟨⟨stopGroup g1 cause pos detail wait mask addr, State.takeStop_unit hu .., rfl, rfl, ?cause, ?inh, ?pos, ?wait, ?detail, ?mask,
    ?rest, ?high, rfl, ?still⟩, fun j hj => (State.takeStop_other hj ..).trans (hother j hj), ?base, ?clusters⟩
  case still =>
    have hstill := sameRegs_stopGroup g1 cause pos detail wait mask addr
    obtain ⟨-, -, -, -, -, hssw0, hssw1, haddr, -⟩ := id hregs
    rw [hssw0, hssw1, haddr] at hstill
    exact Group.still_of_sameRegs (hregs.trans hstill)
  case base => exact (State.takeStop_base v ..).trans (congrArg (fun b : State => { b with teams := [], clusters := [] }) hbare)
  case clusters =>
    have hclusters : v.clusters.map Cluster.bare = s.clusters.map Cluster.bare := congrArg State.clusters hbare
    rw [State.takeStop_clusters, State.core_of_bare hbare, htm]
    simp only [Option.map_some, Option.getD_some]
    rw [map_modAt_comm _ _ _ (fun c : Cluster => { c with stops := c.stops ++ [⟨t, gi, cause⟩] }) _ fun _ => rfl, hclusters,
      map_modAt_comm _ _ _ (fun c : Cluster => { c with stops := c.stops ++ [⟨t, gi, cause⟩] }) _ fun _ => rfl]
  case high =>
    simp only [stopGroup, field, BitVec.toNat_ofNat]
    omega
  all_goals
    simp only [stopGroup, getField, field, toNat_sswOf]
    omega

/-! ### Words that are no instruction -/

theorem State.fault_group {s : State} {t gi : Nat} {g : Group} {c : Clause} (hu : s.unitOf (.group t gi) = some g)
    (hc : g.clause = some c) (cause detail : Nat) (mask : BitVec 32) (addr : Nat) :
    s.fault (.group t gi) cause detail mask addr = s.takeStop t gi cause c.pos detail c.wait mask addr := by
  have hg : s.group? t gi = some g := hu
  simp [State.fault, hg, hc]

theorem leastOf_le {l : List Nat} {a : Nat} (ha : a ∈ l) : ∃ b, leastOf l = some b ∧ b ≤ a := by
  induction l with
  | nil => cases ha
  | cons x xs ih =>
    simp only [leastOf]
    rcases List.mem_cons.mp ha with rfl | hxs
    · cases leastOf xs with
      | none => exact ⟨_, rfl, le_refl _⟩
      | some b => refine ⟨_, rfl, ?_⟩; split <;> omega
    · obtain ⟨b, hb, hle⟩ := ih hxs
      rw [hb]
      refine ⟨_, rfl, ?_⟩
      split <;> omega

/-- The ILLEGAL detail of a word that is no instruction. -/
def strayDetail (w : Word64) (g : Group) : Nat := (leastOf (strayDetails w g)).getD 0x01

/-- The tag of the word gives the detail; an unallocated half gives 0x0A, or a lesser detail of the halves (R43). -/
theorem strayDetail_tag (w : Word64) (g : Group) : (w.toNat / 2 ^ 62 = 0 → strayDetail w g = 0x01) ∧
    (w.toNat / 2 ^ 62 = 1 → strayDetail w g ≤ 0x0A) ∧ (w.toNat / 2 ^ 62 = 2 → strayDetail w g = 0x07) ∧
    (w.toNat / 2 ^ 62 = 3 → strayDetail w g = 0x08) := by
  have htag : getField w 62 2 = w.toNat / 2 ^ 62 := by
    have := w.isLt
    simp only [getField, field]
    omega
  refine ⟨fun h => ?_, fun h => ?_, fun h => ?_, fun h => ?_⟩ <;> simp only [strayDetail, strayDetails, htag, h]
  · rfl
  · obtain ⟨b, hb, hle⟩ := leastOf_le (l := (pairCheck (decodeHalf (w.extractLsb' 31 31)) (decodeHalf (w.extractLsb' 0 31)) g).details ++ [0x0A])
      (a := 0x0A) (by simp)
    simp only [hb, Option.getD_some, hle]
  · rfl
  · rfl

theorem straysStop_holds : straysStop := by
  intro w s g c t gi tm hi htm hu hc stops tag
  have hissuing : issuing g = c.lanes := by simp [issuing, hc]
  have hexec : Sys2Proof.Machine.exec (.unallocatedOpcode w) s = .next (s.takeStop t gi cIllegal c.pos (strayDetail w g) c.wait c.lanes 0) := by
    have hrun : Sys2Proof.Machine.exec (.unallocatedOpcode w) s = .next (s.fault s.issuer cIllegal (strayDetail w g) (issuing g) 0) := by
      show execUnallocatedOpcode w s = _
      simp only [execUnallocatedOpcode, hu, strayDetail]
    rw [hrun, hissuing, hi, State.fault_group (hi ▸ hu) hc]
  have hstops : stops (strayDetail w g) :=
    ⟨_, hexec, State.takeStop_stopsAt htm (hi ▸ hu) (sameRegs.refl g) (fun _ _ => rfl) rfl ..⟩
  obtain ⟨h0, h1, h2, h3⟩ := strayDetail_tag w g
  exact ⟨fun h => h0 h ▸ hstops, fun h => ⟨_, h1 h, hstops⟩, fun h => h2 h ▸ hstops, fun h => h3 h ▸ hstops⟩

/-! ### TRAP -/

theorem State.cancelWrites_nil (s : State) (i : Issuer) : (s.cancelWrites i []).ops = s.ops := by
  simp [State.cancelWrites]

theorem trapCheck_last {w : SysW} {g : Group} {c : Clause} (hc : g.clause = some c) (h : (trapCheck w g).details = []) : c.pos = c.len := by
  simp only [trapCheck, headDetails, hc, List.append_eq_nil_iff] at h
  by_contra hne
  simp [hne] at h

theorem trapGo_group {w : SysW} {s : State} {g : Group} {t gi : Nat} (hi : s.issuer = .group t gi) (hf : flagFree g w.head) :
    trapGo w s g = .next (if guardMask g w.head = 0 then s.retire 1 else
      (s.retire 1).takeStop t gi (trapCause w) 0 (trapCode w) 0 (guardMask g w.head) 0) := by
  have hblocked : flagBlocked g (selectedFlag g w.head.fs) = false := hf
  simp [trapGo, State.fixed, hblocked, hi]

theorem trapsStop_holds : trapsStop := by
  intro w s g c t gi tm hi htm hissues hf hc
  obtain ⟨hu, -, hfault⟩ := id hissues
  obtain ⟨hdetails, -⟩ := firstFault_none hfault
  obtain ⟨hclause, hpc⟩ := advance_last hc (trapCheck_last hc hdetails)
  have hgo : Sys2Proof.Machine.exec (.trap w) s = trapGo w s g := by
    show execTrap w s = _
    exact hissues.run _
  have hexec := hgo.trans (trapGo_group hi hf)
  have hunit := State.unitOf_retire 1 hu
  have hregs := sameRegs_advance 1 g
  refine ⟨fun hnone => ?runs, fun hsome => ?stops⟩
  case runs =>
    rw [if_pos hnone] at hexec
    refine ⟨_, _, hexec, hunit, fun j hj => State.unitOf_retire_other 1 hj, Group.still_of_sameRegs hregs, s.bare_retire 1, ?_⟩
    rw [State.cancelWrites_nil, State.retire_ops]
  case stops =>
    rw [if_neg hsome] at hexec
    rw [hi] at hunit
    refine ⟨_, hexec, ?_, fun l hl => ?_⟩
    · have hcode : trapCode w = 8 * w.sg.toNat + w.slot.toNat := by simp only [trapCode]; omega
      rw [← hcode]
      exact State.takeStop_stopsAt htm hunit hregs (fun j hj => State.unitOf_retire_other 1 (hi ▸ hj)) (s.bare_retire 1) ..
    · rw [hi, State.takeStop_unit hunit, Option.map_some, pc_stopGroup _ _ _ _ _ _ _ _ (by rw [hregs.2.1]; exact hl), stoppedPc, hclause]
      exact congrArg some (hpc l hl)

/-- Settles O26: both stops go through `takeStop`; TRAP after its clause has ended. -/
theorem trapsAndStraysStop : Obligations.TrapsAndStraysStop := ⟨trapsStop_holds, straysStop_holds⟩

end Sys2Proof.Machine
end

section
/-!
Completions: what a unit holds once an operation is delivered to it (R135, R185), and what the debug window reads of an item it has
written (R278).
-/
namespace Sys2Proof.Machine

/-! ### Register writes, the last one to each register counting -/

theorem modThread_eq_self {g : Group} {l : Nat} {f : Thread → Thread} (hf : ∀ t, f t = t) : modThread g l f = g := by
  simp [modThread, modAt_eq_self fun t _ => hf t]

/-- A write to a predicate that a thread does not have changes nothing. -/
theorem writeP_beyond (t : Thread) {n : Nat} (hn : 16 ≤ n) (b : Bool) : writeP t n b = t := by
  have hzero : (1 : BitVec 16) <<< n = 0#16 := BitVec.shiftLeft_eq_zero hn
  cases b <;> simp only [writeP, hzero, BitVec.or_zero, BitVec.not_zero, BitVec.and_allOnes, Bool.false_eq_true, if_true, if_false]

theorem applyWrite_beyond {g : Group} {w : RegWrite} {n : Nat} (hw : w.reg = .p n) (hn : 16 ≤ n) : applyWrite g w = g := by
  obtain ⟨r, l, v⟩ := w
  obtain rfl : r = .p n := hw
  cases l with
  | none => rfl
  | some l => exact modThread_eq_self fun t => writeP_beyond t hn _

/-- A register that a unit has in a lane. -/
def Group.has (g : Group) (l : Nat) : RegName → Prop
  | .v _ => l < g.threads.length
  | .k _ => True
  | .p n => l < g.threads.length ∧ n < 16

theorem readName_applyWrite_reached {g : Group} {w : RegWrite} {l : Nat} {r : RegName} (hr : g.has l r) (h : reaches w l r) :
    readName (applyWrite g w) l r = stored w := by
  obtain ⟨hreg, -⟩ := id h
  cases r with
  | v n => exact readName_applyWrite_same g w l _ (fun m hm => by simp [hreg] at hm) hr h
  | p n =>
    obtain ⟨hl, hn⟩ := hr
    exact readName_applyWrite_same g w l _ (fun m hm => by rw [hreg, RegName.p.injEq] at hm; omega) hl h
  | k n =>
    obtain ⟨wr, wl, wv⟩ := w
    obtain rfl : wr = .k n := hreg
    cases wl <;> simp [applyWrite, readName, stored]

theorem readName_applyWrite_unreached {g : Group} {w : RegWrite} {l : Nat} {r : RegName} (h : ¬ reaches w l r) :
    readName (applyWrite g w) l r = readName g l r := by
  by_cases hbeyond : ∃ n, w.reg = .p n ∧ 16 ≤ n
  · obtain ⟨n, hw, hn⟩ := hbeyond
    rw [applyWrite_beyond hw hn]
  · exact readName_applyWrite_other g w l r (fun n hw => not_le.mp fun hn => hbeyond ⟨n, hw, hn⟩) h

theorem lastWrite_append_reached {ws : List RegWrite} {w : RegWrite} {l : Nat} {r : RegName} (h : reaches w l r) :
    lastWrite (ws ++ [w]) l r = some w := by
  obtain ⟨hreg, hlane⟩ := h
  cases r <;> simp_all [lastWrite]

theorem lastWrite_append_unreached {ws : List RegWrite} {w : RegWrite} {l : Nat} {r : RegName} (h : ¬ reaches w l r) :
    lastWrite (ws ++ [w]) l r = lastWrite ws l r := by
  cases r <;> simp_all [lastWrite, reaches]

/-- What a register reads after some writes: the last that reaches it. -/
def readLast (g : Group) (ws : List RegWrite) (l : Nat) (r : RegName) : Reg32 :=
  match lastWrite ws l r with
  | some w => stored w
  | none => readName g l r

theorem readName_foldl (ws : List RegWrite) {g : Group} {l : Nat} {r : RegName} (hr : g.has l r) :
    readName (ws.foldl applyWrite g) l r = readLast g ws l r := by
  induction ws using List.reverseRecOn with
  | nil => rfl
  | append_singleton ws w ih =>
    rw [List.foldl_append, List.foldl_cons, List.foldl_nil, readLast]
    by_cases h : reaches w l r
    · have hhas : (ws.foldl applyWrite g).has l r := by
        cases r <;> simp only [Group.has, (foldl_applyWrite_keeps ws g).1] at hr ⊢ <;> exact hr
      rw [readName_applyWrite_reached hhas h, lastWrite_append_reached h]
    · rw [readName_applyWrite_unreached h, lastWrite_append_unreached h, ih, readLast]

theorem lastWrite_reg {ws : List RegWrite} {l : Nat} {r : RegName} {w : RegWrite} (h : lastWrite ws l r = some w) : w.reg = r := by
  have hmem := List.mem_of_getLast? h
  simp only [List.mem_filter, Bool.and_eq_true, decide_eq_true_eq] at hmem
  exact hmem.2.1

/-! ### What register writes and flags leave -/

/-- A unit, and a thread, without what an operation delivers. -/
def Group.frame (g : Group) : Group := { g with threads := [], k := [], mstat := 0, cf := [] }
def Thread.frame (t : Thread) : Thread := { t with v := [], p := 0, status := 0 }

/-- Two units differ in nothing but what operations deliver. -/
def Group.sameFrame (g g' : Group) : Prop :=
  g'.frame = g.frame ∧ g'.threads.length = g.threads.length ∧ ∀ l, (threadAt g' l).frame = (threadAt g l).frame

theorem Group.sameFrame_refl (g : Group) : g.sameFrame g := ⟨rfl, rfl, fun _ => rfl⟩

theorem Group.sameFrame_trans {a b c : Group} (h : a.sameFrame b) (k : b.sameFrame c) : a.sameFrame c :=
  ⟨k.1.trans h.1, k.2.1.trans h.2.1, fun l => (k.2.2 l).trans (h.2.2 l)⟩

theorem Group.sameFrame_modThread (g : Group) (l : Nat) {f : Thread → Thread} (hf : ∀ t, (f t).frame = t.frame) :
    g.sameFrame (modThread g l f) := by
  refine ⟨rfl, modThread_length g l f, fun m => ?_⟩
  rw [threadAt_modThread]
  split
  · exact hf _
  · rfl

theorem Group.sameFrame_applyWrite (g : Group) (w : RegWrite) : g.sameFrame (applyWrite g w) := by
  unfold applyWrite
  split
  · exact g.sameFrame_modThread _ fun _ => rfl
  · exact g.sameFrame_modThread _ fun _ => rfl
  · exact ⟨rfl, rfl, fun _ => rfl⟩
  · exact g.sameFrame_refl

theorem Group.sameFrame_foldl {α : Type} {f : Group → α → Group} (hf : ∀ (g : Group) a, g.sameFrame (f g a)) (as : List α) (g : Group) :
    g.sameFrame (as.foldl f g) := by
  induction as generalizing g with
  | nil => exact g.sameFrame_refl
  | cons a as ih => exact Group.sameFrame_trans (hf g a) (ih _)

/-! ### Sticky flags -/

theorem flagsFor_append (fl : List (Nat × BitVec 5)) (e : Nat × BitVec 5) (l : Nat) :
    flagsFor (fl ++ [e]) l = if e.1 = l then flagsFor fl l ||| e.2.zeroExtend 32 else flagsFor fl l := by
  by_cases h : e.1 = l <;> simp [flagsFor, h]

theorem status_raiseFlags_all (fl : List (Nat × BitVec 5)) {g : Group} {l : Nat} (hl : l < g.threads.length) :
    (threadAt (raiseFlags g fl) l).status = (threadAt g l).status ||| flagsFor fl l := by
  induction fl using List.reverseRecOn with
  | nil => simp [raiseFlags, flagsFor]
  | append_singleton fl e ih =>
    have hstep : raiseFlags g (fl ++ [e]) = modThread (raiseFlags g fl) e.1 fun t => { t with status := t.status ||| e.2.zeroExtend 32 } := by
      simp [raiseFlags]
    have hlength : l < (raiseFlags g fl).threads.length := by rw [(raiseFlags_keeps fl g).2.1]; exact hl
    rw [hstep, threadAt_modThread, flagsFor_append]
    by_cases h : e.1 = l
    · rw [if_pos ⟨h, hlength⟩, if_pos h, ih, BitVec.or_assoc]
    · rw [if_neg fun hh => h hh.1, if_neg h, ih]

theorem flagCount_flagDown (g : Group) (f n : Nat) : flagCount (flagDown g f) n = flagCount g n - if f = n then 1 else 0 := by
  simp only [flagCount, flagDown, List.getD_eq_getElem?_getD, getElem?_modAt]
  split
  · cases g.cf[n]? <;> simp
  · simp

/-! ### An operation delivered -/

/-- The registers and threads of a unit to which an operation is delivered: its writes, then its flags. -/
def written (o : Op) (g : Group) : Group := raiseFlags (o.writes.foldl applyWrite g) o.fstat

theorem sameFrame_raiseFlags (fl : List (Nat × BitVec 5)) (g : Group) : g.sameFrame (raiseFlags g fl) := by
  refine Group.sameFrame_foldl (fun g e => ?_) fl g
  exact g.sameFrame_modThread e.1 fun _ => rfl

theorem sameFrame_written (o : Op) (g : Group) : g.sameFrame (written o g) :=
  Group.sameFrame_trans (Group.sameFrame_foldl Group.sameFrame_applyWrite o.writes g) (sameFrame_raiseFlags o.fstat _)

theorem readName_written (o : Op) {g : Group} {l : Nat} {r : RegName} (hr : g.has l r) :
    readName (written o g) l r = readLast g o.writes l r := by
  rw [← readName_foldl o.writes hr]
  obtain ⟨hk, -, hthreads, -⟩ := raiseFlags_keeps o.fstat (o.writes.foldl applyWrite g)
  obtain ⟨hv, hp, -⟩ := hthreads l
  cases r with
  | v n => exact congrArg (fun c => Cells.get 0 c n) hv
  | k n => exact hk n
  | p n => exact congrArg (fun p : BitVec 16 => if p.getLsbD n then (1 : Reg32) else 0) hp

theorem status_written (o : Op) {g : Group} {l : Nat} (hl : l < g.threads.length) :
    (threadAt (written o g) l).status = (threadAt g l).status ||| flagsFor o.fstat l := by
  obtain ⟨hlength, hkept, -⟩ := foldl_applyWrite_keeps o.writes g
  rw [written, status_raiseFlags_all o.fstat (hlength ▸ hl), (hkept l).2.1]

/-- `received` is `written` with the status of the matrix group raised and the flag counted down. -/
theorem received_eq (o : Op) (g : Group) :
    received o g = { written o g with mstat := g.mstat ||| o.mstat, cf := match o.flag with | some f => modAt g.cf f (· - 1) | none => g.cf } := by
  obtain ⟨-, -, hmstat, -, -, -, -, -, -, -, hcf, -⟩ := foldl_applyWrite_keeps o.writes g
  obtain ⟨-, -, -, hmstat', -, -, -, -, -, -, -, hcf', -⟩ := raiseFlags_keeps o.fstat (o.writes.foldl applyWrite g)
  cases hf : o.flag <;> simp [received, written, hf, flagDown, hmstat, hmstat', hcf, hcf']

/-- A bit as a register tells the bit. -/
theorem bit_inj {a b : Bool} (h : (if a then (1 : Reg32) else 0) = if b then 1 else 0) : a = b := by
  cases a <;> cases b <;> simp_all

theorem delivered_received (o : Op) (g : Group) : g.delivered (received o g) o := by
  rw [received_eq]
  have hread (l : Nat) (r : RegName) (hr : g.has l r) := readName_written o hr
  obtain ⟨hframe, hlength, hthreads⟩ := sameFrame_written o g
  refine ⟨fun l n hl => ?v, fun n => ?k, fun l n hl hn => ?p, fun l hl => status_written o hl, rfl, fun n => ?flag, hframe, hlength, hthreads⟩
  case v =>
    refine (hread l (.v n) hl).trans ?_
    cases h : lastWrite o.writes l (.v n) with
    | none => simp only [readLast, h, readName]
    | some w => simp only [readLast, h, stored, lastWrite_reg h]
  case k =>
    refine (hread 0 (.k n) trivial).trans ?_
    cases h : lastWrite o.writes 0 (.k n) with
    | none => simp only [readLast, h, readName]
    | some w => simp only [readLast, h, stored, lastWrite_reg h]
  case p =>
    have hbit := hread l (.p n) ⟨hl, hn⟩
    show readP (threadAt (written o g) l) n = _
    cases h : lastWrite o.writes l (.p n) with
    | none =>
      simp only [readLast, h, readName] at hbit
      exact bit_inj hbit
    | some w =>
      simp only [readLast, h, readName, stored, lastWrite_reg h] at hbit
      refine bit_inj (hbit.trans ?_)
      by_cases hv : w.value = 0 <;> simp [hv]
  case flag =>
    cases hf : o.flag with
    | none => simp [flagCount]
    | some f =>
      simp only [Option.some.injEq]
      exact flagCount_flagDown g f n

theorem State.completes_of_finishOp {s base : State} {i : Instr} {o : Op} (h : Sys2Proof.Machine.exec i s = .next (base.finishOp o)) :
    s.completes i o base :=
  ⟨_, h, State.ops_finishOp base o, State.bare_finishOp base o, fun _ hj => State.unitOf_finishOp_other o hj,
    fun g hg => ⟨received o g, State.unitOf_finishOp o hg, delivered_received o g⟩⟩

theorem State.completeOp_eq (s : State) (o : Op) : s.completeOp o = (s.arriving o).finishOp o := by
  unfold State.completeOp State.arriving
  cases o.arrive <;> rfl

/-! ### The events -/

theorem resultsDelivered_holds : resultsDelivered := by
  refine fun s o => ⟨fun h => ?division, fun h => ?fpLong, fun h => ⟨fun heffect => ?mma, fun ids heffect => ?member⟩, fun h => ?tileReg,
    fun h => ?rmap, fun h hbefore => ?arrv⟩ <;> apply State.completes_of_finishOp
  case division =>
    show execDivisionComplete s = _
    simp only [execDivisionComplete, h]
  case fpLong =>
    show execFpLongComplete s = _
    simp only [execFpLongComplete, h]
  case mma =>
    show execMmaComplete s = _
    simp only [execMmaComplete, h, heffect, State.completeOp_eq]
  case member =>
    show execMmaComplete s = _
    simp only [execMmaComplete, h, heffect, State.completeOp_eq, List.contains_iff_mem]
  case tileReg =>
    show execTileRegComplete s = _
    simp only [execTileRegComplete, h, State.completeOp_eq]
  case rmap =>
    show execRmapComplete s = _
    simp only [execRmapComplete, h, State.completeOp_eq]
  case arrv =>
    have hfree : (s.ops.any fun p => p.id < o.id && p.issuer = o.issuer && beforeArrival p) = false := by
      simp only [List.any_eq_false, Bool.and_eq_true, decide_eq_true_eq]
      rintro p hp ⟨⟨hid, hissuer⟩, hpending⟩
      simp [hbefore p hp hid hissuer] at hpending
    show execArrvInversion s = _
    simp only [execArrvInversion, h, hfree, State.completeOp_eq, Bool.false_eq_true, if_false]

theorem windowsDelivered_holds : windowsDelivered := by
  intro s o c h hop hissuer hhandler
  refine ⟨fun heffect => ?read, ?write⟩
  case read =>
    apply State.completes_of_finishOp
    show execHrdHwrComplete s = _
    simp only [execHrdHwrComplete, hop, hissuer, hhandler, heffect]
  case write =>
    intro space index lane v heffect _ _ _ sel gr hgr names
    apply State.completes_of_finishOp
    show execHrdHwrComplete s = _
    simp only [execHrdHwrComplete, hop, hissuer, hhandler, heffect, State.windowWrite, hgr]
    rfl

/-! ### Items of the debug window -/

/-- The fields of a selector (R278). -/
theorem getField_selectorOf {space index lane : Nat} (hs : space < 16) (hi : index < 256) (hl : lane < 32) :
    getField (selectorOf space index lane) 0 8 = index ∧ getField (selectorOf space index lane) 8 5 = lane ∧
    getField (selectorOf space index lane) 16 4 = space := by
  simp only [getField, field, selectorOf, BitVec.toNat_ofNat]
  omega

theorem threadAt_modThread_same {g : Group} {l : Nat} (hl : l < g.threads.length) (f : Thread → Thread) :
    threadAt (modThread g l f) l = f (threadAt g l) := by
  rw [threadAt_modThread, if_pos ⟨rfl, hl⟩]

@[simp] theorem modThread_cohort (g : Group) (l : Nat) (f : Thread → Thread) : (modThread g l f).cohort = g.cohort := rfl
@[simp] theorem modThread_alloc (g : Group) (l : Nat) (f : Thread → Thread) : (modThread g l f).alloc = g.alloc := rfl

theorem readX_writeX (x : IndexRegs) (i : Nat) (a : BitVec 16) : readX (writeX x i a) i = a := by
  match i with
  | 0 | 1 | 2 | _ + 3 => rfl

theorem truncate_zeroExtend_16 (v : Reg32) : (v.truncate 16 : BitVec 16).zeroExtend 32 = v &&& 0xFFFF := by
  ext i hi
  interval_cases i <;> simp

theorem getLsbD_lowHalf (w : Word64) {i : Nat} (hi : i < 32) : (lowHalf w).getLsbD i = w.getLsbD i := by
  simp [lowHalf, hi]

theorem getLsbD_highHalf (w : Word64) {i : Nat} (hi : i < 32) : (highHalf w).getLsbD i = w.getLsbD (32 + i) := by
  rw [highHalf, BitVec.getLsbD_extractLsb', decide_eq_true hi, Bool.true_and]

theorem lowHalf_setField (w : Word64) (v : Reg32) : lowHalf (setField w 0 32 v.toNat) = v := by
  apply BitVec.eq_of_getLsbD_eq
  intro i hi
  rw [getLsbD_lowHalf _ hi, getLsbD_setField _ _ _ _ _ (by omega), if_pos (by omega), Nat.sub_zero, BitVec.testBit_toNat]

theorem highHalf_setField (w : Word64) (v : Reg32) : highHalf (setField w 32 32 v.toNat) = v := by
  apply BitVec.eq_of_getLsbD_eq
  intro i hi
  rw [getLsbD_highHalf _ hi, getLsbD_setField _ _ _ _ _ (by omega), if_pos (by omega), Nat.add_sub_cancel_left, BitVec.testBit_toNat]

theorem getLsbD_bit8 : ∀ i < 32, (0x100 : Reg32).getLsbD i = decide (i = 8) ∧ (0xFFFFFEFF : Reg32).getLsbD i = !decide (i = 8) := by decide

/-- INH, bit 8, is kept when the low half of the saved status is written (R278). -/
theorem lowHalf_setField_inh (w : Word64) (v : Reg32) : lowHalf (setField (setField w 0 32 v.toNat) 8 1 (getField w 8 1)) =
    (v &&& 0xFFFFFEFF) ||| (lowHalf w &&& 0x100) := by
  apply BitVec.eq_of_getLsbD_eq
  intro i hi
  obtain ⟨hbit, hmask⟩ := getLsbD_bit8 i hi
  rw [getLsbD_lowHalf _ hi, getLsbD_setField _ _ _ _ _ (by omega), BitVec.getLsbD_or, BitVec.getLsbD_and, BitVec.getLsbD_and,
    getLsbD_lowHalf _ hi, hbit, hmask]
  by_cases h8 : i = 8
  · subst h8
    simp [getField, field, BitVec.getLsbD, Nat.testBit_eq_decide_div_mod_eq]
  · rw [if_neg (by omega), getLsbD_setField _ _ _ _ _ (by omega), if_pos (by omega), Nat.sub_zero, BitVec.testBit_toNat]
    simp [h8]

/-- The exit bits read back in the cohort's lanes. -/
theorem exits_writeExits {g : Group} (hlen : g.threads.length = 32) (v : Reg32) :
    (maskOf fun l => g.cohort.getLsbD l && (threadAt (writeExits g v) l).exited) = v &&& g.cohort := by
  apply BitVec.eq_of_getLsbD_eq
  intro l hl
  rw [getLsbD_maskOf, BitVec.getLsbD_and, threadAt_of_mapIdx (g := g) (g' := writeExits g v) rfl (hlen ▸ hl)]
  cases g.cohort.getLsbD l <;> cases v.getLsbD l <;> cases h : (threadAt g l).exited <;> simp [hl, h]

/-- The flag counts, the fault address, the gang and the cohort are not written through the window. -/
theorem writeItem_readOnly (g : Group) {sel : Reg32} (v : Reg32) (h : getField sel 16 4 ∈ [7, 9, 11, 12]) : writeItem g sel v = g := by
  simp only [List.mem_cons, List.not_mem_nil, or_false] at h
  rcases h with h | h | h | h <;> simp only [writeItem, h]

/-- The saved status is written in its halves, INH apart. -/
theorem readItem_writeItem_ssw (g : Group) {sel : Reg32} (v : Reg32) {index : Nat} (h0 : getField sel 0 8 = index) (h16 : getField sel 16 4 = 8) :
    readItem (writeItem g sel v) sel = if index = 0 then (v &&& 0xFFFFFEFF) ||| (readItem g sel &&& 0x100) else v := by
  simp only [readItem, writeItem, h0, h16]
  match index with
  | 0 => exact lowHalf_setField_inh g.ssw0 v
  | 1 => exact highHalf_setField g.ssw0 v
  | 2 => exact lowHalf_setField g.ssw1 v
  | _ + 3 => exact highHalf_setField g.ssw1 v

theorem readItem_status {g : Group} {sel : Reg32} {lane : Nat} (h8 : getField sel 8 5 = lane) (h16 : getField sel 16 4 = 6) :
    readItem g sel = if g.cohort.getLsbD lane then (threadAt g lane).status else 0 := by
  simp only [readItem, h8, h16]

theorem writeItem_status {g : Group} {sel : Reg32} {lane : Nat} (h8 : getField sel 8 5 = lane) (h16 : getField sel 16 4 = 6) (v : Reg32) :
    writeItem g sel v = if g.cohort.getLsbD lane then
      modThread g lane fun t => { t with status := (t.status &&& ~~~fstatWritable) ||| (v &&& fstatWritable) } else g := by
  simp only [writeItem, h8, h16]

theorem readItem_mstat {g : Group} {sel : Reg32} (h16 : getField sel 16 4 = 10) : readItem g sel = g.mstat := by
  simp only [readItem, h16]

theorem writeItem_mstat {g : Group} {sel : Reg32} (h16 : getField sel 16 4 = 10) (v : Reg32) :
    writeItem g sel v = { g with mstat := (g.mstat &&& ~~~mstatWritable) ||| (v &&& mstatWritable) } := by
  simp only [writeItem, h16]

theorem windowItems_holds : windowItems := by
  intro g index lane v hi hl hlen own reads was
  have hsel (space : Nat) (hs : space < 16) := getField_selectorOf hs hi hl
  have hthread := threadAt_modThread_same hlen
  have kept (space : Nat) (hs : space < 16) (hro : space ∈ [7, 9, 11, 12]) : reads space (was space) := by
    obtain ⟨-, -, h16⟩ := hsel space hs
    exact congrArg (readItem · _) (writeItem_readOnly g v (by rw [h16]; exact hro))
  refine ⟨?v, ?k, ?p, ?x, ?pc, ?exits, ?status, ?flags, ?ssw, ?addr, ?mstat, ?gang, ?cohort⟩
  case v =>
    obtain ⟨h0, h8, h16⟩ := hsel 0 (by decide)
    simp only [reads, own, readItem, writeItem, h0, h8, h16]
    by_cases ha : index < g.alloc <;> by_cases hc : g.cohort.getLsbD lane = true <;> simp [ha, hc, hthread]
  case k =>
    obtain ⟨h0, -, h16⟩ := hsel 1 (by decide)
    simp only [reads, readItem, writeItem, h0, h16, readK_writeK, if_true]
  case p =>
    obtain ⟨-, h8, h16⟩ := hsel 2 (by decide)
    simp only [reads, own, readItem, writeItem, h8, h16]
    by_cases hc : g.cohort.getLsbD lane = true <;> simp only [hc, hthread, modThread_cohort, if_true, Bool.false_eq_true, if_false]
    exact truncate_zeroExtend_16 v
  case x =>
    obtain ⟨h0, h8, h16⟩ := hsel 3 (by decide)
    simp only [reads, own, readItem, writeItem, h0, h8, h16]
    by_cases hc : g.cohort.getLsbD lane = true <;> simp [hc, hthread, readX_writeX]
  case pc =>
    obtain ⟨-, h8, h16⟩ := hsel 4 (by decide)
    simp only [reads, own, readItem, writeItem, h8, h16]
    by_cases hc : g.cohort.getLsbD lane = true <;> simp [hc, hthread]
  case exits =>
    intro hlength
    obtain ⟨-, -, h16⟩ := hsel 5 (by decide)
    simp only [reads, readItem, writeItem, h16]
    exact exits_writeExits hlength v
  case status =>
    obtain ⟨-, h8, h16⟩ := hsel 6 (by decide)
    show readItem _ _ = _
    simp only [own, was, readItem_status h8 h16, writeItem_status h8 h16]
    by_cases hc : g.cohort.getLsbD lane = true <;> simp only [hc, hthread, modThread_cohort, if_true, Bool.false_eq_true, if_false]
  case ssw =>
    obtain ⟨h0, -, h16⟩ := hsel 8 (by decide)
    exact readItem_writeItem_ssw g v h0 h16
  case mstat =>
    obtain ⟨-, -, h16⟩ := hsel 10 (by decide)
    show readItem _ _ = _
    simp only [was, readItem_mstat h16, writeItem_mstat h16]
  case flags => exact kept 7 (by decide) (by decide)
  case addr => exact kept 9 (by decide) (by decide)
  case gang => exact kept 11 (by decide) (by decide)
  case cohort => exact kept 12 (by decide) (by decide)

/-- Settles O31: the completed operation is delivered by `finishOp`, behind its arrival. -/
theorem operationsDeliver : Obligations.OperationsDeliver := ⟨resultsDelivered_holds, windowsDelivered_holds, windowItems_holds⟩

end Sys2Proof.Machine
end

section
/-!
The sticky flags after a P word: the statement asks of a bit beyond the 32 of the register as much as of the others, because its `↔` binds
looser than the bound on the bit before it.
-/
namespace Sys2Proof.Machine

/-- The upper half adds v2 to v1, the lower moves v4 to v3. -/
def addHalf : Half := { op := 0x01, d := 1, i := 0, s := 2, g := 0, n := 0, pred := 0, rsv := 0 }
def moveHalf : Half := { op := 0x00, d := 3, i := 0, s := 4, g := 0, n := 0, pred := 0, rsv := 0 }

theorem windowedWorld_issues_pair : windowedWorld.issues pairHead (pairCheck addHalf moveHalf) windowedGroup := ⟨rfl, rfl, by decide +kernel⟩

/-- Refutes O8: after a P word that issues in thread 0, the clause of the sticky flags holds a bit 32 to be raised, since
`i < 32 → status` is true of it; no register and no row of flags has that bit. -/
theorem not_pairsAndBlocksRun : ¬ Obligations.PairsAndBlocksRun := by
  rintro ⟨hpair, -⟩
  obtain ⟨t, g', -, -, -, ⟨-, hstatus, -⟩, -⟩ := hpair addHalf moveHalf windowedWorld windowedGroup windowedWorld_issues_pair
  have hraised := (hstatus 0 (by decide) 32).mp fun hlt => absurd hlt (by decide)
  rcases hraised with hkept | ⟨h, -, -, hflag⟩
  · rw [BitVec.getLsbD_of_ge _ _ (by decide)] at hkept
    cases hkept
  · rw [BitVec.getLsbD_of_ge _ _ (by decide)] at hflag
    cases hflag

end Sys2Proof.Machine
end

section
/-!
Loads: the lanes a load acts in, their addresses and destinations, and the operation it starts (R180, R182, R187, R188).
-/
namespace Sys2Proof.Machine

/-! ### Lanes, addresses and destinations -/

/-- The judged address of a lane. -/
def State.judged (s : State) (g : Group) (sp : Space) (need : Need) (wide : Bool) (a : Spec) (off : BitVec 12) (size l : Nat) : LaneAddr :=
  s.laneAddrOf sp need size l (laneAddr g l wide a off size)

theorem State.laneAddrOf_lane (s : State) (sp : Space) (need : Need) (size l : Nat) (x : Int) :
    (s.laneAddrOf sp need size l x).lane = l ∧ (s.laneAddrOf sp need size l x).addr = x := by
  unfold State.laneAddrOf
  dsimp only
  split
  · exact ⟨rfl, rfl⟩
  · split
    · split <;> exact ⟨rfl, rfl⟩
    · split <;> exact ⟨rfl, rfl⟩
    · split <;> exact ⟨rfl, rfl⟩
    · split <;> exact ⟨rfl, rfl⟩

theorem State.laneAddrOf_global (s : State) (need : Need) (size l : Nat) (x : Int) :
    (s.laneAddrOf .global need size l x).va = x.toNat := by
  unfold State.laneAddrOf
  dsimp only
  split
  · rfl
  · split <;> rfl

/-- An address of a thread's window that no check turns away counts from the window's base. -/
theorem State.laneAddrOf_priv {s : State} {need : Need} {size l : Nat} {x : Int} (h : (s.laneAddrOf .priv need size l x).bad = none) :
    (s.laneAddrOf .priv need size l x).va = (s.privWindow (s.viewTeam s.issuer) (issuerGroup s.issuer) l).1 + x.toNat := by
  unfold State.laneAddrOf at h ⊢
  dsimp only at h ⊢
  split at h
  · cases h
  · next haligned =>
    rw [if_neg haligned]
    split at h
    · cases h
    · next hbounds =>
      rw [if_neg hbounds]
      simp only [Bool.or_eq_true, decide_eq_true_eq, not_or, not_lt] at hbounds
      show Int.toNat _ = _
      omega

theorem filter_map_contains {α : Type} (ls ks : List Nat) (f : Nat → α) (key : α → Nat) (hf : ∀ l, key (f l) = l) :
    (ls.map f).filter (fun a => ks.contains (key a)) = (ls.filter fun l => ks.contains l).map f := by
  rw [List.filter_map]
  congr 1
  exact List.filter_congr fun l _ => by simp only [Function.comp, hf]

/-- The lanes a word acts in, of those it is judged in. -/
theorem filter_actLanes (g : Group) (h : Head) (d : Spec) :
    (lanesOf (guardMask g h)).filter (fun l => (actLanes g h d).contains l) = actLanes g h d := by
  unfold actLanes
  split
  · have hnodup := lanesOf_nodup (guardMask g h)
    cases hl : lanesOf (guardMask g h) with
    | nil => rfl
    | cons x xs =>
      rw [hl, List.nodup_cons] at hnodup
      have hrest : xs.filter (fun l => [x].contains l) = [] := by
        refine List.filter_eq_nil_iff.mpr fun y hy hyx => hnodup.1 ?_
        simp only [List.contains_cons, List.contains_nil, Bool.or_false, beq_iff_eq] at hyx
        exact hyx ▸ hy
      simp only [List.take_succ_cons, List.take_zero, List.filter_cons, hrest]
      simp
  · exact List.filter_eq_self.mpr fun l hl => by simpa using hl

theorem actLanes_ne_nil {g : Group} {h : Head} (d : Spec) (hm : guardMask g h ≠ 0) : actLanes g h d ≠ [] := by
  have hlanes : lanesOf (guardMask g h) ≠ [] := by
    intro hnil
    refine hm (BitVec.eq_of_getLsbD_eq fun l _ => ?_)
    by_contra hbit
    have hmem : l ∈ lanesOf (guardMask g h) := lanesOf_mem.mpr (by simpa using hbit)
    rw [hnil] at hmem
    cases hmem
  unfold actLanes
  split
  · simpa [List.take_eq_nil_iff] using hlanes
  · exact hlanes

theorem actLanes_nodup (g : Group) (h : Head) (d : Spec) : (actLanes g h d).Nodup := by
  unfold actLanes
  split
  · exact (lanesOf_nodup _).sublist (List.take_sublist _ _)
  · exact lanesOf_nodup _

theorem actLanes_guarded {g : Group} {h : Head} {d : Spec} {l : Nat} (hl : l ∈ actLanes g h d) : l ∈ lanesOf (guardMask g h) := by
  unfold actLanes at hl
  split at hl
  · exact List.mem_of_mem_take hl
  · exact hl

theorem judgedAddrs_acting (s : State) (g : Group) (h : Head) (sp : Space) (need : Need) (wide : Bool) (a d : Spec) (off : BitVec 12)
    (size : Nat) : ((judgedAddrs s g h sp need wide a off size).filter fun x => (actLanes g h d).contains x.lane) =
      (actLanes g h d).map (s.judged g sp need wide a off size) := by
  have hmap := filter_map_contains (lanesOf (guardMask g h)) (actLanes g h d) (s.judged g sp need wide a off size) LaneAddr.lane
    fun l => (s.laneAddrOf_lane sp need size l _).1
  exact hmap.trans (congrArg _ (filter_actLanes g h d))

theorem loadDests_acting (s : State) (g : Group) (ls : List Nat) (sp : Space) (need : Need) (wide : Bool) (a d : Spec) (off : BitVec 12)
    (size : Nat) (signed : Bool) : loadDests g (ls.map (s.judged g sp need wide a off size)) d size 0 signed false =
      ls.filterMap (loadSlot g d size signed fun _ => none) := by
  rw [loadDests, List.filterMap_map]
  refine List.filterMap_congr fun l _ => ?_
  have hlane : (s.judged g sp need wide a off size l).lane = l := (s.laneAddrOf_lane sp need size l _).1
  simp only [Function.comp, hlane, loadSlot]
  cases regNames g l d 1 with
  | nil => rfl
  | cons r rs => cases r <;> rfl

/-- The destination of a lane is found by its lane. -/
theorem find_filterMap_lane {β : Type} (slot : Nat → Option (Nat × β)) (hslot : ∀ l x, slot l = some x → x.1 = l) {ls : List Nat}
    (hnodup : ls.Nodup) {l : Nat} (hl : l ∈ ls) : (ls.filterMap slot).find? (fun d => d.1 = l) = slot l := by
  induction ls with
  | nil => cases hl
  | cons k ks ih =>
    obtain ⟨hk, hks⟩ := List.nodup_cons.mp hnodup
    rcases List.mem_cons.mp hl with rfl | hmem
    · cases hs : slot l with
      | some x => simp [hs, hslot l x hs]
      | none =>
        rw [List.filterMap_cons_none hs, List.find?_eq_none]
        intro x hx hxl
        obtain ⟨m, hm, hmx⟩ := List.mem_filterMap.mp hx
        have hml := (hslot m x hmx).symm.trans (of_decide_eq_true hxl)
        exact hk (hml ▸ hm)
    · have hne : k ≠ l := fun hkl => hk (hkl ▸ hmem)
      cases hs : slot k with
      | none => rw [List.filterMap_cons_none hs, ih hks hmem]
      | some x =>
        rw [List.filterMap_cons_some hs, List.find?_cons_of_neg (by simpa [hslot k x hs] using hne), ih hks hmem]

theorem loadSlot_lane {g : Group} {d : Spec} {size : Nat} {signed : Bool} {tag : Nat → Option RegName} (l : Nat) (x : Nat × LoadDest)
    (h : loadSlot g d size signed tag l = some x) : x.1 = l := by
  obtain ⟨r, -, rfl⟩ := Option.map_eq_some_iff.mp h
  rfl

/-! ### Verdicts -/

theorem leastOf_mem {l : List Nat} {a : Nat} (h : leastOf l = some a) : a ∈ l := by
  induction l generalizing a with
  | nil => cases h
  | cons x xs ih =>
    simp only [leastOf] at h
    cases hxs : leastOf xs with
    | none => simp only [hxs, Option.some.injEq] at h; simp [h]
    | some b =>
      simp only [hxs, Option.some.injEq] at h
      split at h
      · simp [h]
      · exact List.mem_cons_of_mem _ (ih (hxs.trans (congrArg some h)))

theorem judge_none {lanes : List Nat} {verdict : Nat → Option (Nat × Nat × Nat)} (h : judge lanes verdict = none) {l : Nat} (hl : l ∈ lanes) :
    verdict l = none := by
  unfold judge at h
  cases hleast : leastOf (lanes.filterMap fun l => (verdict l).map Prod.fst) with
  | none =>
    have hnil := leastOf_eq_none hleast
    simpa using List.filterMap_eq_nil_iff.mp hnil l hl
  | some step =>
    obtain ⟨m, hm, hstep⟩ := List.mem_filterMap.mp (leastOf_mem hleast)
    obtain ⟨v, hv, hvs⟩ := Option.map_eq_some_iff.mp hstep
    rw [hleast] at h
    dsimp only at h
    split at h
    · next hbad =>
      have hin : m ∈ lanes.filter fun l => match verdict l with | some v => v.1 = step | none => false :=
        List.mem_filter.mpr ⟨hm, by simp [hv, hvs]⟩
      exact absurd (hbad ▸ hin) (by simp)
    · next k ks hbad =>
      have hin : k ∈ lanes.filter fun l => match verdict l with | some v => v.1 = step | none => false := hbad ▸ List.mem_cons_self
      obtain ⟨-, hk⟩ := List.mem_filter.mp hin
      cases hvk : verdict k with
      | none => simp [hvk] at hk
      | some x => simp [hvk] at h

/-- Every lane of an access that goes on has passed its checks. -/
theorem judged_passes {s : State} {g : Group} {h : Head} {sp : Space} {need : Need} {wide : Bool} {a : Spec} {off : BitVec 12} {size : Nat}
    (hj : s.judgeLanes (judgedAddrs s g h sp need wide a off size) 0 size = none) {l : Nat} (hl : l ∈ lanesOf (guardMask g h)) :
    (s.judged g sp need wide a off size l).bad = none := by
  have hlane (k : Nat) : (s.judged g sp need wide a off size k).lane = k := (s.laneAddrOf_lane sp need size k _).1
  have hfind : (judgedAddrs s g h sp need wide a off size).find? (fun x => x.lane = l) = some (s.judged g sp need wide a off size l) := by
    have hslots : judgedAddrs s g h sp need wide a off size = (lanesOf (guardMask g h)).map (s.judged g sp need wide a off size) := rfl
    rw [hslots, List.find?_map]
    cases hf : (lanesOf (guardMask g h)).find? ((fun x => decide (x.lane = l)) ∘ s.judged g sp need wide a off size) with
    | none => exact absurd (List.find?_eq_none.mp hf l hl) (by simp [hlane])
    | some k =>
      have hk := List.find?_some hf
      simp only [Function.comp, hlane, decide_eq_true_eq] at hk
      rw [hk, Option.map_some]
  have hmem : l ∈ (judgedAddrs s g h sp need wide a off size).map LaneAddr.lane :=
    List.mem_map.mpr ⟨_, List.mem_map.mpr ⟨l, hl, rfl⟩, hlane l⟩
  have hverdict := judge_none hj hmem
  rw [hfind] at hverdict
  dsimp only at hverdict
  split at hverdict
  · cases hverdict
  · assumption

/-! ### Translations, where memory, tables and cores are the same -/

theorem State.walk_congr {s u : State} (h : ∀ key pa n, u.homeBytes key pa n = s.homeBytes key pa n) (n level table va : Nat) :
    u.walk n level table va = s.walk n level table va := by
  induction n generalizing level table with
  | zero => rfl
  | succ n ih => simp only [State.walk, h, ih]

theorem State.translate_congr {s u : State} (h : ∀ key pa n, u.homeBytes key pa n = s.homeBytes key pa n) (hdies : u.dies = s.dies)
    (hcontexts : u.contexts = s.contexts) (die ctx va : Nat) : u.translate die ctx va = s.translate die ctx va := by
  simp only [State.translate, hdies, hcontexts, State.walk_congr h]

theorem State.bare_coreOf (s : State) (i : Issuer) : s.bare.coreOf i = s.coreOf i := by
  cases i with
  | none => rfl
  | handler c => rfl
  | group t gi =>
    simp only [State.coreOf, State.bare, List.getElem?_map]
    cases s.teams[t]? <;> rfl

theorem State.bare_ctxOf (s : State) (i : Issuer) : s.bare.ctxOf i = s.ctxOf i := by
  have hlaunch (t : Nat) : s.bare.launchOf t = s.launchOf t := by
    simp only [State.launchOf, State.bare, List.getElem?_map]
    cases s.teams[t]? <;> rfl
  have hteam : s.bare.teamOf i = s.teamOf i := by
    cases i with
    | none => rfl
    | group t gi => rfl
    | handler c =>
      simp only [State.teamOf, State.bare, List.getElem?_map]
      cases s.clusters[c]? with
      | none => rfl
      | some cl => simp only [Option.map_some, Option.bind_some, Cluster.bare]; cases cl.handler <;> rfl
  simp only [State.ctxOf, hteam, hlaunch]

theorem State.bare_paOf (s : State) (va : Nat) : s.bare.paOf va = s.paOf va := by
  have htrans := State.translate_congr (s := s) (u := s.bare) (fun _ _ _ => rfl) rfl rfl
  have hissuer : s.bare.issuer = s.issuer := rfl
  simp only [State.paOf, htrans, hissuer, State.bare_coreOf, State.bare_ctxOf]

theorem State.paOf_of_bare {s u : State} (h : u.bare = s.bare) (va : Nat) : u.paOf va = s.paOf va := by
  rw [← u.bare_paOf, h, s.bare_paOf]

theorem State.addReq_paOf (s : State) (r : Req) (va : Nat) : (s.addReq r).paOf va = s.paOf va := by
  have htrans := State.translate_congr (s := s) (u := s.addReq r) (fun _ _ _ => rfl) rfl rfl
  have hcore (i : Issuer) : (s.addReq r).coreOf i = s.coreOf i := by cases i <;> rfl
  have hctx (i : Issuer) : (s.addReq r).ctxOf i = s.ctxOf i := by cases i <;> rfl
  have hissuer : (s.addReq r).issuer = s.issuer := rfl
  simp only [State.paOf, htrans, hissuer, hcore, hctx]

/-! ### Requests sent -/

/-- A state with requests appended. -/
def State.withReqs (s : State) (rs : List Req) (n : Nat) : State := { s with reqs := s.reqs ++ rs, nextId := n }

/-- The read requests of an access: one for each lane, to its translated address (R188). -/
theorem State.sendLanes_read (op size aop : Nat) (plain : Bool) (data : Nat → List Byte) (compare : Nat → Word64) (as : List LaneAddr) (s : State) :
    ∃ rs n, s.sendLanes op as .read size aop plain data compare = s.withReqs rs n ∧
      (rs.map fun r => (r.lane, r.kind, r.va, r.pa, r.size, r.data)) =
        (as.map fun a => (a.lane, .read, a.va, (s.paOf a.va).1, size, data a.lane)) ∧
      ∀ r ∈ rs, r.op = some op ∧ r.performed = false ∧ r.acked = false := by
  induction as generalizing s with
  | nil => exact ⟨[], s.nextId, by simp [State.sendLanes, State.withReqs], rfl, by simp⟩
  | cons a as ih =>
    let r := s.mkReq (some op) a.lane a.va (s.paOf a.va).1 (s.paOf a.va).2 .read size (data a.lane) (compare a.lane) aop plain
    have hstep : s.sendLanes op (a :: as) .read size aop plain data compare = (s.addReq r).sendLanes op as .read size aop plain data compare := by
      simp [State.sendLanes, changesSet, r]
    obtain ⟨rs, n, hsend, hmap, hrs⟩ := ih (s.addReq r)
    refine ⟨r :: rs, n, ?_, ?_, ?_⟩
    · rw [hstep, hsend]
      simp [State.withReqs, State.addReq]
    · rw [List.map_cons, hmap]
      simp only [List.map_cons, State.addReq_paOf, r, State.mkReq]
    · intro q hq
      rcases List.mem_cons.mp hq with rfl | hq
      · exact ⟨rfl, rfl, rfl⟩
      · exact hrs q hq

/-! ### Translations cached -/

/-- A die without its TLB. -/
def Die.untranslated (d : Die) : Die := { d with tlb := [] }

theorem State.cacheTrans_dies (die ctx : Nat) (vas : List Nat) (s : State) :
    ∃ ds, s.cacheTrans die ctx vas = { s with dies := ds } ∧ ds.map Die.untranslated = s.dies.map Die.untranslated := by
  induction vas generalizing s with
  | nil => exact ⟨s.dies, rfl, rfl⟩
  | cons va vas ih =>
    have hstep : s.cacheTrans die ctx (va :: vas) = (s.cacheTrans die ctx [va]).cacheTrans die ctx vas := by
      simp [State.cacheTrans]
    have hone : ∃ ds, s.cacheTrans die ctx [va] = { s with dies := ds } ∧ ds.map Die.untranslated = s.dies.map Die.untranslated := by
      simp only [State.cacheTrans, List.foldl_cons, List.foldl_nil]
      split
      · refine ⟨_, rfl, map_modAt _ _ _ _ fun d => ?_⟩
        split <;> rfl
      · exact ⟨s.dies, rfl, rfl⟩
    obtain ⟨ds, hds, hmap⟩ := hone
    obtain ⟨ds', hds', hmap'⟩ := ih { s with dies := ds }
    exact ⟨ds', by rw [hstep, hds, hds'], hmap'.trans hmap⟩

/-! ### The operation started -/

/-- A state with its dies replaced and requests appended. -/
def State.sent (s : State) (ds : List Die) (rs : List Req) (n : Nat) : State := { s with dies := ds, reqs := s.reqs ++ rs, nextId := n }

theorem State.launchOp_withReqs (s : State) (ds : List Die) (names : List RegName) (o : Op) (rs : List Req) (n : Nat) :
    (({ s with dies := ds } : State).launchOp names o).withReqs rs n = (s.launchOp names o).sent ds rs n := by
  cases hi : s.issuer <;> simp only [State.launchOp, State.cancelWrites, hi] <;> rfl

theorem State.sent_issuer (s : State) (ds : List Die) (rs : List Req) (n : Nat) : (s.sent ds rs n).issuer = s.issuer := rfl
theorem State.sent_ops (s : State) (ds : List Die) (rs : List Req) (n : Nat) : (s.sent ds rs n).ops = s.ops := rfl
theorem State.sent_reqs (s : State) (ds : List Die) (rs : List Req) (n : Nat) : (s.sent ds rs n).reqs = s.reqs ++ rs := rfl
theorem State.sent_unitOf (s : State) (ds : List Die) (rs : List Req) (n : Nat) (j : Issuer) : (s.sent ds rs n).unitOf j = s.unitOf j := by
  cases j <;> rfl

/-- Requests and translations are no part of what rests. -/
theorem State.resting_sent {s u : State} {ds : List Die} (h : u.bare = s.bare) (hds : ds.map Die.untranslated = s.dies.map Die.untranslated)
    (rs : List Req) (n : Nat) : ((u.sent ds rs n).retire 1).resting = s.resting := by
  have hbare : ((u.sent ds rs n).retire 1).bare = { s.bare with dies := ds, reqs := u.reqs ++ rs } := by
    rw [State.bare_retire, ← h]
    rfl
  have hrest := congrArg (fun b : State => { b with
    reqs := [], l1 := [], dies := b.dies.map Die.untranslated
    teams := b.teams.map fun (t : Team) => { t with seq := 0, logged := [], loggedHeld := [] } }) hbare
  dsimp only at hrest
  rw [hds] at hrest
  exact hrest

theorem flagCount_flagUp_other (g : Group) {n m : Nat} (h : m ≠ n) : flagCount (flagUp g n) m = flagCount g m := by
  simp only [flagCount, flagUp, List.getD_eq_getElem?_getD, getElem?_modAt, if_neg (Ne.symm h)]

/-- A word of variable latency that launches its operation and leaves units and operations at that. -/
theorem State.begins_of_launch {s v : State} {i : Instr} {g : Group} {names : List RegName} {n : Nat} {k : OpKind} (o : Op)
    {rel : Op → State → Prop} (hu : s.unitOf s.issuer = some g) (hexec : Sys2Proof.Machine.exec i s = .next (v.retire 1))
    (hv : v.issuer = s.issuer) (hunits : ∀ j, v.unitOf j = (s.launchOp names o).unitOf j) (hops : v.ops = (s.launchOp names o).ops)
    (hflag : o.flag = some n) (hissuer : o.issuer = s.issuer) (hkind : o.kind = k) (hrel : rel o (v.retire 1)) : s.begins i g names n k rel := by
  have hlaunched : v.unitOf v.issuer = some (launched g names o.flag) := by
    rw [hunits, hv]
    exact State.unitOf_launchOp names o hu
  have hsame := sameRegs_advance 1 (launched g names o.flag)
  obtain ⟨-, -, hthreads, -, -, -, -, -, -, -, -, hcf, hhazards⟩ := id hsame
  obtain ⟨hkeeps, hstatus⟩ := sameRegs_launched_keeps g names o.flag
  refine ⟨o, hissuer, hkind, hflag, v.retire 1, advance 1 (launched g names o.flag), hexec, ?unit, fun j hj => ?others,
    ⟨?up, fun m hm => ?other, fun r hr => ?hazard, keeps_same hkeeps hsame, fun l => ?status⟩, hrel, ?ops⟩
  case unit => exact hv ▸ State.unitOf_retire 1 hlaunched
  case others => rw [State.unitOf_retire_other 1 (hv ▸ hj), hunits, State.unitOf_launchOp_other names o hj]
  case up =>
    rw [flagCount, hcf, hflag]
    exact flagCount_flagUp _ n
  case other =>
    rw [flagCount, hcf, hflag]
    exact flagCount_flagUp_other _ hm
  case hazard =>
    rw [hazardSet, hhazards, hflag]
    exact hazardSet_setHazards g names n r hr
  case status => rw [(hthreads l).2.2.2.1, hstatus]
  case ops => rw [State.retire_ops, hops, State.ops_launchOp]

/-! ### Loads -/

/-- The operation that a load starts, before the space it goes to has its say: its destinations and its marks. -/
def State.loadBlank (s : State) (w : MemW) (g : Group) (n : Nat) : Op :=
  { Op.blank s.nextId s.issuer .mem (some n) with
    dests := (actLanes g w.head w.d).flatMap fun l => runDests g l w.d (runLen w.sz.toNat)
    acquire := if semAcq w.sem.toNat then some w.scope.toNat else none }

/-- The destinations of a load's lanes. -/
def loadSlots (w : MemW) (g : Group) : List (Nat × LoadDest) :=
  (actLanes g w.head w.d).filterMap (loadSlot g w.d (2 ^ w.sz.toNat) (w.sx = 1) fun _ => none)

/-- The judged addresses of the lanes a load acts in. -/
def State.loadAddrs (s : State) (sp : Space) (wide : Bool) (w : MemW) (g : Group) : List LaneAddr :=
  (actLanes g w.head w.d).map (s.judged g sp needR wide w.a w.off (2 ^ w.sz.toNat))

theorem memHold_none {s : State} {g : Group} {h : Head} {sem scope : Nat} (hf : memFree s g h sem scope) : s.memHold g h sem scope = none := by
  obtain ⟨hflag, hacquire, hrelease⟩ := hf
  have hblocked : flagBlocked g (selectedFlag g h.fs) = false := hflag
  cases hrel : semRel sem with
  | false => simp [State.memHold, hblocked, hacquire, hrel]
  | true => simp [State.memHold, hblocked, hacquire, hrel, hrelease hrel]

theorem bankBusy_still {s : State} (h : banksStill s) (t : Nat) (banks : List Nat) : s.bankBusy t banks = false := by
  simp only [State.bankBusy, List.any_eq_false]
  intro o ho
  simp [h o ho]

theorem bankBusy_none (s : State) (t : Nat) : s.bankBusy t [] = false := by
  simp only [State.bankBusy, List.any_eq_false]
  intro o _
  cases o.effect <;> simp

/-- What a lane's destination is given of constant space. -/
def State.constWrites (s : State) (a size : Nat) : Option (Nat × LoadDest) → List RegWrite
  | some d => loadWrites (s.constBytes a size) d.2 0
  | none => []

section
variable {w : MemW} {s : State} {g : Group} {n : Nat}

theorem loadAddrs_ne_nil (hm : guardMask g w.head ≠ 0) (sp : Space) (wide : Bool) : s.loadAddrs sp wide w g ≠ [] := by
  simpa [State.loadAddrs] using actLanes_ne_nil w.d hm

theorem loadAddrs_acting (sp : Space) (wide : Bool) : ((judgedAddrs s g w.head sp needR wide w.a w.off (2 ^ w.sz.toNat)).filter fun a =>
    (actLanes g w.head w.d).contains a.lane) = s.loadAddrs sp wide w g := judgedAddrs_acting ..

theorem loadAddrs_slots (sp : Space) (wide : Bool) :
    loadDests g (s.loadAddrs sp wide w g) w.d (2 ^ w.sz.toNat) 0 (w.sx = 1) false = loadSlots w g := loadDests_acting ..

theorem judged_lane (sp : Space) (need : Need) (wide : Bool) (a : Spec) (off : BitVec 12) (size l : Nat) :
    (s.judged g sp need wide a off size l).lane = l := (s.laneAddrOf_lane sp need size l _).1

theorem judged_addr (sp : Space) (need : Need) (wide : Bool) (a : Spec) (off : BitVec 12) (size l : Nat) :
    (s.judged g sp need wide a off size l).addr = addressOf g wide a off size l := (s.laneAddrOf_lane sp need size l _).2

theorem loadAddrs_dests (sp : Space) (wide : Bool) :
    ((s.loadAddrs sp wide w g).flatMap fun a => runDests g a.lane w.d (runLen w.sz.toNat)) = (s.loadBlank w g n).dests := by
  simp only [State.loadAddrs, List.flatMap_map, judged_lane]
  rfl

/-- What a lane of a load finds among the destinations is its own slot. -/
theorem loadSlots_find {l : Nat} (hl : l ∈ actLanes g w.head w.d) :
    (loadSlots w g).find? (fun d => d.1 = l) = loadSlot g w.d (2 ^ w.sz.toNat) (w.sx = 1) (fun _ => none) l :=
  find_filterMap_lane _ loadSlot_lane (actLanes_nodup g w.head w.d) hl

/-- A load of global space or of a thread's window that goes on: translations cached, the operation launched, the requests sent. -/
theorem loadGo_sends {sp : Space} {wide : Bool} (hsp : (sp = .global ∧ wide = true) ∨ (sp = .priv ∧ wide = false))
    (hn : selectedFlag g w.head.fs = some n) (hm : guardMask g w.head ≠ 0) (hfree : memFree s g w.head w.sem.toNat w.scope.toNat)
    (hj : s.judgeLanes (judgedAddrs s g w.head sp needR wide w.a w.off (2 ^ w.sz.toNat)) 0 (2 ^ w.sz.toNat) = none) :
    ∃ plain, loadGo sp w s g = .next (((((s.cacheTrans (s.coreOf s.issuer / 48) (s.ctxOf s.issuer)
      ((s.loadAddrs sp wide w g).map LaneAddr.va)).launchOp (runWrites g w.d (runLen w.sz.toNat))
        { s.loadBlank w g n with effect := .load (loadSlots w g) }).sendLanes s.nextId (s.loadAddrs sp wide w g) .read
          (2 ^ w.sz.toNat) 0 plain (fun _ => []) fun _ => 0)).retire 1) := by
  refine ⟨!(semAcq w.sem.toNat && 2 ≤ w.scope.toNat) && g.role ≠ .control, ?_⟩
  unfold loadGo
  obtain ⟨rfl, rfl⟩ | ⟨rfl, rfl⟩ := hsp <;>
    simp only [sizeOf, reduceCtorEq, if_false, bankBusy_none, Bool.false_eq_true, decide_true, decide_false, hj, memHold_none hfree,
      loadAddrs_acting, loadAddrs_slots, loadAddrs_dests (n := n), if_neg (loadAddrs_ne_nil hm _ _), hn] <;>
    rfl

/-- A load of the scratchpad that goes on: one read left for each acting lane. -/
theorem loadGo_scratch (hn : selectedFlag g w.head.fs = some n) (hm : guardMask g w.head ≠ 0)
    (hfree : memFree s g w.head w.sem.toNat w.scope.toNat) (hstill : banksStill s)
    (hj : s.judgeLanes (judgedAddrs s g w.head .scratch needR false w.a w.off (2 ^ w.sz.toNat)) 0 (2 ^ w.sz.toNat) = none) :
    loadGo .scratch w s g = .next ((s.launchOp (runWrites g w.d (runLen w.sz.toNat)) { s.loadBlank w g n with
      todo := (actLanes g w.head w.d).filterMap fun l => (loadSlot g w.d (2 ^ w.sz.toNat) (w.sx = 1) (fun _ => none) l).map fun d =>
        .padRead (addressOf g false w.a w.off (2 ^ w.sz.toNat) l).toNat d.2 }).retire 1) := by
  have htodo : ((s.loadAddrs .scratch false w g).filterMap fun a => ((loadSlots w g).find? fun d => d.1 = a.lane).map fun d =>
      Move.padRead a.addr.toNat d.2) = (actLanes g w.head w.d).filterMap fun l =>
        (loadSlot g w.d (2 ^ w.sz.toNat) (w.sx = 1) (fun _ => none) l).map fun d =>
          .padRead (addressOf g false w.a w.off (2 ^ w.sz.toNat) l).toNat d.2 := by
    rw [State.loadAddrs, List.filterMap_map]
    refine List.filterMap_congr fun l hl => ?_
    simp only [Function.comp, judged_lane, judged_addr, loadSlots_find hl]
  unfold loadGo
  simp only [sizeOf, reduceCtorEq, bankBusy_still hstill, Bool.false_eq_true, if_false, decide_false, hj, memHold_none hfree,
    loadAddrs_acting, loadAddrs_slots, loadAddrs_dests (n := n), if_neg (loadAddrs_ne_nil hm _ _), hn, htodo]
  rfl

/-- A load of constant space that goes on: its bytes are read as it issues. -/
theorem loadGo_const (hn : selectedFlag g w.head.fs = some n) (hm : guardMask g w.head ≠ 0)
    (hfree : memFree s g w.head w.sem.toNat w.scope.toNat)
    (hj : s.judgeLanes (judgedAddrs s g w.head .const needR false w.a w.off (2 ^ w.sz.toNat)) 0 (2 ^ w.sz.toNat) = none) :
    loadGo .const w s g = .next ((s.launchOp (runWrites g w.d (runLen w.sz.toNat)) { s.loadBlank w g n with
      writes := (actLanes g w.head w.d).flatMap fun l => s.constWrites (addressOf g false w.a w.off (2 ^ w.sz.toNat) l).toNat
        (2 ^ w.sz.toNat) (loadSlot g w.d (2 ^ w.sz.toNat) (w.sx = 1) (fun _ => none) l) }).retire 1) := by
  have hwrites : ((s.loadAddrs .const false w g).flatMap fun a =>
      s.constWrites a.addr.toNat (2 ^ w.sz.toNat) ((loadSlots w g).find? fun d => d.1 = a.lane)) =
        (actLanes g w.head w.d).flatMap fun l => s.constWrites (addressOf g false w.a w.off (2 ^ w.sz.toNat) l).toNat
          (2 ^ w.sz.toNat) (loadSlot g w.d (2 ^ w.sz.toNat) (w.sx = 1) (fun _ => none) l) := by
    rw [State.loadAddrs, List.flatMap_map]
    refine List.flatMap_congr fun l hl => ?_
    simp only [judged_lane, judged_addr, loadSlots_find hl]
  unfold loadGo
  simp only [sizeOf, reduceCtorEq, if_false, bankBusy_none, Bool.false_eq_true, decide_false, hj, memHold_none hfree,
    loadAddrs_acting, loadAddrs_slots, loadAddrs_dests (n := n), if_neg (loadAddrs_ne_nil hm _ _), hn]
  refine congrArg (fun ws => Host.Outcome.next ((s.launchOp _ { s.loadBlank w g n with writes := ws }).retire 1)) (Eq.trans ?_ hwrites)
  refine List.flatMap_congr fun a _ => ?_
  cases (loadSlots w g).find? fun d => d.1 = a.lane <;> rfl

/-- The virtual address of each lane that such a load acts in. -/
theorem loadAddrs_va {sp : Space} {wide : Bool} {va : Nat → Nat}
    (hva : ∀ l ∈ actLanes g w.head w.d, (s.judged g sp needR wide w.a w.off (2 ^ w.sz.toNat) l).va = va l) :
    (s.loadAddrs sp wide w g).map LaneAddr.va = (actLanes g w.head w.d).map va := by
  rw [State.loadAddrs, List.map_map]
  exact List.map_congr_left hva

/-- What such a load starts, by the virtual addresses of its lanes. -/
def State.loadSent (s : State) (w : MemW) (g : Group) (va : Nat → Nat) (o : Op) (t : State) : Prop :=
  t.resting = s.resting ∧ o.effect = .load (loadSlots w g) ∧ o.acquire = (if semAcq w.sem.toNat then some w.scope.toNat else none) ∧
  s.sends t o (actLanes g w.head w.d) .read va (fun l => s.homeOf ((actLanes g w.head w.d).map va) (va l)) (2 ^ w.sz.toNat) fun _ => []

theorem load_begins {i : Instr} {sp : Space} {wide : Bool} {va : Nat → Nat} (hu : s.unitOf s.issuer = some g)
    (hexec : Sys2Proof.Machine.exec i s = loadGo sp w s g) (hsp : (sp = .global ∧ wide = true) ∨ (sp = .priv ∧ wide = false))
    (hn : selectedFlag g w.head.fs = some n) (hm : guardMask g w.head ≠ 0) (hfree : memFree s g w.head w.sem.toNat w.scope.toNat)
    (hj : s.judgeLanes (judgedAddrs s g w.head sp needR wide w.a w.off (2 ^ w.sz.toNat)) 0 (2 ^ w.sz.toNat) = none)
    (hva : ∀ l ∈ actLanes g w.head w.d, (s.judged g sp needR wide w.a w.off (2 ^ w.sz.toNat) l).va = va l) :
    s.begins i g (runWrites g w.d (runLen w.sz.toNat)) n .mem (s.loadSent w g va) := by
  obtain ⟨plain, hgo⟩ := loadGo_sends hsp hn hm hfree hj
  rw [loadAddrs_va hva] at hgo
  obtain ⟨ds, hcache, hds⟩ := State.cacheTrans_dies (s.coreOf s.issuer / 48) (s.ctxOf s.issuer) ((actLanes g w.head w.d).map va) s
  obtain ⟨rs, m, hsend, hmap, hrs⟩ := State.sendLanes_read s.nextId (2 ^ w.sz.toNat) 0 plain (fun _ => []) (fun _ => 0)
    (s.loadAddrs sp wide w g) ((s.cacheTrans (s.coreOf s.issuer / 48) (s.ctxOf s.issuer) ((actLanes g w.head w.d).map va)).launchOp
      (runWrites g w.d (runLen w.sz.toNat)) { s.loadBlank w g n with effect := .load (loadSlots w g) })
  have hpa (a : Nat) := State.paOf_of_bare (State.bare_launchOp (s.cacheTrans (s.coreOf s.issuer / 48) (s.ctxOf s.issuer)
    ((actLanes g w.head w.d).map va)) (runWrites g w.d (runLen w.sz.toNat)) { s.loadBlank w g n with effect := .load (loadSlots w g) }) a
  rw [hsend] at hgo
  simp only [hpa] at hmap
  rw [hcache, State.launchOp_withReqs] at hgo
  refine State.begins_of_launch { s.loadBlank w g n with effect := .load (loadSlots w g) } hu (hexec.trans hgo)
    ((State.sent_issuer ..).trans (State.launchOp_issuer ..)) (State.sent_unitOf _ ds rs m) (State.sent_ops ..) rfl rfl rfl
    ⟨State.resting_sent (State.bare_launchOp ..) hds rs m, rfl, rfl, rs, ?reqs, ?map, hrs⟩
  case reqs => rw [State.retire_reqs, State.sent_reqs, State.launchOp_reqs]
  case map =>
    rw [hmap, State.loadAddrs, List.map_map]
    refine List.map_congr_left fun l hl => ?_
    simp only [Function.comp, judged_lane, hva l hl]
    rfl

end

theorem loadsSend_holds : loadsSend := by
  intro w s g n hn hm hfree size lanes win rel
  refine ⟨fun hissues hj => ?ld, fun hissues hj => ?ldx⟩
  case ld =>
    have hexec : Sys2Proof.Machine.exec (.ld w) s = loadGo .global w s g := by
      show execLd w s = _
      exact hissues.run _
    exact load_begins hissues.1 hexec (.inl ⟨rfl, rfl⟩) hn hm hfree hj fun l _ => s.laneAddrOf_global needR size l _
  case ldx =>
    have hexec : Sys2Proof.Machine.exec (.ldx w) s = loadGo .priv w s g := by
      show execLdx w s = _
      exact hissues.run _
    exact load_begins hissues.1 hexec (.inr ⟨rfl, rfl⟩) hn hm hfree hj fun l hl =>
      State.laneAddrOf_priv (judged_passes hj (actLanes_guarded hl))

theorem localLoadsRead_holds : localLoadsRead := by
  intro w s g n hn hm hfree hstill size addr slot
  refine ⟨fun hissues hj => ?lds, fun hissues hj => ?ldc⟩
  case lds =>
    have hexec : Sys2Proof.Machine.exec (.lds w) s = loadGo .scratch w s g := by
      show execLds w s = _
      exact hissues.run _
    exact State.begins_of_launch _ hissues.1 (hexec.trans (loadGo_scratch hn hm hfree hstill hj)) (State.launchOp_issuer s _ _)
      (fun _ => rfl) rfl rfl rfl rfl ⟨(State.bare_retire _ 1).trans (State.bare_launchOp s _ _), rfl, rfl, rfl⟩
  case ldc =>
    have hexec : Sys2Proof.Machine.exec (.ldc w) s = loadGo .const w s g := by
      show execLdc w s = _
      exact hissues.run _
    refine State.begins_of_launch _ hissues.1 (hexec.trans (loadGo_const hn hm hfree hj)) (State.launchOp_issuer s _ _)
      (fun _ => rfl) rfl rfl rfl rfl ⟨(State.bare_retire _ 1).trans (State.bare_launchOp s _ _), rfl, rfl, ?_⟩
    refine List.flatMap_congr fun l _ => ?_
    show State.constWrites _ _ _ (slot l) = _
    cases slot l <;> rfl

/-- Settles O12: a load that goes on launches its operation; LD and LDX send a request for each acting lane behind it. -/
theorem loadsIssue : Obligations.LoadsIssue := ⟨loadsSend_holds, localLoadsRead_holds⟩

end Sys2Proof.Machine
end

section
/-!
Rows of the integer tables: each word of them runs the result that its row names (R112-R122, R126, R127).
-/
namespace Sys2Proof.Machine

/-! ### A row and the word it stands for -/

/-- A word of a row is carried out with the row's result. -/
def AluRow.computes (r : AluRow) : Prop := ∀ w s, Sys2Proof.Machine.exec (r.con w) s = runAlu (r.form w) w (r.result w) s

/-- A row computes its result if what its word runs has the same value and flags in every lane. -/
theorem AluRow.computes.of_sem {r : AluRow} {sem : AluW → LaneIn → LaneOut}
    (hexec : ∀ w s, Sys2Proof.Machine.exec (r.con w) s = runAlu (r.form w) w (sem w) s) (hsem : ∀ w x, sem w x = r.result w x) :
    r.computes := by
  intro w s
  rw [hexec, funext (hsem w)]

/-- Every word of a row has fixed latency and a destination of the plain kinds. -/
def AluRow.fixed (r : AluRow) : Prop := ∀ w, (r.form w).varLat = none ∧ plainDst (r.form w)

theorem rows_deliver {rows : List AluRow} (hcomputes : ∀ r ∈ rows, r.computes) (hfixed : ∀ r ∈ rows, r.fixed) :
    ∀ r ∈ rows, r.delivers :=
  fun r hr => r.delivers_of (hcomputes r hr) (fun w => (hfixed r hr w).1) fun w => (hfixed r hr w).2

/-! ### Results of 32 and 64 bits -/

theorem out32_gives (r : Reg32) : out32 r = gives r.toNat := by
  simp [out32, gives]
theorem out32_gives_toInt (r : Reg32) : out32 r = gives r.toInt := by
  simp [out32, gives]
theorem outInt_gives (n : Int) : outInt n = gives n := rfl
theorem outNat_gives (n : Nat) : outNat n = gives n := by
  simp [outNat, out32, gives]
theorem outBool_truth (b : Bool) : outBool b = truth b := rfl
theorem outBool_gives (b : Bool) : outBool b = gives b.toNat := by
  cases b <;> rfl

theorem out32_gives_of_toNat {r : Reg32} {n : Nat} (h : r.toNat = n % 2 ^ 32) : out32 r = gives n := by
  have hr : BitVec.ofNat 32 n = r := BitVec.eq_of_toNat_eq (by rw [BitVec.toNat_ofNat, h])
  simp [out32, gives, hr]

/-! ### Moves, sums and products (R112, R113) -/

theorem out32_add (x : LaneIn) : out32 (rA x + rB x) = gives (sA x + sB x) := by
  simp [out32, gives, BitVec.ofInt_add, sA, sB, rA, rB]

theorem out32_sub (x : LaneIn) : out32 (rA x - rB x) = gives (sA x - sB x) := by
  simp [out32, gives, Int.sub_eq_add_neg, BitVec.sub_eq_add_neg, BitVec.ofInt_add, BitVec.ofInt_neg, sA, sB, rA, rB]

theorem out32_mul (x : LaneIn) : out32 (rA x * rB x) = gives (sA x * sB x) := by
  simp [out32, gives, BitVec.ofInt_mul, sA, sB, rA, rB]

theorem sumCarry_lane (x : LaneIn) : sumCarry (rA x) (rB x) ((rC x).getLsbD 0) = uA x + uB x + uC x % 2 := by
  simp only [sumCarry, BitVec.getLsbD, rA, rB, rC, uA, uB, uC, Nat.testBit_zero]
  rcases Nat.mod_two_eq_zero_or_one (lowHalf x.c).toNat with h | h <;> simp [h]

/-- IADDC: the low word of the 33-bit sum, or the sum's carry. -/
theorem iaddc_gives (x : LaneIn) :
    (if x.mod = 1 then outBool (carryOut (rA x) (rB x) ((rC x).getLsbD 0)) else outNat (sumCarry (rA x) (rB x) ((rC x).getLsbD 0))) =
      (let t := uA x + uB x + uC x % 2; gives (if x.mod = 1 then t / 2 ^ 32 else t)) := by
  have hA : uA x < 2 ^ 32 := (lowHalf x.a).isLt
  have hB : uB x < 2 ^ 32 := (lowHalf x.b).isLt
  dsimp only
  rw [carryOut, sumCarry_lane]
  split
  · rw [outBool_gives]
    congr 1
    by_cases hcarry : 2 ^ 32 ≤ uA x + uB x + uC x % 2
    · rw [decide_eq_true hcarry, Bool.toNat_true]
      omega
    · rw [decide_eq_false hcarry, Bool.toNat_false]
      omega
  · exact outNat_gives _

/-- IMADW: the exact sum, of unsigned or of signed operands. -/
theorem imadw_gives (x : LaneIn) :
    (if x.mod = 1 then out64 (w64 (uA x * uB x + x.c.toNat)) else out64 (w64 (sA x * sB x + x.c.toInt))) =
      gives64 (if x.mod = 1 then uA x * uB x + x.c.toNat else sA x * sB x + x.c.toInt) := by
  split <;> rfl

theorem clamp32_saturated (n : Int) : clamp32 n = saturated n := by
  simp only [clamp32, saturated]
  omega

/-! ### Minimum, maximum, distance (R115) -/

theorem imin_gives (x : LaneIn) : (if sA x ≤ sB x then out32 (rA x) else out32 (rB x)) = gives (min (sA x) (sB x)) := by
  rw [min_def]
  split <;> exact out32_gives_toInt _

theorem imax_gives (x : LaneIn) : (if sB x ≤ sA x then out32 (rA x) else out32 (rB x)) = gives (max (sA x) (sB x)) := by
  rw [max_comm, max_def]
  split <;> exact out32_gives_toInt _

theorem iminu_gives (x : LaneIn) : (if uA x ≤ uB x then out32 (rA x) else out32 (rB x)) = gives (min (uA x) (uB x) : Nat) := by
  rw [min_def]
  split <;> exact out32_gives _

theorem imaxu_gives (x : LaneIn) : (if uB x ≤ uA x then out32 (rA x) else out32 (rB x)) = gives (max (uA x) (uB x) : Nat) := by
  rw [max_comm, max_def]
  split <;> exact out32_gives _

theorem iabs_gives (x : LaneIn) : outNat (sA x).natAbs = gives |sA x| := by
  rw [outNat_gives, Int.natCast_natAbs]

theorem isad_gives (x : LaneIn) :
    outNat ((if x.mod = 1 then (uA x : Int) - uB x else sA x - sB x).natAbs + uC x) =
      gives ((if x.mod = 1 then |(uA x : Int) - uB x| else |sA x - sB x|) + uC x) := by
  rw [outNat_gives, Nat.cast_add, Int.natCast_natAbs, apply_ite abs]

/-! ### Logic and shifts (R116, R117) -/

theorem getLsbD_lut3 (lut : Nat) (a b c : Reg32) {i : Nat} (hi : i < 32) :
    (lut3 lut a b c).getLsbD i = bitOf lut (4 * (a.getLsbD i).toNat + 2 * (b.getLsbD i).toNat + (c.getLsbD i).toNat) := by
  rw [lut3, BitVec.getLsbD_ofNat, (foldl_bits _ 32 i).1, decide_eq_true hi, Bool.true_and, Bool.true_and]
  cases a.getLsbD i <;> cases b.getLsbD i <;> cases c.getLsbD i <;> rfl

/-- A word whose bits are known. -/
theorem eq_ofFnLE {n : Nat} {r : BitVec n} {f : Fin n → Bool} (h : ∀ i (hi : i < n), r.getLsbD i = f ⟨i, hi⟩) : r = BitVec.ofFnLE f :=
  BitVec.eq_of_getLsbD_eq fun i hi => by rw [h i hi, BitVec.getLsbD_ofFnLE, dif_pos hi]

theorem shl_gives (x : LaneIn) : out32 (shiftL (rA x) (uB x)) = gives (if uB x < 32 then uA x * 2 ^ uB x else 0 : Nat) := by
  refine out32_gives_of_toNat ?_
  unfold shiftL
  split
  · rw [BitVec.toNat_shiftLeft, Nat.shiftLeft_eq]
    rfl
  · rfl

theorem shr_gives (x : LaneIn) : out32 (shiftR (rA x) (uB x)) = gives (if uB x < 32 then uA x / 2 ^ uB x else 0 : Nat) := by
  refine out32_gives_of_toNat ?_
  unfold shiftR
  split
  · have hlt : uA x / 2 ^ uB x < 2 ^ 32 := lt_of_le_of_lt (Nat.div_le_self _ _) (lowHalf x.a).isLt
    rw [BitVec.toNat_ushiftRight, Nat.shiftRight_eq_div_pow, Nat.mod_eq_of_lt hlt]
    rfl
  · rfl

/-- An arithmetic shift by 31 or more leaves the sign. -/
theorem sar_gives (x : LaneIn) : out32 (shiftA (rA x) (uB x)) =
    gives (if uB x < 32 then sA x / 2 ^ uB x else if sA x < 0 then -1 else 0) := by
  have hlo : -2 ^ 31 ≤ sA x := (lowHalf x.a).le_toInt
  have hhi : sA x < 2 ^ 31 := (lowHalf x.a).toInt_lt
  rw [out32_gives_toInt, shiftA, BitVec.toInt_sshiftRight, Int.shiftRight_eq_div_pow]
  congr 1
  show sA x / _ = _
  by_cases h : uB x < 32
  · simp [h]
  · simp only [h, if_false]
    split <;> omega

theorem rotateLeft_eq_add {a : Reg32} {n : Nat} (hn : n < 32) : a.rotateLeft n = a <<< n + a >>> (32 - n) := by
  rw [BitVec.rotateLeft_def, Nat.mod_eq_of_lt hn, BitVec.add_eq_or_of_and_eq_zero]
  apply BitVec.eq_of_getLsbD_eq
  intro i hi
  by_cases h : i < n
  · simp [h]
  · simp [BitVec.getLsbD_of_ge a (32 - n + i) (by omega)]

theorem rot_gives (x : LaneIn) : out32 ((rA x).rotateLeft (uB x % 32)) =
    gives ((uA x * 2 ^ (uB x % 32) + uA x / 2 ^ (32 - uB x % 32) : Nat) % 2 ^ 32 : Nat) := by
  refine out32_gives_of_toNat ?_
  rw [rotateLeft_eq_add (Nat.mod_lt _ (by decide)), BitVec.toNat_add, BitVec.toNat_shiftLeft, BitVec.toNat_ushiftRight,
    Nat.shiftLeft_eq, Nat.shiftRight_eq_div_pow, Nat.mod_add_mod, Nat.mod_mod]
  rfl

/-- FUNL: a word of the 64-bit pair a, b after a shift right, or after one left. -/
theorem funl_gives (x : LaneIn) :
    (let t : Word64 := rA x ++ rB x
     let n := uC x % 64
     if x.mod = 1 then out32 (lowHalf (t >>> n)) else out32 (highHalf (t <<< n))) =
      (let t := uA x * 2 ^ 32 + uB x
       let n := uC x % 64
       gives (if x.mod = 1 then t / 2 ^ n else t * 2 ^ n % 2 ^ 64 / 2 ^ 32 : Nat)) := by
  have hpair : (rA x ++ rB x : Word64).toNat = uA x * 2 ^ 32 + uB x := by
    have := BitVec.toNat_append (rA x) (rB x)
    rw [this, ← Nat.shiftLeft_add_eq_or_of_lt (rB x).isLt, Nat.shiftLeft_eq]
    rfl
  dsimp only
  split
  · refine out32_gives_of_toNat ?_
    rw [lowHalf, BitVec.extractLsb'_toNat, BitVec.toNat_ushiftRight, hpair, Nat.shiftRight_zero, Nat.shiftRight_eq_div_pow]
  · refine out32_gives_of_toNat ?_
    rw [highHalf, BitVec.extractLsb'_toNat, BitVec.toNat_shiftLeft, hpair, Nat.shiftLeft_eq, Nat.shiftRight_eq_div_pow]

/-! ### The rows -/

theorem moveSumRows_compute : ∀ r ∈ moveSumRows, r.computes := by
  simp only [moveSumRows, List.forall_mem_cons, List.not_mem_nil, false_implies, implies_true, and_true]
  exact ⟨.of_sem (fun _ _ => rfl) fun _ _ => rfl,
    .of_sem (fun _ _ => rfl) fun _ x => out32_gives (rA x),
    .of_sem (fun _ _ => rfl) fun _ x => out32_gives (rB x),
    .of_sem (fun _ _ => rfl) fun _ _ => rfl,
    .of_sem (fun _ _ => rfl) fun _ x => out32_add x,
    .of_sem (fun _ _ => rfl) fun _ x => out32_sub x,
    .of_sem (fun _ _ => rfl) fun _ x => iaddc_gives x,
    .of_sem (fun _ _ => rfl) fun _ x => out32_mul x,
    .of_sem (fun _ _ => rfl) fun _ _ => rfl,
    .of_sem (fun _ _ => rfl) fun _ _ => outNat_gives _,
    .of_sem (fun _ _ => rfl) fun _ _ => rfl,
    .of_sem (fun _ _ => rfl) fun _ x => imadw_gives x,
    .of_sem (fun _ _ => rfl) fun _ _ => congrArg gives (clamp32_saturated _),
    .of_sem (fun _ _ => rfl) fun _ _ => congrArg gives (clamp32_saturated _)⟩

theorem logicRows_compute : ∀ r ∈ logicRows, r.computes := by
  simp only [logicRows, List.forall_mem_cons, List.not_mem_nil, false_implies, implies_true, and_true]
  exact ⟨.of_sem (fun _ _ => rfl) fun _ x => imin_gives x,
    .of_sem (fun _ _ => rfl) fun _ x => imax_gives x,
    .of_sem (fun _ _ => rfl) fun _ x => iminu_gives x,
    .of_sem (fun _ _ => rfl) fun _ x => imaxu_gives x,
    .of_sem (fun _ _ => rfl) fun _ x => iabs_gives x,
    .of_sem (fun _ _ => rfl) fun _ x => isad_gives x,
    .of_sem (fun _ _ => rfl) fun _ _ => out32_gives _,
    .of_sem (fun _ _ => rfl) fun _ _ => out32_gives _,
    .of_sem (fun _ _ => rfl) fun _ _ => out32_gives _,
    .of_sem (fun _ _ => rfl) fun _ _ => out32_gives _,
    .of_sem (fun _ _ => rfl) fun _ _ => congrArg out32 (eq_ofFnLE fun _ hi => getLsbD_lut3 _ _ _ _ hi),
    .of_sem (fun _ _ => rfl) fun _ x => shl_gives x,
    .of_sem (fun _ _ => rfl) fun _ x => shr_gives x,
    .of_sem (fun _ _ => rfl) fun _ x => sar_gives x,
    .of_sem (fun _ _ => rfl) fun _ x => rot_gives x,
    .of_sem (fun _ _ => rfl) fun _ x => funl_gives x⟩

/-- No word of class I here waits for its result, and none writes an index register or KREAD's kind of destination. -/
theorem integerRows_fixed : ∀ r ∈ moveSumRows ++ logicRows ++ bitRows ++ compareRows, r.fixed := by
  simp [moveSumRows, logicRows, bitRows, compareRows, AluRow.fixed, plainDst, formNone, formA, formAB, formABC, formSet, form64]

/-- Settles O1: every word of the two tables runs the result its row names, by one lemma for each rule. -/
theorem movesSumsLogicDeliver : Obligations.MovesSumsLogicDeliver :=
  ⟨rows_deliver moveSumRows_compute fun r hr => integerRows_fixed r (by simp [hr]),
   rows_deliver logicRows_compute fun r hr => integerRows_fixed r (by simp [hr])⟩

end Sys2Proof.Machine
end

section
/-!
Bit fields, counts, comparisons, selection and addresses (R118-R122, R126, R127).
-/
namespace Sys2Proof.Machine

/-! ### Bit fields (R118) -/

theorem fieldPos_eq (x : LaneIn) : field (uB x) 0 8 = fieldPos x := by
  simp [field, fieldPos]

/-- A field within bit 31 ends at its top; one of no length, or beyond bit 31, has no bits. -/
theorem fieldLen_eq (x : LaneIn) : fieldLen (rB x) = if noField x then 0 else fieldTop x + 1 - fieldPos x := by
  show (if field (uB x) 0 8 < 32 then min (field (uB x) 0 8 + field (uB x) 8 8) 32 - field (uB x) 0 8 else 0) = _
  have hlen : field (uB x) 8 8 = uB x / 256 % 256 := by simp [field]
  simp only [fieldPos_eq, hlen, noField, fieldTop, Bool.or_eq_true, decide_eq_true_eq]
  split_ifs <;> omega

theorem fieldLen_eq_zero_iff (x : LaneIn) : fieldLen (rB x) = 0 ↔ noField x = true := by
  rw [fieldLen_eq]
  simp only [noField, fieldTop, Bool.or_eq_true, decide_eq_true_eq]
  split_ifs <;> omega

theorem fieldBits_eq (x : LaneIn) (h : noField x = false) :
    fieldBits (rA x) (rB x) = uA x / 2 ^ fieldPos x % 2 ^ (fieldTop x + 1 - fieldPos x) := by
  show field (uA x) (field (uB x) 0 8) (fieldLen (rB x)) = _
  rw [fieldPos_eq, fieldLen_eq, h]
  rfl

theorem bfxu_gives (x : LaneIn) : outNat (fieldBits (rA x) (rB x)) =
    gives (if noField x then 0 else (uA x / 2 ^ fieldPos x % 2 ^ (fieldTop x + 1 - fieldPos x) : Nat)) := by
  rw [outNat_gives]
  cases h : noField x with
  | false => rw [fieldBits_eq x h]; rfl
  | true =>
    have hbits : fieldBits (rA x) (rB x) = 0 := by
      rw [fieldBits, (fieldLen_eq_zero_iff x).mpr h, field, Nat.pow_zero, Nat.mod_one]
    rw [hbits]; rfl

/-- The top bit of a number of `n + 1` bits says whether the number reaches half of its range. -/
theorem bitOf_top {f n : Nat} (h : f < 2 ^ (n + 1)) : bitOf f n = decide (2 ^ (n + 1) ≤ 2 * f) := by
  have hlt : f / 2 ^ n < 2 := Nat.div_lt_of_lt_mul (by rwa [← Nat.pow_succ])
  have hle : 1 ≤ f / 2 ^ n ↔ 1 * 2 ^ n ≤ f := Nat.le_div_iff_mul_le (Nat.two_pow_pos n)
  rw [bitOf, Nat.testBit_eq_decide_div_mod_eq, decide_eq_decide, Nat.pow_succ]
  generalize f / 2 ^ n = top at hlt hle ⊢
  omega

theorem bfx_gives (x : LaneIn) :
    (let n := fieldLen (rB x)
     let f := fieldBits (rA x) (rB x)
     if n = 0 then out32 0 else outInt (if bitOf f (n - 1) then (f : Int) - 2 ^ n else f)) =
      (let n := fieldTop x + 1 - fieldPos x
       let f := uA x / 2 ^ fieldPos x % 2 ^ n
       gives (if noField x then 0 else if 2 ^ n ≤ 2 * f then (f : Int) - 2 ^ n else f)) := by
  dsimp only
  cases h : noField x with
  | true => rw [if_pos ((fieldLen_eq_zero_iff x).mpr h)]; rfl
  | false =>
    have hn : fieldLen (rB x) ≠ 0 := fun hz => by simp [(fieldLen_eq_zero_iff x).mp hz] at h
    rw [if_neg hn, fieldBits_eq x h, outInt_gives]
    rw [fieldLen_eq, h] at hn ⊢
    simp only [Bool.false_eq_true, if_false] at hn ⊢
    obtain ⟨n, hn⟩ := Nat.exists_eq_succ_of_ne_zero hn
    rw [hn, Nat.succ_sub_one, bitOf_top (Nat.mod_lt _ (Nat.two_pow_pos _))]
    simp

theorem bfi_gives (x : LaneIn) :
    (let n := fieldLen (rB x)
     let pos := field (uB x) 0 8
     if n = 0 then out32 (rC x) else out32 (setField (rC x) pos n (uA x))) =
      ⟨(BitVec.ofFnLE fun i : Fin 32 => if !noField x ∧ fieldPos x ≤ i ∧ i ≤ fieldTop x
        then (rA x).getLsbD (i - fieldPos x) else (rC x).getLsbD i).zeroExtend 64, 0⟩ := by
  dsimp only
  rw [fieldPos_eq]
  cases h : noField x with
  | true =>
    rw [if_pos ((fieldLen_eq_zero_iff x).mpr h)]
    exact congrArg out32 (eq_ofFnLE fun i hi => by simp)
  | false =>
    have hn : fieldLen (rB x) ≠ 0 := fun hz => by simp [(fieldLen_eq_zero_iff x).mp hz] at h
    rw [if_neg hn]
    refine congrArg out32 (eq_ofFnLE fun i hi => ?_)
    rw [fieldLen_eq, h] at hn ⊢
    rw [getLsbD_setField _ _ _ _ _ hi]
    simp only [Bool.false_eq_true, if_false] at hn ⊢
    have hin : (fieldPos x ≤ i ∧ i < fieldPos x + (fieldTop x + 1 - fieldPos x)) ↔ (fieldPos x ≤ i ∧ i ≤ fieldTop x) := by omega
    simp only [hin, Bool.not_false, true_and]
    rfl

/-! ### Counts (R119) -/

theorem foldl_count (f : Nat → Bool) (n m : Nat) :
    (List.range n).foldl (fun k i => if f i then k + 1 else k) m = m + ((List.range n).filter f).length := by
  rw [← List.countP_eq_length_filter]
  induction n with
  | zero => rfl
  | succ n ih =>
    simp only [List.range_succ, List.foldl_append, ih, List.foldl_cons, List.foldl_nil, List.countP_append, List.countP_singleton]
    split <;> simp_all [Nat.add_assoc]

theorem popc_gives (x : LaneIn) : outNat (popCount (rA x)) = gives ((List.range 32).filter fun i => (rA x).getLsbD i).length := by
  rw [outNat_gives, popCount, foldl_count, Nat.zero_add]

/-- The bits at and above a place are clear where the number lies below the place's power of two. -/
theorem clear_above_eq (a : Reg32) (i : Nat) :
    ((List.range 32).all fun j => decide (j < i) || !a.getLsbD j) = decide (a.toNat < 2 ^ i) := by
  rw [Bool.eq_iff_iff, decide_eq_true_eq, List.all_eq_true]
  simp only [List.mem_range, Bool.or_eq_true, decide_eq_true_eq, Bool.not_eq_true']
  constructor
  · intro h
    refine Nat.lt_pow_two_of_testBit _ fun j hj => ?_
    by_cases hj32 : j < 32
    · exact (h j hj32).resolve_left (by omega)
    · exact BitVec.getLsbD_of_ge a j (by omega)
  · intro h j _
    by_cases hj : j < i
    · exact .inl hj
    · exact .inr (Nat.testBit_lt_two_pow (lt_of_lt_of_le h (Nat.pow_le_pow_right (by decide) (by omega))))

theorem length_filter_le (n k : Nat) : ((List.range n).filter fun i => decide (k ≤ i)).length = n - k := by
  induction n with
  | zero => simp
  | succ n ih =>
    rw [List.range_succ, List.filter_append, List.length_append, ih, List.filter_singleton]
    by_cases h : k ≤ n
    · rw [decide_eq_true h]
      exact (Nat.succ_sub h).symm
    · rw [decide_eq_false h]
      simp only [cond_false, List.length_nil]
      omega

theorem clz_gives (x : LaneIn) : outNat (if uA x = 0 then 32 else 31 - Nat.log2 (uA x)) =
    gives ((List.range 32).filter fun i => (List.range 32).all fun j => j < i || !(rA x).getLsbD j).length := by
  rw [outNat_gives]
  simp only [clear_above_eq]
  congr 2
  show _ = ((List.range 32).filter fun i => decide (uA x < 2 ^ i)).length
  by_cases h : uA x = 0
  · simp [h]
  · simp only [if_neg h, ← Nat.log2_lt h, ← Nat.succ_le_iff, length_filter_le]
    omega

theorem brev_eq (a : Reg32) : reverseBits a = BitVec.ofFnLE fun i : Fin 32 => a.getLsbD (31 - i) := by
  refine eq_ofFnLE fun i hi => ?_
  rw [reverseBits, BitVec.getLsbD_ofNat, (foldl_bits (fun i => a.getLsbD (31 - i)) 32 i).1]
  simp [hi]

theorem ffs_gives (x : LaneIn) : (match lowestOne (rA x) with | none => out32 0xFFFFFFFF | some n => outNat n) =
    gives (match (List.range 32).find? fun i => (rA x).getLsbD i with | some i => i | none => -1) := by
  unfold lowestOne
  cases (List.range 32).find? fun i => (rA x).getLsbD i with
  | none => rfl
  | some n => exact outNat_gives n

/-! ### Comparisons and predicates (R120, R121) -/

theorem compareInt_compared (c : Nat) (a b : Int) : compareInt c a b = compared c a b := by
  match c with
  | 0 | 1 | 2 | 3 | 4 | _ + 5 => rfl

theorem combineBop_combined (c : Nat) (t p : Bool) : combineBop c t p = combined c t p := by
  match c with
  | 0 | 1 | 2 | _ + 3 => rfl

theorem predicateOp_connective (c : Nat) (p q : Bool) : predicateOp c p q = connective c p q := by
  match c with
  | 0 | 1 | 2 | 3 | 4 => rfl
  | _ + 5 => cases p <;> cases q <;> rfl

theorem setResult_isetTruth (x : LaneIn) (a b : Int) : setResult x a b = isetTruth x a b := by
  rw [setResult, compareInt_compared, combineBop_combined, outBool_truth]
  rfl

theorem bitOf_eq (n i : Nat) : bitOf n i = decide (n / 2 ^ i % 2 = 1) := Nat.testBit_eq_decide_div_mod_eq

theorem iset64_gives (x : LaneIn) :
    (if bitOf x.mod 5 then setResult x x.a.toNat x.b.toNat else setResult x x.a.toInt x.b.toInt) =
      if x.mod / 32 % 2 = 1 then isetTruth x x.a.toNat x.b.toNat else isetTruth x x.a.toInt x.b.toInt := by
  simp only [bitOf_eq, decide_eq_true_eq, setResult_isetTruth]
  rfl

theorem pset_gives (x : LaneIn) :
    outBool (predicateOp (field x.mod 3 3) (predicateOp (x.mod % 8) (x.a ≠ 0) (x.b ≠ 0)) (x.c ≠ 0)) =
      truth (connective (x.mod / 8 % 8) (connective (x.mod % 8) (x.a ≠ 0) (x.b ≠ 0)) (x.c ≠ 0)) := by
  rw [predicateOp_connective, predicateOp_connective, outBool_truth]
  rfl

/-! ### Selection, addresses and 64-bit sums (R122, R126, R127) -/

theorem sel_gives (x : LaneIn) : (if x.c ≠ 0 then out32 (rA x) else out32 (rB x)) = gives (if x.c ≠ 0 then uA x else uB x : Nat) := by
  split <;> exact out32_gives _

theorem lea64_gives (x : LaneIn) :
    (let e : Int := if bitOf x.mod 3 then uB x else sB x
     out64 (w64 (x.a.toNat + e * 2 ^ (x.mod % 8)))) =
      gives64 (x.a.toNat + (if x.mod / 8 % 2 = 1 then (uB x : Int) else sB x) * 2 ^ (x.mod % 8)) := by
  simp only [bitOf_eq, decide_eq_true_eq]
  rfl

theorem out64_add (x : LaneIn) : out64 (x.a + x.b) = gives64 (x.a.toInt + x.b.toInt) := by
  simp [out64, gives64, BitVec.ofInt_add]

theorem out64_sub (x : LaneIn) : out64 (x.a - x.b) = gives64 (x.a.toInt - x.b.toInt) := by
  simp [out64, gives64, Int.sub_eq_add_neg, BitVec.sub_eq_add_neg, BitVec.ofInt_add, BitVec.ofInt_neg]

/-! ### The rows -/

theorem bitRows_compute : ∀ r ∈ bitRows, r.computes := by
  simp only [bitRows, List.forall_mem_cons, List.not_mem_nil, false_implies, implies_true, and_true]
  exact ⟨.of_sem (fun _ _ => rfl) fun _ x => bfx_gives x,
    .of_sem (fun _ _ => rfl) fun _ x => bfxu_gives x,
    .of_sem (fun _ _ => rfl) fun _ x => bfi_gives x,
    .of_sem (fun _ _ => rfl) fun _ x => popc_gives x,
    .of_sem (fun _ _ => rfl) fun _ x => clz_gives x,
    .of_sem (fun _ _ => rfl) fun _ x => congrArg out32 (brev_eq (rA x)),
    .of_sem (fun _ _ => rfl) fun _ x => ffs_gives x⟩

theorem compareRows_compute : ∀ r ∈ compareRows, r.computes := by
  simp only [compareRows, List.forall_mem_cons, List.not_mem_nil, false_implies, implies_true, and_true]
  exact ⟨.of_sem (fun _ _ => rfl) fun _ x => setResult_isetTruth x _ _,
    .of_sem (fun _ _ => rfl) fun _ x => setResult_isetTruth x _ _,
    .of_sem (fun _ _ => rfl) fun _ x => iset64_gives x,
    .of_sem (fun _ _ => rfl) fun _ x => pset_gives x,
    .of_sem (fun _ _ => rfl) fun _ x => sel_gives x,
    .of_sem (fun _ _ => rfl) fun _ _ => outNat_gives _,
    .of_sem (fun _ _ => rfl) fun _ x => lea64_gives x,
    .of_sem (fun _ _ => rfl) fun _ x => out64_add x,
    .of_sem (fun _ _ => rfl) fun _ x => out64_sub x⟩

/-- Settles O2: every word of the two tables runs the result its row names; bits are compared place by place. -/
theorem bitsComparisonsDeliver : Obligations.BitsComparisonsDeliver :=
  ⟨rows_deliver bitRows_compute fun r hr => integerRows_fixed r (by simp [hr]),
   rows_deliver compareRows_compute fun r hr => integerRows_fixed r (by simp [hr])⟩

end Sys2Proof.Machine
end

section
/-!
Divisions and long-latency functions (R114, R142).
-/
namespace Sys2Proof.Machine

/-- Every word of a row has variable latency, its operation of one kind. -/
def AluRow.delayed (r : AluRow) (k : OpKind) : Prop := ∀ w, (r.form w).varLat = some k

theorem rows_start {rows : List AluRow} {k : OpKind} (hcomputes : ∀ r ∈ rows, r.computes) (hdelayed : ∀ r ∈ rows, r.delayed k) :
    ∀ r ∈ rows, r.starts k :=
  fun r hr => r.starts_of k (hcomputes r hr) (hdelayed r hr)

/-! ### Division (R114) -/

theorem idiv_gives (x : LaneIn) : (if uB x = 0 then out32 0xFFFFFFFF else outInt (Int.tdiv (sA x) (sB x))) =
    gives (if uB x = 0 then -1 else (sA x).tdiv (sB x)) := by
  split <;> rfl

theorem idivu_gives (x : LaneIn) : (if uB x = 0 then out32 0xFFFFFFFF else outNat (uA x / uB x)) =
    gives (if uB x = 0 then -1 else uA x / uB x) := by
  split
  · rfl
  · exact outNat_gives _

/-- The remainder is what the truncated quotient leaves of the dividend. -/
theorem irem_gives (x : LaneIn) : (if uB x = 0 then out32 (rA x) else outInt (Int.tmod (sA x) (sB x))) =
    gives (if uB x = 0 then sA x else sA x - sB x * (sA x).tdiv (sB x)) := by
  split
  · exact out32_gives_toInt _
  · rw [outInt_gives, Int.tmod_def]

theorem iremu_gives (x : LaneIn) : (if uB x = 0 then out32 (rA x) else outNat (uA x % uB x)) =
    gives (if uB x = 0 then uA x else uA x % uB x : Nat) := by
  split
  · exact out32_gives _
  · exact outNat_gives _

theorem divisionRows_compute : ∀ r ∈ divisionRows, r.computes := by
  simp only [divisionRows, List.forall_mem_cons, List.not_mem_nil, false_implies, implies_true, and_true]
  exact ⟨.of_sem (fun _ _ => rfl) fun _ x => idiv_gives x,
    .of_sem (fun _ _ => rfl) fun _ x => idivu_gives x,
    .of_sem (fun _ _ => rfl) fun _ x => irem_gives x,
    .of_sem (fun _ _ => rfl) fun _ x => iremu_gives x⟩

/-! ### Long-latency functions (R142) -/

/-- The rows name the functions that the words run. -/
theorem longRows_compute : ∀ r ∈ longRows, r.computes := by
  simp only [longRows, List.forall_mem_cons, List.not_mem_nil, false_implies, implies_true, and_true]
  exact ⟨fun _ _ => rfl, fun _ _ => rfl, fun _ _ => rfl, fun _ _ => rfl, fun _ _ => rfl, fun _ _ => rfl, fun _ _ => rfl,
    fun _ _ => rfl, fun _ _ => rfl, fun _ _ => rfl⟩

/-- Settles O5: the divisions give the values of R114, and the long-latency rows name the very functions that their words run,
undecided roundings of the bracketed ones included (assumption log, entry 8). -/
theorem longLatencyWordsStart : Obligations.LongLatencyWordsStart :=
  ⟨rows_start divisionRows_compute (by simp [divisionRows, AluRow.delayed, formDiv]),
   rows_start longRows_compute (by simp [longRows, AluRow.delayed, formLong])⟩

end Sys2Proof.Machine
end

section
/-!
Predicates and index registers: PMOV, XSET, XADD and XGET (R123, R124).
-/
namespace Sys2Proof.Machine

theorem readP_of_readName {g : Group} {l n : Nat} {b : Bool} (h : readName g l (.p n) = if b then 1 else 0) : readP (threadAt g l) n = b := by
  simp only [readName] at h
  revert h
  cases readP (threadAt g l) n <;> cases b <;> decide

/-! ### Writes that each go to a lane of their own -/

/-- The writes of some lanes, lane by lane. -/
def writesByLane (m : BitVec 32) (per : Nat → List RegWrite) : List RegWrite := (lanesOf m).flatMap per

/-- Each lane writes v registers and predicates of its own. -/
def ownWrites (per : Nat → List RegWrite) : Prop :=
  ∀ l, ∀ w ∈ per l, w.lane = some l ∧ (∀ n, w.reg ≠ .k n) ∧ ∀ n, w.reg = .p n → n < 16

/-- No lane writes a register twice. -/
def onceWrites (per : Nat → List RegWrite) : Prop := ∀ l, ∀ x ∈ per l, ∀ y ∈ per l, y.reg = x.reg → y = x

section
variable {m : BitVec 32} {per : Nat → List RegWrite} (hown : ownWrites per)
include hown

theorem writesByLane_own {w : RegWrite} (hw : w ∈ writesByLane m per) :
    ∃ l, m.getLsbD l = true ∧ w ∈ per l ∧ w.lane = some l ∧ (∀ n, w.reg ≠ .k n) ∧ ∀ n, w.reg = .p n → n < 16 := by
  obtain ⟨l, hl, hper⟩ := List.mem_flatMap.mp hw
  exact ⟨l, lanesOf_mem.mp hl, hper, hown l w hper⟩

theorem writesByLane_pred : ∀ w ∈ writesByLane m per, ∀ n, w.reg = .p n → n < 16 := by
  intro w hw
  obtain ⟨_, _, _, _, _, hp⟩ := writesByLane_own hown hw
  exact hp

/-- A write that reaches a register of a lane, and is no write to a k register, is one of that lane. -/
theorem writesByLane_reaches {w : RegWrite} {l : Nat} {r : RegName} (hw : w ∈ writesByLane m per) (hr : reaches w l r) :
    m.getLsbD l = true ∧ w ∈ per l ∧ w.reg = r := by
  obtain ⟨k, hk, hper, hlane, hreg, -⟩ := writesByLane_own hown hw
  obtain ⟨rfl, hreach⟩ := hr
  have hkl : k = l := by
    cases h : w.reg with
    | k n => exact absurd h (hreg n)
    | v n => rw [h] at hreach; exact Option.some.inj (hlane.symm.trans hreach)
    | p n => rw [h] at hreach; exact Option.some.inj (hlane.symm.trans hreach)
  exact ⟨hkl ▸ hk, hkl ▸ hper, rfl⟩

theorem readName_writesByLane (honce : onceWrites per) {g : Group} {l : Nat} (hm : m.getLsbD l = true) (hl : l < g.threads.length)
    {w : RegWrite} (hw : w ∈ per l) : readName ((writesByLane m per).foldl applyWrite g) l w.reg = stored w := by
  obtain ⟨hlane, hk, -⟩ := hown l w hw
  have hreaches : reaches w l w.reg := by
    refine ⟨rfl, ?_⟩
    cases h : w.reg with
    | k n => trivial
    | v n => exact hlane
    | p n => exact hlane
  refine readName_foldl_same _ g l w.reg _ (writesByLane_pred hown) hl ⟨w, List.mem_flatMap.mpr ⟨l, lanesOf_mem.mpr hm, hw⟩, hreaches⟩
    fun y hy hr => ?_
  obtain ⟨-, hyl, hreg⟩ := writesByLane_reaches hown hy hr
  rw [honce l w hw y hyl hreg]

theorem readName_writesByLane_other {g : Group} {l : Nat} {r : RegName} (h : ∀ w ∈ per l, m.getLsbD l = true → w.reg ≠ r) :
    readName ((writesByLane m per).foldl applyWrite g) l r = readName g l r := by
  refine readName_foldl_other _ g l r (writesByLane_pred hown) fun w hw hr => ?_
  obtain ⟨hm, hwl, hreg⟩ := writesByLane_reaches hown hw hr
  exact h w hwl hm hreg

/-- Lanes that write no register but those named leave the rest of the unit. -/
theorem keeps_writesByLane (g : Group) (ns : List RegName) {names : Nat → List RegName}
    (hnames : ∀ l, m.getLsbD l = true → ∀ w ∈ per l, w.reg ∈ names l) :
    g.keeps ((writesByLane m per).foldl applyWrite (clearHazards g ns)) m names := by
  have hother : ∀ l r, (m.getLsbD l = true → r ∉ names l) →
      readName ((writesByLane m per).foldl applyWrite (clearHazards g ns)) l r = readName g l r := fun l r hr =>
    readName_writesByLane_other hown fun w hw hm hreg => hr hm (hreg ▸ hnames l hm w hw)
  obtain ⟨-, hthreads, hmstat, hgang, hssw0, hssw1, haddr, hcohort, hrole, halloc, -, -⟩ :=
    foldl_applyWrite_keeps (writesByLane m per) (clearHazards g ns)
  refine ⟨fun n _ => ?k, fun l n hn => hother l (.v n) hn, fun l n hn => ?p, fun l => ⟨(hthreads l).1, (hthreads l).2.2⟩,
    hmstat, hgang, hssw0, hssw1, haddr, hcohort, hrole, halloc⟩
  case k => exact readName_writesByLane_other (l := 0) (r := .k n) hown fun w hw _ => (hown 0 w hw).2.1 n
  case p => exact readP_of_readName (hother l (.p n) hn)

end

/-! ### The results of a word of fixed latency (R18, R105) -/

theorem effective_zero (x off : Nat) : 0 ≤ effective Thread.zero x off := by
  have hx : readX Thread.zero.x x = 0 := by
    match x with
    | 0 | 1 | 2 | _ + 3 => rfl
  simp [effective, hx]

/-- A destination within its bound names no register below 0, in a lane of the group or beyond it. -/
theorem effective_nonneg_of_bound {g : Group} {l a n : Nat} {d : Spec} (hb : boundFails g l a n d = false) {x off : Nat}
    (hd : opdOf d = .rel x off) : 0 ≤ effective (threadAt g l) x off := by
  by_cases hl : l < g.threads.length
  · exact effective_nonneg hl hb x off hd
  · have hzero : threadAt g l = Thread.zero := by
      simp [threadAt, List.getD_eq_getElem?_getD, List.getElem?_eq_none (Nat.le_of_not_lt hl)]
    rw [hzero]
    exact effective_zero x off

theorem dstWrites_own (g : Group) (wide : Bool) {d : Spec} (hd : isKReg d = false) (v : Nat → Word64) :
    ownWrites fun l => dstWrites g l wide d (v l) := by
  intro l w hw
  rcases dstWrites_lane hw with hlane | ⟨hk, -⟩
  · exact ⟨hlane, dstWrites_laned hw hlane, fun n hn => dstWrites_p hw hn⟩
  · rw [hd] at hk
    cases hk

/-- Guard-true lanes hold the results written to a destination of their own. -/
theorem lanesHold_dstWrites {g : Group} {h : Head} {wide : Bool} {d : Spec} (hd : isKReg d = false)
    (hb : ∀ l, (guardMask g h).getLsbD l = true → boundFails g l (width wide) (width wide) d = false) (v : Nat → Word64)
    (ns : List RegName) : g.lanesHold (advance 1 ((writesByLane (guardMask g h) fun l => dstWrites g l wide d (v l)).foldl applyWrite
      (clearHazards g ns))) h wide d v := by
  have hown := dstWrites_own g wide hd v
  have hsame := sameRegs_advance 1 ((writesByLane (guardMask g h) fun l => dstWrites g l wide d (v l)).foldl applyWrite (clearHazards g ns))
  obtain ⟨-, hthreads, -⟩ := foldl_applyWrite_keeps (writesByLane (guardMask g h) fun l => dstWrites g l wide d (v l)) (clearHazards g ns)
  refine ⟨fun l hm hl => holdsResult_same hsame l wide d (v l) (holdsResult_of_reads (hthreads l).1 fun w hw => ?read), fun l => ?status,
    keeps_same (keeps_writesByLane hown g ns fun l hm w hw => ?name) hsame⟩
  case read => exact readName_writesByLane (g := clearHazards g ns) hown (fun l x hx y hy hreg => dstWrites_inj hx hy hreg) hm hl hw
  case status => exact (hsame.2.2.1 l).2.2.2.1.trans (hthreads l).2.1
  case name => exact dstWrites_name hw fun x off hrel => effective_nonneg_of_bound (hb l hm) hrel

/-- The same of a word that the checks of R44 let issue, unless it is group-uniform (R24). -/
theorem lanesHold_of_check {f : AluForm} {w : AluW} {g : Group} (hf : firstFault g w.head (aluCheck f w g) = none) (hp : plainDst f)
    (hn : f.dst ≠ .none) (hu : aluUniform f w = false) (v : Nat → Word64) (ns : List RegName) :
    g.lanesHold (advance 1 ((writesByLane (guardMask g w.head) fun l => dstWrites g l (dstWide f.dst) w.dst (v l)).foldl applyWrite
      (clearHazards g ns))) w.head (dstWide f.dst) w.dst v := by
  obtain ⟨hdetails, hbound⟩ := aluCheck_passed hf
  refine lanesHold_dstWrites ?_ (fun l hl => hbound l hl hn hp.2) v ns
  by_contra hk
  rw [kReg_uniform hp hdetails (by simpa using hk)] at hu
  cases hu

/-- A word that changes nothing but its unit, cancels older writes to some registers and moves on. -/
theorem State.runs_of_retire {s v : State} {i : Instr} {g : Group} {names : List RegName} {unit : Group → Prop}
    (hexec : Sys2Proof.Machine.exec i s = .next (v.retire 1)) (hissuer : v.issuer = s.issuer) (hunit : v.unitOf s.issuer = some g)
    (hothers : ∀ j, j ≠ s.issuer → v.unitOf j = s.unitOf j) (hbare : v.bare = s.bare)
    (hops : v.ops = (s.cancelWrites s.issuer names).ops) (hafter : unit (advance 1 g)) : s.runs i unit fun t => s.unmoved t names := by
  refine ⟨v.retire 1, advance 1 g, hexec, ?unit, fun j hj => ?others, hafter, ?bare, ?ops⟩
  case unit =>
    rw [← hissuer] at hunit ⊢
    exact State.unitOf_retire 1 hunit
  case others => rw [State.unitOf_retire_other 1 (hissuer ▸ hj), hothers j hj]
  case bare => rw [State.bare_retire, hbare]
  case ops => rw [State.retire_ops, hops]

theorem State.runs_writeNow {s : State} {i : Instr} {g : Group} {names : List RegName} {ws : List RegWrite} {unit : Group → Prop}
    (hu : s.unitOf s.issuer = some g) (hexec : Sys2Proof.Machine.exec i s = .next ((s.writeNow s.issuer names ws).retire 1))
    (hafter : unit (advance 1 (ws.foldl applyWrite (clearHazards g names)))) : s.runs i unit fun t => s.unmoved t names :=
  State.runs_of_retire hexec (State.writeNow_issuer ..) (State.unitOf_writeNow names ws hu) (fun _ hj => State.unitOf_writeNow_other names ws hj)
    (State.bare_writeNow ..) (State.ops_writeNow ..) hafter

theorem State.runs_modUnit {s : State} {i : Instr} {g g2 : Group} {unit : Group → Prop} (hu : s.unitOf s.issuer = some g)
    (hexec : Sys2Proof.Machine.exec i s = .next ((s.modUnit s.issuer fun _ => g2).retire 1)) (hafter : unit (advance 1 g2)) :
    s.runs i unit fun t => s.unmoved t [] :=
  State.runs_of_retire hexec (State.modUnit_issuer ..) (State.unitOf_modUnit_same _ hu) (fun _ hj => State.unitOf_modUnit_other _ hj)
    (State.bare_modUnit ..) ((State.modUnit_ops ..).trans (State.cancelWrites_nil ..).symm) hafter

theorem State.fixed_of_free (s t : State) {g : Group} {h : Head} (hf : flagFree g h) : s.fixed g h t = .next t := by
  have hblocked : flagBlocked g (selectedFlag g h.fs) = false := hf
  simp [State.fixed, hblocked]

theorem raiseFlags_zero {fl : List (Nat × BitVec 5)} (h : ∀ e ∈ fl, e.2 = 0) (g : Group) : raiseFlags g fl = g := by
  induction fl generalizing g with
  | nil => rfl
  | cons e fl ih =>
    have hhead : modThread g e.1 (fun t => { t with status := t.status ||| e.2.zeroExtend 32 }) = g :=
      modThread_eq_self fun t => by simp [h e List.mem_cons_self]
    rw [raiseFlags, List.foldl_cons, hhead]
    exact ih (fun e he => h e (List.mem_cons_of_mem _ he)) g

/-- An ALU word whose lanes each write their own result, and raise no flag. -/
theorem aluGo_flagless {f : AluForm} {w : AluW} {sem : LaneIn → LaneOut} {s : State} {g : Group} (hu : s.unitOf s.issuer = some g)
    (hfree : flagFree g w.head) (hfix : f.varLat = none) (huni : aluUniform f w = false) (hflags : ∀ x, (sem x).flags = 0) :
    aluGo f w sem s g = .next ((s.writeNow s.issuer (aluWrites g f w)
      (writesByLane (guardMask g w.head) fun l => dstWrites g l (dstWide f.dst) w.dst (sem (laneIn g f w l)).value)).retire 1) := by
  have hblocked : flagBlocked g (selectedFlag g w.head.fs) = false := hfree
  have hwrites : (aluResults g f w sem).1 =
      writesByLane (guardMask g w.head) fun l => dstWrites g l (dstWide f.dst) w.dst (sem (laneIn g f w l)).value := by
    rw [aluResults_fst, resultLanes, huni]
    rfl
  have hzero : ∀ e ∈ (aluResults g f w sem).2, e.2 = 0 := by
    simp [aluResults, huni, hflags]
  rw [aluGo, hblocked, hfix, hwrites]
  simp only [Bool.false_eq_true, if_false]
  rw [State.modUnit_eq_self (State.unitOf_writeNow _ _ hu) (raiseFlags_zero hzero _)]

/-! ### PMOV (R123) -/

/-- The truths that the forms 00 and 01 of PMOV write. -/
def pmovTruth (x : LaneIn) : LaneOut := if x.mod = 1 then outBool ((rA x).getLsbD (uB x % 32)) else outBool (rA x ≠ 0)

theorem pmovTruth_flags (x : LaneIn) : (pmovTruth x).flags = 0 := by
  unfold pmovTruth
  split <;> rfl

/-- A lane's sixteen predicates unpacked from a. -/
def unpackWrites (w : AluW) (g : Group) (l : Nat) : List RegWrite :=
  (List.range 16).map fun n => ⟨.p n, some l, if bitOf (readSrc g l false w.opa).toNat n then 1 else 0⟩

theorem unpackWrites_own (w : AluW) (g : Group) : ownWrites (unpackWrites w g) := by
  intro l x hx
  obtain ⟨n, hn, rfl⟩ := List.mem_map.mp hx
  exact ⟨rfl, by simp, fun k hk => by simp_all⟩

theorem unpackWrites_once (w : AluW) (g : Group) : onceWrites (unpackWrites w g) := by
  intro l x hx y hy hreg
  obtain ⟨n, -, rfl⟩ := List.mem_map.mp hx
  obtain ⟨k, -, rfl⟩ := List.mem_map.mp hy
  obtain rfl : k = n := RegName.p.inj hreg
  rfl

section
variable {w : AluW} {s : State} {g : Group} (hi : s.issues w.head (aluCheck (formPmov w) w) g) (hfree : flagFree g w.head)
include hi hfree

/-- The forms 00 and 01: each guard-true lane holds its truth. -/
theorem pmov_truth (himm : isImm w = false) (hmod : w.mod.toNat < 2) {v : Nat → Word64}
    (hv : ∀ l, (pmovTruth (laneIn g (formPmov w) w l)).value = v l) :
    s.runs (.pmov w) (fun g' => g.lanesHold g' w.head false w.dst v) fun t => s.unmoved t (aluWrites g (formPmov w) w) := by
  have hfield : field w.mod.toNat 0 2 ≠ 2 := by
    simp only [field]
    omega
  have hdst : (formPmov w).dst = .pred := by simp [formPmov, himm, hfield]
  have huni : aluUniform (formPmov w) w = false := by simp [aluUniform, hdst]
  have hexec : Sys2Proof.Machine.exec (.pmov w) s = aluGo (formPmov w) w pmovTruth s g := by
    show execPmov w s = _
    rw [execPmov, if_neg (by simp [hfield])]
    exact hi.run _
  have hholds := lanesHold_of_check hi.2.2 (by simp [plainDst, hdst]) (by simp [hdst]) huni v (aluWrites g (formPmov w) w)
  rw [aluGo_flagless hi.1 hfree rfl huni pmovTruth_flags] at hexec
  simp only [hv] at hexec
  rw [hdst] at hholds hexec
  exact State.runs_writeNow hi.1 hexec hholds

/-- The form 10: each guard-true lane holds sixteen bits of a in its predicates. -/
theorem pmov_unpack (himm : isImm w = false) (hmod : w.mod.toNat = 2) :
    s.runs (.pmov w)
      (fun g' => (∀ l n, (guardMask g w.head).getLsbD l = true → l < g.threads.length → n < 16 →
          readP (threadAt g' l) n = (lowHalf (readSrc g l false w.opa)).getLsbD n) ∧
        (∀ l, (threadAt g' l).status = (threadAt g l).status) ∧ g.keeps g' (guardMask g w.head) fun _ => (List.range 16).map RegName.p)
      fun t => s.unmoved t ((List.range 16).map RegName.p) := by
  have hexec : Sys2Proof.Machine.exec (.pmov w) s = .next ((s.writeNow s.issuer ((List.range 16).map RegName.p)
      (writesByLane (guardMask g w.head) (unpackWrites w g))).retire 1) := by
    show execPmov w s = _
    rw [execPmov, if_pos (by simp [field, hmod, himm])]
    exact (hi.run _).trans (s.fixed_of_free _ hfree)
  have hown := unpackWrites_own w g
  obtain ⟨-, hthreads, -⟩ := foldl_applyWrite_keeps (writesByLane (guardMask g w.head) (unpackWrites w g))
    (clearHazards g ((List.range 16).map RegName.p))
  have hsame := sameRegs_advance 1 ((writesByLane (guardMask g w.head) (unpackWrites w g)).foldl applyWrite
    (clearHazards g ((List.range 16).map RegName.p)))
  refine State.runs_writeNow hi.1 hexec ⟨fun l n hm hl hn => readP_of_readName ?read, fun l => ?status,
    keeps_same (keeps_writesByLane hown g _ fun l _ x hx => ?name) hsame⟩
  case read =>
    have hmem : ⟨.p n, some l, if bitOf (readSrc g l false w.opa).toNat n then 1 else 0⟩ ∈ unpackWrites w g l :=
      List.mem_map_of_mem (List.mem_range.mpr hn)
    rw [hsame.readName]
    refine (readName_writesByLane (g := clearHazards g _) hown (unpackWrites_once w g) hm hl hmem).trans ?_
    rw [getLsbD_lowHalf _ (by omega)]
    simp only [stored, bitOf, BitVec.getLsbD]
    by_cases hbit : (readSrc g l false w.opa).toNat.testBit n = true <;> simp [hbit]
  case status => exact (hsame.2.2.1 l).2.2.2.1.trans (hthreads l).2.1
  case name =>
    obtain ⟨n, hn, rfl⟩ := List.mem_map.mp hx
    exact List.mem_map_of_mem hn

end

theorem pmovMoves_holds : pmovMoves := by
  intro w s g hi hfree a b
  refine ⟨fun ⟨himm, hmod⟩ => ?nonzero, fun ⟨himm, hmod⟩ => ?bit, fun ⟨himm, hmod⟩ => pmov_unpack hi hfree himm hmod⟩
  case nonzero =>
    refine pmov_truth hi hfree himm (by omega) fun l => ?_
    have ha : rA (laneIn g (formPmov w) w l) = a l := rfl
    have hx : (laneIn g (formPmov w) w l).mod = 0 := by simp [laneIn, himm, hmod]
    rw [pmovTruth, hx, ha]
    by_cases h : a l = 0 <;> simp [h, outBool, boolWord]
  case bit =>
    refine pmov_truth hi hfree himm (by omega) fun l => ?_
    have ha : rA (laneIn g (formPmov w) w l) = a l := rfl
    have hb : uB (laneIn g (formPmov w) w l) = b l := by
      simp [laneIn, himm, formPmov, field, hmod, uB, srcWide, b]
    have hx : (laneIn g (formPmov w) w l).mod = 1 := by simp [laneIn, himm, hmod]
    rw [pmovTruth, hx, ha, hb]
    rfl

/-! ### XSET, XADD and XGET (R124) -/

theorem readX_writeX_of_lt (x : IndexRegs) {i j : Nat} (a : BitVec 16) (hi : i < 4) (hj : j < 4) :
    readX (writeX x i a) j = if j = i then a else readX x j := by
  interval_cases i <;> interval_cases j <;> rfl

/-- Threads changed lane by lane, each lane once. -/
theorem threadAt_foldl_modThread (f : Nat → Thread → Thread) {ls : List Nat} (hls : ls.Nodup) (g : Group) (l : Nat) :
    threadAt (ls.foldl (fun g1 m => modThread g1 m (f m)) g) l =
      if l ∈ ls ∧ l < g.threads.length then f l (threadAt g l) else threadAt g l := by
  induction ls generalizing g with
  | nil => simp
  | cons m ms ih =>
    obtain ⟨hm, hms⟩ := List.nodup_cons.mp hls
    rw [List.foldl_cons, ih hms, threadAt_modThread, modThread_length]
    by_cases h : m = l
    · subst h
      simp [hm]
    · simp [h, Ne.symm h]

theorem foldl_modThread_threads (f : Nat → Thread → Thread) (ls : List Nat) (g : Group) :
    ∃ ts, ls.foldl (fun g1 m => modThread g1 m (f m)) g = { g with threads := ts } := by
  induction ls generalizing g with
  | nil => exact ⟨g.threads, rfl⟩
  | cons m ms ih => exact ih (modThread g m (f m))

/-- The 16 bits of b that a lane writes or adds. -/
def indexOperand (w : AluW) (g : Group) (l : Nat) : BitVec 16 := (laneIn g formX w l).b.truncate 16

theorem indexOperand_eq (w : AluW) (g : Group) (l : Nat) : indexOperand w g l =
    BitVec.ofNat 16 (if isImm w then (w.opc ++ w.mod : BitVec 16).toNat else (readSrc g l false w.opb).toNat) := by
  unfold indexOperand laneIn
  cases isImm w with
  | false =>
    apply BitVec.eq_of_toNat_eq
    simp [formX, srcWide]
  | true =>
    show ((BitVec.signExtend 32 (w.opc ++ w.mod : BitVec 16)).zeroExtend 64).truncate 16 = BitVec.ofNat 16 (w.opc ++ w.mod : BitVec 16).toNat
    ext i hi
    simp [BitVec.getElem_signExtend, show i < 32 by omega, hi]

/-- A thread with the index register of the word written. -/
def indexThread (w : AluW) (add : Bool) (g : Group) (l : Nat) (t : Thread) : Thread :=
  { t with x := writeX t.x w.dst.toNat (if add then readX t.x w.dst.toNat + indexOperand w g l else indexOperand w g l) }

/-- The unit with the index register of every guard-true lane written. -/
def indexed (w : AluW) (add : Bool) (g : Group) : Group :=
  (lanesOf (guardMask g w.head)).foldl (fun g1 l => modThread g1 l (indexThread w add g l)) g

theorem threadAt_indexed (w : AluW) (add : Bool) (g : Group) (l : Nat) : threadAt (indexed w add g) l =
    if (guardMask g w.head).getLsbD l = true ∧ l < g.threads.length then indexThread w add g l (threadAt g l) else threadAt g l := by
  rw [indexed, threadAt_foldl_modThread _ (lanesOf_nodup _)]
  simp only [lanesOf_mem]

theorem indexWrites_indexed {w : AluW} (add : Bool) (g : Group) (hd : w.dst.toNat < 4) :
    indexWrites add w g (advance 1 (indexed w add g)) := by
  obtain ⟨hk, -, hthreads, hmstat, hgang, hssw0, hssw1, -⟩ := sameRegs_advance 1 (indexed w add g)
  obtain ⟨ts, hts⟩ := foldl_modThread_threads (indexThread w add g) (lanesOf (guardMask g w.head)) g
  have hframe : indexed w add g = { g with threads := ts } := hts
  refine ⟨fun l j hl hj => ?x, fun n => (hk n).trans ?k, fun l => ?thread, hmstat.trans ?_, hgang.trans ?_, hssw0.trans ?_,
    hssw1.trans ?_⟩
  case x =>
    rw [(hthreads l).2.2.1, threadAt_indexed, ← indexOperand_eq]
    by_cases hm : (guardMask g w.head).getLsbD l = true
    · rw [if_pos ⟨hm, hl⟩]
      simp only [indexThread, readX_writeX_of_lt _ _ hd hj, hm, true_and]
      split
      · next hji =>
        subst hji
        cases add <;> simp
      · rfl
    · simp [hm]
  case thread =>
    obtain ⟨hv, hp, -, hstatus, hexited⟩ := hthreads l
    rw [hv, hp, hstatus, hexited, threadAt_indexed]
    split <;> exact ⟨rfl, rfl, rfl, rfl⟩
  all_goals rw [hframe]
  case k => rfl

theorem index_runs {w : AluW} {s : State} {g : Group} {i : Instr} (add : Bool)
    (hexec : Sys2Proof.Machine.exec i s = s.issueWord w.head (aluCheck formX w) (xWrite w add s))
    (hi : s.issues w.head (aluCheck formX w) g) (hfree : flagFree g w.head) :
    s.runs i (indexWrites add w g) fun t => s.unmoved t [] := by
  obtain ⟨hdetails, -⟩ := aluCheck_passed hi.2.2
  have hd : w.dst.toNat < 4 := by
    by_contra hge
    simp [formX, dstDetails, hge] at hdetails
  exact State.runs_modUnit hi.1 (hexec.trans ((hi.run _).trans (s.fixed_of_free _ hfree))) (indexWrites_indexed add g hd)

theorem xget_runs {w : AluW} {s : State} {g : Group} (hi : s.issues w.head (aluCheck (formXget w) w) g) (hfree : flagFree g w.head) :
    s.runs (.xget w) (fun g' => g.lanesHold g' w.head false w.dst fun l => ((readX (threadAt g l).x w.opa.toNat).signExtend 32).zeroExtend 64)
      fun t => s.unmoved t (aluWrites g (formXget w) w) := by
  have hexec : Sys2Proof.Machine.exec (.xget w) s = xgetGo w s g := hi.run _
  exact State.runs_writeNow hi.1 (hexec.trans (s.fixed_of_free _ hfree))
    (lanesHold_of_check hi.2.2 ⟨nofun, nofun⟩ nofun rfl _ (aluWrites g (formXget w) w))

theorem indexesMove_holds : indexesMove := fun _ _ _ hfree =>
  ⟨fun hi => ⟨index_runs false rfl hi hfree, index_runs true rfl hi hfree⟩, fun hi => xget_runs hi hfree⟩

/-- Settles O6: PMOV and XGET write each guard-true lane's own registers; XSET and XADD change its index register alone. -/
theorem predicatesIndexesMove : Obligations.PredicatesIndexesMove := ⟨pmovMoves_holds, indexesMove_holds⟩

end Sys2Proof.Machine
end

section
/-!
Floating-point rows: FP32 and binary64 arithmetic, minima, comparisons, classes and integral rounding (R137-R141, R146).
-/
namespace Sys2Proof.Machine

/-! ### A lane's operands as values (R65, R68) -/

theorem field_mod_two_pow (a : Nat) {lo len n : Nat} (h : lo + len ≤ n) : field (a % 2 ^ n) lo len = field a lo len := by
  obtain ⟨k, rfl⟩ := Nat.exists_eq_add_of_le h
  rw [field, field, Nat.add_assoc, Nat.pow_add 2 lo, Nat.mod_mul_right_div_self, Nat.mod_mod_of_dvd _ (pow_dvd_pow 2 (by omega))]

/-- The value of a pattern depends on the bits of its format alone. -/
theorem unpack_mod_two_pow (f : Fmt) (ftz : Bool) (a : Nat) : unpack f ftz (a % 2 ^ f.width) = unpack f ftz a := by
  have hw : f.width = 1 + f.eb + f.mb := rfl
  have hsign : bitOf (a % 2 ^ f.width) (f.eb + f.mb) = bitOf a (f.eb + f.mb) := by
    rw [bitOf, Nat.testBit_mod_two_pow, decide_eq_true (by omega), Bool.true_and, bitOf]
  unfold unpack
  rw [hsign, field_mod_two_pow a (by omega), field_mod_two_pow a (by omega)]

theorem fA_fp32 (x : LaneIn) : fA fp32 0 x = unpack fp32 (ftzIn x) (uA x) := by
  rw [fA, field_zero, unpack_mod_two_pow]
theorem fB_fp32 (x : LaneIn) : fB fp32 0 x = unpack fp32 (ftzIn x) (uB x) := by
  rw [fB, field_zero, unpack_mod_two_pow]
theorem fC_fp32 (x : LaneIn) : fC fp32 0 x = unpack fp32 (ftzIn x) (uC x) := by
  rw [fC, field_zero, unpack_mod_two_pow]

/-- An FP32 operand is read from the low half of its source. -/
theorem unpack_lowHalf (ftz : Bool) (v : Word64) : unpack fp32 ftz (lowHalf v).toNat = unpack fp32 ftz v.toNat := by
  rw [lowHalf, BitVec.extractLsb'_toNat, Nat.shiftRight_zero]
  exact unpack_mod_two_pow fp32 ftz v.toNat

theorem bitOf_zero (n : Nat) : bitOf n 0 = decide (n % 2 = 1) := Nat.testBit_zero n

/-! ### Comparison and classification (R139, R140) -/

/-- An ordering holds of ordered values alone. -/
theorem ordered_and_flt (a b : FVal) : (!isNan a && !isNan b && flt a b) = flt a b := by
  cases a <;> cases b <;> rfl

theorem compareOp_comparedFloat (c : Nat) (a b : FVal) : compareOp c a b = comparedFloat c a b := by
  match c with
  | 2 => exact (ordered_and_flt a b).symm
  | 4 =>
    show flt b a = (!isNan a && !isNan b && flt b a)
    rw [Bool.and_comm (!isNan a), ordered_and_flt]
  | 0 | 1 | 3 | 5 | 6 | _ + 7 => cases h : isNan a <;> cases h' : isNan b <;> simp [compareOp, comparedFloat, h, h']

theorem fset_setTruth (w : AluW) (x : LaneIn) : setFloat w fp32 x = setTruth w x (fA fp32 0 x) (fB fp32 0 x) := by
  rw [setFloat, compareOp_comparedFloat, outBool_truth, ← unpack_lowHalf _ x.a, ← unpack_lowHalf _ x.b, setTruth, fA_fp32, fB_fp32]
  rfl

theorem dset_setTruth (w : AluW) (x : LaneIn) : setFloat w fp64 x = setTruth w x (dA x) (dB x) := by
  rw [setFloat, compareOp_comparedFloat, outBool_truth]
  rfl

/-- The format whose classes FCLASS names, by its code. -/
theorem classFormat_eq (n : Nat) : (match n with | 0 => fp32 | 1 => fp16 | _ => bf16) = [fp32, fp16].getD n bf16 := by
  match n with
  | 0 | 1 | _ + 2 => rfl

/-! ### FP32 and binary64 arithmetic, integral rounding (R137, R141, R146) -/

theorem fadd_rounded (x : LaneIn) : outR (opAdd fp32 (rmIn x) (ftzIn x) (uA x) (uB x)) =
    roundedOf fp32 x [fA fp32 0 x, fB fp32 0 x] (fadd (rmIn x) (fA fp32 0 x) (fB fp32 0 x)) := by
  rw [fA_fp32, fB_fp32, roundedOf, opAdd]

theorem fsub_rounded (x : LaneIn) : outR (opSub fp32 (rmIn x) (ftzIn x) (uA x) (uB x)) =
    roundedOf fp32 x [fA fp32 0 x, fB fp32 0 x] (fadd (rmIn x) (fA fp32 0 x) (fneg (fB fp32 0 x))) := by
  rw [fA_fp32, fB_fp32, roundedOf, opSub]

theorem fmul_rounded (x : LaneIn) : outR (opMul fp32 (rmIn x) (ftzIn x) (uA x) (uB x)) =
    roundedOf fp32 x [fA fp32 0 x, fB fp32 0 x] (fmul (fA fp32 0 x) (fB fp32 0 x)) := by
  rw [fA_fp32, fB_fp32, roundedOf, opMul]

theorem ffma_rounded (x : LaneIn) : outR (opFma fp32 (rmIn x) (ftzIn x) (uA x) (uB x) (uC x)) =
    roundedOf fp32 x [fA fp32 0 x, fB fp32 0 x, fC fp32 0 x] (fadd (rmIn x) (fmul (fA fp32 0 x) (fB fp32 0 x)) (fC fp32 0 x)) := by
  rw [fA_fp32, fB_fp32, fC_fp32, roundedOf, opFma]

/-- FRND raises NX only where bit 0 of SUB asks for it, and the value changed. -/
theorem frnd_flags (x : LaneIn) (changed : Bool) : (if bitOf x.mod 0 && changed then flNX else 0) =
    if x.mod % 2 = 1 ∧ changed = true then flNX else 0 := by
  simp only [bitOf_zero, Bool.and_eq_true, decide_eq_true_eq]

/-! ### The rows -/

theorem floatRows_compute : ∀ r ∈ floatRows, r.computes := by
  simp only [floatRows, List.forall_mem_cons, List.not_mem_nil, false_implies, implies_true, and_true]
  exact ⟨.of_sem (fun _ _ => rfl) fun _ x => fadd_rounded x,
    .of_sem (fun _ _ => rfl) fun _ x => fsub_rounded x,
    .of_sem (fun _ _ => rfl) fun _ x => fmul_rounded x,
    .of_sem (fun _ _ => rfl) fun _ x => ffma_rounded x,
    .of_sem (fun _ _ => rfl) fun _ _ => outNat_gives _,
    .of_sem (fun _ _ => rfl) fun _ _ => outNat_gives _,
    .of_sem (fun _ _ => rfl) fun _ _ => outNat_gives _,
    .of_sem (fun _ _ => rfl) fun _ _ => outNat_gives _,
    .of_sem (fun _ _ => rfl) fun w x => fset_setTruth w x,
    .of_sem (fun _ _ => rfl) fun w x => dset_setTruth w x,
    .of_sem (fun _ _ => rfl) fun _ x =>
      (congrArg (fun f => outNat (classMask f _ (uA x % 2 ^ f.width))) (classFormat_eq _)).trans (outNat_gives _),
    .of_sem (fun _ _ => rfl) fun _ x => congrArg (LaneOut.mk _) (frnd_flags x _),
    fun _ _ => rfl, fun _ _ => rfl, fun _ _ => rfl⟩

/-- No word of class F here waits for its result, and each destination is a register, a pair or a predicate. -/
theorem floatRows_fixed : ∀ r ∈ floatRows, r.fixed := by
  simp [floatRows, AluRow.fixed, plainDst, formF, formF2, formF3, formMinMax, formD]

/-- Settles O3: every word of the table runs the result its row names; an operand's value depends on its format's bits alone. -/
theorem floatsDeliver : Obligations.FloatsDeliver := rows_deliver floatRows_compute floatRows_fixed

end Sys2Proof.Machine
end

section
/-!
Packed forms, dot products, conversions, scaling, permutation and packing (R143-R145, R148-R151, R154-R156).
-/
namespace Sys2Proof.Machine

/-! ### Words whose result is the row's for every MOD that they allow (R26) -/

/-- A word of a row is carried out with what is the row's result wherever the row's form allows MOD. -/
def AluRow.computesLegal (r : AluRow) : Prop := ∃ sem : AluW → LaneIn → LaneOut,
  (∀ w s, Sys2Proof.Machine.exec (r.con w) s = runAlu (r.form w) w (sem w) s) ∧
  ∀ w x, (r.form w).mods x.mod = true → sem w x = r.result w x

theorem AluRow.computesLegal.of_sem {r : AluRow} {sem : AluW → LaneIn → LaneOut}
    (hexec : ∀ w s, Sys2Proof.Machine.exec (r.con w) s = runAlu (r.form w) w (sem w) s)
    (hsem : ∀ w x, (r.form w).mods x.mod = true → sem w x = r.result w x) : r.computesLegal :=
  ⟨sem, hexec, hsem⟩

/-- A word that passes its checks has a legal MOD, or an immediate, which stands for MOD 0 (R25, R26). -/
theorem mods_laneIn {f : AluForm} {w : AluW} {g : Group} (h : firstFault g w.head (aluCheck f w g) = none) (hzero : f.mods 0 = true)
    (l : Nat) : f.mods (laneIn g f w l).mod = true := by
  obtain ⟨hdetails, _, _⟩ := firstFault_none h
  show f.mods (if isImm w then 0 else w.mod.toNat) = true
  split
  · exact hzero
  · next himm =>
    by_contra hmod
    simp [aluCheck, aluFieldDetails, himm, hmod] at hdetails

theorem laneFlags_congr {r q : AluRow} {w : AluW} {g : Group} (hform : q.form = r.form)
    (h : ∀ l, q.result w (laneIn g (r.form w) w l) = r.result w (laneIn g (r.form w) w l)) (l : Nat) :
    laneFlags q w g l = laneFlags r w g l := by
  simp only [laneFlags, hform, h]

/-- A row whose words compute its result for legal MODs delivers it. -/
theorem AluRow.delivers_of_legal (r : AluRow) (hcomputes : r.computesLegal) (hfixed : r.fixed)
    (hzero : ∀ w, (r.form w).mods 0 = true) : r.delivers := by
  obtain ⟨sem, hexec, hsem⟩ := hcomputes
  have hdelivers : AluRow.delivers { r with result := sem } :=
    AluRow.delivers_of _ hexec (fun w => (hfixed w).1) fun w => (hfixed w).2
  intro w s g hissues hfree
  obtain ⟨_, _, hpasses⟩ := id hissues
  have hlane : ∀ l, sem w (laneIn g (r.form w) w l) = r.result w (laneIn g (r.form w) w l) :=
    fun l => hsem w _ (mods_laneIn hpasses (hzero w) l)
  have hflags := laneFlags_congr (r := r) (q := { r with result := sem }) rfl hlane
  simpa only [hlane, hflags] using hdelivers w s g hissues hfree

/-! ### Packed elements (R143) -/

theorem packedAdd_both (f : Fmt) (hf : f.width = 16) (x : LaneIn) : packedAdd f x = bothElements (sumOf f x) := by
  simp only [packedAdd, packed, bothElements, sumOf, opAdd, fA, fB, hf]

theorem packedMul_both (f : Fmt) (hf : f.width = 16) (x : LaneIn) : packedMul f x = bothElements (productOf f x) := by
  simp only [packedMul, packed, bothElements, productOf, opMul, fA, fB, hf]

theorem packedFma_both (f : Fmt) (hf : f.width = 16) (x : LaneIn) : packedFma f x = bothElements (fusedOf f x) := by
  simp only [packedFma, packed, bothElements, fusedOf, opFma, fA, fB, fC, hf]

theorem packedMinMax_both (max : Bool) (x : LaneIn) : packedMinMax max x = bothElements fun lo =>
    ⟨opMinMax fp16 (ftzIn x) (x.mod % 2 = 1) max (field (uA x) lo 16) (field (uB x) lo 16), 0⟩ := by
  rw [packedMinMax, bitOf_zero]
  rfl

/-! ### Dot products (R144, R145) -/

theorem field_byte (a j : Nat) : field a (8 * j) 8 = a / 256 ^ j % 256 := by
  simp only [field, Nat.pow_mul, Nat.reducePow]

/-- A byte read as a number in two's complement. -/
theorem toInt_byte (n : Nat) : (BitVec.ofNat 8 n).toInt = if n % 256 < 128 then ((n % 256 : Nat) : Int) else (n % 256 : Nat) - 256 := by
  rw [BitVec.toInt_eq_toNat_cond, BitVec.toNat_ofNat]
  split_ifs <;> omega

theorem byteOf_dotByte (a j : Nat) (unsigned : Bool) : byteOf a j unsigned = dotByte a j unsigned := by
  rw [byteOf, dotByte, field_byte, toInt_byte]
  cases unsigned <;> simp

theorem foldl_add_sum {M : Type} [AddMonoid M] (f : Nat → M) (js : List Nat) (t : M) :
    js.foldl (fun t j => t + f j) t = t + (js.map f).sum := by
  induction js generalizing t with
  | nil => simp
  | cons j js ih => simp [ih, add_assoc]

theorem idp4_gives (x : LaneIn) :
    (let t := (List.range 4).foldl (fun t j => t + byteOf (uA x) j (bitOf x.mod 0) * byteOf (uB x) j (bitOf x.mod 1)) (sC x)
     outInt (if bitOf x.mod 2 then clamp32 t else t)) =
      (let t := sC x + ((List.range 4).map fun j => dotByte (uA x) j (x.mod % 2 = 1) * dotByte (uB x) j (x.mod / 2 % 2 = 1)).sum
       gives (if x.mod / 4 % 2 = 1 then saturated t else t)) := by
  dsimp only
  rw [foldl_add_sum, outInt_gives, clamp32_saturated]
  simp only [byteOf_dotByte, bitOf_eq, decide_eq_true_eq, Nat.pow_zero, Nat.div_one, Nat.pow_one, Nat.reducePow]

theorem opDp2_rounded (f : Fmt) (hf : f.width = 16) (x : LaneIn) : outR (opDp2 f (rmIn x) (ftzIn x) (uA x) (uB x) (uC x)) =
    roundedOf fp32 x [fA f 0 x, fA f 16 x, fB f 0 x, fB f 16 x, fC fp32 0 x]
      (fadd (rmIn x) (fadd (rmIn x) (fmul (fA f 0 x) (fB f 0 x)) (fmul (fA f 16 x) (fB f 16 x))) (fC fp32 0 x)) := by
  rw [fC_fp32]
  simp only [opDp2, roundedOf, fA, fB, hf]

/-- FDP2H: bit 0 of MOD chooses the elements' format. -/
theorem fdp2h_rounded (x : LaneIn) :
    outR (opDp2 (if bitOf x.mod 0 then bf16 else fp16) (rmIn x) (ftzIn x) (uA x) (uB x) (uC x)) =
      (let f := if x.mod % 2 = 1 then bf16 else fp16
       roundedOf fp32 x [fA f 0 x, fA f 16 x, fB f 0 x, fB f 16 x, fC fp32 0 x]
         (fadd (rmIn x) (fadd (rmIn x) (fmul (fA f 0 x) (fB f 0 x)) (fmul (fA f 16 x) (fB f 16 x))) (fC fp32 0 x))) := by
  simp only [bitOf_zero, decide_eq_true_eq]
  split
  · exact opDp2_rounded bf16 rfl x
  · exact opDp2_rounded fp16 rfl x

/-! ### Conversions and scaling (R148-R151, R154) -/

/-- CVT and CVT64 hold the codes of their two types in OPC, each read by its table `types` (R148). -/
theorem cvt_gives (types : Nat → Option CvtType) (c m a : Nat) {nsat nsat' : Bool} (hnsat : nsat = nsat') :
    outR (convert ((types (field c 4 4)).getD f32) ((types (field c 0 4)).getD f32) (cvtRm m) (cvtFtz m) nsat a) =
      outR (convert ((types (c / 16 % 16)).getD f32) ((types (c % 16)).getD f32) (rmOf (m % 8)) (m / 8 % 2 = 1) nsat' a) := by
  rw [cvtRm, cvtFtz, bitOf_eq, field_zero, hnsat]
  rfl

theorem cvtpType_eq (c : Nat) : cvtpType c = .float ([fp16, bf16, e4m3].getD (c % 4) e5m2) := by
  rw [cvtpType]
  match c % 4 with
  | 0 | 1 | 2 | _ + 3 => rfl

theorem cvtp_gives (c : Nat) (x : LaneIn) :
    (let d := cvtpType c
     let cv (a : Nat) := convert d f32 (cvtRm x.mod) (cvtFtz x.mod) (cvtNsat x.mod) a
     (⟨BitVec.ofNat 64 ((cv (uA x)).bits + 2 ^ d.width * (cv (uB x)).bits), (cv (uA x)).flags ||| (cv (uB x)).flags⟩ : LaneOut)) =
      (let d : CvtType := .float ([fp16, bf16, e4m3].getD (c % 4) e5m2)
       let conv (a : Nat) : Rounded := convert d (.float fp32) (rmOf (x.mod % 8)) (x.mod / 8 % 2 = 1) (x.mod / 16 % 2 = 1) a
       ⟨BitVec.ofNat 64 ((conv (uA x)).bits + 2 ^ d.width * (conv (uB x)).bits), (conv (uA x)).flags ||| (conv (uB x)).flags⟩) := by
  simp only [cvtpType_eq, cvtRm, cvtFtz, cvtNsat, bitOf_eq, Nat.reducePow, f32]

theorem sclx_gives (x : LaneIn) :
    (if bitOf x.mod 0 && uB x % 256 = 255 then (⟨BitVec.ofNat 64 (canonNan fp32), flNV⟩ : LaneOut)
     else
       let n : Int := if bitOf x.mod 0 then (uB x % 256 : Nat) - 127 else sB x
       outR (opScale (rmIn x) (ftzIn x) (uA x) n)) =
      if x.mod % 2 = 1 ∧ uB x % 256 = 255 then ⟨0x7FC00000, flNV⟩
      else outR (opScale (rmIn x) (ftzIn x) (uA x) (if x.mod % 2 = 1 then ((uB x % 256 : Nat) : Int) - 127 else sB x)) := by
  simp only [bitOf_zero, Bool.and_eq_true, decide_eq_true_eq]
  rfl

/-! ### Permutation and packing (R155, R156) -/

theorem natOfBytes_append_singleton (bs : List Byte) (b : Byte) : natOfBytes (bs ++ [b]) = natOfBytes bs + 256 ^ bs.length * b.toNat := by
  induction bs with
  | nil => simp [natOfBytes]
  | cons c bs ih =>
    rw [List.cons_append, natOfBytes, ih, natOfBytes, List.length_cons, Nat.pow_succ]
    ring

/-- Bytes written out in a row stand for the sum of their places' values. -/
theorem natOfBytes_map_range (f : Nat → Byte) (n : Nat) :
    natOfBytes ((List.range n).map f) = ((List.range n).map fun i => 256 ^ i * (f i).toNat).sum := by
  induction n with
  | zero => rfl
  | succ n ih =>
    simp only [List.range_succ, List.map_append, List.map_cons, List.map_nil, natOfBytes_append_singleton, ih, List.sum_append,
      List.length_map, List.length_range, List.sum_singleton]

/-- Byte `i` of PRMT: the byte its selector names, or that byte's sign. -/
def permutedByte (a b c i : Nat) : Nat :=
  let source := (a + 2 ^ 32 * b) / 256 ^ (c / 16 ^ i % 8) % 256
  if c / 16 ^ i % 16 < 8 then source else if 128 ≤ source then 255 else 0

theorem permute_eq_sum (a b c : Nat) : permute a b c = ((List.range 4).map fun i => 256 ^ i * permutedByte a b c i).sum := by
  rw [permute, natOfBytes_map_range]
  congr 1
  refine List.map_congr_left fun i _ => ?_
  have hselector : field c (4 * i) 4 = c / 16 ^ i % 16 := by simp only [field, Nat.pow_mul, Nat.reducePow]
  have hplace : c / 16 ^ i % 16 % 8 = c / 16 ^ i % 8 := Nat.mod_mod_of_dvd _ (by decide)
  simp only [hselector, hplace, field_byte, permutedByte]
  split_ifs <;> simp

theorem prmt_gives (imm : Bool) (x : LaneIn) :
    (if imm then outNat (permute (uA x) (uA x) (uB x)) else outNat (permute (uA x) (uB x) (uC x))) =
      gives ((List.range 4).map fun i =>
        256 ^ i * permutedByte (uA x) (if imm then uA x else uB x) (if imm then uB x else uC x) i).sum := by
  cases imm <;> exact (congrArg outNat (permute_eq_sum _ _ _)).trans (outNat_gives _)

theorem nibbleOf_eq (unsigned : Bool) {b : Nat} (hb : b < 256) : nibbleOf unsigned b =
    if unsigned then min b 15 else (max (-8) (min (BitVec.ofNat 8 b).toInt 7) % 16).toNat := by
  rw [nibbleOf, toInt_byte, Nat.mod_eq_of_lt hb]
  cases unsigned with
  | true =>
    rw [if_pos rfl, if_pos rfl, min_def]
    split_ifs <;> omega
  | false =>
    simp only [Bool.false_eq_true, if_false]
    congr 2
    omega

/-- PACK4: a legal MOD is 0 or 1, and is itself the choice of unsigned bytes. -/
theorem pack4_gives (x : LaneIn) (hmod : x.mod < 2) :
    outNat ((List.range 8).foldl (fun n j =>
      n + 16 ^ j * nibbleOf (bitOf x.mod 0) (field (if j < 4 then uA x else uB x) (8 * (j % 4)) 8)) 0) =
      (let bytes (j : Nat) : Nat := (if j < 4 then uA x else uB x) / 256 ^ (j % 4) % 256
       gives ((List.range 8).map fun j => 16 ^ j * (if x.mod = 1 then min (bytes j) 15
         else (max (-8) (min ((BitVec.ofNat 8 (bytes j)).toInt) 7) % 16).toNat)).sum) := by
  have hunsigned : bitOf x.mod 0 = decide (x.mod = 1) := by rw [bitOf_zero, Nat.mod_eq_of_lt hmod]
  have hbyte : ∀ n, n % 256 < 256 := fun n => Nat.mod_lt n (by decide)
  rw [foldl_add_sum, Nat.zero_add, outNat_gives, hunsigned]
  simp only [field_byte, nibbleOf_eq _ (hbyte _), decide_eq_true_eq]

/-! ### The rows -/

theorem packedRows_compute : ∀ r ∈ packedRows, r.computes := by
  simp only [packedRows, List.forall_mem_cons, List.not_mem_nil, false_implies, implies_true, and_true]
  exact ⟨.of_sem (fun _ _ => rfl) fun _ x => packedAdd_both fp16 rfl x,
    .of_sem (fun _ _ => rfl) fun _ x => packedMul_both fp16 rfl x,
    .of_sem (fun _ _ => rfl) fun _ x => packedFma_both fp16 rfl x,
    .of_sem (fun _ _ => rfl) fun _ x => packedAdd_both bf16 rfl x,
    .of_sem (fun _ _ => rfl) fun _ x => packedMul_both bf16 rfl x,
    .of_sem (fun _ _ => rfl) fun _ x => packedFma_both bf16 rfl x,
    .of_sem (fun _ _ => rfl) fun _ x => packedMinMax_both true x,
    .of_sem (fun _ _ => rfl) fun _ x => packedMinMax_both false x,
    .of_sem (fun _ _ => rfl) fun _ x => idp4_gives x,
    .of_sem (fun _ _ => rfl) fun _ x => fdp2h_rounded x⟩

/-- No packed word waits for its result, and each destination is a register. -/
theorem packedRows_fixed : ∀ r ∈ packedRows, r.fixed := by
  simp [packedRows, AluRow.fixed, plainDst, formF, formF2, formF3, formHalfMinMax]

/-- Of the conversion words only PACK4 needs that MOD is legal: it tests one bit where its row compares MOD with 1. -/
theorem convertRows_computeLegal : ∀ r ∈ convertRows, r.computesLegal := by
  simp only [convertRows, List.forall_mem_cons, List.not_mem_nil, false_implies, implies_true, and_true]
  exact ⟨.of_sem (fun _ _ => rfl) fun w x _ => cvt_gives cvtType w.opc.toNat x.mod (uA x) (bitOf_eq x.mod 4),
    .of_sem (fun _ _ => rfl) fun w x _ => cvtp_gives w.opc.toNat x,
    .of_sem (fun _ _ => rfl) fun w x _ => cvt_gives cvt64Type w.opc.toNat x.mod x.a.toNat rfl,
    .of_sem (fun _ _ => rfl) fun _ x _ => sclx_gives x,
    .of_sem (fun _ _ => rfl) fun w x _ => prmt_gives (isImm w) x,
    .of_sem (fun _ _ => rfl) fun _ x hmod => pack4_gives x (of_decide_eq_true hmod)⟩

theorem plainDst_of_reg {f : AluForm} (h : f.dst = .reg) : plainDst f := by
  simp [plainDst, h]

/-- CVT64's destination is a register or a pair, as its type is wide (R151). -/
theorem formCvt64_plainDst (w : AluW) : plainDst (formCvt64 w) := by
  dsimp only [plainDst, formCvt64, formC]
  split <;> simp

theorem convertRows_fixed : ∀ r ∈ convertRows, r.fixed := by
  simp only [convertRows, List.forall_mem_cons, List.not_mem_nil, false_implies, implies_true, and_true]
  exact ⟨fun _ => ⟨rfl, plainDst_of_reg rfl⟩, fun _ => ⟨rfl, plainDst_of_reg rfl⟩, fun w => ⟨rfl, formCvt64_plainDst w⟩,
    fun _ => ⟨rfl, plainDst_of_reg rfl⟩, fun _ => ⟨rfl, plainDst_of_reg rfl⟩, fun _ => ⟨rfl, plainDst_of_reg rfl⟩⟩

theorem convertRows_mods_zero : ∀ r ∈ convertRows, ∀ w, (r.form w).mods 0 = true := by
  simp [convertRows, formC, formCvt, formCvtp, formCvt64, cvtMods, cvtNsat, bitOf, field, modZero]

/-- Settles O4: every word of the two tables runs the result its row names; packed elements, bytes and nibbles are compared place
by place. SCLX.E8 of 0xFF gives NV whatever `a` is, as the model chooses (assumption log, entry 12). -/
theorem packedConversionsDeliver : Obligations.PackedConversionsDeliver :=
  ⟨rows_deliver packedRows_compute packedRows_fixed, fun r hr =>
    r.delivers_of_legal (convertRows_computeLegal r hr) (convertRows_fixed r hr) (convertRows_mods_zero r hr)⟩

end Sys2Proof.Machine
end

section
/-!
Cross-lane words that execute as they issue: votes, election, shuffles, reductions and scans (R168, R169, R173-R175, R177, R178).
-/
namespace Sys2Proof.Machine

/-! ### Units with the same registers -/

theorem threadAt_beyond {g : Group} {l : Nat} (hl : g.threads.length ≤ l) : threadAt g l = Thread.zero := by
  rw [threadAt, List.getD_eq_getElem?_getD, List.getElem?_eq_none hl]
  rfl

/-- What is kept since a unit is kept since an earlier one with the same registers. -/
theorem keeps_of_same {g g0 g1 : Group} {m : BitVec 32} {names : Nat → List RegName} (hsame : sameRegs g g0)
    (h : g0.keeps g1 m names) : g.keeps g1 m names := by
  obtain ⟨sk, -, sthreads, smstat, sgang, sssw0, sssw1, saddr, scohort, srole, salloc, -, -⟩ := hsame
  obtain ⟨hk, hv, hp, hthreads, hmstat, hgang, hssw0, hssw1, haddr, hcohort, hrole, halloc⟩ := h
  refine ⟨fun n hn => (hk n hn).trans (sk n), fun l n hn => (hv l n hn).trans ?v, fun l n hn => (hp l n hn).trans ?p,
    fun l => ?thread, hmstat.trans smstat, hgang.trans sgang, hssw0.trans sssw0, hssw1.trans sssw1, haddr.trans saddr,
    hcohort.trans scohort, hrole.trans srole, halloc.trans salloc⟩
  all_goals obtain ⟨tv, tp, tx, -, texited⟩ := sthreads l
  case v => rw [readV, tv, readV]
  case p => rw [readP, tp, readP]
  case thread => exact ⟨(hthreads l).1.trans tx, (hthreads l).2.trans texited⟩

theorem effective_of_same {g g0 : Group} (hsame : sameRegs g g0) (l x off : Nat) :
    effective (threadAt g0 l) x off = effective (threadAt g l) x off := by
  obtain ⟨-, -, hx, -⟩ := hsame.2.2.1 l
  rw [effective, hx, effective]

theorem dstWrites_of_same {g g0 : Group} (hsame : sameRegs g g0) (l : Nat) (wide : Bool) (d : Spec) (v : Word64) :
    dstWrites g0 l wide d v = dstWrites g l wide d v := by
  simp only [dstWrites, effective_of_same hsame]

theorem activeMask_of_same {g g0 : Group} (hsame : sameRegs g g0) : activeMask g0 = activeMask g := by
  obtain ⟨-, -, hthreads, -, -, -, -, -, hcohort, -⟩ := hsame
  simp only [activeMask, hcohort, (hthreads _).2.2.2.2]

/-! ### Sticky flags and registers -/

theorem readName_raiseFlags (g : Group) (fl : List (Nat × BitVec 5)) (l : Nat) (r : RegName) :
    readName (raiseFlags g fl) l r = readName g l r := by
  obtain ⟨hk, -, hthreads, -⟩ := raiseFlags_keeps fl g
  obtain ⟨hv, hp, -⟩ := hthreads l
  cases r with
  | v n => simp only [readName, readV, hv]
  | k n => exact hk n
  | p n =>
    have hread : readP (threadAt (raiseFlags g fl) l) n = readP (threadAt g l) n := by rw [readP, hp, readP]
    simp only [readName, hread]

theorem keeps_raiseFlags {g g1 : Group} {m : BitVec 32} {names : Nat → List RegName} (fl : List (Nat × BitVec 5))
    (h : g.keeps g1 m names) : g.keeps (raiseFlags g1 fl) m names := by
  obtain ⟨hk, hv, hp, hthreads, hmstat, hgang, hssw0, hssw1, haddr, hcohort, hrole, halloc⟩ := h
  obtain ⟨-, -, rthreads, rmstat, rgang, rssw0, rssw1, raddr, rcohort, rrole, ralloc, -, -⟩ := raiseFlags_keeps fl g1
  refine ⟨fun n hn => (readName_raiseFlags g1 fl 0 (.k n)).trans (hk n hn), fun l n hn => (readName_raiseFlags g1 fl l (.v n)).trans (hv l n hn),
    fun l n hn => Eq.trans ?p (hp l n hn), fun l => ?thread, rmstat.trans hmstat, rgang.trans hgang, rssw0.trans hssw0,
    rssw1.trans hssw1, raddr.trans haddr, rcohort.trans hcohort, rrole.trans hrole, ralloc.trans halloc⟩
  all_goals obtain ⟨-, tp, tx, texited⟩ := rthreads l
  case p => rw [readP, tp, readP]
  case thread => exact ⟨tx.trans (hthreads l).1, texited.trans (hthreads l).2⟩

/-- Flags raised once in each of some lanes. -/
def raisesEach (fl : List (Nat × BitVec 5)) (lanes : List Nat) (flags : Nat → BitVec 5) : Prop :=
  (fl.map Prod.fst).Nodup ∧ ∀ l, ((fl.find? fun e => e.1 = l).map Prod.snd).getD 0 = if l ∈ lanes then flags l else 0

theorem raisesEach_none (lanes : List Nat) : raisesEach [] lanes fun _ => 0 := by
  simp [raisesEach]

theorem raisesEach_map {β : Type} {cs : List (Nat × β)} (hcs : (cs.map Prod.fst).Nodup) (flags : Nat → BitVec 5) :
    raisesEach (cs.map fun e => (e.1, flags e.1)) (cs.map Prod.fst) flags := by
  have hlanes : (cs.map fun e => (e.1, flags e.1)) = (cs.map Prod.fst).map fun l => (l, flags l) := by
    rw [List.map_map]
    rfl
  refine ⟨by simpa [Function.comp_def] using hcs, fun l => ?_⟩
  rw [hlanes, find_map_lane]
  split <;> rfl

/-! ### A word that gathers its threads at once (R169) -/

theorem lanesOf_and (m n : BitVec 32) : lanesOf (m &&& n) = (lanesOf n).filter m.getLsbD := by
  simp [lanesOf, List.filter_filter]

theorem sameRegs_holdThreads (g : Group) (c : Clause) (mask present : BitVec 32) (src : Nat → Reg32 × Reg32) :
    sameRegs g (holdThreads g c mask present src) :=
  sameRegs_mapIdx g _ fun l t => by split <;> simp

theorem sameRegs_releaseThreads (g : Group) (c : Clause) : sameRegs g (releaseThreads g c) := by
  refine sameRegs_mapIdx g _ fun _ t => ?_
  cases t.held with
  | none => simp
  | some h => dsimp only; split <;> simp

/-- The clause of a word that all its threads have issued. -/
def Clause.complete (c : Clause) : Clause := { c with gathered := true }

/-- The unit in which the threads that a word names stand held at it, all of them. -/
def gatheredGroup (g : Group) (c : Clause) (mask present : BitVec 32) (src : Nat → Reg32 × Reg32) : Group :=
  { holdThreads g c mask present src with clause := some c.complete }

theorem sameRegs_gatheredGroup (g : Group) (c : Clause) (mask present : BitVec 32) (src : Nat → Reg32 × Reg32) :
    sameRegs g (gatheredGroup g c mask present src) :=
  sameRegs_holdThreads g c mask present src

section
variable {w : AluW} {g : Group} {c : Clause} (hready : crossReady w g c) (present : BitVec 32) (src : Nat → Reg32 × Reg32)
include hready

theorem held_holdThreads (l : Nat) : (threadAt (holdThreads g c (crossMask w g) present src) l).held =
    if (namedLanes g (crossMask w g)).getLsbD l then
      some ⟨c, crossMask w g, present.getLsbD l, (src l).1, (src l).2, false⟩ else none := by
  obtain ⟨-, -, hnone, -, hnamed⟩ := hready
  by_cases hl : l < g.threads.length
  · rw [threadAt_of_mapIdx (g := g) rfl hl]
    by_cases hn : (namedLanes g (crossMask w g)).getLsbD l = true
    · simp [hn, (hnamed l hn).1]
    · simp [hn, hnone l]
  · have hn : ¬ (namedLanes g (crossMask w g)).getLsbD l = true := fun hn => hl (hnamed l hn).2
    rw [if_neg hn, threadAt_beyond (by simpa [holdThreads] using hl)]
    rfl

theorem heldAt_holdThreads (l : Nat) :
    heldAt (holdThreads g c (crossMask w g) present src) c l = (namedLanes g (crossMask w g)).getLsbD l := by
  rw [heldAt, held_holdThreads hready]
  by_cases hn : (namedLanes g (crossMask w g)).getLsbD l = true <;> simp [hn]

theorem heldLanes_holdThreads :
    heldLanes (holdThreads g c (crossMask w g) present src) c = namedLanes g (crossMask w g) := by
  apply BitVec.eq_of_getLsbD_eq
  intro l hl
  have hactive : (namedLanes g (crossMask w g)).getLsbD l = true → (activeMask g).getLsbD l = true := by
    simp [namedLanes]
  rw [heldLanes, getLsbD_maskOf, heldAt_holdThreads hready, activeMask_of_same (sameRegs_holdThreads ..)]
  cases hn : (namedLanes g (crossMask w g)).getLsbD l with
  | false => simp
  | true => simp [hl, lanesOf_mem, hactive hn]

theorem gatheredAll_holdThreads : gatheredAll (holdThreads g c (crossMask w g) present src) c (crossMask w g) = true := by
  rw [gatheredAll, namedLanes, activeMask_of_same (sameRegs_holdThreads ..), ← namedLanes, List.all_eq_true]
  intro l hl
  rw [heldAt_holdThreads hready]
  exact lanesOf_mem.mp hl

/-- A word that its named threads issue together executes in the unit in which they stand held. -/
theorem gather_ready (s : State) (perform : State → Group → Clause → Out) : s.gather g (crossMask w g) present src perform =
    perform (s.modUnit s.issuer fun _ => gatheredGroup g c (crossMask w g) present src)
      (gatheredGroup g c (crossMask w g) present src) c.complete := by
  obtain ⟨hclause, hgathered, -, hsome, hnamed⟩ := id hready
  have hmeet : namedLanes g (crossMask w g) &&& c.lanes = namedLanes g (crossMask w g) := by
    apply BitVec.eq_of_getLsbD_eq
    intro l _
    rw [BitVec.getLsbD_and, Bool.and_eq_left_iff_imp]
    exact fun hn => (hnamed l hn).1
  have hjoin : c.lanes ||| namedLanes g (crossMask w g) = c.lanes := by
    apply BitVec.eq_of_getLsbD_eq
    intro l _
    rw [BitVec.getLsbD_or, Bool.or_eq_left_iff_imp]
    exact fun hn => (hnamed l hn).1
  rw [State.gather, hclause]
  simp only [hgathered, Bool.false_eq_true, if_false, hmeet, hsome, gatheredAll_holdThreads hready present src, if_true,
    heldLanes_holdThreads hready present src, hjoin]
  rfl

/-- What the present lanes bring is what the word's sources read as it issued. -/
theorem contributions_gatheredGroup : contributions (gatheredGroup g c (crossMask w g) present src) c.complete =
    (lanesOf (present &&& namedLanes g (crossMask w g))).map fun l => (l, src l) := by
  have hlanes : heldLanes (gatheredGroup g c (crossMask w g) present src) c.complete = namedLanes g (crossMask w g) :=
    heldLanes_holdThreads hready present src
  rw [contributions, hlanes, lanesOf_and, ← List.filterMap_eq_map, List.filterMap_filter]
  refine List.filterMap_congr fun l hl => ?_
  have hheld := held_holdThreads hready present src l
  rw [if_pos (lanesOf_mem.mp hl)] at hheld
  simp only [gatheredGroup, threadAt] at hheld ⊢
  rw [hheld]
  cases present.getLsbD l <;> rfl

theorem flagFree_gatheredGroup {h : Head} (hfree : flagFree g h) : flagFree (gatheredGroup g c (crossMask w g) present src) h := by
  obtain ⟨hclause, -⟩ := hready
  simp only [flagFree, selectedFlag, hclause] at hfree
  exact hfree

end

/-- A word whose released threads go on with the next one, after changes to its unit alone. -/
theorem State.runs_of_release {s u : State} {i : Instr} {g : Group} {c : Clause} {names : List RegName} {unit : Group → Prop}
    (hexec : Sys2Proof.Machine.exec i s = .next (u.release c)) (hissuer : u.issuer = s.issuer) (hunit : u.unitOf s.issuer = some g)
    (hothers : ∀ j, j ≠ s.issuer → u.unitOf j = s.unitOf j) (hbare : u.bare = s.bare)
    (hops : u.ops = (s.cancelWrites s.issuer names).ops) (hafter : unit (advance 1 (releaseThreads g c))) :
    s.runs i unit fun t => s.unmoved t names := by
  refine State.runs_of_retire (v := u.modUnit s.issuer fun g => releaseThreads g c) (by rw [hexec, State.release, hissuer])
    ((State.modUnit_issuer ..).trans hissuer) (State.unitOf_modUnit_same _ hunit)
    (fun j hj => (State.unitOf_modUnit_other _ hj).trans (hothers j hj)) ((State.bare_modUnit ..).trans hbare)
    ((State.modUnit_ops ..).trans hops) hafter

theorem State.runs_weaken {s : State} {i : Instr} {unit unit' : Group → Prop} {part part' : State → Prop} (h : s.runs i unit part)
    (hunit : ∀ g', unit g' → unit' g') (hpart : ∀ t, part t → part' t) : s.runs i unit' part' := by
  obtain ⟨t, g', hexec, hu, hothers, hg, ht⟩ := h
  exact ⟨t, g', hexec, hu, hothers, hunit g' hg, hpart t ht⟩

/-! ### A cross-lane word that executes as it issues (R168) -/

/-- The lanes present at a cross-lane word. -/
def presentMask (w : AluW) (g : Group) : BitVec 32 := guardMask g w.head &&& namedLanes g (crossMask w g)

theorem presentMask_guarded {w : AluW} {g : Group} {l : Nat} (h : (presentMask w g).getLsbD l = true) :
    (guardMask g w.head).getLsbD l = true := by
  rw [presentMask, BitVec.getLsbD_and, Bool.and_eq_true] at h
  exact h.1

/-- What a lane brings to a cross-lane word. -/
def brought (w : AluW) (f : AluForm) (g : Group) (l : Nat) : Nat × Reg32 × Reg32 :=
  (l, lowHalf (laneIn g f w l).a, lowHalf (laneIn g f w l).b)

theorem presentLanes_eq (w : AluW) (f : AluForm) (g : Group) : presentLanes w f g = (lanesOf (presentMask w g)).map (brought w f g) := rfl

theorem presentLanes_fst (w : AluW) (f : AluForm) (g : Group) : (presentLanes w f g).map Prod.fst = lanesOf (presentMask w g) := by
  simp [presentLanes_eq, brought, Function.comp_def]

/-- The unit after the present lanes have written and raised flags, and the threads have gone on. -/
theorem cross_unit {w : AluW} {g g0 : Group} {c : Clause} {per : Nat → List RegWrite} {names : Nat → List RegName}
    {fl : List (Nat × BitVec 5)} (flags : Nat → BitVec 5) (hsame : sameRegs g g0) (hown : ownWrites per) (honce : onceWrites per)
    (hnames : ∀ l, (presentMask w g).getLsbD l = true → ∀ x ∈ per l, x.reg ∈ names l)
    (hflags : raisesEach fl (lanesOf (presentMask w g)) flags) (ns : List RegName) :
    let g' := advance 1 (releaseThreads (raiseFlags ((writesByLane (presentMask w g) per).foldl applyWrite (clearHazards g0 ns)) fl) c)
    (∀ l, (presentMask w g).getLsbD l = true → l < g.threads.length → ∀ x ∈ per l, readName g' l x.reg = stored x) ∧
      (∀ l, (threadAt g' l).status = (threadAt g l).status |||
        (if l < g.threads.length ∧ l ∈ lanesOf (presentMask w g) then flags l else 0).zeroExtend 32) ∧
      g.keeps g' (presentMask w g) names := by
  intro g'
  obtain ⟨-, hlen, hthreads, -⟩ := id hsame
  obtain ⟨hwlen, hwthreads, -⟩ := foldl_applyWrite_keeps (writesByLane (presentMask w g) per) (clearHazards g0 ns)
  have hlast : sameRegs (raiseFlags ((writesByLane (presentMask w g) per).foldl applyWrite (clearHazards g0 ns)) fl) g' :=
    (sameRegs_releaseThreads _ c).trans (sameRegs_advance 1 _)
  refine ⟨fun l hm hl x hx => ?read, fun l => ?status, keeps_same (keeps_raiseFlags fl ?keeps) hlast⟩
  case read =>
    rw [hlast.readName, readName_raiseFlags]
    exact readName_writesByLane (g := clearHazards g0 ns) hown honce hm (hlen ▸ hl) hx
  case status =>
    by_cases hl : l < g.threads.length
    · rw [(hlast.2.2.1 l).2.2.2.1, status_raiseFlags _ _ hflags.1 l (hwlen ▸ hlen ▸ hl), hflags.2 l, (hwthreads l).2.1]
      simp only [hl, true_and]
      exact congrArg (· ||| _) (hthreads l).2.2.2.1
    · have hle : g.threads.length ≤ l := Nat.le_of_not_lt hl
      have hlen' : g'.threads.length = g.threads.length :=
        hlast.2.1.trans ((raiseFlags_keeps fl _).2.1.trans (hwlen.trans hlen))
      rw [threadAt_beyond hle, threadAt_beyond (hlen' ▸ hle)]
      simp [hl]
  case keeps => exact keeps_of_same hsame (keeps_writesByLane hown g0 ns hnames)

/-- A cross-lane word that executes as it issues: its present lanes make writes of their own and raise flags. -/
theorem cross_runs {f : AluForm} {w : AluW} {ns : Group → List RegName} {result : Group → List (Nat × Reg32 × Reg32) → CrossOut}
    {s : State} {g : Group} {c : Clause} {i : Instr} {per : Nat → List RegWrite} {names : Nat → List RegName} (flags : Nat → BitVec 5)
    (hexec : Sys2Proof.Machine.exec i s = crossGo f w ns result s g) (hu : s.unitOf s.issuer = some g) (hfree : flagFree g w.head)
    (hready : crossReady w g c) (hown : ownWrites per) (honce : onceWrites per)
    (hnames : ∀ l, (presentMask w g).getLsbD l = true → ∀ x ∈ per l, x.reg ∈ names l)
    (hwrites : ∀ g0, sameRegs g g0 → (result g0 (presentLanes w f g)).writes = writesByLane (presentMask w g) per)
    (hflags : ∀ g0, raisesEach (result g0 (presentLanes w f g)).flags (lanesOf (presentMask w g)) flags) :
    s.runs i (fun g' =>
        (∀ l, (presentMask w g).getLsbD l = true → l < g.threads.length → ∀ x ∈ per l, readName g' l x.reg = stored x) ∧
        (∀ l, (threadAt g' l).status = (threadAt g l).status |||
          (if l < g.threads.length ∧ l ∈ lanesOf (presentMask w g) then flags l else 0).zeroExtend 32) ∧
        g.keeps g' (presentMask w g) names) fun t => t.bare = s.bare := by
  obtain ⟨src, hsrc⟩ : ∃ src : Nat → Reg32 × Reg32, src = fun l => (lowHalf (laneIn g f w l).a, lowHalf (laneIn g f w l).b) := ⟨_, rfl⟩
  obtain ⟨g0, hg0⟩ : ∃ g0, g0 = gatheredGroup g c (crossMask w g) (guardMask g w.head) src := ⟨_, rfl⟩
  have hsame : sameRegs g g0 := hg0 ▸ sameRegs_gatheredGroup ..
  obtain ⟨r, hr⟩ : ∃ r, r = result g0 (presentLanes w f g) := ⟨_, rfl⟩
  have hbrought : contributions g0 c.complete = presentLanes w f g := by
    rw [hg0, contributions_gatheredGroup hready, hsrc]
    rfl
  have hrun : Sys2Proof.Machine.exec i s = .next ((((s.modUnit s.issuer fun _ => g0).writeNow s.issuer (ns g0) r.writes).modUnit
      s.issuer fun g => raiseFlags g r.flags).release c.complete) := by
    rw [hexec, crossGo, ← hsrc, gather_ready hready, ← hg0]
    simp only [hbrought, State.modUnit_issuer, ← hr]
    exact State.fixed_of_free _ _ (hg0 ▸ flagFree_gatheredGroup hready _ _ hfree)
  have hunit := cross_unit (c := c.complete) flags hsame hown honce hnames (hr ▸ hflags g0) (ns g0)
  rw [← hwrites g0 hsame, ← hr] at hunit
  refine State.runs_weaken (State.runs_of_release (names := ns g0) hrun (by simp)
    (State.unitOf_modUnit_same _ (State.unitOf_writeNow _ _ (State.unitOf_modUnit_same _ hu))) (fun j hj => ?others) (by simp)
    (by simp [State.cancelWrites]) hunit) (fun _ h => h) fun _ h => h.1
  case others => rw [State.unitOf_modUnit_other _ hj, State.unitOf_writeNow_other _ _ hj, State.unitOf_modUnit_other _ hj]

/-! ### Rows (R173-R178) -/

/-- A cross-lane word of a row is carried out with the row's values and flags, wherever the checks of R44 let it issue. -/
def CrossRow.computes (r : CrossRow) : Prop := ∀ w : AluW, ∃ result : Group → List (Nat × Reg32 × Reg32) → CrossOut,
  (∀ s, Sys2Proof.Machine.exec (r.con w) s =
    s.issueWord w.head (aluCheck (r.form w) w) (crossGo (r.form w) w (fun g => aluWrites g (r.form w) w) result s)) ∧
  ∀ g g0, firstFault g w.head (aluCheck (r.form w) w g) = none →
    let cs := presentLanes w (r.form w) g
    (result g0 cs).writes = cs.flatMap (fun e => dstWrites g0 e.1 false w.dst (r.value w cs e)) ∧
      raisesEach (result g0 cs).flags (cs.map Prod.fst) (r.flags w cs)

/-- The destinations of cross-lane words: a predicate, or a register that is no k register (R172). -/
def laneDst (k : DstForm) : Prop := k = .pred ∨ k = .vOnly

theorem not_kReg_of_laneDst {k : DstForm} {d : Spec} (hk : laneDst k) (hd : dstDetails k d = []) : isKReg d = false := by
  cases hopd : opdOf d with
  | k n => rcases hk with rfl | rfl <;> simp [dstDetails, hopd] at hd
  | _ => simp [isKReg, hopd]

theorem dstWrites_once (g : Group) (wide : Bool) (d : Spec) (v : Nat → Word64) : onceWrites fun l => dstWrites g l wide d (v l) :=
  fun _ _ hx _ hy hreg => dstWrites_inj hx hy hreg

theorem CrossRow.delivers_of (r : CrossRow) (hcomputes : r.computes) (hdst : ∀ w, laneDst (r.form w).dst) : r.delivers := by
  intro w s g c hi hfree hready cs
  obtain ⟨result, hexec, hresult⟩ := hcomputes w
  obtain ⟨hdetails, hbound⟩ := aluCheck_passed hi.2.2
  have hnarrow : dstWide (r.form w).dst = false ∧ (r.form w).dst ≠ .none ∧ (r.form w).dst ≠ .xreg := by
    rcases hdst w with h | h <;> simp [h, dstWide]
  rw [hnarrow.1] at hbound
  obtain ⟨per, hper⟩ : ∃ per : Nat → List RegWrite,
    per = fun l => dstWrites g l false w.dst (r.value w cs (brought w (r.form w) g l)) := ⟨_, rfl⟩
  have hk := not_kReg_of_laneDst (hdst w) hdetails
  have hruns := cross_runs (per := per) (names := fun l => regNames g l w.dst 1) (r.flags w cs) ((hexec s).trans (hi.run _)) hi.1 hfree
    hready (hper ▸ dstWrites_own g false hk _) (hper ▸ dstWrites_once g false w.dst _)
    (fun l hl x hx => ?name) (fun g0 hsame => ?writes) fun g0 => presentLanes_fst w (r.form w) g ▸ (hresult g g0 hi.2.2).2
  case name =>
    rw [hper] at hx
    exact dstWrites_name hx fun x off hrel =>
      effective_nonneg_of_bound (hbound l (presentMask_guarded hl) hnarrow.2.1 hnarrow.2.2) hrel
  case writes =>
    rw [(hresult g g0 hi.2.2).1, presentLanes_eq, List.flatMap_map, hper]
    simp only [dstWrites_of_same hsame]
    rfl
  refine State.runs_weaken hruns (fun g' ⟨hread, hstatus, hkeeps⟩ => ⟨fun e he hl => ?hold, fun l hl => ?flag, hkeeps⟩) fun _ h => h
  case hold =>
    obtain ⟨l, hm, rfl⟩ := List.mem_map.mp he
    have hreads := hread l (lanesOf_mem.mp hm) hl
    rw [hper] at hreads
    exact holdsResult_of_reads (g := g) (hkeeps.2.2.2.1 l).1 hreads
  case flag =>
    rw [hstatus l, presentLanes_fst]
    simp only [hl, true_and, List.contains_eq_mem, decide_eq_true_eq]
    split <;> rfl

theorem laneWrites_map (g : Group) (w : AluW) (cs : List (Nat × Reg32 × Reg32)) (v : Nat × Reg32 × Reg32 → Reg32) :
    laneWrites g w (cs.map fun e => (e.1, v e)) = cs.flatMap fun e => dstWrites g e.1 false w.dst ((v e).zeroExtend 64) := by
  rw [laneWrites, List.flatMap_map]

/-- A row whose words write one register value per present lane, and raise flags for each of them or none. -/
theorem CrossRow.computes.of_value {r : CrossRow} {result : AluW → Group → List (Nat × Reg32 × Reg32) → CrossOut}
    (v : AluW → List (Nat × Reg32 × Reg32) → Nat × Reg32 × Reg32 → Reg32)
    (hexec : ∀ w s, Sys2Proof.Machine.exec (r.con w) s =
      s.issueWord w.head (aluCheck (r.form w) w) (crossGo (r.form w) w (fun g => aluWrites g (r.form w) w) (result w) s))
    (hwrites : ∀ w g cs, (result w g cs).writes = laneWrites g w (cs.map fun e => (e.1, v w cs e)))
    (hflags : ∀ w g cs, (cs.map Prod.fst).Nodup → raisesEach (result w g cs).flags (cs.map Prod.fst) (r.flags w cs))
    (hvalue : ∀ w g, firstFault g w.head (aluCheck (r.form w) w g) = none → ∀ e ∈ presentLanes w (r.form w) g,
      (v w (presentLanes w (r.form w) g) e).zeroExtend 64 = r.value w (presentLanes w (r.form w) g) e) : r.computes := by
  refine fun w => ⟨result w, hexec w, fun g g0 hpass => ⟨?_, hflags w g0 _ ?_⟩⟩
  · rw [hwrites, laneWrites_map]
    exact List.flatMap_congr fun e he => by rw [hvalue w g hpass e he]
  · rw [presentLanes_fst]
    exact lanesOf_nodup _

theorem boolReg_zeroExtend (b : Bool) : (boolReg b).zeroExtend 64 = if b then 1 else 0 := by
  cases b <;> rfl

/-! ### VOTE and ELECT (R173, R174) -/

/-- All elements have the first one's value exactly where any two have the same. -/
theorem all_eq_head {α β : Type} [DecidableEq β] (f : α → β) (cs : List α) :
    (cs.all fun c => (cs.head?.map f) = some (f c)) = cs.all fun e => cs.all fun d => f e = f d := by
  rw [Bool.eq_iff_iff]
  cases cs with
  | nil => simp
  | cons a cs =>
    simp only [List.all_eq_true, List.head?_cons, Option.map_some, decide_eq_true_eq, Option.some.injEq]
    exact ⟨fun h e he d hd => (h e he).symm.trans (h d hd), fun h c hc => h a List.mem_cons_self c hc⟩

theorem voteResult_writes (w : AluW) (g : Group) (cs : List (Nat × Reg32 × Reg32)) : (voteResult w g cs).writes =
    laneWrites g w (cs.map fun e => (e.1, boolReg (match w.mod.toNat with
      | 0 => cs.all fun e => e.2.1 ≠ 0
      | 1 => cs.any fun e => e.2.1 ≠ 0
      | _ => cs.all fun e => cs.all fun d => e.2.1 = d.2.1))) := by
  rw [← all_eq_head fun e : Nat × Reg32 × Reg32 => e.2.1]
  rfl

theorem lanesOf_sorted (m : BitVec 32) : (lanesOf m).Pairwise (· < ·) := List.pairwise_lt_range.filter _

/-- The first of the lanes of a mask is the lowest. -/
theorem head?_lanesOf {m : BitVec 32} {l : Nat} :
    (lanesOf m).head? = some l ↔ m.getLsbD l = true ∧ ∀ k, m.getLsbD k = true → l ≤ k := by
  have hsorted := lanesOf_sorted m
  simp only [← lanesOf_mem]
  generalize lanesOf m = ls at hsorted ⊢
  cases ls with
  | nil => simp
  | cons a ls =>
    obtain ⟨hlow, -⟩ := List.pairwise_cons.mp hsorted
    simp only [List.head?_cons, Option.some.injEq, List.mem_cons, forall_eq_or_imp]
    constructor
    · rintro rfl
      exact ⟨.inl rfl, le_rfl, fun k hk => (hlow k hk).le⟩
    · rintro ⟨rfl | hl, hla, -⟩
      · rfl
      · exact absurd (hlow l hl) (by omega)

theorem elected_eq {w : AluW} {f : AluForm} {g : Group} {e : Nat × Reg32 × Reg32} (he : e ∈ presentLanes w f g) :
    decide (e.1 = (((presentLanes w f g).head?.map Prod.fst).getD 0)) = (presentLanes w f g).all fun d => e.1 ≤ d.1 := by
  have hlanes := presentLanes_fst w f g
  have hmem : e.1 ∈ lanesOf (presentMask w g) := hlanes ▸ List.mem_map_of_mem he
  have hsome : ∃ k, (lanesOf (presentMask w g)).head? = some k := ⟨_, List.head?_eq_some_head (List.ne_nil_of_mem hmem)⟩
  obtain ⟨k, hk⟩ := hsome
  rw [← List.head?_map, hlanes, hk, Bool.eq_iff_iff, List.all_eq_true]
  obtain ⟨hkm, hlow⟩ := head?_lanesOf.mp hk
  simp only [Option.getD_some, decide_eq_true_eq]
  constructor
  · rintro hek d hd
    rw [hek]
    exact hlow _ (lanesOf_mem.mp (hlanes ▸ List.mem_map_of_mem hd))
  · intro hall
    obtain ⟨d, hd, rfl⟩ := List.mem_map.mp (hlanes ▸ lanesOf_mem.mpr hkm)
    exact Nat.le_antisymm (hall d hd) (hlow _ (lanesOf_mem.mp hmem))

/-! ### SHFL (R175) -/

theorem bind_broughtBy (cs : List (Nat × Reg32 × Reg32)) (source : Option Nat) (a : Reg32) :
    (match source with
      | some j => match cs.find? fun d => d.1 = j with | some d => d.2.1 | none => a
      | none => a) = (source.bind (broughtBy cs)).getD a := by
  cases source with
  | none => rfl
  | some j =>
    simp only [Option.bind_some, broughtBy]
    cases cs.find? fun d => d.1 = j <;> rfl

/-- The value that SHFL gives a present lane. -/
def shuffled (w : AluW) (cs : List (Nat × Reg32 × Reg32)) (e : Nat × Reg32 × Reg32) : Reg32 :=
  ((shflSource (shflMode w) (32 / 2 ^ shflWidth w) (if isImm w then e.2.2.toNat % 32 else e.2.2.toNat) e.1).bind (broughtBy cs)).getD e.2.1

theorem shflResult_writes (w : AluW) (g : Group) (cs : List (Nat × Reg32 × Reg32)) :
    (shflResult w g cs).writes = laneWrites g w (cs.map fun e => (e.1, shuffled w cs e)) :=
  congrArg (laneWrites g w) (List.map_congr_left fun e _ => congrArg (Prod.mk e.1) (bind_broughtBy cs _ e.2.1))

/-- The width field of a SHFL that issues is at most 4 (R172, R175). -/
theorem shflWidth_le {w : AluW} {g : Group} (h : firstFault g w.head (aluCheck (formShfl w) w g) = none) : shflWidth w ≤ 4 := by
  obtain ⟨hdetails, -⟩ := firstFault_none h
  simp only [aluCheck, aluFieldDetails, formShfl, formCross, List.append_eq_nil_iff] at hdetails
  by_contra hwide
  cases himm : isImm w with
  | true => simp [shflExtra, himm, hwide] at hdetails
  | false =>
    have hfield : ¬ field w.mod.toNat 2 3 ≤ 4 := by simpa [shflWidth, himm] using hwide
    simp [himm, hfield] at hdetails

theorem segment_width {n : Nat} (h : n ≤ 4) : 32 / 2 ^ n = [32, 16, 8, 4].getD n 2 := by
  interval_cases n <;> rfl

theorem brought_amount {w : AluW} {g : Group} (himm : isImm w = true) {e : Nat × Reg32 × Reg32}
    (he : e ∈ presentLanes w (formShfl w) g) : e.2.2.toNat = (w.opc ++ w.mod : BitVec 16).toNat := by
  obtain ⟨l, -, rfl⟩ := List.mem_map.mp he
  have hb : (laneIn g (formShfl w) w l).b = (w.opc ++ w.mod : BitVec 16).zeroExtend 64 := by
    simp [laneIn, himm, formShfl, formCross, immValue]
  have hlt := (w.opc ++ w.mod : BitVec 16).isLt
  show (lowHalf (laneIn g (formShfl w) w l).b).toNat = _
  rw [hb, lowHalf, BitVec.extractLsb'_toNat, BitVec.toNat_setWidth]
  omega

theorem shflMode_eq (w : AluW) :
    shflMode w = if isImm w then (w.opc ++ w.mod : BitVec 16).toNat / 32 % 4 else w.mod.toNat % 4 := by
  simp [shflMode, field]

theorem shflWidth_eq (w : AluW) :
    shflWidth w = if isImm w then (w.opc ++ w.mod : BitVec 16).toNat / 128 % 8 else w.mod.toNat / 4 % 8 := by
  simp [shflWidth, field]

/-- A lane's segment counted from its lowest lane. -/
theorem shflSource_eq (mode width n i : Nat) : shflSource mode width n i =
    (let low := i / width * width
     match mode with
      | 0 => some (low + n % width)
      | 1 => if n < 32 ∧ low + n ≤ i then some (i - n) else none
      | 2 => if n < 32 ∧ i + n < low + width then some (i + n) else none
      | _ => some (Nat.xor i (n % width))) := by
  have hlow : i - i % width = i / width * width := by
    have := Nat.div_add_mod' i width
    omega
  match mode with
  | 0 => exact congrArg (fun low => some (low + n % width)) hlow
  | 1 | 2 => simp [shflSource, hlow]
  | _ + 3 => rfl

theorem shflAmount_eq {w : AluW} {g : Group} {e : Nat × Reg32 × Reg32} (he : e ∈ presentLanes w (formShfl w) g) :
    (if isImm w then e.2.2.toNat % 32 else e.2.2.toNat) =
      if isImm w then (w.opc ++ w.mod : BitVec 16).toNat % 32 else e.2.2.toNat := by
  split
  · next himm => rw [brought_amount himm he]
  · rfl

/-! ### REDUX and SCAN (R177, R178) -/

theorem rounding_field (m : BitVec 6) : field m.toNat 4 2 = m.toNat / 16 := by
  have := m.isLt
  simp only [field]
  omega

/-- What the tree over the present lanes leaves, and the flags of its combines. -/
def reduxTree (w : AluW) (cs : List (Nat × Reg32 × Reg32)) : Option Reg32 × BitVec 5 :=
  reduceTree (reduceOp (w.mod.toNat % 16) (rmOf (w.mod.toNat / 16))) ((List.range 32).map (broughtBy cs))

theorem reduxResult_eq (w : AluW) (g : Group) (cs : List (Nat × Reg32 × Reg32)) : reduxResult w g cs =
    ⟨laneWrites g w (cs.map fun e => (e.1, (reduxTree w cs).1.getD 0)), cs.map fun e => (e.1, (reduxTree w cs).2)⟩ := by
  rw [reduxResult, field_zero, rounding_field]
  rfl

/-- What the tree over the present lanes up to a lane leaves, or with EXC below it, and the flags of its combines. -/
def scanTree (w : AluW) (cs : List (Nat × Reg32 × Reg32)) (l : Nat) : Option Reg32 × BitVec 5 :=
  reduceTree (reduceOp (w.mod.toNat % 16) .rne) ((List.range 32).map fun i =>
    if i < l ∨ (w.mod.toNat / 16 % 2 = 0 ∧ i = l) then broughtBy cs i else none)

theorem scanResult_eq (w : AluW) (g : Group) (cs : List (Nat × Reg32 × Reg32)) : scanResult w g cs =
    ⟨laneWrites g w (cs.map fun e => (e.1, (scanTree w cs e.1).1.getD e.2.2)), cs.map fun e => (e.1, (scanTree w cs e.1).2)⟩ := by
  have htree : ∀ e : Nat × Reg32 × Reg32, reduceTree (reduceOp (field w.mod.toNat 0 4) .rne)
      (present cs fun i => i < e.1 || (!bitOf w.mod.toNat 4 && i = e.1)) = scanTree w cs e.1 := fun e => by
    simp [scanTree, present, broughtBy, field_zero, bitOf_eq]
  simp only [scanResult, htree, List.map_map, Function.comp_def]

/-! ### The rows -/

theorem crossRows_compute : ∀ r ∈ crossRows, r.computes := by
  simp only [crossRows, List.forall_mem_cons, List.not_mem_nil, false_implies, implies_true, and_true]
  refine ⟨.of_value _ (fun _ _ => rfl) voteResult_writes (fun _ _ _ _ => raisesEach_none _) fun _ _ _ _ _ => boolReg_zeroExtend _,
    .of_value _ (fun _ _ => rfl) (fun _ _ _ => rfl) (fun _ _ _ _ => raisesEach_none _) fun _ _ _ _ he =>
      (boolReg_zeroExtend _).trans (by rw [elected_eq he]),
    .of_value shuffled (fun _ _ => rfl) shflResult_writes (fun _ _ _ _ => raisesEach_none _) fun _ _ hpass _ he => ?shfl,
    .of_value _ (fun _ _ => rfl) (fun w g cs => congrArg CrossOut.writes (reduxResult_eq w g cs))
      (fun w g cs hcs => reduxResult_eq w g cs ▸ raisesEach_map hcs fun _ => (reduxTree w cs).2) fun _ _ _ _ _ => rfl,
    .of_value _ (fun _ _ => rfl) (fun w g cs => congrArg CrossOut.writes (scanResult_eq w g cs))
      (fun w g cs hcs => scanResult_eq w g cs ▸ raisesEach_map hcs fun l => (scanTree w cs l).2) fun _ _ _ _ _ => rfl⟩
  case shfl =>
    rw [shuffled, shflAmount_eq he, segment_width (shflWidth_le hpass), shflWidth_eq, shflMode_eq, shflSource_eq] <;> rfl

theorem crossRows_laneDst : ∀ r ∈ crossRows, ∀ w, laneDst (r.form w).dst := by
  simp [crossRows, laneDst, formVote, formElect, formShfl, formRedux, formScan, formCross]

/-- Settles O10: the named threads stand held at once, what they bring is what they read as they issued, and each row's tree, source
or vote over it is the one its words run. -/
theorem crossLaneWordsDeliver : Obligations.CrossLaneWordsDeliver := fun r hr =>
  r.delivers_of (crossRows_compute r hr) (crossRows_laneDst r hr)

end Sys2Proof.Machine
end

section
/-!
MATCH and GSYNC (R176, R179).
-/
namespace Sys2Proof.Machine

/-! ### Two destinations of a lane -/

theorem ownWrites_append {p q : Nat → List RegWrite} (hp : ownWrites p) (hq : ownWrites q) : ownWrites fun l => p l ++ q l :=
  fun l x hx => (List.mem_append.mp hx).elim (hp l x) (hq l x)

/-- Lanes that write each of two rows of registers once, no register of one row in the other, write no register twice. -/
theorem onceWrites_append {p q : Nat → List RegWrite} (hp : onceWrites p) (hq : onceWrites q)
    (hpq : ∀ l, ∀ x ∈ p l, ∀ y ∈ q l, y.reg ≠ x.reg) : onceWrites fun l => p l ++ q l := by
  intro l x hx y hy hreg
  rcases List.mem_append.mp hx with hx | hx <;> rcases List.mem_append.mp hy with hy | hy
  · exact hp l x hx y hy hreg
  · exact absurd hreg (hpq l x hx y hy)
  · exact absurd hreg.symm (hpq l y hy x hx)
  · exact hq l x hx y hy hreg

theorem dstWrites_pred_reg {g : Group} {l : Nat} {d : Spec} {v : Word64} {x : RegWrite} (hd : dstDetails .pred d = [])
    (hx : x ∈ dstWrites g l false d v) : ∃ n, x.reg = .p n := by
  cases hopd : opdOf d with
  | p n => exact ⟨n, by simp_all [dstWrites]⟩
  | _ => simp [dstWrites, dstDetails, hopd] at hd hx

theorem dstWrites_vOnly_reg {g : Group} {l : Nat} {d : Spec} {v : Word64} {x : RegWrite} (hd : dstDetails .vOnly d = [])
    (hx : x ∈ dstWrites g l false d v) : ∃ n, x.reg = .v n := by
  cases hopd : opdOf d with
  | v n => exact ⟨n, by simp_all [dstWrites]⟩
  | rel a off => exact ⟨_, by simp_all [dstWrites]; rfl⟩
  | _ => simp [dstWrites, dstDetails, hopd] at hd hx

/-! ### Classes of equal keys (R176) -/

/-- Two present lanes share a class: one lane, or equal keys. -/
def sharesClass (w : AluW) (x y : Nat × Reg32 × Reg32) : Bool := x.1 = y.1 ||
  if w.mod = 1 then comparedFloat 0 (unpack fp32 false x.2.1.toNat) (unpack fp32 false y.2.1.toNat) else x.2.1 = y.2.1

/-- The mask of the class of a present lane. -/
def keyClass (w : AluW) (cs : List (Nat × Reg32 × Reg32)) (e : Nat × Reg32 × Reg32) : BitVec 32 :=
  maskOf fun l => cs.any fun d => d.1 = l && sharesClass w e d

/-- Whether a present lane is the lowest of its class. -/
def lowestOfClass (w : AluW) (cs : List (Nat × Reg32 × Reg32)) (e : Nat × Reg32 × Reg32) : Bool :=
  cs.all fun d => !sharesClass w e d || e.1 ≤ d.1

theorem sharesClass_eq (w : AluW) (x y : Nat × Reg32 × Reg32) :
    sharesClass w x y = (decide (x.1 = y.1) || sameKey (w.mod = 1) x.2.1 y.2.1) := by
  by_cases h : w.mod = 1 <;> simp [sharesClass, sameKey, h, compareOp_comparedFloat, val32]

section
variable {w : AluW} {cs : List (Nat × Reg32 × Reg32)} {e : Nat × Reg32 × Reg32} (he : e ∈ cs)
include he

theorem maskOf_sameKey : (maskOf fun l => l = e.1 || cs.any fun d => d.1 = l && sameKey (w.mod = 1) e.2.1 d.2.1) = keyClass w cs e := by
  refine congrArg maskOf (funext fun l => Bool.eq_iff_iff.mpr ?_)
  simp only [Bool.or_eq_true, Bool.and_eq_true, decide_eq_true_eq, List.any_eq_true, sharesClass_eq]
  constructor
  · rintro (rfl | ⟨d, hd, hl, hkey⟩)
    · exact ⟨e, he, rfl, .inl rfl⟩
    · exact ⟨d, hd, hl, .inr hkey⟩
  · rintro ⟨d, hd, rfl, hlane | hkey⟩
    · exact .inl hlane.symm
    · exact .inr ⟨d, hd, rfl, hkey⟩

theorem head?_keyClass (hlanes : ∀ d ∈ cs, d.1 < 32) :
    decide ((lanesOf (keyClass w cs e)).head? = some e.1) = lowestOfClass w cs e := by
  have hmem : ∀ k, (keyClass w cs e).getLsbD k = true ↔ ∃ d ∈ cs, d.1 = k ∧ sharesClass w e d = true := by
    intro k
    simp only [keyClass, getLsbD_maskOf, Bool.and_eq_true, decide_eq_true_eq, List.any_eq_true]
    exact ⟨And.right, fun ⟨d, hd, hk, hs⟩ => ⟨hk ▸ hlanes d hd, d, hd, hk, hs⟩⟩
  rw [Bool.eq_iff_iff, decide_eq_true_eq, head?_lanesOf, lowestOfClass, List.all_eq_true]
  simp only [hmem, Bool.or_eq_true, Bool.not_eq_true', decide_eq_true_eq]
  constructor
  · rintro ⟨-, hlow⟩ d hd
    cases hs : sharesClass w e d with
    | false => exact .inl rfl
    | true => exact .inr (hlow d.1 ⟨d, hd, rfl, hs⟩)
  · intro hall
    refine ⟨⟨e, he, rfl, by simp [sharesClass]⟩, ?_⟩
    rintro k ⟨d, hd, rfl, hs⟩
    exact (hall d hd).resolve_left (by simp [hs])

end

/-! ### MATCH (R176) -/

/-- What a present lane writes: whether it is the lowest of its class, and the class. -/
def matchWrites (w : AluW) (cs : List (Nat × Reg32 × Reg32)) (g : Group) (e : Nat × Reg32 × Reg32) : List RegWrite :=
  dstWrites g e.1 false w.dst (boolWord (lowestOfClass w cs e)) ++ dstWrites g e.1 false w.opb ((keyClass w cs e).zeroExtend 64)

theorem matchResult_writes (w : AluW) (g : Group) {cs : List (Nat × Reg32 × Reg32)} (hlanes : ∀ d ∈ cs, d.1 < 32) :
    (matchResult w g cs).writes = cs.flatMap (matchWrites w cs g) := by
  refine List.flatMap_congr fun e he => ?_
  rw [matchWrites, ← head?_keyClass he hlanes, ← maskOf_sameKey he]

theorem presentLanes_lt {w : AluW} {f : AluForm} {g : Group} : ∀ d ∈ presentLanes w f g, d.1 < 32 := by
  intro d hd
  have hmem : d.1 ∈ lanesOf (presentMask w g) := presentLanes_fst w f g ▸ List.mem_map_of_mem hd
  exact List.mem_range.mp (List.mem_filter.mp hmem).1

/-- What a MATCH that issues has passed: its destinations, and their bounds in each guard-true lane. -/
theorem matchCheck_passed {w : AluW} {g : Group} (h : firstFault g w.head (matchCheck w g) = none) :
    dstDetails .pred w.dst = [] ∧ dstDetails .vOnly w.opb = [] ∧ ∀ l, (guardMask g w.head).getLsbD l = true →
      boundFails g l 1 1 w.dst = false ∧ boundFails g l 1 1 w.opb = false := by
  obtain ⟨hdetails, -, hbound⟩ := firstFault_none h
  simp only [matchCheck, aluCheck, aluFieldDetails, formMatch, formCross, List.append_eq_nil_iff] at hdetails
  obtain ⟨⟨⟨-, ⟨⟨hdst, -⟩, hextra⟩, himm⟩, -⟩, -⟩ := hdetails
  have hreg : isImm w = false := by
    cases hw : isImm w with
    | false => rfl
    | true => simp [hw] at himm
  refine ⟨hdst, by simpa [hreg] using hextra, fun l hl => ?_⟩
  have hb := hbound l hl
  simp only [matchCheck, aluCheck, aluBound, formMatch, formCross, dstWide, width, Bool.or_eq_false_iff] at hb
  exact ⟨hb.1.2, hb.2⟩

theorem matchFinds_holds : matchFinds := by
  intro w s g c hi hfree hready cs same cls
  obtain ⟨hdst, hopb, hbound⟩ := matchCheck_passed hi.2.2
  obtain ⟨per, hper⟩ : ∃ per : Nat → List RegWrite, per = fun l => matchWrites w cs g (brought w (formMatch w) g l) := ⟨_, rfl⟩
  have hown : ownWrites per := hper ▸ ownWrites_append (dstWrites_own g false (not_kReg_of_laneDst (.inl rfl) hdst) _)
    (dstWrites_own g false (not_kReg_of_laneDst (.inr rfl) hopb) _)
  have honce : onceWrites per := hper ▸ onceWrites_append (dstWrites_once g false w.dst _) (dstWrites_once g false w.opb _)
    fun l x hx y hy hreg => by
      obtain ⟨n, hn⟩ := dstWrites_pred_reg hdst hx
      obtain ⟨k, hk⟩ := dstWrites_vOnly_reg hopb hy
      rw [hn, hk] at hreg
      cases hreg
  have hruns := cross_runs (per := per) (names := fun l => regNames g l w.dst 1 ++ regNames g l w.opb 1) (i := .matchKey w)
    (f := formMatch w) (result := matchResult w) (fun _ => 0) (hi.run _) hi.1 hfree hready hown honce
    (fun l hl x hx => ?name) (fun g0 hsame => ?writes) fun _ => raisesEach_none _
  case name =>
    rw [hper] at hx
    obtain ⟨hbdst, hbopb⟩ := hbound l (presentMask_guarded hl)
    exact List.mem_append.mpr ((List.mem_append.mp hx).imp
      (fun hx => dstWrites_name hx fun x off hrel => effective_nonneg_of_bound hbdst hrel)
      fun hx => dstWrites_name hx fun x off hrel => effective_nonneg_of_bound hbopb hrel)
  case writes =>
    rw [matchResult_writes w g0 presentLanes_lt, presentLanes_eq, List.flatMap_map, hper]
    simp only [matchWrites, dstWrites_of_same hsame]
    rfl
  refine State.runs_weaken hruns (fun g' ⟨hread, hstatus, hkeeps⟩ => ⟨fun e he hl => ?hold, fun l => ?status, hkeeps⟩) fun _ h => h
  case hold =>
    obtain ⟨l, hm, rfl⟩ := List.mem_map.mp he
    have hreads := hread l (lanesOf_mem.mp hm) hl
    rw [hper] at hreads
    have hx := (hkeeps.2.2.2.1 l).1
    exact ⟨holdsResult_of_reads (g := g) hx fun x hx => hreads x (List.mem_append_left _ hx),
      holdsResult_of_reads (g := g) hx fun x hx => hreads x (List.mem_append_right _ hx)⟩
  case status => simp [hstatus l]

/-! ### GSYNC (R179) -/

theorem State.fenceHolds_modUnit (s : State) (f : Group → Group) : (s.modUnit s.issuer f).fenceHolds 3 0 = s.fenceHolds 3 0 := by
  simp [State.fenceHolds, State.released, State.readsOut, State.writesOut, State.matrixOut, State.outstanding, State.acquiring]

theorem gsyncOrders_holds : gsyncOrders := by
  intro w s g c hi hfree hready hfence
  obtain ⟨g0, hg0⟩ : ∃ g0, g0 = gatheredGroup g c (crossMask w g) (guardMask g w.head) fun _ => (0, 0) := ⟨_, rfl⟩
  have hsame : sameRegs g g0 := hg0 ▸ sameRegs_gatheredGroup ..
  have hexec : Sys2Proof.Machine.exec (.gsync w) s = .next ((s.modUnit s.issuer fun _ => g0).release c.complete) := by
    refine (hi.run (gsyncGo w s)).trans ?_
    rw [gsyncGo, gather_ready hready, State.fenceHolds_modUnit, hfence, Bool.and_false, ← hg0]
    exact State.fixed_of_free _ _ (hg0 ▸ flagFree_gatheredGroup hready _ _ hfree)
  have hstill : g.still (advance 1 (releaseThreads g0 c.complete)) :=
    Group.still_of_sameRegs ((hsame.trans (sameRegs_releaseThreads g0 c.complete)).trans (sameRegs_advance 1 _))
  refine State.runs_weaken (State.runs_of_release (names := []) hexec (State.modUnit_issuer ..) (State.unitOf_modUnit_same _ hi.1)
    (fun j hj => State.unitOf_modUnit_other _ hj) (State.bare_modUnit ..) ?ops hstill) (fun _ h => h) fun t ⟨hbare, hops⟩ => ⟨hbare, ?_⟩
  case ops => rw [State.modUnit_ops, State.cancelWrites_nil]
  rw [hops, State.cancelWrites_nil]

/-- Settles O11: the model's mask of a class is the statement's, as a lane shares its own class; a GSYNC that nothing holds only
gathers and releases its threads. -/
theorem matchesAndSyncsRun : Obligations.MatchesAndSyncsRun := ⟨matchFinds_holds, gsyncOrders_holds⟩

end Sys2Proof.Machine
end

section
/-!
What a memory access leaves behind as it issues: requests, translations, copies dropped from the L1, and a task's counts of sequence
numbers and log bytes (R187, R188, R190, R421).
-/
namespace Sys2Proof.Machine

/-! ### Home bytes, where slices and memory are the same -/

theorem State.homeByte_congr {s u : State} (hlines : u.lines = s.lines) (hmem : u.mem = s.mem) (hkeys : u.lineKeys = s.lineKeys)
    (key a : Nat) : u.homeByte key a = s.homeByte key a := by
  simp only [State.homeByte, State.line?, State.lineByte, State.memByte, hlines, hmem, hkeys]

theorem State.homeBytes_congr {s u : State} (hlines : u.lines = s.lines) (hmem : u.mem = s.mem) (hkeys : u.lineKeys = s.lineKeys)
    (key pa n : Nat) : u.homeBytes key pa n = s.homeBytes key pa n := by
  simp only [State.homeBytes, State.homeByte_congr hlines hmem hkeys]

/-! ### What an access may change -/

/-- A team without its counts of sequence numbers and log bytes. -/
def Team.uncounted (t : Team) : Team := { t with seq := 0, logged := [], loggedHeld := [] }

/-- Two parts that differ at most in what an access leaves behind as it issues. -/
def State.accessOnly (s u : State) : Prop :=
  { u with reqs := s.reqs, nextId := s.nextId, l1 := s.l1, dies := s.dies, teams := s.teams } = s ∧
  u.dies.map Die.untranslated = s.dies.map Die.untranslated ∧ u.teams.map Team.uncounted = s.teams.map Team.uncounted

theorem State.accessOnly_refl (s : State) : s.accessOnly s := ⟨rfl, rfl, rfl⟩

theorem State.accessOnly.trans {s t u : State} (h : s.accessOnly t) (k : t.accessOnly u) : s.accessOnly u := by
  obtain ⟨h1, h2, h3⟩ := h
  obtain ⟨k1, k2, k3⟩ := k
  refine ⟨?_, k2.trans h2, k3.trans h3⟩
  rw [← h1, ← k1]

theorem State.accessOnly_foldl {α : Type} {f : State → α → State} (hf : ∀ (s : State) a, s.accessOnly (f s a)) (as : List α) (s : State) :
    s.accessOnly (as.foldl f s) := by
  induction as generalizing s with
  | nil => exact s.accessOnly_refl
  | cons a as ih => exact (hf s a).trans (ih _)

theorem State.accessOnly_modTeam (s : State) (t : Nat) {f : Team → Team} (hf : ∀ a, (f a).uncounted = a.uncounted) :
    s.accessOnly (s.modTeam t f) := ⟨rfl, rfl, map_modAt s.teams t f Team.uncounted hf⟩

theorem State.accessOnly_addReq (s : State) (r : Req) : s.accessOnly (s.addReq r) := ⟨rfl, rfl, rfl⟩
theorem State.accessOnly_l1Drop (s : State) (which : L1Sector → Bool) : s.accessOnly (s.l1Drop which) := ⟨rfl, rfl, rfl⟩

theorem State.accessOnly_reserveLog (s : State) (held : Bool) (t pa n : Nat) : s.accessOnly (s.reserveLog held t pa n) :=
  s.accessOnly_modTeam t fun a => by cases held <;> rfl

theorem State.accessOnly_cacheTrans (s : State) (die ctx : Nat) (vas : List Nat) : s.accessOnly (s.cacheTrans die ctx vas) := by
  obtain ⟨ds, hcache, hds⟩ := State.cacheTrans_dies die ctx vas s
  exact hcache ▸ ⟨rfl, hds, rfl⟩

section
variable {s u : State} (h : s.accessOnly u)
include h

theorem State.accessOnly.issuer : u.issuer = s.issuer := (congrArg State.issuer h.1 :)
theorem State.accessOnly.ops : u.ops = s.ops := (congrArg State.ops h.1 :)
theorem State.accessOnly.launches : u.launches = s.launches := (congrArg State.launches h.1 :)
theorem State.accessOnly.clusters : u.clusters = s.clusters := (congrArg State.clusters h.1 :)
theorem State.accessOnly.contexts : u.contexts = s.contexts := (congrArg State.contexts h.1 :)

/-- Whatever of a team does not depend on its counts is as it was. -/
theorem State.accessOnly.team {β : Type} {f : Team → β} (hf : ∀ a : Team, f a.uncounted = f a) (t : Nat) :
    (u.teams[t]?).map f = (s.teams[t]?).map f := by
  have hat : (u.teams.map Team.uncounted)[t]? = (s.teams.map Team.uncounted)[t]? := by rw [h.2.2]
  have hmap := congrArg (Option.map f) hat
  simpa only [List.getElem?_map, Option.map_map, Function.comp_def, hf] using hmap

theorem State.accessOnly.unitOf (j : Issuer) : u.unitOf j = s.unitOf j := by
  cases j with
  | none => rfl
  | handler c => simp only [State.unitOf, h.clusters]
  | group t gi =>
    have hgroups := h.team (f := Team.groups) (fun _ => rfl) t
    have hat (x : State) : x.unitOf (.group t gi) = ((x.teams[t]?).map Team.groups).bind fun gs => gs[gi]? := by
      simp only [State.unitOf, State.group?]
      cases x.teams[t]? <;> rfl
    rw [hat, hat, hgroups]

theorem State.accessOnly.launchOf (t : Nat) : u.launchOf t = s.launchOf t := by
  have hlaunch := h.team (f := Team.launch) (fun _ => rfl) t
  have hat (x : State) : x.launchOf t = ((x.teams[t]?).map Team.launch).bind fun l => x.launches[l]? := by
    simp only [State.launchOf]
    cases x.teams[t]? <;> rfl
  rw [hat, hat, hlaunch, h.launches]

theorem State.accessOnly.coreOf (i : Issuer) : u.coreOf i = s.coreOf i := by
  cases i with
  | none => rfl
  | handler c => rfl
  | group t gi => exact congrArg (·.getD 0) (h.team (f := Team.core) (fun _ => rfl) t)

theorem State.accessOnly.ctxOf (i : Issuer) : u.ctxOf i = s.ctxOf i := by
  have hteam : u.teamOf i = s.teamOf i := by cases i <;> simp only [State.teamOf, h.clusters]
  simp only [State.ctxOf, hteam, h.launchOf]

theorem State.accessOnly.paOf (hdies : u.dies = s.dies) (va : Nat) : u.paOf va = s.paOf va := by
  have hhome := State.homeBytes_congr (s := s) (u := u) (congrArg State.lines h.1 :) (congrArg State.mem h.1 :) (congrArg State.lineKeys h.1 :)
  simp only [State.paOf, State.translate_congr hhome hdies h.contexts, h.issuer, h.coreOf, h.ctxOf]

theorem State.accessOnly.resting : u.resting = s.resting := by
  obtain ⟨hrest, hdies, hteams⟩ := h
  have hcounts (x : State) : x.resting = { x.bare with
      reqs := [], l1 := [], dies := x.dies.map Die.untranslated, teams := (x.teams.map Team.uncounted).map Team.bare } := by
    simp only [State.resting, State.bare, List.map_map]
    rfl
  rw [hcounts, hcounts, hdies, hteams]
  conv_rhs => rw [← hrest]
  rfl

end

/-- What rests is part of what is left without units. -/
theorem State.resting_of_bare {s u : State} (h : u.bare = s.bare) : u.resting = s.resting := by
  have hrest (x : State) : x.resting = { x.bare with
      reqs := [], l1 := [], dies := x.bare.dies.map Die.untranslated
      teams := x.bare.teams.map fun (t : Team) => { t with seq := 0, logged := [], loggedHeld := [] } } := rfl
  rw [hrest, hrest, h]

/-! ### Requests sent -/

/-- The requests of an access of any kind: one for each lane, to its translated address (R188). -/
theorem State.sendLanes_sends (op : Nat) (kind : ReqKind) (size aop : Nat) (plain : Bool) (data : Nat → List Byte) (compare : Nat → Word64)
    (as : List LaneAddr) (s : State) : s.accessOnly (s.sendLanes op as kind size aop plain data compare) ∧
      ∃ rs, (s.sendLanes op as kind size aop plain data compare).reqs = s.reqs ++ rs ∧
        (rs.map fun r => (r.lane, r.kind, r.va, r.pa, r.size, r.data)) =
          (as.map fun a => (a.lane, kind, a.va, (s.paOf a.va).1, size, data a.lane)) ∧
        ∀ r ∈ rs, r.op = some op ∧ r.performed = false ∧ r.acked = false := by
  induction as generalizing s with
  | nil => exact ⟨s.accessOnly_refl, [], by simp [State.sendLanes], rfl, by simp⟩
  | cons a as ih =>
    let r := s.mkReq (some op) a.lane a.va (s.paOf a.va).1 (s.paOf a.va).2 kind size (data a.lane) (compare a.lane) aop plain
    let s1 := if r.ord && changesSet kind then s.reserveLog (kind = .red) (s.viewTeam s.issuer) (s.paOf a.va).1 size else s
    have hstep : s.sendLanes op (a :: as) kind size aop plain data compare =
      (s1.addReq r).sendLanes op as kind size aop plain data compare := rfl
    have hs1 : s.accessOnly s1 ∧ s1.dies = s.dies ∧ s1.reqs = s.reqs := by
      dsimp only [s1]
      split
      · exact ⟨s.accessOnly_reserveLog .., rfl, rfl⟩
      · exact ⟨s.accessOnly_refl, rfl, rfl⟩
    obtain ⟨honly, hdies, hreqs⟩ := hs1
    have hfirst := honly.trans (s1.accessOnly_addReq r)
    obtain ⟨hrest, rs, hsend, hmap, hrs⟩ := ih (s1.addReq r)
    rw [hstep]
    refine ⟨hfirst.trans hrest, r :: rs, ?_, ?_, ?_⟩
    · rw [hsend, ← hreqs]
      simp [State.addReq]
    · rw [List.map_cons, hmap, List.map_cons]
      simp only [hfirst.paOf hdies]
      rfl
    · intro q hq
      rcases List.mem_cons.mp hq with rfl | hq
      · exact ⟨rfl, rfl, rfl⟩
      · exact hrs q hq

/-! ### The operation launched -/

/-- An operation launched in a state with the same units and operations as the issuing one's. -/
theorem State.unitOf_launchOp_congr {s u : State} {g : Group} (hu : s.unitOf s.issuer = some g) (hissuer : u.issuer = s.issuer)
    (hunits : ∀ j, u.unitOf j = s.unitOf j) (names : List RegName) (o : Op) (j : Issuer) :
    (u.launchOp names o).unitOf j = (s.launchOp names o).unitOf j := by
  by_cases hj : j = s.issuer
  · subst hj
    rw [State.unitOf_launchOp names o hu, ← hissuer, State.unitOf_launchOp names o (by rw [hunits, hissuer]; exact hu)]
  · rw [State.unitOf_launchOp_other names o hj, State.unitOf_launchOp_other names o (hissuer ▸ hj), hunits]

/-- A word that leaves behind no more than an access does, launches its operation, and then leaves behind no more again. -/
theorem State.begins_of_access {s u v : State} {i : Instr} {g : Group} {names : List RegName} {n : Nat} {k : OpKind} (o : Op)
    {rel : Op → State → Prop} (hu : s.unitOf s.issuer = some g) (hexec : Sys2Proof.Machine.exec i s = .next (v.retire 1))
    (hbefore : s.accessOnly u) (hafter : (u.launchOp names o).accessOnly v) (hflag : o.flag = some n) (hissuer : o.issuer = s.issuer)
    (hkind : o.kind = k) (hrel : (v.retire 1).resting = s.resting → rel o (v.retire 1)) : s.begins i g names n k rel := by
  have hops : v.ops = (s.launchOp names o).ops := by
    rw [hafter.ops, State.ops_launchOp, State.ops_launchOp]
    simp only [State.cancelWrites, hbefore.ops, hbefore.issuer]
  refine State.begins_of_launch o hu hexec ?_ (fun j => ?_) hops hflag hissuer hkind (hrel ?_)
  · rw [hafter.issuer, State.launchOp_issuer, hbefore.issuer]
  · rw [hafter.unitOf, State.unitOf_launchOp_congr hu hbefore.issuer hbefore.unitOf]
  · rw [State.resting_of_bare (State.bare_retire v 1), hafter.resting, State.resting_of_bare (State.bare_launchOp u names o), hbefore.resting]

end Sys2Proof.Machine
end

section
/-!
Stores and atomics: the lanes that they act in, the bytes that they carry, and the operation that each starts (R182, R187-R191).
-/
namespace Sys2Proof.Machine

/-! ### Addresses of a lane -/

theorem judgedAddrs_find (s : State) {g : Group} {h : Head} (sp : Space) (need : Need) (wide : Bool) (a : Spec) (off : BitVec 12) (size : Nat)
    {l : Nat} (hl : l ∈ lanesOf (guardMask g h)) :
    (judgedAddrs s g h sp need wide a off size).find? (fun x => x.lane = l) = some (s.judged g sp need wide a off size l) := by
  have hslots : judgedAddrs s g h sp need wide a off size = (lanesOf (guardMask g h)).map (s.judged g sp need wide a off size) := rfl
  rw [hslots, List.find?_map]
  cases hf : (lanesOf (guardMask g h)).find? ((fun x => decide (x.lane = l)) ∘ s.judged g sp need wide a off size) with
  | none => exact absurd (List.find?_eq_none.mp hf l hl) (by simp [judged_lane])
  | some k =>
    have hk := List.find?_some hf
    simp only [Function.comp, judged_lane, decide_eq_true_eq] at hk
    rw [hk, Option.map_some]

/-- Every lane of an access that goes on has passed its checks, also where the merge log is judged (R187). -/
theorem judged_passes_logged {s : State} {g : Group} {h : Head} {sp : Space} {need : Need} {wide : Bool} {a : Spec} {off : BitVec 12}
    {detail size : Nat} (hj : s.judgeLanes (judgedAddrs s g h sp need wide a off size) detail size = none) {l : Nat}
    (hl : l ∈ lanesOf (guardMask g h)) : (s.judged g sp need wide a off size l).bad = none := by
  have hmem : l ∈ (judgedAddrs s g h sp need wide a off size).map LaneAddr.lane :=
    List.mem_map.mpr ⟨_, List.mem_map.mpr ⟨l, hl, rfl⟩, judged_lane sp need wide a off size l⟩
  have hverdict := judge_none hj hmem
  rw [judgedAddrs_find s sp need wide a off size hl] at hverdict
  dsimp only at hverdict
  split at hverdict
  · cases hverdict
  · assumption

/-! ### Bytes of a lane -/

/-- Some words as a row of bytes, low byte first. -/
theorem flatMap_bytesOfNat (f : Nat → Nat) (n : Nat) :
    (List.range n).flatMap (fun j => bytesOfNat 4 (f j)) = (List.range (4 * n)).map fun i => BitVec.ofNat 8 (f (i / 4) / 256 ^ (i % 4)) := by
  induction n with
  | zero => rfl
  | succ n ih =>
    have hquot (k : Nat) (hk : k < 4) : (4 * n + k) / 4 = n ∧ (4 * n + k) % 4 = k := by omega
    obtain ⟨h1, h2, h3⟩ := (⟨hquot 1, hquot 2, hquot 3⟩ : _ ∧ _ ∧ _)
    rw [List.range_succ, List.flatMap_append, ih, show 4 * (n + 1) = 4 * n + 1 + 1 + 1 + 1 by ring]
    simp [List.range_succ, bytesOfNat, Nat.div_div_eq_div_mul, Nat.add_assoc, h1, h2, h3]

/-- The bytes that a store takes from its data run (R182). -/
theorem dataBytes_eq (g : Group) (l : Nat) (d : Spec) {size : Nat} (h : size ≤ 16) : dataBytes g l d size = storedBytes g d size l := by
  rw [dataBytes, flatMap_bytesOfNat, ← List.map_take, List.take_range, show min size (4 * runLen 4) = size from min_eq_left h]
  rfl

theorem bytesOfNat_eq (n x : Nat) : bytesOfNat n x = (List.range n).map fun i => BitVec.ofNat 8 (x / 256 ^ i) := by
  induction n generalizing x with
  | zero => rfl
  | succ n ih => simp [bytesOfNat, List.range_succ_eq_map, ih, Nat.div_div_eq_div_mul, Nat.pow_succ', Function.comp_def]

/-- A source as a number: its low register, and in a pair the high one above it (R62). -/
theorem toNat_readSrc (g : Group) (l : Nat) (wide : Bool) (d : Spec) :
    (readSrc g l wide d).toNat = (readOpd g l d 0).toNat + if wide then 2 ^ 32 * (readOpd g l d 1).toNat else 0 := by
  have hpair (lo hi : Reg32) : (pair lo hi).toNat = lo.toNat + 2 ^ 32 * hi.toNat := by
    rw [pair, BitVec.toNat_append, Nat.shiftLeft_eq, Nat.mul_comm, ← Nat.two_pow_add_eq_or_of_lt lo.isLt, Nat.add_comm]
  unfold readSrc
  split
  · next hzero => cases wide <;> simp [readOpd, hzero]
  · cases wide
    · have hlo := (readOpd g l d 0).isLt
      simp
      omega
    · simp [hpair]

/-- The bytes of an atomic's operand of one or two registers (R189). -/
theorem bytesOfNat_runValue (g : Group) (l : Nat) (d : Spec) {n : Nat} (h : n = 1 ∨ n = 2) :
    bytesOfNat (4 * n) (runValue g l d n) = storedBytes g d (4 * n) l := by
  have hlo := (readOpd g l d 0).isLt
  have hhi := (readOpd g l d 1).isLt
  rw [bytesOfNat_eq, storedBytes]
  refine List.map_congr_left fun i hi => BitVec.eq_of_toNat_eq ?_
  have hi := List.mem_range.mp hi
  simp only [runValue, toNat_readSrc, BitVec.toNat_ofNat]
  obtain rfl | rfl := h
  · interval_cases i <;> simp
  · interval_cases i <;> simp <;> omega

/-! ### Destinations -/

/-- The destinations of lanes that also take a tag (R191). -/
theorem loadDests_tagged (s : State) (g : Group) (ls : List Nat) (sp : Space) (need : Need) (wide : Bool) (a d : Spec) (off : BitVec 12)
    (asize size tag : Nat) (signed q : Bool) : loadDests g (ls.map (s.judged g sp need wide a off asize)) d size tag signed q =
      ls.filterMap (loadSlot g d size signed fun l => if q then nthName g l d tag else none) := by
  rw [loadDests, List.filterMap_map]
  refine List.filterMap_congr fun l _ => ?_
  simp only [Function.comp, judged_lane, loadSlot]
  cases regNames g l d 1 with
  | nil => rfl
  | cons r rs => cases r <;> rfl

/-- A sequence tag alone is due: no byte of the data run is (R191). -/
theorem loadSlot_resized (g : Group) (ls : List Nat) (d : Spec) (size : Nat) (tag : Nat → Option RegName) :
    ((ls.filterMap (loadSlot g d size false tag)).map fun x => (x.1, { x.2 with size := 0 })) = ls.filterMap (loadSlot g d 0 false tag) := by
  rw [List.map_filterMap]
  refine List.filterMap_congr fun l _ => ?_
  simp only [loadSlot, Option.map_map]
  rfl

/-! ### Stores (R188, R191) -/

/-- Whether a store is due a sequence tag, the lanes that it acts in, and the registers that its tags go to. -/
def storeTagged (w : MemW) : Bool := w.q = 1 && w.d ≠ specZero
def storeLanes (w : MemW) (g : Group) : List Nat := if storeTagged w then actLanes g w.head w.d else lanesOf (guardMask g w.head)
def storeTags (w : MemW) (g : Group) : List RegName :=
  if storeTagged w then (lanesOf (issuing g)).filterMap fun l => nthName g l w.d (runLen w.sz.toNat) else []

/-- The operation that a store starts, before the space it goes to has its say. -/
def State.storeOp (s : State) (w : MemW) (g : Group) (n : Nat) (dests : List (RegName × Option Nat)) : Op :=
  { Op.blank s.nextId s.issuer .mem (some n) with
    dests := dests
    release := if semRel w.sem.toNat then some w.scope.toNat else none
    effect := if storeTagged w then
      .atomic ((storeLanes w g).filterMap (loadSlot g w.d 0 false fun l => nthName g l w.d (runLen w.sz.toNat))) else .none }

/-- The judged addresses of the lanes a store acts in. -/
def State.storeAddrs (s : State) (sp : Space) (wide : Bool) (w : MemW) (g : Group) : List LaneAddr :=
  (storeLanes w g).map (s.judged g sp needW wide w.a w.off (2 ^ w.sz.toNat))

section
variable {w : MemW} {s : State} {g : Group} {n : Nat}

theorem storeLanes_guarded {l : Nat} (hl : l ∈ storeLanes w g) : l ∈ lanesOf (guardMask g w.head) := by
  unfold storeLanes at hl
  split at hl
  · exact actLanes_guarded hl
  · exact hl

theorem lanesOf_ne_nil {m : BitVec 32} (hm : m ≠ 0) : lanesOf m ≠ [] := by
  intro hnil
  refine hm (BitVec.eq_of_getLsbD_eq fun l _ => ?_)
  by_contra hbit
  have hmem : l ∈ lanesOf m := lanesOf_mem.mpr (by simpa using hbit)
  rw [hnil] at hmem
  cases hmem

theorem storeAddrs_ne_nil (hm : guardMask g w.head ≠ 0) (sp : Space) (wide : Bool) : s.storeAddrs sp wide w g ≠ [] := by
  have hlanes : storeLanes w g ≠ [] := by
    unfold storeLanes
    split
    · exact actLanes_ne_nil w.d hm
    · exact lanesOf_ne_nil hm
  simpa [State.storeAddrs] using hlanes

theorem storeAddrs_acting (sp : Space) (wide : Bool) : (if storeTagged w = true then
    (judgedAddrs s g w.head sp needW wide w.a w.off (2 ^ w.sz.toNat)).filter fun a => (actLanes g w.head w.d).contains a.lane
    else judgedAddrs s g w.head sp needW wide w.a w.off (2 ^ w.sz.toNat)) = s.storeAddrs sp wide w g := by
  unfold State.storeAddrs storeLanes
  split
  · exact judgedAddrs_acting ..
  · rfl

theorem storeAddrs_effect (sp : Space) (wide : Bool) : (if storeTagged w = true then
    Effect.atomic ((if storeTagged w = true then loadDests g (s.storeAddrs sp wide w g) w.d (2 ^ w.sz.toNat) (runLen w.sz.toNat) false true
      else []).map fun d => (d.1, { d.2 with size := 0 })) else .none) = (s.storeOp w g n []).effect := by
  unfold State.storeOp State.storeAddrs
  split
  · rw [loadDests_tagged, loadSlot_resized]; rfl
  · rfl

/-- A store of global space or of a thread's window that goes on: translations cached, the operation launched, the requests sent. -/
theorem storeGo_sends {sp : Space} {wide : Bool} (hsp : (sp = .global ∧ wide = true) ∨ (sp = .priv ∧ wide = false))
    (hn : selectedFlag g w.head.fs = some n) (hm : guardMask g w.head ≠ 0) (hfree : memFree s g w.head w.sem.toNat w.scope.toNat)
    (hj : s.judgeLanes (judgedAddrs s g w.head sp needW wide w.a w.off (2 ^ w.sz.toNat)) 1 (2 ^ w.sz.toNat) = none) :
    ∃ dests, storeGo sp w s g = .next (((((s.cacheTrans (s.coreOf s.issuer / 48) (s.ctxOf s.issuer)
      ((s.storeAddrs sp wide w g).map LaneAddr.va)).launchOp (storeTags w g) (s.storeOp w g n dests)).sendLanes s.nextId
        (s.storeAddrs sp wide w g) .write (2 ^ w.sz.toNat) 0 false (fun l => dataBytes g l w.d (2 ^ w.sz.toNat)) fun _ => 0)).retire 1) := by
  have htagged : (decide (w.q = 1) && decide (w.d ≠ specZero)) = storeTagged w := rfl
  unfold storeGo
  obtain ⟨rfl, rfl⟩ | ⟨rfl, rfl⟩ := hsp <;>
    simp only [sizeOf, reduceCtorEq, if_false, bankBusy_none, Bool.false_eq_true, decide_true, decide_false, hj, memHold_none hfree,
      htagged, storeAddrs_acting, if_neg (storeAddrs_ne_nil hm _ _), storeAddrs_effect (n := n), hn] <;>
    exact ⟨_, rfl⟩

/-- A store of the scratchpad that goes on: one write left for each lane (R188). -/
theorem storeGo_scratch (hn : selectedFlag g w.head.fs = some n) (hm : guardMask g w.head ≠ 0)
    (hfree : memFree s g w.head w.sem.toNat w.scope.toNat) (hstill : banksStill s)
    (hj : s.judgeLanes (judgedAddrs s g w.head .scratch needW false w.a w.off (2 ^ w.sz.toNat)) 0 (2 ^ w.sz.toNat) = none) :
    ∃ dests, storeGo .scratch w s g = .next ((s.launchOp [] { s.storeOp w g n dests with
      todo := (s.storeAddrs .scratch false w g).map fun a => .padWrite a.addr.toNat (dataBytes g a.lane w.d (2 ^ w.sz.toNat)) }).retire 1) := by
  have htagged : (decide (w.q = 1) && decide (w.d ≠ specZero)) = storeTagged w := rfl
  unfold storeGo
  simp only [sizeOf, reduceCtorEq, bankBusy_still hstill, Bool.false_eq_true, if_false, if_true, decide_false, hj, memHold_none hfree,
    htagged, storeAddrs_acting, if_neg (storeAddrs_ne_nil hm _ _), storeAddrs_effect (n := n), hn]
  exact ⟨_, rfl⟩

/-- The sizes of R181: at most 16 bytes. -/
theorem memCheck_size {r : MemRule} {roles : List Role} {wide store : Bool} (h : s.issues w.head (memCheck r roles wide store w) g) :
    2 ^ w.sz.toNat ≤ 16 := by
  obtain ⟨-, -, hfault⟩ := h
  obtain ⟨hdetails, -⟩ := firstFault_none hfault
  have hsz : ¬ 4 < w.sz.toNat := by
    intro hlarge
    simp [memCheck, memDetails, memRuleDetails, hlarge] at hdetails
  exact (Nat.pow_le_pow_right (by decide) (Nat.le_of_not_lt hsz)).trans (by decide)

theorem memCheck_untagged {r : MemRule} {roles : List Role} {wide store : Bool} (h : s.issues w.head (memCheck r roles wide store w) g)
    (hr : r.q = false) : storeTagged w = false := by
  obtain ⟨-, -, hfault⟩ := h
  obtain ⟨hdetails, -⟩ := firstFault_none hfault
  by_contra htagged
  have hq : w.q = 1 := by
    simp only [storeTagged, Bool.not_eq_false, Bool.and_eq_true, decide_eq_true_eq] at htagged
    exact htagged.1
  simp [memCheck, memDetails, memRuleDetails, hq, hr] at hdetails

/-- What such a store starts, by the virtual addresses of its lanes. -/
def State.storeSent (s : State) (w : MemW) (g : Group) (va : Nat → Nat) (o : Op) (t : State) : Prop :=
  t.resting = s.resting ∧
  o.effect = (if storeTagged w then
    .atomic ((storeLanes w g).filterMap (loadSlot g w.d 0 false fun l => nthName g l w.d (runLen w.sz.toNat))) else .none) ∧
  o.release = (if semRel w.sem.toNat then some w.scope.toNat else none) ∧
  s.sends t o (storeLanes w g) .write va (fun l => s.homeOf ((storeLanes w g).map va) (va l)) (2 ^ w.sz.toNat)
    (storedBytes g w.d (2 ^ w.sz.toNat))

theorem store_begins {i : Instr} {sp : Space} {wide : Bool} {va : Nat → Nat} (hu : s.unitOf s.issuer = some g)
    (hexec : Sys2Proof.Machine.exec i s = storeGo sp w s g) (hsp : (sp = .global ∧ wide = true) ∨ (sp = .priv ∧ wide = false))
    (hn : selectedFlag g w.head.fs = some n) (hm : guardMask g w.head ≠ 0) (hfree : memFree s g w.head w.sem.toNat w.scope.toNat)
    (hj : s.judgeLanes (judgedAddrs s g w.head sp needW wide w.a w.off (2 ^ w.sz.toNat)) 1 (2 ^ w.sz.toNat) = none)
    (hsize : 2 ^ w.sz.toNat ≤ 16) (hva : ∀ l ∈ storeLanes w g, (s.judged g sp needW wide w.a w.off (2 ^ w.sz.toNat) l).va = va l) :
    s.begins i g (storeTags w g) n .mem (s.storeSent w g va) := by
  obtain ⟨dests, hgo⟩ := storeGo_sends hsp hn hm hfree hj
  have hvas : (s.storeAddrs sp wide w g).map LaneAddr.va = (storeLanes w g).map va := by
    rw [State.storeAddrs, List.map_map]
    exact List.map_congr_left hva
  rw [hvas] at hgo
  have hcache := s.accessOnly_cacheTrans (s.coreOf s.issuer / 48) (s.ctxOf s.issuer) ((storeLanes w g).map va)
  obtain ⟨hsent, rs, hreqs, hmap, hrs⟩ := State.sendLanes_sends s.nextId .write (2 ^ w.sz.toNat) 0 false
    (fun l => dataBytes g l w.d (2 ^ w.sz.toNat)) (fun _ => 0) (s.storeAddrs sp wide w g)
    ((s.cacheTrans (s.coreOf s.issuer / 48) (s.ctxOf s.issuer) ((storeLanes w g).map va)).launchOp (storeTags w g) (s.storeOp w g n dests))
  refine State.begins_of_access _ hu (hexec.trans hgo) hcache hsent rfl rfl rfl fun hrest => ⟨hrest, rfl, rfl, rs, ?reqs, ?map, hrs⟩
  case reqs =>
    obtain ⟨ds, hds, -⟩ := State.cacheTrans_dies (s.coreOf s.issuer / 48) (s.ctxOf s.issuer) ((storeLanes w g).map va) s
    rw [State.retire_reqs, hreqs, State.launchOp_reqs, hds]
  case map =>
    rw [hmap, State.storeAddrs, List.map_map]
    refine List.map_congr_left fun l hl => ?_
    simp only [Function.comp, judged_lane, hva l hl, dataBytes_eq g l w.d hsize, State.paOf_of_bare (State.bare_launchOp ..)]
    rfl

end

theorem storesSend_holds : storesSend := by
  intro w s g n hn hm hfree size run tagged lanes tags win rel
  refine ⟨fun hissues hj => ?st, fun hissues hj => ?stx⟩
  case st =>
    have hexec : Sys2Proof.Machine.exec (.st w) s = storeGo .global w s g := by
      show execSt w s = _
      exact hissues.run _
    exact store_begins hissues.1 hexec (.inl ⟨rfl, rfl⟩) hn hm hfree hj (memCheck_size hissues) fun l _ => s.laneAddrOf_global needW size l _
  case stx =>
    have hexec : Sys2Proof.Machine.exec (.stx w) s = storeGo .priv w s g := by
      show execStx w s = _
      exact hissues.run _
    exact store_begins hissues.1 hexec (.inr ⟨rfl, rfl⟩) hn hm hfree hj (memCheck_size hissues) fun l hl =>
      State.laneAddrOf_priv (judged_passes_logged hj (storeLanes_guarded hl))

theorem scratchStores_holds : scratchStores := by
  intro w s g n hn hm hfree hstill hissues hj
  have hexec : Sys2Proof.Machine.exec (.sts w) s = storeGo .scratch w s g := by
    show execSts w s = _
    exact hissues.run _
  obtain ⟨dests, hgo⟩ := storeGo_scratch hn hm hfree hstill hj
  have huntagged := memCheck_untagged hissues rfl
  refine State.begins_of_launch _ hissues.1 (hexec.trans hgo) (State.launchOp_issuer s _ _) (fun _ => rfl) rfl rfl rfl rfl
    ⟨(State.bare_retire _ 1).trans (State.bare_launchOp s _ _), ?_, rfl, ?_⟩
  · simp [State.storeOp, huntagged]
  · simp only [State.storeAddrs, storeLanes, huntagged, List.map_map, Function.comp_def, judged_lane, judged_addr,
      dataBytes_eq g _ w.d (memCheck_size hissues), Bool.false_eq_true, if_false]

/-- Settles O13: a store that goes on launches its operation; ST and STX send a request for each of its lanes behind it, STS leaves a
write of the scratchpad for each. -/
theorem storesIssue : Obligations.StoresIssue := ⟨storesSend_holds, scratchStores_holds⟩

end Sys2Proof.Machine
end

section
/-!
Atomics and reductions: the operands that they carry, and the operation that each starts (R189-R191).
-/
namespace Sys2Proof.Machine

/-- Whether an atomic is due a sequence tag, and the registers that it writes. -/
def atomTagged (w : AtomW) : Bool := w.q = 1 && w.d ≠ specZero
def atomNames (r : AtomRule) (w : AtomW) (g : Group) : List RegName :=
  if r.red then [] else runWrites g w.d (if atomTagged w then atomRun w + 1 else atomRun w)

/-- What an atomic's lanes are due: the old value, and its tag. -/
def atomSlots (r : AtomRule) (w : AtomW) (g : Group) : List (Nat × LoadDest) :=
  if r.red then [] else (actLanes g w.head w.d).filterMap
    (loadSlot g w.d (4 * atomRun w) false fun l => if atomTagged w then nthName g l w.d (atomRun w) else none)

/-- The operation that an atomic starts, before the space it goes to has its say. -/
def State.atomOp (s : State) (r : AtomRule) (w : AtomW) (g : Group) (n : Nat) (dests : List (RegName × Option Nat)) : Op :=
  { Op.blank s.nextId s.issuer .mem (some n) with
    dests := dests
    acquire := if semAcq w.sem.toNat then some w.scope.toNat else none
    release := if semRel w.sem.toNat then some w.scope.toNat else none
    effect := .atomic (atomSlots r w g) }

/-- The judged addresses of the lanes an atomic acts in. -/
def State.atomAddrs (s : State) (sp : Space) (wide : Bool) (w : AtomW) (g : Group) : List LaneAddr :=
  (actLanes g w.head w.d).map (s.judged g sp { needRW with aop := some w.aop.toNat } wide w.a 0 (4 * atomRun w))

/-- The detail of a full merge log, of an atomic. -/
def atomDetail (r : AtomRule) : Nat := if r.wide then (if r.red then 2 else 1) else 0

/-- The kind of an atomic's requests. -/
def atomKind (r : AtomRule) : ReqKind := if r.red then .red else .atomic

theorem atomRun_cases (w : AtomW) : atomRun w = 1 ∨ atomRun w = 2 := by
  unfold atomRun
  split
  · exact .inr rfl
  · exact .inl rfl

section
variable {w : AtomW} {s : State} {g : Group} {n : Nat}

theorem atomAddrs_ne_nil (hm : guardMask g w.head ≠ 0) (sp : Space) (wide : Bool) : s.atomAddrs sp wide w g ≠ [] := by
  simpa [State.atomAddrs] using actLanes_ne_nil w.d hm

theorem atomAddrs_acting (sp : Space) (wide : Bool) :
    ((judgedAddrs s g w.head sp { needRW with aop := some w.aop.toNat } wide w.a 0 (4 * atomRun w)).filter fun a =>
      (actLanes g w.head w.d).contains a.lane) = s.atomAddrs sp wide w g := judgedAddrs_acting ..

theorem atomAddrs_slots (r : AtomRule) (sp : Space) (wide : Bool) : (if r.red = true then [] else
    loadDests g (s.atomAddrs sp wide w g) w.d (4 * atomRun w) (atomRun w) false (atomTagged w)) = atomSlots r w g := by
  unfold atomSlots State.atomAddrs
  rw [loadDests_tagged]

/-- An atomic of global space that goes on: translations cached, the operation launched, the requests sent, and a reduction's numbers
of sequence taken (R190). -/
theorem atomGo_sends {r : AtomRule} (hr : r.wide = true) (hn : selectedFlag g w.head.fs = some n) (hm : guardMask g w.head ≠ 0)
    (hfree : memFree s g w.head w.sem.toNat w.scope.toNat)
    (hj : s.judgeLanes (judgedAddrs s g w.head .global { needRW with aop := some w.aop.toNat } true w.a 0 (4 * atomRun w))
      (atomDetail r) (4 * atomRun w) = none) :
    ∃ dests cmp v, atomGo r w s g = .next (v.retire 1) ∧
      v = (let sent := ((s.cacheTrans (s.coreOf s.issuer / 48) (s.ctxOf s.issuer)
          ((s.atomAddrs .global true w g).map LaneAddr.va)).launchOp (atomNames r w g) (s.atomOp r w g n dests)).sendLanes s.nextId
            (s.atomAddrs .global true w g) (atomKind r) (4 * atomRun w) w.aop.toNat false
            (fun l => bytesOfNat (4 * atomRun w) (runValue g l w.b (atomRun w))) cmp
        if r.red then sent.modTeam (s.viewTeam s.issuer) fun t => { t with seq := t.seq + (s.atomAddrs .global true w g).length } else sent) := by
  have htagged : (decide (w.q = 1) && decide (w.d ≠ specZero)) = atomTagged w := rfl
  have hdetail : (if r.red = true then 2 else 1) = atomDetail r := by simp [atomDetail, hr]
  unfold atomGo
  simp only [hr, if_true, reduceCtorEq, if_false, bankBusy_none, Bool.false_eq_true, hdetail, hj, memHold_none hfree, htagged,
    atomAddrs_acting, if_neg (atomAddrs_ne_nil hm _ _), atomAddrs_slots, hn]
  exact ⟨_, _, _, rfl, rfl⟩

/-- An atomic of the scratchpad that goes on: one atomic left for each acting lane (R189). -/
theorem atomGo_scratch (hn : selectedFlag g w.head.fs = some n) (hm : guardMask g w.head ≠ 0)
    (hfree : memFree s g w.head w.sem.toNat w.scope.toNat) (hstill : banksStill s)
    (hj : s.judgeLanes (judgedAddrs s g w.head .scratch { needRW with aop := some w.aop.toNat } false w.a 0 (4 * atomRun w)) 0
      (4 * atomRun w) = none) :
    ∃ dests, atomGo ruleAtoms w s g = .next ((s.launchOp (atomNames ruleAtoms w g) { s.atomOp ruleAtoms w g n dests with
      todo := atomMoves w g (s.atomAddrs .scratch false w g) (atomSlots ruleAtoms w g), effect := .none }).retire 1) := by
  have htagged : (decide (w.q = 1) && decide (w.d ≠ specZero)) = atomTagged w := rfl
  have hwide : ruleAtoms.wide = false := rfl
  unfold atomGo
  simp only [hwide, if_true, if_false, bankBusy_still hstill, Bool.false_eq_true, hj, memHold_none hfree, htagged,
    atomAddrs_acting, if_neg (atomAddrs_ne_nil hm _ _), atomAddrs_slots, hn]
  exact ⟨_, rfl⟩

theorem atomCheck_untagged {r : AtomRule} (h : s.issues w.head (atomCheck r w) g) (hr : r.q = false) : atomTagged w = false := by
  obtain ⟨-, -, hfault⟩ := h
  obtain ⟨hdetails, -⟩ := firstFault_none hfault
  by_contra htagged
  have hq : w.q = 1 := by
    simp only [atomTagged, Bool.not_eq_false, Bool.and_eq_true, decide_eq_true_eq] at htagged
    exact htagged.1
  simp [atomCheck, atomDetails, hq, hr] at hdetails

/-- What an atomic of global space starts. -/
def State.atomSent (s : State) (r : AtomRule) (w : AtomW) (g : Group) (va : Nat → Nat) (o : Op) (t : State) : Prop :=
  t.resting = s.resting ∧ o.effect = .atomic (atomSlots r w g) ∧
  s.sends t o (actLanes g w.head w.d) (atomKind r) va (fun l => s.homeOf ((actLanes g w.head w.d).map va) (va l)) (4 * atomRun w)
    (storedBytes g w.b (4 * atomRun w))

theorem atom_begins {i : Instr} {r : AtomRule} (hr : r.wide = true) (hu : s.unitOf s.issuer = some g)
    (hexec : Sys2Proof.Machine.exec i s = atomGo r w s g) (hn : selectedFlag g w.head.fs = some n) (hm : guardMask g w.head ≠ 0)
    (hfree : memFree s g w.head w.sem.toNat w.scope.toNat)
    (hj : s.judgeLanes (judgedAddrs s g w.head .global { needRW with aop := some w.aop.toNat } true w.a 0 (4 * atomRun w))
      (atomDetail r) (4 * atomRun w) = none) :
    s.begins i g (atomNames r w g) n .mem (s.atomSent r w g fun l => (readSrc g l true w.a).toNat) := by
  obtain ⟨dests, cmp, v, hgo, hv⟩ := atomGo_sends hr hn hm hfree hj
  have hva (l : Nat) : (s.judged g .global { needRW with aop := some w.aop.toNat } true w.a 0 (4 * atomRun w) l).va =
      (readSrc g l true w.a).toNat := by
    refine (s.laneAddrOf_global _ _ l _).trans ?_
    simp [laneAddr]
  have hvas : (s.atomAddrs .global true w g).map LaneAddr.va = (actLanes g w.head w.d).map fun l => (readSrc g l true w.a).toNat := by
    rw [State.atomAddrs, List.map_map]
    exact List.map_congr_left fun l _ => hva l
  rw [hvas] at hv
  generalize hvs : ((actLanes g w.head w.d).map fun l => (readSrc g l true w.a).toNat) = vas at hv
  have hcache := s.accessOnly_cacheTrans (s.coreOf s.issuer / 48) (s.ctxOf s.issuer) vas
  obtain ⟨hsent, rs, hreqs, hmap, hrs⟩ := State.sendLanes_sends s.nextId (atomKind r) (4 * atomRun w) w.aop.toNat false
    (fun l => bytesOfNat (4 * atomRun w) (runValue g l w.b (atomRun w))) cmp (s.atomAddrs .global true w g)
    ((s.cacheTrans (s.coreOf s.issuer / 48) (s.ctxOf s.issuer) vas).launchOp (atomNames r w g) (s.atomOp r w g n dests))
  generalize hl : (s.cacheTrans (s.coreOf s.issuer / 48) (s.ctxOf s.issuer) vas).launchOp (atomNames r w g) (s.atomOp r w g n dests) = u
    at hv hsent hreqs
  obtain ⟨hafter, hvreqs⟩ : u.accessOnly v ∧ v.reqs = u.reqs ++ rs := by
    generalize u.sendLanes s.nextId (s.atomAddrs .global true w g) (atomKind r) (4 * atomRun w) w.aop.toNat false
      (fun l => bytesOfNat (4 * atomRun w) (runValue g l w.b (atomRun w))) cmp = sent at hv hsent hreqs
    dsimp only at hv
    split at hv
    · exact hv ▸ ⟨hsent.trans (State.accessOnly_modTeam _ _ fun _ => rfl), hreqs⟩
    · exact hv ▸ ⟨hsent, hreqs⟩
  subst hl
  refine State.begins_of_access _ hu (hexec.trans hgo) hcache hafter rfl rfl rfl fun hrest => ⟨hrest, rfl, rs, ?reqs, ?map, hrs⟩
  case reqs =>
    obtain ⟨ds, hds, -⟩ := State.cacheTrans_dies (s.coreOf s.issuer / 48) (s.ctxOf s.issuer) vas s
    rw [State.retire_reqs, hvreqs, State.launchOp_reqs, hds]
  case map =>
    rw [hmap, State.atomAddrs, List.map_map]
    refine List.map_congr_left fun l _ => ?_
    simp only [Function.comp, judged_lane, hva, bytesOfNat_runValue g l w.b (atomRun_cases w), State.paOf_of_bare (State.bare_launchOp ..),
      State.homeOf, hvs]

end

theorem atomicsSend_holds : atomicsSend := by
  intro w s g n hn hm hfree run tagged lanes va names
  refine ⟨fun hissues hj => ?atom, fun hissues hj => ?red⟩
  case atom =>
    have hexec : Sys2Proof.Machine.exec (.atom w) s = atomGo ruleAtom w s g := by
      show execAtom w s = _
      exact hissues.run _
    exact atom_begins rfl hissues.1 hexec hn hm hfree hj
  case red =>
    have hexec : Sys2Proof.Machine.exec (.red w) s = atomGo ruleRed w s g := by
      show execRed w s = _
      exact hissues.run _
    exact atom_begins rfl hissues.1 hexec hn hm hfree hj

theorem scratchAtomics_holds : scratchAtomics := by
  intro w s g n hn hm hfree hstill hissues wide size hj
  have hexec : Sys2Proof.Machine.exec (.atoms w) s = atomGo ruleAtoms w s g := by
    show execAtoms w s = _
    exact hissues.run _
  have hsize : size = 4 * atomRun w := by
    simp only [size, wide, atomRun, decide_eq_true_eq]
    split <;> rfl
  have hwide : decide (atomRun w = 2) = wide := by
    simp only [wide, atomRun]
    split <;> simp_all
  have huntagged := atomCheck_untagged hissues rfl
  have hnames : atomNames ruleAtoms w g = runWrites g w.d (size / 4) := by
    rw [hsize, Nat.mul_div_cancel_left _ (by decide)]
    simp [atomNames, ruleAtoms, huntagged]
  have hslots : atomSlots ruleAtoms w g = (actLanes g w.head w.d).filterMap (loadSlot g w.d size false fun _ => none) := by
    simp [atomSlots, ruleAtoms, huntagged, hsize]
  rw [hsize] at hj
  obtain ⟨dests, hgo⟩ := atomGo_scratch hn hm hfree hstill hj
  rw [hnames] at hgo
  refine State.begins_of_launch _ hissues.1 (hexec.trans hgo) (State.launchOp_issuer s _ _) (fun _ => rfl) rfl rfl rfl rfl
    ⟨(State.bare_retire _ 1).trans (State.bare_launchOp s _ _), rfl, rfl, rfl, ?_⟩
  simp only [atomMoves, State.atomAddrs, List.map_map]
  refine List.map_congr_left fun l hl => ?_
  have hfind := find_filterMap_lane (loadSlot g w.d size false fun _ => none) loadSlot_lane (actLanes_nodup g w.head w.d) hl
  simp only [Function.comp, judged_lane, judged_addr, hslots, hfind, runValue, hwide]
  simp [addressOf]

/-- Settles O14: an atomic that goes on launches its operation; ATOM and RED send a request for each acting lane behind it, ATOMS leaves
an atomic on the scratchpad for each. -/
theorem atomicsIssue : Obligations.AtomicsIssue := ⟨atomicsSend_holds, scratchAtomics_holds⟩

end Sys2Proof.Machine
end

section
/-!
Fences, prefetches and cache maintenance (R192, R195, R196): what each leaves in its unit, its core's L1 and the requests.
-/
namespace Sys2Proof.Machine

/-! ### Words of fixed latency that leave their unit still -/

/-- A word of fixed latency after which its unit reads what it read. -/
theorem State.runs_still {s v : State} {i : Instr} {g g' : Group} {part : State → Prop} (hexec : Sys2Proof.Machine.exec i s = .next (v.retire 1))
    (hissuer : v.issuer = s.issuer) (hunit : v.unitOf s.issuer = some g') (hregs : sameRegs g g')
    (hothers : ∀ j, j ≠ s.issuer → v.unitOf j = s.unitOf j) (hpart : part (v.retire 1)) : s.runs i (fun g' => g.still g') part := by
  refine ⟨v.retire 1, advance 1 g', hexec, ?_, fun j hj => ?_, Group.still_of_sameRegs (hregs.trans (sameRegs_advance 1 g')), hpart⟩
  · rw [← hissuer] at hunit ⊢
    exact State.unitOf_retire 1 hunit
  · rw [State.unitOf_retire_other 1 (hissuer ▸ hj), hothers j hj]

/-! ### Fences -/

/-- What an acquire leaves behind in its unit: what it has seen. -/
def Group.seeing (g : Group) (ids : List Nat) : Group := { g with seen := ids }

theorem sameRegs_seeing (g : Group) (ids : List Nat) : sameRegs g (g.seeing ids) := sameRegs.refl g

/-- An acquire changes what its unit has seen, and at cluster scope or wider drops the sectors of its core (R192, R381). -/
theorem State.acquireAt_eq (s : State) (scope : Nat) : ∃ u : State, (u = s ∨ ∃ ids, u = s.modUnit s.issuer fun g => g.seeing ids) ∧
    s.acquireAt scope = if 2 ≤ scope then u.l1DropCore (s.coreOf s.issuer) else u := by
  refine ⟨_, ?_, rfl⟩
  split
  next t gi hi =>
    split
    · exact .inl rfl
    · rw [hi]
      exact .inr ⟨_, rfl⟩
  · exact .inl rfl

/-- What an acquire changes of the part. -/
theorem State.acquireAt_frame {s : State} {g : Group} (hu : s.unitOf s.issuer = some g) (scope : Nat) :
    (∃ g', (s.acquireAt scope).unitOf s.issuer = some g' ∧ sameRegs g g') ∧
    (∀ j, j ≠ s.issuer → (s.acquireAt scope).unitOf j = s.unitOf j) ∧ (s.acquireAt scope).issuer = s.issuer ∧
    (s.acquireAt scope).ops = s.ops ∧ (s.acquireAt scope).reqs = s.reqs ∧ (s.acquireAt scope).resting = s.resting ∧
    (s.acquireAt scope).l1 = s.l1.filter fun x => !(decide (2 ≤ scope) && x.core = s.coreOf s.issuer) := by
  obtain ⟨u, hseen, hacq⟩ := s.acquireAt_eq scope
  have hframe : (∃ g', u.unitOf s.issuer = some g' ∧ sameRegs g g') ∧ (∀ j, j ≠ s.issuer → u.unitOf j = s.unitOf j) ∧
      u.issuer = s.issuer ∧ u.ops = s.ops ∧ u.reqs = s.reqs ∧ u.bare = s.bare ∧ u.l1 = s.l1 := by
    rcases hseen with rfl | ⟨ids, rfl⟩
    · exact ⟨⟨g, hu, sameRegs.refl g⟩, fun _ _ => rfl, rfl, rfl, rfl, rfl, rfl⟩
    · exact ⟨⟨_, State.unitOf_modUnit_same _ hu, sameRegs_seeing g ids⟩, fun j hj => State.unitOf_modUnit_other _ hj,
        by simp, by simp, by simp, by simp, by simp⟩
  obtain ⟨hunit, hothers, hissuer, hops, hreqs, hbare, hl1⟩ := hframe
  rw [hacq]
  split
  next hwide =>
    have hdrop := u.accessOnly_l1Drop fun x => x.core = s.coreOf s.issuer
    refine ⟨?_, fun j hj => (hdrop.unitOf j).trans (hothers j hj), hissuer, hops, hreqs, hdrop.resting.trans (State.resting_of_bare hbare), ?_⟩
    · obtain ⟨g', hg', hregs⟩ := hunit
      exact ⟨g', (hdrop.unitOf _).trans hg', hregs⟩
    · simp [State.l1DropCore, State.l1Drop, hl1, hwide]
  next hnarrow => exact ⟨hunit, hothers, hissuer, hops, hreqs, State.resting_of_bare hbare, by simp [hl1, hnarrow]⟩

theorem fencesOrder_holds : fencesOrder := by
  intro w s g hissues hfree hpass
  have hu := hissues.1
  have hexec : Sys2Proof.Machine.exec (.fence w) s =
      .next ((if semAcq w.sem.toNat then s.acquireAt w.scope.toNat else s).retire 1) := by
    refine (show execFence w s = _ from hissues.run _).trans ?_
    rw [fenceGo, if_neg (by simp [hpass]), State.fixed_of_free s _ hfree]
  cases hsem : semAcq w.sem.toNat with
  | false =>
    rw [hsem, if_neg (by decide)] at hexec
    exact State.runs_still hexec rfl hu (sameRegs.refl g) (fun _ _ => rfl) ⟨by simp, by simp, State.resting_of_bare (by simp), by simp⟩
  | true =>
    rw [hsem, if_pos rfl] at hexec
    obtain ⟨⟨g', hunit, hregs⟩, hothers, hissuer, hops, hreqs, hrest, hl1⟩ := State.acquireAt_frame hu w.scope.toNat
    refine State.runs_still hexec hissuer hunit hregs hothers ⟨?_, ?_, ?_, ?_⟩
    · rw [State.retire_ops, hops]
    · rw [State.retire_reqs, hreqs]
    · rw [State.resting_of_bare (State.bare_retire _ 1), hrest]
    · rw [State.retire_l1, hl1]
      simp

/-! ### Prefetches -/

/-- One lane of `PREF`. -/
def State.prefLane (w : MemW) (g : Group) (s : State) (l : Nat) : State :=
  let addr := laneAddr g l true w.a w.off 1
  if addr < 0 || 2 ^ 48 ≤ addr || addr % 128 ≠ 0 then s
  else match s.access (s.coreOf s.issuer / 48) (s.ctxOf s.issuer) needR addr.toNat with
    | .error _ => s
    | .ok (pa, leaf) =>
      if hostBase ≤ pa then s
      else s.addReq (s.mkReq none l addr.toNat pa leaf .pref 128 [] 0 0 (w.sub ≠ 1))

theorem laneAddr_one (g : Group) (l : Nat) (wide : Bool) (a : Spec) (off : BitVec 12) :
    laneAddr g l wide a off 1 = (readSrc g l wide a).toNat + off.toInt := by simp [laneAddr]

/-- A lane of `PREF` requests the line it names, and is dropped when it names none. -/
theorem State.prefLane_line (w : MemW) (g : Group) (s : State) (l : Nat) :
    match s.prefLine ((readSrc g l true w.a).toNat + w.off.toInt) with
    | some pa => ∃ va leaf, s.prefLane w g l = s.addReq (s.mkReq none l va pa leaf .pref 128 [] 0 0 (w.sub ≠ 1))
    | none => s.prefLane w g l = s := by
  have haddr := laneAddr_one g l true w.a w.off
  unfold State.prefLane
  dsimp only
  rw [haddr]
  generalize ((readSrc g l true w.a).toNat + w.off.toInt) = a
  unfold State.prefLine
  by_cases hok : 0 ≤ a ∧ a < 2 ^ 48 ∧ a % 128 = 0
  · obtain ⟨hlow, hhigh, hline⟩ := hok
    rw [if_pos ⟨hlow, hhigh, hline⟩, if_neg (by simp only [Bool.or_eq_true, decide_eq_true_eq]; omega)]
    cases s.access (s.coreOf s.issuer / 48) (s.ctxOf s.issuer) needR a.toNat with
    | error e => rfl
    | ok x =>
      obtain ⟨pa, leaf⟩ := x
      by_cases hhost : pa < hostBase
      · simp only [if_pos hhost, if_neg (Nat.not_le.mpr hhost)]
        exact ⟨_, _, rfl⟩
      · simp only [if_neg hhost, if_pos (Nat.not_lt.mp hhost)]
  · rw [if_neg hok, if_pos (by simp only [Bool.or_eq_true, decide_eq_true_eq]; omega)]

/-- `PREF` sends one request for each lane that names a line. -/
theorem State.prefLanes_send (w : MemW) (g : Group) (ls : List Nat) (s : State) :
    s.accessOnly (ls.foldl (State.prefLane w g) s) ∧ (ls.foldl (State.prefLane w g) s).dies = s.dies ∧
    (ls.foldl (State.prefLane w g) s).l1 = s.l1 ∧
    ∃ rs, (ls.foldl (State.prefLane w g) s).reqs = s.reqs ++ rs ∧ (rs.map fun r => (r.op, r.kind, r.lane, r.pa, r.plain)) =
      ls.filterMap fun l => (s.prefLine ((readSrc g l true w.a).toNat + w.off.toInt)).map fun pa =>
        (none, .pref, l, pa, decide (w.sub ≠ 1)) := by
  induction ls generalizing s with
  | nil => exact ⟨s.accessOnly_refl, rfl, rfl, [], by simp, rfl⟩
  | cons l ls ih =>
    have hlane := s.prefLane_line w g l
    rw [List.foldl_cons, List.filterMap_cons]
    cases hline : s.prefLine ((readSrc g l true w.a).toNat + w.off.toInt) with
    | none =>
      rw [hline] at hlane
      rw [hlane]
      exact ih s
    | some pa =>
      rw [hline] at hlane
      obtain ⟨va, leaf, hadd⟩ := hlane
      rw [hadd]
      generalize hr : s.mkReq none l va pa leaf .pref 128 [] 0 0 (w.sub ≠ 1) = r
      have hfirst := s.accessOnly_addReq r
      obtain ⟨hrest, hdies, hl1, rs, hreqs, hmap⟩ := ih (s.addReq r)
      refine ⟨hfirst.trans hrest, hdies, hl1, r :: rs, ?_, ?_⟩
      · rw [hreqs]
        simp [State.addReq]
      · rw [List.map_cons, hmap]
        simp only [Option.map_some, ← hr]
        rfl

theorem prefetchesQuietly_holds : prefetchesQuietly := by
  intro w s g hissues hfree
  obtain ⟨honly, hdies, hl1, rs, hreqs, hmap⟩ := State.prefLanes_send w g (lanesOf (guardMask g w.head)) s
  have hexec : Sys2Proof.Machine.exec (.pref w) s = .next (((lanesOf (guardMask g w.head)).foldl (State.prefLane w g) s).retire 1) :=
    (show execPref w s = _ from hissues.run _).trans (State.fixed_of_free s _ hfree)
  refine State.runs_still hexec honly.issuer ((honly.unitOf _).trans hissues.1) (sameRegs.refl g) (fun j _ => honly.unitOf j)
    ⟨?_, ?_, ?_, ?_, rs, ?_, hmap⟩
  · rw [State.retire_ops, honly.ops]
  · rw [State.retire_l1, hl1]
  · rw [State.resting_of_bare (State.bare_retire _ 1), honly.resting]
  · rw [State.retire_dies, hdies]
  · rw [State.retire_reqs, hreqs]

/-! ### Cache maintenance -/

theorem State.cmaintAddr_lane (s : State) (zero : Bool) (l : Nat) (a : Int) :
    (s.cmaintAddr zero l a).lane = l ∧ (s.cmaintAddr zero l a).va = a.toNat := by
  unfold State.cmaintAddr
  split
  · exact ⟨rfl, rfl⟩
  · split <;> exact ⟨rfl, rfl⟩

/-- `CMAINT.INV` at its core: the sectors of each line dropped. -/
theorem State.dropLines (core : Nat) (as : List LaneAddr) (s : State) :
    s.accessOnly (as.foldl (fun s a => s.l1DropSectors core (s.paOf a.va).1 128) s) ∧
    (as.foldl (fun s a => s.l1DropSectors core (s.paOf a.va).1 128) s).dies = s.dies ∧
    (as.foldl (fun s a => s.l1DropSectors core (s.paOf a.va).1 128) s).reqs = s.reqs ∧
    (as.foldl (fun s a => s.l1DropSectors core (s.paOf a.va).1 128) s).l1 = s.l1.filter fun x =>
      !(decide (x.core = core) && as.any fun a => canonPa (s.paOf a.va).1 / 32 ≤ x.sector && x.sector ≤ (canonPa (s.paOf a.va).1 + 127) / 32) := by
  induction as generalizing s with
  | nil => exact ⟨s.accessOnly_refl, rfl, rfl, by simp⟩
  | cons a as ih =>
    have hfirst : s.accessOnly (s.l1DropSectors core (s.paOf a.va).1 128) := s.accessOnly_l1Drop _
    obtain ⟨hrest, hdies, hreqs, hl1⟩ := ih (s.l1DropSectors core (s.paOf a.va).1 128)
    rw [List.foldl_cons]
    refine ⟨hfirst.trans hrest, hdies, hreqs, ?_⟩
    rw [hl1]
    simp only [hfirst.paOf rfl]
    simp only [State.l1DropSectors, State.l1Drop, List.filter_filter]
    refine List.filter_congr fun x _ => ?_
    rw [List.any_cons]
    cases decide (x.core = core) <;> simp [Bool.and_comm]

/-- The lanes of `CMAINT`, and the operation it starts. -/
def State.cmaintAddrs (s : State) (w : MemW) (g : Group) : List LaneAddr :=
  (lanesOf (guardMask g w.head)).map fun l => s.cmaintAddr (w.sub = 4) l ((readSrc g l true w.a).toNat + w.off.toInt)
def State.cmaintOp (s : State) (n : Nat) : Op := Op.blank s.nextId s.issuer .cmaint (some n)

/-- `CMAINT` after its translations are cached, its operation launched and what its core's L1 drops dropped. -/
def State.cmaintDropped (s : State) (w : MemW) (g : Group) (n : Nat) : State :=
  let core := s.coreOf s.issuer
  let s2 := (s.cacheTrans (core / 48) (s.ctxOf s.issuer) ((s.cmaintAddrs w g).map LaneAddr.va)).launchOp [] (s.cmaintOp n)
  if w.sub = 0 || w.sub = 3 then
    (s.cmaintAddrs w g).foldl (fun s a => s.l1DropSectors core (s.paOf a.va).1 128) s2 else s2

section
variable {w : MemW} {s : State} {g : Group} {n : Nat}

theorem cmaintAddrs_lanes : ((s.cmaintAddrs w g).map LaneAddr.lane) = lanesOf (guardMask g w.head) ∧
    (s.cmaintAddrs w g).map LaneAddr.va =
      (lanesOf (guardMask g w.head)).map fun l => ((readSrc g l true w.a).toNat + w.off.toInt).toNat := by
  simp only [State.cmaintAddrs, List.map_map]
  refine ⟨(List.map_congr_left fun l _ => (s.cmaintAddr_lane ..).1).trans (List.map_id _), List.map_congr_left fun l _ => (s.cmaintAddr_lane ..).2⟩

/-- `CMAINT` of one L1 alone (R196). -/
theorem cmaintGo_l1 (hn : selectedFlag g w.head.fs = some n) (hm : guardMask g w.head ≠ 0) (hfree : memFree s g w.head 0 0) (h1 : w.sub = 1) :
    cmaintGo w s g = .next (((s.l1DropCore (s.coreOf s.issuer)).launchOp [] (s.cmaintOp n)).retire 1) := by
  unfold cmaintGo
  simp only [if_pos h1, memHold_none hfree, if_neg (lanesOf_ne_nil hm), hn]
  rfl

/-- `CMAINT` of lines (R196). -/
theorem cmaintGo_lines (hn : selectedFlag g w.head.fs = some n) (hm : guardMask g w.head ≠ 0) (hfree : memFree s g w.head 0 0) (h1 : w.sub ≠ 1)
    (hj : s.judgeLanes (s.cmaintAddrs w g) (if w.sub = 4 then 1 else 0) 128 = none) :
    cmaintGo w s g = .next ((if w.sub = 0 then s.cmaintDropped w g n else
      let kind : ReqKind := if w.sub = 2 then .clean else if w.sub = 3 then .clinv else .zero
      (s.cmaintDropped w g n).sendLanes s.nextId (s.cmaintAddrs w g) kind 128 0 false
        (fun _ => if kind = .zero then List.replicate 128 0 else []) fun _ => 0).retire 1) := by
  have has : ((lanesOf (guardMask g w.head)).map fun l => s.cmaintAddr (w.sub = 4) l (laneAddr g l true w.a w.off 1)) = s.cmaintAddrs w g := by
    simp only [laneAddr_one, State.cmaintAddrs]
  have hne : s.cmaintAddrs w g ≠ [] := by simpa [State.cmaintAddrs] using lanesOf_ne_nil hm
  unfold cmaintGo
  simp only [if_neg h1, has, hj, memHold_none hfree, if_neg hne, hn]
  split <;> rfl

/-- The launch of `CMAINT`, before its core's L1 drops anything. -/
def State.cmaintLaunched (s : State) (w : MemW) (g : Group) (n : Nat) : State :=
  (s.cacheTrans (s.coreOf s.issuer / 48) (s.ctxOf s.issuer) ((s.cmaintAddrs w g).map LaneAddr.va)).launchOp [] (s.cmaintOp n)

theorem cmaintLaunched_paOf (va : Nat) : (s.cmaintLaunched w g n).paOf va = (s.cacheTrans (s.coreOf s.issuer / 48) (s.ctxOf s.issuer)
    ((lanesOf (guardMask g w.head)).map fun l => ((readSrc g l true w.a).toNat + w.off.toInt).toNat)).paOf va := by
  rw [State.cmaintLaunched, State.paOf_of_bare (State.bare_launchOp ..), cmaintAddrs_lanes.2]

theorem cmaintLaunched_reqs_l1 : (s.cmaintLaunched w g n).reqs = s.reqs ∧ (s.cmaintLaunched w g n).l1 = s.l1 := by
  obtain ⟨ds, hds, -⟩ := State.cacheTrans_dies (s.coreOf s.issuer / 48) (s.ctxOf s.issuer) ((s.cmaintAddrs w g).map LaneAddr.va) s
  rw [State.cmaintLaunched, State.launchOp_reqs, State.launchOp_l1, hds]
  exact ⟨rfl, rfl⟩

theorem cmaintDropped_frame : (s.cmaintLaunched w g n).accessOnly (s.cmaintDropped w g n) ∧
    (s.cmaintDropped w g n).dies = (s.cmaintLaunched w g n).dies ∧ (s.cmaintDropped w g n).reqs = s.reqs := by
  have hdrop := State.dropLines (s.coreOf s.issuer) (s.cmaintAddrs w g) (s.cmaintLaunched w g n)
  obtain ⟨honly, hdies, hreqs, -⟩ := hdrop
  unfold State.cmaintDropped
  dsimp only
  split
  · exact ⟨honly, hdies, hreqs.trans cmaintLaunched_reqs_l1.1⟩
  · exact ⟨State.accessOnly_refl _, rfl, cmaintLaunched_reqs_l1.1⟩

theorem cmaintDropped_l1 (h0 : w.sub = 0) : (s.cmaintDropped w g n).l1 = s.l1.filter fun x =>
    !(decide (x.core = s.coreOf s.issuer) && (lanesOf (guardMask g w.head)).any fun l =>
      let pa := s.homeOf ((lanesOf (guardMask g w.head)).map fun l => ((readSrc g l true w.a).toNat + w.off.toInt).toNat)
        ((readSrc g l true w.a).toNat + w.off.toInt).toNat
      canonPa pa / 32 ≤ x.sector && x.sector ≤ (canonPa pa + 127) / 32) := by
  obtain ⟨-, -, -, hl1⟩ := State.dropLines (s.coreOf s.issuer) (s.cmaintAddrs w g) (s.cmaintLaunched w g n)
  have hdropped : s.cmaintDropped w g n = (s.cmaintAddrs w g).foldl
      (fun u a => u.l1DropSectors (s.coreOf s.issuer) (u.paOf a.va).1 128) (s.cmaintLaunched w g n) := by
    unfold State.cmaintDropped
    simp only [h0, decide_true, Bool.true_or, if_true]
    rfl
  rw [hdropped, hl1, cmaintLaunched_reqs_l1.2]
  refine List.filter_congr fun x _ => ?_
  simp only [cmaintLaunched_paOf, State.homeOf, State.cmaintAddrs, List.any_map, Function.comp_def, (State.cmaintAddr_lane ..).2]
  rfl

/-- What `CMAINT` sends to the home slices of its lines. -/
theorem cmaintDropped_sends (kind : ReqKind) (data : List Byte) :
    let v := (s.cmaintDropped w g n).sendLanes s.nextId (s.cmaintAddrs w g) kind 128 0 false (fun _ => data) fun _ => 0
    (s.cmaintLaunched w g n).accessOnly v ∧
    let va (l : Nat) : Nat := ((readSrc g l true w.a).toNat + w.off.toInt).toNat
    s.sends (v.retire 1) (s.cmaintOp n) (lanesOf (guardMask g w.head)) kind va
      (fun l => s.homeOf ((lanesOf (guardMask g w.head)).map va) (va l)) 128 fun _ => data := by
  intro v
  obtain ⟨hdrop, hdies, hreqs⟩ := cmaintDropped_frame (w := w) (s := s) (g := g) (n := n)
  obtain ⟨hsent, rs, hvreqs, hmap, hrs⟩ := State.sendLanes_sends s.nextId kind 128 0 false (fun _ => data) (fun _ => 0) (s.cmaintAddrs w g)
    (s.cmaintDropped w g n)
  refine ⟨hdrop.trans hsent, rs, ?_, ?_, hrs⟩
  · rw [State.retire_reqs, hvreqs, hreqs]
  · rw [hmap, State.cmaintAddrs, List.map_map]
    refine List.map_congr_left fun l _ => ?_
    simp only [Function.comp, (State.cmaintAddr_lane ..).1, (State.cmaintAddr_lane ..).2, hdrop.paOf hdies, cmaintLaunched_paOf, State.homeOf]

end

theorem maintenanceStarts_holds : maintenanceStarts := by
  intro w s g n hn hm hfree hissues lanes va pa core hj
  have hu := hissues.1
  have hgo : Sys2Proof.Machine.exec (.cmaint w) s = cmaintGo w s g := by
    show execCmaint w s = _
    exact hissues.run _
  have hcache := s.accessOnly_cacheTrans (s.coreOf s.issuer / 48) (s.ctxOf s.issuer) ((s.cmaintAddrs w g).map LaneAddr.va)
  by_cases h1 : w.sub = 1
  · refine State.begins_of_access (s.cmaintOp n) hu (hgo.trans (cmaintGo_l1 hn hm hfree h1)) (s.accessOnly_l1Drop _)
      (State.accessOnly_refl _) rfl rfl rfl fun hrest => ⟨rfl, hrest, ?_⟩
    refine ⟨by simp [h1], fun _ => ⟨by simp [State.l1DropCore, State.l1Drop], ?_⟩, by simp [h1], by simp [h1], by simp [h1]⟩
    simp [State.l1DropCore, State.l1Drop, core]
  · have hlines := hgo.trans (cmaintGo_lines hn hm hfree h1 (hj h1))
    by_cases h0 : w.sub = 0
    · rw [if_pos h0] at hlines
      obtain ⟨hdrop, -, hreqs⟩ := cmaintDropped_frame (w := w) (s := s) (g := g) (n := n)
      refine State.begins_of_access (s.cmaintOp n) hu hlines hcache hdrop rfl rfl rfl fun hrest => ⟨rfl, hrest, ?_⟩
      refine ⟨fun _ => ⟨?_, ?_⟩, by simp [h0], by simp [h0], by simp [h0], by simp [h0]⟩
      · rw [State.retire_reqs, hreqs]
      · rw [State.retire_l1, cmaintDropped_l1 h0]
    · rw [if_neg h0] at hlines
      obtain ⟨hafter, hsends⟩ := cmaintDropped_sends (w := w) (s := s) (g := g) (n := n)
        (if w.sub = 2 then .clean else if w.sub = 3 then .clinv else .zero)
        (if (if w.sub = 2 then ReqKind.clean else if w.sub = 3 then .clinv else .zero) = .zero then List.replicate 128 0 else [])
      refine State.begins_of_access (s.cmaintOp n) hu hlines hcache hafter rfl rfl rfl fun hrest => ⟨rfl, hrest, ?_⟩
      refine ⟨fun h => absurd h h0, fun h => absurd h h1, fun h => ?_, fun h => ?_, fun h => ?_⟩
      all_goals
        simp only [h] at hsends ⊢
        exact hsends

/-- Settles O15: a fence that may go on orders and drops its L1, a prefetch requests lines quietly, and cache maintenance drops sectors or
sends one request for each lane's line. -/
theorem fencesPrefetchesMaintain : Obligations.FencesPrefetchesMaintain :=
  ⟨fencesOrder_holds, prefetchesQuietly_holds, maintenanceStarts_holds⟩

end Sys2Proof.Machine
end

section
/-!
Tile copies, FIFO banks and bank switches as they start (R193, R194, R197, R198).
-/
namespace Sys2Proof.Machine

/-! ### Tile copies -/

theorem worstVerdict_none_pair : worstVerdict [none, none] = none := rfl

theorem tileBytes_eq (w : MemW) : tileBytes w = 32 * (w.off.toNat / 2 % 128 + 1) := by simp [tileBytes, field]
theorem tilePred_eq (w : MemW) : tilePred w = w.off.toNat / 256 % 16 := by simp [tilePred, field]

/-- Log bytes reserved for written extents are counts alone (R421). -/
theorem State.accessOnly_reserveRows (held : Bool) (rows : List (Nat × Nat)) (s : State) : s.accessOnly (s.reserveRows held rows) :=
  State.accessOnly_foldl (fun s _ => s.accessOnly_reserveLog ..) _ s

theorem State.reserveRows_reqs (held : Bool) (rows : List (Nat × Nat)) (s : State) : (s.reserveRows held rows).reqs = s.reqs := by
  unfold State.reserveRows
  generalize s.setPieces rows = ps
  induction ps generalizing s with
  | nil => rfl
  | cons p ps ih => exact (ih _).trans rfl

theorem State.cacheTrans_reqs (s : State) (die ctx : Nat) (vas : List Nat) : (s.cacheTrans die ctx vas).reqs = s.reqs := by
  obtain ⟨ds, hds, -⟩ := State.cacheTrans_dies die ctx vas s
  rw [hds]

/-- The operation that `LDT` starts. -/
def State.tileLoadOp (s : State) (w : MemW) (g : Group) (n scr ga len : Nat) (aon : Bool) : Op :=
  { Op.blank s.nextId s.issuer .mem (some n) with
    dests := if aon then (lanesOf (issuing g)).map fun l => (RegName.p (tilePred w), some l) else []
    acquire := if semAcq w.sem.toNat then some w.scope.toNat else none
    writes := if aon then (lanesOf (issuing g)).map fun l => ⟨.p (tilePred w), some l, 0⟩ else []
    trans := s.transFor (s.coreOf s.issuer / 48) (s.ctxOf s.issuer) (pagesOf ga (32 + len))
    todo := if aon then [] else fillMoves (ga + 32) scr len
    effect := if aon then .tileLoad scr ga len 0 none else .none }

/-- The operation that `STT` starts. -/
def State.tileStoreOp (s : State) (w : MemW) (n ga len : Nat) (data : List Byte) (aon : Bool) : Op :=
  { Op.blank s.nextId s.issuer .mem (some n) with
    release := if semRel w.sem.toNat then some w.scope.toNat else none
    trans := s.transFor (s.coreOf s.issuer / 48) (s.ctxOf s.issuer) (pagesOf ga (32 + len))
    todo := if aon then [] else storeMoves [(ga + 32, data)]
    effect := if aon then .tileStore ga data 0 else .none }

section
variable {w : MemW} {s : State} {g : Group} {n : Nat}

/-- `LDT` that goes on. -/
theorem tileGo_load (hn : selectedFlag g w.head.fs = some n) (hfree : memFree s g w.head w.sem.toNat w.scope.toNat) (hstill : banksStill s)
    (hj : s.tileVerdict false (readSrc g 0 false w.d).toNat (readSrc g 0 true w.a).toNat (tileBytes w) (w.sub.toNat % 2 = 1) = none) :
    tileGo false w s g = .next (((s.cacheTrans (s.coreOf s.issuer / 48) (s.ctxOf s.issuer)
        (pagesOf (readSrc g 0 true w.a).toNat (32 + tileBytes w))).launchOp (if w.sub.toNat % 2 = 1 then [RegName.p (tilePred w)] else [])
      (s.tileLoadOp w g n (readSrc g 0 false w.d).toNat (readSrc g 0 true w.a).toNat (tileBytes w) (w.sub.toNat % 2 = 1))).retire 1) := by
  unfold tileGo
  simp only [bankBusy_still hstill, Bool.false_and, Bool.false_or, Bool.false_eq_true, if_false, hj, worstVerdict_none_pair, memHold_none hfree, hn]
  simp only [State.tileLoadOp, decide_eq_true_eq]

/-- `STT` that goes on. -/
theorem tileGo_store {tm : Team} (hn : selectedFlag g w.head.fs = some n) (hfree : memFree s g w.head w.sem.toNat w.scope.toNat)
    (hstill : banksStill s) (htm : s.teams[s.viewTeam s.issuer]? = some tm)
    (hj : s.tileVerdict true (readSrc g 0 false w.d).toNat (readSrc g 0 true w.a).toNat (tileBytes w) (w.sub.toNat % 2 = 1) = none)
    (hlog : s.rowsLog 1 (tileRows (readSrc g 0 true w.a).toNat (tileBytes w) (w.sub.toNat % 2 = 1)) = none)
    (hpad : s.padWrites s.issuer = false) :
    tileGo true w s g = .next ((((s.cacheTrans (s.coreOf s.issuer / 48) (s.ctxOf s.issuer)
        (pagesOf (readSrc g 0 true w.a).toNat (32 + tileBytes w))).reserveRows false
          (tileRows (readSrc g 0 true w.a).toNat (tileBytes w) (w.sub.toNat % 2 = 1))).launchOp []
      (s.tileStoreOp w n (readSrc g 0 true w.a).toNat (tileBytes w) (scratchRead tm (readSrc g 0 false w.d).toNat (tileBytes w))
        (w.sub.toNat % 2 = 1))).retire 1) := by
  unfold tileGo
  simp only [bankBusy_still hstill, hpad, Bool.and_false, Bool.or_false, Bool.false_eq_true, if_false, if_true, hj, hlog,
    worstVerdict_none_pair, memHold_none hfree, hn, htm]
  simp only [State.tileStoreOp, decide_eq_true_eq]

end

theorem tileCopiesStart_holds : tileCopiesStart := by
  intro w s g n tm hn hfree hstill htm scr ga len aon pd
  have hlen : len = tileBytes w := (tileBytes_eq w).symm
  have hpd : pd = .p (tilePred w) := by rw [tilePred_eq]
  have hcache := s.accessOnly_cacheTrans (s.coreOf s.issuer / 48) (s.ctxOf s.issuer) (pagesOf ga (32 + len))
  have hreqs := s.cacheTrans_reqs (s.coreOf s.issuer / 48) (s.ctxOf s.issuer) (pagesOf ga (32 + len))
  refine ⟨fun hissues hj => ?load, fun hissues hj hlog hpad => ?store⟩
  case load =>
    rw [hlen] at hj
    have hexec : Sys2Proof.Machine.exec (.ldt w) s = tileGo false w s g := hissues.run _
    have hnames : (if aon = true then [pd] else []) = if w.sub.toNat % 2 = 1 then [RegName.p (tilePred w)] else [] := by
      simp [aon, hpd]
    rw [hnames, hlen]
    rw [hlen] at hcache hreqs
    refine State.begins_of_access (s.tileLoadOp w g n scr ga (tileBytes w) aon) hissues.1 (hexec.trans (tileGo_load hn hfree hstill hj)) hcache
      (State.accessOnly_refl _) rfl rfl rfl fun hrest => ⟨hrest, ?_, fun haon => ?_, fun haon => ?_, rfl, ?_⟩
    · rw [State.retire_reqs, State.launchOp_reqs, hreqs]
    · simp [State.tileLoadOp, haon]
    · simp [State.tileLoadOp, haon]
    · rw [hpd, State.tileLoadOp]
  case store =>
    rw [hlen] at hj hlog
    have hexec : Sys2Proof.Machine.exec (.stt w) s = tileGo true w s g := hissues.run _
    have hrows : (ga + 32, tileBytes w) :: (if aon = true then [(ga, 8)] else []) = tileRows ga (tileBytes w) (w.sub.toNat % 2 = 1) := by
      simp [tileRows, aon]
    rw [hrows] at hlog
    rw [hlen]
    rw [hlen] at hcache hreqs
    refine State.begins_of_access (s.tileStoreOp w n ga (tileBytes w) (scratchRead tm scr (tileBytes w)) aon) hissues.1
      (hexec.trans (tileGo_store hn hfree hstill htm hj hlog hpad)) (hcache.trans (State.accessOnly_reserveRows ..))
      (State.accessOnly_refl _) rfl rfl rfl fun hrest => ⟨hrest, ?_, ⟨fun haon => ?_, fun haon => ?_⟩, rfl⟩
    · rw [State.retire_reqs, State.launchOp_reqs, State.reserveRows_reqs, hreqs]
    · simp [State.tileStoreOp, haon, scratchRead]
    · simp [State.tileStoreOp, haon, scratchRead]

/-! ### FIFO banks -/

/-- A team changed apart from its groups leaves every unit as it was. -/
theorem State.unitOf_modTeam {t : Nat} {f : Team → Team} (hf : ∀ a, (f a).groups = a.groups) (s : State) (j : Issuer) :
    (s.modTeam t f).unitOf j = s.unitOf j := by
  cases j with
  | none => rfl
  | handler c => rfl
  | group n gi =>
    simp only [State.unitOf, State.group?, State.modTeam, getElem?_modAt]
    split
    next h =>
      subst h
      cases s.teams[t]? <;> simp [hf]
    next => rfl

/-- One bank of a team changed. -/
def Team.withBank (bank : Nat) (f : Bank → Bank) (t : Team) : Team := { t with banks := modAt t.banks bank f }

/-- A word that changes one bank of its team and launches its operation. -/
theorem State.begins_of_bank {s : State} {i : Instr} {g : Group} {tm : Team} {names : List RegName} {n bank : Nat} {k : OpKind} {f : Bank → Bank}
    (o : Op) {rel : Op → State → Prop} (hu : s.unitOf s.issuer = some g) (htm : s.teams[s.viewTeam s.issuer]? = some tm)
    (hexec : Sys2Proof.Machine.exec i s = .next (((s.modTeam (s.viewTeam s.issuer) (Team.withBank bank f)).launchOp names o).retire 1))
    (hflag : o.flag = some n) (hissuer : o.issuer = s.issuer) (hkind : o.kind = k)
    (hrel : ∀ t, s.bankOnly t tm bank f → rel o t) : s.begins i g names n k rel := by
  have hunits := s.unitOf_modTeam (t := s.viewTeam s.issuer) (f := Team.withBank bank f) fun _ => rfl
  refine State.begins_of_launch o hu hexec (State.launchOp_issuer ..) (State.unitOf_launchOp_congr (u := s.modTeam (s.viewTeam s.issuer) (Team.withBank bank f)) hu rfl hunits names o) ?_ hflag hissuer hkind
    (hrel _ ?_)
  · rw [State.ops_launchOp, State.ops_launchOp]
    rfl
  · refine (State.bare_retire _ 1).trans ((State.bare_launchOp ..).trans ?_)
    simp only [State.bare, State.modTeam, modAt_eq_set _ htm, List.map_set]
    rfl

section
variable {w : MemW} {s : State} {g : Group} {n : Nat} {tm : Team} {b : Bank}

theorem bankIndex_eq (w : MemW) : bankIndex w = w.off.toNat % 16 := field_zero ..

theorem fifoFault_none (hb : tm.banks[bankIndex w]? = some b) (hmode : b.mode = .fifo) : fifoFault tm (bankIndex w) = none := by
  simp [fifoFault, hb, hmode]

/-- `FIFOPUSH` that goes on. -/
theorem fifoPushGo_enters (hn : selectedFlag g w.head.fs = some n) (hm : guardMask g w.head ≠ 0) (hfree : memFree s g w.head 0 0)
    (hstill : banksStill s) (htm : s.teams[s.viewTeam s.issuer]? = some tm) (hb : tm.banks[bankIndex w]? = some b) (hmode : b.mode = .fifo)
    (hroom : b.fifo.length + (lanesOf (guardMask g w.head)).length ≤ 1024)
    (hfirst : fifoBehind tm (bankIndex w) true (fifoSince s.nextId g (bankIndex w) true) = false) :
    fifoPushGo w s g = .next (((s.modTeam (s.viewTeam s.issuer) (Team.withBank (bankIndex w) fun b =>
        { b with fifo := b.fifo ++ (lanesOf (guardMask g w.head)).map fun l => (List.range 8).map fun j => readOpd g l w.d j })).launchOp []
      (Op.blank s.nextId s.issuer .fifoPush (some n))).retire 1) := by
  unfold fifoPushGo
  simp only [htm, bankBusy_still hstill, Bool.false_eq_true, if_false, if_neg (lanesOf_ne_nil hm), fifoFault_none hb hmode, memHold_none hfree,
    hb, hfirst, Bool.or_false, hn, Option.map_some, Option.getD_some, decide_eq_true_eq, if_neg (Nat.not_lt.mpr hroom)]
  rfl

/-- The registers that one lane of `FIFOPOP` is due, and those that all are. -/
def popWrites (w : MemW) (g : Group) (q : List (List Reg32)) (i l : Nat) : List RegWrite :=
  (List.range 8).filterMap fun j => (nthName g l w.d j).map fun r => ⟨r, some l, (q.getD i []).getD j 0⟩
def fifoWrites (w : MemW) (g : Group) (q : List (List Reg32)) : List RegWrite :=
  ((lanesOf (guardMask g w.head)).mapIdx (popWrites w g q)).flatten

/-- `FIFOPOP` that goes on. -/
theorem fifoPopGo_leaves (hn : selectedFlag g w.head.fs = some n) (hm : guardMask g w.head ≠ 0) (hfree : memFree s g w.head 0 0)
    (hstill : banksStill s) (htm : s.teams[s.viewTeam s.issuer]? = some tm) (hb : tm.banks[bankIndex w]? = some b) (hmode : b.mode = .fifo)
    (hfull : (lanesOf (guardMask g w.head)).length ≤ b.fifo.length)
    (hfirst : fifoBehind tm (bankIndex w) false (fifoSince s.nextId g (bankIndex w) false) = false) :
    fifoPopGo w s g = .next (((s.modTeam (s.viewTeam s.issuer) (Team.withBank (bankIndex w) fun b =>
        { b with fifo := b.fifo.drop (lanesOf (guardMask g w.head)).length })).launchOp (runWrites g w.d 8)
      { Op.blank s.nextId s.issuer .fifoPop (some n) with
        dests := destsOf (fifoWrites w g b.fifo), writes := fifoWrites w g b.fifo }).retire 1) := by
  unfold fifoPopGo
  simp only [htm, bankBusy_still hstill, Bool.false_eq_true, if_false, if_neg (lanesOf_ne_nil hm), fifoFault_none hb hmode, memHold_none hfree,
    hb, hfirst, Bool.or_false, hn, Option.map_some, Option.getD_some, decide_eq_true_eq, if_neg (Nat.not_lt.mpr hfull)]
  rfl

/-- Each lane's registers are due the entry at its place. -/
theorem mem_fifoWrites {q : List (List Reg32)} {i l j : Nat} {r : RegName} (hl : (lanesOf (guardMask g w.head))[i]? = some l) (hj : j < 8)
    (hr : nthName g l w.d j = some r) : (⟨r, some l, (q.getD i []).getD j 0⟩ : RegWrite) ∈ fifoWrites w g q := by
  have hentry : (⟨r, some l, (q.getD i []).getD j 0⟩ : RegWrite) ∈ popWrites w g q i l :=
    List.mem_filterMap.mpr ⟨j, List.mem_range.mpr hj, by rw [hr, Option.map_some]⟩
  have hat : ((lanesOf (guardMask g w.head)).mapIdx (popWrites w g q))[i]? = some (popWrites w g q i l) := by
    rw [List.getElem?_mapIdx, hl, Option.map_some]
  exact List.mem_flatten.mpr ⟨_, List.mem_of_getElem? hat, hentry⟩

end

theorem fifosMove_holds : fifosMove := by
  intro w s g n tm b hn hm hfree hstill htm hb hmode lanes first
  simp only [first, ← bankIndex_eq] at hb ⊢
  refine ⟨fun hissues hroom hfirst => ?push, fun hissues hfull hfirst => ?pop⟩
  case push =>
    have hexec : Sys2Proof.Machine.exec (.fifopush w) s = fifoPushGo w s g := hissues.run _
    exact State.begins_of_bank _ hissues.1 htm (hexec.trans (fifoPushGo_enters hn hm hfree hstill htm hb hmode hroom hfirst)) rfl rfl rfl
      fun t ht => ⟨rfl, rfl, ht⟩
  case pop =>
    have hexec : Sys2Proof.Machine.exec (.fifopop w) s = fifoPopGo w s g := hissues.run _
    refine State.begins_of_bank _ hissues.1 htm (hexec.trans (fifoPopGo_leaves hn hm hfree hstill htm hb hmode hfull hfirst)) rfl rfl rfl
      fun t ht => ⟨rfl, ht, fun i l j hl hj => ?_⟩
    cases hr : nthName g l w.d j with
    | none => trivial
    | some r => exact mem_fifoWrites hl hj hr

/-! ### Bank switches -/

theorem bankModeOf_eq (k : Nat) : bankModeOf k = [BankMode.cache, .scratch].getD k .fifo := by
  match k with
  | 0 => rfl
  | 1 => rfl
  | _ + 2 => rfl

theorem bankSwitchStarts_holds : bankSwitchStarts := by
  intro w s g n tm hn hfree htm hissues hbank
  have hgo : bankGo w s g = .next ((s.launchOp [] { Op.blank s.nextId s.issuer .bankSwitch (some n) with
      effect := .bank (bankIndex w) (bankModeOf w.sub.toNat) }).retire 1) := by
    unfold bankGo
    simp only [htm, bankIndex_eq, if_neg (Nat.not_le.mpr hbank), memHold_none hfree, hn]
  have hexec : Sys2Proof.Machine.exec (.bankcfg w) s = bankGo w s g := hissues.run _
  refine State.begins_of_launch _ hissues.1 (hexec.trans hgo) (State.launchOp_issuer ..) (fun _ => rfl) rfl rfl rfl rfl
    ⟨(State.bare_retire _ 1).trans (State.bare_launchOp ..), ?_⟩
  rw [bankModeOf_eq, bankIndex_eq]

/-- Settles O16: tile copies, FIFO words and bank switches that go on start their operations, and a FIFO word moves one bank's entries. -/
theorem tileCopiesAndFifosStart : Obligations.TileCopiesAndFifosStart :=
  ⟨tileCopiesStart_holds, fifosMove_holds, bankSwitchStarts_holds⟩

end Sys2Proof.Machine
end

section
/-!
Flits, routers, page walks and acknowledgements (R192, R343-R347, R402-R404).
-/
namespace Sys2Proof.Machine

/-! ### Requests that something waits for -/

theorem State.mem_pruneReqs (s : State) (q : Req) : q ∈ s.pruneReqs.reqs ↔ s.needed q ∧ q ∈ s.reqs := by
  have hany : (s.ops.any fun o => q.op = some o.id) = true ↔ ∃ o ∈ s.ops, q.op = some o.id := by simp
  simp only [State.pruneReqs, List.mem_filter, State.needed, Bool.or_eq_true, Bool.not_eq_true', Bool.and_eq_true, decide_eq_true_eq, hany]
  tauto

/-- What is left of requests that were changed one by one. -/
theorem State.mem_pruneReqs_map {s u : State} {f : Req → Req} (hops : u.ops = s.ops) (hreqs : u.reqs = s.reqs.map f) (q : Req) :
    q ∈ u.pruneReqs.reqs ↔ s.needed q ∧ ∃ p ∈ s.reqs, q = f p := by
  have hneeded : u.needed q ↔ s.needed q := by simp only [State.needed, hops]
  rw [State.mem_pruneReqs, hneeded, hreqs, List.mem_map]
  simp only [eq_comm]

/-! ### Routers -/

/-- A die without what its routers do. -/
def Die.routerless (d : Die) : Die := { d with asleep := [], waking := [] }

theorem routersOnly_refl (s : State) : routersOnly s s := ⟨rfl, rfl⟩

theorem routersOnly.trans {s t u : State} (h : routersOnly s t) (k : routersOnly t u) : routersOnly s u :=
  ⟨k.1.trans h.1, k.2.trans h.2⟩

theorem routersOnly_modDie (s : State) (d : Nat) {f : Die → Die} (hf : ∀ a, (f a).routerless = a.routerless) : routersOnly s (s.modDie d f) :=
  ⟨rfl, map_modAt s.dies d f Die.routerless hf⟩

theorem routersOnly_wake (s : State) (h : RingStop) : routersOnly s (s.wake h) := by
  unfold State.wake
  split
  · exact routersOnly_modDie s _ fun _ => rfl
  · exact routersOnly_refl s

theorem routersOnly_hopTo (s : State) (r : Req) (h : RingStop) (rest : List RingStop) : routersOnly s (s.hopTo r h rest) := by
  unfold State.hopTo
  split <;> exact ⟨rfl, rfl⟩

theorem State.wake_reqs_ops (s : State) (h : RingStop) : (s.wake h).reqs = s.reqs ∧ (s.wake h).ops = s.ops := by
  unfold State.wake
  split <;> exact ⟨rfl, rfl⟩

/-- A wake signal wakes its router. -/
theorem State.wake_woken {s : State} {h : RingStop} (hasleep : s.routerAsleep h = true) :
    (s.wake h).routerAsleep h = false ∧ (s.wake h).routerWaking h = true := by
  have hwake : s.wake h = s.modDie (dieOfStop h) fun d =>
      { d with asleep := d.asleep.filter (· ≠ routerOf h), waking := d.waking ++ [routerOf h] } := if_pos hasleep
  cases hdie : s.dies[dieOfStop h]? with
  | none => simp [State.routerAsleep, hdie] at hasleep
  | some d => simp [hwake, State.routerAsleep, State.routerWaking, State.modDie, getElem?_modAt, hdie]

theorem State.wake_awake (s : State) (h : RingStop) : (s.wake h).routerAsleep h = false := by
  cases hasleep : s.routerAsleep h with
  | true => exact (State.wake_woken hasleep).1
  | false => rw [State.wake, hasleep, if_neg (by decide), hasleep]

/-- A wake signal sends no router to sleep. -/
theorem State.wake_stays_awake {s : State} {x : RingStop} (hx : s.routerAsleep x = false) (h : RingStop) : (s.wake h).routerAsleep x = false := by
  unfold State.wake
  split
  · simp only [State.routerAsleep, State.modDie, getElem?_modAt] at hx ⊢
    split
    next hd =>
      cases hdie : s.dies[dieOfStop x]? with
      | none => rfl
      | some d =>
        rw [hdie] at hx
        simp_all
    next => exact hx
  · exact hx

theorem State.wakes_stay_awake {x : RingStop} (hs : List RingStop) {s : State} (hx : s.routerAsleep x = false) :
    (hs.foldl State.wake s).routerAsleep x = false := by
  induction hs generalizing s with
  | nil => exact hx
  | cons h hs ih => exact ih (State.wake_stays_awake hx h)

/-- Wake signals to some routers: each is awake afterwards, and nothing else has changed. -/
theorem State.wakes_awake (hs : List RingStop) (s : State) : routersOnly s (hs.foldl State.wake s) ∧
    (hs.foldl State.wake s).reqs = s.reqs ∧ (hs.foldl State.wake s).ops = s.ops ∧ ∀ x ∈ hs, (hs.foldl State.wake s).routerAsleep x = false := by
  induction hs generalizing s with
  | nil => exact ⟨routersOnly_refl s, rfl, rfl, by simp⟩
  | cons h hs ih =>
    obtain ⟨honly, hreqs, hops, hawake⟩ := ih (s.wake h)
    obtain ⟨hreqs1, hops1⟩ := s.wake_reqs_ops h
    refine ⟨(routersOnly_wake s h).trans honly, hreqs.trans hreqs1, hops.trans hops1, fun x hx => ?_⟩
    rcases List.mem_cons.mp hx with rfl | hmem
    · exact State.wakes_stay_awake hs (s.wake_awake x)
    · exact hawake x hmem

/-! ### One hop of a flit -/

theorem reach_eq (q : Req) (h : RingStop) (rest : List RingStop) : q.reach h rest = steppedOn q none h rest := by
  cases h with
  | station d n k =>
    cases rest with
    | nil => simp [Req.reach, steppedOn, crosses]
    | cons x xs =>
      by_cases hn : n = 3
      · subst hn
        simp [Req.reach, steppedOn, crosses]
      · simp [Req.reach, steppedOn, hn]
  | _ => rfl

theorem State.hopTo_reqs (s : State) (r : Req) (h : RingStop) (rest : List RingStop) : (s.hopTo r h rest).reqs =
    s.reqs.map fun p => if p.id = r.id then steppedOn p (if r.atCore then some s.nextId else none) h rest else p := by
  unfold State.hopTo
  simp only [reach_eq]
  split <;> rfl

/-- A flit that goes on: its own request alone changes, and the routers two hops ahead are woken (R344, R346). -/
theorem State.hop_flitOn (s : State) (r : Req) (h : RingStop) (rest : List RingStop) :
    s.flitOn ((rest.take 2).foldl State.wake (s.hopTo r h rest)).pruneReqs r h rest := by
  obtain ⟨hwakes, hreqs, hops, hawake⟩ := State.wakes_awake (rest.take 2) (s.hopTo r h rest)
  have hhop := routersOnly_hopTo s r h rest
  have hhops : (s.hopTo r h rest).ops = s.ops := (congrArg State.ops hhop.1 :)
  refine ⟨hhop.trans (hwakes.trans ⟨rfl, rfl⟩), hawake, fun q => ?_⟩
  exact State.mem_pruneReqs_map (hops.trans hhops) (hreqs.trans (s.hopTo_reqs r h rest)) q

section
variable {s : State} {r : Req} {h : RingStop} {rest : List RingStop}

/-- A flit's arrival at a stop that is no edge. -/
theorem ringFlitArrival_eq (hr : s.req? r.id = some r) (hhops : r.hops = h :: rest) (hedge : ∀ d p, h ≠ .edge d p) (e : Bool) :
    Sys2Proof.Machine.exec (.ringFlitArrival r.id e) s =
      if s.routerAsleep h then .next (s.wake h)
      else if s.routerWaking h || s.flowWaits r || s.stationFull r h rest || (r.atCore && s.coreGate r) then .next s
      else if e then
        if 3 ≤ r.sends then
          let ctxs := if Config.ownerUnreadable s.fresh then s.ctxsOn (dieOfStop h) else [r.ctx]
          .next (if ctxs = [] then s.draw.deviceError else s.draw.deviceError.rollback ctxs (dieOfStop h))
        else .next (s.modReq r.id fun q => { q with sends := q.sends + 1 })
      else .next ((rest.take 2).foldl State.wake (s.hopTo r h rest)).pruneReqs := by
  show execRingFlitArrival r.id e s = _
  unfold execRingFlitArrival
  rw [hr]
  simp only [hhops]

theorem edgeFlitIngress_eq {d p : Nat} {die : Die} (hr : s.req? s.subject = some r) (hhops : r.hops = .edge d p :: rest)
    (hdie : s.dies[d]? = some die) : Sys2Proof.Machine.exec .edgeFlitIngress s =
      if s.routerAsleep (.edge d p) then .next (s.wake (.edge d p))
      else if s.routerWaking (.edge d p) || s.flowWaits r then .next s
      else if r.incarnation ≠ (if r.performed then (if d = r.core / 48 then die.inc else r.incarnation) else die.incTable.getD (r.core / 48) 0) then
        .next ({ s with reqs := s.reqs.filter fun q => q.id ≠ r.id }.modDie d fun x =>
          { x with stale := if x.stale = BitVec.allOnes 32 then x.stale else x.stale + 1 })
      else if die.state ≠ .live then .next s
      else .next ((rest.take 2).foldl State.wake (s.hopTo r (.edge d p) rest)).pruneReqs := by
  show execEdgeFlitIngress s = _
  unfold execEdgeFlitIngress
  rw [hr]
  simp only [hhops, hdie]

end

theorem flitsMove_holds : flitsMove := by
  intro s r h rest hr hhops hedge
  have heq := ringFlitArrival_eq hr hhops hedge
  refine ⟨fun hasleep e => ?_, fun hawake hwaits e => ?_, fun hawake hwaking hflow hroom hgate => ?_⟩
  · rw [heq, if_pos hasleep]
    exact ⟨_, rfl, routersOnly_wake s h, (s.wake_reqs_ops h).1, State.wake_woken hasleep⟩
  · rw [heq, if_neg (by simp [hawake]), if_pos]
    simp only [Bool.or_eq_true, Bool.and_eq_true]
    tauto
  · have hpass : (s.routerWaking h || s.flowWaits r || s.stationFull r h rest || (r.atCore && s.coreGate r)) = false := by
      simpa [hwaking, hflow, hroom] using hgate
    simp only [heq, hawake, hpass, Bool.false_eq_true, if_false, if_true]
    refine ⟨⟨_, rfl, s.hop_flitOn r h rest⟩, fun hsends => ?_, fun hsends => ?_⟩
    · rw [if_neg (by omega)]
      rfl
    · rw [if_pos hsends]

/-! ### Order within a flow -/

/-- A flit waits behind an earlier one of its flow that has not gone further (R344). -/
theorem State.flowWaits_behind {s : State} {q r : Req} (hcore : r.atCore = false) (hq : q.atCore = false) (hmem : q ∈ s.reqs)
    (horder : q.order < r.order) (hflow : s.sameFlow q r = true) (hfill : q.waitingFill = false) (hhops : q.hops ≠ [])
    (hbehind : r.hops.length ≤ q.hops.length) : s.flowWaits r = true := by
  simp only [State.flowWaits, hcore, Bool.not_false, Bool.true_and, List.any_eq_true]
  exact ⟨q, hmem, by simp [horder, hflow, hq, hfill, hhops, hbehind]⟩

theorem flowsKeepOrder_holds : flowsKeepOrder := by
  intro s q r h rest hr hhops hrcore hqcore hmem horder hperf hcore hfill hne hhome hclass hlen hawake
  have hflow : s.sameFlow q r = true := by simp [State.sameFlow, hperf, hcore, hcore ▸ hhome, hclass]
  have hwaits := State.flowWaits_behind hrcore hqcore hmem horder hflow hfill hne hlen
  refine ⟨fun e => ?_, fun hsubject => ?_⟩
  · by_cases hedge : ∀ d p, h ≠ .edge d p
    · rw [ringFlitArrival_eq hr hhops hedge, if_neg (by simp [hawake]), if_pos (by simp [hwaits])]
    · push Not at hedge
      obtain ⟨d, p, rfl⟩ := hedge
      show execRingFlitArrival r.id e s = _
      simp only [execRingFlitArrival, hr, hhops]
  · rw [← hsubject] at hr
    cases h with
    | edge d p =>
      cases hdie : s.dies[d]? with
      | none =>
        show execEdgeFlitIngress s = _
        simp only [execEdgeFlitIngress, hr, hhops, hdie]
      | some die => rw [edgeFlitIngress_eq hr hhops hdie, if_neg (by simp [hawake]), if_pos (by simp [hwaits])]
    | _ =>
      show execEdgeFlitIngress s = _
      simp only [execEdgeFlitIngress, hr, hhops]

/-! ### Edges -/

theorem edgesCross_holds : edgesCross := by
  intro s r d p rest die hr hhops hdie
  have heq := edgeFlitIngress_eq hr hhops hdie
  refine ⟨fun hasleep => ?_, fun hawake hwaits => ?_, fun hawake hwaking hflow => ?_⟩
  · rw [heq, if_pos hasleep]
    exact ⟨_, rfl, routersOnly_wake s _, (s.wake_reqs_ops _).1, State.wake_woken hasleep⟩
  · rw [heq, if_neg (by simp [hawake]), if_pos (by simpa using hwaits)]
  · rw [if_neg (by simp [hawake]), if_neg (by simp [hwaking, hflow])] at heq
    refine ⟨fun hcur hlive => ?_, fun hcur hdead => ?_, fun hcur => ?_⟩
    · rw [heq, if_neg (not_not.mpr hcur), if_neg (not_not.mpr hlive)]
      exact ⟨_, rfl, s.hop_flitOn r _ rest⟩
    · rw [heq, if_neg (not_not.mpr hcur), if_pos hdead]
    · rw [heq, if_pos hcur]
      rfl

/-! ### Power, page walks and acknowledgements -/

/-- A translation enters its bank unless the bank holds it already (R342). -/
theorem State.cacheEntry_eq (s : State) (die bank ctx page size : Nat) (leaf : Word64) :
    s.cacheEntry die bank ctx page size leaf = s.modDie die fun d =>
      if ∃ e ∈ d.tlb, e.bank = bank ∧ e.ctx = ctx ∧ e.page = page then d
      else { d with tlb := ⟨bank, ctx, page, size, leaf⟩ :: (d.tlb.filter fun e => e.bank = bank).take 4095 ++
        d.tlb.filter fun e => e.bank ≠ bank } := by
  have hany (d : Die) : (d.tlb.any fun e => e.bank = bank && e.ctx = ctx && e.page = page) = true ↔
      ∃ e ∈ d.tlb, e.bank = bank ∧ e.ctx = ctx ∧ e.page = page := by simp [and_assoc]
  simp only [State.cacheEntry, hany]

theorem networkSettles_holds : networkSettles := by
  intro s
  refine ⟨⟨fun hneeded => ?_, fun hfree => ?_, rfl⟩, fun die ctx page d pa leaf base size hd hlive htrans => ?_, fun r hr hperf hfill hhops hwrite => ?_⟩
  · show execRouterPowerDown s = _
    exact if_pos (by simpa using hneeded)
  · show execRouterPowerDown s = _
    unfold execRouterPowerDown
    rw [if_neg (by simpa using hfree)]
    simp
  · show execPageWalkComplete die ctx page s = _
    simp only [execPageWalkComplete, hd, hlive, if_true, State.cacheTrans, List.foldl_cons, List.foldl_nil, htrans, State.cacheEntry_eq]
    rfl
  · refine ⟨_, ?_, ?_, State.mem_pruneReqs_map (u := s.modReq r.id fun q => { q with acked := true }) rfl rfl⟩
    · show execWriteAcknowledge s = _
      simp only [execWriteAcknowledge, hr, hperf, hfill, hhops, hwrite, Bool.not_false, decide_true, Bool.and_self, if_true]
    · rfl

/-- Settles O41: flits move hop by hop in the order of their flow, edges drop stale ones, and routers, walks and acknowledgements settle. -/
theorem flitsTravel : Obligations.FlitsTravel := ⟨flitsMove_holds, flowsKeepOrder_holds, edgesCross_holds, networkSettles_holds⟩

end Sys2Proof.Machine
end

section
/-!
Bank switches, FIFO words that issue again, and spawned billets that arrive (R197, R198, R300, R303).
-/
namespace Sys2Proof.Machine

/-! ### Banks while a stop is taken -/

/-- Teams may have changed, but not their banks. -/
def State.keepsBanks (s u : State) : Prop := ∀ t : Nat, (u.teams[t]?).map Team.banks = (s.teams[t]?).map Team.banks

theorem State.keepsBanks_refl (s : State) : s.keepsBanks s := fun _ => rfl

theorem State.keepsBanks.trans {s t u : State} (h : s.keepsBanks t) (k : t.keepsBanks u) : s.keepsBanks u :=
  fun n => (k n).trans (h n)

theorem State.keepsBanks_foldl {α : Type} {f : State → α → State} (hf : ∀ (s : State) a, s.keepsBanks (f s a)) (as : List α) (s : State) :
    s.keepsBanks (as.foldl f s) := by
  induction as generalizing s with
  | nil => exact s.keepsBanks_refl
  | cons a as ih => exact (hf s a).trans (ih _)

theorem State.keepsBanks_of_teams {s u : State} (h : u.teams = s.teams) : s.keepsBanks u := fun t => by rw [h]

theorem State.keepsBanks_mapIdx (s : State) (f : Nat → Team → Team) (hf : ∀ t tm, (f t tm).banks = tm.banks) :
    s.keepsBanks { s with teams := s.teams.mapIdx f } := by
  intro t
  simp only [List.getElem?_mapIdx]
  cases s.teams[t]? with
  | none => rfl
  | some tm => simp [hf]

theorem State.keepsBanks_modGroup (s : State) (t gi : Nat) (f : Group → Group) : s.keepsBanks (s.modGroup t gi f) := by
  intro n
  simp only [State.modGroup, State.modTeam, getElem?_modAt]
  split
  · cases s.teams[n]? <;> rfl
  · rfl

theorem State.keepsBanks_undrain (s : State) (t : Nat) : s.keepsBanks (s.undrain t) := by
  unfold State.undrain
  split
  · exact s.keepsBanks_refl
  · split
    · exact s.keepsBanks_refl
    · exact s.keepsBanks_mapIdx _ fun u o => by split <;> rfl

theorem State.keepsBanks_switchOutCore (s : State) (core : Nat) : s.keepsBanks (s.switchOutCore core) :=
  s.keepsBanks_mapIdx _ fun t tm => by split <;> rfl

theorem State.keepsBanks_takeStop (s : State) (t gi cause pos detail : Nat) (wait : BitVec 12) (mask : BitVec 32) (addr : Nat) :
    s.keepsBanks (s.takeStop t gi cause pos detail wait mask addr) := by
  have hstopped := s.keepsBanks_modGroup t gi fun g => stopGroup g cause pos detail wait mask addr
  have hqueued : s.keepsBanks ((s.modGroup t gi fun g => stopGroup g cause pos detail wait mask addr).modCluster
      (((s.teams[t]?).map Team.core).getD 0 / 8) fun c => { c with stops := c.stops ++ [⟨t, gi, cause⟩] }) :=
    hstopped.trans (State.keepsBanks_of_teams rfl)
  unfold State.takeStop
  dsimp only
  split
  · exact hqueued.trans ((State.keepsBanks_undrain _ _).trans (State.keepsBanks_switchOutCore _ _))
  · exact hqueued.trans (State.keepsBanks_undrain _ _)

/-- The groups that still wait at a bank stop; no bank changes (R198). -/
theorem State.keepsBanks_fifoStops (s : State) (t bank : Nat) : s.keepsBanks (s.fifoStops t bank) := by
  refine State.keepsBanks_foldl (fun s gi => ?_) _ s
  split
  · split
    · exact s.keepsBanks_takeStop _ _ _ _ _ _ _ _
    · exact s.keepsBanks_refl
  · exact s.keepsBanks_refl

/-! ### Updates queued for subscribers -/

/-- Two parts that differ at most in queued updates. -/
def State.updatesOnly (s u : State) : Prop := { u with updates := s.updates, nextId := s.nextId } = s

theorem State.updatesOnly.trans {s t u : State} (h : s.updatesOnly t) (k : t.updatesOnly u) : s.updatesOnly u := by
  unfold State.updatesOnly at *
  rw [← h, ← k]

theorem State.updatesOnly_foldl {α : Type} {f : State → α → State} (hf : ∀ (s : State) a, s.updatesOnly (f s a)) (as : List α) (s : State) :
    s.updatesOnly (as.foldl f s) := by
  induction as generalizing s with
  | nil => rfl
  | cons a as ih => exact (hf s a).trans (ih _)

theorem State.updatesOnly_queueUpdate (s : State) (b : Subscription) (t : Nat) (gs : List Nat) (w : SubWrite) :
    s.updatesOnly (s.queueUpdate b t gs w) := by
  unfold State.queueUpdate
  dsimp only
  split <;> rfl

theorem State.updatesOnly_publish (s : State) (t : Nat) (gs : List Nat) (a : Nat) (bs : List Byte) : s.updatesOnly (s.publish t gs a bs) :=
  State.updatesOnly_foldl (fun s _ => State.updatesOnly_foldl (fun s _ => s.updatesOnly_queueUpdate ..) _ s) _ s

theorem State.updatesOnly.teams {s u : State} (h : s.updatesOnly u) : u.teams = s.teams := (congrArg State.teams h :)

/-! ### Bank switches -/

/-- The bank that switches holds nothing in its new mode; no other bank of its team changes (R198). -/
theorem State.switchBank_banks (s : State) (o : Op) (bank : Nat) (mode : BankMode) :
    (((s.switchBank o bank mode).teams[issuerTeam o.issuer]?).map Team.banks) =
      (s.teams[issuerTeam o.issuer]?).map fun tm => modAt tm.banks bank fun _ => ⟨mode, [], []⟩ := by
  let s0 := if mode = .fifo then s else s.fifoStops (issuerTeam o.issuer) bank
  let s1 := s0.modTeam (issuerTeam o.issuer) fun tm => { tm with banks := modAt tm.banks bank fun _ => ⟨mode, [], []⟩ }
  have hstops : s.keepsBanks s0 := by
    dsimp only [s0]
    split
    · exact s.keepsBanks_refl
    · exact s.keepsBanks_fifoStops _ _
  let s2 := if s.subs.any fun b => b.publisher = issuerTeam o.issuer then
    s1.publish (issuerTeam o.issuer) [issuerGroup o.issuer] (32768 * bank) (List.replicate 32768 0) else s1
  have hpublished : s2.teams = s1.teams := by
    dsimp only [s2]
    split
    · exact (s1.updatesOnly_publish ..).teams
    · rfl
  have hrest : s1.keepsBanks (s.switchBank o bank mode) := by
    have hswitch : s.switchBank o bank mode = if s2.l1Ways (s.coreOf o.issuer) = 0 then s2.l1DropCore (s.coreOf o.issuer) else s2 := rfl
    rw [hswitch]
    split <;> exact State.keepsBanks_of_teams hpublished
  have hat : ∀ x : State, (x.teams[issuerTeam o.issuer]?).map (fun tm => modAt tm.banks bank fun _ => (⟨mode, [], []⟩ : Bank)) =
      ((x.teams[issuerTeam o.issuer]?).map Team.banks).map fun bs => modAt bs bank fun _ => ⟨mode, [], []⟩ := by
    intro x
    rw [Option.map_map]
    rfl
  rw [hrest, hat, ← hstops, Option.map_map]
  simp only [s1, State.modTeam, getElem?_modAt, if_true, Option.map_map]
  rfl

/-! ### FIFO words that issue again -/

/-- A checked word goes on where its own work does. -/
theorem State.issueWord_goes {s : State} {h : Head} {check : Group → WordCheck} {go : Group → Out} {g : Group}
    (hu : s.unitOf s.issuer = some g) (hgo : ∃ u, go g = .next u) : ∃ u, s.issueWord h check go = .next u := by
  unfold State.issueWord
  rw [hu]
  dsimp only
  split
  · exact hgo
  · split
    · exact ⟨_, rfl⟩
    · exact hgo

theorem fifoPushGo_goes {s : State} {tm : Team} (htm : s.teams[s.viewTeam s.issuer]? = some tm) (w : MemW) (g : Group) :
    ∃ u, fifoPushGo w s g = .next u := by
  unfold fifoPushGo
  simp only [htm]
  repeat' split
  all_goals exact ⟨_, rfl⟩

theorem fifoPopGo_goes {s : State} {tm : Team} (htm : s.teams[s.viewTeam s.issuer]? = some tm) (w : MemW) (g : Group) :
    ∃ u, fifoPopGo w s g = .next u := by
  unfold fifoPopGo
  simp only [htm]
  repeat' split
  all_goals exact ⟨_, rfl⟩

/-- A group belongs to a team. -/
theorem State.team_of_group {s : State} {t gi : Nat} {g : Group} (h : s.group? t gi = some g) : ∃ tm, s.teams[t]? = some tm := by
  unfold State.group? at h
  cases htm : s.teams[t]? with
  | none => simp [htm] at h
  | some tm => exact ⟨tm, rfl⟩

theorem banksChange_holds : banksChange := by
  refine fun s => ⟨fun o b m ho heffect hflight => ⟨State.completes_of_finishOp ?switch, s.switchBank_banks o b m⟩, ?again⟩
  case switch =>
    show execBankSwitchComplete s = _
    simp only [execBankSwitchComplete, ho, heffect, hflight, Bool.false_eq_true, if_false]
  case again =>
    intro t gi g w bank push since hg hhold hrun
    obtain ⟨tm, htm⟩ := State.team_of_group hg
    refine ⟨fun hword => ?push, fun hword => ?pop⟩
    case push =>
      have hexec : Sys2Proof.Machine.exec (.fifoPushPerform t gi) s = execFifopush w { s with issuer := .group t gi } := by
        show s.retryFifo t gi true = _
        simp only [State.retryFifo, hg, hhold, hrun, hword]
      exact ⟨hexec, hexec ▸ State.issueWord_goes (s := { s with issuer := .group t gi }) hg (fifoPushGo_goes htm w g)⟩
    case pop =>
      have hexec : Sys2Proof.Machine.exec (.fifoPopPerform t gi) s = execFifopop w { s with issuer := .group t gi } := by
        show s.retryFifo t gi false = _
        simp only [State.retryFifo, hg, hhold, hrun, hword]
      exact ⟨hexec, hexec ▸ State.issueWord_goes (s := { s with issuer := .group t gi }) hg (fifoPopGo_goes htm w g)⟩

/-! ### Billets -/

/-- The least number that a list leaves out, found among as many as the list can hold and one more. -/
theorem find?_least {used : List Nat} {n : Nat} (hbelow : ∀ i < n, i ∈ used) (hn : n ∉ used) :
    (List.range (used.length + 1)).find? (fun i => !used.contains i) = some n := by
  have hle : n ≤ used.length := by
    have hsub : List.range n ⊆ used := fun i hi => hbelow i (List.mem_range.mp hi)
    simpa using (List.nodup_range.subperm hsub).length_le
  rw [List.find?_range_eq_some]
  exact ⟨by simpa using hn, List.mem_range.mpr (by omega), fun j hj => by simpa using hbelow j hj⟩

theorem State.mem_overflowed {s : State} {l : Nat} {b : Billet} : b ∈ s.overflowed l ↔ ∃ c ∈ s.clusters, b ∈ c.overflow ∧ b.launch = l := by
  simp [State.overflowed, List.mem_flatMap]

theorem childrenArrive_holds : childrenArrive := by
  intro s o b c ho heffect hend hreads hpublishing k hc
  have hexec : Sys2Proof.Machine.exec .spawnComplete s =
      .next ((if c.billets.length < 256 then s.modCluster k fun c => { c with billets := c.billets ++ [b] } else s.overflow k o b).completeOp o) := by
    show execSpawnComplete s = _
    simp only [execSpawnComplete, ho, heffect, hend, hreads, hpublishing, Bool.not_true, Bool.or_self, Bool.false_eq_true, if_false]
    rw [show s.clusters[s.coreOf o.issuer / 8]? = some c from hc]
    simp [k]
  refine ⟨fun hroom => ?_, fun hfull l n hl => ?_⟩
  · rw [if_pos hroom, State.completeOp_eq] at hexec
    exact State.completes_of_finishOp hexec
  · intro used hbelow hn
    have hused (i : Nat) : i ∈ (s.overflowed b.launch).map Billet.place ↔ used i := by
      simp only [List.mem_map, State.mem_overflowed, used]
      constructor
      · rintro ⟨x, ⟨c, hc, hx, hlaunch⟩, hplace⟩
        exact ⟨c, hc, x, hx, hlaunch, hplace⟩
      · rintro ⟨c, hc, x, hx, hlaunch, hplace⟩
        exact ⟨x, ⟨c, hc, hx, hlaunch⟩, hplace⟩
    have hplace := find?_least (fun i hi => (hused i).mpr (hbelow i hi)) (mt (hused n).mp hn)
    rw [if_neg (Nat.not_lt.mpr hfull), State.completeOp_eq, State.overflow] at hexec
    simp only [hplace, Option.getD_some, hl, Option.map_some, field_zero] at hexec
    exact State.completes_of_finishOp hexec

/-- Settles O33: a bank switches empty once nothing earlier reaches it, a waiting FIFO word issues again, and a billet enters its cluster's
queue or the lowest free place of the overflow area. -/
theorem banksAndChildrenArrive : Obligations.BanksAndChildrenArrive := ⟨banksChange_holds, childrenArrive_holds⟩

end Sys2Proof.Machine
end

section
/-!
A home slice, line by line: what a fill and a write leave of every byte, of the write counts, and of the other lines (R333, R334, R339-R341).
-/
namespace Sys2Proof.Machine

/-! ### Addresses within a line -/

/-- Neighbours within a line stay neighbours when the window is taken off their addresses (R410). -/
theorem canonPa_add_line {pa i : Nat} (h : pa % 128 + i < 128) : canonPa (pa + i) = canonPa pa + i := by
  by_cases hw : 0x4000000000 ≤ pa ∧ pa < 0x5800000000
  · have hpage : (pa + i - 0x4000000000) / 4096 = (pa - 0x4000000000) / 4096 := by omega
    rw [canonPa_window hw, canonPa_window (by omega), hpage]
    omega
  · rw [canonPa_outside hw, canonPa_outside (by omega)]

theorem canonPa_mod_line (pa : Nat) : canonPa pa % 128 = pa % 128 := by
  by_cases hw : 0x4000000000 ≤ pa ∧ pa < 0x5800000000
  · rw [canonPa_window hw]; omega
  · rw [canonPa_outside hw]

/-! ### The line that a change finds -/

/-- The line of an address is none that an ended context has left, unless that is whose request comes for it (R408). -/
def State.liveLine (s : State) (a key : Nat) : Prop := ∀ l, s.line? a = some l → l.key = endedKey → key = endedKey

/-- The resident line of an address, or a fresh one. -/
def State.lineOr (s : State) (a key : Nat) (classA : Bool) : Line := (s.line? a).getD (Line.fresh a key classA)

section
variable {s : State} {a key : Nat}

theorem State.withoutEnded_live (h : s.liveLine a key) : s.withoutEnded a key = s := by
  unfold State.withoutEnded
  split
  next l hl =>
    rw [if_neg]
    intro hended
    simp only [Bool.and_eq_true, decide_eq_true_eq] at hended
    exact hended.2 (h l hl hended.1)
  next => rfl

theorem State.lineOr_addr (classA : Bool) : (s.lineOr a key classA).addr = a := by
  unfold State.lineOr
  cases hl : s.line? a with
  | none => rfl
  | some l => exact State.line?_addr hl

theorem State.lineOr_live (h : s.liveLine a key) (classA : Bool) : (s.lineOr a key classA).key = endedKey → key = endedKey := by
  unfold State.lineOr
  cases hl : s.line? a with
  | none => exact id
  | some l => exact h l hl

theorem State.line?_withLine_eq (classA : Bool) : (s.withLine a key classA).line? a = some (s.lineOr a key classA) := by
  unfold State.withLine State.lineOr
  cases hl : s.line? a with
  | some l => exact hl
  | none =>
    have hroom : (s.makeRoom a classA).lines.find? (fun x => decide (x.addr = a)) = none := State.line?_makeRoom classA hl
    simp [State.line?, List.find?_append, hroom, Line.fresh]

/-- A changed line, where none of an ended context is in the way. -/
theorem State.line?_modLine_live (h : s.liveLine a key) (classA : Bool) {f : Line → Line} (hf : ∀ l, (f l).addr = l.addr) :
    (s.modLine a key classA f).line? a = some (f (s.lineOr a key classA)) := by
  rw [State.modLine_eq, State.withoutEnded_live h, State.line?_fitEntries, State.line?_mapLine hf (State.line?_withLine_eq classA)]

/-! ### Lines that need not make room -/

/-- The lines of a slice. -/
def State.sliceLines (s : State) (a : Nat) : List Line := s.lines.filter fun l => sameSlice l.addr a

/-- No line has to make room for a change to a line (R334). -/
def State.fits (s : State) (a : Nat) : Prop :=
  (s.line? a = none → (s.setLines a).length < 12 ∧ (s.sliceLines a).length < 16384) ∧ (s.sliceLines a).length ≤ 16384

theorem State.fits_of_roomAt (h : s.roomAt a) : s.fits a := by
  obtain ⟨hset, hslice⟩ := h
  refine ⟨fun hnone => ⟨?_, hslice⟩, Nat.le_of_lt hslice⟩
  rcases hset with hres | hset
  · simp only [State.line?, List.find?_eq_none, decide_eq_true_eq] at hnone
    simp only [List.any_eq_true, decide_eq_true_eq] at hres
    obtain ⟨l, hl, haddr⟩ := hres
    exact absurd haddr (hnone l hl)
  · exact hset

theorem State.makeRoom_few (classA : Bool) (h : (s.setLines a).length < 12) : s.makeRoom a classA = s := by
  have hclassB : ((s.setLines a).filter fun l => !l.classA).length < 12 := Nat.lt_of_le_of_lt (List.length_filter_le _ _) h
  unfold State.makeRoom
  dsimp only
  split
  · rfl
  · rw [if_neg (by simp; omega), if_neg (by omega)]
    rfl

theorem State.withLine_fits (h : s.fits a) (classA : Bool) : (s.withLine a key classA).mem = s.mem ∧
    (s.withLine a key classA).lineKeys = s.lineKeys ∧ (∀ c, c ≠ a → (s.withLine a key classA).line? c = s.line? c) ∧
    ((s.withLine a key classA).sliceLines a).length ≤ 16384 := by
  obtain ⟨hnone, hslice⟩ := h
  unfold State.withLine
  cases hl : s.line? a with
  | some l => exact ⟨rfl, rfl, fun _ _ => rfl, hslice⟩
  | none =>
    obtain ⟨hset, hroom⟩ := hnone hl
    dsimp only
    rw [State.makeRoom_few classA hset]
    refine ⟨rfl, rfl, fun c hc => ?_, ?_⟩
    · have hfresh : ¬ a = c := fun h => hc h.symm
      simp [State.line?, List.find?_append, Line.fresh, hfresh]
    · have hmine : sameSlice a a = true := by simp [sameSlice]
      simp only [State.sliceLines, List.filter_append, List.length_append] at hroom ⊢
      simp only [Line.fresh, List.filter_cons, hmine, if_true, List.filter_nil, List.length_singleton]
      omega

theorem State.mapLine_line?_other {f : Line → Line} (hf : ∀ l, (f l).addr = l.addr) {c : Nat} (hc : c ≠ a) :
    (s.mapLine a f).line? c = s.line? c := by
  have hp : (fun x : Line => decide (x.addr = c)) ∘ (fun x => if x.addr = a then f x else x) = fun x => decide (x.addr = c) := by
    funext x
    by_cases hx : x.addr = a <;> simp [hx, hf]
  simp only [State.line?, State.mapLine, List.find?_map, hp]
  cases hl : s.lines.find? (fun x => decide (x.addr = c)) with
  | none => rfl
  | some l =>
    have haddr : l.addr = c := State.line?_addr (s := s) hl
    simp [haddr, hc]

theorem State.mapLine_sliceLines {f : Line → Line} (hf : ∀ l, (f l).addr = l.addr) (c : Nat) :
    ((s.mapLine a f).sliceLines c).length = (s.sliceLines c).length := by
  have hp : (fun x : Line => sameSlice x.addr c) ∘ (fun x => if x.addr = a then f x else x) = fun x => sameSlice x.addr c := by
    funext x
    by_cases hx : x.addr = a <;> simp [hx, hf]
  simp only [State.sliceLines, State.mapLine, List.filter_map, hp, List.length_map]

theorem entryHalves_le (t : TagState) : entryHalves t ≤ 2 := by cases t <;> decide

/-- As many lines as a slice has data entries need no other's (R334). -/
theorem State.fitEntries_few (h : (s.sliceLines a).length ≤ 16384) (n : Nat) : s.fitEntries a n = s := by
  have hhalves : s.halvesUsed a ≤ 32768 := by
    have hsum := List.sum_le_card_nsmul ((s.sliceLines a).map fun l => entryHalves l.state) 2 fun x hx => by
      obtain ⟨l, -, rfl⟩ := List.mem_map.mp hx
      exact entryHalves_le _
    simp only [List.length_map, smul_eq_mul] at hsum
    unfold State.halvesUsed
    exact hsum.trans (by omega)
  cases n with
  | zero => rfl
  | succ n => rw [State.fitEntries, if_pos hhalves]

/-- A change that needs no room leaves every other line and memory as they were. -/
theorem State.modLine_fits (hlive : s.liveLine a key) (h : s.fits a) (classA : Bool) {f : Line → Line} (hf : ∀ l, (f l).addr = l.addr) :
    (s.modLine a key classA f).mem = s.mem ∧ (s.modLine a key classA f).lineKeys = s.lineKeys ∧
    (∀ c, c ≠ a → (s.modLine a key classA f).line? c = s.line? c) ∧ (s.modLine a key classA f).fits a := by
  obtain ⟨hmem, hkeys, hothers, hslice⟩ := State.withLine_fits (key := key) h classA
  have hfew : (((s.withLine a key classA).mapLine a f).sliceLines a).length ≤ 16384 := by rwa [State.mapLine_sliceLines hf]
  have hline := State.line?_modLine_live hlive classA hf
  have hmod : s.modLine a key classA f = (s.withLine a key classA).mapLine a f := by
    rw [State.modLine_eq, State.withoutEnded_live hlive, State.fitEntries_few hfew]
  refine ⟨?_, ?_, fun c hc => ?_, fun hnone => ?_, ?_⟩
  · rw [hmod]; exact hmem
  · rw [hmod]; exact hkeys
  · rw [hmod, State.mapLine_line?_other hf hc, hothers c hc]
  · rw [hline] at hnone
    cases hnone
  · rw [hmod]; exact hfew

end

/-! ### Bytes at home -/

theorem State.memByte_congr {s u : State} (hmem : u.mem = s.mem) (hkeys : u.lineKeys = s.lineKeys) (key a : Nat) :
    u.memByte key a = s.memByte key a := by
  simp only [State.memByte, hmem, hkeys]

theorem State.lineByte_congr {s u : State} (hmem : u.mem = s.mem) (hkeys : u.lineKeys = s.lineKeys) (key : Nat) (l : Line) (i : Nat) :
    u.lineByte key l i = s.lineByte key l i := by
  simp only [State.lineByte, State.memByte_congr hmem hkeys]

/-- A byte whose line, and whose memory, are as they were. -/
theorem State.homeByte_same_line {s u : State} {b : Nat} (hmem : u.mem = s.mem) (hkeys : u.lineKeys = s.lineKeys)
    (hline : u.line? (b / 128) = s.line? (b / 128)) (key : Nat) : u.homeByte key b = s.homeByte key b := by
  simp only [State.homeByte, hline, State.lineByte_congr hmem hkeys, State.memByte_congr hmem hkeys]

/-- The byte of a line in no ended context's name. -/
theorem State.lineByte_live (s : State) {key : Nat} {l : Line} (h : l.key = endedKey → key = endedKey) (i : Nat) :
    s.lineByte key l i = if l.valid.getLsbD i then Cells.get 0 l.data i else if l.filling then l.fillData.getD i 0
      else s.memByte key (128 * l.addr + i) := by
  unfold State.lineByte
  rw [if_neg]
  intro hended
  simp only [Bool.and_eq_true, decide_eq_true_eq] at hended
  exact hended.2 (h hended.1.1)

/-- A byte is that of its line, or of the fresh one. -/
theorem State.homeByte_lineOr (s : State) (key b : Nat) (classA : Bool) :
    s.homeByte key b = s.lineByte key (s.lineOr (b / 128) key classA) (b % 128) := by
  unfold State.homeByte State.lineOr
  cases s.line? (b / 128) with
  | some l => rfl
  | none =>
    have haddr : 128 * (b / 128) + b % 128 = b := by omega
    rw [Option.getD_none, s.lineByte_live (key := key) (l := Line.fresh (b / 128) key classA) id]
    simp [Line.fresh, haddr]

/-! ### Fills -/

/-- A line with a fill pending. -/
def Line.awaiting (bytes : List Byte) (l : Line) : Line := { l with filling := true, fillData := bytes }
def State.fillBytes (s : State) (key a : Nat) : List Byte := (List.range 128).map fun i => s.memByte key (128 * a + i)

theorem State.fillLine_eq (s : State) (ctx pa : Nat) (leaf : Word64) : s.fillLine ctx pa leaf =
    if (s.line? (lineOf pa)).any Line.filling then s
    else s.modLine (lineOf pa) (keySlot ctx leaf) (leaf.getLsbD 6) (Line.awaiting (s.fillBytes (keySlot ctx leaf) (lineOf pa))) := rfl

section
variable {s : State} {ctx pa : Nat} {leaf : Word64}

theorem State.fillLine_homesOnly : s.homesOnly (s.fillLine ctx pa leaf) := by
  rw [State.fillLine_eq]
  split
  · rfl
  · exact s.modLine_homesOnly ..

/-- A fill started: its line is resident with the fill pending, of the same count, and holds what memory has. -/
theorem State.fillLine_line? (hlive : s.liveLine (lineOf pa) (keySlot ctx leaf)) : ∃ l, (s.fillLine ctx pa leaf).line? (lineOf pa) = some l ∧
    l.filling = true ∧ (l.key = endedKey → keySlot ctx leaf = endedKey) ∧ l.count = ((s.line? (lineOf pa)).map Line.count).getD 0 ∧
    (s.line? (lineOf pa) = none → l.fillData = s.fillBytes (keySlot ctx leaf) (lineOf pa)) := by
  rw [State.fillLine_eq]
  split
  next hfilling =>
    obtain ⟨l, hl, hfill⟩ : ∃ l, s.line? (lineOf pa) = some l ∧ l.filling = true := by
      cases hl : s.line? (lineOf pa) with
      | none => simp [hl] at hfilling
      | some l => exact ⟨l, rfl, by simpa [hl] using hfilling⟩
    exact ⟨l, hl, hfill, hlive l hl, by rw [hl]; rfl, fun hnone => by rw [hl] at hnone; cases hnone⟩
  next =>
    refine ⟨_, State.line?_modLine_live hlive _ fun _ => rfl, rfl, State.lineOr_live hlive (leaf.getLsbD 6), ?_, fun _ => rfl⟩
    simp only [Line.awaiting, State.lineOr]
    cases s.line? (lineOf pa) <;> rfl

theorem State.fillLine_live (hlive : s.liveLine (lineOf pa) (keySlot ctx leaf)) :
    (s.fillLine ctx pa leaf).liveLine (lineOf pa) (keySlot ctx leaf) := by
  obtain ⟨l, hl, -, hkey, -⟩ := State.fillLine_line? hlive
  intro x hx
  rw [hl] at hx
  cases hx
  exact hkey

/-- A fill brings the bytes that memory has: no byte of its line reads otherwise (R339). -/
theorem State.homeByte_fillLine (hlive : s.liveLine (lineOf pa) (keySlot ctx leaf)) {b : Nat} (hb : b / 128 = lineOf pa) :
    (s.fillLine ctx pa leaf).homeByte (keySlot ctx leaf) b = s.homeByte (keySlot ctx leaf) b := by
  rw [State.fillLine_eq]
  split
  next => rfl
  next hnew =>
    have hline := State.line?_modLine_live (f := Line.awaiting (s.fillBytes (keySlot ctx leaf) (lineOf pa))) hlive (leaf.getLsbD 6) fun _ => rfl
    have hkey := State.lineOr_live hlive (leaf.getLsbD 6)
    have haddr := State.lineOr_addr (s := s) (a := lineOf pa) (key := keySlot ctx leaf) (leaf.getLsbD 6)
    have hidle : (s.lineOr (lineOf pa) (keySlot ctx leaf) (leaf.getLsbD 6)).filling = false := by
      unfold State.lineOr
      cases hl : s.line? (lineOf pa) with
      | none => rfl
      | some l => simpa [hl] using hnew
    have hbyte : (s.fillBytes (keySlot ctx leaf) (lineOf pa)).getD (b % 128) 0 = s.memByte (keySlot ctx leaf) (128 * lineOf pa + b % 128) := by
      have hlt : b % 128 < 128 := Nat.mod_lt _ (by decide)
      simp [State.fillBytes, List.getD_eq_getElem?_getD, hlt]
    rw [State.homeByte_lineOr s _ b (leaf.getLsbD 6), hb, State.lineByte_live s hkey]
    simp only [State.homeByte, hb, hline]
    rw [State.lineByte_live _ (l := Line.awaiting _ _) hkey]
    simp only [Line.awaiting, hidle, hbyte, haddr, if_true, Bool.false_eq_true, if_false]

/-- A fill that needs no room changes no byte (R334, R339). -/
theorem State.fillLine_fits (hlive : s.liveLine (lineOf pa) (keySlot ctx leaf)) (h : s.fits (lineOf pa)) :
    (s.fillLine ctx pa leaf).mem = s.mem ∧ (s.fillLine ctx pa leaf).fits (lineOf pa) ∧
    ∀ b, (s.fillLine ctx pa leaf).homeByte (keySlot ctx leaf) b = s.homeByte (keySlot ctx leaf) b := by
  have hown (b : Nat) (hb : b / 128 = lineOf pa) := State.homeByte_fillLine hlive hb
  rw [State.fillLine_eq] at hown ⊢
  split
  next => exact ⟨rfl, h, fun _ => rfl⟩
  next hnew =>
    rw [if_neg hnew] at hown
    obtain ⟨hmem, hkeys, hothers, hfits⟩ :=
      State.modLine_fits (f := Line.awaiting (s.fillBytes (keySlot ctx leaf) (lineOf pa))) hlive h (leaf.getLsbD 6) fun _ => rfl
    refine ⟨hmem, hfits, fun b => ?_⟩
    by_cases hb : b / 128 = lineOf pa
    · exact hown b hb
    · exact State.homeByte_same_line hmem hkeys (hothers _ hb) _

end

end Sys2Proof.Machine
end

section
/-!
Writes at home: a request within one line, a task's write set, and what lies beyond the endpoint (R338, R341, R419, R420, R426, R458).
-/
namespace Sys2Proof.Machine

/-! ### What a write at home may change -/

/-- Two parts that differ at most in their home slices, the memory behind these, undo records and what comes of those. -/
def State.storedOnly (s t : State) : Prop :=
  { t with lines := s.lines, mem := s.mem, lineKeys := s.lineKeys, dies := s.dies, contexts := s.contexts } = s

theorem State.storedOnly.trans {s t u : State} (h : s.storedOnly t) (k : t.storedOnly u) : s.storedOnly u := by
  unfold State.storedOnly at *
  rw [← h, ← k]

theorem State.homesOnly.stored {s t : State} (h : s.homesOnly t) : s.storedOnly t := by
  unfold State.homesOnly at h
  unfold State.storedOnly
  rw [← h]

section
variable {s t : State} (h : s.storedOnly t)
include h

theorem State.storedOnly.teams : t.teams = s.teams := (congrArg State.teams h :)
theorem State.storedOnly.hostMem : t.hostMem = s.hostMem := (congrArg State.hostMem h :)
theorem State.storedOnly.reqs : t.reqs = s.reqs := (congrArg State.reqs h :)
theorem State.storedOnly.ops : t.ops = s.ops := (congrArg State.ops h :)
theorem State.storedOnly.nextId : t.nextId = s.nextId := (congrArg State.nextId h :)
theorem State.storedOnly.tdie : t.tdie = s.tdie := (congrArg State.tdie h :)
theorem State.storedOnly.launches : t.launches = s.launches := (congrArg State.launches h :)
theorem State.storedOnly.clusters : t.clusters = s.clusters := (congrArg State.clusters h :)

end

/-- An undo record taken leaves the slices and memory as they were (R426). -/
theorem State.takeUndo_frame (s : State) (ctx line : Nat) :
    { s.takeUndo ctx line with dies := s.dies, contexts := s.contexts } = s := by
  have hdue (x : State) (hx : { x with dies := s.dies, contexts := s.contexts } = s) :
      { x.dueByUndo with dies := s.dies, contexts := s.contexts } = s := by
    unfold State.dueByUndo
    split <;> exact hx
  unfold State.takeUndo
  dsimp only
  split
  · split
    · rfl
    · split
      · exact hdue _ rfl
      · exact hdue _ rfl
  · rfl

theorem State.takeUndo_home (s : State) (ctx line : Nat) : (s.takeUndo ctx line).lines = s.lines ∧ (s.takeUndo ctx line).mem = s.mem ∧
    (s.takeUndo ctx line).lineKeys = s.lineKeys := by
  have hundo := s.takeUndo_frame ctx line
  exact ⟨(congrArg State.lines hundo :), (congrArg State.mem hundo :), (congrArg State.lineKeys hundo :)⟩

theorem State.takeUndo_storedOnly (s : State) (ctx line : Nat) : s.storedOnly (s.takeUndo ctx line) := by
  obtain ⟨hlines, hmem, hkeys⟩ := s.takeUndo_home ctx line
  unfold State.storedOnly
  rw [← hlines, ← hmem, ← hkeys]
  exact s.takeUndo_frame ctx line

theorem State.sliceWrite_storedOnly (s : State) (ctx key pa : Nat) (classA undo : Bool) (adds : Nat) (bs : List Byte) :
    s.storedOnly (s.sliceWrite ctx key pa classA undo adds bs) := by
  unfold State.sliceWrite
  split
  · rfl
  · refine State.storedOnly.trans (t := if undo then s.takeUndo ctx (canonPa pa / 128) else s) ?_ (State.modLine_homesOnly ..).stored
    split
    · exact s.takeUndo_storedOnly ..
    · rfl

/-! ### A line after a write -/

theorem getLsbD_writtenMask_other {off i : Nat} (n : Nat) (hi : i < off ∨ off + n ≤ i) :
    ((List.range n).foldl (fun (m : BitVec 128) i => m ||| ((1 : BitVec 128) <<< (off + i))) 0).getLsbD i = false := by
  induction n with
  | zero => simp
  | succ n ih =>
    have hne : i ≠ off + n := by omega
    simp only [List.range_succ, List.foldl_append, List.foldl_cons, List.foldl_nil, BitVec.getLsbD_or, ih (by omega), Bool.false_or]
    simp only [BitVec.getLsbD_shiftLeft]
    simp
    omega

theorem get_putRow_other (c : Cells Byte) (bs : List Byte) {off i : Nat} (n : Nat) (hi : i < off ∨ off + n ≤ i) :
    Cells.get 0 ((List.range n).foldl (fun c i => Cells.put 0 c (off + i) (bs.getD i 0)) c) i = Cells.get 0 c i := by
  induction n with
  | zero => rfl
  | succ n ih =>
    simp only [List.range_succ, List.foldl_append, List.foldl_cons, List.foldl_nil]
    rw [Cells.get_put_other _ _ (by omega), ih (by omega)]

section
variable {bs : List Byte} {off key adds : Nat} {l : Line}

theorem State.lineByte_lineWrite_own (s : State) {i : Nat} (hi : i < bs.length) (hfit : off + bs.length ≤ 128) :
    s.lineByte key (lineWrite off bs key adds l) (off + i) = bs.getD i 0 := by
  have hvalid : (lineWrite off bs key adds l).valid.getLsbD (off + i) = true := by
    simp only [lineWrite, BitVec.getLsbD_or, getLsbD_writtenMask _ hi hfit, Bool.or_true]
  rw [State.lineByte_live s (show (lineWrite off bs key adds l).key = endedKey → key = endedKey from id), if_pos hvalid]
  exact get_putRow l.data bs _ hi

theorem State.lineByte_lineWrite_other (s : State) (hkey : l.key = endedKey → key = endedKey) {i : Nat} (hi : i < off ∨ off + bs.length ≤ i) :
    s.lineByte key (lineWrite off bs key adds l) i = s.lineByte key l i := by
  have hvalid : (lineWrite off bs key adds l).valid.getLsbD i = l.valid.getLsbD i := by
    simp only [lineWrite, BitVec.getLsbD_or, getLsbD_writtenMask_other _ hi, Bool.or_false]
  have hdata : Cells.get 0 (lineWrite off bs key adds l).data i = Cells.get 0 l.data i := get_putRow_other l.data bs _ hi
  rw [State.lineByte_live s (show (lineWrite off bs key adds l).key = endedKey → key = endedKey from id), State.lineByte_live s hkey, hvalid, hdata]
  rfl

end

/-! ### A write within one line -/

/-- What a write within a line leaves at home: its bytes, under the next count; and, where nothing makes room, every other byte as
it was (R338, R341). -/
def State.linePut (s t : State) (key pa adds : Nat) (bs : List Byte) : Prop :=
  (∀ i, i < bs.length → t.homeByte key (canonPa pa + i) = bs.getD i 0) ∧
  (s.fits (lineOf pa) → t.mem = s.mem ∧ ∀ b, (b < canonPa pa ∨ canonPa pa + bs.length ≤ b) → t.homeByte key b = s.homeByte key b) ∧
  ((t.line? (lineOf pa)).map Line.count).getD 0 = ((s.line? (lineOf pa)).map Line.count).getD 0 + BitVec.ofNat 16 adds

section
variable {s : State} {key pa : Nat} {bs : List Byte}

theorem State.modLine_linePut (hfit : pa % 128 + bs.length ≤ 128) (hlive : s.liveLine (lineOf pa) key) (classA : Bool)
    (adds : Nat) : s.linePut (s.modLine (lineOf pa) key classA (lineWrite (canonPa pa % 128) bs key adds)) key pa adds bs := by
  have hmod := canonPa_mod_line pa
  have hat (i : Nat) (hi : i < bs.length) : (canonPa pa + i) / 128 = lineOf pa ∧ (canonPa pa + i) % 128 = canonPa pa % 128 + i := by
    unfold lineOf
    omega
  have hf : ∀ l, (lineWrite (canonPa pa % 128) bs key adds l).addr = l.addr := fun _ => rfl
  have hline := State.line?_modLine_live hlive classA hf
  have hkey := State.lineOr_live hlive classA
  refine ⟨fun i hi => ?written, fun hfits => ?others, ?count⟩
  case written =>
    obtain ⟨hdiv, hrem⟩ := hat i hi
    simp only [State.homeByte, hdiv, hrem, hline]
    exact State.lineByte_lineWrite_own _ hi (by omega)
  case others =>
    obtain ⟨hmem, hkeys, hother, -⟩ := State.modLine_fits hlive hfits classA hf
    refine ⟨hmem, fun b hb => ?_⟩
    by_cases hown : b / 128 = lineOf pa
    · have hoff : b % 128 < canonPa pa % 128 ∨ canonPa pa % 128 + bs.length ≤ b % 128 := by
        unfold lineOf at hown
        omega
      rw [State.homeByte_lineOr s key b classA, hown]
      simp only [State.homeByte, hown, hline]
      rw [State.lineByte_lineWrite_other _ hkey hoff, State.lineByte_congr hmem hkeys]
    · exact State.homeByte_same_line hmem hkeys (hother _ hown) key
  case count =>
    rw [hline]
    simp only [Option.map_some, Option.getD_some, lineWrite, State.lineOr]
    cases s.line? (lineOf pa) <;> rfl

/-- A part with the same slices and memory takes a write alike. -/
theorem State.linePut_congr {u t : State} {adds : Nat} (hlines : u.lines = s.lines) (hmem : u.mem = s.mem) (hkeys : u.lineKeys = s.lineKeys)
    (h : u.linePut t key pa adds bs) : s.linePut t key pa adds bs := by
  have hline (a : Nat) : u.line? a = s.line? a := by rw [State.line?, hlines]; rfl
  have hfits : s.fits (lineOf pa) ↔ u.fits (lineOf pa) := by
    simp only [State.fits, hline, State.setLines, State.sliceLines, hlines]
  obtain ⟨hwritten, hothers, hcount⟩ := h
  refine ⟨hwritten, fun hs => ?_, by rw [hcount, hline]⟩
  obtain ⟨htmem, hbytes⟩ := hothers (hfits.mp hs)
  exact ⟨htmem.trans hmem, fun b hb => by rw [hbytes b hb, State.homeByte_congr hlines hmem hkeys]⟩

/-- One request within a line, at its slice (R338, R341, R426). -/
theorem State.sliceWrite_home (hne : 0 < bs.length) (hfit : pa % 128 + bs.length ≤ 128) (hlive : s.liveLine (lineOf pa) key) (ctx : Nat)
    (classA : Bool) (adds : Nat) :
    s.storedOnly (s.sliceWrite ctx key pa classA true adds bs) ∧ s.linePut (s.sliceWrite ctx key pa classA true adds bs) key pa adds bs := by
  obtain ⟨hlines, hmem, hkeys⟩ := s.takeUndo_home ctx (lineOf pa)
  have hwrite : s.sliceWrite ctx key pa classA true adds bs =
      (s.takeUndo ctx (lineOf pa)).modLine (lineOf pa) key classA (lineWrite (canonPa pa % 128) bs key adds) := by
    have hbs : bs ≠ [] := List.ne_nil_of_length_pos hne
    simp only [State.sliceWrite, if_neg hbs, if_true, lineOf]
  have hulive : (s.takeUndo ctx (lineOf pa)).liveLine (lineOf pa) key := by
    unfold State.liveLine State.line?
    rw [hlines]
    exact hlive
  refine ⟨s.sliceWrite_storedOnly .., ?_⟩
  rw [hwrite]
  exact State.linePut_congr hlines hmem hkeys (State.modLine_linePut hfit hulive classA adds)

end

/-! ### Write sets -/

theorem find?_setPut (c : Cells SetByte) (a : Nat) (v : SetByte) (x : Nat) :
    (setPut c a v).find? (fun e => e.1 = x) = if x = a then some (a, v) else c.find? fun e => e.1 = x := by
  induction c with
  | nil =>
    by_cases hx : x = a
    · simp [setPut, hx]
    · simp [setPut, hx, Ne.symm hx]
  | cons e c ih =>
    obtain ⟨k, w⟩ := e
    unfold setPut
    split
    next =>
      by_cases hx : x = a
      · simp [hx]
      · simp [hx, Ne.symm hx]
    next =>
      split
      next hk =>
        subst hk
        by_cases hx : x = a
        · simp [hx]
        · simp [hx, Ne.symm hx]
      next hk =>
        rw [List.find?_cons, List.find?_cons, ih]
        by_cases hx : x = a
        · subst hx
          simp [Ne.symm hk]
        · simp [hx]

/-- A row of bytes entered in a write set. -/
def setRow (pa : Nat) (entry : Nat → SetByte) (c : Cells SetByte) (n : Nat) : Cells SetByte :=
  (List.range n).foldl (fun c i => setPut c (canonPa (pa + i)) (entry i)) c

theorem setRow_succ (pa : Nat) (entry : Nat → SetByte) (c : Cells SetByte) (n : Nat) :
    setRow pa entry c (n + 1) = setPut (setRow pa entry c n) (canonPa (pa + n)) (entry n) := by
  simp [setRow, List.range_succ]

section
variable {pa n : Nat} (entry : Nat → SetByte) (c : Cells SetByte) (hfit : pa % 128 + n ≤ 128)
include hfit

theorem find?_setRow_written {i : Nat} (hi : i < n) :
    (setRow pa entry c n).find? (fun e => e.1 = canonPa pa + i) = some (canonPa pa + i, entry i) := by
  induction n with
  | zero => omega
  | succ n ih =>
    rw [setRow_succ, find?_setPut, canonPa_add_line (by omega)]
    by_cases hin : i = n
    · subst hin
      simp
    · rw [if_neg (by omega), ih (by omega) (by omega)]

theorem find?_setRow_other {b : Nat} (hb : b < canonPa pa ∨ canonPa pa + n ≤ b) :
    (setRow pa entry c n).find? (fun e => e.1 = b) = c.find? fun e => e.1 = b := by
  induction n with
  | zero => rfl
  | succ n ih =>
    rw [setRow_succ, find?_setPut, canonPa_add_line (by omega), if_neg (by omega), ih (by omega) (by omega)]

end

section
variable {s : State} {team key pa : Nat} {bs : List Byte} {tm : Team}

theorem State.viewByte_team {x : State} {tm : Team} (htm : x.teams[team]? = some tm) (b : Nat) : x.viewByte team key b =
    match tm.writeSet.find? fun e => e.1 = b with
    | some e => e.2.value
    | none => match tm.base.find? fun e => e.1 = b with
      | some e => e.2.value
      | none => x.homeByte key b := by
  simp only [State.viewByte, htm] <;> rfl

/-- Bytes of one request in a task's write set: its view has them, every other byte of its view is as it was, and its shadow line
counts on (R341, R420). -/
theorem State.setWrite_view (htm : s.teams[team]? = some tm) (va adds : Nat) (hfit : pa % 128 + bs.length ≤ 128) :
    let t := s.setWrite team va pa adds bs
    (∀ i, i < bs.length → t.viewByte team key (canonPa pa + i) = bs.getD i 0) ∧
    (∀ b, (b < canonPa pa ∨ canonPa pa + bs.length ≤ b) → t.viewByte team key b = s.viewByte team key b) ∧
    (t.teams[team]?.map fun x => Cells.get 0 x.shadows (lineOf pa)) = some (Cells.get 0 tm.shadows (lineOf pa) + adds) := by
  intro t
  let tm' : Team := { tm with
    shadows := Cells.put 0 tm.shadows (lineOf pa) (Cells.get 0 tm.shadows (lineOf pa) + adds)
    writeSet := setRow pa (fun i => ⟨bs.getD i 0, tm.spawns, va + i⟩) tm.writeSet bs.length }
  have ht : t.teams[team]? = some tm' := by
    simp only [t, State.setWrite, State.modTeam, getElem?_modAt, if_true, htm, Option.map_some]
    rfl
  refine ⟨fun i hi => ?_, fun b hb => ?_, ?_⟩
  · rw [State.viewByte_team ht, find?_setRow_written _ _ hfit hi]
  · rw [State.viewByte_team ht, State.viewByte_team htm, find?_setRow_other _ _ hfit hb]
    rfl
  · rw [ht, Option.map_some, Cells.get_put_same]

end

end Sys2Proof.Machine
end

section
/-!
Requests that take their place at a home slice: writes, atomics and contributions (R189, R190, R338-R341, R420, R458).
-/
namespace Sys2Proof.Machine

/-! ### A request performed -/

/-- Two parts with the same requests, operations, next number and routes. -/
def State.reqsKept (s u : State) : Prop := u.reqs = s.reqs ∧ u.ops = s.ops ∧ u.tdie = s.tdie ∧ u.nextId = s.nextId

theorem State.reqsKept.trans {s t u : State} (h : s.reqsKept t) (k : t.reqsKept u) : s.reqsKept u := by
  obtain ⟨h1, h2, h3, h4⟩ := h
  obtain ⟨k1, k2, k3, k4⟩ := k
  exact ⟨k1.trans h1, k2.trans h2, k3.trans h3, k4.trans h4⟩

theorem State.storedOnly.reqsKept {s t : State} (h : s.storedOnly t) : s.reqsKept t := ⟨h.reqs, h.ops, h.tdie, h.nextId⟩
theorem State.homesOnly.reqsKept {s t : State} (h : s.homesOnly t) : s.reqsKept t := h.stored.reqsKept

theorem State.performed_reqs (u : State) (r : Req) (bs : List Byte) (tag : BitVec 16) (fill : Bool) :
    (u.performed r bs tag fill).reqs = u.reqs.map fun q => performedAs u r q bs tag fill := by
  cases fill with
  | true =>
    refine List.map_congr_left fun q _ => ?_
    by_cases hq : q.id = r.id <;> simp [performedAs, hq]
  | false =>
    simp only [State.performed, State.respond, State.modReq, Bool.false_eq_true, if_false, List.map_map]
    refine List.map_congr_left fun q _ => ?_
    by_cases hq : q.id = r.id
    · simp only [Function.comp, hq, if_true, performedAs, Bool.false_eq_true, if_false]
      rfl
    · simp [performedAs, hq]

theorem performedAs_congr {s u : State} (h : s.reqsKept u) (r q : Req) (bs : List Byte) (tag : BitVec 16) (fill : Bool) :
    performedAs u r q bs tag fill = performedAs s r q bs tag fill := by
  obtain ⟨-, -, htdie, hnext⟩ := h
  simp only [performedAs, State.routeBack, State.homeStop, htdie, hnext]

/-- A request performed changes requests and the next number alone. -/
theorem State.performed_frame (u : State) (r : Req) (bs : List Byte) (tag : BitVec 16) (fill : Bool) :
    { u.performed r bs tag fill with reqs := u.reqs, nextId := u.nextId } = u := by
  cases fill <;> rfl

/-- What a slice does with the request whose place has come (R338). -/
def State.sliceTurn (s : State) (r : Req) : State := match r.kind with
  | .read => s.sliceRead r
  | .pref => (s.slicePref r).pruneReqs
  | .write | .zero => s.sliceStore r
  | .atomic | .red => s.sliceAtomic r
  | .clean | .clinv => s.sliceClean r

theorem State.atSlice.exec {s : State} {r : Req} (h : s.atSlice r) : Sys2Proof.Machine.exec .sliceAccess s = .next (s.sliceTurn r) := by
  obtain ⟨hr, hperf, hhops, hlive, hgate⟩ := h
  have hcore : s.coreAnswers r = false := by simp [State.coreAnswers, Req.atCore, hhops]
  show execSliceAccess s = _
  simp only [execSliceAccess, hr, hcore, hperf, hhops, hlive, hgate, Bool.false_eq_true, if_false, ne_eq, not_true, decide_false, Bool.not_true,
    Bool.or_self, State.sliceTurn]
  cases r.kind <;> rfl

/-- A slice's turn that ends with its request performed. -/
theorem State.slicePerforms_of {s u : State} {r : Req} {bs : List Byte} {tag : BitVec 16} {fill : Bool} {rest : State → Prop}
    (hslice : s.atSlice r) (hturn : s.sliceTurn r = u.performed r bs tag fill) (hkept : s.reqsKept u)
    (hrest : rest (u.performed r bs tag fill)) : s.slicePerforms r bs tag fill rest := by
  obtain ⟨hreqs, hops, -, -⟩ := id hkept
  refine ⟨_, hslice.exec.trans (congrArg _ hturn), ?_, ?_, hrest⟩
  · rw [State.performed_reqs, hreqs]
    simp only [performedAs_congr hkept]
  · rw [← hops]
    exact (congrArg State.ops (u.performed_frame r bs tag fill) :)

/-! ### What reads of home and of a view depend on -/

/-- Two parts with the same slices, memory and teams, and the same memory beyond the endpoint. -/
def State.bytesKept (s u : State) : Prop :=
  u.lines = s.lines ∧ u.mem = s.mem ∧ u.lineKeys = s.lineKeys ∧ u.teams = s.teams ∧ u.hostMem = s.hostMem

theorem State.performed_bytesKept (u : State) (r : Req) (bs : List Byte) (tag : BitVec 16) (fill : Bool) :
    u.bytesKept (u.performed r bs tag fill) := by
  have h := u.performed_frame r bs tag fill
  exact ⟨(congrArg State.lines h :), (congrArg State.mem h :), (congrArg State.lineKeys h :), (congrArg State.teams h :), (congrArg State.hostMem h :)⟩

section
variable {s u : State} (h : s.bytesKept u)
include h

theorem State.bytesKept.trans {t : State} (k : u.bytesKept t) : s.bytesKept t := by
  obtain ⟨h1, h2, h3, h4, h5⟩ := h
  obtain ⟨k1, k2, k3, k4, k5⟩ := k
  exact ⟨k1.trans h1, k2.trans h2, k3.trans h3, k4.trans h4, k5.trans h5⟩

theorem State.bytesKept.homeByte (key a : Nat) : u.homeByte key a = s.homeByte key a := State.homeByte_congr h.1 h.2.1 h.2.2.1 key a

theorem State.bytesKept.line? (a : Nat) : u.line? a = s.line? a := by rw [State.line?, h.1]; rfl

theorem State.bytesKept.viewByte (team key a : Nat) : u.viewByte team key a = s.viewByte team key a := by
  have hteams := h.2.2.2.1
  simp only [State.viewByte, hteams, h.homeByte]

theorem State.bytesKept.countOf (r : Req) : u.countOf r = s.countOf r := by
  have hteams := h.2.2.2.1
  simp only [State.countOf, hteams, h.line?]

end

/-! ### The line of a request -/

section
variable {s : State} {r : Req}

/-- A line left by no ended context serves any request. -/
theorem State.liveLine_of_key (h : ∀ l, s.line? (lineOf r.pa) = some l → l.key ≠ 513) : s.liveLine (lineOf r.pa) (keySlot r.ctx r.leaf) :=
  fun l hl hended => absurd hended (h l hl)

/-- A request's write within its line, as `linePut` says it. -/
theorem State.writesHome_of_linePut {t : State} {bs : List Byte} (hord : r.ord = false) (hput : s.linePut t (keySlot r.ctx r.leaf) r.pa 1 bs)
    (hteams : t.teams = s.teams) (hhost : t.hostMem = s.hostMem) : s.writesHome t r (keySlot r.ctx r.leaf) bs := by
  obtain ⟨hwritten, hothers, hcount⟩ := hput
  refine ⟨hwritten, fun hroom => hothers (State.fits_of_roomAt hroom), ?_, hteams, hhost⟩
  simpa [State.countOf, hord] using hcount

theorem State.writesHome.congr {t u : State} {key : Nat} {bs : List Byte} (h : s.writesHome t r key bs) (k : t.bytesKept u) :
    s.writesHome u r key bs := by
  obtain ⟨hwritten, hothers, hcount, hteams, hhost⟩ := h
  obtain ⟨-, kmem, -, kteams, khost⟩ := id k
  refine ⟨fun i hi => by rw [k.homeByte, hwritten i hi], fun hroom => ?_, by rw [k.countOf, hcount], kteams.trans hteams, khost.trans hhost⟩
  obtain ⟨hmem, hbytes⟩ := hothers hroom
  exact ⟨kmem.trans hmem, fun b hb => by rw [k.homeByte, hbytes b hb]⟩

theorem State.writeHome_device (hpa : r.pa < hostBase) (hview : s.toView r.team r.leaf = false) (adds : Nat) (bs : List Byte) :
    s.writeHome r.team r.ctx r.va r.pa r.leaf adds bs =
      s.sliceWrite r.ctx (keySlot r.ctx r.leaf) r.pa (leafClassA r.leaf) true adds bs := by
  simp [State.writeHome, Nat.not_le.mpr hpa, hview]

theorem State.writeHome_view (hpa : r.pa < hostBase) (hview : s.toView r.team r.leaf = true) (adds : Nat) (bs : List Byte) :
    s.writeHome r.team r.ctx r.va r.pa r.leaf adds bs = s.setWrite r.team r.va r.pa adds bs := by
  simp [State.writeHome, Nat.not_le.mpr hpa, hview]

theorem State.writeHome_host (hpa : hostBase ≤ r.pa) (adds : Nat) (bs : List Byte) :
    s.writeHome r.team r.ctx r.va r.pa r.leaf adds bs = s.hostWrite r.pa bs := by
  simp [State.writeHome, hpa]

/-! ### Stores -/

theorem sliceStore_device (hslice : s.atSlice r) (hkind : r.kind = .write ∨ r.kind = .zero) (hlive : s.liveLine (lineOf r.pa) (keySlot r.ctx r.leaf))
    (hpa : r.pa < hostBase) (hord : r.ord = false) (hview : s.toView r.team r.leaf = false) (hne : 0 < r.data.length)
    (hfit : r.pa % 128 + r.data.length ≤ 128) :
    s.slicePerforms r [] (s.countOf r + 1) false fun t => s.writesHome t r (keySlot r.ctx r.leaf) r.data := by
  obtain ⟨hstored, hput⟩ := State.sliceWrite_home hne hfit hlive r.ctx (leafClassA r.leaf) 1
  rw [← State.writeHome_device hpa hview 1 r.data] at hstored hput
  generalize hs1 : s.writeHome r.team r.ctx r.va r.pa r.leaf 1 r.data = s1 at hstored hput
  have hwrites := State.writesHome_of_linePut hord hput hstored.teams hstored.hostMem
  have hl1 : s1.bytesKept (s1.l1Store r.core r.pa r.data) := ⟨rfl, rfl, rfl, rfl, rfl⟩
  have hturn : s.sliceTurn r = (s1.l1Store r.core r.pa r.data).performed r [] (s.countOf r + 1) false := by
    have hstore : s.sliceTurn r = s.sliceStore r := by rcases hkind with hk | hk <;> simp only [State.sliceTurn, hk]
    have hcount : s1.countOf r = s.countOf r + 1 := hwrites.2.2.1
    rw [hstore, ← hcount]
    simp [State.sliceStore, hs1, hord, Nat.not_le.mpr hpa]
  exact State.slicePerforms_of hslice hturn (hstored.reqsKept.trans ⟨rfl, rfl, rfl, rfl⟩)
    (hwrites.congr (hl1.trans (State.performed_bytesKept _ r _ _ _)))

/-- What a request leaves in its task's view (R420). -/
def State.viewPut (s t : State) (r : Req) (bs : List Byte) : Prop :=
  (∀ i, i < bs.length → t.viewByte r.team (keySlot r.ctx r.leaf) (canonPa r.pa + i) = bs.getD i 0) ∧
  (∀ b, (b < canonPa r.pa ∨ canonPa r.pa + bs.length ≤ b) →
    t.viewByte r.team (keySlot r.ctx r.leaf) b = s.viewByte r.team (keySlot r.ctx r.leaf) b) ∧
  t.countOf r = BitVec.ofNat 16 (((s.teams[r.team]?).map fun t => Cells.get 0 t.shadows (lineOf r.pa)).getD 0 + 1)

theorem State.setWrite_viewPut (hteam : r.team < s.teams.length) (hord : r.ord = true) (bs : List Byte) (hfit : r.pa % 128 + bs.length ≤ 128) :
    s.viewPut (s.setWrite r.team r.va r.pa 1 bs) r bs := by
  obtain ⟨tm, htm⟩ : ∃ tm, s.teams[r.team]? = some tm := ⟨_, List.getElem?_eq_getElem hteam⟩
  obtain ⟨hwritten, hothers, hcount⟩ := State.setWrite_view (key := keySlot r.ctx r.leaf) htm r.va 1 hfit
  refine ⟨hwritten, hothers, ?_⟩
  simp only [State.countOf, hord, if_true, hcount, htm, Option.map_some, Option.getD_some]

theorem State.viewPut.congr {t u : State} {bs : List Byte} (h : s.viewPut t r bs) (k : t.bytesKept u) : s.viewPut u r bs := by
  obtain ⟨hwritten, hothers, hcount⟩ := h
  exact ⟨fun i hi => by rw [k.viewByte, hwritten i hi], fun b hb => by rw [k.viewByte, hothers b hb], by rw [k.countOf, hcount]⟩

theorem sliceStore_view (hslice : s.atSlice r) (hkind : r.kind = .write ∨ r.kind = .zero)
    (hpa : r.pa < hostBase) (hord : r.ord = true) (hview : s.toView r.team r.leaf = true)
    (hfit : r.pa % 128 + r.data.length ≤ 128) (hteam : r.team < s.teams.length) :
    s.slicePerforms r [] (BitVec.ofNat 16 (((s.teams[r.team]?).map fun t => Cells.get 0 t.shadows (lineOf r.pa)).getD 0 + 1)) false fun t =>
      s.viewPut t r r.data ∧ t.lines = s.lines ∧ t.mem = s.mem := by
  have hput := State.setWrite_viewPut hteam hord r.data hfit
  have hturn : s.sliceTurn r = (s.setWrite r.team r.va r.pa 1 r.data).performed r []
      (BitVec.ofNat 16 (((s.teams[r.team]?).map fun t => Cells.get 0 t.shadows (lineOf r.pa)).getD 0 + 1)) false := by
    have hstore : s.sliceTurn r = s.sliceStore r := by rcases hkind with hk | hk <;> simp only [State.sliceTurn, hk]
    obtain ⟨-, -, hcount⟩ := id hput
    rw [hstore, ← hcount]
    simp [State.sliceStore, State.writeHome_view hpa hview, hord]
  exact State.slicePerforms_of hslice hturn ⟨rfl, rfl, rfl, rfl⟩ ⟨hput.congr (State.performed_bytesKept ..), rfl, rfl⟩

theorem sliceStore_host (hslice : s.atSlice r) (hkind : r.kind = .write ∨ r.kind = .zero) (hpa : hostBase ≤ r.pa) :
    s.slicePerforms r [] (s.countOf r) false fun t => t.lines = s.lines ∧ t.mem = s.mem ∧
      t.hostMem = putBytes s.hostMem (r.pa - hostBase + s.regs.obbase.toNat) r.data := by
  have hturn : s.sliceTurn r = (s.hostWrite r.pa r.data).performed r [] (s.countOf r) false := by
    have hstore : s.sliceTurn r = s.sliceStore r := by rcases hkind with hk | hk <;> simp only [State.sliceTurn, hk]
    rw [hstore, State.sliceStore]
    simp only [State.writeHome_host hpa, hpa, decide_true, Bool.or_true, if_true]
    rfl
  exact State.slicePerforms_of hslice hturn ⟨rfl, rfl, rfl, rfl⟩ ⟨rfl, rfl, rfl⟩

end

end Sys2Proof.Machine
end

section
/-!
Atomics and contributions at a home slice, and the values of the integer atomics (R189, R190, R339, R340).
-/
namespace Sys2Proof.Machine

section
variable {s : State} {r : Req}

/-! ### A fill started first -/

/-- The part once the fill that a request needs, if any, has been started. -/
theorem State.startFill_frame (hlive : s.liveLine (lineOf r.pa) (keySlot r.ctx r.leaf)) (fill : Bool) :
    s.homesOnly (s.startFill r fill) ∧ (s.startFill r fill).liveLine (lineOf r.pa) (keySlot r.ctx r.leaf) ∧
    (((s.startFill r fill).line? (lineOf r.pa)).map Line.count).getD 0 = ((s.line? (lineOf r.pa)).map Line.count).getD 0 ∧
    (∀ b, b / 128 = lineOf r.pa → (s.startFill r fill).homeByte (keySlot r.ctx r.leaf) b = s.homeByte (keySlot r.ctx r.leaf) b) ∧
    (s.fits (lineOf r.pa) → (s.startFill r fill).mem = s.mem ∧ (s.startFill r fill).fits (lineOf r.pa) ∧
      ∀ b, (s.startFill r fill).homeByte (keySlot r.ctx r.leaf) b = s.homeByte (keySlot r.ctx r.leaf) b) := by
  cases fill with
  | false => exact ⟨rfl, hlive, rfl, fun _ _ => rfl, fun h => ⟨rfl, h, fun _ => rfl⟩⟩
  | true =>
    obtain ⟨l, hl, -, -, hcount, -⟩ := State.fillLine_line? hlive
    refine ⟨State.fillLine_homesOnly, State.fillLine_live hlive, ?_, fun b hb => State.homeByte_fillLine hlive hb, State.fillLine_fits hlive⟩
    show (((s.fillLine r.ctx r.pa r.leaf).line? (lineOf r.pa)).map Line.count).getD 0 = _
    rw [hl, Option.map_some, Option.getD_some, hcount]

/-- A write after a fill of its own line. -/
theorem State.linePut_startFill (hlive : s.liveLine (lineOf r.pa) (keySlot r.ctx r.leaf)) {fill : Bool} {t : State} {adds : Nat} {bs : List Byte}
    (h : (s.startFill r fill).linePut t (keySlot r.ctx r.leaf) r.pa adds bs) : s.linePut t (keySlot r.ctx r.leaf) r.pa adds bs := by
  obtain ⟨-, -, hcount, -, hfill⟩ := State.startFill_frame hlive fill
  obtain ⟨hwritten, hothers, htcount⟩ := h
  refine ⟨hwritten, fun hfits => ?_, by rw [htcount, hcount]⟩
  obtain ⟨hmem, hstill, hbytes⟩ := hfill hfits
  obtain ⟨htmem, htbytes⟩ := hothers hstill
  exact ⟨htmem.trans hmem, fun b hb => by rw [htbytes b hb, hbytes]⟩

theorem toView_congr {u : State} (hteams : u.teams = s.teams) (hlaunches : u.launches = s.launches) (team : Nat) (leaf : Word64) :
    u.toView team leaf = s.toView team leaf := by
  simp only [State.toView, State.launchOf, hteams, hlaunches]

/-! ### Atomics -/

/-- The value an atomic leaves, and its bytes. -/
def Req.newBytes (r : Req) (old : Nat) : List Byte :=
  bytesOfNat r.size (atomicNew r.aop (r.size = 8) old (natOfBytes r.data) r.compare.toNat)

theorem Req.length_newBytes (r : Req) (old : Nat) : (r.newBytes old).length = r.size := length_bytesOfNat ..

/-- Whether an atomic finds its bytes without a fill. -/
def State.atomicFill (s : State) (r : Req) : Bool := (reqAddrs r).any fun x => !s.byteAt { r with plain := false } false x

/-- An atomic's turn: the fill that it needs, its bytes written over those that it found, its core's copies dropped (R189, R340). -/
theorem sliceTurn_atomic (hkind : r.kind = .atomic ∨ (r.kind = .red ∧ r.ord = false)) : s.sliceTurn r =
    let fill := r.pa < hostBase && s.atomicFill r
    let s1 := s.startFill r fill
    let old := natOfBytes (s1.readHome r.team r.ctx r.pa r.leaf r.size)
    let s2 := (s1.writeHome r.team r.ctx r.va r.pa r.leaf 1 (r.newBytes old)).l1DropSectors r.core r.pa r.size
    s2.performed r (bytesOfNat r.size old) (s2.countOf r) fill := by
  have hred : ¬ (r.kind = .red && r.ord) = true := by
    rcases hkind with hk | ⟨hk, hord⟩
    · simp [hk]
    · simp [hord]
  have hturn : s.sliceTurn r = s.sliceAtomic r := by rcases hkind with hk | ⟨hk, -⟩ <;> simp only [State.sliceTurn, hk]
  have hfill : (!(reqAddrs r).all (s.byteAt { r with plain := false } false)) = s.atomicFill r := by
    simp [State.atomicFill, List.not_all_eq_any_not]
  rw [hturn, State.sliceAtomic, if_neg hred, hfill]
  rfl

theorem State.readHome_device (hpa : r.pa < hostBase) (hview : s.toView r.team r.leaf = false) :
    s.readHome r.team r.ctx r.pa r.leaf r.size = s.homeBytes (keySlot r.ctx r.leaf) r.pa r.size := by
  simp [State.readHome, Nat.not_le.mpr hpa, hview]

theorem State.readHome_view (hpa : r.pa < hostBase) (hview : s.toView r.team r.leaf = true) :
    s.readHome r.team r.ctx r.pa r.leaf r.size =
      (List.range r.size).map fun i => s.viewByte r.team (keySlot r.ctx r.leaf) (canonPa (r.pa + i)) := by
  simp [State.readHome, Nat.not_le.mpr hpa, hview]

/-- The bytes of a request lie in its line. -/
theorem lineOf_within {i n : Nat} (hfit : r.pa % 128 + n ≤ 128) (hi : i < n) : canonPa (r.pa + i) / 128 = lineOf r.pa := by
  have hmod := canonPa_mod_line r.pa
  rw [canonPa_add_line (by omega), lineOf]
  omega

theorem atomic_device (hslice : s.atSlice r) (hkind : r.kind = .atomic ∨ (r.kind = .red ∧ r.ord = false))
    (hlive : s.liveLine (lineOf r.pa) (keySlot r.ctx r.leaf)) (hpa : r.pa < hostBase) (hord : r.ord = false)
    (hview : s.toView r.team r.leaf = false) (hne : 0 < r.size) (hfit : r.pa % 128 + r.size ≤ 128) :
    let old := natOfBytes (s.homeBytes (keySlot r.ctx r.leaf) r.pa r.size)
    s.slicePerforms r (bytesOfNat r.size old) (s.countOf r + 1) (s.atomicFill r) fun t =>
      s.writesHome t r (keySlot r.ctx r.leaf) (r.newBytes old) := by
  intro old
  obtain ⟨hhomes, hlive1, -, hown, -⟩ := State.startFill_frame hlive (s.atomicFill r)
  have hstored1 := hhomes.stored
  have hview1 := (toView_congr hstored1.teams hstored1.launches r.team r.leaf).trans hview
  have hold : natOfBytes ((s.startFill r (s.atomicFill r)).readHome r.team r.ctx r.pa r.leaf r.size) = old := by
    rw [State.readHome_device hpa hview1]
    exact congrArg natOfBytes (List.map_congr_left fun i hi => hown _ (lineOf_within hfit (List.mem_range.mp hi)))
  have hlen := r.length_newBytes old
  obtain ⟨hstored2, hput⟩ := State.sliceWrite_home (bs := r.newBytes old) (by omega) (by omega) hlive1 r.ctx (leafClassA r.leaf) 1
  rw [← State.writeHome_device hpa hview1 1 (r.newBytes old)] at hstored2 hput
  have hstored := hstored1.trans hstored2
  have hwrites := State.writesHome_of_linePut hord (State.linePut_startFill hlive hput) hstored.teams hstored.hostMem
  generalize hs1 : (s.startFill r (s.atomicFill r)).writeHome r.team r.ctx r.va r.pa r.leaf 1 (r.newBytes old) = s1 at hstored hwrites
  have hdrop : s1.bytesKept (s1.l1DropSectors r.core r.pa r.size) := ⟨rfl, rfl, rfl, rfl, rfl⟩
  have hdropped := hwrites.congr hdrop
  have hturn : s.sliceTurn r =
      (s1.l1DropSectors r.core r.pa r.size).performed r (bytesOfNat r.size old) (s.countOf r + 1) (s.atomicFill r) := by
    have hcount : (s1.l1DropSectors r.core r.pa r.size).countOf r = s.countOf r + 1 := hdropped.2.2.1
    rw [sliceTurn_atomic hkind, ← hcount]
    simp only [hpa, decide_true, Bool.true_and, hold, hs1]
  exact State.slicePerforms_of hslice hturn (hstored.reqsKept.trans ⟨rfl, rfl, rfl, rfl⟩) (hdropped.congr (State.performed_bytesKept ..))

theorem atomic_view (hslice : s.atSlice r) (hkind : r.kind = .atomic ∨ (r.kind = .red ∧ r.ord = false))
    (hlive : s.liveLine (lineOf r.pa) (keySlot r.ctx r.leaf)) (hpa : r.pa < hostBase) (hord : r.ord = true)
    (hview : s.toView r.team r.leaf = true) (hfit : r.pa % 128 + r.size ≤ 128) (hteam : r.team < s.teams.length) :
    let old := natOfBytes ((List.range r.size).map fun i => s.viewByte r.team (keySlot r.ctx r.leaf) (canonPa (r.pa + i)))
    s.slicePerforms r (bytesOfNat r.size old)
      (BitVec.ofNat 16 (((s.teams[r.team]?).map fun t => Cells.get 0 t.shadows (lineOf r.pa)).getD 0 + 1)) (s.atomicFill r) fun t =>
      (∀ i, i < (r.newBytes old).length → t.viewByte r.team (keySlot r.ctx r.leaf) (canonPa r.pa + i) = (r.newBytes old).getD i 0) ∧
      (s.atomicFill r = false → s.viewPut t r (r.newBytes old) ∧ t.lines = s.lines ∧ t.mem = s.mem) := by
  intro old
  obtain ⟨hhomes, -, -, hown, -⟩ := State.startFill_frame hlive (s.atomicFill r)
  have hstored1 := hhomes.stored
  have hteams := hstored1.teams
  have hview1 := (toView_congr hteams hstored1.launches r.team r.leaf).trans hview
  have hviewed (b : Nat) (hb : b / 128 = lineOf r.pa) : (s.startFill r (s.atomicFill r)).viewByte r.team (keySlot r.ctx r.leaf) b =
      s.viewByte r.team (keySlot r.ctx r.leaf) b := by
    simp only [State.viewByte, hteams, hown b hb]
  have hold : natOfBytes ((s.startFill r (s.atomicFill r)).readHome r.team r.ctx r.pa r.leaf r.size) = old := by
    rw [State.readHome_view hpa hview1]
    exact congrArg natOfBytes (List.map_congr_left fun i hi => hviewed _ (lineOf_within hfit (List.mem_range.mp hi)))
  have hlen := r.length_newBytes old
  have hput := State.setWrite_viewPut (s := s.startFill r (s.atomicFill r)) (by rw [hteams]; exact hteam) hord (r.newBytes old) (by omega)
  generalize hs1 : (s.startFill r (s.atomicFill r)).setWrite r.team r.va r.pa 1 (r.newBytes old) = s1 at hput
  have hs1reqs : (s.startFill r (s.atomicFill r)).reqsKept s1 := hs1 ▸ ⟨rfl, rfl, rfl, rfl⟩
  have hdrop : s1.bytesKept (s1.l1DropSectors r.core r.pa r.size) := ⟨rfl, rfl, rfl, rfl, rfl⟩
  have hdropped := hput.congr hdrop
  have hturn : s.sliceTurn r = (s1.l1DropSectors r.core r.pa r.size).performed r (bytesOfNat r.size old)
      (BitVec.ofNat 16 (((s.teams[r.team]?).map fun t => Cells.get 0 t.shadows (lineOf r.pa)).getD 0 + 1)) (s.atomicFill r) := by
    have hcount := hdropped.2.2
    rw [hteams] at hcount
    rw [sliceTurn_atomic hkind, ← hcount]
    simp only [hpa, decide_true, Bool.true_and, hold, State.writeHome_view hpa hview1, hs1]
  have hperformed := hdropped.congr (State.performed_bytesKept _ r (bytesOfNat r.size old)
    (BitVec.ofNat 16 (((s.teams[r.team]?).map fun t => Cells.get 0 t.shadows (lineOf r.pa)).getD 0 + 1)) (s.atomicFill r))
  refine State.slicePerforms_of hslice hturn ((hhomes.reqsKept.trans hs1reqs).trans ⟨rfl, rfl, rfl, rfl⟩) ⟨hperformed.1, fun hnofill => ?_⟩
  have hstart : s.startFill r (s.atomicFill r) = s := by simp [State.startFill, hnofill]
  rw [hstart] at hperformed hs1
  refine ⟨hperformed, ?_, ?_⟩
  · exact (State.performed_bytesKept _ r _ _ _).1.trans (hs1 ▸ rfl)
  · exact (State.performed_bytesKept _ r _ _ _).2.1.trans (hs1 ▸ rfl)

theorem atomic_host (hslice : s.atSlice r) (hkind : r.kind = .atomic ∨ (r.kind = .red ∧ r.ord = false)) (hpa : hostBase ≤ r.pa) :
    let old := natOfBytes (s.hostRead r.pa r.size)
    s.slicePerforms r (bytesOfNat r.size old) (s.countOf r) false fun t => t.lines = s.lines ∧ t.mem = s.mem ∧
      t.hostMem = putBytes s.hostMem (r.pa - hostBase + s.regs.obbase.toNat) (r.newBytes old) := by
  intro old
  have hturn : s.sliceTurn r = ((s.hostWrite r.pa (r.newBytes old)).l1DropSectors r.core r.pa r.size).performed r (bytesOfNat r.size old)
      (s.countOf r) false := by
    have hold : natOfBytes (s.readHome r.team r.ctx r.pa r.leaf r.size) = old := by simp [State.readHome, hpa, old]
    rw [sliceTurn_atomic hkind]
    simp only [Nat.not_lt.mpr hpa, decide_false, Bool.false_and, State.startFill, Bool.false_eq_true, if_false, hold,
      State.writeHome_host hpa]
    rfl
  obtain ⟨hlines, hmem, -, -, hhost⟩ := State.performed_bytesKept
    ((s.hostWrite r.pa (r.newBytes old)).l1DropSectors r.core r.pa r.size) r (bytesOfNat r.size old) (s.countOf r) false
  exact State.slicePerforms_of hslice hturn ⟨rfl, rfl, rfl, rfl⟩ ⟨hlines, hmem, hhost⟩

/-- A contribution of an ordered launch is held by its task (R190, R422). -/
theorem red_held (hslice : s.atSlice r) (hkind : r.kind = .red) (hord : r.ord = true) (hview : s.toView r.team r.leaf = true) :
    s.slicePerforms r [] 0 false fun t => t.lines = s.lines ∧ t.mem = s.mem ∧
      t.teams = modAt s.teams r.team fun tm => { tm with held := tm.held ++
        [⟨r.compare.toNat, canonPa r.pa, r.va, r.aop, decide (r.size = 8), BitVec.ofNat 64 (natOfBytes r.data), 1⟩] } := by
  have hturn : s.sliceTurn r = (s.modTeam r.team fun tm => { tm with held := tm.held ++
      [⟨r.compare.toNat, canonPa r.pa, r.va, r.aop, decide (r.size = 8), BitVec.ofNat 64 (natOfBytes r.data), 1⟩] }).performed r [] 0 false := by
    have hred : s.sliceTurn r = s.sliceAtomic r := by simp only [State.sliceTurn, hkind]
    rw [hred, State.sliceAtomic, if_pos (by simp [hkind, hord]), State.contribute, if_pos hview]
  exact State.slicePerforms_of hslice hturn ⟨rfl, rfl, rfl, rfl⟩ ⟨rfl, rfl, rfl⟩

end

/-! ### The values of the integer atomics -/

theorem toInt_ofNat_lt {n x : Nat} (h : x < 2 ^ n) : (BitVec.ofNat n x).toInt = if 2 * x < 2 ^ n then (x : Int) else (x : Int) - 2 ^ n := by
  rw [BitVec.toInt_eq_toNat_cond, BitVec.toNat_ofNat, Nat.mod_eq_of_lt h]
  simp

theorem atomicValues_holds : atomicValues := by
  intro wide old b cmp n hold hb int
  have hsigned (x : Nat) (hx : x < 2 ^ n) : (BitVec.ofNat n x).toInt = int x := toInt_ofNat_lt hx
  refine ⟨rfl, ?min, ?max, ?minu, ?maxu, rfl, rfl, rfl, rfl, rfl⟩
  case min =>
    show int (if (BitVec.ofNat n old).toInt ≤ (BitVec.ofNat n b).toInt then old else b) = _
    rw [hsigned old hold, hsigned b hb]
    split <;> omega
  case max =>
    show int (if (BitVec.ofNat n b).toInt ≤ (BitVec.ofNat n old).toInt then old else b) = _
    rw [hsigned old hold, hsigned b hb]
    split <;> omega
  case minu =>
    show (if old ≤ b then old else b) = _
    split <;> omega
  case maxu =>
    show (if b ≤ old then old else b) = _
    split <;> omega

/-! ### Writes and atomics -/

theorem writesPerform_holds : writesPerform := by
  intro s r hslice hkeys leaf key a inLine count held rest
  have hlive := State.liveLine_of_key hkeys
  have hheld {t : State} {bs : List Byte} (h : s.viewPut t r bs ∧ t.lines = s.lines ∧ t.mem = s.mem) : held t bs ∧ rest t bs :=
    ⟨h.1.1, h.2.1, h.2.2, h.1.2.1⟩
  refine ⟨fun hkind => ⟨?_, ?_, ?_⟩, fun hkind hsize => ?_, fun hkind hord hview => ?_⟩
  · intro hpa hord hview hline
    exact sliceStore_device hslice hkind hlive hpa hord hview hline.1 hline.2
  · intro hpa hord hview hline hteam
    obtain ⟨t, hexec, hreqs, hops, hput⟩ := sliceStore_view hslice hkind hpa hord hview hline.2 hteam
    exact ⟨t, hexec, hreqs, hops, hheld hput⟩
  · intro hpa hord
    exact sliceStore_host hslice hkind hpa
  · refine ⟨?_, ?_, ?_⟩
    · intro hpa hord hview hline
      exact atomic_device hslice hkind hlive hpa hord hview hline.1 hline.2
    · intro hpa hord hview hline hteam
      obtain ⟨t, hexec, hreqs, hops, hput, hstill⟩ := atomic_view hslice hkind hlive hpa hord hview hline.2 hteam
      exact ⟨t, hexec, hreqs, hops, hput, fun hfill => (hheld (hstill hfill)).2⟩
    · intro hpa hord
      exact atomic_host hslice hkind hpa
  · exact red_held hslice hkind hord hview

/-- Settles O39: a write or an atomic leaves its bytes at its line's home, in its task's write set, or beyond the endpoint, and each integer
atomic computes its rule's value. -/
theorem writesPerformAtHome : Obligations.WritesPerformAtHome := ⟨writesPerform_holds, atomicValues_holds⟩

end Sys2Proof.Machine
end

section
/-!
Lines cleaned, invalidated and filled (R196, R337, R339, R340).
-/
namespace Sys2Proof.Machine

/-! ### Lines written back -/

/-- A line written back: memory has its bytes where it differed, and no other byte changes (R337). -/
theorem State.writeBack_mem (s : State) (l : Line) (a : Nat) : Cells.get emptyByte (s.writeBack l).mem a =
    if a / 128 = l.addr ∧ l.dirty ≠ 0 then s.lineByte l.key l (a % 128) else Cells.get emptyByte s.mem a := by
  unfold State.writeBack
  by_cases hdirty : l.dirty = 0
  · simp [hdirty]
  · rw [if_neg hdirty]
    dsimp only
    by_cases hline : a / 128 = l.addr
    · have hat : a = 128 * l.addr + a % 128 := by omega
      have hlt : a % 128 < ((List.range 128).map (s.lineByte l.key l)).length := by simp; omega
      rw [if_pos ⟨hline, hdirty⟩]
      conv_lhs => rw [hat, get_putBytes_inside _ _ _ _ hlt]
      simp
    · rw [if_neg (by tauto), get_putBytes_outside]
      simp only [List.length_map, List.length_range]
      omega

/-- A clean's turn at a resident line. -/
theorem sliceTurn_clean {s : State} {r : Req} {l : Line} (hkind : r.kind = .clean ∨ r.kind = .clinv) (hl : s.line? (lineOf r.pa) = some l) :
    ∃ u, s.sliceTurn r = u.performed r [] 0 false ∧ s.reqsKept u ∧ u.mem = (s.writeBack l).mem ∧ u.teams = s.teams ∧
      u.lines = if r.kind = .clinv ∧ l.filling = false then s.lines.filter (fun x => x.addr ≠ l.addr)
        else s.lines.map fun x => if x.addr = l.addr then { x with dirty := 0, count := if r.kind = .clinv then 0 else x.count } else x := by
  obtain ⟨hreqs, hops, htdie, hnext⟩ := (s.writeBack_homesOnly l).reqsKept
  have hteams := (s.writeBack_homesOnly l).teams
  have haddr := State.line?_addr hl
  have hclean : s.sliceTurn r = s.sliceClean r := by rcases hkind with hk | hk <;> simp only [State.sliceTurn, hk]
  rw [hclean, State.sliceClean, hl]
  dsimp only
  refine ⟨_, rfl, ?_, ?_, ?_, ?_⟩
  · split <;> split <;> exact ⟨hreqs, hops, htdie, hnext⟩
  · split <;> split <;> rfl
  · split <;> split <;> exact hteams
  · rw [haddr]
    rcases hkind with hk | hk
    · simp [hk]
    · cases hfill : l.filling <;> simp [hk, State.l1DropSectors, State.l1Drop]

theorem cleansPerform_holds : cleansPerform := by
  intro s r l hslice hkind
  refine ⟨fun hl => ?resident, fun hnone => ?absent⟩
  case resident =>
    obtain ⟨u, hturn, hkept, hmem, hteams, hlines⟩ := sliceTurn_clean hkind hl
    obtain ⟨plines, pmem, -, pteams, -⟩ := State.performed_bytesKept u r [] 0 false
    exact State.slicePerforms_of hslice hturn hkept
      ⟨fun a => by rw [pmem, hmem, State.writeBack_mem], plines.trans hlines, pteams.trans hteams⟩
  case absent =>
    have hclean : s.sliceTurn r = s.sliceClean r := by rcases hkind with hk | hk <;> simp only [State.sliceTurn, hk]
    have hturn : s.sliceTurn r =
        (if r.kind = .clinv then s.l1DropSectors r.core r.pa 128 else s).performed r [] 0 false := by
      rw [hclean, State.sliceClean, hnone]
    have hframe : s.reqsKept (if r.kind = .clinv then s.l1DropSectors r.core r.pa 128 else s) ∧
        s.bytesKept (if r.kind = .clinv then s.l1DropSectors r.core r.pa 128 else s) := by
      split <;> exact ⟨⟨rfl, rfl, rfl, rfl⟩, rfl, rfl, rfl, rfl, rfl⟩
    obtain ⟨hlines, hmem, -, hteams, -⟩ := hframe.2.trans (State.performed_bytesKept _ r [] 0 false)
    exact State.slicePerforms_of hslice hturn hframe.1 ⟨hlines, hmem, hteams⟩

/-! ### Fills that land -/

/-- Bytes of a pending fill where none has been written. -/
theorem get_fillRow (l : Line) (i : Nat) (n : Nat) :
    Cells.get 0 ((List.range n).foldl (fun c i => if l.valid.getLsbD i then c else Cells.put 0 c i (l.fillData.getD i 0)) l.data) i =
      if i < n ∧ l.valid.getLsbD i = false then l.fillData.getD i 0 else Cells.get 0 l.data i := by
  induction n with
  | zero => simp
  | succ n ih =>
    simp only [List.range_succ, List.foldl_append, List.foldl_cons, List.foldl_nil]
    by_cases hin : i = n
    · subst hin
      cases hv : l.valid.getLsbD i with
      | true => rw [if_pos rfl, ih]; simp [hv]
      | false => simp
    · have hlt : i < n + 1 ↔ i < n := by omega
      split
      · simp only [ih, hlt]
      · simp only [Cells.get_put_other _ _ hin, ih, hlt]

theorem filled_data (l : Line) {i : Nat} (hi : i < 128) :
    Cells.get 0 (filled l).data i = if l.valid.getLsbD i then Cells.get 0 l.data i else l.fillData.getD i 0 := by
  refine (get_fillRow l i 128).trans ?_
  cases hv : l.valid.getLsbD i <;> simp [hi]

/-- The response of a request as it starts on its way back. -/
def State.respondedAs (s : State) (r : Req) : Req :=
  { r with waitingFill := false, hops := s.routeBack r.core r.pa, place := (s.homeStop r.core r.pa).2, order := s.nextId,
           dated := false, sends := 0 }

/-- Whether a request is another's response on its way back. -/
def State.respondsTo (s : State) (r q : Req) : Prop :=
  q.id = r.id ∧ q.waitingFill = false ∧ q.performed = r.performed ∧ q.result = r.result ∧
  q.hops = s.routeBack r.core r.pa ∧ q.place = (s.homeStop r.core r.pa).2

/-- A request that none of some responses is of stays as it is. -/
theorem State.responds_other (ws : List Req) (u : State) {q : Req} (hq : q ∈ u.reqs) (hne : ∀ w ∈ ws, w.id ≠ q.id) :
    q ∈ (ws.foldl State.respond u).reqs := by
  induction ws generalizing u with
  | nil => exact hq
  | cons w ws ih =>
    have hw : q.id ≠ w.id := Ne.symm (hne w List.mem_cons_self)
    refine ih (u.respond w) (List.mem_map.mpr ⟨q, hq, by simp [hw]⟩) fun x hx => hne x (List.mem_cons_of_mem _ hx)

/-- Each of some requests with different numbers answers. -/
theorem State.responds_each (ws : List Req) (u : State) (hws : ws.Pairwise fun p q => p.id ≠ q.id) (hmem : ∀ w ∈ ws, w ∈ u.reqs) :
    ∀ w ∈ ws, ∃ q ∈ (ws.foldl State.respond u).reqs, u.respondsTo w q := by
  induction ws generalizing u with
  | nil => simp
  | cons w ws ih =>
    obtain ⟨hw, hrest⟩ := List.pairwise_cons.mp hws
    intro x hx
    rcases List.mem_cons.mp hx with rfl | hx
    · refine ⟨u.respondedAs x, ?_, rfl, rfl, rfl, rfl, rfl, rfl⟩
      refine State.responds_other ws (u.respond x) (List.mem_map.mpr ⟨x, hmem x List.mem_cons_self, if_pos rfl⟩) fun y hy => ?_
      exact Ne.symm (hw y hy)
    · refine ih (u.respond w) hrest (fun y hy => ?_) x hx
      have hne : y.id ≠ w.id := Ne.symm (hw y hy)
      exact List.mem_map.mpr ⟨y, hmem y (List.mem_cons_of_mem _ hy), by simp [hne]⟩

theorem State.responds_frame (ws : List Req) (u : State) :
    { ws.foldl State.respond u with reqs := u.reqs, nextId := u.nextId } = u := by
  induction ws generalizing u with
  | nil => rfl
  | cons w ws ih =>
    have hone : { u.respond w with reqs := u.reqs, nextId := u.nextId } = u := rfl
    rw [List.foldl_cons]
    conv_rhs => rw [← hone, ← ih (u.respond w)]

theorem fillsLand_holds : fillsLand := by
  intro s l hl hfill hids waits
  have haddr := State.line?_addr hl
  have hf : ∀ x, (filled x).addr = x.addr := fun _ => rfl
  let s1 := (s.mapLine l.addr filled).fitEntries l.addr 2
  let ws := s.reqs.filter fun r => r.waitingFill && lineOf r.pa = s.subject
  have hexec : Sys2Proof.Machine.exec .fillLand s = .next (ws.foldl State.respond s1) := by
    show execFillLand s = _
    simp only [execFillLand, hl, hfill, if_true]
    rfl
  have hhomes : s.homesOnly s1 := State.homesOnly_trans (t := s.mapLine l.addr filled) rfl (State.fitEntries_homesOnly _ _ _)
  have hframe := State.responds_frame ws s1
  have hlines : (ws.foldl State.respond s1).lines = s1.lines := (congrArg State.lines hframe :)
  have hmem : (ws.foldl State.respond s1).mem = s1.mem := (congrArg State.mem hframe :)
  have hops : (ws.foldl State.respond s1).ops = s1.ops := (congrArg State.ops hframe :)
  have hteams : (ws.foldl State.respond s1).teams = s1.teams := (congrArg State.teams hframe :)
  obtain ⟨sreqs, sops, stdie, -⟩ := hhomes.reqsKept
  have hwaits (r : Req) : r ∈ ws ↔ r ∈ s.reqs ∧ waits r := by simp [ws, waits, haddr]
  refine ⟨_, hexec, hops.trans sops, hteams.trans hhomes.teams, ⟨filled l, ?line, rfl, rfl, rfl, rfl, fun i hi => filled_data l hi⟩,
    fun hslice => ?still, fun r hr hnot => ?others, fun r hr hwait => ?answers⟩
  case line =>
    rw [State.line?, hlines]
    show s1.line? l.addr = _
    rw [State.line?_fitEntries, State.line?_mapLine hf (by rw [haddr]; exact hl)]
  case still =>
    have hfew : s1 = s.mapLine l.addr filled := State.fitEntries_few (by rwa [State.mapLine_sliceLines hf]) 2
    refine ⟨by rw [hmem, hfew]; rfl, fun x hx hne => ?_⟩
    rw [hlines, hfew]
    exact List.mem_map.mpr ⟨x, hx, by simp [hne]⟩
  case others =>
    refine State.responds_other ws s1 (by rw [sreqs]; exact hr) fun w hw hid => ?_
    obtain ⟨hwmem, hwwaits⟩ := (hwaits w).mp hw
    have hsame : w = r := List.inj_on_of_nodup_map (List.pairwise_map.mpr hids) hwmem hr hid
    exact hnot (hsame ▸ hwwaits)
  case answers =>
    have hpair : ws.Pairwise fun p q => p.id ≠ q.id := hids.filter _
    obtain ⟨q, hq, hid, hfilling, hperf, hres, hhops, hplace⟩ := State.responds_each ws s1 hpair
      (fun w hw => by rw [sreqs]; exact ((hwaits w).mp hw).1) r ((hwaits r).mpr ⟨hr, hwait⟩)
    refine ⟨q, hq, hid, hfilling, hperf, hres, ?_, ?_⟩
    · rw [hhops]; simp only [State.routeBack, State.homeStop, stdie]
    · rw [hplace]; simp only [State.homeStop, stdie]

/-- Settles O40: a clean writes its line back, CLINV drops it as well, and a fill that lands supplies what no write has and answers the
requests that wait. -/
theorem linesCleanAndFill : Obligations.LinesCleanAndFill := ⟨cleansPerform_holds, fillsLand_holds⟩

end Sys2Proof.Machine
end

section
/-!
Reads and prefetches at a home slice, and plain loads answered at their core (R195, R338, R339, R375, R419, R458).
-/
namespace Sys2Proof.Machine

/-! ### What a read leaves behind -/

/-- Two parts that differ at most in copies in an L1. -/
def State.copiesOnly (s t : State) : Prop := { t with l1 := s.l1 } = s

theorem State.copiesOnly.trans {s t u : State} (h : s.copiesOnly t) (k : t.copiesOnly u) : s.copiesOnly u := by
  unfold State.copiesOnly at *
  rw [← h, ← k]

theorem State.copiesOnly_l1Fill (s : State) (core key pa : Nat) : s.copiesOnly (s.l1Fill core key pa) := by
  unfold State.l1Fill
  dsimp only
  split <;> rfl

theorem State.copiesOnly_foldl {α : Type} {f : State → α → State} (hf : ∀ (s : State) a, s.copiesOnly (f s a)) (as : List α) (s : State) :
    s.copiesOnly (as.foldl f s) := by
  induction as generalizing s with
  | nil => rfl
  | cons a as ih => exact (hf s a).trans (ih _)

theorem State.copiesOnly_readCopies (s : State) (r : Req) : s.copiesOnly (s.readCopies r) := by
  unfold State.readCopies
  split
  · rfl
  · split
    · exact s.copiesOnly_l1Fill ..
    · rfl

theorem State.copiesOnly.reqsKept {s t : State} (h : s.copiesOnly t) : s.reqsKept t :=
  ⟨(congrArg State.reqs h :), (congrArg State.ops h :), (congrArg State.tdie h :), (congrArg State.nextId h :)⟩
theorem State.copiesOnly.bytesKept {s t : State} (h : s.copiesOnly t) : s.bytesKept t :=
  ⟨(congrArg State.lines h :), (congrArg State.mem h :), (congrArg State.lineKeys h :), (congrArg State.teams h :), (congrArg State.hostMem h :)⟩

/-- What a group has seen is noted in the group alone (R381). -/
theorem State.noteSeen_eq (s : State) (r : Req) : s.noteSeen r = s ∨ ∃ f, s.noteSeen r = s.modGroup r.team r.grp f := by
  unfold State.noteSeen
  dsimp only
  split
  · exact .inl rfl
  · exact .inr ⟨_, rfl⟩

theorem State.bare_noteSeen (s : State) (r : Req) : (s.noteSeen r).bare = s.bare := by
  rcases s.noteSeen_eq r with h | ⟨f, h⟩
  · rw [h]
  · rw [h]
    exact State.bare_modTeam fun _ => rfl

theorem State.noteSeen_kept (s : State) (r : Req) : s.reqsKept (s.noteSeen r) ∧ (s.noteSeen r).clusters = s.clusters := by
  rcases s.noteSeen_eq r with h | ⟨f, h⟩ <;> rw [h] <;> exact ⟨⟨rfl, rfl, rfl, rfl⟩, rfl⟩

/-! ### Fills pending -/

/-- A fill started has its line resident with the fill pending (R339). -/
theorem State.fillLine_pending (s : State) (ctx pa : Nat) (leaf : Word64) : ∃ l, (s.fillLine ctx pa leaf).line? (lineOf pa) = some l ∧
    l.filling = true ∧ (s.line? (lineOf pa) = none → l.fillData = s.fillBytes (keySlot ctx leaf) (lineOf pa)) := by
  rw [State.fillLine_eq]
  split
  next hfilling =>
    cases hl : s.line? (lineOf pa) with
    | none => simp [hl] at hfilling
    | some l => exact ⟨l, rfl, by simpa [hl] using hfilling, fun hnone => by cases hnone⟩
  next =>
    obtain ⟨l, hl⟩ := s.line?_modLine (lineOf pa) (keySlot ctx leaf) (leaf.getLsbD 6)
      (f := Line.awaiting (s.fillBytes (keySlot ctx leaf) (lineOf pa))) fun _ => rfl
    exact ⟨_, hl, rfl, fun _ => rfl⟩

/-- The lines after the fill that a request may need. -/
theorem State.startFill_pending (s : State) (r : Req) (fill : Bool) :
    (fill = false → s.startFill r fill = s) ∧
    (fill = true → ∃ l ∈ (s.startFill r fill).lines, l.addr = lineOf r.pa ∧ l.filling = true ∧
      (s.line? (lineOf r.pa) = none → l.fillData = s.fillBytes (keySlot r.ctx r.leaf) (lineOf r.pa))) := by
  refine ⟨fun h => by simp [State.startFill, h], fun h => ?_⟩
  obtain ⟨l, hl, hfilling, hbytes⟩ := s.fillLine_pending r.ctx r.pa r.leaf
  have hstart : s.startFill r fill = s.fillLine r.ctx r.pa r.leaf := by simp [State.startFill, h]
  rw [hstart]
  exact ⟨l, List.mem_of_find?_eq_some hl, State.line?_addr hl, hfilling, hbytes⟩

/-! ### Reads -/

section
variable {s : State} {r : Req}

/-- The part once the fill a read needs is started, what it saw noted and its core's copies kept. -/
def State.readAfter (s : State) (r : Req) (keep : State → Bool) (fill : Bool) : State :=
  let s2 := (s.startFill r fill).noteSeen r
  if keep s2 then s2 else s2.readCopies r

theorem State.readAfter_frame (keep : State → Bool) (fill : Bool) : s.reqsKept (s.readAfter r keep fill) ∧
    (s.readAfter r keep fill).lines = (s.startFill r fill).lines ∧ (s.readAfter r keep fill).mem = (s.startFill r fill).mem ∧
    (s.readAfter r keep fill).teams.map Team.bare = s.teams.map Team.bare ∧ (s.readAfter r keep fill).clusters = s.clusters := by
  have hhomes : s.homesOnly (s.startFill r fill) := by
    unfold State.startFill
    split
    · exact State.fillLine_homesOnly
    · rfl
  obtain ⟨hseen, hclusters⟩ := (s.startFill r fill).noteSeen_kept r
  have hbare := (s.startFill r fill).bare_noteSeen r
  have hcopies : ((s.startFill r fill).noteSeen r).copiesOnly (s.readAfter r keep fill) := by
    unfold State.readAfter
    dsimp only
    split
    · rfl
    · exact State.copiesOnly_readCopies _ r
  obtain ⟨hlines, hmem, -, hteams, -⟩ := hcopies.bytesKept
  refine ⟨(hhomes.reqsKept.trans hseen).trans hcopies.reqsKept, ?_, ?_, ?_, ?_⟩
  · exact hlines.trans (congrArg State.lines hbare :)
  · exact hmem.trans (congrArg State.mem hbare :)
  · have hbareTeams : ((s.startFill r fill).noteSeen r).teams.map Team.bare = (s.startFill r fill).teams.map Team.bare :=
      (congrArg State.teams hbare :)
    rw [hteams, hbareTeams, hhomes.teams]
  · exact ((congrArg State.clusters hcopies :) : (s.readAfter r keep fill).clusters = _).trans (hclusters.trans hhomes.stored.clusters)

theorem readsPerform_holds : readsPerform := by
  intro s r hslice hkind
  have hread : s.sliceTurn r = s.sliceRead r := by simp only [State.sliceTurn, hkind]
  refine ⟨fun hpa => ?host, fun hpa => ?device⟩
  case host =>
    have hturn : s.sliceTurn r = s.performed r (s.hostRead r.pa r.size) 0 false := by rw [hread, State.sliceRead, if_pos hpa]
    exact State.slicePerforms_of hslice hturn ⟨rfl, rfl, rfl, rfl⟩ ⟨rfl, rfl, rfl, rfl, rfl⟩
  case device =>
    intro l1 addrs fill
    let s1 : State := if r.plain && !r.ord then s.draw else s
    have hs1 : s.reqsKept s1 ∧ s.bytesKept s1 ∧ s1.clusters = s.clusters ∧ (∀ a, s1.readByte r l1 a = s.readByte r l1 a) ∧
        (∀ a, s1.byteAt r l1 a = s.byteAt r l1 a) := by
      dsimp only [s1]
      split <;> exact ⟨⟨rfl, rfl, rfl, rfl⟩, ⟨rfl, rfl, rfl, rfl, rfl⟩, rfl, fun _ => rfl, fun _ => rfl⟩
    obtain ⟨hkept, hbytes, hclusters, hreads, hats⟩ := hs1
    have hfill : (!(reqAddrs r).all (s1.byteAt r l1)) = fill := by
      simp only [List.not_all_eq_any_not, hats, fill]
      rfl
    have hturn : s.sliceTurn r = (s1.readAfter r (fun s2 => l1 && (reqAddrs r).all fun a => (s1.l1Byte r.core a).isSome) fill).performed r
        (addrs.map (s.readByte r l1)) 0 fill := by
      have hmap : (reqAddrs r).map (s1.readByte r l1) = addrs.map (s.readByte r l1) := List.map_congr_left fun a _ => hreads a
      rw [hread, State.sliceRead, if_neg (Nat.not_le.mpr hpa), ← hfill, ← hmap]
      rfl
    obtain ⟨hafter, hlines, hmem, hteams, hafterClusters⟩ := s1.readAfter_frame (r := r)
      (fun s2 => l1 && (reqAddrs r).all fun a => (s1.l1Byte r.core a).isSome) fill
    obtain ⟨hnofill, hfilled⟩ := s1.startFill_pending r fill
    have hlast := State.performed_frame
      (s1.readAfter r (fun s2 => l1 && (reqAddrs r).all fun a => (s1.l1Byte r.core a).isSome) fill) r (addrs.map (s.readByte r l1)) 0 fill
    obtain ⟨plines, pmem, -, pteams, -⟩ := State.performed_bytesKept
      (s1.readAfter r (fun s2 => l1 && (reqAddrs r).all fun a => (s1.l1Byte r.core a).isSome) fill) r (addrs.map (s.readByte r l1)) 0 fill
    obtain ⟨blines, bmem, bkeys, bteams, -⟩ := id hbytes
    refine State.slicePerforms_of hslice hturn (hkept.trans hafter) ⟨fun hf => ?_, fun hf => ?_, ?_, ?_⟩
    · rw [plines, pmem, hlines, hmem, hnofill hf]
      exact ⟨blines, bmem⟩
    · obtain ⟨l, hl, haddr, hpending, hdata⟩ := hfilled hf
      rw [plines, hlines]
      refine ⟨l, hl, haddr, hpending, fun hnone => ?_⟩
      rw [hdata (by rw [hbytes.line?]; exact hnone)]
      exact List.map_congr_left fun i _ => State.memByte_congr bmem bkeys _ _
    · rw [pteams, hteams, bteams]
    · exact ((congrArg State.clusters hlast :) : State.clusters _ = _).trans (hafterClusters.trans hclusters)

/-! ### Loads answered at their core -/

theorem coresAnswer_holds : coresAnswer := by
  intro s r hr hkind hplain hpa hperf hplace hhops hown addrs hbytes
  have hanswers : s.coreAnswers r = true := by
    have hall : (reqAddrs r).all (s.coreByte r (!r.ord)) = true := List.all_eq_true.mpr hbytes
    simp only [State.coreAnswers, Req.atCore, hkind, hplain, hpa, hperf, hplace, hown, hall]
    simpa using hhops
  have hexec : Sys2Proof.Machine.exec .sliceAccess s = .next (s.coreAnswer r) := by
    show execSliceAccess s = _
    simp only [execSliceAccess, hr, hanswers, if_true]
  obtain ⟨⟨hreqs, hops, -, -⟩, -⟩ := s.noteSeen_kept r
  have hbare := s.bare_noteSeen r
  refine ⟨_, hexec, ?_, hops, ?_⟩
  · show { (s.noteSeen r).bare with reqs := (s.coreAnswer r).reqs } = _
    rw [hbare]
  · show ((s.noteSeen r).reqs.map _) = _
    rw [hreqs]
    rfl

end

/-! ### Where a read finds a byte -/

section
variable {s : State} {r : Req} {a : Nat}

/-- A store of a read's own core that it may take a byte of from the write path (R375, R419). -/
def storeFor (r : Req) (a : Nat) (q : Req) : Bool :=
  (q.kind = .write || q.kind = .zero) && !q.performed && q.core = r.core && decide (q.id < r.id) &&
  q.ord = r.ord && (!r.ord || q.team = r.team) && decide (canonPa q.pa ≤ a) && decide (a < canonPa q.pa + q.data.length)

theorem pathServes_storeFor (hkind : r.kind = .read) (hplain : r.plain = true) (hpa : r.pa < hostBase) (q : Req) :
    (pathServes r q && canonPa q.pa ≤ a && a < canonPa q.pa + q.data.length) = storeFor r a q := by
  simp [pathServes, storeFor, Req.inPath, hkind, hplain, hpa, Bool.and_assoc]

/-- The newest such store has the byte. -/
theorem State.pathByte_store {q : Req} (hkind : r.kind = .read) (hplain : r.plain = true) (hpa : r.pa < hostBase)
    (hq : (s.reqs.filter (storeFor r a)).getLast? = some q) : s.pathByte r a = some (q.data.getD (a - canonPa q.pa) 0) := by
  have hmem := List.mem_of_getLast? hq
  have hstore := (List.mem_filter.mp hmem).2
  simp only [storeFor, Bool.and_eq_true, decide_eq_true_eq] at hstore
  have hin : a - canonPa q.pa < q.data.length := by omega
  simp only [State.pathByte, pathServes_storeFor hkind hplain hpa, hq, Option.bind_some, List.getElem?_eq_getElem hin,
    List.getD_eq_getElem?_getD, Option.getD_some]

/-- Without one the write path has no byte for it. -/
theorem State.pathByte_none (hkind : r.kind = .read) (hpa : r.pa < hostBase) (h : r.plain = false ∨ ∀ q ∈ s.reqs, storeFor r a q = false) :
    s.pathByte r a = none := by
  have hempty : (s.reqs.filter fun q => pathServes r q && canonPa q.pa ≤ a && a < canonPa q.pa + q.data.length) = [] := by
    refine List.filter_eq_nil_iff.mpr fun q hq => ?_
    cases hplain : r.plain with
    | false => simp [pathServes, hplain]
    | true =>
      rw [hplain] at h
      rw [pathServes_storeFor hkind hplain hpa, h.resolve_left (by decide) q hq]
      decide
  simp [State.pathByte, hempty]

/-- A byte that neither the write path nor the L1 supplies is that of the task's view, or of the slice. -/
theorem State.readByte_home {l1 : Bool} (hpath : s.pathByte r a = none) (hl1 : (if l1 then s.l1Byte r.core a else none) = none) :
    s.readByte r l1 a =
      if r.ord then s.viewByte r.team (keySlot r.ctx r.leaf) a else s.homeByte (keySlot r.ctx r.leaf) a := by
  simp only [State.readByte, hpath, hl1]

theorem State.l1Byte_none (h : ∀ x ∈ s.l1, x.core = r.core → x.sector ≠ a / 32) : s.l1Byte r.core a = none := by
  have hnone : (s.l1.find? fun x => x.core = r.core && x.sector = a / 32) = none := by
    simp only [List.find?_eq_none, Bool.and_eq_true, decide_eq_true_eq, not_and]
    exact h
  simp [State.l1Byte, hnone]

theorem State.l1Byte_sector {x : L1Sector} (hx : (s.l1.find? fun x => x.core = r.core && x.sector = a / 32) = some x)
    (hlen : x.data.length = 32) : s.l1Byte r.core a = some (x.data.getD (a % 32) 0) := by
  have hin : a % 32 < x.data.length := by omega
  simp [State.l1Byte, hx, List.getElem?_eq_getElem hin]

end

theorem readsSee_holds : readsSee := by
  intro s r l1 a hkind hpa store key slice
  refine ⟨fun q hplain hq => ?path, fun hnone => ⟨fun x hl1 hx hlen => ?copy, fun hl1 => ⟨fun hord => ?slice, fun tm hord htm => ?view⟩⟩,
    fun hline => ?memory, fun l hl hkey => ?line⟩
  case path => simp only [State.readByte, State.pathByte_store hkind hplain hpa hq]
  case copy => simp only [State.readByte, State.pathByte_none hkind hpa hnone, hl1, if_true, State.l1Byte_sector hx hlen]
  case memory => simp only [slice, State.homeByte, hline]
  case line =>
    have haddr := State.line?_addr hl
    simp only [slice, State.homeByte, hl]
    rw [State.lineByte_live s fun hended => absurd hended hkey]
  all_goals
    have hnocopy : (if l1 = true then s.l1Byte r.core a else none) = none := by
      rcases hl1 with hoff | hfree
      · simp [hoff]
      · simp [State.l1Byte_none hfree]
    have hhome := State.readByte_home (State.pathByte_none hkind hpa hnone) hnocopy
  case slice => rw [hhome, hord, if_neg (by decide)]
  case view =>
    rw [hhome, hord, if_pos rfl, State.viewByte_team htm]
    refine ⟨fun e he => by rw [he], fun hset e he => ?_, fun hset hbase => ?_⟩
    · rw [List.find?_eq_none.mpr (by simpa using hset), he]
    · rw [List.find?_eq_none.mpr (by simpa using hset), List.find?_eq_none.mpr (by simpa using hbase)]

/-! ### Prefetches -/

theorem prefetchesPerform_holds : prefetchesPerform := by
  intro s r hslice hkind
  let s1 := s.startFill r (s.needsFill r.pa 128)
  let s2 : State := if r.plain && !r.ord then
    (List.range 4).foldl (fun s i => s.l1Fill r.core (keySlot r.ctx r.leaf) (r.pa + 32 * i)) s1 else s1
  have hexec : Sys2Proof.Machine.exec .sliceAccess s =
      .next (s2.modReq r.id fun q => { q with performed := true, hops := [] }).pruneReqs := by
    rw [hslice.exec]
    simp only [State.sliceTurn, hkind]
    rfl
  have hhomes : s.homesOnly s1 := by
    dsimp only [s1, State.startFill]
    split
    · exact State.fillLine_homesOnly
    · rfl
  have hcopies : s1.copiesOnly s2 := by
    dsimp only [s2]
    split
    · exact State.copiesOnly_foldl (fun s _ => s.copiesOnly_l1Fill ..) _ s1
    · rfl
  obtain ⟨hlines, hmem, hkeys, hteams, hhost⟩ := hcopies.bytesKept
  obtain ⟨hnofill, hfilled⟩ := s.startFill_pending r (s.needsFill r.pa 128)
  refine ⟨_, hexec, ?_, ?_, fun hneed => ?_, fun hfull => ?_, fun hroom hkey b => ?_⟩
  · exact hcopies.reqsKept.2.1.trans hhomes.stored.ops
  · exact hteams.trans hhomes.teams
  · obtain ⟨l, hl, haddr, hpending, -⟩ := hfilled hneed
    exact ⟨l, hlines.symm ▸ hl, haddr, hpending⟩
  · have hsame : s1 = s := hnofill hfull
    exact ⟨hlines.trans (congrArg State.lines hsame), hmem.trans (congrArg State.mem hsame)⟩
  · obtain ⟨-, -, -, -, hfits⟩ := State.startFill_frame (State.liveLine_of_key hkey) (s.needsFill r.pa 128)
    obtain ⟨-, -, hbytes⟩ := hfits (State.fits_of_roomAt hroom)
    rw [← hbytes b]
    exact State.homeByte_congr hlines hmem hkeys _ b

/-- Settles O38: a read finds each byte in its core's writes, its L1, its task's view or its slice, is answered at once or once the fill
it needs has landed, and a prefetch changes no byte. -/
theorem readsPerformAtHome : Obligations.ReadsPerformAtHome :=
  ⟨readsPerform_holds, coresAnswer_holds, readsSee_holds, prefetchesPerform_holds⟩

end Sys2Proof.Machine
end

section
/-!
Memory accesses that complete: what they deliver, and what an acquire leaves behind (R182, R185, R192, R379, R381).
-/
namespace Sys2Proof.Machine

/-! ### What is delivered leaves what a unit has seen -/

theorem applyWrite_seeing (g : Group) (ids : List Nat) (w : RegWrite) : applyWrite (g.seeing ids) w = (applyWrite g w).seeing ids := by
  obtain ⟨reg, lane, value⟩ := w
  cases reg <;> cases lane <;> rfl

theorem applyWrites_seeing (ws : List RegWrite) (g : Group) (ids : List Nat) :
    ws.foldl applyWrite (g.seeing ids) = (ws.foldl applyWrite g).seeing ids := by
  induction ws generalizing g with
  | nil => rfl
  | cons w ws ih => rw [List.foldl_cons, List.foldl_cons, applyWrite_seeing, ih]

theorem raiseFlags_seeing (fl : List (Nat × BitVec 5)) (g : Group) (ids : List Nat) :
    raiseFlags (g.seeing ids) fl = (raiseFlags g fl).seeing ids := by
  induction fl generalizing g with
  | nil => rfl
  | cons e fl ih => exact ih (modThread g e.1 fun t => { t with status := t.status ||| e.2.zeroExtend 32 })

theorem received_seeing (o : Op) (g : Group) (ids : List Nat) : received o (g.seeing ids) = (received o g).seeing ids := by
  unfold received
  rw [applyWrites_seeing, raiseFlags_seeing]
  cases o.flag <;> rfl

theorem received_seen (o : Op) (g : Group) : (received o g).seen = g.seen := by
  have hself : g.seeing g.seen = g := rfl
  have hseen := received_seeing o g g.seen
  rw [hself] at hseen
  exact (congrArg Group.seen hseen :)

/-! ### What a team has seen -/

/-- A unit changed, but not in what it has seen, leaves what its team has. -/
theorem State.writesSeen_modUnit {s : State} {i : Issuer} {f : Group → Group} (hf : ∀ g, (f g).seen = g.seen) (t : Nat) (gs : List Nat) :
    (s.modUnit i f).writesSeen t gs = s.writesSeen t gs ∧ (s.modUnit i f).groupsOf t = s.groupsOf t := by
  cases i with
  | none => exact ⟨rfl, rfl⟩
  | handler c => exact ⟨rfl, rfl⟩
  | group u n =>
    have hgroup (g : Nat) : ((s.modGroup u n f).group? t g).map Group.seen = (s.group? t g).map Group.seen := by
      simp only [State.group?, State.modGroup, State.modTeam, getElem?_modAt]
      split
      · cases s.teams[t]? with
        | none => rfl
        | some tm =>
          simp only [Option.map_some, Option.bind_some, getElem?_modAt]
          split
          · cases tm.groups[g]? <;> simp [hf]
          · rfl
      · rfl
    refine ⟨?_, ?_⟩
    · show (s.modGroup u n f).writesSeen t gs = _
      simp only [State.writesSeen, hgroup]
      rfl
    · simp only [State.modUnit, State.groupsOf, State.modGroup, State.modTeam, getElem?_modAt]
      split
      · cases s.teams[t]? <;> simp [modAt]
      · rfl

theorem State.coreOf_modUnit (s : State) (i j : Issuer) (f : Group → Group) : (s.modUnit i f).coreOf j = s.coreOf j := by
  rw [← State.bare_coreOf, State.bare_modUnit, State.bare_coreOf]

/-- Two changes of one group in either order. -/
theorem State.modGroup_comm {s : State} {t gi : Nat} {f h : Group → Group} (hfh : ∀ g, f (h g) = h (f g)) :
    (s.modGroup t gi f).modGroup t gi h = (s.modGroup t gi h).modGroup t gi f := by
  have hcomp : h ∘ f = f ∘ h := funext fun g => (hfh g).symm
  simp only [State.modGroup, State.modTeam, modAt_modAt]
  congr 2
  funext tm
  simp only [Function.comp, modAt_modAt, hcomp]

/-! ### The completion -/

/-- The part after an access's acquire (R379, R381). -/
def State.acquired (s : State) (o : Op) : State :=
  match o.acquire, o.issuer with
  | some _, .group t g =>
    if (s.writesSeen t (s.groupsOf t)).map Req.id = [] then s
    else s.modGroup t g fun x => x.seeing ((s.writesSeen t (s.groupsOf t)).map Req.id)
  | _, _ => s

/-- The copies that an acquire leaves its core's L1. -/
def State.acquiredCopies (s : State) (o : Op) : List L1Sector :=
  match o.acquire with
  | some sc => if 2 ≤ sc then s.l1.filter (fun x => x.core ≠ s.coreOf o.issuer) else s.l1
  | none => s.l1

/-- The requests that something still waits for once an operation is gone. -/
def State.reqsWithout (s : State) (o : Op) : List Req :=
  s.reqs.filter fun r => !r.performed || r.waitingFill || r.hops ≠ [] || (isWrite r.kind && !r.acked) ||
    s.ops.any fun p => p.id ≠ o.id && r.op = some p.id

theorem State.afterAccess_eq (s : State) (o : Op) :
    s.afterAccess o = { s.acquired o with l1 := s.acquiredCopies o, reqs := s.reqsWithout o } := by
  unfold State.afterAccess State.acquired State.acquiredCopies State.reqsWithout
  cases o.acquire <;> cases o.issuer <;> rfl

theorem State.finishOp_eq (s : State) (o : Op) :
    s.finishOp o = { s.modUnit o.issuer (received o) with ops := s.ops.filter fun p => p.id ≠ o.id } := by
  have hops : (s.modUnit o.issuer (received o)).ops = s.ops := State.modUnit_ops ..
  rw [← hops]
  rfl

/-- An acquire of a group (R192, R381). -/
theorem State.acquireAt_group {s : State} {t g : Nat} (hi : s.issuer = .group t g) (scope : Nat) : s.acquireAt scope =
    let s1 := if (s.writesSeen t (s.groupsOf t)).map Req.id = [] then s
      else s.modGroup t g fun x => x.seeing ((s.writesSeen t (s.groupsOf t)).map Req.id)
    if 2 ≤ scope then s1.l1DropCore (s.coreOf s.issuer) else s1 := by
  unfold State.acquireAt
  simp only [hi]
  cases (s.writesSeen t (s.groupsOf t)).map Req.id <;> rfl

/-- An acquire as an operation's own agent. -/
theorem State.acquireAt_as (s : State) {o : Op} {sc : Nat} (hacq : o.acquire = some sc) :
    s.asIssuer o.issuer (fun s => s.acquireAt sc) = { s.acquired o with l1 := s.acquiredCopies o } := by
  have hdrop (x : State) (hl1 : x.l1 = s.l1) (hissuer : x.issuer = o.issuer) :
      { (if 2 ≤ sc then x.l1DropCore (s.coreOf o.issuer) else x) with issuer := s.issuer } =
        { x with issuer := s.issuer, l1 := s.acquiredCopies o } := by
    simp only [State.acquiredCopies, hacq]
    split
    · simp only [State.l1DropCore, State.l1Drop, hl1, ne_eq, decide_not]
    · rw [← hl1]
  cases hi : o.issuer with
  | group t g =>
    have hacquired : s.acquired o = if (s.writesSeen t (s.groupsOf t)).map Req.id = [] then s
        else s.modGroup t g fun x => x.seeing ((s.writesSeen t (s.groupsOf t)).map Req.id) := by simp only [State.acquired, hacq, hi]
    rw [hi] at hdrop
    rw [hacquired, State.asIssuer, State.acquireAt_group (s := { s with issuer := .group t g }) rfl]
    by_cases hnone : (s.writesSeen t (s.groupsOf t)).map Req.id = []
    · rw [if_pos hnone]
      refine Eq.trans ?_ (hdrop { s with issuer := .group t g } rfl rfl)
      rw [show (({ s with issuer := .group t g } : State).writesSeen t (({ s with issuer := .group t g } : State).groupsOf t)).map Req.id = []
        from hnone]
      rfl
    · rw [if_neg hnone]
      refine Eq.trans ?_ (hdrop (({ s with issuer := .group t g } : State).modGroup t g fun x =>
        x.seeing ((s.writesSeen t (s.groupsOf t)).map Req.id)) rfl rfl)
      rw [if_neg (show ¬ (({ s with issuer := .group t g } : State).writesSeen t
        (({ s with issuer := .group t g } : State).groupsOf t)).map Req.id = [] from hnone)]
      rfl
  | none =>
    have hacquired : s.acquired o = s := by simp only [State.acquired, hacq, hi]
    rw [hi] at hdrop
    rw [hacquired]
    exact hdrop { s with issuer := .none } rfl rfl
  | handler c =>
    have hacquired : s.acquired o = s := by simp only [State.acquired, hacq, hi]
    rw [hi] at hdrop
    rw [hacquired]
    exact hdrop { s with issuer := .handler c } rfl rfl

/-- A delivery and an acquire in either order. -/
theorem State.acquired_finishOp (s : State) (o : Op) :
    (s.finishOp o).acquired o = (s.acquired o).finishOp o ∧ (s.finishOp o).acquiredCopies o = s.acquiredCopies o := by
  have hcore : (s.finishOp o).coreOf o.issuer = s.coreOf o.issuer := by
    rw [State.finishOp_eq]
    exact s.coreOf_modUnit o.issuer o.issuer _
  have hl1 : (s.finishOp o).l1 = s.l1 := by rw [State.finishOp_eq]; exact State.modUnit_l1 ..
  refine ⟨?_, by simp only [State.acquiredCopies, hcore, hl1]⟩
  cases hacq : o.acquire with
  | none =>
    have hkeep (x : State) : x.acquired o = x := by simp only [State.acquired, hacq]
    rw [hkeep, hkeep]
  | some sc =>
    cases hi : o.issuer with
    | none =>
      have hkeep (x : State) : x.acquired o = x := by simp only [State.acquired, hacq, hi]
      rw [hkeep, hkeep]
    | handler c =>
      have hkeep (x : State) : x.acquired o = x := by simp only [State.acquired, hacq, hi]
      rw [hkeep, hkeep]
    | group t g =>
      obtain ⟨hseen, hgroups⟩ := State.writesSeen_modUnit (s := s) (i := o.issuer) (received_seen o) t (s.groupsOf t)
      have hjoined : (s.finishOp o).writesSeen t ((s.finishOp o).groupsOf t) = s.writesSeen t (s.groupsOf t) := by
        rw [State.finishOp_eq, ← hseen, ← hgroups]
        rfl
      simp only [State.acquired, hacq, hi, hjoined]
      split
      · rfl
      · have hcomm := State.modGroup_comm (s := s) (t := t) (gi := g) (f := received o)
          (h := fun x => x.seeing ((s.writesSeen t (s.groupsOf t)).map Req.id)) fun x => received_seeing o x _
        rw [State.finishOp_eq, State.finishOp_eq, hi]
        exact (congrArg (fun x : State => { x with ops := s.ops.filter fun p => p.id ≠ o.id }) hcomm :)

/-- An operation delivered leaves copies and requests alone. -/
theorem State.finishOp_with (s : State) (o : Op) (l1 : List L1Sector) (reqs : List Req) :
    ({ s with l1 := l1, reqs := reqs } : State).finishOp o = { s.finishOp o with l1 := l1, reqs := reqs } := by
  rw [State.finishOp_eq, State.finishOp_eq]
  cases o.issuer <;> rfl

theorem State.acquired_reqs_ops (s : State) (o : Op) : (s.acquired o).reqs = s.reqs ∧ (s.acquired o).ops = s.ops := by
  unfold State.acquired
  split
  · split <;> exact ⟨rfl, rfl⟩
  · exact ⟨rfl, rfl⟩

/-- An access that completes: what it leaves behind, and its delivery. -/
theorem State.completeMem_eq (s : State) (o : Op) : s.completeMem o = (s.afterAccess o).finishOp o := by
  obtain ⟨hacquired, hcopies⟩ := s.acquired_finishOp o
  obtain ⟨hreqs, hops⟩ := s.acquired_reqs_ops o
  have hfinish : ((s.acquired o).finishOp o).reqs = s.reqs ∧ ((s.acquired o).finishOp o).ops = s.ops.filter fun p => p.id ≠ o.id := by
    rw [State.finishOp_eq, hops]
    exact ⟨(State.modUnit_reqs ..).trans hreqs, rfl⟩
  have hacquire : (match o.acquire with
      | some sc => (s.finishOp o).asIssuer o.issuer fun s => s.acquireAt sc
      | none => s.finishOp o) = { (s.acquired o).finishOp o with l1 := s.acquiredCopies o } := by
    rw [← hacquired, ← hcopies]
    cases hacq : o.acquire with
    | some sc => exact (s.finishOp o).acquireAt_as hacq
    | none => simp only [State.acquired, State.acquiredCopies, hacq]
  have hkept : (({ (s.acquired o).finishOp o with l1 := s.acquiredCopies o } : State).pruneReqs) =
      { (s.acquired o).finishOp o with l1 := s.acquiredCopies o, reqs := s.reqsWithout o } := by
    obtain ⟨hfreqs, hfops⟩ := hfinish
    simp only [State.pruneReqs, State.reqsWithout, hfreqs, hfops, List.any_filter]
  rw [State.afterAccess_eq, State.finishOp_with, ← hkept, ← hacquire]
  rfl

/-- An event whose answer is a completed access. -/
theorem State.completes_access {s base : State} {i : Instr} {o : Op} (h : Sys2Proof.Machine.exec i s = .next (base.completeMem o)) :
    s.completes i o (base.afterAccess o) := State.completes_of_finishOp (h.trans (by rw [State.completeMem_eq]))

end Sys2Proof.Machine
end

section
/-!
What loads and atomics deliver, and the accesses that complete (R182, R185, R189, R192).
-/
namespace Sys2Proof.Machine

/-! ### Loaded values -/

theorem natOfBytes_lt (bs : List Byte) : natOfBytes bs < 2 ^ (8 * bs.length) := by
  induction bs with
  | nil => simp [natOfBytes]
  | cons b bs ih =>
    have hb := b.isLt
    have hpow : 2 ^ (8 * (bs.length + 1)) = 256 * 2 ^ (8 * bs.length) := by rw [Nat.mul_succ, Nat.pow_add]; ring
    rw [natOfBytes, List.length_cons, hpow]
    omega

/-- The top bit of a row of bytes. -/
theorem bitOf_natOfBytes_top {bs : List Byte} (h : 1 ≤ bs.length) :
    bitOf (natOfBytes bs) (8 * bs.length - 1) = decide (2 ^ (8 * bs.length - 1) ≤ natOfBytes bs) := by
  have hlt := natOfBytes_lt bs
  have hsucc : 8 * bs.length - 1 + 1 = 8 * bs.length := by omega
  rw [bitOf_top (by rwa [hsucc]), decide_eq_decide, Nat.pow_succ']
  omega

/-- A loaded value, sign-extended where the word says so (R182). -/
def extended (size : Nat) (signed : Bool) (x : Nat) : Nat :=
  if signed = true ∧ size < 4 ∧ 2 ^ (8 * size - 1) ≤ x then x + 2 ^ 32 - 2 ^ (8 * size) else x

theorem extendBytes_eq {bs : List Byte} (h : 1 ≤ bs.length) (signed : Bool) : extendBytes bs signed = extended bs.length signed (natOfBytes bs) := by
  simp only [extendBytes, extended, bitOf_natOfBytes_top h, Bool.and_eq_true, decide_eq_true_eq, and_assoc]

section
variable {bs : List Byte} {d : LoadDest} {tag : Nat} (hlen : bs.length = d.size) (hpos : 1 ≤ d.size)
include hlen hpos

theorem mem_loadWrites_v {n j : Nat} (hreg : d.reg = .v n) (hj : 4 * j < d.size) :
    ⟨.v (n + j), d.lane, BitVec.ofNat 32 (extended d.size d.signed (natOfBytes bs) / 2 ^ (32 * j))⟩ ∈ loadWrites bs d tag := by
  refine List.mem_append_left _ (List.mem_map.mpr ⟨j, List.mem_range.mpr (by omega), ?_⟩)
  rw [extendBytes_eq (by omega), hlen, hreg]

theorem mem_loadWrites_k {n j : Nat} (hreg : d.reg = .k n) (hj : 4 * j < d.size) :
    ⟨.k (n + j), d.lane, BitVec.ofNat 32 (extended d.size d.signed (natOfBytes bs) / 2 ^ (32 * j))⟩ ∈ loadWrites bs d tag := by
  refine List.mem_append_left _ (List.mem_map.mpr ⟨j, List.mem_range.mpr (by omega), ?_⟩)
  rw [extendBytes_eq (by omega), hlen, hreg]

end

theorem mem_loadWrites_tag {bs : List Byte} {d : LoadDest} {tag : Nat} {q : RegName} (hq : d.tagReg = some q) :
    ⟨q, d.lane, BitVec.ofNat 32 tag⟩ ∈ loadWrites bs d tag := by
  simp [loadWrites, hq]

/-! ### Results of requests -/

section
variable {s : State} {o : Op} {dests : List (Nat × LoadDest)}

theorem resultWrites_due {w : RegWrite} (h : w ∈ s.resultWrites o dests) : (w.reg, w.lane) ∈ o.dests := by
  simpa using (List.mem_filter.mp h).2

theorem mem_resultWrites {d : Nat × LoadDest} {r : Req} {w : RegWrite} (hd : d ∈ dests)
    (hr : (s.reqsOf o).find? (fun r => r.lane = d.1) = some r) (hlen : r.result.length = d.2.size)
    (hw : w ∈ loadWrites r.result d.2 r.tag.toNat) (hdue : (w.reg, w.lane) ∈ o.dests) : w ∈ s.resultWrites o dests := by
  refine List.mem_filter.mpr ⟨List.mem_flatMap.mpr ⟨d, hd, ?_⟩, by simpa using hdue⟩
  simp only [hr, ← hlen, List.take_length]
  exact hw

theorem answered_iff : s.answered o = true ↔ ∀ r ∈ s.reqsOf o, r.performed = true ∧ r.waitingFill = false ∧ r.hops = [] := by
  simp [State.answered, and_assoc]

end

/-! ### Accesses that complete -/

/-- What an access with nothing left to move does in its turn (R185). -/
def State.accessTurn (s : State) (o : Op) : Out :=
  match o.effect with
  | .load dests | .atomic dests =>
    if s.answered o then .next (s.completeMem { o with writes := s.resultWrites o dests }) else .next s
  | .tileLoad scr ga len tries v => s.await o (.padFill ga scr 8) (.next (s.loadTile o scr ga len tries v))
  | .tileStore ga data step => s.await o (.bufFill false ga 0 8) (.next (s.storeTile o ga data step))
  | _ =>
    let ready := if o.kind = .cmaint then s.answered o
      else match o.release with | some sc => sc < 2 || (s.reqsOf o).all Req.acked | none => true
    if ready then .next (s.completeMem o) else .next s

theorem memoryAccessComplete_done {s : State} {o : Op} (ho : s.opOf [.mem, .cmaint, .fifoPush, .fifoPop] = some o) (htodo : o.todo = []) :
    Sys2Proof.Machine.exec .memoryAccessComplete s = s.accessTurn o := by
  show execMemoryAccessComplete s = _
  simp only [execMemoryAccessComplete, ho, State.progress, htodo]
  rfl

theorem accessesReturn_holds : accessesReturn := by
  intro s o ho htodo rs answered
  have hturn := memoryAccessComplete_done ho htodo
  have hanswered : answered ↔ s.answered o = true := answered_iff.symm
  refine ⟨fun dests heffect hall => ⟨s.resultWrites o dests, ?_, fun w hw => resultWrites_due hw, fun d hd r hr hlen hpos => ?_⟩,
    fun hkind heffect hall => ?_, fun hkind heffect hacked => ?_⟩
  · refine State.completes_access (o := { o with writes := s.resultWrites o dests }) (hturn.trans ?_)
    rcases heffect with he | he <;> simp only [State.accessTurn, he, hanswered.mp hall, if_true]
  · refine ⟨fun n j l hreg hj hlane hdue => ?_, fun n j hreg hj hdue => ?_, fun q hq hdue => ?_⟩
    · exact mem_resultWrites hd hr hlen (hlane ▸ mem_loadWrites_v hlen hpos hreg hj) hdue
    · exact mem_resultWrites hd hr hlen (mem_loadWrites_k hlen hpos hreg hj) hdue
    · have htag := mem_resultWrites hd hr hlen (mem_loadWrites_tag hq) hdue
      rwa [BitVec.ofNat_toNat] at htag
  · refine State.completes_access (hturn.trans ?_)
    simp only [State.accessTurn, heffect, hkind, hanswered.mp hall, if_true]
  · refine State.completes_access (hturn.trans ?_)
    have hready : (match o.release with | some sc => sc < 2 || (s.reqsOf o).all Req.acked | none => true) = true := by
      cases hrel : o.release with
      | none => rfl
      | some sc =>
        by_cases hsc : sc < 2
        · simp [hsc]
        · have hacks : (s.reqsOf o).all Req.acked = true := List.all_eq_true.mpr (hacked sc hrel (by omega))
          simp [hacks]
    simp only [State.accessTurn, heffect, if_neg hkind]
    exact if_pos hready

end Sys2Proof.Machine
end

section
/-!
What a write leaves: units, and the bytes of a scratchpad (R188, R213).
-/
namespace Sys2Proof.Machine

/-! ### Units kept -/

/-- Every unit is as it was. -/
def State.keepsUnits (s u : State) : Prop := ∀ j, u.unitOf j = s.unitOf j

theorem State.keepsUnits_refl (s : State) : s.keepsUnits s := fun _ => rfl

theorem State.keepsUnits.trans {s t u : State} (h : s.keepsUnits t) (k : t.keepsUnits u) : s.keepsUnits u :=
  fun j => (k j).trans (h j)

/-- Units stand in teams and clusters. -/
theorem State.keepsUnits_of_eq {s u : State} (hteams : u.teams = s.teams) (hclusters : u.clusters = s.clusters) : s.keepsUnits u := by
  intro j
  cases j <;> simp only [State.unitOf, State.group?, hteams, hclusters]

theorem State.keepsUnits_foldl {α : Type} {f : State → α → State} (hf : ∀ (s : State) a, s.keepsUnits (f s a)) (as : List α) (s : State) :
    s.keepsUnits (as.foldl f s) := by
  induction as generalizing s with
  | nil => exact s.keepsUnits_refl
  | cons a as ih => exact (hf s a).trans (ih _)

theorem State.keepsUnits_modTeam {t : Nat} {f : Team → Team} (hf : ∀ a, (f a).groups = a.groups) (s : State) : s.keepsUnits (s.modTeam t f) :=
  s.unitOf_modTeam hf

theorem State.keepsUnits_modOp (s : State) (o : Op) (f : Op → Op) : s.keepsUnits (s.modOp o f) := State.keepsUnits_of_eq rfl rfl

/-! ### Writes keep units -/

theorem State.keepsUnits_writeHome (s : State) (team ctx va pa : Nat) (leaf : Word64) (adds : Nat) (bs : List Byte) :
    s.keepsUnits (s.writeHome team ctx va pa leaf adds bs) := by
  unfold State.writeHome
  split
  · exact State.keepsUnits_of_eq rfl rfl
  · split
    · exact State.keepsUnits_modTeam (fun _ => by rfl) s
    · have hstored := s.sliceWrite_storedOnly ctx (keySlot ctx leaf) pa (leafClassA leaf) true adds bs
      exact State.keepsUnits_of_eq hstored.teams hstored.clusters

theorem State.keepsUnits_writeBy (s : State) (tr : Nat → Trans) (team ctx va : Nat) (bs : List Byte) :
    s.keepsUnits (s.writeBy tr team ctx va bs) := by
  refine State.keepsUnits_foldl (fun s p => ?_) _ s
  split
  · exact s.keepsUnits_writeHome team ctx _ _ _ 1 _
  · exact s.keepsUnits_refl

theorem State.keepsUnits_storeBy (s : State) (tr : Nat → Trans) (i : Issuer) (through : Bool) (rows : List (Nat × List Byte)) :
    s.keepsUnits (s.storeBy tr i through rows) := by
  refine State.keepsUnits_foldl (fun s r => State.keepsUnits.trans (s.keepsUnits_writeBy tr _ _ _ _)
    (State.keepsUnits_foldl (fun s p => ?_) _ _)) _ s
  split
  · split <;> exact State.keepsUnits_of_eq rfl rfl
  · exact s.keepsUnits_refl

theorem State.keepsUnits_contribute (s : State) (team ctx va pa : Nat) (leaf : Word64) (seq size aop operand adds : Nat) :
    s.keepsUnits (s.contribute team ctx va pa leaf seq size aop operand adds) := by
  unfold State.contribute
  split
  · exact State.keepsUnits_modTeam (fun _ => by rfl) s
  · exact s.keepsUnits_writeHome team ctx va pa leaf adds _

/-! ### The bytes of a scratchpad -/

theorem scratchByte_scratchPut_same {t : Team} {a : Nat} (b : Byte) (h : a < 32768 * t.banks.length) : scratchByte (scratchPut t a b) a = b := by
  have hbank : a / 32768 < t.banks.length := by omega
  simp only [scratchByte, scratchPut, getElem?_modAt, if_true, List.getElem?_eq_getElem hbank, Option.map_some, Cells.get_put_same]

theorem scratchByte_scratchPut_other {t : Team} {a x : Nat} (b : Byte) (h : x ≠ a) : scratchByte (scratchPut t a b) x = scratchByte t x := by
  simp only [scratchByte, scratchPut, getElem?_modAt]
  by_cases hbank : a / 32768 = x / 32768
  · have hplace : x % 32768 ≠ a % 32768 := by omega
    rw [if_pos hbank]
    cases t.banks[x / 32768]? with
    | none => rfl
    | some k => exact Cells.get_put_other _ _ hplace
  · rw [if_neg hbank]

/-- A row written to a scratchpad (R213). -/
theorem scratchByte_scratchWrite {bs : List Byte} {t : Team} {a : Nat} (h : a + bs.length ≤ 32768 * t.banks.length) (x : Nat) :
    scratchByte (scratchWrite t a bs) x = if a ≤ x ∧ x < a + bs.length then bs.getD (x - a) 0 else scratchByte t x := by
  induction bs generalizing t a with
  | nil => rw [List.length_nil, if_neg (by omega)]; rfl
  | cons b bs ih =>
    have hbanks : (scratchPut t a b).banks.length = t.banks.length := length_modAt ..
    simp only [List.length_cons] at h ⊢
    rw [scratchWrite, ih (by omega)]
    rcases Nat.lt_trichotomy x a with hlt | rfl | hgt
    · rw [if_neg (by omega), if_neg (by omega), scratchByte_scratchPut_other b (by omega)]
    · rw [if_neg (by omega), if_pos (by omega), scratchByte_scratchPut_same b (by omega)]
      simp
    · have hnext : x - a = x - (a + 1) + 1 := by omega
      rw [scratchByte_scratchPut_other b (by omega), hnext, List.getD_cons_succ]
      exact if_congr (by omega) rfl rfl

theorem scratchWrite_groups (bs : List Byte) (t : Team) (a : Nat) : (scratchWrite t a bs).groups = t.groups := by
  induction bs generalizing t a with
  | nil => rfl
  | cons b bs ih => exact ih ..

theorem scratchPut_padless (t : Team) (a : Nat) (b : Byte) : (scratchPut t a b).padless = t.padless := by
  have hbanks := map_modAt t.banks (a / 32768) (fun k => { k with bytes := Cells.put 0 k.bytes (a % 32768) b })
    (fun k => ({ k with bytes := [] } : Bank)) fun _ => rfl
  simp only [Team.padless, scratchPut, Team.bare, hbanks]

theorem scratchWrite_padless (bs : List Byte) (t : Team) (a : Nat) : (scratchWrite t a bs).padless = t.padless := by
  induction bs generalizing t a with
  | nil => rfl
  | cons b bs ih => exact (ih ..).trans (scratchPut_padless ..)

/-! ### Writes to a scratchpad -/

theorem State.keepsUnits_padStore (s : State) (t : Nat) (gs : List Nat) (a : Nat) (bs : List Byte) : s.keepsUnits (s.padStore t gs a bs) := by
  have hpublished := (s.modTeam t fun tm => scratchWrite tm a bs).updatesOnly_publish t gs a bs
  exact (s.keepsUnits_modTeam (scratchWrite_groups bs · a)).trans
    (State.keepsUnits_of_eq hpublished.teams (congrArg State.clusters hpublished :))

theorem State.padStore_ops (s : State) (t : Nat) (gs : List Nat) (a : Nat) (bs : List Byte) : (s.padStore t gs a bs).ops = s.ops :=
  (congrArg State.ops ((s.modTeam t fun tm => scratchWrite tm a bs).updatesOnly_publish t gs a bs) :)

theorem State.padStore_teams (s : State) (t : Nat) (gs : List Nat) (a : Nat) (bs : List Byte) :
    (s.padStore t gs a bs).teams = modAt s.teams t fun tm => scratchWrite tm a bs :=
  ((s.modTeam t fun tm => scratchWrite tm a bs).updatesOnly_publish t gs a bs).teams

/-- A write to a scratchpad changes its bytes alone, beside updates (R213, R320). -/
theorem State.padStore_holds {s s0 : State} (hs0 : s0.bare = s.bare) (hteams : s0.teams = s.teams) (t : Nat) (gs : List Nat) (a : Nat)
    (bs : List Byte) : s.padHolds (s0.padStore t gs a bs) t a bs := by
  have hafter := s0.padStore_teams t gs a bs
  rw [hteams] at hafter
  refine ⟨⟨?_, ?_, fun v => ⟨fun hv => ?_, ?_⟩⟩, fun tm tm' htm htm' hfit x => ?_⟩
  · have hpublished := (s0.modTeam t fun tm => scratchWrite tm a bs).updatesOnly_publish t gs a bs
    have hrest := congrArg (fun u : State => ({ u.bare with teams := [], updates := [] } : State)) hpublished
    exact Eq.trans hrest (congrArg (fun u : State => ({ u with teams := [], updates := [] } : State)) hs0 :)
  · rw [hafter, length_modAt]
  · rw [hafter, getElem?_modAt, if_neg (Ne.symm hv)]
  · rw [hafter, getElem?_modAt]
    split
    · cases s.teams[v]? with
      | none => rfl
      | some tm => exact congrArg some (scratchWrite_padless bs tm a)
    · rfl
  · rw [hafter, getElem?_modAt, if_pos rfl, htm] at htm'
    rw [← Option.some.inj htm']
    exact scratchByte_scratchWrite hfit x

theorem State.keepsUnits_sideWrite (s : State) (o : Op) (side a : Nat) (bs : List Byte) : s.keepsUnits (s.sideWrite o side a bs) := by
  unfold State.sideWrite
  split
  · exact s.keepsUnits_storeBy _ _ _ _
  · exact s.keepsUnits_padStore _ _ _ _
  · exact State.keepsUnits_modTeam (fun _ => by rfl) s

end Sys2Proof.Machine
end

section
/-!
Moves performed: each piece is read and written at its own moment (R188, R189, R194, R317, R318, R339, R372).
-/
namespace Sys2Proof.Machine

/-! ### Turns of an operation with moves left -/

/-- Each event of `moveEvents` gives its operation a turn. -/
theorem exec_moveEvent {s : State} {e : Instr} {ks : List OpKind} {o : Op} (he : (e, ks) ∈ moveEvents) (ho : s.opOf ks = some o) :
    ∃ done, Sys2Proof.Machine.exec e s = s.progress o done := by
  have hsome {f : Op → Out} : (match s.opOf ks with | none => Host.Outcome.next s | some p => f p) = f o := by rw [ho]
  simp only [moveEvents, List.mem_cons, List.not_mem_nil, or_false, Prod.mk.injEq] at he
  rcases he with ⟨rfl, rfl⟩ | ⟨rfl, rfl⟩ | ⟨rfl, rfl⟩ | ⟨rfl, rfl⟩ | ⟨rfl, rfl⟩ | ⟨rfl, rfl⟩ | ⟨rfl, rfl⟩ | ⟨rfl, rfl⟩
  · exact ⟨_, hsome⟩
  · exact ⟨_, hsome⟩
  · exact ⟨_, hsome⟩
  · exact ⟨_, hsome⟩
  · exact ⟨_, hsome⟩
  · exact ⟨_, hsome⟩
  · exact ⟨_, hsome⟩
  · exact ⟨_, hsome⟩

section
variable {s : State} {o : Op} {m : Move} {rest : List Move} (htodo : o.todo = m :: rest) (done : Op → Out)
include htodo

theorem State.progress_cons : s.progress o done = s.await o m (.next ((s.modOp o fun p => { p with todo := rest }).perform o m)) := by
  simp only [State.progress, htodo]

theorem State.progress_held (h : s.moveHeld o m = true) : s.progress o done = .next s := by
  rw [State.progress_cons htodo, State.await, if_pos h]

theorem State.progress_fills (h : s.moveHeld o m = false) (hfills : s.moveFills o m ≠ []) :
    s.progress o done = .next (s.startFills (s.ctxOf o.issuer) (s.moveFills o m)) := by
  rw [State.progress_cons htodo, State.await, if_neg (by simp [h])]
  cases hf : s.moveFills o m with
  | nil => exact absurd hf hfills
  | cons f fs => rfl

theorem State.progress_movable (h : s.movable o m) :
    s.progress o done = .next ((s.modOp o fun p => { p with todo := rest }).perform o m) :=
  (State.progress_cons htodo done).trans (State.await_go h.1 h.2)

end

/-- Fills start under the context of the operation's issuer, which they leave alone. -/
theorem State.startFills_ctxOf (fs : List (Nat × Word64)) (s : State) (i : Issuer) :
    s.startFills (s.ctxOf i) fs = fs.foldl (fun s f => s.fillLine (s.ctxOf i) f.1 f.2) s := by
  induction fs generalizing s with
  | nil => rfl
  | cons f fs ih =>
    have hhomes : s.homesOnly (s.fillLine (s.ctxOf i) f.1 f.2) := State.fillLine_homesOnly
    have hctx : (s.fillLine (s.ctxOf i) f.1 f.2).ctxOf i = s.ctxOf i := (congrArg (State.ctxOf · i) hhomes :)
    rw [List.foldl_cons, ← ih, hctx]
    rfl

/-! ### An operation changed twice -/

theorem State.modOp_modOp {s : State} {o : Op} {f g : Op → Op} (hid : ∀ p, (f p).id = p.id) :
    (s.modOp o f).modOp o g = s.modOp o fun p => g (f p) := by
  have hops : ((s.ops.map fun p => if p.id = o.id then f p else p).map fun p => if p.id = o.id then g p else p) =
      s.ops.map fun p => if p.id = o.id then g (f p) else p := by
    rw [List.map_map]
    refine List.map_congr_left fun p _ => ?_
    by_cases hp : p.id = o.id
    · simp [hp, hid]
    · simp [hp]
  exact (congrArg (fun ops => { s with ops := ops }) hops :)

/-- What an operation reads does not depend on what is outstanding. -/
theorem State.opTrans_modOp (s : State) (o p : Op) (f : Op → Op) : (s.modOp o f).opTrans p = s.opTrans p := by
  have htranslate (die ctx va : Nat) : (s.modOp o f).translate die ctx va = s.translate die ctx va :=
    State.translate_congr (State.homeBytes_congr rfl rfl rfl) rfl rfl die ctx va
  funext va
  show (s.modOp o f).transBy p.trans (s.coreOf p.issuer / 48) (s.ctxOf p.issuer) va = _
  simp only [State.transBy, htranslate]
  rfl

theorem State.opRead_modOp (s : State) (o p : Op) (f : Op → Op) (va n : Nat) : (s.modOp o f).opRead p va n = s.opRead p va n := by
  rw [State.opRead, State.opTrans_modOp]
  rfl

theorem State.sideRead_modOp (s : State) (o p : Op) (f : Op → Op) (side a n : Nat) :
    (s.modOp o f).sideRead p side a n = s.sideRead p side a n := by
  simp only [State.sideRead, State.opRead_modOp]
  rfl

/-! ### A team changed -/

/-- A team changed alone. -/
theorem State.modTeam_alone {s s0 : State} (hs0 : s0.bare = s.bare) (hteams : s0.teams = s.teams) (t : Nat) (f : Team → Team) :
    ({ (s0.modTeam t f).bare with teams := [] } : State) = { s.bare with teams := [] } ∧
    ∀ v, ((s0.modTeam t f).teams[v]?).map Team.bare = (s.teams[v]?).map fun tm => if v = t then (f tm).bare else tm.bare := by
  refine ⟨(congrArg (fun u : State => ({ u with teams := [] } : State)) hs0 :), fun v => ?_⟩
  show ((modAt s0.teams t f)[v]?).map Team.bare = _
  rw [hteams, getElem?_modAt]
  by_cases hv : t = v
  · subst hv
    simp only [if_true, Option.map_map]
    rfl
  · simp only [if_neg hv, if_neg (Ne.symm hv)]

theorem tilePuts_groups (k part : Nat) (bs : List Byte) (js : List Nat) (tm : Team) :
    (js.foldl (fun tm j => tilePut tm k (part / 2) (8 * (part % 2) + j) (BitVec.ofNat 32 (natOfBytes ((bs.drop (4 * j)).take 4)))) tm).groups =
      tm.groups := by
  induction js generalizing tm with
  | nil => rfl
  | cons j js ih => exact ih _

/-! ### The first move taken off -/

/-- The part once an operation's first move is off what it has left to move. -/
def State.leaving (s : State) (o : Op) (rest : List Move) : State := s.modOp o fun p => { p with todo := rest }

theorem State.leaving_modOp (s : State) (o : Op) (rest : List Move) (f : Op → Op) :
    ((s.leaving o rest).modOp o f).bare = s.bare ∧
    ((s.leaving o rest).modOp o f).ops = s.ops.map fun p => if p.id = o.id then f { p with todo := rest } else p :=
  ⟨rfl, (congrArg State.ops (State.modOp_modOp (s := s) (o := o) (g := f) (f := fun p => { p with todo := rest }) fun _ => rfl) :)⟩

/-- A scratchpad write of an operation that has taken its first move off. -/
theorem State.leaving_padStore (s : State) (o : Op) (rest : List Move) (a : Nat) (bs : List Byte) :
    s.padHolds ((s.leaving o rest).sideWrite o 1 a bs) (issuerTeam o.issuer) a bs ∧
    ((s.leaving o rest).sideWrite o 1 a bs).ops = (s.leaving o rest).ops :=
  ⟨State.padStore_holds rfl rfl _ _ a bs, (s.leaving o rest).padStore_ops _ _ a bs⟩

theorem State.leaving_modTeam (s : State) (o : Op) (rest : List Move) (t : Nat) (f : Team → Team) :
    ({ ((s.leaving o rest).modTeam t f).bare with teams := [] } : State) = { s.bare with teams := [] } ∧
    ∀ v, (((s.leaving o rest).modTeam t f).teams[v]?).map Team.bare = (s.teams[v]?).map fun tm => if v = t then (f tm).bare else tm.bare :=
  State.modTeam_alone rfl rfl t f

/-! ### Moves -/

/-- A move leaves every unit as it was: registers are written when an operation is delivered. -/
theorem State.keepsUnits_perform (s : State) (o : Op) (m : Move) : s.keepsUnits (s.perform o m) := by
  cases m with
  | padRead a d => exact s.keepsUnits_modOp _ _
  | padWrite a data => exact s.keepsUnits_sideWrite _ _ _ _
  | padAtomic a aop wide b cmp dest =>
    cases dest with
    | none => exact s.keepsUnits_sideWrite _ _ _ _
    | some d => exact State.keepsUnits.trans (s.keepsUnits_sideWrite o 1 a _) (State.keepsUnits_modOp _ _ _)
  | padFill va a n => exact s.keepsUnits_sideWrite _ _ _ _
  | store va data => exact s.keepsUnits_storeBy _ _ _ _
  | word va reg lane => exact s.keepsUnits_modOp _ _
  | bufFill src a dst n => exact s.keepsUnits_sideWrite _ _ _ _
  | tileFill k va part => exact State.keepsUnits_modTeam (tilePuts_groups k part _ _) s
  | copyRead side a side' b n => exact s.keepsUnits_modOp _ _
  | copyWrite side b data => exact s.keepsUnits_sideWrite _ _ _ _
  | fetch va n => exact s.keepsUnits_modOp _ _
  | pause => exact s.keepsUnits_refl
  | scatter va seq aop values =>
    simp only [State.perform]
    split
    · exact State.keepsUnits.trans (State.keepsUnits_foldl (fun s i => s.keepsUnits_contribute _ _ _ _ _ _ _ _ _ _) _ s) (State.keepsUnits_of_eq rfl rfl)
    · exact s.keepsUnits_refl

theorem movesPerform_holds : movesPerform := by
  intro s e ks o m rest he ho htodo
  obtain ⟨done, hturn⟩ := exec_moveEvent he ho
  rw [hturn]
  refine ⟨State.progress_held htodo done, fun hheld hfills => ?_, fun hmove => ?_⟩
  · rw [State.progress_fills htodo done hheld hfills, State.startFills_ctxOf]
  have htrans : (s.leaving o rest).opTrans o = s.opTrans o := s.opTrans_modOp o o _
  have hread (va n : Nat) : (s.leaving o rest).opRead o va n = s.opRead o va n := s.opRead_modOp o o _ va n
  have hside (side a n : Nat) : (s.leaving o rest).sideRead o side a n = s.sideRead o side a n := s.sideRead_modOp o o _ side a n
  obtain ⟨u, hu⟩ : ∃ u, u = (s.leaving o rest).perform o m := ⟨_, rfl⟩
  have hunits : s.keepsUnits u := hu ▸ State.keepsUnits.trans (s.keepsUnits_modOp _ _) (State.keepsUnits_perform _ o m)
  refine ⟨u, hu ▸ State.progress_movable htodo done hmove, hunits, ?_⟩
  intro t s0 left pad team
  have hpad (a n : Nat) : s.sideRead o 1 a n = pad a n := by
    dsimp only [pad, State.sideRead]
    cases s.teams[t]? <;> rfl
  cases m with
  | padRead a d =>
    simp only [State.perform, hside, hpad] at hu
    subst hu
    exact s.leaving_modOp o rest _
  | padWrite a data =>
    subst hu
    exact s.leaving_padStore o rest a data
  | padAtomic a aop wide b cmp dest =>
    simp only [State.perform, State.padAtomic, hside, hpad] at hu
    obtain ⟨hholds, hops⟩ := s.leaving_padStore o rest a (bytesOfNat (if wide then 8 else 4)
      (atomicNew aop wide (natOfBytes (pad a (if wide then 8 else 4))) b cmp))
    cases dest with
    | none =>
      subst hu
      exact ⟨hholds, hops⟩
    | some d =>
      subst hu
      exact ⟨hholds, (congrArg (List.map _) hops).trans (s.leaving_modOp o rest _).2⟩
  | padFill va a n =>
    simp only [State.perform, hread] at hu
    subst hu
    exact s.leaving_padStore o rest a _
  | store va data =>
    simp only [State.perform, State.opStore, htrans] at hu
    exact hu
  | word va reg lane =>
    simp only [State.perform, hread] at hu
    subst hu
    exact s.leaving_modOp o rest _
  | bufFill src a dst n =>
    cases src with
    | false =>
      simp only [State.perform, hside] at hu
      subst hu
      exact ⟨rfl, s.leaving_modTeam o rest _ _⟩
    | true =>
      simp only [State.perform, hside, if_true, hpad] at hu
      subst hu
      exact ⟨rfl, s.leaving_modTeam o rest _ _⟩
  | tileFill k va part =>
    simp only [State.perform, hread] at hu
    subst hu
    exact ⟨rfl, s.leaving_modTeam o rest _ _⟩
  | copyRead side a side' b n =>
    simp only [State.perform, hside] at hu
    subst hu
    exact s.leaving_modOp o rest _
  | copyWrite side b data => exact hu
  | fetch va n =>
    simp only [State.perform, hread] at hu
    subst hu
    exact s.leaving_modOp o rest _
  | pause =>
    subst hu
    exact ⟨rfl, rfl⟩
  | scatter va seq aop values =>
    simp only [State.perform, htrans] at hu
    dsimp only
    cases ht : s.opTrans o va with
    | ok pa leaf page size =>
      simp only [ht] at hu
      exact hu
    | absent level =>
      simp only [ht] at hu
      exact hu
    | malformed =>
      simp only [ht] at hu
      exact hu

end Sys2Proof.Machine
end

section
/-!
The sectors of an extent (R372).
-/
namespace Sys2Proof.Machine

/-- The sector of an extent at some place. -/
def sectorAt (va n i : Nat) : Option (Nat × Nat) :=
  let lo := if i = 0 then va else (va / 32 + i) * 32
  let hi := min ((va / 32 + i + 1) * 32) (va + n)
  if lo < hi then some (lo, hi - lo) else none

theorem sectors_eq (va n : Nat) : sectors va n = (List.range ((n + 31) / 32 + 1)).filterMap (sectorAt va n) := rfl

/-- A sector lies in its extent and within one multiple of 32. -/
theorem sectorAt_bounds {va n i : Nat} {p : Nat × Nat} (h : sectorAt va n i = some p) :
    0 < p.2 ∧ p.1 / 32 = va / 32 + i ∧ (p.1 + p.2 - 1) / 32 = va / 32 + i ∧ va ≤ p.1 ∧ p.1 + p.2 ≤ va + n := by
  simp only [sectorAt, Option.ite_none_right_eq_some, Option.some.injEq] at h
  obtain ⟨hlt, rfl⟩ := h
  by_cases hi : i = 0
  · simp only [hi, if_true] at hlt ⊢
    omega
  · simp only [if_neg hi] at hlt ⊢
    omega

/-- A byte of an extent lies in the sector of its multiple of 32, and in no other. -/
theorem sectorAt_holds {va n x : Nat} (hlo : va ≤ x) (hhi : x < va + n) (i : Nat) :
    ((sectorAt va n i).map fun p => decide (p.1 ≤ x) && decide (x < p.1 + p.2)).getD false = decide (i = x / 32 - va / 32) := by
  by_cases hi : i = x / 32 - va / 32
  · have hfirst : (if i = 0 then va else (va / 32 + i) * 32) ≤ x := by split <;> omega
    have hlast : x < min ((va / 32 + i + 1) * 32) (va + n) := by omega
    simp only [sectorAt, if_pos (Nat.lt_of_le_of_lt hfirst hlast), Option.map_some, Option.getD_some]
    simp only [hfirst, decide_true, Bool.true_and, decide_eq_decide]
    omega
  · rw [decide_eq_false hi]
    cases hs : sectorAt va n i with
    | none => rfl
    | some p =>
      obtain ⟨-, hbase, hend, -, -⟩ := sectorAt_bounds hs
      simp only [Option.map_some, Option.getD_some, Bool.and_eq_false_iff, decide_eq_false_iff_not]
      omega

theorem sectorsCover_holds : sectorsCover := by
  intro a n
  constructor
  · intro p hp
    obtain ⟨i, -, hi⟩ := List.mem_filterMap.mp hp
    obtain ⟨hpos, hfirst, hlast, hlo, hhi⟩ := sectorAt_bounds hi
    exact ⟨hpos, hfirst.trans hlast.symm, hlo, hhi⟩
  · intro x hlo hhi
    have hplace : x / 32 - a / 32 ∈ List.range ((n + 31) / 32 + 1) := List.mem_range.mpr (by omega)
    rw [← List.countP_eq_length_filter, sectors_eq, List.countP_filterMap]
    simp only [sectorAt_holds hlo hhi]
    exact List.count_eq_one_of_mem List.nodup_range hplace

/-! ### Tile copies under a version -/

section
variable {s : State} {o : Op} (ho : s.opOf [.mem, .cmaint, .fifoPush, .fifoPop] = some o) (htodo : o.todo = [])
include ho htodo

/-- The turn of `LDT.AON` between its copies (R194). -/
theorem memoryAccessComplete_tileLoad {scr ga len tries : Nat} {seen : Option Nat} (heffect : o.effect = .tileLoad scr ga len tries seen)
    (hmove : s.movable o (.padFill ga scr 8)) :
    Sys2Proof.Machine.exec .memoryAccessComplete s = .next (s.loadTile o scr ga len tries seen) := by
  rw [memoryAccessComplete_done ho htodo]
  simp only [State.accessTurn, heffect]
  exact State.await_go hmove.1 hmove.2

/-- The turn of `STT.AON` between its stores (R194). -/
theorem memoryAccessComplete_tileStore {ga step : Nat} {data : List Byte} (heffect : o.effect = .tileStore ga data step)
    (hmove : s.movable o (.bufFill false ga 0 8)) :
    Sys2Proof.Machine.exec .memoryAccessComplete s = .next (s.storeTile o ga data step) := by
  rw [memoryAccessComplete_done ho htodo]
  simp only [State.accessTurn, heffect]
  exact State.await_go hmove.1 hmove.2

end

/-- A try whose two versions agree and are even ends its copy (R194). -/
theorem State.loadTile_good (s : State) (o : Op) (scr ga len tries : Nat) {v : Nat} (hv : v = natOfBytes (s.opRead o ga 8)) (heven : v % 2 = 0) :
    s.loadTile o scr ga len tries (some v) = s.completeMem { o with writes := o.writes.map fun w => { w with value := 0 } } := by
  simp [State.loadTile, ← hv, heven]

theorem State.loadTile_bad (s : State) (o : Op) (scr ga len tries : Nat) {v : Nat}
    (hbad : v ≠ natOfBytes (s.opRead o ga 8) ∨ natOfBytes (s.opRead o ga 8) % 2 = 1) : s.loadTile o scr ga len tries (some v) =
      if 15 ≤ tries then s.completeMem { o with writes := o.writes.map fun w => { w with value := 1 } }
      else s.modOp o fun p => { p with effect := .tileLoad scr ga len (tries + 1) none } := by
  have hgood : (v = natOfBytes (s.opRead o ga 8) && natOfBytes (s.opRead o ga 8) % 2 = 0 : Bool) = false := by
    rw [Bool.and_eq_false_iff, decide_eq_false_iff_not, decide_eq_false_iff_not]
    omega
  simp only [State.loadTile, hgood, Bool.false_or, decide_eq_true_eq]
  rfl

theorem tileCopiesPerform_holds : tileCopiesPerform := by
  intro s o ho htodo
  refine ⟨fun scr ga len tries seen heffect hmove => ?_, fun ga data step heffect hmove => ?_⟩
  · have hturn := memoryAccessComplete_tileLoad ho htodo heffect hmove
    refine ⟨fun hnone => ?_, fun v1 hseen => ⟨fun hsame heven => ?_, fun hbad htries => ?_, fun hbad htries => ?_⟩⟩
    · subst hnone
      exact hturn
    · subst hseen
      exact State.completes_access (hturn.trans (by rw [s.loadTile_good o scr ga len tries hsame (hsame ▸ heven)]))
    · subst hseen
      exact State.completes_access (hturn.trans (by rw [s.loadTile_bad o scr ga len tries hbad, if_pos htries]))
    · subst hseen
      exact hturn.trans (by rw [s.loadTile_bad o scr ga len tries hbad, if_neg (by omega)]; rfl)
  · have hturn := memoryAccessComplete_tileStore ho htodo heffect hmove
    refine ⟨fun hfirst => ?_, fun hlast => ?_⟩
    · subst hfirst
      exact hturn
    · exact State.completes_access (hturn.trans (by rw [State.storeTile, if_neg hlast]; rfl))

/-- Settles O32: an access answered delivers what its requests found, what is left to move is moved piece by piece, and the
copies of `LDT.AON` and `STT.AON` go through their versions. -/
theorem accessesReturnAndMove : Obligations.AccessesReturn :=
  ⟨accessesReturn_holds, movesPerform_holds, sectorsCover_holds, tileCopiesPerform_holds⟩

end Sys2Proof.Machine
end

section
/-!
Words that a whole group issues at once (R169), and the records that they and the command processor enter in the cinder ring (R428).
-/
namespace Sys2Proof.Machine

/-! ### A word that every live thread of its group issues -/

/-- A unit before a word that it gathers for, and the unit in which the word executes. -/
def Group.gathersTo (g g0 : Group) : Prop :=
  sameRegs g g0 ∧ g0.seen = g.seen ∧ g0.run = g.run ∧ g0.hold = g.hold ∧ g0.clause.isSome = true

/-- A cross-lane word with an immediate, which names its whole cohort as these words do. -/
def cohortWord : AluW := { head := pairHead, dst := 0, opa := 0, opb := specImm, opc := 0, mod := 0 }

theorem crossMask_cohortWord (g : Group) : crossMask cohortWord g = g.cohort := rfl

theorem namedLanes_cohort (g : Group) : namedLanes g g.cohort = activeMask g := by
  apply BitVec.eq_of_getLsbD_eq
  intro l _
  simp only [namedLanes, activeMask, BitVec.getLsbD_and, getLsbD_maskOf]
  cases g.cohort.getLsbD l <;> simp

/-- A word that the whole group issues executes in the unit in which its threads stand held. -/
theorem State.wholly.run {s : State} {h : Head} {check : Group → WordCheck} {g : Group} (hwhole : s.wholly h check g) :
    ∃ g0, g.gathersTo g0 ∧ flagFree g0 h ∧ ∀ go : State → Group → Out,
      (s.issueWord h check fun g => s.gather g g.cohort g.cohort (fun _ => (0, 0)) fun s g _ => go s g) =
        go (s.modUnit s.issuer fun _ => g0) g0 := by
  obtain ⟨hu, hfree, hgathered | ⟨hpass, c, hclause, hgathered, hlive, hheld, hlanes⟩⟩ := hwhole
  · cases hclause : g.clause with
    | none => simp [gatheredNow, hclause] at hgathered
    | some c =>
      have hc : c.gathered = true := by simpa [gatheredNow, hclause] using hgathered
      refine ⟨g, ⟨sameRegs.refl g, rfl, rfl, rfl, by simp [hclause]⟩, hfree, fun go => ?_⟩
      rw [State.modUnit_eq_self hu rfl]
      simp only [State.issueWord, hu, hgathered, if_true, State.gather, hclause, hc]
  · have hready : crossReady cohortWord g c :=
      ⟨hclause, hgathered, hheld, by rwa [crossMask_cohortWord, namedLanes_cohort], by rwa [crossMask_cohortWord, namedLanes_cohort]⟩
    have hissues : s.issues h check g := ⟨hu, by simp [gatheredNow, hclause, hgathered], hpass⟩
    refine ⟨gatheredGroup g c g.cohort g.cohort fun _ => (0, 0), ⟨sameRegs_gatheredGroup .., rfl, rfl, rfl, rfl⟩,
      flagFree_gatheredGroup hready _ _ hfree, fun go => ?_⟩
    exact (hissues.run _).trans (gather_ready hready g.cohort (fun _ => (0, 0)) s fun s g _ => go s g)

/-- A team keeps everything but its groups while a unit changes. -/
theorem State.modUnit_team {s : State} {t : Nat} {tm : Team} (htm : s.teams[t]? = some tm) (i : Issuer) (f : Group → Group) :
    ∃ gs, (s.modUnit i f).teams[t]? = some { tm with groups := gs } := by
  cases i with
  | none => exact ⟨_, htm⟩
  | handler c => exact ⟨_, htm⟩
  | group u gi =>
    simp only [State.modUnit, State.modGroup, State.modTeam, getElem?_modAt, htm]
    split <;> exact ⟨_, rfl⟩

theorem State.bare_launchOf (s : State) (t : Nat) : s.bare.launchOf t = s.launchOf t := by
  simp only [State.launchOf, State.bare, List.getElem?_map]
  cases s.teams[t]? <;> rfl

theorem State.launchOf_of_bare {s u : State} (h : u.bare = s.bare) (t : Nat) : u.launchOf t = s.launchOf t := by
  rw [← u.bare_launchOf, h, s.bare_launchOf]

theorem readOpd_of_same {g g' : Group} (h : sameRegs g g') (l : Nat) (d : Spec) (j : Nat) : readOpd g' l d j = readOpd g l d j := by
  obtain ⟨hk, -, hthreads, -⟩ := h
  obtain ⟨hv, hp, hx, -⟩ := hthreads l
  have hP (n : Nat) : readP (threadAt g' l) n = readP (threadAt g l) n := by simp [readP, hp]
  unfold readOpd
  dsimp only
  split
  · simp [readV, hv]
  · exact hk _
  · rw [hP]
  · simp [readV, hv, effective, hx]
  · rfl

/-! ### A gathered word that is past -/

/-- A unit past a word that it gathered for. -/
def pastWord (g : Group) : Group :=
  advance 1 (match g.clause with
    | some c => { releaseThreads g c with latch := none }
    | none => { g with latch := none })

theorem sameRegs_pastWord (g : Group) : sameRegs g (pastWord g) := by
  unfold pastWord
  refine sameRegs.trans ?_ (sameRegs_advance 1 _)
  cases g.clause with
  | none => exact sameRegs.refl g
  | some c => exact sameRegs_releaseThreads g c

theorem pastWord_hold {g : Group} (h : g.clause.isSome = true ∨ g.hold = .none) : (pastWord g).hold = .none := by
  unfold pastWord advance
  cases hclause : g.clause with
  | none => simpa [hclause] using h
  | some c =>
    simp only [releaseThreads, hclause]
    split <;> rfl

theorem State.unitOf_releaseBy {s : State} {g : Group} (hu : s.unitOf s.issuer = some g) :
    (s.releaseBy 1).unitOf s.issuer = some (pastWord g) := by
  rw [State.releaseBy, State.retire, State.unitOf_issued, State.modUnit_issuer]
  exact State.unitOf_modUnit_same _ (State.unitOf_modUnit_same _ hu)

theorem State.unitOf_releaseBy_other {s : State} {j : Issuer} (hj : j ≠ s.issuer) : (s.releaseBy 1).unitOf j = s.unitOf j := by
  rw [State.releaseBy, State.unitOf_retire_other 1 (by simpa using hj), State.unitOf_modUnit_other _ hj]

@[simp] theorem State.releaseBy_bare (s : State) : (s.releaseBy 1).bare = s.bare := by simp [State.releaseBy]
@[simp] theorem State.releaseBy_ops (s : State) : (s.releaseBy 1).ops = s.ops := by simp [State.releaseBy]

/-- A word that a whole group issues and passes at once: its unit reads what it read, and the part is as the word's own work leaves it. -/
theorem State.wholly.runs {s : State} {h : Head} {check : Group → WordCheck} {g : Group} {i : Instr} {part : State → Prop}
    {go : State → Group → Out} (hwhole : s.wholly h check g)
    (hexec : Sys2Proof.Machine.exec i s =
      s.issueWord h check fun g => s.gather g g.cohort g.cohort (fun _ => (0, 0)) fun s g _ => go s g)
    (hgo : ∀ g0, g.gathersTo g0 → flagFree g0 h → ∃ v : State, go (s.modUnit s.issuer fun _ => g0) g0 = .next (v.releaseBy 1) ∧
      v.issuer = s.issuer ∧ (∃ g1, v.unitOf s.issuer = some g1 ∧ sameRegs g0 g1) ∧ (∀ j, j ≠ s.issuer → v.unitOf j = s.unitOf j) ∧
      part (v.releaseBy 1)) : s.runs i (fun g' => g.still g') part := by
  obtain ⟨g0, hgathers, hfree, hrun⟩ := hwhole.run
  obtain ⟨v, hv, hissuer, ⟨g1, hunit, hregs⟩, hothers, hpart⟩ := hgo g0 hgathers hfree
  refine ⟨v.releaseBy 1, pastWord g1, (hexec.trans (hrun go)).trans hv, ?_, fun j hj => ?_, Group.still_of_sameRegs ?_, hpart⟩
  · rw [← hissuer] at hunit ⊢
    exact State.unitOf_releaseBy hunit
  · rw [State.unitOf_releaseBy_other (hissuer ▸ hj), hothers j hj]
  · exact (hgathers.1.trans hregs).trans (sameRegs_pastWord g1)

/-! ### Records of the cinder ring (R428) -/

/-- Parts that differ at most in what a record leaves: the ring, and the memory and line keys of its slot. -/
def State.recordsOnly (s t : State) : Prop :=
  { t with mem := s.mem, lineKeys := s.lineKeys, cinder := s.cinder, cinderSeq := s.cinderSeq, chain := s.chain, signDue := s.signDue } = s

theorem State.recordsOnly.trans {s t u : State} (h : s.recordsOnly t) (k : t.recordsOnly u) : s.recordsOnly u := by
  unfold State.recordsOnly at *
  rw [← h, ← k]

section
variable {s t : State} (h : s.recordsOnly t)
include h
theorem State.recordsOnly.issuer : t.issuer = s.issuer := (congrArg State.issuer h :)
theorem State.recordsOnly.ops : t.ops = s.ops := (congrArg State.ops h :)
theorem State.recordsOnly.teams : t.teams = s.teams := (congrArg State.teams h :)
theorem State.recordsOnly.clusters : t.clusters = s.clusters := (congrArg State.clusters h :)
theorem State.recordsOnly.launches : t.launches = s.launches := (congrArg State.launches h :)
theorem State.recordsOnly.steps : t.steps = s.steps := (congrArg State.steps h :)
theorem State.recordsOnly.lines : t.lines = s.lines := (congrArg State.lines h :)
theorem State.recordsOnly.handles : t.handles = s.handles := (congrArg State.handles h :)
end

/-- The address of the slot that takes the `k`-th record from now on. -/
def State.recordSlot (s : State) (k : Nat) : Nat := canonPa (s.cinderBase + 64 * ((s.cinderSeq.toNat + k) % 4194304))

/-- `n` records have been entered, and memory holds what it held but for their slots. -/
def State.enters (s t : State) (n : Nat) : Prop :=
  t.cinderBase = s.cinderBase ∧ t.cinderSeq = s.cinderSeq + BitVec.ofNat 64 n ∧
    ∀ a : Nat, (∀ k, k < n → s.cinderBase ≠ 0 → ¬ (s.recordSlot k ≤ a ∧ a < s.recordSlot k + 64)) →
      Cells.get emptyByte t.mem a = Cells.get emptyByte s.mem a

theorem State.enters_none {s t : State} (hbase : t.cinderBase = s.cinderBase) (hseq : t.cinderSeq = s.cinderSeq) (hmem : t.mem = s.mem) :
    s.enters t 0 := ⟨hbase, by simp [hseq], fun _ _ => by rw [hmem]⟩

theorem State.enters.trans {s t u : State} {m n : Nat} (h : s.enters t m) (k : t.enters u n) : s.enters u (m + n) := by
  obtain ⟨hbase, hseq, hmem⟩ := h
  obtain ⟨kbase, kseq, kmem⟩ := k
  have hslot (i : Nat) : t.recordSlot i = s.recordSlot (m + i) := by
    have hplace : (t.cinderSeq.toNat + i) % 4194304 = (s.cinderSeq.toNat + (m + i)) % 4194304 := by
      rw [hseq, BitVec.toNat_add, BitVec.toNat_ofNat]
      omega
    rw [State.recordSlot, hbase, hplace, State.recordSlot]
  refine ⟨kbase.trans hbase, ?_, fun a ha => (kmem a fun i hi hne => ?_).trans (hmem a fun i hi => ha i (by omega))⟩
  · rw [kseq, hseq, BitVec.add_assoc, BitVec.ofNat_add]
  · rw [hslot]
    exact ha (m + i) (by omega) (hbase ▸ hne)

/-- Memory is kept in the statements' sense while the ring's counter has not come round. -/
theorem State.enters.memKept {s t : State} {n : Nat} (h : s.enters t n) (hn : n < 2 ^ 64) : s.memKept t := by
  obtain ⟨hbase, hseq, hmem⟩ := h
  intro a ha
  refine hmem a fun k hk hne hin => ha ⟨hbase ▸ hne, k, ?_, hbase ▸ hin⟩
  have hcount : (t.cinderSeq - s.cinderSeq).toNat = n := by
    rw [hseq, BitVec.toNat_sub, BitVec.toNat_add, BitVec.toNat_ofNat]
    omega
  rwa [hcount]

/-- The 64 bytes of a record. -/
def State.recordBody (s : State) (type queue lnum : Nat) (payload : List Byte) : List Byte :=
  bytesOfNat 1 type ++ bytesOfNat 1 queue ++ bytesOfNat 2 lnum ++ bytesOfNat 4 0 ++ bytesOfNat 8 s.cinderSeq.toNat ++
    bytesOfNat 8 s.timer.toNat ++ (payload ++ List.replicate (40 - payload.length) 0).take 40

theorem State.length_recordBody (s : State) (type queue lnum : Nat) (payload : List Byte) :
    (s.recordBody type queue lnum payload).length = 64 := by
  simp only [State.recordBody, List.length_append, length_bytesOfNat, List.length_take, List.length_replicate]
  omega

/-- The part before a record moves the ring on: the record stands in its slot once the ring has a place in memory. -/
def State.recordPlaced (s : State) (body : List Byte) : State :=
  if s.cinderBase = 0 then s
  else { s with mem := putBytes s.mem (s.recordSlot 0) body, lineKeys := Cells.put 0 s.lineKeys (s.recordSlot 0 / 128) deviceKey }

theorem State.record_eq (s : State) (type queue lnum : Nat) (payload : List Byte) : ∃ cinder chain signDue,
    s.record type queue lnum payload = { s.recordPlaced (s.recordBody type queue lnum payload) with
      cinder := cinder, cinderSeq := s.cinderSeq + 1, chain := chain, signDue := signDue } :=
  ⟨_, _, _, rfl⟩

theorem State.record_recordsOnly (s : State) (type queue lnum : Nat) (payload : List Byte) :
    s.recordsOnly (s.record type queue lnum payload) := by
  obtain ⟨_, _, _, h⟩ := s.record_eq type queue lnum payload
  rw [h, State.recordPlaced]
  split <;> rfl

theorem State.record_enters (s : State) (type queue lnum : Nat) (payload : List Byte) : s.enters (s.record type queue lnum payload) 1 := by
  obtain ⟨_, _, _, h⟩ := s.record_eq type queue lnum payload
  rw [h, State.recordPlaced]
  split
  · exact ⟨rfl, rfl, fun _ _ => rfl⟩
  next hbase =>
    refine ⟨rfl, rfl, fun a ha => get_putBytes_outside _ _ _ _ ?_⟩
    have hout := ha 0 (by omega) hbase
    rw [State.length_recordBody]
    omega

end Sys2Proof.Machine
end

section
/-!
Steps with deadlines (R432, R434, R435), and how the issue slots serve groups and guard them from starving (R206).
-/
namespace Sys2Proof.Machine

/-! ### DLN and PROG -/

/-- The deadline of a step after a declaration, and the steps: its own brought forward, or one more while there is room (R432). -/
def State.deadlineDue (s : State) (id due : Nat) : Nat :=
  match (s.steps.find? fun x => x.id = id).map StepRec.deadline with | some d => min d due | none => due
def State.declared (s : State) (id due : Nat) (declarer : Option Nat) : List StepRec :=
  if s.stepsFull id then s.steps
  else if s.stepOpen id then s.steps.map fun x =>
    if x.id = id then { x with deadline := s.deadlineDue id due, queue := if x.queue.isSome then x.queue else declarer } else x
  else s.steps ++ [⟨id, s.launches.length, s.deadlineDue id due, declarer, false, false, false⟩]

theorem State.declareStep_eq (s : State) (queue lnum id budget : Nat) (declarer : Option Nat) :
    s.declareStep queue lnum id budget declarer = ({ s with steps := s.declared id (s.timer.toNat + 100 * budget) declarer } : State).stepRecord
      queue lnum id (s.deadlineDue id (s.timer.toNat + 100 * budget)) := by
  unfold State.declareStep State.declared State.deadlineDue
  dsimp only
  split
  · rfl
  · split <;> rfl

section
variable {s : State} {id : Nat}

theorem State.stepOpen_iff : s.stepOpen id = true ↔ ∃ x ∈ s.steps, x.id = id := by simp [State.stepOpen]

theorem State.stepsFull_iff : s.stepsFull id = true ↔ (∀ x ∈ s.steps, x.id ≠ id) ∧ 16 ≤ s.steps.length := by
  simp [State.stepsFull, State.stepOpen]

theorem State.deadlineDue_le (due : Nat) : s.deadlineDue id due ≤ due := by
  unfold State.deadlineDue
  split
  · exact Nat.min_le_right _ _
  · exact Nat.le_refl _

theorem State.deadlineDue_new (hnew : ∀ x ∈ s.steps, x.id ≠ id) (due : Nat) : s.deadlineDue id due = due := by
  have hnone : (s.steps.find? fun x => x.id = id) = none := List.find?_eq_none.mpr fun x hx => by simpa using hnew x hx
  rw [State.deadlineDue, hnone]
  rfl

/-- A declaration of a step that has been declared brings its deadline forward. -/
theorem State.declared_open (hopen : ∃ x ∈ s.steps, x.id = id) (due : Nat) :
    ((s.declared id due none).map fun x => (x.id, x.queue)) = (s.steps.map fun x => (x.id, x.queue)) ∧
      ∀ x ∈ s.declared id due none, x.id = id → x.deadline ≤ due := by
  have hfull : s.stepsFull id = false := by
    rw [Bool.eq_false_iff, ne_eq, State.stepsFull_iff]
    rintro ⟨hnew, -⟩
    obtain ⟨x, hx, hid⟩ := hopen
    exact hnew x hx hid
  rw [State.declared, hfull, if_neg (by simp), if_pos (State.stepOpen_iff.mpr hopen)]
  refine ⟨?_, fun x hx hid => ?_⟩
  · rw [List.map_map]
    refine List.map_congr_left fun x _ => ?_
    simp only [Function.comp]
    split
    · cases x.queue <;> rfl
    · rfl
  · obtain ⟨y, -, rfl⟩ := List.mem_map.mp hx
    split at hid
    · rw [if_pos (by assumption)]
      exact State.deadlineDue_le due
    · contradiction

theorem State.declared_new (hnew : ∀ x ∈ s.steps, x.id ≠ id) (hroom : s.steps.length < 16) (due : Nat) (declarer : Option Nat) :
    s.declared id due declarer = s.steps ++ [⟨id, s.launches.length, due, declarer, false, false, false⟩] := by
  rw [State.declared, if_neg (by rw [State.stepsFull_iff]; omega), if_neg (by rw [State.stepOpen_iff]; grind), State.deadlineDue_new hnew]

end

/-- A declaration of a step, with its record, whether or not there is room for the step. -/
theorem State.declareStep_recorded (s : State) (queue lnum id budget : Nat) (declarer : Option Nat) :
    let d : State := { s with steps := s.declared id (s.timer.toNat + 100 * budget) declarer }
    d.recordsOnly (s.declareStep queue lnum id budget declarer) ∧ d.enters (s.declareStep queue lnum id budget declarer) 1 := by
  rw [State.declareStep_eq]
  exact ⟨State.record_recordsOnly .., State.record_enters ..⟩

theorem State.unitOf_congr {s u : State} (hteams : u.teams = s.teams) (hclusters : u.clusters = s.clusters) (j : Issuer) :
    u.unitOf j = s.unitOf j := by cases j <;> simp [State.unitOf, State.group?, hteams, hclusters]

/-- The part once a launch has declared a step and joined it. -/
def State.joined (s : State) (queue lnum id budget launch : Nat) : State :=
  let d := s.declareStep queue lnum id budget none
  if s.stepsFull id then d else d.modLaunch launch fun l => { l with steps := if l.steps.contains id then l.steps else l.steps ++ [id] }

theorem State.joined_frame (s : State) (queue lnum id budget launch : Nat) :
    let j := s.joined queue lnum id budget launch
    j.issuer = s.issuer ∧ j.ops = s.ops ∧ j.teams = s.teams ∧ j.clusters = s.clusters ∧ j.lines = s.lines ∧ s.enters j 1 := by
  obtain ⟨hrecords, henters⟩ := s.declareStep_recorded queue lnum id budget none
  unfold State.joined
  dsimp only
  split <;> exact ⟨hrecords.issuer, hrecords.ops, hrecords.teams, hrecords.clusters, hrecords.lines, henters⟩

theorem State.joined_steps (s : State) (queue lnum id budget launch : Nat) :
    (s.joined queue lnum id budget launch).steps = s.declared id (s.timer.toNat + 100 * budget) none := by
  have hrecords := (s.declareStep_recorded queue lnum id budget none).1
  unfold State.joined
  dsimp only
  split <;> exact hrecords.steps

theorem State.joined_launches (s : State) (queue lnum id budget launch : Nat) :
    (s.joined queue lnum id budget launch).launches = if s.stepsFull id then s.launches
      else modAt s.launches launch fun l => { l with steps := if l.steps.contains id then l.steps else l.steps ++ [id] } := by
  have hrecords := (s.declareStep_recorded queue lnum id budget none).1
  unfold State.joined
  dsimp only
  split
  · exact hrecords.launches
  · exact congrArg (modAt · launch _) hrecords.launches

theorem dlnGo_goes {w : SysW} {s : State} {g : Group} {tm : Team} {l : Launch} (htm : s.teams[s.viewTeam s.issuer]? = some tm)
    (hl : s.launchOf (s.viewTeam s.issuer) = some l) (hfree : flagFree g w.head) : dlnGo w s g = .next (State.releaseBy (
      if (readOpd g 0 w.a 0).toNat = 0 then s
      else s.joined l.queue l.num.toNat (readOpd g 0 w.a 0).toNat (max 1 (min 1000000 (readOpd g 0 w.b 0).toNat)) tm.launch) 1) := by
  have hblocked : flagBlocked g (selectedFlag g w.head.fs) = false := hfree
  simp only [dlnGo, htm, hl, hblocked, Bool.false_eq_true, if_false]
  split <;> rfl

theorem progGo_goes {w : SysW} {g : Group} (hfree : flagFree g w.head) (s : State) : progGo w s g = .next ((s.modTeam (s.viewTeam s.issuer) fun tm =>
    { tm with estimate := some (tm.issued + 1024 * (readOpd g 0 w.a 0).toNat) }).releaseBy 1) := by
  have hblocked : flagBlocked g (selectedFlag g w.head.fs) = false := hfree
  simp only [progGo, hblocked, Bool.false_eq_true, if_false]

theorem State.bare_modTeam_set {s : State} {t : Nat} {tm : Team} (htm : s.teams[t]? = some tm) (f : Team → Team) :
    (s.modTeam t f).bare = { s.bare with teams := s.bare.teams.set t (f tm).bare } := by
  simp only [State.bare, State.modTeam, modAt_eq_set f htm, List.map_set]

/-- What a declaration of a step for a launch leaves of the steps and the launches (R432, R435). -/
def State.declares (s u : State) (id due launch : Nat) : Prop :=
  ((∃ x ∈ s.steps, x.id = id) → (u.steps.map fun x => (x.id, x.queue)) = (s.steps.map fun x => (x.id, x.queue)) ∧
    ∀ x ∈ u.steps, x.id = id → x.deadline ≤ due) ∧
  ((∀ x ∈ s.steps, x.id ≠ id) → s.steps.length < 16 → u.steps = s.steps ++ [⟨id, s.launches.length, due, none, false, false, false⟩]) ∧
  ((∀ x ∈ s.steps, x.id ≠ id) → 16 ≤ s.steps.length → u.steps = s.steps ∧ u.launches = s.launches) ∧
  (((∃ x ∈ s.steps, x.id = id) ∨ s.steps.length < 16) → u.launches = modAt s.launches launch fun l =>
    { l with steps := if l.steps.contains id then l.steps else l.steps ++ [id] })

theorem State.declares_congr {s s' u u' : State} {id due launch : Nat} (h : s.declares u id due launch) (hsteps : s'.steps = s.steps)
    (hlaunches : s'.launches = s.launches) (husteps : u'.steps = u.steps) (hulaunches : u'.launches = u.launches) :
    s'.declares u' id due launch := by
  unfold State.declares at h ⊢
  rwa [hsteps, hlaunches, husteps, hulaunches]

theorem State.joined_declares (s : State) (queue lnum id budget launch : Nat) :
    s.declares (s.joined queue lnum id budget launch) id (s.timer.toNat + 100 * budget) launch := by
  unfold State.declares
  rw [State.joined_steps, State.joined_launches]
  refine ⟨fun hopen => State.declared_open hopen _, fun hnew hroom => State.declared_new hnew hroom _ _, fun hnew hfull => ?_, fun hroom => if_neg ?_⟩
  · have hfull := State.stepsFull_iff.mpr ⟨hnew, hfull⟩
    exact ⟨by rw [State.declared, if_pos hfull], if_pos hfull⟩
  · rw [State.stepsFull_iff]
    rintro ⟨hnew, hfull⟩
    obtain ⟨x, hx, hid⟩ | hroom := hroom
    · exact hnew x hx hid
    · omega

theorem stepsDeclare_holds : stepsDeclare := by
  intro w s g t tm l ht htm hl id due
  subst ht
  -- the part as the word finds it, once the threads of its unit stand held
  have hat (g0 : Group) : let v := s.modUnit s.issuer fun _ => g0
      ∃ gs, v.teams[v.viewTeam v.issuer]? = some { tm with groups := gs } ∧ v.launchOf (v.viewTeam v.issuer) = some l := by
    obtain ⟨gs, hgs⟩ := State.modUnit_team htm s.issuer fun _ => g0
    have hview : (s.modUnit s.issuer fun _ => g0).viewTeam (s.modUnit s.issuer fun _ => g0).issuer = s.viewTeam s.issuer :=
      congrArg s.viewTeam (State.modUnit_issuer ..)
    exact ⟨gs, by rw [hview, hgs], by rw [hview, State.launchOf_of_bare (State.bare_modUnit ..), hl]⟩
  refine ⟨fun hwhole hid => ?zero, fun hwhole hid => ?declares, fun hwhole => ?reports⟩
  case zero =>
    refine hwhole.runs (i := .dln w) (go := dlnGo w) rfl fun g0 hgathers hfree => ⟨s.modUnit s.issuer fun _ => g0, ?_, State.modUnit_issuer ..,
      ⟨g0, State.unitOf_modUnit_same _ hwhole.1, sameRegs.refl g0⟩, fun j hj => State.unitOf_modUnit_other _ hj, by simp [State.unmoved, State.cancelWrites_nil]⟩
    obtain ⟨gs, htm0, hl0⟩ := hat g0
    rw [dlnGo_goes htm0 hl0 hfree, readOpd_of_same hgathers.1, if_pos hid]
  case declares =>
    refine hwhole.runs (i := .dln w) (go := dlnGo w) rfl fun g0 hgathers hfree => ?_
    obtain ⟨gs, htm0, hl0⟩ := hat g0
    set v := s.modUnit s.issuer fun _ => g0
    set x := v.joined l.queue l.num.toNat id (max 1 (min 1000000 (readOpd g 0 w.b 0).toNat)) tm.launch
    obtain ⟨hissuer, hops, hteams, hclusters, hlines, henters⟩ : x.issuer = v.issuer ∧ x.ops = v.ops ∧ x.teams = v.teams ∧
      x.clusters = v.clusters ∧ x.lines = v.lines ∧ v.enters x 1 := v.joined_frame ..
    have hunits := State.unitOf_congr hteams hclusters
    refine ⟨x, ?_, by simpa [v] using hissuer, ⟨g0, ?_, sameRegs.refl g0⟩, fun j hj => ?_, ?_⟩
    · rw [dlnGo_goes htm0 hl0 hfree, readOpd_of_same hgathers.1, readOpd_of_same hgathers.1, if_neg hid]
    · rw [hunits]
      exact State.unitOf_modUnit_same _ hwhole.1
    · rw [hunits]
      exact State.unitOf_modUnit_other _ hj
    · have hbare := x.releaseBy_bare
      have hsteps : (x.releaseBy 1).steps = x.steps := (congrArg State.steps hbare :)
      have hlaunches : (x.releaseBy 1).launches = x.launches := (congrArg State.launches hbare :)
      have hdue : v.timer.toNat + 100 * max 1 (min 1000000 (readOpd g 0 w.b 0).toNat) = due := by simp [v, due]
      have hdeclared : v.declares x id due tm.launch := hdue ▸ v.joined_declares ..
      have hdeclares : s.declares (x.releaseBy 1) id due tm.launch :=
        State.declares_congr hdeclared (State.modUnit_steps ..).symm (State.modUnit_launches ..).symm hsteps hlaunches
      have hone : s.enters (x.releaseBy 1) 1 := ((State.enters_none (by simp [v]) (by simp [v]) (by simp [v])).trans henters).trans
        (State.enters_none (congrArg State.cinderBase hbare :) (congrArg State.cinderSeq hbare :) (congrArg State.mem hbare :))
      have hteamsBare : x.teams.map Team.bare = s.teams.map Team.bare := by
        rw [hteams]
        exact (congrArg State.teams (State.bare_modUnit s s.issuer fun _ => g0) :)
      have hlinesKept : (x.releaseBy 1).lines = x.lines := (congrArg State.lines hbare :)
      obtain ⟨hopen, hnew, hfull, hjoins⟩ := hdeclares
      exact ⟨by simp [hops, v], hopen, hnew, hfull, hjoins, hone.2.1, (congrArg State.teams hbare :).trans hteamsBare, hone.memKept (by omega),
        by rw [hlinesKept, hlines]; simp [v]⟩
  case reports =>
    refine hwhole.runs (i := .prog w) (go := progGo w) rfl fun g0 hgathers hfree => ?_
    obtain ⟨gs, htm0, -⟩ := hat g0
    set v := s.modUnit s.issuer fun _ => g0
    have hunits := State.unitOf_modTeam (t := v.viewTeam v.issuer) (f := fun tm =>
      { tm with estimate := some (tm.issued + 1024 * (readOpd g0 0 w.a 0).toNat) }) (fun _ => rfl) v
    refine ⟨_, progGo_goes hfree v, by simp [v, State.modTeam], ⟨g0, ?_, sameRegs.refl g0⟩, fun j hj => ?_, ?_⟩
    · rw [hunits]
      exact State.unitOf_modUnit_same _ hwhole.1
    · rw [hunits]
      exact State.unitOf_modUnit_other _ hj
    · refine ⟨by simp [v, State.modTeam], ?_⟩
      have hbare : v.bare = s.bare := State.bare_modUnit ..
      have hview : v.viewTeam v.issuer = s.viewTeam s.issuer := congrArg s.viewTeam (State.modUnit_issuer ..)
      rw [State.teamOnly, State.releaseBy_bare, State.bare_modTeam_set htm0, hbare, hview, readOpd_of_same hgathers.1]
      rfl

/-! ### The groups of a partition and the M slot's order -/

section
variable {s : State} {core part u k : Nat} {tm : Team} {x : Group}

theorem State.mem_partGroups : (u, k, tm, x) ∈ s.partGroups core part ↔ s.teams[u]? = some tm ∧ tm.groups[k]? = some x ∧
    (tm.core = core ∧ onCore tm = true) ∧ partOf tm k = part ∧ x.run ≠ .ended := by
  simp only [State.partGroups, List.mem_flatMap, List.mem_range]
  constructor
  · rintro ⟨v, -, hv⟩
    cases hteam : s.teams[v]? with
    | none => simp [hteam] at hv
    | some tm' =>
      rw [hteam] at hv
      dsimp only at hv
      split at hv
      next hon =>
        obtain ⟨j, -, hj⟩ := List.mem_filterMap.mp hv
        obtain ⟨y, hgroup, hy⟩ := Option.bind_eq_some_iff.mp hj
        split at hy
        next hplace =>
          simp only [Option.some.injEq, Prod.mk.injEq] at hy
          obtain ⟨rfl, rfl, rfl, rfl⟩ := hy
          exact ⟨hteam, hgroup, by simpa using hon, by simpa using hplace⟩
        next => cases hy
      next => cases hv
  · rintro ⟨hteam, hgroup, hon, hplace⟩
    refine ⟨u, (List.getElem?_eq_some_iff.mp hteam).1, ?_⟩
    rw [hteam]
    dsimp only
    rw [if_pos (by simpa using hon), List.mem_filterMap]
    exact ⟨k, List.mem_range.mpr (List.getElem?_eq_some_iff.mp hgroup).1, by rw [hgroup, Option.bind_some, if_pos (by simpa using hplace)]⟩

theorem State.mem_mReadyOf : (u, k, tm, x) ∈ s.mReadyOf core part ↔ (u, k, tm, x) ∈ s.partGroups core part ∧ s.mReady u tm k x = true := by
  simp [State.mReadyOf]

theorem State.group?_of_mem_partGroups (h : (u, k, tm, x) ∈ s.partGroups core part) : s.group? u k = some x := by
  obtain ⟨hteam, hgroup, -⟩ := State.mem_partGroups.mp h
  simp [State.group?, hteam, hgroup]

end

theorem mem_fromLast {last : Option (Nat × Nat)} {l : List (Nat × Nat × Team × Group)} {x : Nat × Nat × Team × Group} :
    x ∈ fromLast last l ↔ x ∈ l := by
  cases last with
  | none => rfl
  | some p =>
    simp only [fromLast, List.mem_append, List.mem_filter]
    cases (decide (p.1 < x.1) || decide (p.1 = x.1) && decide (p.2 < x.2.1)) <;> simp

/-- A group's place in the order of the M slot (R206). -/
def Group.slotRank (g : Group) : Nat :=
  match g.role with | .copy => 0 | .matrix => 1 | .vector => 2 | .control => 3

/-- The first of some groups of one role, round-robin from the one that the slot served last. -/
def State.firstOf (s : State) (core part : Nat) (l : List (Nat × Nat × Team × Group)) (r : Role) : Option (Nat × Nat × Team × Group) :=
  (fromLast (s.slotLast core part (some r)) (l.filter fun x => x.2.2.2.role = r)).head?

section
variable {s : State} {core part : Nat} {l : List (Nat × Nat × Team × Group)}

theorem State.firstOf_some {r : Role} {x : Nat × Nat × Team × Group} (h : s.firstOf core part l r = some x) : x ∈ l ∧ x.2.2.2.role = r := by
  simpa [mem_fromLast] using List.mem_of_mem_head? h

theorem State.firstOf_none {r : Role} (h : s.firstOf core part l r = none) : ∀ x ∈ l, x.2.2.2.role ≠ r := fun x hx hr => by
  have hmem : x ∈ fromLast (s.slotLast core part (some r)) (l.filter fun x => x.2.2.2.role = r) := mem_fromLast.mpr (by simp [hx, hr])
  rw [List.head?_eq_none_iff.mp h] at hmem
  cases hmem

theorem State.firstByRole_eq : s.firstByRole core part l =
    ([Role.copy, Role.matrix, Role.vector].findSome? (s.firstOf core part l)).map fun x => (x.1, x.2.1) := rfl

/-- The M slot's first choice is one of the groups, and no group comes before it. -/
theorem State.firstByRole_some {p : Nat × Nat} (h : s.firstByRole core part l = some p) : ∃ tm x, (p.1, p.2, tm, x) ∈ l ∧
    ∀ y ∈ l, x.slotRank ≤ y.2.2.2.slotRank := by
  obtain ⟨⟨u, k, tm, x⟩, hfirst, rfl⟩ := Option.map_eq_some_iff.mp (State.firstByRole_eq ▸ h)
  obtain ⟨before, r, after, hroles, hr, hbefore⟩ := List.findSome?_eq_some_iff.mp hfirst
  obtain ⟨hmem, hrole⟩ := State.firstOf_some hr
  refine ⟨tm, x, hmem, fun y hy => ?_⟩
  -- a role with a smaller rank stands before `r` in the order, and no group has it
  by_contra hlt
  have hyrole : y.2.2.2.role ∈ before := by
    simp only [Group.slotRank] at hlt
    rcases before with - | ⟨a, - | ⟨b, - | ⟨c, before⟩⟩⟩ <;> simp at hroles <;> grind
  exact State.firstOf_none (hbefore _ hyrole) y hy rfl

theorem State.firstByRole_none (h : s.firstByRole core part l = none) : ∀ x ∈ l, x.2.2.2.role = .control := by
  have hnone := List.findSome?_eq_none_iff.mp (Option.map_eq_none_iff.mp (State.firstByRole_eq ▸ h))
  intro x hx
  cases hrole : x.2.2.2.role with
  | control => rfl
  | copy => exact absurd hrole (State.firstOf_none (hnone .copy (by simp)) x hx)
  | matrix => exact absurd hrole (State.firstOf_none (hnone .matrix (by simp)) x hx)
  | vector => exact absurd hrole (State.firstOf_none (hnone .vector (by simp)) x hx)

end

/-! ### The starvation guard (R206) -/

theorem State.group?_modGroup_same {s : State} {t gi : Nat} {g : Group} (f : Group → Group) (h : s.group? t gi = some g) :
    (s.modGroup t gi f).group? t gi = some (f g) := State.unitOf_modUnit_same (i := .group t gi) f h

theorem State.group?_modGroup_other {s : State} {t gi u k : Nat} (f : Group → Group) (h : (u, k) ≠ (t, gi)) :
    (s.modGroup t gi f).group? u k = s.group? u k :=
  State.unitOf_modUnit_other (i := .group t gi) (j := .group u k) f fun hi => h (by simpa using hi)

/-- The groups that a partition's M slot has passed over three times in a row. -/
def State.starving (s : State) (core part : Nat) : List (Nat × Nat × Team × Group) :=
  (s.mReadyOf core part).filter fun x => 3 ≤ x.2.2.2.passed

theorem State.mem_starving {s : State} {core part u k : Nat} {tm : Team} {x : Group} : (u, k, tm, x) ∈ s.starving core part ↔
    (u, k, tm, x) ∈ s.mReadyOf core part ∧ 3 ≤ x.passed := by simp [State.starving]

theorem State.guardPart_eq (s : State) (core part : Nat) : s.guardPart core part =
    match s.firstByRole core part (s.starving core part) with
    | some p => s.modGroup p.1 p.2 fun g => { g with precedence := true }
    | none => s := rfl

theorem guardsStarving_holds : guardsStarving := by
  intro s core part
  refine ⟨s.guardPart core part, rfl, ?_⟩
  rw [State.guardPart_eq]
  cases hfirst : s.firstByRole core part (s.starving core part) with
  | none =>
    refine ⟨rfl, rfl, fun t g x hx => ⟨x, hx, .inl rfl⟩, fun t g x ⟨⟨tm, hmem⟩, hpassed⟩ hrole => ?_⟩
    exact absurd (State.firstByRole_none hfirst _ (State.mem_starving.mpr ⟨hmem, hpassed⟩)) hrole
  | some p =>
    obtain ⟨tm, y, hy, hleast⟩ := State.firstByRole_some hfirst
    obtain ⟨hwaits, hpassed⟩ := State.mem_starving.mp hy
    have hgroup := State.group?_of_mem_partGroups (State.mem_mReadyOf.mp hwaits).1
    refine ⟨rfl, State.bare_modUnit s (.group p.1 p.2) _, fun t g x hx => ?_, fun t g x ⟨⟨_, hmem⟩, hlong⟩ _ =>
      ⟨p.1, p.2, y, ⟨⟨tm, hwaits⟩, hpassed⟩, hleast _ (State.mem_starving.mpr ⟨hmem, hlong⟩), State.group?_modGroup_same _ hgroup⟩⟩
    by_cases hp : (t, g) = (p.1, p.2)
    · obtain ⟨rfl, rfl⟩ := Prod.mk.inj hp
      obtain rfl : x = y := Option.some.inj (hx.symm.trans hgroup)
      exact ⟨_, State.group?_modGroup_same _ hx, .inr ⟨⟨⟨tm, hwaits⟩, hpassed⟩, rfl⟩⟩
    · exact ⟨x, (State.group?_modGroup_other _ hp).trans hx, .inl rfl⟩

/-! ### What a slot that has served a group leaves (R9, R206) -/

theorem State.outranked_iff {b : State} {t gi : Nat} {tm : Team} {g : Group} (htm : b.teams[t]? = some tm) (hg : b.group? t gi = some g) :
    b.outranked t gi = true ↔ goesFirst g = false ∧ (nextBits (b.codeOf (.group t gi)).1 g).any inMSlot = true ∧
      ∃ u k x y, (u, k, x, y) ∈ b.mReadyOf tm.core (partOf tm gi) ∧ goesFirst y = true := by
  simp only [State.outranked, htm, hg, Bool.and_eq_true, Bool.not_eq_true', List.any_eq_true, Prod.exists, State.mem_mReadyOf, and_assoc]
  grind

/-- What a word that had the M slot leaves of the counts of a group (R206). -/
def counted (served : Nat × Nat) (waits here : List (Nat × Nat)) (p : Nat × Nat) (y : Group) : Group :=
  if p = served then { y with passed := 0, precedence := false }
  else if waits.contains p then { y with passed := y.passed + 1 }
  else if here.contains p then { y with passed := 0 } else y

/-- Every group of the part changed, by its team and its place. -/
def State.mapGroups (s : State) (f : Nat × Nat → Group → Group) : State :=
  { s with teams := s.teams.mapIdx fun u (x : Team) => { x with groups := x.groups.mapIdx fun k y => f (u, k) y } }

theorem State.group?_mapGroups (s : State) (f : Nat × Nat → Group → Group) (u k : Nat) :
    (s.mapGroups f).group? u k = (s.group? u k).map (f (u, k)) := by
  simp only [State.mapGroups, State.group?, List.getElem?_mapIdx]
  cases s.teams[u]? <;> simp

section
variable {s b : State} {t gi : Nat} {tm : Team} {g : Group} (htm : b.teams[t]? = some tm) (hg : b.group? t gi = some g)
include htm hg

theorem State.group?_serve (h : (nextBits (b.codeOf (.group t gi)).1 g).any inMSlot = true ∨ b.pairNext t gi = true) (u k : Nat) :
    (s.serve b t gi).group? u k = (s.group? u k).map (counted (t, gi) ((b.mReadyOf tm.core (partOf tm gi)).map fun x => (x.1, x.2.1))
      ((b.partGroups tm.core (partOf tm gi)).map fun x => (x.1, x.2.1)) (u, k)) := by
  simp only [State.serve, htm, hg]
  rw [if_pos (by simpa using h)]
  exact State.group?_mapGroups (s.slotTake ..) (counted _ _ _) u k

theorem State.teams_serve_apart (hm : (nextBits (b.codeOf (.group t gi)).1 g).any inMSlot = false) (hpair : b.pairNext t gi = false) :
    (s.serve b t gi).teams = s.teams := by
  simp only [State.serve, htm, hg, hm, hpair]
  rfl

theorem State.slots_serve : ((s.serve b t gi).slots.head?).map SlotPlace.last = some (t, gi) := by
  simp only [State.serve, htm, hg]
  split <;> rfl

end

theorem tail_toList {α : Type} {o : Option α} {a : α} {l : List α} (h : o.toList = a :: l) : l = [] := by
  cases o <;> simp_all

theorem State.slotChoices_pair {s : State} {core part : Nat} {p : Nat × Nat} {r : List (Nat × Nat)} (h : s.slotChoices core part = p :: r)
    (hpair : s.pairNext p.1 p.2 = true) : r = [] := by
  unfold State.slotChoices at h
  dsimp only at h
  split at h
  · exact tail_toList h
  · obtain ⟨rfl, rfl⟩ := List.cons.inj h
    exact if_pos hpair

theorem counted_eq (served : Nat × Nat) (waits here : List (Nat × Nat)) (p : Nat × Nat) (y : Group) :
    counted served waits here p y =
      { y with passed := (counted served waits here p y).passed, precedence := (counted served waits here p y).precedence } := by
  unfold counted
  split
  · rfl
  · split
    · rfl
    · split <;> rfl

theorem slotsServe_holds : slotsServe := by
  intro s b t gi tm g htm hg part waits here m first
  refine ⟨State.outranked_iff htm hg, fun hslot u k y hy => ?counts, fun hm hpair => ?apart, State.slots_serve htm hg,
    fun core part p r => State.slotChoices_pair⟩
  case apart => exact State.teams_serve_apart htm hg hm hpair
  case counts =>
    have hwaits : waits u k ↔ ((b.mReadyOf tm.core part).map fun x => (x.1, x.2.1)).contains (u, k) = true := by simp [waits]
    have hhere : here u k ↔ ((b.partGroups tm.core part).map fun x => (x.1, x.2.1)).contains (u, k) = true := by simp [here]
    refine ⟨_, by rw [State.group?_serve htm hg hslot, hy, Option.map_some], counted_eq .., fun hserved => ?_, fun hother => ?_⟩
    · rw [counted, if_pos hserved]
      exact ⟨rfl, rfl⟩
    · rw [hwaits, hhere, counted, if_neg hother]
      split
      next hw => exact ⟨rfl, fun _ => rfl, fun _ h => absurd hw h, fun _ h => absurd hw h⟩
      next hw =>
        split
        next hh => exact ⟨rfl, fun h => absurd h hw, fun _ _ => rfl, fun h => absurd hh h⟩
        next hh => exact ⟨rfl, fun h => absurd h hw, fun h => absurd h hh, fun _ _ => rfl⟩

/-- Settles O30: a declared step joins its launch, the guard marks the first of the groups passed over, and a served slot counts. -/
theorem stepsDeclareAndGuard : Obligations.StepsDeclareAndGuard := ⟨stepsDeclare_holds, guardsStarving_holds, slotsServe_holds⟩

end Sys2Proof.Machine
end

section
/-!
Stage rings (R218, R219) and the four levels of barriers (R220, R221, R294, R350, R442).
-/
namespace Sys2Proof.Machine

/-! ### Acquires (R192, R381) -/

theorem State.acquireAt_units (s : State) (scope : Nat) : ∃ u : State, (u = s ∨ ∃ ids, u = s.modUnit s.issuer fun g => g.seeing ids) ∧
    ∀ j, (s.acquireAt scope).unitOf j = u.unitOf j := by
  obtain ⟨u, hu, hacquire⟩ := s.acquireAt_eq scope
  refine ⟨u, hu, fun j => ?_⟩
  rw [hacquire]
  split
  · exact State.unitOf_congr rfl rfl j
  · rfl

theorem State.unitOf_acquireAt_other {s : State} {j : Issuer} (hj : j ≠ s.issuer) (scope : Nat) : (s.acquireAt scope).unitOf j = s.unitOf j := by
  obtain ⟨u, rfl | ⟨ids, rfl⟩, hunits⟩ := s.acquireAt_units scope
  · exact hunits j
  · exact (hunits j).trans (State.unitOf_modUnit_other _ hj)

/-- An acquire changes in a unit no more than what it has seen. -/
theorem State.unitOf_acquireAt {s : State} {j : Issuer} {g : Group} (hg : s.unitOf j = some g) (scope : Nat) :
    ∃ ids, (s.acquireAt scope).unitOf j = some (g.seeing ids) := by
  by_cases hj : j = s.issuer
  · subst hj
    obtain ⟨u, rfl | ⟨ids, rfl⟩, hunits⟩ := s.acquireAt_units scope
    · exact ⟨g.seen, (hunits _).trans hg⟩
    · exact ⟨ids, (hunits _).trans (State.unitOf_modUnit_same _ hg)⟩
  · exact ⟨g.seen, (State.unitOf_acquireAt_other hj scope).trans hg⟩

theorem State.acquireAt_part (s : State) (scope : Nat) : (s.acquireAt scope).issuer = s.issuer ∧ (s.acquireAt scope).ops = s.ops ∧
    (s.acquireAt scope).bare = { s.bare with l1 := if 2 ≤ scope then s.l1.filter (fun x => x.core ≠ s.coreOf s.issuer) else s.l1 } := by
  obtain ⟨u, hu, hacquire⟩ := s.acquireAt_eq scope
  have hpart : u.issuer = s.issuer ∧ u.ops = s.ops ∧ u.bare = s.bare ∧ u.l1 = s.l1 := by
    obtain rfl | ⟨ids, rfl⟩ := hu <;> simp
  obtain ⟨hissuer, hops, hbare, hl1⟩ := hpart
  rw [hacquire, ← hbare, ← hl1]
  split
  · refine ⟨hissuer, hops, ?_⟩
    simp [State.l1DropCore, State.l1Drop, State.bare]
  · exact ⟨hissuer, hops, rfl⟩

/-! ### ARRV and WAITR -/

theorem ringVerdict_none {tm : Team} {r : Ring} {sg slot : Nat} (hr : (tm.rings.find? fun r => r.name = sg) = some r) (hslot : slot < r.slots) :
    ringVerdict tm sg slot = none := by
  rw [ringVerdict, hr]
  exact if_neg (by omega)

section
variable {s : State} {g g0 : Group} {tm : Team} {r : Ring} {w : SysW}
  (htm : s.teams[s.viewTeam s.issuer]? = some tm) (hr : (tm.rings.find? fun r => r.name = w.sg.toNat) = some r)
  (hslot : w.slot.toNat < r.slots)
include htm hr hslot

/-- The team of a ring word has the ring of its group, also once its threads stand held. -/
theorem ringTeam (f : Group → Group) : ∃ tm0, (s.modUnit s.issuer f).ownTeam = some tm0 ∧ tm0.rings = tm.rings ∧
    ringVerdict tm0 w.sg.toNat w.slot.toNat = none := by
  obtain ⟨gs, hgs⟩ := State.modUnit_team htm s.issuer f
  have hview : (s.modUnit s.issuer f).viewTeam (s.modUnit s.issuer f).issuer = s.viewTeam s.issuer :=
    congrArg s.viewTeam (State.modUnit_issuer ..)
  exact ⟨{ tm with groups := gs }, by rw [State.ownTeam, hview, hgs], rfl, ringVerdict_none hr hslot⟩

theorem ringsStep_arrv : s.wholly w.head (ringStepCheck true w) g → s.runs (.arrv w) (fun g' => g.still g') fun u => u.bare = s.bare ∧
    ∃ o, u.ops = s.ops ++ [o] ∧ o.issuer = s.issuer ∧ o.kind = .arrv ∧ o.flag = none ∧
      o.arrive = some (w.sg.toNat, (w.slot.toNat + (readOpd g 0 w.a 0).toNat) % r.slots) := fun hwhole => by
  refine hwhole.runs (i := .arrv w) (go := arrvGo w) rfl fun g0 hgathers hfree => ?_
  obtain ⟨tm0, hown, hrings, hverdict⟩ := ringTeam (w := w) htm hr hslot fun _ => g0
  set v := s.modUnit s.issuer fun _ => g0
  have hissuer : v.issuer = s.issuer := State.modUnit_issuer ..
  have hunit : v.unitOf v.issuer = some g0 := hissuer ▸ State.unitOf_modUnit_same _ hwhole.1
  have hat : ringSlot tm0 w g0 = (w.slot.toNat + (readOpd g 0 w.a 0).toNat) % r.slots := by
    simp [ringSlot, hrings, hr, readOpd_of_same hgathers.1]
  let o : Op := { Op.blank v.nextId v.issuer .arrv none with arrive := some (w.sg.toNat, ringSlot tm0 w g0) }
  have hblocked : flagBlocked g0 (selectedFlag g0 w.head.fs) = false := hfree
  refine ⟨v.launchOp [] o, by simp [arrvGo, hown, hverdict, hblocked, o], by simp [hissuer], ⟨g0, ?_, sameRegs.refl g0⟩, fun j hj => ?_,
    by simp [v], o, ?_, hissuer, rfl, rfl, by simp [o, hat]⟩
  · rw [← hissuer]
    exact State.unitOf_launchOp [] o hunit
  · rw [State.unitOf_launchOp_other [] o (hissuer ▸ hj)]
    exact State.unitOf_modUnit_other _ hj
  · rw [State.releaseBy_ops, State.ops_launchOp, State.cancelWrites_nil]
    simp [v]

theorem ringsStep_waitr : s.wholly w.head (ringStepCheck false w) g →
    (r.phases.getLsbD ((w.slot.toNat + (readOpd g 0 w.a 0).toNat) % r.slots) = true ↔ ¬ (w.ph = 1 ↔ (readOpd g 0 w.b 0).getLsbD 0 = true)) →
    s.runs (.waitr w) (fun g' => g.still g') fun u => s.unmoved u [] := fun hwhole hphase => by
  refine hwhole.runs (i := .waitr w) (go := waitrGo w) rfl fun g0 hgathers hfree => ?_
  obtain ⟨tm0, hown, hrings, hverdict⟩ := ringTeam (w := w) htm hr hslot fun _ => g0
  set v := s.modUnit s.issuer fun _ => g0
  have hissuer : v.issuer = s.issuer := State.modUnit_issuer ..
  have hwanted : ringPhase tm0 w g0 = phaseWanted w g0 := by
    simp only [ringPhase, ringSlot, phaseWanted, hrings, hr, readOpd_of_same hgathers.1, Option.map_some, Option.getD_some]
    rw [Bool.eq_iff_iff, hphase]
    cases (readOpd g 0 w.b 0).getLsbD 0 <;> simp
  have hblocked : flagBlocked g0 (selectedFlag g0 w.head.fs) = false := hfree
  obtain ⟨hiss, hops, hbare⟩ := v.acquireAt_part 1
  refine ⟨v.acquireAt 1, by simp [waitrGo, hown, hverdict, hblocked, hwanted], hiss.trans hissuer, ?_, fun j hj => ?_, ?_⟩
  · obtain ⟨ids, h⟩ := State.unitOf_acquireAt (State.unitOf_modUnit_same (fun _ => g0) hwhole.1) 1
    exact ⟨g0.seeing ids, h, sameRegs_seeing g0 ids⟩
  · rw [State.unitOf_acquireAt_other (hissuer ▸ hj)]
    exact State.unitOf_modUnit_other _ hj
  · refine ⟨?_, ?_⟩
    · rw [State.releaseBy_bare, hbare]
      exact State.bare_modUnit ..
    · rw [State.releaseBy_ops, hops, State.cancelWrites_nil]
      exact State.modUnit_ops ..

end

theorem ringsStep_holds : ringsStep := fun _ _ _ _ _ htm hr hslot => ⟨ringsStep_arrv htm hr hslot, ringsStep_waitr htm hr hslot⟩

/-! ### What a barrier looks at -/

theorem getElem?_map_bare (s : State) (u : Nat) : s.bare.teams[u]? = (s.teams[u]?).map Team.bare := by simp [State.bare]

theorem length_bare_teams (s : State) : s.bare.teams.length = s.teams.length := by simp [State.bare]

theorem State.bare_clusterTeam (s : State) (t : Nat) : s.bare.clusterTeam t = s.clusterTeam t := by
  simp only [State.clusterTeam, getElem?_map_bare]
  cases s.teams[t]? with
  | none => rfl
  | some tm =>
    simp only [Option.map_some, length_bare_teams]
    refine List.filter_congr fun u _ => ?_
    cases s.teams[u]? <;> rfl

theorem State.bare_barTeams (s : State) (level t : Nat) : s.bare.barTeams level t = s.barTeams level t := by
  simp only [State.barTeams, getElem?_map_bare, State.bare_clusterTeam]
  cases s.teams[t]? with
  | none => rfl
  | some tm =>
    simp only [Option.map_some]
    split
    · rfl
    · rfl
    · rw [length_bare_teams]
      refine List.filter_congr fun u _ => ?_
      cases s.teams[u]? <;> rfl

theorem State.bare_topTeams (s : State) (l : Nat) : s.bare.topTeams l = s.topTeams l := by
  have hteams : ((List.range s.bare.teams.length).filterMap fun u => (s.bare.teams[u]?).bind fun t =>
      if t.launch = l && t.parent.isNone then some (u, t.taskId.toNat) else none) =
      (List.range s.teams.length).filterMap fun u => (s.teams[u]?).bind fun t =>
        if t.launch = l && t.parent.isNone then some (u, t.taskId.toNat) else none := by
    rw [length_bare_teams]
    refine List.filterMap_congr fun u _ => ?_
    rw [getElem?_map_bare]
    cases s.teams[u]? <;> rfl
  rw [State.topTeams, State.topTeams, hteams]

theorem State.bare_dieUnstarted (s : State) (li : Nat) (l : Launch) (d : Nat) : s.bare.dieUnstarted li l d = s.dieUnstarted li l d := by
  simp only [State.dieUnstarted, State.bare_topTeams, getElem?_map_bare]
  split
  · congr 3
    refine List.filter_congr fun u _ => ?_
    cases s.teams[u]? <;> rfl
  · congr 1
    funext c
    simp only [State.bare, List.getElem?_map]
    cases s.clusters[6 * d + c]? <;> rfl

theorem State.bare_barFault (s : State) (w : SysW) : s.bare.barFault w = s.barFault w := by
  have hissuer : s.bare.issuer = s.issuer := rfl
  have hview : s.bare.viewTeam s.issuer = s.viewTeam s.issuer := rfl
  simp only [State.barFault, hissuer, hview, State.bare_launchOf, getElem?_map_bare]
  cases s.teams[s.viewTeam s.issuer]? <;> cases s.launchOf (s.viewTeam s.issuer) <;> rfl

section
variable {s u : State} (hbare : u.bare = s.bare)
include hbare

theorem State.barTeams_of_bare (level t : Nat) : u.barTeams level t = s.barTeams level t := by
  rw [← u.bare_barTeams, hbare, s.bare_barTeams]

theorem State.barFault_of_bare (w : SysW) : u.barFault w = s.barFault w := by
  rw [← u.bare_barFault, hbare, s.bare_barFault]

theorem State.billetsOut_of_bare (hops : u.ops = s.ops) (li : Nat) : u.billetsOut li = s.billetsOut li := by
  have hclusters : u.clusters.map Cluster.bare = s.clusters.map Cluster.bare := congrArg State.clusters hbare
  have hany (x : State) : (x.clusters.any fun c => (c.billets ++ c.overflow).any fun b => b.launch = li) =
      (x.clusters.map Cluster.bare).any fun c => (c.billets ++ c.overflow).any fun b => b.launch = li := by
    rw [List.any_map]
    rfl
  rw [State.billetsOut, State.billetsOut, hany u, hany s, hclusters, State.spawnsIn, State.spawnsIn, hops]

theorem State.barAssembled_of_bare (hops : u.ops = s.ops) (level t : Nat) : u.barAssembled level t = s.barAssembled level t := by
  have hteam : (u.teams[t]?).map Team.bare = (s.teams[t]?).map Team.bare := by rw [← getElem?_map_bare, hbare, getElem?_map_bare]
  have hcluster : u.clusterTeam t = s.clusterTeam t := by rw [← u.bare_clusterTeam, hbare, s.bare_clusterTeam]
  have htops (l : Nat) : u.topTeams l = s.topTeams l := by rw [← u.bare_topTeams, hbare, s.bare_topTeams]
  have hdie (li : Nat) (l : Launch) (d : Nat) : u.dieUnstarted li l d = s.dieUnstarted li l d := by
    rw [← u.bare_dieUnstarted, hbare, s.bare_dieUnstarted]
  simp only [State.barAssembled, State.launchOf_of_bare hbare, hcluster, htops, hdie, State.billetsOut_of_bare hbare hops]
  cases hs : s.teams[t]? with
  | none =>
    rw [hs, Option.map_none, Option.map_eq_none_iff] at hteam
    rw [hteam]
  | some tm =>
    obtain ⟨tm', hu, hsame⟩ := Option.map_eq_some_iff.mp (hteam.trans (congrArg _ hs))
    have hlaunch : tm'.launch = tm.launch := (congrArg Team.launch hsame :)
    have hcteam : tm'.cteam = tm.cteam := (congrArg Team.cteam hsame :)
    have hparent : tm'.parent = tm.parent := (congrArg Team.parent hsame :)
    have hvcore : tm'.vcore = tm.vcore := (congrArg Team.vcore hsame :)
    rw [hu]
    cases s.launchOf t with
    | none => rfl
    | some l => simp only [hlaunch, hcteam, hparent, hvcore]

end

/-! ### The participants of a barrier -/

/-- Whether a group counts for a barrier of a level and index. -/
def takesPart (level index : Nat) (x : Group) : Bool := x.run ≠ .ended && !allExited x && (level ≠ 0 || inSet index x.role)

theorem State.barGroups_eq (s : State) (level index t : Nat) : s.barGroups level index t = (s.barTeams level t).flatMap fun u =>
    (s.groupsOf u).filterMap fun k => (s.group? u k).bind fun x => if takesPart level index x then some (u, k) else none := by
  unfold State.barGroups
  congr 1
  funext u
  simp only [State.groupsOf, State.group?]
  cases s.teams[u]? <;> rfl

theorem State.mem_barGroups {s : State} {level index t : Nat} {p : Nat × Nat} (h : p ∈ s.barGroups level index t) :
    ∃ x, s.group? p.1 p.2 = some x := by
  rw [State.barGroups_eq] at h
  obtain ⟨u, -, hu⟩ := List.mem_flatMap.mp h
  obtain ⟨k, -, hk⟩ := List.mem_filterMap.mp hu
  obtain ⟨x, hx, hif⟩ := Option.bind_eq_some_iff.mp hk
  split at hif
  · exact ⟨x, Option.some.inj hif ▸ hx⟩
  · cases hif

theorem takesPart_of_same {g g' : Group} (h : sameRegs g g') (hrun : g'.run = g.run) (level index : Nat) :
    takesPart level index g' = takesPart level index g := by
  obtain ⟨-, -, hthreads, -, -, -, -, -, hcohort, hrole, -⟩ := h
  have hexited (l : Nat) : (threadAt g' l).exited = (threadAt g l).exited := (hthreads l).2.2.2.2
  simp only [takesPart, allExited, hrun, hcohort, hrole, hexited]

theorem State.groupsOf_modGroup (s : State) (t gi : Nat) (f : Group → Group) (u : Nat) : (s.modGroup t gi f).groupsOf u = s.groupsOf u := by
  simp only [State.groupsOf, State.modGroup, State.modTeam, getElem?_modAt]
  split
  · cases s.teams[u]? <;> simp [modAt]
  · rfl

theorem State.barGroups_modGroup {s : State} {t gi : Nat} {g gb : Group} (hu : s.group? t gi = some g)
    (hpart : ∀ level index, takesPart level index gb = takesPart level index g) (level index n : Nat) :
    (s.modGroup t gi fun _ => gb).barGroups level index n = s.barGroups level index n := by
  have hteams : (s.modGroup t gi fun _ => gb).barTeams level n = s.barTeams level n :=
    State.barTeams_of_bare (State.bare_modUnit s (.group t gi) _) level n
  rw [State.barGroups_eq, State.barGroups_eq, hteams]
  congr 1
  funext u
  rw [State.groupsOf_modGroup]
  congr 1
  funext k
  by_cases hp : (u, k) = (t, gi)
  · obtain ⟨rfl, rfl⟩ := Prod.mk.inj hp
    rw [State.group?_modGroup_same _ hu, hu, Option.bind_some, Option.bind_some, hpart]
  · rw [State.group?_modGroup_other _ hp]

/-! ### A fence and the threads that stand held -/

theorem modAt_congr {α : Type} {l : List α} {n : Nat} {f f' : α → α} (h : ∀ a, l[n]? = some a → f a = f' a) : modAt l n f = modAt l n f' := by
  apply List.ext_getElem?
  intro m
  rw [getElem?_modAt, getElem?_modAt]
  split
  next hm =>
    subst hm
    cases ha : l[n]? with
    | none => rfl
    | some a => rw [Option.map_some, Option.map_some, h a ha]
  next => rfl

theorem State.modGroup_congr {s : State} {t gi : Nat} {g : Group} {f f' : Group → Group} (hu : s.group? t gi = some g) (hf : f g = f' g) :
    s.modGroup t gi f = s.modGroup t gi f' := by
  have hteams : modAt s.teams t (fun tm => { tm with groups := modAt tm.groups gi f }) =
      modAt s.teams t fun tm => { tm with groups := modAt tm.groups gi f' } := by
    refine modAt_congr fun tm htm => ?_
    have hgroups : modAt tm.groups gi f = modAt tm.groups gi f' := by
      refine modAt_congr fun x hx => ?_
      simp only [State.group?, htm, Option.bind_some, hx, Option.some.injEq] at hu
      rw [hu, hf]
    rw [hgroups]
  simp only [State.modGroup, State.modTeam, hteams]

/-- A fence holds a group as before once its threads stand held, which changes nothing of what it has seen. -/
theorem State.fenceHolds_held {s : State} {t gi : Nat} {g g0 : Group} (hi : s.issuer = .group t gi) (hu : s.group? t gi = some g)
    (hseen : g0.seen = g.seen) (sem scope : Nat) : (s.modGroup t gi fun _ => g0).fenceHolds sem scope = s.fenceHolds sem scope := by
  have hself : g0 = g0.seeing g.seen := by rw [← hseen]; rfl
  have hheld : s.modGroup t gi (fun _ => g0) = s.modUnit (.group t gi) fun x => g0.seeing x.seen := State.modGroup_congr hu hself
  have hwrites : (s.modUnit (.group t gi) fun x => g0.seeing x.seen).writesSeen t [gi] = s.writesSeen t [gi] :=
    (State.writesSeen_modUnit (s := s) (i := .group t gi) (f := fun x => g0.seeing x.seen) (fun _ => rfl) t [gi]).1
  rw [hheld]
  simp [State.fenceHolds, State.released, State.readsOut, State.writesOut, State.matrixOut, State.outstanding, State.acquiring, hi,
    State.visibleOut, State.publishing, State.updatesOut, State.clearsPublished, hwrites]

/-! ### What a completion has to apply (R331) -/

theorem State.modSub_eq_self {s : State} {t h : Nat} {f : Subscription → Subscription} (hf : ∀ b ∈ s.subs, b.subscriber = t → f b = b) :
    s.modSub t h f = s := by
  have hsubs : (s.subs.map fun b => if b.subscriber = t && b.handle = h then f b else b) = s.subs := by
    refine (List.map_congr_left fun b hb => ?_).trans (List.map_id _)
    split
    next hof => exact hf b hb (by simp_all)
    next => rfl
  rw [State.modSub, hsubs]

theorem foldl_of_fixed {α β : Type} {f : α → β → α} {a : α} {l : List β} (h : ∀ b ∈ l, f a b = a) : l.foldl f a = a := by
  induction l with
  | nil => rfl
  | cons b l ih =>
    rw [List.foldl_cons, h b (by simp)]
    exact ih fun c hc => h c (by simp [hc])

/-- With every staging image empty there is nothing to apply. -/
theorem State.applyImages_empty {s : State} {t : Nat} (h : ∀ b ∈ s.subs, b.subscriber = t → b.image = []) : s.applyImages t = s := by
  refine foldl_of_fixed fun b hb => ?_
  obtain ⟨hmem, ht⟩ := List.mem_filter.mp hb
  simp only [h b hmem (by simpa using ht), List.foldl_nil, State.modTeam, modAt_eq_self fun _ _ => rfl]
  exact State.modSub_eq_self fun c hc ht => by rw [← h c hc ht]

theorem State.endLate_none {s : State} {ts : List Nat} (h : ∀ x ∈ s.updates, x.team ∉ ts) : s.endLate ts = s := by
  have hupdates : (s.updates.map fun u => if ts.contains u.team then { u with late := false } else u) = s.updates :=
    (List.map_congr_left fun u hu => if_neg (by simpa using h u hu)).trans (List.map_id _)
  rw [State.endLate, hupdates]

/-! ### The participants let past -/

section
variable (scope : Nat)

/-- The acquires of some groups, and their words past. -/
def State.acquireEach (s : State) (gs : List (Nat × Nat)) : State :=
  gs.foldl (fun s p => s.asIssuer (.group p.1 p.2) fun s => s.acquireAt scope) s
def State.passEach (s : State) (gs : List (Nat × Nat)) : State :=
  gs.foldl (fun s p => s.asIssuer (.group p.1 p.2) fun s => s.releaseBy 1) s

/-- The cores of some groups. -/
def State.coresOf (s : State) (gs : List (Nat × Nat)) : List Nat := gs.map fun p => ((s.teams[p.1]?).map Team.core).getD 0

theorem State.coresOf_of_bare {s u : State} (h : u.bare.teams = s.bare.teams) (gs : List (Nat × Nat)) : u.coresOf gs = s.coresOf gs := by
  have hcore (t : Nat) : (u.teams[t]?).map Team.core = (s.teams[t]?).map Team.core := by
    have hat (x : State) : (x.teams[t]?).map Team.core = (x.bare.teams[t]?).map Team.core := by
      rw [getElem?_map_bare]
      cases x.teams[t]? <;> rfl
    rw [hat u, hat s, h]
  simp only [State.coresOf, hcore]

theorem filter_cores (l : List L1Sector) (c : Nat) (cs : List Nat) :
    (l.filter fun x => x.core ≠ c).filter (fun x => !cs.contains x.core) = l.filter fun x => !(c :: cs).contains x.core := by
  rw [List.filter_filter]
  refine List.filter_congr fun x _ => ?_
  rw [Bool.eq_iff_iff]
  simp [and_comm]

theorem State.asIssuer_unitOf (s : State) (i : Issuer) (f : State → State) (j : Issuer) :
    (s.asIssuer i f).unitOf j = (f { s with issuer := i }).unitOf j := State.unitOf_congr rfl rfl j

theorem State.acquireEach_part (gs : List (Nat × Nat)) (s : State) : (s.acquireEach scope gs).issuer = s.issuer ∧ (s.acquireEach scope gs).ops = s.ops ∧
    (s.acquireEach scope gs).bare = { s.bare with
      l1 := if 2 ≤ scope then s.l1.filter (fun x => !(s.coresOf gs).contains x.core) else s.l1 } := by
  induction gs generalizing s with
  | nil =>
    refine ⟨rfl, rfl, ?_⟩
    simp [State.acquireEach, State.coresOf, State.bare]
  | cons p gs ih =>
    obtain ⟨-, hops, hbare⟩ := ({ s with issuer := .group p.1 p.2 } : State).acquireAt_part scope
    set u := s.asIssuer (.group p.1 p.2) fun s => s.acquireAt scope with hu
    have hubare : u.bare = { s.bare with l1 := if 2 ≤ scope then s.l1.filter (fun x => x.core ≠ s.coreOf (.group p.1 p.2)) else s.l1 } :=
      congrArg (fun x : State => { x with issuer := s.issuer }) hbare
    obtain ⟨hissuer, hops', hbare'⟩ := ih u
    refine ⟨hissuer, hops'.trans hops, hbare'.trans ?_⟩
    have hl1 : u.l1 = if 2 ≤ scope then s.l1.filter (fun x => x.core ≠ s.coreOf (.group p.1 p.2)) else s.l1 := (congrArg State.l1 hubare :)
    have hcores : u.coresOf gs = s.coresOf gs := State.coresOf_of_bare (congrArg State.teams hubare :) gs
    rw [hubare, hl1, hcores]
    by_cases hscope : 2 ≤ scope
    · simp only [if_pos hscope]
      rw [filter_cores]
      rfl
    · simp only [if_neg hscope]

theorem State.unitOf_acquireEach_other {j : Issuer} {gs : List (Nat × Nat)} (hj : ∀ p ∈ gs, j ≠ .group p.1 p.2) (s : State) :
    (s.acquireEach scope gs).unitOf j = s.unitOf j := by
  induction gs generalizing s with
  | nil => rfl
  | cons p gs ih =>
    refine (ih (fun q hq => hj q (by simp [hq])) _).trans ?_
    rw [State.asIssuer_unitOf, State.unitOf_acquireAt_other (hj p (by simp))]
    exact State.unitOf_congr rfl rfl j

theorem State.unitOf_acquireEach (j : Issuer) (gs : List (Nat × Nat)) {s : State} {g : Group} (hg : s.unitOf j = some g) :
    ∃ ids, (s.acquireEach scope gs).unitOf j = some (g.seeing ids) := by
  induction gs generalizing s g with
  | nil => exact ⟨g.seen, hg⟩
  | cons p gs ih =>
    have hfirst : ({ s with issuer := .group p.1 p.2 } : State).unitOf j = some g := (State.unitOf_congr rfl rfl j).trans hg
    obtain ⟨ids, hids⟩ := State.unitOf_acquireAt hfirst scope
    exact ih (g := g.seeing ids) ((State.asIssuer_unitOf ..).trans hids)

end

theorem State.passEach_part (gs : List (Nat × Nat)) (s : State) :
    (s.passEach gs).issuer = s.issuer ∧ (s.passEach gs).ops = s.ops ∧ (s.passEach gs).bare = s.bare := by
  induction gs generalizing s with
  | nil => exact ⟨rfl, rfl, rfl⟩
  | cons p gs ih =>
    obtain ⟨hissuer, hops, hbare⟩ := ih (s.asIssuer (.group p.1 p.2) fun s => s.releaseBy 1)
    have hfirst : (s.asIssuer (.group p.1 p.2) fun s => s.releaseBy 1).bare = s.bare :=
      congrArg (fun x : State => { x with issuer := s.issuer }) ({ s with issuer := .group p.1 p.2 } : State).releaseBy_bare
    exact ⟨hissuer, hops.trans ({ s with issuer := .group p.1 p.2 } : State).releaseBy_ops, hbare.trans hfirst⟩

theorem State.unitOf_passEach_other {j : Issuer} {gs : List (Nat × Nat)} (hj : ∀ p ∈ gs, j ≠ .group p.1 p.2) (s : State) :
    (s.passEach gs).unitOf j = s.unitOf j := by
  induction gs generalizing s with
  | nil => rfl
  | cons p gs ih =>
    refine (ih (fun q hq => hj q (by simp [hq])) _).trans ?_
    rw [State.asIssuer_unitOf, State.unitOf_releaseBy_other (hj p (by simp))]
    exact State.unitOf_congr rfl rfl j

/-- A group let past its word, in a clause or already past, holds nothing and reads what it read. -/
theorem State.unitOf_passEach {p : Nat × Nat} {gs : List (Nat × Nat)} (hp : p ∈ gs) {s : State} {g : Group}
    (hg : s.unitOf (.group p.1 p.2) = some g) (hin : g.clause.isSome = true ∨ g.hold = .none) :
    ∃ g', (s.passEach gs).unitOf (.group p.1 p.2) = some g' ∧ sameRegs g g' ∧ g'.hold = .none := by
  induction gs generalizing s g with
  | nil => cases hp
  | cons q gs ih =>
    have hfirst : ({ s with issuer := .group q.1 q.2 } : State).unitOf (.group p.1 p.2) = some g := (State.unitOf_congr rfl rfl _).trans hg
    by_cases hq : p = q
    · subst hq
      have hpast : (s.asIssuer (.group p.1 p.2) fun s => s.releaseBy 1).unitOf (.group p.1 p.2) = some (pastWord g) :=
        (State.asIssuer_unitOf ..).trans (State.unitOf_releaseBy hfirst)
      by_cases hmem : p ∈ gs
      · obtain ⟨g', hg', hregs, hhold⟩ := ih hmem hpast (.inr (pastWord_hold hin))
        exact ⟨g', hg', (sameRegs_pastWord g).trans hregs, hhold⟩
      · have hrest := State.unitOf_passEach_other (j := .group p.1 p.2) (gs := gs) (fun r hr hpr => hmem <| by
          obtain ⟨h1, h2⟩ := Issuer.group.inj hpr
          rwa [Prod.ext h1 h2]) (s.asIssuer (.group p.1 p.2) fun s => s.releaseBy 1)
        exact ⟨pastWord g, hrest.trans hpast, sameRegs_pastWord g, pastWord_hold hin⟩
    · have hother : Issuer.group p.1 p.2 ≠ .group q.1 q.2 := fun h => hq (Prod.ext (Issuer.group.inj h).1 (Issuer.group.inj h).2)
      refine ih ((List.mem_cons.mp hp).resolve_left hq) ?_ hin
      rw [State.asIssuer_unitOf, State.unitOf_releaseBy_other hother]
      exact hfirst

/-! ### The barrier words -/

theorem exec_barInstr (w : SysW) (s : State) : Sys2Proof.Machine.exec (barInstr w) s = barWord w s := by
  unfold barInstr
  split <;> rfl

theorem State.modGroup_modGroup (s : State) (t gi : Nat) (f h : Group → Group) :
    (s.modGroup t gi f).modGroup t gi h = s.modGroup t gi (h ∘ f) := by
  simp only [State.modGroup, State.modTeam, modAt_modAt]
  congr 2
  funext tm
  simp only [Function.comp, modAt_modAt]

/-- A unit that stands at a barrier, as a barrier word that may arrive leaves it. -/
def Group.arrived (g gb : Group) (level index : Nat) : Prop :=
  sameRegs g gb ∧ gb.run = g.run ∧ gb.hold = .bar level index ∧ gb.clause.isSome = true

theorem barWord_goes {w : SysW} {s : State} {g : Group} {t gi : Nat} (hi : s.issuer = .group t gi) (hwhole : s.wholly w.head (barCheck w) g)
    (hfault : s.barFault w = none) (hfence : s.fenceHolds 3 (w.lvl.toNat + 1) = false) :
    ∃ gb, g.arrived gb w.lvl.toNat (barIndex w) ∧
      Sys2Proof.Machine.exec (barInstr w) s = .next ((s.modGroup t gi fun _ => gb).barTest w.lvl.toNat (barIndex w) t) := by
  obtain ⟨g0, ⟨hregs, hseen, hrun, -, hclause⟩, hfree, hgo⟩ := hwhole.run
  have hu : s.group? t gi = some g := (hi ▸ hwhole.1 :)
  have hexec := (exec_barInstr w s).trans (hgo (barGo w))
  rw [hi] at hexec
  set v := s.modUnit (.group t gi) fun _ => g0 with hv
  have hvi : v.issuer = .group t gi := (State.modUnit_issuer ..).trans hi
  have hview : v.viewTeam v.issuer = t := by rw [hvi]; rfl
  have hvfault : v.barFault w = none := (State.barFault_of_bare (State.bare_modUnit ..) w).trans hfault
  have hvfence : v.fenceHolds 3 (barScope w.lvl.toNat) = false := (State.fenceHolds_held hi hu hseen 3 _).trans hfence
  have hblocked : flagBlocked g0 (selectedFlag g0 w.head.fs) = false := hfree
  simp only [barGo, hvfault, hblocked, hview, hvfence, Bool.false_eq_true, if_false] at hexec
  by_cases hhold : g0.hold = .bar w.lvl.toNat (barIndex w)
  · rw [if_pos hhold] at hexec
    exact ⟨g0, ⟨hregs, hrun, hhold, hclause⟩, hexec⟩
  · rw [if_neg hhold, State.holdAt, hvi] at hexec
    refine ⟨{ g0 with hold := .bar w.lvl.toNat (barIndex w) }, ⟨hregs, hrun, rfl, hclause⟩, hexec.trans ?_⟩
    rw [hv, State.modUnit, State.modUnit, State.modGroup_modGroup]
    rfl

section
variable {s : State} {level index t : Nat}

theorem State.barTest_waits {p : Nat × Nat} (hp : p ∈ s.barGroups level index t)
    (hmissing : ((s.group? p.1 p.2).map Group.hold) ≠ some (.bar level index)) : s.barTest level index t = s := by
  have hall : ((s.barGroups level index t).all fun p => ((s.group? p.1 p.2).map Group.hold) = some (.bar level index)) = false := by
    rw [List.all_eq_false]
    exact ⟨p, hp, by simpa using hmissing⟩
  rw [State.barTest, State.barReady, hall]
  simp

/-- A barrier that has nothing to merge and nothing staged lets its participants acquire and pass. -/
theorem State.barTest_completes {p : Nat × Nat} (hp : p ∈ s.barGroups level index t) (hassembled : s.barAssembled level t = true)
    (hhere : ∀ p ∈ s.barGroups level index t, ((s.group? p.1 p.2).map Group.hold) = some (.bar level index))
    (hordered : level = 3 → ((s.launchOf t).map Launch.ordered).getD false = false)
    (hupdates : level ≠ 0 → ∀ x ∈ s.updates, x.team ∉ s.barTeams level t)
    (himages : level ≠ 0 → ∀ b ∈ s.subs, b.subscriber ∈ s.barTeams level t → b.image = []) :
    s.barTest level index t = ((s.acquireEach (level + 1) (s.barGroups level index t)).passEach (s.barGroups level index t)) := by
  have hready : s.barReady level index t = true := by
    have hne : s.barGroups level index t ≠ [] := List.ne_nil_of_mem hp
    have hlate : (level = 0 || !s.updates.any fun u => (s.barTeams level t).contains u.team && !u.late) = true := by
      by_cases hlevel : level = 0
      · simp [hlevel]
      · have hnone := hupdates hlevel
        simp only [hlevel, decide_false, Bool.false_or, Bool.not_eq_true', List.any_eq_false]
        intro x hx
        simp [hnone x hx]
    have hset : (level ≠ 3 || !((s.launchOf t).map Launch.ordered).getD false || (s.barTeams level t).all s.setSettled) = true := by
      by_cases hlevel : level = 3
      · simp [hordered hlevel]
      · simp [hlevel]
    simp only [State.barReady, hassembled, hlate, hset, Bool.true_and, Bool.and_true]
    simpa [hne] using hhere
  have hmerge : (decide (level = 3) && ((s.launchOf t).map Launch.ordered).getD false) = false := by
    by_cases hlevel : level = 3
    · simp [hordered hlevel]
    · simp [hlevel]
  have happlied : (if level = 0 then s else ((s.barTeams level t).foldl State.applyImages s).endLate (s.barTeams level t)) = s := by
    split
    · rfl
    next hlevel =>
      rw [foldl_of_fixed fun u hu => State.applyImages_empty fun b hb hsub => himages hlevel b hb (hsub ▸ hu)]
      exact State.endLate_none (hupdates hlevel)
  rw [State.barTest, if_pos hready]
  simp only [State.barComplete, hmerge, Bool.false_eq_true, if_false, happlied]
  rfl

end

theorem barIndex_eq (w : SysW) : barIndex w =
    if w.lvl.toNat = 0 then w.sub.toNat % 4 else if w.lvl.toNat = 1 then w.sub.toNat % 16 else 0 := by
  unfold barIndex
  split
  next h => simp [h, field]
  next h => simp [h, field]
  next h0 h1 => rw [if_neg h0, if_neg h1]

theorem barriersMeet_holds : barriersMeet := by
  intro w s g t gi tm hi htm hwhole hfault _ level index all here hfence hin hclause
  have hu : s.group? t gi = some g := (hi ▸ hwhole.1 :)
  obtain ⟨gb, ⟨hregs, hrun, hhold, hgb⟩, hexec⟩ := barWord_goes hi hwhole hfault hfence
  have hindex : barIndex w = index := barIndex_eq w
  rw [hindex] at hhold hexec
  set v := s.modGroup t gi fun _ => gb with hv
  have hbare : v.bare = s.bare := State.bare_modUnit s (.group t gi) _
  have hops : v.ops = s.ops := State.modUnit_ops s (.group t gi) _
  have hall : v.barGroups level index t = all := State.barGroups_modGroup hu (takesPart_of_same hregs hrun) level index t
  have hown : v.group? t gi = some gb := State.group?_modGroup_same _ hu
  have hothers {p : Nat × Nat} (hp : p ≠ (t, gi)) : v.group? p.1 p.2 = s.group? p.1 p.2 := State.group?_modGroup_other _ hp
  refine ⟨?waits, ?meets⟩
  case waits =>
    rintro ⟨p, hp, hother, hmissing⟩
    have hstays : v.barTest level index t = v := State.barTest_waits (hall ▸ hp) (by rwa [hothers hother])
    refine ⟨v, gb, hexec.trans (congrArg _ hstays), hi ▸ hown, fun j hj => State.unitOf_modUnit_other (i := .group t gi) _ (hi ▸ hj),
      ⟨hhold, Group.still_of_sameRegs hregs⟩,
      hbare, hops⟩
  case meets =>
    intro hheres hassembled hordered hupdates himages
    have hteams : v.barTeams level t = s.barTeams level t := State.barTeams_of_bare hbare level t
    have harrived (p : Nat × Nat) (hp : p ∈ all) : ((v.group? p.1 p.2).map Group.hold) = some (.bar level index) := by
      by_cases hself : p = (t, gi)
      · rw [hself, hown, Option.map_some, hhold]
      · rw [hothers hself]
        exact hheres p hp hself
    have hcompletes : v.barTest level index t = (v.acquireEach (level + 1) all).passEach all := by
      rw [← hall] at harrived hin ⊢
      refine State.barTest_completes hin ((State.barAssembled_of_bare hbare hops level t).trans hassembled) harrived (fun hl => ?_) ?_ ?_
      · have hlaunch := hordered hl
        rw [State.orderedOf, hi] at hlaunch
        rw [State.launchOf_of_bare hbare]
        exact hlaunch
      · rw [hteams, show v.updates = s.updates from State.modUnit_updates s (.group t gi) _]
        exact hupdates
      · rw [hteams, show v.subs = s.subs from State.modUnit_subs s (.group t gi) _]
        exact himages
    obtain ⟨-, hacqOps, hacqBare⟩ := State.acquireEach_part (level + 1) all v
    obtain ⟨-, hpassOps, hpassBare⟩ := State.passEach_part all (v.acquireEach (level + 1) all)
    refine ⟨_, hexec.trans (congrArg _ hcompletes), hpassOps.trans (hacqOps.trans hops), fun i hout => ?others, fun p hp => ?participants, ?bare⟩
    case others =>
      rw [State.unitOf_passEach_other hout, State.unitOf_acquireEach_other _ hout]
      exact State.unitOf_modUnit_other (i := .group t gi) _ (hout _ hin)
    case participants =>
      obtain ⟨x, hx⟩ := State.mem_barGroups hp
      obtain ⟨y, hy, hxy, hyclause⟩ : ∃ y, v.group? p.1 p.2 = some y ∧ sameRegs x y ∧ y.clause.isSome = true := by
        by_cases hself : p = (t, gi)
        · subst hself
          obtain rfl : x = g := Option.some.inj (hx.symm.trans hu)
          exact ⟨gb, hown, hregs, hgb⟩
        · exact ⟨x, (hothers hself).trans hx, sameRegs.refl x, hclause p hp x hx⟩
      obtain ⟨ids, hids⟩ := State.unitOf_acquireEach (level + 1) (.group p.1 p.2) all hy
      obtain ⟨g', hg', hyg, hnone⟩ := State.unitOf_passEach hp hids (.inl hyclause)
      exact ⟨x, g', hx, hg', hnone, Group.still_of_sameRegs ((hxy.trans (sameRegs_seeing y ids)).trans hyg)⟩
    case bare =>
      have hcores : v.coresOf all = s.coresOf all := State.coresOf_of_bare (congrArg State.teams hbare) all
      have hl1 : v.l1 = s.l1 := (congrArg State.l1 hbare :)
      intro cores
      rw [hpassBare, hacqBare, hbare, hcores, hl1]
      by_cases hl : level = 0
      · simp only [if_pos hl, if_neg (show ¬ 2 ≤ level + 1 by omega)]
      · simp only [if_neg hl, if_pos (show 2 ≤ level + 1 by omega)]
        rfl

/-- Settles O29: a ring word acts on its slot, a barrier holds its group while one is missing, and the last arrival lets all past. -/
theorem ringsAndBarriersMeet : Obligations.RingsAndBarriersMeet := ⟨ringsStep_holds, barriersMeet_holds⟩

end Sys2Proof.Machine
end

section
/-!
The parse of launch records and what a launch depends on (R392, R447-R450).
-/
namespace Sys2Proof.Machine

/-! ### The handle table -/

theorem find?_list {α : Type} (c : Cells α) (n m : Nat) (a : α) :
    ((Cells.list c n a).find? fun e => e.1 = m) = if m = n then some (n, a) else c.find? fun e => e.1 = m := by
  induction c with
  | nil => by_cases hm : m = n <;> simp [Cells.list, hm, eq_comm]
  | cons e c ih =>
    obtain ⟨k, v⟩ := e
    unfold Cells.list
    split
    next => by_cases hm : m = n <;> simp [hm, eq_comm]
    next =>
      split
      next hk => subst hk; by_cases hm : m = n <;> simp [hm, eq_comm]
      next hlt hk =>
        by_cases hkm : k = m
        · simp [hkm, show m ≠ n by omega]
        · simpa [List.find?_cons, hkm] using ih

section
variable {s : State} {n m : Nat} {b : BufHandle}

theorem State.bufHandle?_putHandle_same (hb : b ≠ BufHandle.none) : (s.putHandle n b).bufHandle? n = some b := by
  simp [State.bufHandle?, State.putHandle, Cells.put, hb, find?_list]

theorem State.bufHandle?_putHandle_other (h : m ≠ n) : (s.putHandle n b).bufHandle? m = s.bufHandle? m := by
  simp only [State.bufHandle?, State.putHandle, Cells.put]
  split
  · rw [List.find?_filter]
    congr 2
    funext e
    by_cases he : e.1 = m <;> simp [he, h]
  · rw [find?_list, if_neg h]

end

/-- A handle entered with a writer or a reader is no removed one. -/
theorem listed_ne_none {b : BufHandle} (h : b.writer ≠ none ∨ b.readers ≠ []) : b ≠ BufHandle.none := by
  rintro rfl
  simp [BufHandle.none] at h

theorem listHandle_listed (li : Nat) (ended : Nat → Bool) (w : Bool) (b : BufHandle) :
    (listHandle li ended w b).writer ≠ none ∨ (listHandle li ended w b).readers ≠ [] := by
  cases w <;> simp [listHandle]

/-- One handle of a launch's list entered, and the INPUT record that the launch owes for one handle. -/
def State.listOne (s : State) (li : Nat) (e : Nat × Bool × Bool) : State :=
  match s.bufHandle? e.1 with
  | some b => s.putHandle e.1 (listHandle li s.ended e.2.2 b)
  | none => s
def State.inputOne (s : State) (l : Launch) (h : Nat) : State :=
  match s.bufHandle? h with
  | some b => if b.dirtyInput then (s.extentRecord 0x02 l (h, b.base, b.len)).putHandle h { b with dirtyInput := false } else s
  | none => s

theorem State.listHandles_eq (s : State) (li : Nat) (es : List (Nat × Bool × Bool)) :
    s.listHandles li es = es.foldl (fun s e => s.listOne li e) s := rfl
theorem State.inputRecords_eq (s : State) (l : Launch) : s.inputRecords l = l.reads.foldl (fun s h => s.inputOne l h) s := rfl

section
variable {li : Nat} {es : List (Nat × Bool × Bool)} {s : State}

theorem State.bufHandle?_listOne_other {n : Nat} {e : Nat × Bool × Bool} (hn : n ≠ e.1) : (s.listOne li e).bufHandle? n = s.bufHandle? n := by
  unfold State.listOne
  split
  · exact State.bufHandle?_putHandle_other hn
  · rfl

theorem State.listOne_ended (e : Nat × Bool × Bool) : (s.listOne li e).ended = s.ended := by
  unfold State.listOne
  split <;> rfl

theorem State.bufHandle?_listHandles_other {n : Nat} (hn : n ∉ es.map Prod.fst) : (s.listHandles li es).bufHandle? n = s.bufHandle? n := by
  induction es generalizing s with
  | nil => rfl
  | cons e es ih =>
    simp only [List.map_cons, List.mem_cons, not_or] at hn
    obtain ⟨hne, hrest⟩ := hn
    exact (ih (s := s.listOne li e) hrest).trans (State.bufHandle?_listOne_other hne)

/-- Each listed handle is entered once. -/
theorem State.bufHandle?_listHandles (hnodup : (es.map Prod.fst).Nodup) {e : Nat × Bool × Bool} (he : e ∈ es) {b : BufHandle}
    (hb : s.bufHandle? e.1 = some b) : (s.listHandles li es).bufHandle? e.1 = some (listHandle li s.ended e.2.2 b) := by
  induction es generalizing s with
  | nil => cases he
  | cons f es ih =>
    obtain ⟨hfresh, hnodup⟩ := List.nodup_cons.mp hnodup
    obtain rfl | he := List.mem_cons.mp he
    · refine (State.bufHandle?_listHandles_other (s := s.listOne li e) hfresh).trans ?_
      rw [State.listOne, hb]
      exact State.bufHandle?_putHandle_same (listed_ne_none (listHandle_listed ..))
    · have hne : e.1 ≠ f.1 := fun h => hfresh (h ▸ List.mem_map_of_mem he)
      have hrest := ih (s := s.listOne li f) hnodup he ((State.bufHandle?_listOne_other hne).trans hb)
      rwa [State.listOne_ended] at hrest

end

theorem State.bufHandle?_inputOne {s : State} {l : Launch} {h n : Nat} {y : BufHandle} (hy : s.bufHandle? n = some y)
    (hlisted : y.writer ≠ none ∨ y.readers ≠ []) : ∃ d, (s.inputOne l h).bufHandle? n = some { y with dirtyInput := d } := by
  unfold State.inputOne
  split
  next b hb =>
    split
    · have hrecord : (s.extentRecord 0x02 l (h, b.base, b.len)).handles = s.handles := (State.record_recordsOnly ..).handles
      by_cases hn : n = h
      · subst hn
        obtain rfl : b = y := Option.some.inj (hb.symm.trans hy)
        exact ⟨false, State.bufHandle?_putHandle_same (listed_ne_none hlisted)⟩
      · refine ⟨y.dirtyInput, (State.bufHandle?_putHandle_other hn).trans ?_⟩
        rw [State.bufHandle?, hrecord]
        exact hy
    · exact ⟨y.dirtyInput, hy⟩
  · exact ⟨y.dirtyInput, hy⟩

/-- The INPUT records of a launch leave a listed handle's extent, writer and readers. -/
theorem State.bufHandle?_inputRecords {s : State} {l : Launch} {n : Nat} {y : BufHandle} (hy : s.bufHandle? n = some y)
    (hlisted : y.writer ≠ none ∨ y.readers ≠ []) : ∃ d, (s.inputRecords l).bufHandle? n = some { y with dirtyInput := d } := by
  rw [State.inputRecords_eq]
  generalize l.reads = hs
  induction hs generalizing s y with
  | nil => exact ⟨y.dirtyInput, hy⟩
  | cons h hs ih =>
    obtain ⟨d, hd⟩ := State.bufHandle?_inputOne (l := l) (h := h) hy hlisted
    exact ih (y := { y with dirtyInput := d }) hd hlisted

/-! ### What a parse leaves of the rest of the part -/

/-- Parts that differ at most in the handle table, the steps and what records leave. -/
def State.listsOnly (s t : State) : Prop :=
  { t with mem := s.mem, lineKeys := s.lineKeys, cinder := s.cinder, cinderSeq := s.cinderSeq, chain := s.chain, signDue := s.signDue
           handles := s.handles, steps := s.steps, overdue := s.overdue } = s

theorem State.listsOnly.trans {s t u : State} (h : s.listsOnly t) (k : t.listsOnly u) : s.listsOnly u := by
  unfold State.listsOnly at *
  rw [← h, ← k]

theorem State.recordsOnly.lists {s t : State} (h : s.recordsOnly t) : s.listsOnly t := by
  unfold State.recordsOnly at h
  unfold State.listsOnly
  rw [← h]

section
variable {s t : State} (h : s.listsOnly t)
include h
theorem State.listsOnly.teams : t.teams = s.teams := (congrArg State.teams h :)
theorem State.listsOnly.clusters : t.clusters = s.clusters := (congrArg State.clusters h :)
theorem State.listsOnly.launches : t.launches = s.launches := (congrArg State.launches h :)
theorem State.listsOnly.launchCount : t.launchCount = s.launchCount := (congrArg State.launchCount h :)
theorem State.listsOnly.queues : t.queues = s.queues := (congrArg State.queues h :)
theorem State.listsOnly.contexts : t.contexts = s.contexts := (congrArg State.contexts h :)
theorem State.listsOnly.hostMem : t.hostMem = s.hostMem := (congrArg State.hostMem h :)
theorem State.listsOnly.ops : t.ops = s.ops := (congrArg State.ops h :)
theorem State.listsOnly.interrupts : t.interrupts = s.interrupts := (congrArg State.interrupts h :)
theorem State.listsOnly.regs : t.regs = s.regs := (congrArg State.regs h :)
theorem State.listsOnly.replaying : t.replaying = s.replaying := (congrArg State.replaying h :)
end

/-- Parts of which one has entered records of the ring, no more than `n`. -/
def State.entersUpTo (s t : State) (n : Nat) : Prop := ∃ k, k ≤ n ∧ s.enters t k

theorem State.entersUpTo.trans {s t u : State} {m n : Nat} (h : s.entersUpTo t m) (k : t.entersUpTo u n) : s.entersUpTo u (m + n) := by
  obtain ⟨i, hi, h⟩ := h
  obtain ⟨j, hj, k⟩ := k
  exact ⟨i + j, by omega, h.trans k⟩

theorem State.listHandles_frame (s : State) (li : Nat) (es : List (Nat × Bool × Bool)) : s.listsOnly (s.listHandles li es) ∧
    (s.listHandles li es).steps = s.steps ∧ s.entersUpTo (s.listHandles li es) 0 := by
  rw [State.listHandles_eq]
  induction es generalizing s with
  | nil => exact ⟨rfl, rfl, 0, le_rfl, State.enters_none rfl rfl rfl⟩
  | cons e es ih =>
    obtain ⟨hlists, hsteps, henters⟩ := ih (s.listOne li e)
    have hone : s.listsOnly (s.listOne li e) ∧ (s.listOne li e).steps = s.steps ∧ s.entersUpTo (s.listOne li e) 0 := by
      unfold State.listOne
      split <;> exact ⟨rfl, rfl, 0, le_rfl, State.enters_none rfl rfl rfl⟩
    exact ⟨hone.1.trans hlists, hsteps.trans hone.2.1, hone.2.2.trans henters⟩

theorem State.inputOne_frame (s : State) (l : Launch) (h : Nat) : s.listsOnly (s.inputOne l h) ∧ (s.inputOne l h).steps = s.steps ∧
    s.entersUpTo (s.inputOne l h) 1 := by
  unfold State.inputOne
  have hsame : s.listsOnly s ∧ s.steps = s.steps ∧ s.entersUpTo s 1 := ⟨rfl, rfl, 0, by omega, State.enters_none rfl rfl rfl⟩
  split
  next b hb =>
    split
    · have hrecords : s.recordsOnly (s.extentRecord 0x02 l (h, b.base, b.len)) := State.record_recordsOnly ..
      refine ⟨hrecords.lists.trans rfl, hrecords.steps, 1, le_rfl, ?_⟩
      exact (State.record_enters ..).trans (State.enters_none rfl rfl rfl)
    · exact hsame
  · exact hsame

theorem State.inputRecords_frame (s : State) (l : Launch) : s.listsOnly (s.inputRecords l) ∧ (s.inputRecords l).steps = s.steps ∧
    s.entersUpTo (s.inputRecords l) l.reads.length := by
  rw [State.inputRecords_eq]
  generalize l.reads = hs
  induction hs generalizing s with
  | nil => exact ⟨rfl, rfl, 0, le_rfl, State.enters_none rfl rfl rfl⟩
  | cons h hs ih =>
    obtain ⟨hlists, hsteps, henters⟩ := ih (s.inputOne l h)
    obtain ⟨holists, hosteps, hoenters⟩ := s.inputOne_frame l h
    refine ⟨holists.trans hlists, hsteps.trans hosteps, ?_⟩
    rw [List.length_cons, Nat.add_comm]
    exact hoenters.trans henters

/-- The steps once a queue has moved on and what has ended is closed: those of before, their declarers apart. -/
theorem State.closed_frame (s : State) (q id : Nat) : s.listsOnly (s.moveOn q id).closeSteps ∧ s.entersUpTo (s.moveOn q id).closeSteps 0 ∧
    (s.moveOn q id).closeSteps.handles = s.handles ∧ ∀ x ∈ (s.moveOn q id).closeSteps.steps, ∃ y ∈ s.steps, x.switched = y.switched := by
  refine ⟨rfl, ⟨0, le_rfl, State.enters_none rfl rfl rfl⟩, rfl, fun x hx => ?_⟩
  obtain ⟨y, hy, rfl⟩ := List.mem_map.mp (List.mem_of_mem_filter hx)
  refine ⟨y, hy, ?_⟩
  split <;> rfl

/-- The part in which a record's launch stands, before a switch of it and before its queue goes on. -/
def State.parsed (s : State) (q : Nat) (slot : QSlot) (p : LaunchPlan) (es : List (Nat × Bool × Bool)) : State :=
  let l := s.newLaunch q slot p es
  let r := slotNat slot
  let s1 : State := { s with launches := s.launches ++ [l], launchCount := max s.launchCount (l.ordinal + 1) }
  let s2 := (s1.listHandles s.launches.length es).record 0x01 q l.num.toNat
    (digestBytes (sha256 (slotBytes slot)) ++ bytesOfNat 4 (field r 32 32) ++ bytesOfNat 1 (field r 8 8))
  ((s2.inputRecords l).moveOn q (field r 32 32)).closeSteps

theorem State.parseLaunch_eq (s : State) (q : Nat) (slot : QSlot) (p : LaunchPlan) (es : List (Nat × Bool × Bool)) : s.parseLaunch q slot p es =
    ((s.parsed q slot p es).lateSwitch s.launches.length (s.newLaunch q slot p es)).accept q slot (some s.launches.length) := rfl

section
variable (s : State) (q : Nat) (slot : QSlot) (p : LaunchPlan) (es : List (Nat × Bool × Bool))

theorem State.parsed_frame : let l := s.newLaunch q slot p es
    ({ s with launches := s.launches ++ [l], launchCount := max s.launchCount (l.ordinal + 1) } : State).listsOnly (s.parsed q slot p es) ∧
    s.entersUpTo (s.parsed q slot p es) (1 + l.reads.length) ∧ ∀ x ∈ (s.parsed q slot p es).steps, ∃ y ∈ s.steps, x.switched = y.switched := by
  intro l
  let s1 : State := { s with launches := s.launches ++ [l], launchCount := max s.launchCount (l.ordinal + 1) }
  let s2 := s1.listHandles s.launches.length es
  let s3 := s2.record 0x01 q l.num.toNat (digestBytes (sha256 (slotBytes slot)) ++ bytesOfNat 4 (field (slotNat slot) 32 32) ++
    bytesOfNat 1 (field (slotNat slot) 8 8))
  let s4 := s3.inputRecords l
  obtain ⟨hlists2, hsteps2, henters2⟩ : s1.listsOnly s2 ∧ s2.steps = s1.steps ∧ s1.entersUpTo s2 0 := s1.listHandles_frame ..
  have hrecords3 : s2.recordsOnly s3 := State.record_recordsOnly ..
  have henters3 : s2.enters s3 1 := State.record_enters ..
  obtain ⟨hlists4, hsteps4, henters4⟩ : s3.listsOnly s4 ∧ s4.steps = s3.steps ∧ s3.entersUpTo s4 l.reads.length := s3.inputRecords_frame l
  obtain ⟨hlists5, henters5, -, hsteps5⟩ := s4.closed_frame q (field (slotNat slot) 32 32)
  have hbegan : s.entersUpTo s1 0 := ⟨0, le_rfl, State.enters_none rfl rfl rfl⟩
  refine ⟨((hlists2.trans hrecords3.lists).trans hlists4).trans hlists5, ?_, fun x hx => ?_⟩
  · have hall := (((hbegan.trans henters2).trans ⟨1, le_rfl, henters3⟩).trans henters4).trans henters5
    rw [show 0 + 0 + 1 + l.reads.length + 0 = 1 + l.reads.length by omega] at hall
    exact hall
  · obtain ⟨y, hy, hswitched⟩ := hsteps5 x hx
    exact ⟨y, by rwa [hsteps4, hrecords3.steps, hsteps2] at hy, hswitched⟩

/-- Each listed handle has the launch as its writer, or among its readers, and keeps its extent (R450). -/
theorem State.parsed_handles (hnodup : (es.map Prod.fst).Nodup) {e : Nat × Bool × Bool} (he : e ∈ es) {b : BufHandle}
    (hb : s.bufHandle? e.1 = some b) : ∃ y, (s.parsed q slot p es).bufHandle? e.1 = some y ∧ y.base = b.base ∧ y.len = b.len ∧
      (e.2.2 = true → y.writer = some s.launches.length ∧ y.readers = []) ∧
      (e.2.2 = false → y.writer = b.writer ∧ s.launches.length ∈ y.readers) := by
  let l := s.newLaunch q slot p es
  let s1 : State := { s with launches := s.launches ++ [l], launchCount := max s.launchCount (l.ordinal + 1) }
  let s2 := s1.listHandles s.launches.length es
  let s3 := s2.record 0x01 q l.num.toNat (digestBytes (sha256 (slotBytes slot)) ++ bytesOfNat 4 (field (slotNat slot) 32 32) ++
    bytesOfNat 1 (field (slotNat slot) 8 8))
  have hentered : s2.bufHandle? e.1 = some (listHandle s.launches.length s1.ended e.2.2 b) := State.bufHandle?_listHandles (s := s1) hnodup he hb
  have hrecorded : s3.bufHandle? e.1 = some (listHandle s.launches.length s1.ended e.2.2 b) := by
    rw [State.bufHandle?, (State.record_recordsOnly ..).handles]
    exact hentered
  obtain ⟨d, hd⟩ := State.bufHandle?_inputRecords (l := l) hrecorded (listHandle_listed ..)
  refine ⟨_, hd, ?_⟩
  cases e.2.2 <;> simp [listHandle]

end

/-! ### A queue that goes on (R425, R427, R444) -/

/-- A context that keeps a command for a rollback, when it is a launch or follows one in the interval. -/
def Context.keeping (c : Context) (k : Kept) : Context := if k.launch.isSome || c.kept ≠ [] then { c with kept := c.kept ++ [k] } else c

theorem Context.keeping_kept (c : Context) (q : Nat) (slot : QSlot) (seed : Word64) (launch : Option Nat) :
    ((c.keeping ⟨q, slot, seed, launch⟩).kept.map fun k => (k.queue, k.slot, k.launch)) =
      (c.kept.map fun k => (k.queue, k.slot, k.launch)) ++ if launch ≠ none ∨ c.kept ≠ [] then [(q, slot, launch)] else [] := by
  unfold Context.keeping
  by_cases hk : launch ≠ none ∨ c.kept ≠ []
  · rw [if_pos (by simpa [Option.isSome_iff_ne_none] using hk), if_pos hk, List.map_append]
    rfl
  · rw [if_neg (by simpa [Option.isSome_iff_ne_none] using hk), if_neg hk, List.append_nil]

theorem Context.keeping_replay (c : Context) (k : Kept) : (c.keeping k).replay = c.replay := by
  unfold Context.keeping
  split <;> rfl

theorem State.accept_eq {s : State} {q : Nat} {qu : Queue} {c : Context} (hq : s.queues[q]? = some qu) (hc : s.contexts[qu.ctx]? = some c)
    (slot : QSlot) (launch : Option Nat) : s.accept q slot launch =
      if c.replay ≠ [] then { s with
        queues := s.queues.set q { qu with held := none }
        contexts := s.contexts.set qu.ctx { c.keeping ⟨q, slot, s.seedFor q, launch⟩ with replay := c.replay.tail } }
      else { s with
        queues := s.queues.set q { qu with consumer := (qu.consumer + 1) % 2 ^ 64, held := none }
        contexts := s.contexts.set qu.ctx (c.keeping ⟨q, slot, s.seedFor q, launch⟩)
        hostMem := putBytes s.hostMem qu.cons.toNat (bytesOfNat 8 ((qu.consumer + 1) % 2 ^ 64)) } := by
  have hctx (x : State) (hx : x.queues = s.queues) : x.ctxOfQueue q = qu.ctx := by simp [State.ctxOfQueue, hx, hq]
  let c' := c.keeping ⟨q, slot, s.seedFor q, launch⟩
  have hkept : (s.modContext (s.ctxOfQueue q) fun c => if launch.isSome || c.kept ≠ [] then
      { c with kept := c.kept ++ [⟨q, slot, s.seedFor q, launch⟩] } else c) = { s with contexts := s.contexts.set qu.ctx c' } := by
    rw [hctx s rfl, State.modContext, modAt_eq_set _ hc]
    rfl
  have hreplay : c'.replay = c.replay := Context.keeping_replay ..
  have hat : (s.contexts.set qu.ctx c')[qu.ctx]? = some c' := by
    rw [List.getElem?_set_self (List.getElem?_eq_some_iff.mp hc).1]
  rw [State.accept, hkept, State.consume]
  simp only [hctx { s with contexts := s.contexts.set qu.ctx c' } rfl, hat, hq, hreplay]
  split
  · simp only [State.modQueue, State.modContext, modAt_eq_set _ hq, modAt_eq_set _ hat, List.set_set, hreplay]
    rfl
  · simp only [State.modQueue, modAt_eq_set _ hq]
    rfl

/-- A queue that has accepted its head command has passed it, and nothing else of the part has changed. -/
theorem State.accept_passes {s w : State} {h : QHead} {launch : Option Nat} (hparsing : s.parsing h) (hqueues : w.queues = s.queues)
    (hcontexts : w.contexts = s.contexts) (hhost : w.hostMem = s.hostMem) :
    (w.accept h.q h.slot launch).passes h s launch ∧ (w.accept h.q h.slot launch).unqueued = w.unqueued := by
  obtain ⟨-, hq, hc⟩ := hparsing
  rw [State.accept_eq (hqueues ▸ hq) (hcontexts ▸ hc), hqueues, hcontexts, hhost]
  have hqset (x : Queue) : (s.queues.set h.q x)[h.q]? = some x := List.getElem?_set_self (List.getElem?_eq_some_iff.mp hq).1
  have hcset (x : Context) : (s.contexts.set h.qu.ctx x)[h.qu.ctx]? = some x := List.getElem?_set_self (List.getElem?_eq_some_iff.mp hc).1
  by_cases hreplay : h.c.replay = []
  · rw [if_neg (by simpa using hreplay)]
    refine ⟨⟨⟨_, hqset _, rfl, (if_pos hreplay).symm⟩, ⟨_, hcset _, ?_, Context.keeping_kept ..⟩, (if_pos hreplay).symm,
      fun j hj => List.getElem?_set_ne hj.symm, fun j hj => List.getElem?_set_ne hj.symm⟩, rfl⟩
    rw [Context.keeping_replay, hreplay]
    rfl
  · rw [if_pos hreplay]
    exact ⟨⟨⟨_, hqset _, rfl, (if_neg hreplay).symm⟩, ⟨_, hcset _, List.drop_one.symm, Context.keeping_kept ..⟩, by rw [if_neg hreplay, ← hhost],
      fun j hj => List.getElem?_set_ne hj.symm, fun j hj => List.getElem?_set_ne hj.symm⟩, rfl⟩

/-! ### A launch record that passes every check -/

theorem State.lateSwitch_none {s : State} {li : Nat} {l : Launch} (h : l.fallback = none ∨ (s.regs.replay = false ∧ ∀ x ∈ s.steps, x.switched = false) ∨
    (s.regs.replay = true ∧ l.ordinal ∉ s.replaying)) : s.lateSwitch li l = s := by
  unfold State.lateSwitch
  obtain hnone | ⟨hreplay, hsteps⟩ | ⟨hreplay, hother⟩ := h
  · simp [hnone]
  · have hfind : (s.steps.find? fun x => l.steps.contains x.id && x.switched) = none :=
      List.find?_eq_none.mpr fun x hx => by simp [hsteps x hx]
    simp only [hreplay, hfind, Bool.false_eq_true, if_false, ite_self]
  · simp [hreplay, hother]

theorem length_eraseDups_le {α : Type} [BEq α] (l : List α) : l.eraseDups.length ≤ l.length := by
  induction hn : l.length using Nat.strong_induction_on generalizing l with
  | _ n ih =>
    subst hn
    cases l with
    | nil => simp
    | cons a l =>
      rw [List.eraseDups_cons, List.length_cons, List.length_cons]
      have hfilter := List.length_filter_le (fun b => !b == a) l
      have hrest := ih _ (by rw [List.length_cons]; omega) (l.filter fun b => !b == a) rfl
      omega

theorem nodup_of_length_eraseDups {α : Type} [DecidableEq α] {l : List α} (h : l.eraseDups.length = l.length) : l.Nodup := by
  induction l with
  | nil => exact List.nodup_nil
  | cons a l ih =>
    rw [List.eraseDups_cons, List.length_cons, List.length_cons] at h
    have hdups := length_eraseDups_le (l.filter fun b => !b == a)
    have hfilter := List.length_filter_le (fun b => !b == a) l
    have hself : (l.filter fun b => !b == a) = l := List.filter_eq_self.mpr (List.length_filter_eq_length_iff.mp (by omega))
    rw [hself] at h
    refine List.nodup_cons.mpr ⟨fun ha => ?_, ih (by omega)⟩
    rw [← hself] at ha
    simpa using List.of_mem_filter ha

/-- A record that passes every check lists each handle once. -/
theorem handles_nodup {s : State} {ctx r : Nat} {a : Bool} {es : List (Nat × Bool × Bool)} (h : s.launchStatus ctx a r = 0)
    (hes : s.handleList ctx r = some es) : (es.map Prod.fst).Nodup := by
  have hgood : s.handlesBad es = false := by
    by_contra hbad
    rw [Bool.not_eq_false] at hbad
    unfold State.launchStatus at h
    split at h
    · cases h
    · split at h
      · cases h
      · simp only [hes, Option.any_some, hbad, if_true] at h
        split_ifs at h
  simp only [State.handlesBad, Bool.or_eq_false_iff, decide_eq_false_iff_not, not_not] at hgood
  exact nodup_of_length_eraseDups (by simpa using hgood.2)

theorem length_handleList {s : State} {ctx r : Nat} {es : List (Nat × Bool × Bool)} (hes : s.handleList ctx r = some es) : es.length < 4096 := by
  obtain ⟨bs, -, rfl⟩ := Option.map_eq_some_iff.mp hes
  rw [List.length_map, List.length_range, field]
  exact Nat.mod_lt _ (by decide)

/-- What a launch record parses to at the head of its queue (R449, R450). -/
theorem State.newLaunch_spec {s : State} {h : QHead} (hq : s.queues[h.q]? = some h.qu) (hc : s.contexts[h.qu.ctx]? = some h.c)
    (p : LaunchPlan) (es : List (Nat × Bool × Bool)) :
    let l := s.newLaunch h.q h.slot p es
    l.ordinal = ((((h.c.replay.head?).bind Kept.launch).bind fun li => s.launches[li]?).map Launch.ordinal).getD s.launchCount ∧
    l.num = BitVec.ofNat 16 l.ordinal ∧ l.ctx = h.qu.ctx ∧ l.classA = h.qu.cfg.getLsbD 52 ∧
    l.seed = ((h.c.replay.head?).map Kept.seed).getD h.qu.seed := by
  have hctx : s.ctxOfQueue h.q = h.qu.ctx := by simp [State.ctxOfQueue, hq]
  refine ⟨?_, rfl, hctx, by simp [State.newLaunch, hq], ?_⟩
  · simp [State.newLaunch, hctx, hc]
  · simp only [State.newLaunch, State.seedFor, hctx, hc, hq, Option.bind_some, Option.map_some, Option.getD_some]
    cases h.c.replay.head? <;> rfl

theorem execLaunch_goes {s : State} {h : QHead} {p : LaunchPlan} {es : List (Nat × Bool × Bool)} (hparsing : s.parsing h)
    (hcode : slotCode h.slot = 1) (hheld : s.launchHeld h.qu.ctx = false)
    (hstatus : s.launchStatus h.qu.ctx (h.qu.cfg.getLsbD 52) (slotNat h.slot) = 0) (hplan : s.launchPlan h.qu.ctx (slotNat h.slot) = some p)
    (hes : s.handleList h.qu.ctx (slotNat h.slot) = some es) :
    Sys2Proof.Machine.exec (.launch h.q h.slot) s = .next ((s.tookTurn h.q).parseLaunch h.q h.slot p es) := by
  obtain ⟨hnext, hq, hc⟩ := hparsing
  have hctx : s.ctxOfQueue h.q = h.qu.ctx := by simp [State.ctxOfQueue, hq]
  show execLaunch h.q h.slot s = _
  simp only [execLaunch, hnext, hcode, hctx, hheld, hq, Option.map_some, Option.getD_some, hstatus, hplan, hes]
  rfl

theorem launchesParse_holds : launchesParse := by
  intro s h p es hparsing hcode hheld r ordinal hstatus hplan hes hfallback
  have hexec := execLaunch_goes hparsing hcode hheld hstatus hplan hes
  obtain ⟨hnext, hq, hc⟩ := hparsing
  have hturn : s.tookTurn h.q = { s with lastQueue := modAt s.lastQueue h.qu.rank fun _ => h.q } := by simp [State.tookTurn, hq]
  set v : State := { s with lastQueue := modAt s.lastQueue h.qu.rank fun _ => h.q }
  obtain ⟨hordinal, hnum, hctx, hclass, hseed⟩ := State.newLaunch_spec (s := v) hq hc p es
  obtain ⟨hlists, ⟨k, hk, henters⟩, hsteps⟩ := v.parsed_frame h.q h.slot p es
  set l := v.newLaunch h.q h.slot p es
  change l.ordinal = ordinal at hordinal
  set w := v.parsed h.q h.slot p es
  have hswitch : w.lateSwitch v.launches.length l = w := by
    refine State.lateSwitch_none ?_
    rw [hlists.regs, hlists.replaying, hordinal]
    refine hfallback.imp (fun hnone => by simp [l, State.newLaunch, hnone]) (Or.imp_left fun hswitched => ⟨hswitched.1, fun x hx => ?_⟩)
    obtain ⟨y, hy, hxy⟩ := hsteps x hx
    exact hxy.trans (hswitched.2 y hy)
  rw [hturn, State.parseLaunch_eq, hswitch] at hexec
  obtain ⟨hpasses, hrest⟩ := State.accept_passes (s := s) (w := w) (launch := some s.launches.length) ⟨hnext, hq, hc⟩ hlists.queues hlists.contexts
    hlists.hostMem
  have hmem : s.memKept (w.accept h.q h.slot (some s.launches.length)) := by
    have hreads : l.reads.length ≤ es.length := by
      simp only [l, State.newLaunch, List.length_map]
      exact List.length_filter_le ..
    have hlength := length_handleList hes
    have hended : w.enters (w.accept h.q h.slot (some s.launches.length)) 0 :=
      State.enters_none (congrArg State.cinderBase hrest :) (congrArg State.cinderSeq hrest :) (congrArg State.mem hrest :)
    have hbegan : s.enters v 0 := State.enters_none rfl rfl rfl
    exact ((hbegan.trans henters).trans hended).memKept (by omega)
  refine ⟨w.accept h.q h.slot (some s.launches.length), l, hexec, hpasses, ?launches, ?count, hordinal, ?num, rfl, hctx, rfl, hclass, rfl, rfl, rfl, rfl, rfl,
    rfl, rfl, rfl, hseed, rfl, rfl, rfl, fun e he b hb => ?handles, ?teams, ?clusters, hmem, ?ops, ?interrupts⟩
  case launches => exact (congrArg State.launches hrest :).trans hlists.launches
  case count =>
    rw [← hordinal]
    exact (congrArg State.launchCount hrest :).trans hlists.launchCount
  case num => rw [hnum, hordinal]
  case handles =>
    have hlisted : (w.accept h.q h.slot (some s.launches.length)).handles = w.handles := (congrArg State.handles hrest :)
    rw [State.bufHandle?, hlisted]
    exact v.parsed_handles h.q h.slot p es (handles_nodup hstatus hes) he hb
  case teams => exact (congrArg State.teams hrest :).trans hlists.teams
  case clusters => exact (congrArg State.clusters hrest :).trans hlists.clusters
  case ops => exact (congrArg State.ops hrest :).trans hlists.ops
  case interrupts => exact (congrArg State.interrupts hrest :).trans hlists.interrupts

/-- The launches that a handle list makes a launch depend on. -/
theorem dependencesHold_holds : dependencesHold := by
  intro s es l
  rw [State.depsOf, List.mem_eraseDups, List.mem_flatMap]
  refine exists_congr fun e => and_congr_right fun _ => ?_
  cases s.bufHandle? e.1 with
  | none => simp
  | some b => cases e.2.2 <;> simp

end Sys2Proof.Machine
end

section
/-!
The start of a launch and the division of its cluster-teams over the clusters that serve it (R211, R304, R349, R392).
-/
namespace Sys2Proof.Machine

/-! ### What is read at a launch's start -/

section
variable (s : State) (l1 : List L1Sector) (ctx : Nat)

/-- What a context's memory holds does not depend on the L1s, through which only cores read. -/
theorem State.translate_withoutL1 (die va : Nat) : ({ s with l1 := l1 } : State).translate die ctx va = s.translate die ctx va :=
  State.translate_congr (s := s) (u := { s with l1 := l1 }) (fun key pa n => State.homeBytes_congr rfl rfl rfl key pa n) rfl rfl die ctx va

theorem State.extentVerdict_withoutL1 (die : Nat) (need : Need) (va n : Nat) :
    ({ s with l1 := l1 } : State).extentVerdict die ctx need va n = s.extentVerdict die ctx need va n := by
  simp only [State.extentVerdict, State.access, State.translate_withoutL1]

theorem State.readVa_withoutL1 (team die va n : Nat) : ({ s with l1 := l1 } : State).readVa team die ctx va n = s.readVa team die ctx va n := by
  have htranslate : ({ s with l1 := l1 } : State).translate die ctx = s.translate die ctx := funext fun va => State.translate_withoutL1 s l1 ctx die va
  have hread (pa : Nat) (leaf : Word64) (n : Nat) : ({ s with l1 := l1 } : State).readHome team ctx pa leaf n = s.readHome team ctx pa leaf n := rfl
  simp only [State.readVa, State.readBy, htranslate, hread]

theorem State.ctxRead_withoutL1 (va n : Nat) : ({ s with l1 := l1 } : State).ctxRead ctx va n = s.ctxRead ctx va n := by
  simp only [State.ctxRead, State.extentVerdict_withoutL1, State.readVa_withoutL1]

theorem State.handlerCodeOf_withoutL1 : ({ s with l1 := l1 } : State).handlerCodeOf ctx = s.handlerCodeOf ctx := by
  simp only [State.handlerCodeOf, State.objectAt, State.ctxRead_withoutL1]

theorem State.refetch_withoutL1 (l : Launch) : ({ s with l1 := l1 } : State).refetch l = s.refetch l := by
  simp only [State.refetch, State.ctxRead_withoutL1]

end

/-! ### Shares handed to clusters -/

/-- The shares that a cluster gets of a division. -/
def sharesFor (li c : Nat) (ds : List (Nat × Nat × Nat)) : List Share :=
  (ds.filter fun x => x.1 = c && x.2.1 < x.2.2).map fun x => ⟨li, x.2.1, x.2.2⟩

theorem mem_sharesFor {li c : Nat} {ds : List (Nat × Nat × Nat)} {sh : Share} : sh ∈ sharesFor li c ds ↔
    sh.launch = li ∧ sh.next < sh.stop ∧ (c, sh.next, sh.stop) ∈ ds := by
  simp only [sharesFor, List.mem_map, List.mem_filter, Bool.and_eq_true, decide_eq_true_eq]
  constructor
  · rintro ⟨⟨c, i, j⟩, ⟨hmem, rfl, hlt⟩, rfl⟩
    exact ⟨rfl, hlt, hmem⟩
  · rintro ⟨rfl, hlt, hmem⟩
    exact ⟨(c, sh.next, sh.stop), ⟨hmem, rfl, hlt⟩, rfl⟩

/-- A share handed to its cluster, if it is of any team. -/
def State.handShare (s : State) (li : Nat) (x : Nat × Nat × Nat) : State :=
  if x.2.1 < x.2.2 then s.modCluster x.1 fun c => { c with shares := c.shares ++ [⟨li, x.2.1, x.2.2⟩] } else s

theorem State.handShares_eq (s : State) (li : Nat) (l : Launch) : s.handShares li l =
    (s.dividedShares ((l.teamCount + l.cts - 1) / l.cts) l.classA).foldl (fun s x => s.handShare li x) s := rfl

/-- Parts that differ at most in their clusters. -/
def State.clustersOnly (s t : State) : Prop := { t with clusters := s.clusters } = s

theorem State.clustersOnly.trans {s t u : State} (h : s.clustersOnly t) (k : t.clustersOnly u) : s.clustersOnly u := by
  unfold State.clustersOnly at *
  rw [← h, ← k]

theorem State.handShare_clusters (s : State) (li : Nat) (x : Nat × Nat × Nat) (c : Nat) : (s.handShare li x).clusters[c]? =
    (s.clusters[c]?).map fun k => { k with shares := k.shares ++ sharesFor li c [x] } := by
  unfold State.handShare sharesFor
  split
  next hlt =>
    rw [State.modCluster, getElem?_modAt]
    by_cases hc : x.1 = c <;> simp [hc, hlt]
  next hlt => simp [hlt]

theorem State.handEach_length (li : Nat) (ds : List (Nat × Nat × Nat)) (s : State) :
    (ds.foldl (fun s x => s.handShare li x) s).clusters.length = s.clusters.length := by
  induction ds generalizing s with
  | nil => rfl
  | cons x ds ih =>
    refine (ih (s.handShare li x)).trans ?_
    unfold State.handShare
    split
    · simp [State.modCluster, modAt]
    · rfl

theorem State.handEach_clusters (li : Nat) (ds : List (Nat × Nat × Nat)) (s : State) :
    s.clustersOnly (ds.foldl (fun s x => s.handShare li x) s) ∧ ∀ c : Nat, (ds.foldl (fun s x => s.handShare li x) s).clusters[c]? =
      (s.clusters[c]?).map fun k => { k with shares := k.shares ++ sharesFor li c ds } := by
  induction ds generalizing s with
  | nil => exact ⟨rfl, fun c => by simp [sharesFor]⟩
  | cons x ds ih =>
    obtain ⟨honly, hclusters⟩ := ih (s.handShare li x)
    refine ⟨State.clustersOnly.trans ?_ honly, fun c => ?_⟩
    · unfold State.handShare
      split <;> rfl
    · have hsplit : sharesFor li c (x :: ds) = sharesFor li c [x] ++ sharesFor li c ds := by
        rw [sharesFor, ← List.singleton_append, List.filter_append, List.map_append]
        rfl
      rw [List.foldl_cons, hclusters, State.handShare_clusters, Option.map_map, hsplit]
      congr 1
      funext k
      simp

/-! ### The division (R304) -/

theorem State.dividedShares_congr {s u : State} (hdies : u.dies.map Die.state = s.dies.map Die.state) (hregs : u.regs = s.regs) (g : Nat) (a : Bool) :
    u.dividedShares g a = s.dividedShares g a := by
  have hlength : u.dies.length = s.dies.length := by simpa using congrArg List.length hdies
  have hserves (c : Nat) : u.clusterServes c a = s.clusterServes c a := by
    have hlive (x : State) : ((x.dies[c / 6]?).any fun d => d.state = .live) = ((x.dies.map Die.state)[c / 6]?).any fun d => d = .live := by
      rw [List.getElem?_map]
      cases x.dies[c / 6]? <;> rfl
    rw [State.clusterServes, State.clusterServes, hlive u, hlive s, hdies, hregs]
  simp only [State.dividedShares, State.dieClusters, hlength, hserves]

/-! ### The start of a launch -/

/-- The launch that starts: its code as fetch sees it from now on, and its handlers' code. -/
def State.starting (s : State) (l : Launch) : Launch := { s.refetch l with state := .running, handlerCode := s.handlerCodeOf l.ctx }

/-- The part in which a launch starts, before its cluster-teams are divided. -/
def State.begun (s : State) (l : Launch) : State :=
  { s with
    l1 := if l.deps = [] then s.l1 else []
    launches := s.launches.set s.subject (s.starting l)
    dies := if l.coop then s.dies.map fun d => if d.state = .live then { d with barriers := d.barriers ++ [s.subject] } else d else s.dies }

theorem execLaunchStart_goes {s : State} {l : Launch} (hl : s.launches[s.subject]? = some l) (hmay : s.mayStart l = true) :
    Sys2Proof.Machine.exec .launchStart s = .next (if l.ordered then s.begun l else (s.begun l).handShares s.subject l) := by
  have hstart (l1 : List L1Sector) : (({ s with l1 := l1 } : State).modLaunch s.subject fun l =>
      { ({ s with l1 := l1 } : State).refetch l with state := .running, handlerCode := ({ s with l1 := l1 } : State).handlerCodeOf l.ctx }) =
      { s with l1 := l1, launches := s.launches.set s.subject (s.starting l) } := by
    simp only [State.modLaunch, State.refetch_withoutL1, State.handlerCodeOf_withoutL1, modAt_eq_set _ hl]
    rfl
  have hdropped : (if l.deps = [] then s else { s with l1 := [] }) = { s with l1 := if l.deps = [] then s.l1 else [] } := by split <;> rfl
  show execLaunchStart s = _
  simp only [execLaunchStart, hl, hmay, Bool.not_true, Bool.false_eq_true, if_false, hdropped, hstart]
  cases hcoop : l.coop <;> simp only [State.begun, hcoop, Bool.false_eq_true, if_false, if_true]

theorem State.refetch_eq (s : State) (l : Launch) : ∃ code, s.refetch l = { l with code := code } ∧
    ∀ bs, s.ctxRead l.ctx l.codeVa (8 * l.code.length) = some bs → code = wordsOf bs := by
  unfold State.refetch
  cases s.ctxRead l.ctx l.codeVa (8 * l.code.length) with
  | none => exact ⟨l.code, rfl, by simp⟩
  | some bs => exact ⟨wordsOf bs, rfl, by simp⟩

theorem State.begun_dies (s : State) (l : Launch) {d : Nat} {die : Die} (hdie : s.dies[d]? = some die) : (s.begun l).dies[d]? = some
    (if l.coop = true ∧ die.state = .live then { die with barriers := die.barriers ++ [s.subject] } else die) := by
  unfold State.begun
  by_cases hcoop : l.coop = true <;> simp [hcoop, hdie]

theorem State.begun_divides (s : State) (l : Launch) (g : Nat) (a : Bool) : (s.begun l).dividedShares g a = s.dividedShares g a := by
  refine State.dividedShares_congr (s := s) (u := s.begun l) ?_ rfl g a
  simp only [State.begun]
  split
  · rw [List.map_map]
    refine List.map_congr_left fun d _ => ?_
    simp only [Function.comp]
    split <;> rfl
  · rfl

theorem launchesStart_holds : launchesStart := by
  intro s l hl
  refine ⟨fun hmay => ?waits, fun hmay => ?starts⟩
  case waits =>
    show execLaunchStart s = _
    simp [execLaunchStart, hl, hmay]
  case starts =>
    obtain ⟨code, hrefetch, hcode⟩ := s.refetch_eq l
    have hstarting : s.starting l = { l with code := code, state := .running, handlerCode := s.handlerCodeOf l.ctx } := by
      rw [State.starting, hrefetch]
    have hsame : ({ s.starting l with code := l.code, state := l.state, handlerCode := l.handlerCode } : Launch) = l := by rw [hstarting]
    have hread : ∀ bs, s.ctxRead l.ctx l.codeVa (8 * l.code.length) = some bs → (s.starting l).code = wordsOf bs := by rwa [hstarting]
    have hexec := execLaunchStart_goes hl hmay
    cases hordered : l.ordered with
    | true =>
      rw [hordered, if_pos rfl] at hexec
      exact ⟨s.begun l, s.starting l, hexec, rfl, hsame, rfl, rfl, hread, rfl, fun d die hdie => s.begun_dies l hdie, fun _ => rfl,
        fun h => absurd h (by simp), rfl, rfl, rfl⟩
    | false =>
      rw [hordered, if_neg (by simp)] at hexec
      rw [State.handShares_eq, State.begun_divides] at hexec
      set ds := s.dividedShares ((l.teamCount + l.cts - 1) / l.cts) l.classA
      obtain ⟨honly, hclusters⟩ := State.handEach_clusters s.subject ds (s.begun l)
      set u := ds.foldl (fun s' x => s'.handShare s.subject x) (s.begun l)
      refine ⟨u, s.starting l, hexec, (congrArg State.launches honly :), hsame, rfl, rfl, hread, (congrArg State.l1 honly :), fun d die hdie => ?dies,
        fun h => absurd h (by simp), fun _ => ⟨?count, fun c k k' hk hk' => ?shares⟩, (congrArg State.teams honly :), (congrArg State.mem honly :),
        (congrArg State.ops honly :)⟩
      case dies =>
        have hdies : u.dies = (s.begun l).dies := (congrArg State.dies honly :)
        rw [hdies, s.begun_dies l hdie]
      case count => exact State.handEach_length s.subject ds (s.begun l)
      case shares =>
        obtain rfl : { k with shares := k.shares ++ sharesFor s.subject c ds } = k' := by
          have hat := hclusters c
          rw [show (s.begun l).clusters = s.clusters from rfl, hk, hk'] at hat
          exact (Option.some.inj hat).symm
        exact ⟨rfl, _, rfl, fun sh => mem_sharesFor⟩

/-! ### Each index once (R304) -/

section
variable (s : State) (a : Bool)

/-- How many clusters of the first `d` dies serve a class. -/
def State.servedBefore (d : Nat) : Nat := ((List.range d).map fun e => (s.dieClusters e a).length).sum

theorem State.servedBefore_succ (d : Nat) : s.servedBefore a (d + 1) = s.servedBefore a d + (s.dieClusters d a).length := by
  simp [State.servedBefore, List.range_succ]

theorem State.servedBefore_mono : Monotone (s.servedBefore a) :=
  monotone_nat_of_le_succ fun d => by rw [State.servedBefore_succ]; omega

/-- Where the indices of a die begin, and where those of its `j`-th cluster do (R304). -/
def State.dieCut (g d : Nat) : Nat := s.servedBefore a d * g / s.servedBefore a s.dies.length
def State.shareCut (g d j : Nat) : Nat := s.dieCut a g d + j * (s.dieCut a g (d + 1) - s.dieCut a g d) / (s.dieClusters d a).length

theorem State.dieCut_mono (g : Nat) : Monotone (s.dieCut a g) := fun _ _ h =>
  Nat.div_le_div_right (Nat.mul_le_mul_right g (s.servedBefore_mono a h))

theorem State.shareCut_mono (g d : Nat) : Monotone (s.shareCut a g d) := fun _ _ h =>
  Nat.add_le_add_left (Nat.div_le_div_right (Nat.mul_le_mul_right _ h)) _

theorem State.dieCut_zero (g : Nat) : s.dieCut a g 0 = 0 := by simp [State.dieCut, State.servedBefore]

theorem State.dieCut_le (g : Nat) {d : Nat} (hd : d ≤ s.dies.length) : s.dieCut a g d ≤ g := by
  refine Nat.div_le_of_le_mul ?_
  exact Nat.mul_le_mul_right g (s.servedBefore_mono a hd)

theorem State.shareCut_zero (g d : Nat) : s.shareCut a g d 0 = s.dieCut a g d := by simp [State.shareCut]

/-- The last cluster of a die ends where the die does. -/
theorem State.shareCut_last (g d : Nat) (hserved : (s.dieClusters d a).length ≠ 0) :
    s.shareCut a g d (s.dieClusters d a).length = s.dieCut a g (d + 1) := by
  have hle : s.dieCut a g d ≤ s.dieCut a g (d + 1) := s.dieCut_mono a g (Nat.le_succ d)
  rw [State.shareCut, Nat.mul_div_cancel_left _ (by omega)]
  omega

/-- A cluster's indices are of its die. -/
theorem State.shareCut_within (g d : Nat) {j : Nat} (hj : j < (s.dieClusters d a).length) :
    s.dieCut a g d ≤ s.shareCut a g d j ∧ s.shareCut a g d (j + 1) ≤ s.dieCut a g (d + 1) := by
  rw [← s.shareCut_zero a g d, ← s.shareCut_last a g d (by omega)]
  exact ⟨s.shareCut_mono a g d (Nat.zero_le j), s.shareCut_mono a g d hj⟩

theorem State.mem_dieClusters {d c : Nat} : c ∈ s.dieClusters d a ↔ c / 6 = d ∧ s.clusterServes c a = true := by
  simp only [State.dieClusters, List.mem_filter, List.mem_map, List.mem_range]
  refine and_congr_left fun _ => ⟨?_, fun h => ⟨c % 6, by omega, by omega⟩⟩
  rintro ⟨i, hi, rfl⟩
  omega

/-- With a cluster that serves the class, the dies take all of the indices. -/
theorem State.dieCut_all (g : Nat) {c : Nat} (hc : c < 6 * s.dies.length) (hserves : s.clusterServes c a = true) :
    s.dieCut a g s.dies.length = g := by
  have hmem : c ∈ s.dieClusters (c / 6) a := (s.mem_dieClusters a).mpr ⟨rfl, hserves⟩
  have hpos : 0 < s.servedBefore a s.dies.length := by
    have hlater := s.servedBefore_mono a (show c / 6 + 1 ≤ s.dies.length by omega)
    rw [State.servedBefore_succ] at hlater
    have := List.length_pos_of_mem hmem
    omega
  exact Nat.mul_div_cancel_left g hpos

theorem State.mem_dividedShares {g : Nat} {x : Nat × Nat × Nat} : x ∈ s.dividedShares g a ↔ ∃ d j c, d < s.dies.length ∧
    (s.dieClusters d a)[j]? = some c ∧ x = (c, s.shareCut a g d j, s.shareCut a g d (j + 1)) := by
  have hbefore {d : Nat} (hd : d ≤ s.dies.length) :
      ((((List.range s.dies.length).map fun d => s.dieClusters d a).take d).map List.length).sum = s.servedBefore a d := by
    rw [← List.map_take, List.take_range, Nat.min_eq_left hd, List.map_map]
    rfl
  have htotal : (((List.range s.dies.length).map fun d => s.dieClusters d a).map List.length).sum = s.servedBefore a s.dies.length := by
    rw [List.map_map]
    rfl
  have hat {d : Nat} (hd : d < s.dies.length) : ((List.range s.dies.length).map fun d => s.dieClusters d a).getD d [] = s.dieClusters d a := by
    simp [List.getD_eq_getElem?_getD, hd]
  -- the row that a die contributes, by its cuts
  have hrow {d : Nat} (hd : d < s.dies.length) (j : Nat) :
      s.servedBefore a d * g / s.servedBefore a s.dies.length +
        j * ((s.servedBefore a d + (s.dieClusters d a).length) * g / s.servedBefore a s.dies.length -
          s.servedBefore a d * g / s.servedBefore a s.dies.length) / (s.dieClusters d a).length = s.shareCut a g d j := by
    rw [State.shareCut, State.dieCut, State.dieCut, State.servedBefore_succ]
  simp only [State.dividedShares, List.mem_flatMap, List.mem_range, List.length_map, List.length_range, List.mem_mapIdx, htotal]
  constructor
  · rintro ⟨d, hd, j, hj, rfl⟩
    simp only [hat hd] at hj
    refine ⟨d, j, (s.dieClusters d a)[j], hd, List.getElem?_eq_getElem hj, ?_⟩
    simp only [hat hd, hbefore hd.le, hrow hd]
  · rintro ⟨d, j, c, hd, hc, rfl⟩
    obtain ⟨hj, rfl⟩ := List.getElem?_eq_some_iff.mp hc
    refine ⟨d, hd, j, by rwa [hat hd], ?_⟩
    simp only [hat hd, hbefore hd.le, hrow hd]

end

/-- An index between the first and the last of rising cuts lies between two that follow one another. -/
theorem exists_cut {f : Nat → Nat} {n i : Nat} (hfirst : f 0 ≤ i) (hlast : i < f n) : ∃ j, j < n ∧ f j ≤ i ∧ i < f (j + 1) := by
  induction n with
  | zero => omega
  | succ n ih =>
    by_cases h : i < f n
    · obtain ⟨j, hj, hcut⟩ := ih h
      exact ⟨j, by omega, hcut⟩
    · exact ⟨n, by omega, by omega, hlast⟩

/-- And between no others. -/
theorem cut_unique {f : Nat → Nat} (hf : Monotone f) {i j k : Nat} (hj : f j ≤ i ∧ i < f (j + 1)) (hk : f k ≤ i ∧ i < f (k + 1)) : j = k := by
  by_contra hne
  rcases Nat.lt_or_gt_of_ne hne with h | h
  · have := hf (show j + 1 ≤ k by omega)
    omega
  · have := hf (show k + 1 ≤ j by omega)
    omega

/-- Two parts of an even cut differ by no more than one. -/
theorem evenCut_bounds (m n j : Nat) : j * m / n + m / n ≤ (j + 1) * m / n ∧ (j + 1) * m / n ≤ j * m / n + m / n + 1 := by
  rw [Nat.add_mul, Nat.one_mul]
  refine ⟨Nat.div_add_div_le_add_div .., ?_⟩
  obtain rfl | hn := Nat.eq_zero_or_pos n
  · simp
  · rw [Nat.add_div hn]
    split <;> omega

theorem sharesDivide_holds : sharesDivide := by
  intro s g a hclusters ds
  refine ⟨fun x hx => ?bounded, fun ⟨c, hc, hserves⟩ i hi => ?covered, fun x hx y hy hdie => ?even⟩
  case bounded =>
    obtain ⟨d, j, c, hd, hc, rfl⟩ := (s.mem_dividedShares a).mp hx
    obtain ⟨hj, -⟩ := List.getElem?_eq_some_iff.mp hc
    refine ⟨s.shareCut_mono a g d (Nat.le_succ j), ?_, ((s.mem_dieClusters a).mp (List.mem_of_getElem? hc)).2⟩
    exact (s.shareCut_within a g d hj).2.trans (s.dieCut_le a g hd)
  case covered =>
    have hall := s.dieCut_all a g (hclusters ▸ hc) hserves
    obtain ⟨d, hd, hdie⟩ := exists_cut (f := s.dieCut a g) (n := s.dies.length) (i := i) (by rw [State.dieCut_zero]; omega) (by omega)
    have hserved : (s.dieClusters d a).length ≠ 0 := fun hnone => by
      have hsame : s.dieCut a g (d + 1) = s.dieCut a g d := by rw [State.dieCut, State.servedBefore_succ, hnone]; rfl
      omega
    obtain ⟨j, hj, hcut⟩ := exists_cut (f := s.shareCut a g d) (n := (s.dieClusters d a).length) (i := i)
      (by rw [State.shareCut_zero]; exact hdie.1) (by rw [State.shareCut_last _ _ _ _ hserved]; exact hdie.2)
    refine ⟨_, (s.mem_dividedShares a).mpr ⟨d, j, _, hd, List.getElem?_eq_getElem hj, rfl⟩, hcut, fun y hy hfrom huntil => ?_⟩
    obtain ⟨d', k, c', -, hc', rfl⟩ := (s.mem_dividedShares a).mp hy
    obtain ⟨hk, hkc⟩ := List.getElem?_eq_some_iff.mp hc'
    obtain ⟨hlow, hhigh⟩ := s.shareCut_within a g d' hk
    obtain rfl : d = d' := cut_unique (s.dieCut_mono a g) hdie ⟨hlow.trans hfrom, huntil.trans_le hhigh⟩
    obtain rfl : j = k := cut_unique (s.shareCut_mono a g d) hcut ⟨hfrom, huntil⟩
    rw [hkc]
  case even =>
    obtain ⟨d, j, c, -, hc, rfl⟩ := (s.mem_dividedShares a).mp hx
    obtain ⟨d', k, c', -, hc', rfl⟩ := (s.mem_dividedShares a).mp hy
    have hd := ((s.mem_dieClusters a).mp (List.mem_of_getElem? hc)).1
    have hd' := ((s.mem_dieClusters a).mp (List.mem_of_getElem? hc')).1
    obtain rfl : d = d' := by rw [← hd, ← hd']; exact hdie
    have hj := evenCut_bounds (s.dieCut a g (d + 1) - s.dieCut a g d) (s.dieClusters d a).length j
    have hk := evenCut_bounds (s.dieCut a g (d + 1) - s.dieCut a g d) (s.dieClusters d a).length k
    simp only [State.shareCut]
    omega

/-- Settles O50: an accepted record becomes a launch with its handles entered, it depends on earlier writers and readers, and its
start divides its cluster-teams, each index once. -/
theorem launchesRun : Obligations.LaunchesRun := ⟨launchesParse_holds, dependencesHold_holds, launchesStart_holds, sharesDivide_holds⟩

end Sys2Proof.Machine
end

section
/-!
Words of class X that change their group's gang register, or the ranges and tiles of their team (R222, R223, R231, R232, R236, R237, R246).
-/
namespace Sys2Proof.Machine

/-! ### Elements of a tile -/

theorem tileElem_tilePut {t : Team} {m : Nat} (hm : m < t.tiles.length) (row col : Nat) (v : Reg32) (k r c : Nat) :
    tileElem (tilePut t m row col v) k r c = if k = m ∧ 16 * r + c = 16 * row + col then v else tileElem t k r c := by
  simp only [tileElem, tilePut, getElem?_modAt]
  by_cases hk : k = m
  · subst hk
    rw [if_pos rfl, List.getElem?_eq_getElem hm, Option.map_some]
    by_cases hkey : 16 * r + c = 16 * row + col
    · rw [if_pos ⟨rfl, hkey⟩, hkey]
      exact Cells.get_put_same ..
    · rw [if_neg fun h => hkey h.2]
      exact Cells.get_put_other _ _ hkey
  · rw [if_neg (Ne.symm hk), if_neg fun h => hk h.1]

/-- Elements of one tile written, by their keys. -/
def tileRun (m : Nat) (val : Nat → Reg32) (keys : List Nat) (t : Team) : Team :=
  keys.foldl (fun t i => tilePut t m (i / 16) (i % 16) (val i)) t

theorem tileFill_eq (t : Team) (m : Nat) (f : Nat → Nat → Reg32) :
    tileFill t m f = tileRun m (fun i => f (i / 16) (i % 16)) (List.range 256) t := rfl

theorem tileElem_tileRun {m : Nat} (val : Nat → Reg32) (keys : List Nat) {t : Team} (hm : m < t.tiles.length) (k r c : Nat) :
    tileElem (tileRun m val keys t) k r c = if k = m ∧ 16 * r + c ∈ keys then val (16 * r + c) else tileElem t k r c := by
  induction keys generalizing t with
  | nil => simp [tileRun]
  | cons i keys ih =>
    have hlength : m < (tilePut t m (i / 16) (i % 16) (val i)).tiles.length := (length_modAt ..).symm ▸ hm
    refine (ih hlength).trans ?_
    simp only [tileElem_tilePut hm, Nat.div_add_mod, List.mem_cons]
    by_cases hhead : 16 * r + c = i
    · subst hhead
      by_cases hk : k = m <;> simp [hk]
    · simp [hhead]

/-- Two teams that differ at most in the elements of tiles. -/
def Team.elemsOnly (t u : Team) : Prop :=
  ({ u with tiles := t.tiles } : Team) = t ∧ u.tiles.map Tile.reserved = t.tiles.map Tile.reserved

theorem Team.elemsOnly_modAt (t : Team) (m : Nat) {f : Tile → Tile} (hf : ∀ x, (f x).reserved = x.reserved) :
    t.elemsOnly { t with tiles := modAt t.tiles m f } := ⟨rfl, map_modAt t.tiles m f Tile.reserved hf⟩

theorem Team.elemsOnly_tileRun (m : Nat) (val : Nat → Reg32) (keys : List Nat) (t : Team) : t.elemsOnly (tileRun m val keys t) := by
  induction keys generalizing t with
  | nil => exact ⟨rfl, rfl⟩
  | cons i keys ih =>
    obtain ⟨hrest, hreserved⟩ := ih (tilePut t m (i / 16) (i % 16) (val i))
    refine ⟨?_, hreserved.trans (map_modAt _ _ _ _ fun _ => rfl)⟩
    exact (congrArg (fun u : Team => ({ u with tiles := t.tiles } : Team)) hrest :)

theorem tileRun_groups (m : Nat) (val : Nat → Reg32) (keys : List Nat) (t : Team) : (tileRun m val keys t).groups = t.groups :=
  (congrArg Team.groups (Team.elemsOnly_tileRun m val keys t).1 :)

/-! ### The issuing team changed -/

section
variable {s : State} {g : Group} {tm : Team} (htm : s.teams[s.viewTeam s.issuer]? = some tm)
include htm

theorem State.teamOnly_of_modTeam {u : State} {f : Team → Team} (h : u.bare = (s.modTeam (s.viewTeam s.issuer) f).bare) :
    s.teamOnly u (f tm) := h.trans (State.bare_modTeam_set htm f)

theorem State.ownTeam_eq : s.ownTeam = some tm := htm

/-- A word of fixed latency that changes its team apart from its groups. -/
theorem State.runs_modTeam {i : Instr} {words : Nat} {f : Team → Team} (hu : s.unitOf s.issuer = some g)
    (hexec : Sys2Proof.Machine.exec i s = .next ((s.modTeam (s.viewTeam s.issuer) f).retire words)) (hf : ∀ a, (f a).groups = a.groups) :
    s.runs i (fun g' => g.still g') fun t => t.ops = s.ops ∧ s.teamOnly t (f tm) := by
  have hunits := s.unitOf_modTeam (t := s.viewTeam s.issuer) hf
  refine ⟨_, advance words g, hexec, State.unitOf_retire words ((hunits _).trans hu),
    fun j hj => (State.unitOf_retire_other (s := s.modTeam (s.viewTeam s.issuer) f) words hj).trans (hunits j),
    Group.still_of_sameRegs (sameRegs_advance words g), ?_, ?_⟩
  · exact State.retire_ops ..
  · exact State.teamOnly_of_modTeam htm (State.bare_retire ..)

/-- A class X word of fixed latency that neither fails nor waits. -/
theorem tileFixed_runs {i : Instr} {w : TileW} {words : Nat} {fail : Team → Option (Nat × Nat)} {wait : State → Bool} {effect : Team → Team}
    (hu : s.unitOf s.issuer = some g) (hfree : flagFree g w.head) (hexec : Sys2Proof.Machine.exec i s = tileFixed w words fail wait effect s g)
    (hfail : fail tm = none) (hwait : wait s = false) (hgroups : ∀ a, (effect a).groups = a.groups)
    {tm' : Team} (htm' : effect tm = tm') :
    s.runs i (fun g' => g.still g') fun t => t.ops = s.ops ∧ s.teamOnly t tm' := by
  subst htm'
  refine State.runs_modTeam htm hu (hexec.trans ?_) (words := words) hgroups
  simp only [tileFixed, State.ownTeam_eq htm, hfail, hwait, Bool.false_eq_true, if_false]
  exact s.fixed_of_free _ hfree

end

/-- A team changed in tile elements alone. -/
theorem State.tilesTo_of_teamOnly {s t : State} {tm tm' : Team} {elem : Nat → Nat → Nat → Reg32} (hteam : s.teamOnly t tm')
    (helems : tm.elemsOnly tm') (helem : ∀ m row col, row < 16 → col < 16 → tileElem tm' m row col = elem m row col) :
    s.tilesTo t tm elem := ⟨tm', hteam, congrArg Team.bare helems.1, helems.2, helem⟩

/-! ### Ranges (R236, R237) -/

theorem rangesReserve_holds : rangesReserve := by
  intro w c s g tm htm hfree hname
  refine ⟨fun hissues hroom hbad hfits => ?reserve, fun hissues hheld => ?release⟩
  case reserve =>
    have hexec : Sys2Proof.Machine.exec (.obres w c) s = obresGo w c s g := hissues.run (obresGo w c s)
    refine State.runs_modTeam htm hissues.1 (f := fun t =>
      { t with ranges := ⟨w.ob.toNat, blockValue g c⟩ :: t.ranges.filter fun r => r.name ≠ w.ob.toNat }) (words := 5)
      (hexec.trans ?_) fun _ => rfl
    have hfull : (!(tm.ranges.any fun r => r.name = w.ob.toNat) && decide (32 ≤ s.coreRecords tm.core)) = false := by
      rcases hroom with hheld | hroom
      · rw [hheld]; rfl
      · rw [decide_eq_false (Nat.not_le.mpr hroom), Bool.and_false]
    simp only [obresGo, State.ownTeam_eq htm, hname, hfull, hbad, hfits, Bool.or_self, Bool.false_eq_true, if_false]
    exact s.fixed_of_free _ hfree
  case release =>
    have hany : (tm.ranges.any fun r => r.name = w.ob.toNat) = true := by simpa using hheld
    have hexec : execObrel w s = obrelGo w s g := hissues.run (obrelGo w s)
    rw [obrelGo] at hexec
    refine tileFixed_runs (i := .obrel w) htm hissues.1 hfree hexec ?_ ?_ (fun _ => rfl) rfl
    · exact if_pos hany
    · exact hname

/-! ### Tiles (R246) -/

/-- Tiles of a team replaced by empty ones. -/
def Team.resetTiles (reserved : Bool) (ms : List Nat) (t : Team) : Team :=
  ms.foldl (fun t m => { t with tiles := modAt t.tiles m fun _ => ⟨reserved, []⟩ }) t

theorem Team.resetTiles_eq (reserved : Bool) (ms : List Nat) (t : Team) :
    t.resetTiles reserved ms = { t with tiles := t.tiles.mapIdx fun m x => if m ∈ ms then ⟨reserved, []⟩ else x } := by
  induction ms generalizing t with
  | nil => simp [Team.resetTiles, List.mapIdx_eq_zipIdx_map]
  | cons k ms ih =>
    refine (ih _).trans ?_
    congr 1
    refine List.ext_getElem? fun m => ?_
    simp only [List.getElem?_mapIdx, getElem?_modAt, List.mem_cons]
    cases t.tiles[m]? <;> grind

theorem Team.resetTiles_groups (reserved : Bool) (ms : List Nat) (t : Team) : (t.resetTiles reserved ms).groups = t.groups := by
  rw [Team.resetTiles_eq]

/-- The subfield of an X-tile word that issues is one that its form defines (R229). -/
theorem tileForm_sub {f : TileForm} {w : TileW} {reads : List (Spec × Nat)} {bound : Group → Nat → Bool} {g : Group}
    (h : firstFault g w.head (tileFormCheck f w reads bound g) = none) : f.sub w.sub.toNat = true := by
  have hdetails : tileFormDetails f w g reads = [] := (firstFault_none h).1
  simp only [tileFormDetails, List.append_eq_nil_iff] at hdetails
  by_contra hsub
  simp [hsub] at hdetails

section
variable {w : TileW} {tm : Team}

theorem mem_spanOf (hsub : w.sub.toNat < 64) (m : Nat) : m ∈ spanOf w ↔ (w.mt.toNat ≤ m && m ≤ w.mt.toNat + w.sub.toNat) = true := by
  simp only [spanOf, List.mem_map, List.mem_range, Bool.and_eq_true, decide_eq_true_eq]
  constructor
  · rintro ⟨i, hi, rfl⟩
    omega
  · exact fun hm => ⟨m - w.mt.toNat, by omega⟩

theorem Team.resetTiles_span (hsub : w.sub.toNat < 64) (reserved : Bool) : tm.resetTiles reserved (spanOf w) =
    { tm with tiles := tm.tiles.mapIdx fun m x => if w.mt.toNat ≤ m && m ≤ w.mt.toNat + w.sub.toNat then ⟨reserved, []⟩ else x } := by
  simp only [Team.resetTiles_eq, mem_spanOf hsub]

theorem notReserved_false {ms : List Nat} : notReserved tm ms = false ↔ ∀ m ∈ ms, ∃ x, tm.tiles[m]? = some x ∧ x.reserved = true := by
  rw [notReserved, List.any_eq_false]
  refine forall₂_congr fun m _ => ?_
  cases tm.tiles[m]? <;> simp

theorem notReserved_passes {ms : List Nat} {v : Nat × Nat} (h : ∀ m ∈ ms, ∃ x, tm.tiles[m]? = some x ∧ x.reserved = true) :
    (if notReserved tm ms then some v else none) = none :=
  if_neg (by rw [notReserved_false.mpr h]; exact Bool.false_ne_true)

/-- No tile of a span is beyond the team's or reserved already. -/
theorem span_takeable {ms : List Nat} (h : ∀ m ∈ ms, ∃ x, tm.tiles[m]? = some x ∧ x.reserved = false) :
    (ms.any fun m => tm.tiles.length ≤ m) = false ∧ (ms.any fun m => ((tm.tiles[m]?).map Tile.reserved).getD false) = false := by
  simp only [List.any_eq_false]
  refine ⟨fun m hm => ?_, fun m hm => ?_⟩ <;> obtain ⟨x, hx, hfree⟩ := h m hm
  · simpa using (List.getElem?_eq_some_iff.mp hx).1
  · simp [hx, hfree]

end

theorem tileElem_emptied (tm : Team) (k m row col : Nat) :
    tileElem { tm with tiles := modAt tm.tiles k fun x => { x with elems := [] } } m row col = if m = k then 0 else tileElem tm m row col := by
  simp only [tileElem, getElem?_modAt]
  by_cases hm : m = k
  · rw [if_pos hm.symm, if_pos hm]
    cases tm.tiles[m]? <;> rfl
  · rw [if_neg (Ne.symm hm), if_neg hm]

theorem tilesReserve_holds : tilesReserve := by
  intro w s g tm htm hfree mine tiles
  have hspan (hissues : s.issues w.head (tileFormCheck (formSpan w) w [] noBound) g) : w.sub.toNat < 64 := by
    simpa [formSpan] using tileForm_sub hissues.2.2
  refine ⟨fun hissues hfresh => ?take, fun hissues hheld hidle => ?free, fun hissues hheld hidle => ?clear⟩
  case take =>
    have hsub := hspan hissues
    obtain ⟨hwithin, hunheld⟩ := span_takeable fun m hm => hfresh m ((mem_spanOf hsub m).mp hm)
    have hexec : execTres w s = _ := hissues.run _
    refine tileFixed_runs (i := .tres w) htm hissues.1 hfree hexec ?_ ?_ (Team.resetTiles_groups true (spanOf w))
      (Team.resetTiles_span hsub true)
    · simp only [hwithin, hunheld, Bool.false_eq_true, if_false]
    · rfl
  case free =>
    have hsub := hspan hissues
    have hexec : execTrel w s = _ := hissues.run _
    refine tileFixed_runs (i := .trel w) htm hissues.1 hfree hexec ?_ ?_ (Team.resetTiles_groups false (spanOf w))
      (Team.resetTiles_span hsub false)
    · exact notReserved_passes fun m hm => hheld m ((mem_spanOf hsub m).mp hm)
    · exact hidle
  case clear =>
    have hruns : s.runs (.tzero w) (fun g' => g.still g') fun t => t.ops = s.ops ∧
        s.teamOnly t { tm with tiles := modAt tm.tiles w.mt.toNat fun x => { x with elems := [] } } := by
      have hexec : execTzero w s = _ := hissues.run _
      refine tileFixed_runs (i := .tzero w) htm hissues.1 hfree hexec ?_ ?_ (fun _ => rfl) rfl
      · exact notReserved_passes (by simpa using hheld)
      · exact hidle
    refine State.runs_weaken hruns (fun _ h => h) fun t ⟨hops, hteam⟩ => ⟨hops, State.tilesTo_of_teamOnly hteam ?_ fun m row col _ _ => ?_⟩
    · exact Team.elemsOnly_modAt tm _ fun _ => rfl
    · exact tileElem_emptied tm w.mt.toNat m row col

/-! ### Gangs (R231, R232) -/

theorem eraseDups_of_nodup {α : Type} [DecidableEq α] {l : List α} (h : l.Nodup) : l.eraseDups = l := by
  induction l with
  | nil => rfl
  | cons a l ih =>
    obtain ⟨ha, hl⟩ := List.nodup_cons.mp h
    have hfilter : (l.filter fun b => !b == a) = l := List.filter_eq_self.mpr fun b hb => by
      simpa using fun hba : b = a => ha (hba ▸ hb)
    rw [List.eraseDups_cons, hfilter, ih hl]

theorem field_entry (ka q : Nat) : field ka (5 * q) 5 = ka / 32 ^ q % 32 := by
  rw [field, Nat.pow_mul]
  rfl

theorem nodup_map_range {n : Nat} {f : Nat → Nat} (h : ∀ p q, p < q → q < n → f p ≠ f q) : ((List.range n).map f).Nodup :=
  List.pairwise_map.mpr (List.pairwise_lt_range.imp_of_mem fun _ hq hpq => h _ _ hpq (List.mem_range.mp hq))

section
variable {tm : Team} {gi n ka : Nat} (hlow : 2 ≤ n) (hhigh : n ≤ 6) (hka : ka < 32 ^ n)
  (hparts : ∀ p q, p < q → q < n → ka / 32 ^ p % 32 % 8 ≠ ka / 32 ^ q % 32 % 8)
  {pos : Nat} (hpos : pos < n) (hself : ka / 32 ^ pos % 32 = gi)
include hlow hhigh hka hparts hpos hself

/-- A well-formed gang list of matrix groups that holds the issuer raises no detail (R230). -/
theorem gangDetails_none
    (hmembers : ∀ p, p < n → ∃ x, tm.groups[ka / 32 ^ p % 32]? = some x ∧ x.role = .matrix ∧ x.cohort = BitVec.allOnes 32) :
    gangDetails tm gi n ka = [] := by
  have hcount : (n = 1 || n = 7 || ka / 2 ^ (5 * n) ≠ 0 : Bool) = false := by
    have hfits : ka / 2 ^ (5 * n) = 0 := Nat.div_eq_of_lt (by rwa [Nat.pow_mul])
    simp only [hfits, Bool.or_eq_false_iff, decide_eq_false_iff_not]
    omega
  have hself' : ((List.range n).map fun q => ka / 32 ^ q % 32).contains gi = true := by
    simp only [List.contains_iff_mem, List.mem_map, List.mem_range]
    exact ⟨pos, hpos, hself⟩
  have hdistinct : (((List.range n).map fun q => ka / 32 ^ q % 32).map (· % 8)).eraseDups.length = n := by
    have hnodup : (((List.range n).map fun q => ka / 32 ^ q % 32).map (· % 8)).Nodup := by
      rw [List.map_map]
      exact nodup_map_range hparts
    rw [eraseDups_of_nodup hnodup, List.length_map, List.length_map, List.length_range]
  have hall {f : Nat → Bool} (hf : ∀ e x, tm.groups[e]? = some x → x.role = .matrix → x.cohort = BitVec.allOnes 32 → f e = true) :
      ((List.range n).map fun q => ka / 32 ^ q % 32).all f = true := by
    rw [List.all_map, List.all_eq_true]
    intro p hp
    obtain ⟨x, hx, hrole, hcohort⟩ := hmembers p (List.mem_range.mp hp)
    exact hf _ x hx hrole hcohort
  simp only [gangDetails, field_entry, if_neg (show n ≠ 0 by omega), hcount, hself', hdistinct, if_true, Bool.false_eq_true, if_false]
  rw [if_pos (hall fun e x hx hrole _ => by simp only [hx, hrole, decide_true]),
    if_pos (hall fun e x hx _ hcohort => by simp only [hx, hcohort, decide_true])]
  rfl

/-- The gang register holds the list, its length and the issuer's place (R231). -/
theorem gangWord_eq : gangWord gi n ka = BitVec.ofNat 64 (n + 16 * pos + 256 * ka) := by
  have hplace : ((List.range n).find? fun q => ka / 32 ^ q % 32 = gi) = some pos := by
    rw [List.find?_range_eq_some]
    refine ⟨by simpa using hself, List.mem_range.mpr hpos, fun q hq => ?_⟩
    have hne := hparts q pos hq hpos
    simpa [← hself] using fun h : ka / 32 ^ q % 32 = _ => hne (congrArg (· % 8) h)
  have hfits : ka % 2 ^ (5 * n) = ka := Nat.mod_eq_of_lt (by rwa [Nat.pow_mul])
  simp only [gangWord, field_entry, if_neg (show n ≠ 0 by omega), hplace, Option.getD_some, hfits]

end

/-- `GANG` that neither waits nor fails writes its group's gang register. -/
theorem gang_runs {w : TileW} {s : State} {g : Group} {t gi : Nat} {tm : Team} (hi : s.issuer = .group t gi) (htm : s.teams[t]? = some tm)
    (hissues : s.issues w.head (tileFormCheck (formGang w) w [(w.v, 1)] noBound) g) (hfree : flagFree g w.head)
    (hidle : s.outstanding s.issuer classX = false) (hriddles : ∀ r ∈ tm.riddles, gi ∉ r.members) {n ka : Nat} (hn : field w.sub.toNat 0 3 = n)
    (hka : (readOpd g 0 w.v 0).toNat = ka) (hdetails : gangDetails tm gi n (if n = 0 then 0 else ka) = []) {word : BitVec 64}
    (hword : gangWord gi n ka = word) :
    s.runs (.gang w) (fun g' => g'.gang = word ∧ g.still { g' with gang := g.gang }) fun u => s.unmoved u [] := by
  have hexec : Sys2Proof.Machine.exec (.gang w) s = gangGo w s g := hissues.run (gangGo w s)
  have htm' : s.ownTeam = some tm := by rw [State.ownTeam, hi]; exact htm
  have hnone : (tm.riddles.any fun r => r.members.contains gi) = false := by simpa using hriddles
  have hleast : leastOf ([] : List Nat) = none := rfl
  have hgroup : issuerGroup s.issuer = gi := by rw [hi]; rfl
  have hsame : sameRegs { g with gang := word } (advance 1 { g with gang := word }) := sameRegs_advance 1 _
  refine State.runs_of_retire (v := s.modUnit s.issuer fun g => { g with gang := word }) (hexec.trans ?_) (State.modUnit_issuer ..)
    (State.unitOf_modUnit_same _ hissues.1) (fun j hj => State.unitOf_modUnit_other _ hj) (State.bare_modUnit ..)
    ((State.modUnit_ops ..).trans (State.cancelWrites_nil ..).symm) ⟨?_, ?_⟩
  · simp only [gangGo, htm', hidle, hgroup, hn, hka, hdetails, hnone, List.append_nil, hleast, hword, Bool.false_eq_true, if_false]
    exact s.fixed_of_free _ hfree
  · obtain ⟨-, -, -, -, hgang, -⟩ := hsame
    exact hgang
  · obtain ⟨hk, hlen, hthreads, hmstat, -, hrest⟩ := hsame
    exact Group.still_of_sameRegs ⟨hk, hlen, hthreads, hmstat, rfl, hrest⟩

theorem gangsForm_holds : gangsForm := by
  intro w s g t gi tm hi htm hissues hfree hidle hriddles n ka entry
  have hsub : n < 8 := by simpa [formGang] using tileForm_sub hissues.2.2
  have hn : field w.sub.toNat 0 3 = n := (field_zero ..).trans (Nat.mod_eq_of_lt hsub)
  refine ⟨fun hzero => ?_, fun hlow hhigh hka hparts hmembers pos hpos hself => ?_⟩
  · exact gang_runs hi htm hissues hfree hidle hriddles (hn.trans hzero) rfl rfl rfl
  · refine gang_runs hi htm hissues hfree hidle hriddles hn rfl ?_ (gangWord_eq hlow hhigh hka hparts hpos hself)
    rw [if_neg (show n ≠ 0 by omega)]
    exact gangDetails_none hlow hhigh hka hparts hpos hself hmembers

/-- Settles O17: GANG writes the register of its own group; the range and tile words go through a change of the issuing team alone. -/
theorem gangsRangesTilesReserve : Obligations.GangsRangesTilesReserve := ⟨gangsForm_holds, rangesReserve_holds, tilesReserve_holds⟩

end Sys2Proof.Machine
end

section
/-!
Loads into operand-buffer ranges and into registers that start (R238, R239).
-/
namespace Sys2Proof.Machine

/-! ### The source of a load -/

theorem State.cacheTrans_l1 (s : State) (die ctx : Nat) (vas : List Nat) : (s.cacheTrans die ctx vas).l1 = s.l1 := by
  obtain ⟨ds, hds, -⟩ := State.cacheTrans_dies die ctx vas s
  rw [hds]

/-- The part once the translations of a load's source are in the TLB; a scratchpad source has none. -/
def State.sourced (s : State) (w : TileW) (a len : Nat) : State :=
  if isPad w then s else s.cacheTrans s.dieCtx.1 s.dieCtx.2 (pagesOf a len)

theorem State.sourced_frame (s : State) (w : TileW) (a len : Nat) :
    s.accessOnly (s.sourced w a len) ∧ (s.sourced w a len).reqs = s.reqs ∧ (s.sourced w a len).l1 = s.l1 := by
  unfold State.sourced
  split
  · exact ⟨s.accessOnly_refl, rfl, rfl⟩
  · exact ⟨s.accessOnly_cacheTrans .., s.cacheTrans_reqs .., s.cacheTrans_l1 ..⟩

/-- A word that enters translations of its source and launches its operation. -/
theorem State.begins_of_sourced {s : State} {i : Instr} {g : Group} {names : List RegName} {n : Nat} {k : OpKind} {w : TileW} {a len : Nat}
    (o : Op) {rel : Op → Prop} (hu : s.unitOf s.issuer = some g)
    (hexec : Sys2Proof.Machine.exec i s = .next (((s.sourced w a len).launchOp names o).retire 1)) (hflag : o.flag = some n)
    (hissuer : o.issuer = s.issuer) (hkind : o.kind = k) (hrel : rel o) :
    s.begins i g names n k fun o t => t.resting = s.resting ∧ t.reqs = s.reqs ∧ t.l1 = s.l1 ∧ rel o := by
  obtain ⟨haccess, hreqs, hl1⟩ := s.sourced_frame w a len
  refine State.begins_of_access o hu hexec haccess (State.accessOnly_refl _) hflag hissuer hkind fun hrest => ⟨hrest, ?_, ?_, hrel⟩
  · rw [State.retire_reqs, State.launchOp_reqs, hreqs]
  · rw [State.retire_l1, State.launchOp_l1, hl1]

/-- The translations that a load keeps for its operation (R312). -/
def State.sourceTrans (s : State) (w : TileW) (a len : Nat) : List TlbEntry :=
  if isPad w then [] else s.transFor s.dieCtx.1 s.dieCtx.2 (pagesOf a len)

section
variable {w : TileW} {s : State} {g : Group} {n a : Nat}

theorem padWait_none {len : Nat} (hpad : isPad w = true → s.padBusy a len = false) : (isPad w && s.padBusy a len) = false := by
  rw [Bool.and_eq_false_iff]
  cases hp : isPad w with
  | false => exact .inl rfl
  | true => exact .inr (hpad hp)

/-! ### OBLD -/

/-- The operation that `OBLD` starts. -/
def State.rangeLoadOp (s : State) (w : TileW) (n a dst len : Nat) : Op :=
  { Op.blank s.nextId s.issuer .obld (some n) with
    arrive := arriveOf w
    todo := bufMoves (isPad w) a dst len
    trans := s.sourceTrans w a len
    effect := .obLoad w.ob.toNat dst len }

theorem obldGo_starts {tm : Team} {r : ObRec} (htm : s.teams[s.viewTeam s.issuer]? = some tm) (hr : rangeOf tm w.ob.toNat = some r)
    (hn : selectedFlag g w.head.fs = some n) (hfree : flagFree g w.head) (ha : srcAddr g w = a) {kb off len : Nat}
    (hkb : (readOpd g 0 w.w 0).toNat = kb) (hoff : 32 * (kb % 4096) = off) (hlen : 32 * (kb / 4096 % 8192) = len)
    (hsome : len ≠ 0) (hmax : len ≤ 131072) (hfits : off + len ≤ r.len) (hpass : s.srcVerdict (isPad w) a len w = none)
    (hidle : s.obBusy (s.viewTeam s.issuer) (r.base + off) len = false) (hpad : isPad w = true → s.padBusy a len = false)
    (hacquire : s.acquiring s.issuer = false) :
    obldGo w s g = .next (((s.sourced w a len).launchOp [] (s.rangeLoadOp w n a (r.base + off) len)).retire 1) := by
  have hoff' : 32 * field kb 0 12 = off := (congrArg (32 * ·) (field_zero kb 12)).trans hoff
  have hlen' : 32 * field kb 12 13 = len := hlen
  have hbad : (decide (len = 0) || decide (131072 < len) || decide (r.len < off + len)) = false := by simp; omega
  have hblocked : flagBlocked g (some n) = false := hn ▸ hfree
  simp only [obldGo, State.ownTeam_eq htm, hkb, hoff', hlen', ha, hr, hbad, hpass, hblocked, hidle, padWait_none hpad, hacquire,
    Bool.or_self, Bool.false_eq_true, if_false, hn]
  rfl

theorem rangeLoadsStart_holds : rangeLoadsStart := by
  intro w s g n tm r htm hr hn hfree hissues kb off len a hsome hmax hfits hpass hidle hpad hacquire
  have hexec : Sys2Proof.Machine.exec (.obld w) s = obldGo w s g := hissues.run (obldGo w s)
  exact State.begins_of_sourced (s.rangeLoadOp w n a (r.base + off) len) hissues.1
    (hexec.trans (obldGo_starts htm hr hn hfree rfl rfl rfl rfl hsome hmax hfits hpass hidle hpad hacquire)) rfl rfl rfl ⟨rfl, rfl, rfl⟩

/-! ### OBLD.B -/

/-- The words that `OBLD.B` loads: address, register and lane. -/
def sliceDests (w : TileW) (g : Group) (a : Nat) : List (Nat × RegName × Nat) :=
  (lanesOf (guardMask g w.head)).flatMap fun l => (List.range 13).filterMap fun j =>
    (nthName g l w.w j).map fun r => (a + 128 * j + 4 * l, r, l)

/-- The operation that `OBLD.B` starts. -/
def State.sliceLoadOp (s : State) (w : TileW) (g : Group) (n a : Nat) : Op :=
  { Op.blank s.nextId s.issuer .obld (some n) with
    arrive := arriveOf w
    dests := (sliceDests w g a).map fun d => (d.2.1, some d.2.2)
    trans := s.sourceTrans w a 1664
    todo := (sliceDests w g a).map fun d => if isPad w then .padRead d.1 ⟨d.2.1, some d.2.2, 4, false, none⟩ else .word d.1 d.2.1 d.2.2 }

theorem obldBGo_starts (hn : selectedFlag g w.head.fs = some n) (hfree : flagFree g w.head) (hm : guardMask g w.head ≠ 0)
    (ha : srcAddr g w = a) (hpass : s.srcVerdict (isPad w) a 1664 w = none) (hpad : isPad w = true → s.padBusy a 1664 = false)
    (hacquire : s.acquiring s.issuer = false) :
    obldBGo w s g = .next (((s.sourced w a 1664).launchOp (runWrites g w.w 13) (s.sliceLoadOp w g n a)).retire 1) := by
  have hblocked : flagBlocked g (some n) = false := hn ▸ hfree
  simp only [obldBGo, if_neg (lanesOf_ne_nil hm), ha, hpass, hblocked, padWait_none hpad, hacquire, Bool.false_eq_true, if_false, hn]
  rfl

theorem sliceLoadsStart_holds : sliceLoadsStart := by
  intro w s g n tm htm hn hfree hm hissues a ds hpass hpad hacquire
  have hexec : Sys2Proof.Machine.exec (.obldB w) s = obldBGo w s g := hissues.run (obldBGo w s)
  exact State.begins_of_sourced (s.sliceLoadOp w g n a) hissues.1
    (hexec.trans (obldBGo_starts hn hfree hm rfl hpass hpad hacquire)) rfl rfl rfl ⟨rfl, rfl, rfl, rfl⟩

end

/-- Settles O18: both words launch one operation behind the translations of their source. -/
theorem rangeLoadsStartBoth : Obligations.RangeLoadsStart := ⟨rangeLoadsStart_holds, sliceLoadsStart_holds⟩

end Sys2Proof.Machine
end

section
/-!
Tile words of variable latency that start: element moves, scaling, and tile images (R247-R250).
-/
namespace Sys2Proof.Machine

/-! ### A word on one tile -/

section
variable {w : TileW} {s : State} {g : Group} {n : Nat} {tm : Team}

/-- A word on a tile of its team that neither fails nor waits starts its operation. -/
theorem tileOpGo_starts (htile : tileFree s tm w.mt.toNat) (hn : selectedFlag g w.head.fs = some n) (hfree : flagFree g w.head) {k : OpKind}
    {names : List RegName} {fail : Option (Nat × Nat × Nat)} {addr : Nat} {wait idle : Bool} {effect : State → State} {shape : Op → Op}
    (hfail : fail = none) (hwait : wait = false) (hidle : idle = false) : tileOpGo w k names fail addr wait idle effect shape s g =
      .next (((effect s).launchOp names (shape (Op.blank s.nextId s.issuer k (some n)))).retire 1) := by
  obtain ⟨htm, hheld, hbusy⟩ := htile
  have hreserved : notReserved tm [w.mt.toNat] = false := notReserved_false.mpr (by simpa using hheld)
  have hblocked : flagBlocked g (some n) = false := hn ▸ hfree
  simp only [tileOpGo, State.ownTeam_eq htm, hreserved, hfail, hblocked, hwait, hidle, hbusy, Bool.or_self, Bool.false_eq_true, if_false, hn]

/-- A word that changes its team apart from its groups and launches its operation. -/
theorem State.begins_of_modTeam {i : Instr} {names : List RegName} {k : OpKind} {f : Team → Team} (o : Op) {rel : Op → State → Prop}
    (hu : s.unitOf s.issuer = some g) (htm : s.teams[s.viewTeam s.issuer]? = some tm) (hf : ∀ a, (f a).groups = a.groups)
    (hexec : Sys2Proof.Machine.exec i s = .next (((s.modTeam (s.viewTeam s.issuer) f).launchOp names o).retire 1))
    (hflag : o.flag = some n) (hissuer : o.issuer = s.issuer) (hkind : o.kind = k) (hrel : ∀ t, s.teamOnly t (f tm) → rel o t) :
    s.begins i g names n k rel := by
  refine State.begins_of_launch o hu hexec (State.launchOp_issuer ..)
    (State.unitOf_launchOp_congr (u := s.modTeam (s.viewTeam s.issuer) f) hu rfl (s.unitOf_modTeam hf) names o) ?_ hflag hissuer hkind
    (hrel _ (State.teamOnly_of_modTeam htm ((State.bare_retire _ 1).trans (State.bare_launchOp ..))))
  rw [State.ops_launchOp, State.ops_launchOp]
  rfl

/-- A word that launches its operation and changes nothing else of the part. -/
theorem State.begins_of_launch_alone {i : Instr} {names : List RegName} {k : OpKind} (o : Op) {rel : Op → State → Prop}
    (hu : s.unitOf s.issuer = some g) (hexec : Sys2Proof.Machine.exec i s = .next ((s.launchOp names o).retire 1))
    (hflag : o.flag = some n) (hissuer : o.issuer = s.issuer) (hkind : o.kind = k) (hrel : ∀ t : State, t.bare = s.bare → rel o t) :
    s.begins i g names n k rel :=
  State.begins_of_launch o hu hexec (State.launchOp_issuer ..) (fun _ => rfl) rfl hflag hissuer hkind
    (hrel _ ((State.bare_retire _ 1).trans (State.bare_launchOp ..)))

theorem tileFree.length (htile : tileFree s tm w.mt.toNat) : w.mt.toNat < tm.tiles.length := by
  obtain ⟨-, ⟨x, hx, -⟩, -⟩ := htile
  exact (List.getElem?_eq_some_iff.mp hx).1

/-! ### TRD and TWR (R247) -/

/-- The keys of the elements that each guard-true lane moves: eight in a row from eight times the lane. -/
def movedKeys (g : Group) (h : Head) : List Nat := (lanesOf (guardMask g h)).flatMap fun l => (List.range 8).map fun j => 8 * l + j

theorem mem_movedKeys {h : Head} {row col : Nat} :
    16 * row + col ∈ movedKeys g h ↔ (guardMask g h).getLsbD (2 * row + col / 8) = true := by
  simp only [movedKeys, List.mem_flatMap, lanesOf_mem, List.mem_map, List.mem_range]
  constructor
  · rintro ⟨l, hl, j, hj, hkey⟩
    obtain rfl : l = 2 * row + col / 8 := by omega
    exact hl
  · exact fun hl => ⟨_, hl, col % 8, by omega, by omega⟩

/-- `TWR` writes each lane's eight registers to the elements of its keys. -/
theorem twr_writes (t : Team) : (lanesOf (guardMask g w.head)).foldl (fun t l =>
      (List.range 8).foldl (fun t j => tilePut t w.mt.toNat (l / 2) (8 * (l % 2) + j) (readOpd g l w.v j)) t) t =
    tileRun w.mt.toNat (fun i => readOpd g (i / 8) w.v (i % 8)) (movedKeys g w.head) t := by
  rw [tileRun, movedKeys, List.foldl_flatMap]
  refine List.foldl_ext _ _ _ fun t l _ => ?_
  rw [List.foldl_map]
  refine List.foldl_ext _ _ _ fun t j hj => ?_
  have hj8 := List.mem_range.mp hj
  rw [show (8 * l + j) / 16 = l / 2 by omega, show (8 * l + j) % 16 = 8 * (l % 2) + j by omega, show (8 * l + j) / 8 = l by omega,
    show (8 * l + j) % 8 = j by omega]

theorem trd_begins (htile : tileFree s tm w.mt.toNat) (hn : selectedFlag g w.head.fs = some n) (hfree : flagFree g w.head)
    (hissues : s.issues w.head (tileFormCheck (formTile true true false (vRun true) unusedSpec subZero) w [] fun g l => boundFails g l 1 8 w.v) g)
    (hm : guardMask g w.head ≠ 0) : s.begins (.trd w) g (runWrites g w.v 8) n .tileReg fun o t => t.bare = s.bare ∧
      o.writes = (lanesOf (guardMask g w.head)).flatMap fun l => (List.range 8).filterMap fun j =>
        (nthName g l w.v j).map fun r => ⟨r, some l, tileElem tm w.mt.toNat (l / 2) (8 * (l % 2) + j)⟩ := by
  have hexec : execTrd w s = _ := hissues.run _
  rw [tileOpGo_starts htile hn hfree rfl rfl (decide_eq_false hm)] at hexec
  refine State.begins_of_launch_alone _ hissues.1 hexec rfl rfl rfl fun t hbare => ⟨hbare, ?_⟩
  simp only [State.ownTeam_eq htile.1]

theorem twr_begins (htile : tileFree s tm w.mt.toNat) (hn : selectedFlag g w.head.fs = some n) (hfree : flagFree g w.head)
    (hissues : s.issues w.head (tileFormCheck (formTile true true false (vRun false) unusedSpec subZero) w [(w.v, 8)]
      fun g l => boundFails g l 1 8 w.v) g) (hm : guardMask g w.head ≠ 0) :
    s.begins (.twr w) g [] n .tileReg fun o t => o.writes = [] ∧ s.tilesTo t tm fun m row col =>
      if m = w.mt.toNat ∧ (guardMask g w.head).getLsbD (2 * row + col / 8) = true then readOpd g (2 * row + col / 8) w.v (col % 8)
      else tileElem tm m row col := by
  have hexec : execTwr w s = _ := hissues.run _
  rw [tileOpGo_starts htile hn hfree rfl rfl (decide_eq_false hm)] at hexec
  simp only [twr_writes] at hexec
  refine State.begins_of_modTeam _ hissues.1 htile.1 (tileRun_groups _ _ _) hexec rfl rfl rfl fun t hteam => ⟨rfl, ?_⟩
  refine State.tilesTo_of_teamOnly hteam (Team.elemsOnly_tileRun ..) fun m row col _ _ => ?_
  rw [tileElem_tileRun _ _ htile.length]
  simp only [mem_movedKeys, show (16 * row + col) / 8 = 2 * row + col / 8 by omega, show (16 * row + col) % 8 = col % 8 by omega]

/-! ### TSCL (R249) -/

/-- One element scaled, and the status bits it raises. -/
def scaledElem (sub : Nat) (gamma x : Reg32) : Reg32 × BitVec 32 :=
  let p := x.toInt * gamma.toInt
  if sub % 2 = 1 then
    if sub / 2 % 2 = 1 then (BitVec.ofInt 32 (saturated p), if saturated p = p then 0 else msISAT) else (BitVec.ofInt 32 p, 0)
  else
    let r := scaleAcc gamma.toNat x.toNat
    (BitVec.ofNat 32 r.bits, (if r.mnv then msMNV else 0) ||| if r.mof then msMOF else 0)

theorem tsclElem_eq (sub : Nat) : tsclElem (bitOf sub 0) (bitOf sub 1) = scaledElem sub := by
  funext gamma x
  simp only [tsclElem, scaledElem, clamp32_saturated, bitOf_eq, bitIf, Nat.pow_zero, Nat.div_one, Nat.pow_one, decide_eq_true_eq, ne_eq, ite_not]

theorem getLsbD_foldl_or {α : Type} {k : Nat} (f : α → BitVec k) (l : List α) (b : BitVec k) (i : Nat) :
    (l.foldl (fun b x => b ||| f x) b).getLsbD i = true ↔ b.getLsbD i = true ∨ ∃ x ∈ l, (f x).getLsbD i = true := by
  induction l generalizing b with
  | nil => simp
  | cons a l ih => rw [List.foldl_cons, ih]; simp [or_assoc]

/-- A property of the 256 keys is one of the rows and columns. -/
theorem exists_key_iff {p : Nat → Nat → Prop} : (∃ i ∈ List.range 256, p (i / 16) (i % 16)) ↔ ∃ row col, row < 16 ∧ col < 16 ∧ p row col := by
  simp only [List.mem_range]
  constructor
  · rintro ⟨i, hi, h⟩
    exact ⟨i / 16, i % 16, by omega, by omega, h⟩
  · rintro ⟨row, col, hrow, hcol, h⟩
    refine ⟨16 * row + col, by omega, ?_⟩
    rwa [show (16 * row + col) / 16 = row by omega, show (16 * row + col) % 16 = col by omega]

theorem tileElem_tileFill (hm : w.mt.toNat < tm.tiles.length) (f : Nat → Nat → Reg32) (m : Nat) {row col : Nat} (hrow : row < 16) (hcol : col < 16) :
    tileElem (tileFill tm w.mt.toNat f) m row col = if m = w.mt.toNat then f row col else tileElem tm m row col := by
  have hkey : 16 * row + col ∈ List.range 256 := List.mem_range.mpr (by omega)
  rw [tileFill_eq, tileElem_tileRun _ _ hm]
  simp only [hkey, and_true, show (16 * row + col) / 16 = row by omega, show (16 * row + col) % 16 = col by omega]

/-- The operation that `TSCL` starts. -/
def State.scaleOp (s : State) (n : Nat) (mstat : BitVec 32) : Op := { Op.blank s.nextId s.issuer .tileReg (some n) with mstat := mstat }

theorem tscl_begins (htile : tileFree s tm w.mt.toNat) (hn : selectedFlag g w.head.fs = some n) (hfree : flagFree g w.head)
    (hissues : s.issues w.head (tileFormCheck (formTile true false false (kOnlyDetails false) unusedSpec fun n => n < 4 && n ≠ 2) w
      [(w.v, 1)] noBound) g) {scaled : Reg32 → Reg32 × BitVec 32} (hscaled : scaledElem w.sub.toNat (readOpd g 0 w.v 0) = scaled) :
    s.begins (.tscl w) g [] n .tileReg fun o t => o.writes = [] ∧
      (∀ i : Nat, o.mstat.getLsbD i = true ↔ ∃ row col, row < 16 ∧ col < 16 ∧ (scaled (tileElem tm w.mt.toNat row col)).2.getLsbD i = true) ∧
      s.tilesTo t tm fun m row col => if m = w.mt.toNat then (scaled (tileElem tm m row col)).1 else tileElem tm m row col := by
  have hexec : Sys2Proof.Machine.exec (.tscl w) s = tsclGo w s g := hissues.run (tsclGo w s)
  simp only [tsclGo, State.ownTeam_eq htile.1, tsclElem_eq, hscaled, tileOpGo_starts htile hn hfree rfl rfl rfl] at hexec
  have hmstat (i : Nat) := getLsbD_foldl_or (fun i => (scaled (tileElem tm w.mt.toNat (i / 16) (i % 16))).2) (List.range 256) 0 i
  generalize hbits : (List.range 256).foldl (fun b i => b ||| (scaled (tileElem tm w.mt.toNat (i / 16) (i % 16))).2) (0 : BitVec 32) = bits
    at hexec hmstat
  refine State.begins_of_modTeam (s.scaleOp n bits) hissues.1 htile.1
    (f := fun t => tileFill t w.mt.toNat fun r c => (scaled (tileElem t w.mt.toNat r c)).1)
    (fun t => tileRun_groups ..) hexec rfl rfl rfl fun t hteam => ⟨rfl, fun i => (hmstat i).trans ?_, ?_⟩
  · rw [← exists_key_iff (p := fun row col => (scaled (tileElem tm w.mt.toNat row col)).2.getLsbD i = true)]
    simp
  · refine State.tilesTo_of_teamOnly hteam (Team.elemsOnly_tileRun ..) fun m row col hrow hcol => ?_
    rw [tileElem_tileFill htile.length _ _ hrow hcol]
    split
    next hm => rw [hm]
    next => rfl

end

theorem tileMovesStart_holds : tileMovesStart := fun _ _ _ _ _ htile hn hfree =>
  ⟨trd_begins htile hn hfree, twr_begins htile hn hfree, fun hissues => tscl_begins htile hn hfree hissues rfl⟩

/-! ### TST (R248) -/

theorem isZero_val32 (x : Nat) : isZero (val32 x) = decide (x % 2 ^ 31 = 0) := by
  have hparts : x % 2 ^ 31 = x / 2 ^ 23 % 2 ^ 8 * 2 ^ 23 + x % 2 ^ 23 := by omega
  simp only [val32, unpack, fp32, field, Nat.pow_zero, Nat.div_one, Bool.false_eq_true, if_false, hparts]
  generalize x / 2 ^ 23 % 2 ^ 8 = e
  generalize x % 2 ^ 23 = m
  by_cases hspecial : e = 255
  · subst hspecial
    by_cases hm : m = 0 <;> simp [isZero, hm]
  · by_cases he : e = 0 <;> simp [isZero, hspecial, he]

theorem storedElem_eq {cv : Nat} (hcv : cv < 3) (x : Reg32) : storedElem cv x =
    if cv = 0 then bytesOfNat 4 x.toNat else if x.toNat % 2 ^ 31 = 0 then [0, 0]
    else bytesOfNat 2 (rnd (if cv = 1 then bf16 else fp16) .rne false (unpack fp32 false x.toNat)).bits := by
  have hzero := isZero_val32 x.toNat
  have hbytes : bytesOfNat 2 0 = [0, 0] := rfl
  match cv with
  | 0 => rfl
  | 1 | 2 =>
    simp only [storedElem, rneBf, rne16, rne, hzero, decide_eq_true_eq]
    split <;> simp [*, val32]

section
variable {w : TileW} {s : State} {g : Group} {n : Nat} {tm : Team}

theorem worstVerdict_nones {vs : List (Option (Nat × Nat × Nat))} (h : ∀ v ∈ vs, v = none) : worstVerdict vs = none := by
  unfold worstVerdict
  induction vs with
  | nil => rfl
  | cons v vs ih =>
    obtain ⟨hv, hrest⟩ := List.forall_mem_cons.mp h
    rw [List.foldl_cons, hv]
    exact ih hrest

theorem State.padVerdict_none (htm : s.teams[s.viewTeam s.issuer]? = some tm) {a len : Nat} (h : scratchVerdict tm a len = none) :
    s.padVerdict a len = none := by
  simp only [State.padVerdict, htm, h, Option.filter_none]

/-- The rows of a tile in their stored form, from an address on. -/
def tstRows (tm : Team) (m cv a stride : Nat) : List (Nat × List Byte) :=
  (List.range 16).map fun r => (a + r * stride, (List.range 16).flatMap fun c => storedElem cv (tileElem tm m r c))

/-- The operation that `TST` starts. -/
def State.tstOp (s : State) (w : TileW) (n : Nat) (rows : List (Nat × List Byte)) : Op :=
  { Op.blank s.nextId s.issuer .tst (some n) with
    arrive := arriveOf w
    todo := padMoves rows }

theorem tstGo_starts (htile : tileFree s tm w.mt.toNat) (hn : selectedFlag g w.head.fs = some n) (hfree : flagFree g w.head)
    {a width stride : Nat} (ha : (readOpd g 0 w.v 0).toNat = a) (hwidth : (if w.sub.toNat = 0 then 64 else 32) = width)
    (hstride : (if w.w = specZero then width else (readOpd g 0 w.w 0).toNat) = stride) (halign : a % 32 = 0) (hstep : stride % 32 = 0)
    (hroom : width ≤ stride) (hpads : ∀ r, r < 16 → scratchVerdict tm (a + r * stride : Nat) width = none)
    (hring : s.ringVerdict (w.arr = 1) w.sg.toNat w.slot.toNat = none) (hidle : s.padBusy a (15 * stride + width) = false)
    (hacquire : s.acquiring s.issuer = false) :
    tstGo w s g = .next ((s.launchOp [] (s.tstOp w n (tstRows tm w.mt.toNat w.sub.toNat a stride))).retire 1) := by
  have hrows : worstVerdict ((List.range 16).map fun r => s.padVerdict (a + r * stride) width) = none := by
    refine worstVerdict_nones fun v hv => ?_
    obtain ⟨r, hr, rfl⟩ := List.mem_map.mp hv
    exact State.padVerdict_none htile.1 (hpads r (List.mem_range.mp hr))
  have haligned : (decide (a % 32 = 0) && decide (stride % 32 = 0) && decide (width ≤ stride)) = true := by simp [halign, hstep, hroom]
  simp only [tstGo, ha, hwidth, hstride]
  rw [tileOpGo_starts htile hn hfree ?fail (by rw [hidle, hacquire]; rfl) rfl]
  case fail =>
    rw [haligned, hrows, hring]
    rfl
  simp only [State.ownTeam_eq htile.1]
  rfl

theorem tst_begins (htile : tileFree s tm w.mt.toNat) (hn : selectedFlag g w.head.fs = some n) (hfree : flagFree g w.head)
    (hissues : s.issues w.head (tileFormCheck (formTile true false true (kOnlyDetails false) kOrZero fun n => n < 3) w
      [(w.v, 1), (w.w, 1)] noBound) g) {a width stride : Nat} (ha : (readOpd g 0 w.v 0).toNat = a)
    (hwidth : (if w.sub = 0 then 64 else 32) = width) (hstride : (if w.w = specZero then width else (readOpd g 0 w.w 0).toNat) = stride)
    (halign : a % 32 = 0) (hstep : stride % 32 = 0) (hroom : width ≤ stride)
    (hpads : ∀ r, r < 16 → scratchVerdict tm (a + r * stride : Nat) width = none)
    (hring : s.ringVerdict (w.arr = 1) w.sg.toNat w.slot.toNat = none) (hidle : s.padBusy a (15 * stride + width) = false)
    (hacquire : s.acquiring s.issuer = false) :
    s.begins (.tst w) g [] n .tst fun o t => t.bare = s.bare ∧ o.arrive = (if w.arr = 1 then some (w.sg.toNat, w.slot.toNat) else none) ∧
      o.todo = padMoves ((List.range 16).map fun r => (a + r * stride, (List.range 16).flatMap fun c =>
        let x := (tileElem tm w.mt.toNat r c).toNat
        if w.sub = 0 then bytesOfNat 4 x
        else if x % 2 ^ 31 = 0 then [0, 0]
        else bytesOfNat 2 (rnd (if w.sub = 1 then bf16 else fp16) .rne false (unpack fp32 false x)).bits)) := by
  have hexec : Sys2Proof.Machine.exec (.tst w) s = tstGo w s g := hissues.run (tstGo w s)
  have hsub : w.sub.toNat < 3 := by simpa [formTile] using tileForm_sub hissues.2.2
  have hzero : w.sub = 0 ↔ w.sub.toNat = 0 := BitVec.toNat_inj.symm
  have hone : w.sub = 1 ↔ w.sub.toNat = 1 := BitVec.toNat_inj.symm
  simp only [hzero] at hwidth
  refine State.begins_of_launch_alone _ hissues.1 (hexec.trans (tstGo_starts htile hn hfree ha hwidth hstride halign hstep hroom hpads hring
    hidle hacquire)) rfl rfl rfl fun t hbare => ⟨hbare, rfl, ?_⟩
  simp only [State.tstOp, tstRows, storedElem_eq hsub, hzero, hone]

/-! ### TSAVE and TLOAD (R250) -/

/-- The operation of a tile image that moves to or from memory. -/
def State.imageOp (s : State) (w : TileW) (n a : Nat) (todo : List Move) (effect : Effect) : Op :=
  { Op.blank s.nextId s.issuer .tileImage (some n) with
    arrive := arriveOf w
    trans := s.transFor s.dieCtx.1 s.dieCtx.2 (pagesOf a 1024)
    todo := todo
    effect := effect }

theorem imageVerdict_none : worstVerdict [alignVerdict 0x02 true, none, none, none] = none := rfl

section
variable (htile : tileFree s tm w.mt.toNat) (hn : selectedFlag g w.head.fs = some n) (hfree : flagFree g w.head)
  (hissues : s.issues w.head (tileFormCheck formImage w [(w.v, 2)] noBound) g) {a : Nat} (ha : (readSrc g 0 true w.v).toNat = a)
  (halign : a % 32 = 0) (hacquire : s.acquiring s.issuer = false) (hring : s.ringVerdict (w.arr = 1) w.sg.toNat w.slot.toNat = none)
include htile hn hfree hissues ha halign hacquire hring

theorem tsave_begins (hspan : s.spanVerdict needW a 1024 = none) (hlog : s.rowsLog 1 [(a, 1024)] = none) :
    s.begins (.tsave w) g [] n .tileImage fun o t => t.resting = s.resting ∧ t.reqs = s.reqs ∧
      o.arrive = (if w.arr = 1 then some (w.sg.toNat, w.slot.toNat) else none) ∧
      o.todo = storeMoves [(a, (List.range 256).flatMap fun i => bytesOfNat 4 (tileElem tm w.mt.toNat (i / 16) (i % 16)).toNat)] := by
  have hexec : Sys2Proof.Machine.exec (.tsave w) s = imageGo true w s g := hissues.run (imageGo true w s)
  simp only [imageGo, ha, hspan, hlog, hring, halign, decide_true, ite_self, if_true, State.ownTeam_eq htile.1] at hexec
  rw [imageVerdict_none, tileOpGo_starts htile hn hfree rfl hacquire rfl] at hexec
  have hcache := s.accessOnly_cacheTrans s.dieCtx.1 s.dieCtx.2 (pagesOf a 1024)
  refine State.begins_of_access (s.imageOp w n a _ _) hissues.1 hexec (hcache.trans (State.accessOnly_reserveRows ..)) (State.accessOnly_refl _)
    rfl rfl rfl fun hrest => ⟨hrest, ?_, rfl, rfl⟩
  rw [State.retire_reqs, State.launchOp_reqs, State.reserveRows_reqs, State.cacheTrans_reqs]

theorem tload_begins (hspan : s.spanVerdict needR a 1024 = none) :
    s.begins (.tload w) g [] n .tileImage fun o t => t.resting = s.resting ∧ t.reqs = s.reqs ∧
      o.arrive = (if w.arr = 1 then some (w.sg.toNat, w.slot.toNat) else none) ∧ o.effect = .tileImage w.mt.toNat ∧
      o.todo = (List.range 32).map fun i => .tileFill w.mt.toNat a i := by
  have hexec : Sys2Proof.Machine.exec (.tload w) s = imageGo false w s g := hissues.run (imageGo false w s)
  simp only [imageGo, ha, hspan, hring, halign, decide_true, Bool.false_and, Bool.false_eq_true, if_false] at hexec
  rw [imageVerdict_none, tileOpGo_starts htile hn hfree rfl hacquire rfl] at hexec
  refine State.begins_of_access (s.imageOp w n a (imageMoves w.mt.toNat a) (.tileImage w.mt.toNat)) hissues.1 hexec (s.accessOnly_cacheTrans ..)
    (State.accessOnly_refl _) rfl rfl rfl fun hrest => ⟨hrest, ?_, rfl, rfl, rfl⟩
  rw [State.retire_reqs, State.launchOp_reqs, State.cacheTrans_reqs]

end
end

theorem tileImagesStart_holds : tileImagesStart := fun _ _ _ _ _ htile hn hfree =>
  ⟨fun hissues halign hstep hroom hpads hring hidle hacquire =>
      tst_begins htile hn hfree hissues rfl rfl rfl halign hstep hroom hpads hring hidle hacquire,
    fun hissues halign _ hacquire hring =>
      ⟨fun hspan hlog => tsave_begins htile hn hfree hissues rfl halign hacquire hring hspan hlog,
        fun hspan => tload_begins htile hn hfree hissues rfl halign hacquire hring hspan⟩⟩

/-- Settles O19: each word starts one operation on its tile; TWR and TSCL write elements of that tile alone. -/
theorem tileWordsStart : Obligations.TileMovesStart := ⟨tileMovesStart_holds, tileImagesStart_holds⟩

end Sys2Proof.Machine
end

section
/-!
Matrix operations with nothing left to move: they are delivered, and a `TEPI` under `.AON` steps its version (R238, R239, R248, R250, R268).
-/
namespace Sys2Proof.Machine

theorem State.progress_done {s : State} {o : Op} (htodo : o.todo = []) (done : Op → Out) : s.progress o done = done o := by
  simp only [State.progress, htodo]

theorem execTransfer_done {s : State} {o : Op} {kinds : List OpKind} (ho : s.opOf kinds = some o) (htodo : o.todo = []) :
    execTransfer kinds s = .next ((s.arriving o).finishOp o) := by
  simp only [execTransfer, ho, State.progress_done htodo, State.completeOp_eq]

theorem State.opOf_kind {s : State} {o : Op} {k : OpKind} (ho : s.opOf [k] = some o) : o.kind = k := by
  have hmatch := List.find?_some ho
  simp only [Bool.and_eq_true, decide_eq_true_eq] at hmatch
  simpa using hmatch.2

/-- A `TST` that arrives waits for the earlier writes of its group (R389). -/
theorem tstComplete_done {s : State} {o : Op} (ho : s.opOf [.tst] = some o) (htodo : o.todo = [])
    (harrive : o.arrive.isSome = true → s.writesDone o false = true) :
    Sys2Proof.Machine.exec .tstComplete s = .next ((s.arriving o).finishOp o) := by
  have hready : (o.arrive.isSome && !s.writesDone o false) = false := by
    cases h : o.arrive.isSome with
    | false => rfl
    | true => rw [harrive h]; rfl
  show execTstComplete s = _
  simp only [execTstComplete, ho, State.progress_done htodo, hready, Bool.false_eq_true, if_false, State.completeOp_eq]

/-! ### TEPI (R268) -/

/-- The turn of a `TEPI` with nothing left to move. -/
def State.flueTurn (s : State) (o : Op) : Out :=
  let ready (scope : Nat) : Bool := s.writesDone o (2 ≤ scope) && !s.readsBefore o
  match o.effect with
  | .flueRows va rows 0 =>
    if ready 4 then s.await o (.bufFill false va 0 8)
      (.next ((s.bumpVersion o va).modOp o fun p => { p with effect := .flueRows va rows 1, todo := storeMoves rows }))
    else .next s
  | .flueRows va _ 1 => s.await o (.bufFill false va 0 8) (.next ((s.bumpVersion o va).modOp o fun p => { p with effect := .none }))
  | _ => if ready (o.release.getD 0) then .next (s.completeOp o) else .next s

section
variable {s : State} {o : Op} (ho : s.opOf [.tepi] = some o)
include ho

/-- A version of a `TEPI` is stepped by a store that is not kept back from memory. -/
theorem State.bumpVersion_tepi (va : Nat) : s.bumpVersion o va =
    s.storeBy (s.opTrans o) o.issuer false [(va, bytesOfNat 8 (natOfBytes (s.opRead o va 8) + 1))] := by
  simp [State.bumpVersion, State.opStore, State.opOf_kind ho]

variable (htodo : o.todo = [])
include htodo

theorem tepiComplete_done : Sys2Proof.Machine.exec .tepiComplete s = s.flueTurn o := by
  show execTepiComplete s = _
  simp only [execTepiComplete, ho, State.progress_done htodo]
  rfl

variable (hreads : s.readsBefore o = false)

include hreads in
theorem tepiComplete_first {va : Nat} {rows : List (Nat × List Byte)} (heffect : o.effect = .flueRows va rows 0) (hwrites : s.writesDone o true = true)
    (hmove : s.movable o (.bufFill false va 0 8)) :
    s.goesOn .tepiComplete o (fun p => { p with effect := .flueRows va rows 1, todo := storeMoves rows })
      (s.storeBy (s.opTrans o) o.issuer false [(va, bytesOfNat 8 (natOfBytes (s.opRead o va 8) + 1))]) := by
  have hready : (s.writesDone o (2 ≤ 4) && !s.readsBefore o) = true := by simp [hwrites, hreads]
  rw [State.goesOn, tepiComplete_done ho htodo, ← State.bumpVersion_tepi ho]
  simp only [State.flueTurn, heffect]
  rw [if_pos hready, State.await_go hmove.1 hmove.2]
  rfl

theorem tepiComplete_second {va : Nat} {rows : List (Nat × List Byte)} (heffect : o.effect = .flueRows va rows 1)
    (hmove : s.movable o (.bufFill false va 0 8)) :
    s.goesOn .tepiComplete o (fun p => { p with effect := .none })
      (s.storeBy (s.opTrans o) o.issuer false [(va, bytesOfNat 8 (natOfBytes (s.opRead o va 8) + 1))]) := by
  rw [State.goesOn, tepiComplete_done ho htodo, ← State.bumpVersion_tepi ho]
  simp only [State.flueTurn, heffect]
  rw [State.await_go hmove.1 hmove.2]
  rfl

include hreads in
theorem tepiComplete_last (heffect : o.effect = .none) (hwrites : s.writesDone o (2 ≤ o.release.getD 0) = true) :
    Sys2Proof.Machine.exec .tepiComplete s = .next ((s.arriving o).finishOp o) := by
  have hready : (s.writesDone o (2 ≤ o.release.getD 0) && !s.readsBefore o) = true := by rw [hwrites, hreads]; rfl
  rw [tepiComplete_done ho htodo]
  simp only [State.flueTurn, heffect, State.completeOp_eq]
  rw [if_pos hready]

end

theorem matrixMovesPerform_holds : matrixMovesPerform := by
  intro s o htodo
  refine ⟨fun ho => ?obld, fun ho harrive => ?tst, fun ho => ?image, fun ho hreads => ⟨?first, ?second, ?last⟩⟩
  case obld => exact State.completes_of_finishOp (execTransfer_done ho htodo)
  case tst => exact State.completes_of_finishOp (tstComplete_done ho htodo harrive)
  case image => exact State.completes_of_finishOp (execTransfer_done ho htodo)
  case first => exact fun va rows heffect hwrites hmove => tepiComplete_first ho htodo hreads heffect hwrites hmove
  case second => exact fun va rows heffect hmove => tepiComplete_second ho htodo heffect hmove
  case last => exact fun heffect hwrites => State.completes_of_finishOp (tepiComplete_last ho htodo hreads heffect hwrites)

/-- Settles O34: with nothing left to move each operation is delivered, and a `TEPI` under `.AON` goes through the steps of its version. -/
theorem matrixMovesComplete : Obligations.MatrixMovesPerform := matrixMovesPerform_holds

end Sys2Proof.Machine
end

section
/-!
`MMAR` waits while a member has an acquire outstanding (R233, R379). The statement of a sequence under way leaves that
condition out, where the one of an opening has it: a gang of two with a pending acquire refutes it.
-/
namespace Sys2Proof.Machine

/-- `MMAR` on tile 0 with both operands from range 3; its block names k registers, which a sequence under way does not read. -/
def waitingWord : MulW :=
  { head := ⟨0, 0, 0, 1⟩, mt := 0, oba := 3, bsrc := 96, aoff := 0, bfmt := 0, st := 0, bs := 1, ac := 0, sc := 0, ng := 0, gk := 0,
    b := 0, e := 0, rsv := 0 }
def waitingBlock : CBlock := ⟨0, 0, 0, 0⟩

/-- Member `gi` of the gang of groups 0 and 1, with the word latched by every thread. -/
def waitingMember (gi : Nat) : Group :=
  { Group.start .matrix 256 0 32 with
    gang := BitVec.ofNat 64 (2 + 16 * gi + 256 * 32)
    latch := some ⟨.mmar waitingWord waitingBlock, [], 0, [], some 0, none⟩
    hold := .latch
    clause := some ⟨0, 0, 0, 1, 15, false, 1, BitVec.allOnes 32, true⟩ }

/-- A range of 32 rows of format 7 at the start of the operand buffer. -/
def waitingRange : CBlock := ⟨BitVec.ofNat 64 (2 ^ 9 * 127 + 2 ^ 18 * 7 + 2 ^ 24 * 31), 0, 0, 0⟩

/-- The map of the sequence under way: every row follows row 0. -/
def waitingRiddle : Riddle := ⟨[0, 1], 2, 0, List.replicate 32 0⟩

/-- The gang's team on core 0, and a pending load of group 0 with an acquire of device scope. -/
def waitingWorld : State :=
  { windowedWorld.modTeam 0 fun tm => { tm with
      groups := [waitingMember 0, waitingMember 1]
      obufUnits := 512
      ranges := [⟨3, waitingRange⟩]
      tiles := List.replicate 12 ⟨true, []⟩
      riddles := [waitingRiddle] } with
    ops := [{ Op.blank 0 (.group 0 0) .mem none with acquire := some 2 }] }

/-- How many operations are pending after a word. -/
def opsAfter (i : Instr) (s : State) : Option Nat :=
  match Sys2Proof.Machine.exec i s with
  | .next u => some u.ops.length
  | _ => none

theorem waitingWorld_opsAfter : opsAfter (.mmar waitingWord waitingBlock) waitingWorld = some 1 := by decide +kernel

theorem waitingWorld_gangMet {tm : Team} (htm : waitingWorld.teams[0]? = some tm) :
    gangMet waitingWorld (.mmar waitingWord waitingBlock) waitingWord.head (waitingMember 0) 0 0 [0, 1] tm := by
  have hgroups : tm.groups = [waitingMember 0, waitingMember 1] := by
    rw [← Option.some.inj ((rfl : waitingWorld.teams[0]? = some _).symm.trans htm)]
  have hlist : gangList (waitingMember 0) = [0, 1] := by decide +kernel
  have hlatches : waitingWorld.latches 0 [0, 1] =
    [⟨.mmar waitingWord waitingBlock, [], 0, [], some 0, none⟩, ⟨.mmar waitingWord waitingBlock, [], 0, [], some 0, none⟩] := rfl
  refine ⟨rfl, htm, rfl, rfl, rfl, by decide +kernel, ?running, by decide +kernel, by decide, ?latched, ?alike⟩
  case running =>
    rw [hlist, hgroups]
    simp only [List.forall_mem_cons, List.not_mem_nil, false_imp_iff, implies_true, and_true]
    exact ⟨fun x hx => Option.some.inj hx ▸ RunState.noConfusion, fun x hx => Option.some.inj hx ▸ RunState.noConfusion⟩
  case latched => simp [hlatches]
  case alike =>
    rw [hgroups]
    simp only [List.forall_mem_cons, List.not_mem_nil, false_imp_iff, implies_true, and_true]
    exact ⟨⟨_, rfl, by decide +kernel, by decide +kernel⟩, ⟨_, rfl, by decide +kernel, by decide +kernel⟩⟩

/-- A sequence whose multiply issues has one more pending operation for each member. -/
theorem State.multiplied_ops {s u : State} {w : MulW} {t : Nat} {ms : List Nat} {src : ObRec} {row : Nat → Nat} {bits : BitVec 32}
    {before tm tm' : Team} (h : s.multiplied u w t ms src row bits before tm tm') : u.ops.length = s.ops.length + ms.length := by
  obtain ⟨-, -, ⟨os, hops, hos⟩, -⟩ := h
  have hlength := congrArg List.length hos
  rw [List.length_map, List.length_mapIdx] at hlength
  rw [hops, List.length_append, hlength]

theorem not_riddleRuns : ¬ riddleRuns := by
  intro hriddle
  obtain ⟨u, tm', hexec, -, hmultiplied, -⟩ := hriddle waitingWord waitingBlock waitingWorld (waitingMember 0) 0 0 [0, 1] _ (recordOf waitingRange)
    waitingRiddle (waitingWorld_gangMet rfl) rfl rfl (by decide +kernel) rfl (by decide +kernel) (by decide +kernel) (by decide +kernel)
    (by decide +kernel)
  have hcount := waitingWorld_opsAfter
  simp only [opsAfter, hexec, State.multiplied_ops hmultiplied] at hcount
  exact absurd hcount (by decide +kernel)

/-- Refutes O21: an `MMAR` of a sequence under way, latched by both members of its gang while group 0 has an acquire outstanding, waits;
the statement asks for the multiply. -/
theorem not_multipliesMeet : ¬ Obligations.MultipliesMeet := fun ⟨_, _, hriddle, _⟩ => not_riddleRuns hriddle

end Sys2Proof.Machine
end
